-- ==== Sys2Proof/Word.lean ====
section
/-!
DEFINITION. The word types of the machine (spec/02 R15, spec/04 R80).
-/
namespace Sys2Proof

/-- One byte of memory. -/
abbrev Byte := BitVec 8

/-- A 64-bit register, or one lane of a vector register (R80). -/
abbrev Word := BitVec 64

/-- A 32-bit code parcel (R15). -/
abbrev Parcel := BitVec 32

end Sys2Proof
end

