-- ==== Sys2Proof/Machine/Bits.lean ====
section
/-!
DEFINITION. Bit-field, sign-extension and byte-order helpers shared by the decoder and the meanings.
Fields are taken from natural numbers, so that a word's layout is plain arithmetic.
-/
namespace Sys2Proof

/-- Bits `[lo + len - 1 : lo]` of `w`. -/
def bits (w lo len : Nat) : Nat := w / 2 ^ lo % 2 ^ len

/-- Bit `i` of `w`. -/
def bit (w i : Nat) : Bool := w / 2 ^ i % 2 == 1

/-- 1 or 0. -/
def b2n (b : Bool) : Nat := if b then 1 else 0

/-- The `len`-bit pattern `x` read as a two's-complement integer. -/
def sext (len x : Nat) : Int :=
  if x % 2 ^ len < 2 ^ (len - 1) then (x % 2 ^ len : Nat) else (x % 2 ^ len : Nat) - (2 ^ len : Nat)

/-- The two's-complement `len`-bit pattern of an integer. -/
def pattern (len : Nat) (i : Int) : Nat := (i % ((2 ^ len : Nat) : Int)).toNat

/-- A 64-bit sum that wraps (R149's `Wrap(uint64, …)`). -/
def wrap64 (i : Int) : Nat := pattern 64 i

/-- Bytes of `x`, the least significant first, `n` of them. -/
def bytesOf : Nat → Nat → List Byte
  | 0, _ => []
  | n + 1, x => BitVec.ofNat 8 (x % 256) :: bytesOf n (x / 256)

/-- The number whose bytes, the least significant first, are given. -/
def ofBytes : List Byte → Nat
  | [] => 0
  | b :: bs => b.toNat + 256 * ofBytes bs

/-- Replace bits `[lo + len - 1 : lo]` of `w` by `x`. -/
def putBits (w lo len x : Nat) : Nat :=
  w - bits w lo len * 2 ^ lo + (x % 2 ^ len) * 2 ^ lo

/-- Set or clear bit `i`. -/
def putBit (w i : Nat) (b : Bool) : Nat := putBits w i 1 (b2n b)

/-- The numbers below `n` whose bit of `mask` is 1, ascending. -/
def maskList (mask n : Nat) : List Nat := (List.range n).filter (bit mask)

/-- The mask with exactly the bits of the list set. -/
def maskOf (l : List Nat) : Nat := l.foldl (fun m i => putBit m i true) 0

/-- The mask, `n` bits wide, whose bit `i` is `f i`. -/
def maskWhere (n : Nat) (f : Nat → Bool) : Nat :=
  (List.range n).foldl (fun m i => m + b2n (f i) * 2 ^ i) 0

/-- How many of the low `n` bits of `m` are 1. -/
def popcount (n m : Nat) : Nat := ((List.range n).filter (bit m)).length

/-- All ones in `n` bits. -/
def ones (n : Nat) : Nat := 2 ^ n - 1

/-- `a / b` rounded up. -/
def ceilDiv (a b : Nat) : Nat := (a + b - 1) / b

/-- Clamp an integer between two bounds. -/
def clampInt (lo hi x : Int) : Int := if x < lo then lo else if hi < x then hi else x

end Sys2Proof
end

