-- ==== Sys2Proof/Syntax.lean ====
section
/-!
DEFINITION. The instructions and events of the part, one constructor of `Instr` per row of
spec/opcode_table.json. Operands are what the encodings of spec/02 name; operands of an event are what
the row's rule leaves to the environment or to a free order.
-/
namespace Sys2Proof

/-- A rounding mode of R16 (`rm`). -/
inductive Rm where
  | rne | rtz | rdn | rup | rna | stoch | dyn
  deriving DecidableEq, Repr

/-- A memory scope (R22). -/
inductive Scope where
  | lane | warp | block | cluster | die | dev | sys
  deriving DecidableEq, Repr

/-- The modifiers of a VX prefix (R16); without one, mask m0, merging, RNE and no saturation. The fourth
operand `e` is named by no instruction, so it is always zero. -/
structure Vx where
  m : Nat := 0
  z : Bool := false
  rm : Rm := .rne
  sat : Bool := false
  deriving DecidableEq, Repr

/-- A guard predicate with its negation (R26). -/
structure Guard where
  p : Nat := 0
  neg : Bool := false
  deriving DecidableEq, Repr

/-- A source that a register or a bypass latch supplies (R34). -/
inductive Opnd where
  | reg (n : Nat)
  | latch (i : Nat)
  deriving DecidableEq, Repr

/-- An immediate: imm20 alone, or the 48 bits an IX prefix makes of it (R18). -/
inductive Imm where
  | short (n : Nat)
  | long (n : Nat)
  deriving DecidableEq, Repr

/-- Source b of a class 0x0–0x4 word (R45, R83): B = 0, B = 1 (a scalar broadcast), or I = 1. -/
inductive SrcB where
  | opnd (o : Opnd)
  | bcast (o : Opnd)
  | imm (i : Imm)
  deriving DecidableEq, Repr

/-- The operands of a class 0x0–0x4 word (R20). A field an instruction does not use is register 0. -/
structure Alu where
  vx : Vx := {}
  d : Nat := 0
  nowb : Bool := false
  a : Opnd := .reg 0
  b : SrcB := .opnd (.reg 0)
  c : Opnd := .reg 0
  g : Guard := {}
  fmt : Nat := 0
  deriving DecidableEq, Repr

/-- The operands of an FR word outside classes 0x0–0x4 (R20). -/
structure R3 where
  d : Nat := 0
  a : Nat := 0
  b : Nat := 0
  c : Nat := 0
  g : Guard := {}
  fmt : Nat := 0
  deriving DecidableEq, Repr

/-- The offset of an FM word (R21): a register or imm10, each with the 28 bits of an IX prefix if any. -/
inductive MOff where
  | reg (n : Nat) (ix : Option Nat)
  | imm (n : Nat) (ix : Option Nat)
  deriving DecidableEq, Repr

/-- The operands of an FM word (R21). -/
structure Mem where
  vx : Vx := {}
  d : Nat := 0
  a : Nat := 0
  off : MOff := .reg 0 none
  strm : Nat := 0
  after : Nat := 0
  scope : Scope := .warp
  sz : Nat := 0
  g : Guard := {}
  deriving DecidableEq, Repr

/-- The operands of an FB word (R23); `off` is the 24-bit field, in parcels. -/
structure Br where
  a : Nat := 0
  cneg : Bool := false
  off : Nat := 0
  g : Guard := {}
  deriving DecidableEq, Repr

/-- The operands of an FS word (R24). -/
structure Sys where
  d : Nat := 0
  a : Nat := 0
  sys : Nat := 0
  g : Guard := {}
  deriving DecidableEq, Repr

/-- The operations that may stand in a P-slot (R30). -/
inductive PairOp where
  | add | sub | mul | min | max | abs | and | or | xor | andn | shl | shr | sar | rot | clz | popc | brev | mov
  | fadd | fsub | fmul | fmin | fmax | fabs | fneg | fscale
  deriving DecidableEq, Repr

/-- One slot of a P-word (R29). -/
structure Slot where
  op : PairOp
  mod : Bool := false
  d : Nat := 0
  a : Opnd := .reg 0
  nowb : Bool := false
  g : Guard := {}
  fmt : Nat := 0
  deriving DecidableEq, Repr

/-- The integer operations of class 0x8 (R47). -/
inductive AtomOp where
  | add | smin | umin | smax | umax | and | or | xor | exch
  deriving DecidableEq, Repr

/-- The floating-point operations of class 0x8 (R47). -/
inductive FAtomOp where
  | add | min | max
  deriving DecidableEq, Repr

/-- The operations of REDV (R47). -/
inductive RedOp where
  | int (o : AtomOp)
  | float (o : FAtomOp)
  deriving DecidableEq, Repr

/-- The register fields of a custom-0 handler word (R333). -/
structure SlArgs where
  rd : Nat := 0
  rs1 : Nat := 0
  rs2 : Nat := 0
  f7 : Nat := 0
  deriving DecidableEq, Repr

/-- Conditions of an RV32 branch. -/
inductive RvCond where
  | eq | ne | lt | ge | ltu | geu
  deriving DecidableEq, Repr

/-- Widths of an RV32 load or store; `signed` has its meaning for loads. -/
structure RvWidth where
  bytes : Nat
  signed : Bool
  deriving DecidableEq, Repr

/-- Register operations of RV32I and RV32M. -/
inductive RvOp where
  | add | sub | sll | slt | sltu | xor | srl | sra | or | and
  | mul | mulh | mulhsu | mulhu | div | divu | rem | remu
  deriving DecidableEq, Repr

/-- The base instructions a slice core runs (R321: RV32IM). -/
inductive Rv where
  | lui (rd imm : Nat)
  | auipc (rd imm : Nat)
  | jal (rd : Nat) (off : Int)
  | jalr (rd rs1 : Nat) (off : Int)
  | branch (c : RvCond) (rs1 rs2 : Nat) (off : Int)
  | load (w : RvWidth) (rd rs1 : Nat) (off : Int)
  | store (bytes rs1 rs2 : Nat) (off : Int)
  | opImm (o : RvOp) (rd rs1 : Nat) (imm : Int)
  | op (o : RvOp) (rd rs1 rs2 : Nat)
  deriving DecidableEq, Repr

/-- The compressed instructions a slice core runs (R321: RV32C without floating point). -/
inductive Rvc where
  | addi4spn (rd imm : Nat)
  | lw (rd rs1 imm : Nat)
  | sw (rs1 rs2 imm : Nat)
  | addi (rd : Nat) (imm : Int)
  | jal (off : Int)
  | li (rd : Nat) (imm : Int)
  | addi16sp (imm : Int)
  | lui (rd : Nat) (imm : Int)
  | srli (rd sh : Nat)
  | srai (rd sh : Nat)
  | andi (rd : Nat) (imm : Int)
  | sub (rd rs2 : Nat)
  | xor (rd rs2 : Nat)
  | or (rd rs2 : Nat)
  | and (rd rs2 : Nat)
  | j (off : Int)
  | beqz (rs1 : Nat) (off : Int)
  | bnez (rs1 : Nat) (off : Int)
  | slli (rd sh : Nat)
  | lwsp (rd imm : Nat)
  | jr (rs1 : Nat)
  | mv (rd rs2 : Nat)
  | jalr (rs1 : Nat)
  | add (rd rs2 : Nat)
  | swsp (rs2 imm : Nat)
  deriving DecidableEq, Repr

/-- A word of a slice core's stream outside the eight handler instructions. `illegal` is every word that R321 or
R333 calls illegal; executing it aborts the handler (cause 0x02). -/
inductive RvWord where
  | base (r : Rv)
  | comp (c : Rvc)
  | illegal (word : Nat)
  deriving DecidableEq, Repr

/-- How the fetch of a fill block ends (R40): its bytes come, its home returns an uncorrectable error, or the peer that
holds it, or the fabric on the way there, refuses. -/
inductive FillEnd where
  | fetched | uncorrectable | refused
  deriving DecidableEq, Repr

/-- Why a block is pre-empted (R413, R424). -/
inductive PreCause where
  | preempt | migrate | cancel | scantest
  deriving DecidableEq, Repr

/-- What a slice queues an event for (R325): its kind, the line or byte address, and the request's ASID. -/
inductive SliceEv where
  /-- A request found a line of a tenant absent: its requester handle. -/
  | miss (pa asid handle : Nat)
  /-- A fill of a line was written into the slice. -/
  | fill (pa : Nat)
  /-- A line left the slice. -/
  | evict (pa : Nat)
  /-- An SMSG in flight (its operation) reached the slice. -/
  | smsg (op : Nat)
  /-- The oldest message in flight from a slice core reached the slice. -/
  | slmsg (src : Nat)
  deriving DecidableEq, Repr

/-- Bytes and acknowledgements that the fabric brings (R369, R370). -/
inductive Landing where
  /-- A peer's FXFER: kind 0 names a VA, kind 1 an offset in the scratchpad of block `blk`; `aw` its arrival word, if it
  has one; `last` when these bytes are its last. -/
  | inbound (job : Nat) (toScratch : Bool) (addr blk : Nat) (aw : Option Nat) (last : Bool) (bytes : List Nat) (xfer : Nat)
  /-- The acknowledgement of this module's FXFER. -/
  | ack (op : Nat)
  /-- The bytes of this module's FGET. -/
  | data (op : Nat) (bytes : List Nat)
  /-- The peer refused the transfer. -/
  | rejected (op : Nat)
  deriving DecidableEq, Repr

/-- How a collective ends on this rank (R373, R375). -/
inductive CollEnd where
  /-- Every rank's contribution arrived: the other ranks' bytes, in rank order, this rank's place left empty. -/
  | done (others : List (List Nat))
  /-- A rank's fields differ. -/
  | mismatch
  deriving DecidableEq, Repr

/-- A request that a fabric peer makes of this module (R362, R363). -/
inductive PeerReq where
  | fget (job addr len : Nat)
  | load (pa bytes : Nat)
  | store (pa : Nat) (bytes : List Nat)
  | fetch (pa : Nat)
  deriving DecidableEq, Repr

/-- The abort of a timed-out transfer as its peer sees it (R370). -/
structure AbortMsg where
  xfer : Nat
  job : Nat
  blk : Nat
  aw : Option Nat
  deriving DecidableEq, Repr

/-- What boot finds (R8, R454, R459): whether every image verified, the module id of the slot, the spare of each die,
the status of each physical core kept in flash, and the images' digests. -/
structure BootImage where
  verified : Bool
  moduleId : Nat
  spares : List Nat
  failed : List Nat
  measurements : List Nat
  deriving DecidableEq, Repr

/-- Every row of spec/opcode_table.json. In the first table (R45, R86) `vec` tells class 0x1 from class 0x0. -/
inductive Instr where
  -- class 0x0 and 0x1: integer (R86)
  | add (vec : Bool) (x : Alu)
  | sub (vec : Bool) (x : Alu)
  | mul (vec : Bool) (x : Alu)
  | mulh (vec : Bool) (x : Alu)
  | mad (vec : Bool) (x : Alu)
  | madw (vec : Bool) (x : Alu)
  | div (vec : Bool) (x : Alu)
  | rem (vec : Bool) (x : Alu)
  | min (vec : Bool) (x : Alu)
  | max (vec : Bool) (x : Alu)
  | abs (vec : Bool) (x : Alu)
  | and (vec : Bool) (x : Alu)
  | or (vec : Bool) (x : Alu)
  | xor (vec : Bool) (x : Alu)
  | andn (vec : Bool) (x : Alu)
  | shl (vec : Bool) (x : Alu)
  | shr (vec : Bool) (x : Alu)
  | sar (vec : Bool) (x : Alu)
  | rot (vec : Bool) (x : Alu)
  | clz (vec : Bool) (x : Alu)
  | popc (vec : Bool) (x : Alu)
  | brev (vec : Bool) (x : Alu)
  | bfx (vec : Bool) (x : Alu)
  | bfi (vec : Bool) (x : Alu)
  | sel (vec : Bool) (x : Alu)
  | cmp (vec : Bool) (x : Alu)
  | mov (vec : Bool) (x : Alu)
  | movi (vec : Bool) (x : Alu)
  | lea (vec : Bool) (x : Alu)
  | sad (vec : Bool) (x : Alu)
  -- class 0x2 and 0x3: floating point (R106)
  | fadd (x : Alu)
  | fsub (x : Alu)
  | fmul (x : Alu)
  | ffma (x : Alu)
  | fmin (x : Alu)
  | fmax (x : Alu)
  | fabs (x : Alu)
  | fneg (x : Alu)
  | fcmp (x : Alu)
  | fclass (x : Alu)
  | frnd (x : Alu)
  | fdot2 (x : Alu)
  | fdot4 (x : Alu)
  | fscale (x : Alu)
  | fdiv (x : Alu)
  | fsqrt (x : Alu)
  | frcp (x : Alu)
  | frsq (x : Alu)
  | fexp2 (x : Alu)
  | flog2 (x : Alu)
  | fsin (x : Alu)
  | fcos (x : Alu)
  | ftanh (x : Alu)
  | cvt (x : Alu)
  | cvtbPack (x : Alu)
  | cvtbUnpack (x : Alu)
  -- class 0x4: rearrangement and cross-lane (R180)
  | xget (x : Alu)
  | xput (x : Alu)
  | xbcast (x : Alu)
  | xrot (x : Alu)
  | xshift (x : Alu)
  | xalign (x : Alu)
  | xrev (x : Alu)
  | xzip (x : Alu)
  | xunzip (x : Alu)
  | qswap (x : Alu)
  | qbcast (x : Alu)
  | permt (x : Alu)
  | permb (x : Alu)
  | scan (x : Alu)
  | reduce (x : Alu)
  | ballot (x : Alu)
  | vote (x : Alu)
  | first (x : Alu)
  | popcp (x : Alu)
  -- class 0x5: control (R68)
  | br (x : Br)
  | bru (x : Br)
  | brp (x : Br)
  | brx (x : R3)
  | call (x : Br)
  | ret (x : Sys)
  | join (x : Sys)
  | exit (x : Sys)
  | yield (x : Sys)
  | nop (x : Sys)
  | plop (d a b c tt : Nat) (g : Guard)
  | pmov (x : R3)
  | pWord (a b : Slot)
  -- class 0x6: memory access (R147)
  | ld (x : Mem)
  | st (x : Mem)
  | ldu (x : Mem)
  | stu (x : Mem)
  | ldb (x : Mem)
  | stb (x : Mem)
  | pf (x : Mem)
  | icinv (x : Mem)
  | strq (x : R3)
  | smsg (x : Mem)
  -- class 0x7: scratchpad tags, arrival words, clusters (R203)
  | ldf (x : Mem)
  | ldfe (x : Mem)
  | ste (x : Mem)
  | stf (x : Mem)
  | feset (x : R3)
  | feq (x : R3)
  | awarm (x : Mem)
  | arrive (x : Mem)
  | waitg (x : Mem)
  | cjoin (x : R3)
  | cleave (x : R3)
  -- class 0x8: atomics and reductions (R224)
  | atom (o : AtomOp) (x : Mem)
  | atomnr (o : AtomOp) (x : Mem)
  | atomcas (x : Mem)
  | fatom (o : FAtomOp) (x : Mem)
  | fatomnr (o : FAtomOp) (x : Mem)
  | redv (o : RedOp) (x : Mem)
  -- class 0x9: asynchronous copies (R242)
  | cpy (x : Mem)
  | cpys (x : Mem)
  | cpyg (x : Mem)
  | cpym (x : Mem)
  | cpyc (x : Mem)
  -- class 0xA: matrix (R293); `mcfg`'s operands are imm20's fields (R294)
  | mcfg (k wfmt afmt : Nat) (rm : Rm)
  | mlds (x : R3)
  | mswap (x : R3)
  | mstrm (x : R3)
  | mclr (x : R3)
  | mscl (x : R3)
  | mwaitg (x : R3)
  | marrive (x : R3)
  | mstat (x : R3)
  | accrd (x : R3)
  | accwr (x : R3)
  | accrdc (x : R3)
  -- class 0xB: tasks (R271)
  | launch (x : R3)
  | launcht (x : R3)
  | spawn (x : R3)
  | nodeq (x : R3)
  | cancel (x : R3)
  -- class 0xC: fabric (R366)
  | fxfer (x : Mem)
  | fget (x : Mem)
  | coll (x : Mem)
  | flinkq (x : R3)
  -- class 0xD: power (R397)
  | tokq (x : R3)
  | tokpr (x : R3)
  | intent (x : R3)
  | ballastPf (x : R3)
  | ballastStage (x : R3)
  | ballastCancel (x : R3)
  | vminq (x : R3)
  | capq (x : R3)
  | rampq (x : R3)
  -- class 0xE: system (R434)
  | sysrd (x : Sys)
  | syswrFflags (x : Sys)
  | syswrRng (x : Sys)
  | syswrTlbinv (x : Sys)
  | syswrResumepc (x : Sys)
  | srd (x : Sys)
  | rett (x : Sys)
  | yieldp (x : Sys)
  | trap (x : Sys)
  -- slice cores (R333, R321)
  | slrd (x : SlArgs)
  | slwr (x : SlArgs)
  | slpf (x : SlArgs)
  | slmsg (x : SlArgs)
  | slarr (x : SlArgs)
  | sldone (x : SlArgs)
  | slqry (x : SlArgs)
  | slbud (x : SlArgs)
  | handlerBaseInstruction (r : RvWord)
  -- events
  | fillBlock (fe asid va keep : Nat) (e : FillEnd)
  | memoryOpPerformed (op lanes : Nat) (ext : List Nat)
  | lateFault (op lanes cause : Nat)
  | pinTimeout (core line : Nat)
  | waitEnd (warp lanes : Nat)
  | watchdogExpiry (mcc : Bool) (id : Nat)
  | copyComplete (op : Nat) (ext : List Nat)
  | copyFault (op cause addr member written : Nat) (ext : List Nat)
  | mldsDone (arr : Nat) (ext : List Nat)
  | mswapDone (arr : Nat)
  | mstrmRow (arr : Nat)
  | mclrDone (arr : Nat)
  | marriveMade (bay : Nat)
  | operandFault (arr cause addr : Nat)
  | dispatch (die : Nat)
  | gangStart (gang : Nat)
  | nodeBlockFormation (bin : Nat)
  | coalesceTimer (bin : Nat)
  | triggerFire (entry : Nat)
  | cancelPoint (die job : Nat)
  | blockRetire (block : Nat)
  | relaunch (block : Nat)
  | preemptionDelivery (block : Nat) (cause : PreCause)
  | handlerEntry (warp : Nat)
  | forcedSave (warp : Nat)
  | blockLeave (block : Nat)
  | blockReplace (block : Nat)
  | resumeTimeout (warp : Nat)
  | migration (core phys : Nat)
  | machineCheck (warp part : Nat)
  | scanTest (phys : Nat)
  | coreFailure (phys : Nat)
  | sliceEvent (slice : Nat) (e : SliceEv)
  | handlerStart (slice : Nat)
  | handlerBudgetOverrun (slice : Nat)
  | handlerCommit (slice : Nat) (err : Bool)
  | smsgReply (op : Nat)
  | remoteAccess (op lanes : Nat) (ext : List Nat)
  | fabricLanding (l : Landing)
  | fabricTimeout (op : Nat)
  | collComplete (op : Nat) (r : CollEnd)
  | laneFailure (port lane : Nat)
  | retrainComplete (port : Nat)
  | pantryRefill (die : Nat)
  | larderRefill (die : Nat)
  | ballastDeadline (item : Nat)
  | governorInterval
  | powerAggregate (demand need theta slew members : Nat)
  | rateUpdate
  | tjSample (die tj : Nat) (hot : Option Nat)
  | capBankLow (die charge vbank : Nat)
  | hbmCaseSample (die quarter : Nat)
  | ivrSample (region halfMv : Nat)
  | inputVoltageSample (halfMv : Nat)
  | supplyLost
  | flowSample (centiLpm : Nat)
  | regionPowerOn (region : Nat)
  | regionPowerOff (region : Nat)
  | powerGood (b : BootImage)
  | cmdNop (ring : Nat)
  | cmdLaunch (ring va : Nat) (ext : List Nat)
  | cmdLaunchi (ring va size : Nat) (ext : List Nat)
  | cmdWaitj (ring job : Nat)
  | cmdWaitv (ring va mask value ext : Nat)
  | cmdLoop (ring target count : Nat)
  | cmdJumpv (ring va target ext : Nat)
  | cmdCancel (ring job : Nat)
  | commandError (ring opcode : Nat)
  | setroot
  | reghandler (image : List Nat)
  | bindgroup
  | bindpower
  | setslew
  | savepool
  | retrain
  | attest
  | certs
  | mailboxLockRead (reader : Nat)
  | mailboxLockRelease (writer : Nat)
  | debugHalt (port : Nat)
  | debugResume (port : Nat)
  | debugKill (port : Nat)
  | debugRelaunch (port : Nat)
  | mccResume (port : Nat)
  | mccKill (port : Nat)
  | debugTlbInvalidation (port command : Nat)
  | mctpControlMessage (msg : List Nat)
  | mctpSensorRead (sel current coolant : Nat)
  | registerWrite (port offset size data : Nat)
  | peerRequest (r : PeerReq)
  | transferAbortArrival (a : AbortMsg)
  | ringSizeWrite (ring size : Nat)
  | unlistedMailboxCommand
  | capacitorBankRecovery (die charge vbank : Nat)
  | bindRecordWrite (die index record : Nat)
  | ballastItemComplete (item lines : Nat) (fault : Option Nat)
  deriving DecidableEq, Repr

end Sys2Proof
end

