-- ==== Sys2Proof/Config.lean ====
section
/-!
DEFINITION. What one module fixes, and the free values: constants without a body, so that no proof can lean on what
they are (notes/assumptions).
-/
namespace Sys2Proof

/-- Who acts, or what happens, in a step. -/
inductive Turn where
  /-- An issue slot of a core: core × 4 + slot (R62). -/
  | slot (k : Nat)
  /-- A matrix control core: die × 4 + bay (R283). -/
  | mcc (k : Nat)
  /-- A slice core: die × 32 + slice (R321). -/
  | slice (k : Nat)
  /-- A warp's next accumulator move does some of its elements before the rest (R305). -/
  | move (warp els : Nat)
  /-- An array's running entry does some elements of its row, or of its rows, before the rest (R305). -/
  | row (arr els : Nat)
  /-- An event of the table. -/
  | event (e : Instr)
  deriving DecidableEq, Repr, Inhabited

namespace Config

/-- Who acts next: the spec fixes no order among agents, and its surroundings act when they like. -/
opaque schedule : Nat → Turn

/-- Nanoseconds of the device timebase that pass in a step. -/
opaque elapsedNs : Nat → Nat

/-- Core cycles that pass in a step. -/
opaque elapsedCycles : Nat → Nat

/-- A choice that the spec leaves to the device: whether an old copy or an old translation serves an access. -/
opaque choice : Nat → Bool

/-- A value that the spec leaves open. -/
opaque freeValue : Nat → Nat

/-- Bytes of the identity page (R447): by port, ready bit, firmware measurements and offset. The spec lists what the
page holds and gives no layout. -/
opaque identityByte : Nat → Bool → List Nat → Nat → Byte

/-- Bytes of the part number and the serial (R453). -/
opaque partByte : Nat → Byte

/-- Bytes of the signature over an attestation report (R453, R455), by the report and the offset. -/
opaque attestByte : List Byte → Nat → Byte

/-- Bytes of the certificate chain (R453). -/
opaque certByte : Nat → Byte

/-- Length of the certificate chain (R453). -/
opaque certLength : Nat

/-- The answer to an MCTP control message (R456). -/
opaque mctpAnswer : List Nat → List Nat

end Config
end Sys2Proof
end

