-- ==== Sys2Proof/Machine/Store.lean ====
section
/-!
DEFINITION. A finite map from natural numbers as plain data in one canonical form: keys strictly rising, and no
entry equal to what an unlisted key reads as. Memory, register files and every indexed table of the machine are
such maps.
-/
namespace Sys2Proof

/-- A map from keys to values; a key that is not listed reads as the default that its reader names. -/
structure Table (α : Type) where
  cells : List (Nat × α) := []
  deriving DecidableEq, Repr

namespace Table
variable {α : Type}

/-- The value listed for a key. -/
def find : List (Nat × α) → Nat → Option α
  | [], _ => none
  | (k, v) :: r, j => if k = j then some v else find r j

/-- The value at `k`, or the default `d` when `k` is not listed. -/
def get (d : α) (m : Table α) (k : Nat) : α :=
  match find m.cells k with
  | some v => v
  | none => d

/-- Every entry but those of `k`. -/
def erase : List (Nat × α) → Nat → List (Nat × α)
  | [], _ => []
  | (k, v) :: r, j => if k = j then erase r j else (k, v) :: erase r j

/-- An entry put before the first greater key. -/
def insert : List (Nat × α) → Nat → α → List (Nat × α)
  | [], j, x => [(j, x)]
  | (k, v) :: r, j, x => if j < k then (j, x) :: (k, v) :: r else (k, v) :: insert r j x

/-- Write `v` at `k`; writing the default `d` removes the entry. -/
def set [DecidableEq α] (d : α) (m : Table α) (k : Nat) (v : α) : Table α :=
  if v = d then ⟨erase m.cells k⟩ else ⟨insert (erase m.cells k) k v⟩

/-- The keys listed. -/
def keys (m : Table α) : List Nat := m.cells.map (·.1)

/-- Keys strictly rise from above `b`. -/
def rising : Nat → List (Nat × α) → Bool
  | _, [] => true
  | b, (k, _) :: r => b < k + 1 && rising (k + 1) r

/-- The canonical form: keys strictly rise, and no entry is the default. -/
def wf [DecidableEq α] (d : α) (m : Table α) : Bool :=
  rising 0 m.cells && m.cells.all (fun c => c.2 != d)

/-- The map whose keys below `n` have the values of a function. -/
def tabulate [DecidableEq α] (d : α) (n : Nat) (f : Nat → α) : Table α :=
  ⟨(List.range n).filterMap (fun i => if f i = d then none else some (i, f i))⟩

/-- The map without the entries whose key or value fails a test. -/
def keep (f : Nat → α → Bool) (m : Table α) : Table α := ⟨m.cells.filter (fun c => f c.1 c.2)⟩

end Table

/-- Bytes by address (R122, R131): an address that nothing has written reads as zero (a DESIGN CHOICE). -/
abbrev Memory := Table Byte

/-- One byte. -/
def Memory.read (m : Memory) (a : Nat) : Byte := m.get 0 a

/-- `n` bytes from `a` up. -/
def Memory.readBytes (m : Memory) : Nat → Nat → List Byte
  | 0, _ => []
  | n + 1, a => m.read a :: Memory.readBytes m n (a + 1)

/-- One byte written. -/
def Memory.write (m : Memory) (a : Nat) (b : Byte) : Memory := m.set 0 a b

/-- The entries that bytes written from `a` up leave: the zero bytes are not listed. -/
def Memory.listed : Nat → List Byte → List (Nat × Byte)
  | _, [] => []
  | a, b :: bs => if b = 0 then Memory.listed (a + 1) bs else (a, b) :: Memory.listed (a + 1) bs

/-- Bytes written from `a` up, in one pass. -/
def Memory.writeBytes (m : Memory) (a : Nat) (bs : List Byte) : Memory :=
  ⟨m.cells.filter (fun c => c.1 < a) ++ Memory.listed a bs ++ m.cells.filter (fun c => a + bs.length ≤ c.1)⟩

/-- The canonical form of a memory. -/
def Memory.wf (m : Memory) : Bool := Table.wf 0 m

end Sys2Proof
end

