-- ==== Sys2Proof/Machine/State.lean ====
section
/-!
DEFINITION. The state of a module, as plain data: every piece of state that the spec gives it, the records of its
engines, and the model's own bookkeeping (whose turn it is, and a counter that free values are applied to).

Numbers name things: a core is die × 16 + logical core, an issue slot core × 4 + slot, a matrix control core
die × 4 + bay, a matrix array has its core's number, a slice is die × 32 + slice, a power region die × 96 + region, a
physical core die × 17 + number, a ring port × 16 + number. A front end is a core (below 384) or 384 + a matrix
control core.
-/
namespace Sys2Proof.Machine

/-- Why a step can stop with a fault. Every fault of the spec halts a warp, an MCC or a handler and is a next state
here; none of them is one of these. -/
inductive Fault where
  /-- An instruction of one kind of agent was given to another: `exec` of a warp's instruction when no warp issues, of
  a handler's when no slice core does. `step` never does so. Safe: no claim about a run meets it. -/
  | wrongAgent
  deriving DecidableEq, Repr

/-- Why an instruction has no meaning in this model. -/
inductive Refusal where
  /-- Raised by an arm of `exec` that has no meaning yet. Safe: nothing is claimed of it. -/
  | notModelled (mnemonic : String)
  deriving DecidableEq, Repr

/-- The state of a thread (R53); `draining` is the park of EXIT (R74). -/
inductive TState where
  | exited | live | parked | helper | draining
  deriving DecidableEq, Repr

/-- What a parked thread waits for (R53, R423). -/
inductive WaitKind where
  | none | tag | arrival | exhaustion
  deriving DecidableEq, Repr

/-- Where an element of memory performs (R123, R131, R133, R220). -/
inductive Place where
  /-- Nowhere: a helper's element that would have faulted, or one that is dropped. -/
  | none
  /-- A block's scratchpad, at an offset. -/
  | scratch (block off : Nat)
  /-- A region-00 or region-01 address, with its page's NC and MS bits. -/
  | home (pa : Nat) (nc ms : Bool)
  /-- A fabric address of this module, as its region-00 address: served by its own HBM4E at sys scope. -/
  | self (pa : Nat)
  /-- A fabric address that is not one of this module's memory. -/
  | peer (pa : Nat)
  /-- A module register or host memory. -/
  | mmio (pa : Nat)
  deriving DecidableEq, Repr

/-- A thread's wait (R145, R200, R212): the instruction at its PC with its sequential successor, the word it waits on
and the data it brings. `lanes` are the threads that wait together and count it. `joined` is its place in the word's
queue, zero while its mask's edges are not met. When it performs, the thread stands at the successor and `ended` is
set: only the end of the park is left. -/
structure Wait where
  kind : WaitKind := .none
  instr : Option Instr := none
  pc : Nat := 0
  next : Nat := 0
  addr : Nat := 0
  place : Place := .none
  data : Nat := 0
  lanes : Nat := 0
  joined : Nat := 0
  ended : Bool := false
  since : Nat := 0
  seq : Nat := 0
  deriving DecidableEq, Repr

/-- A halt that waits for the next head (R414, R415): its cause, lane and address, the report PC, and whether replay
slots may still be taken (R231). -/
structure HaltDue where
  cause : Nat
  lane : Nat := 0
  addr : Nat := 0
  pc : Option Nat := none
  late : Bool := false
  deriving DecidableEq, Repr

/-- One lane of a warp: its thread's frontier state (R53, R54), floating-point state (R102, R103, R417) and wait.
`xfer` is the address of the instruction that moved the thread to a PC no selection has checked yet (R41, R71). -/
structure Lane where
  pc : Nat := 0
  st : TState := .exited
  yielded : Bool := false
  xfer : Option Nat := none
  fflags : BitVec 32 := 0
  rng : BitVec 32 := 0
  reported : BitVec 3 := 0
  wait : Wait := {}
  deriving DecidableEq, Repr

/-- A bypass latch (R33): invalid, or a scalar or a vector value. -/
inductive Latch where
  | invalid
  | scalar (x : Word)
  | vector (x : Table Word)
  deriving DecidableEq, Repr

/-- The four latches. -/
structure Latches where
  l0 : Latch := .invalid
  l1 : Latch := .invalid
  l2 : Latch := .invalid
  l3 : Latch := .invalid
  deriving DecidableEq, Repr

/-- Eight streams of 32 threads (R144): counts by lane × 8 + stream. -/
structure Streams where
  issued : Table (BitVec 16) := {}
  done : Table (BitVec 16) := {}
  deriving DecidableEq, Repr

/-- What a warp runs (R424–R429): its program, its pre-emption handler, or a resume routine. -/
inductive Mode where
  | normal | handler | resume
  deriving DecidableEq, Repr

/-- Why a warp issues nothing until something else has happened: ICINV (R155), SYS_TLBINV (R421), FESET (R205), JOIN
(R58), CLEAVE (R217), CANCEL (R277) and a handler's RETT or YIELDP (R437, R438) wait in their own ways. -/
inductive Blocking where
  | free
  | ops (l : List Nat)
  deriving DecidableEq, Repr

/-- The place of a warp in a pre-emption (R424–R429). -/
inductive Yielded where
  /-- It runs. -/
  | no
  /-- It executed YIELDP. -/
  | yielded
  /-- Hardware saved it. -/
  | forced
  /-- Hardware saved it while it was halted. -/
  | halted
  deriving DecidableEq, Repr

/-- What the hardware keeps of a thread with a frame (R423): its state, its wait kind and its PC. -/
structure SavedLane where
  st : TState := .exited
  kind : WaitKind := .none
  deriving DecidableEq, Repr

/-- A consumer that waits for tokens (R383, R384): the price, when the wait began among others, whether a refill tick has
passed meanwhile, and whether one has since the consumer was last refused: only then can its wait end. -/
structure TokenWait where
  price : Nat
  since : Nat
  reserved : Bool := false
  due : Bool := false
  deriving DecidableEq, Repr

/-- What some bytes held before a write: a load that nothing orders after the write may still return them (R142, R166). -/
structure Past where
  place : Place
  data : List Byte
  deriving DecidableEq, Repr

/-- A vector warp. -/
structure Warp where
  /-- The warp exists: its block lives and the warp has not been dropped. -/
  live : Bool := false
  block : Nat := 0
  index : Nat := 0
  storer : Bool := false
  /-- Issue slot, 0–3 (R61). -/
  slot : Nat := 0
  vb : Nat := 0
  sb : Nat := 0
  lanes : Table Lane := {}
  /-- The frontier group (R54), as a mask of lanes. -/
  group : Nat := 0
  /-- A selection is due before the next head (R55). -/
  selDue : Bool := true
  /-- Address of the instruction being issued, and its sequential successor (R41). -/
  pc : Nat := 0
  npc : Nat := 0
  v : Table Word := {}
  s : Table Word := {}
  p : Table (BitVec 32) := {}
  m : Table (BitVec 256) := {}
  latches : Latches := {}
  own : Streams := {}
  hnd : Streams := {}
  chainHead : Nat := 0
  chainLen : Nat := 0
  /-- The warp's predecessor issued in this run, for this group (R36, R37). -/
  inRun : Bool := false
  mode : Mode := .normal
  halted : Bool := false
  cause : Nat := 0
  /-- The warp halts at its next head (R231, R254, R415). -/
  haltDue : Option HaltDue := none
  /-- RETT does not resume the warp (R234, R306). -/
  dead : Bool := false
  /-- The halt is reported once every memory operation in flight has performed or taken a slot (R231). -/
  reportDue : Bool := false
  /-- Replay slots (R232), oldest first: operations in flight. -/
  replays : List Nat := []
  /-- Copies and transfers abandoned while the warp is halted (R254). -/
  abandoned : List Nat := []
  saved : Table SavedLane := {}
  savedGroup : Nat := 0
  word0 : Word := 0
  reportPc : Nat := 0
  reportAddr : Nat := 0
  headRec : Nat := 0
  frameTime : Nat := 0
  latchRec : Nat := 0
  resumePc : Nat := 0
  deadline : Nat := 0
  preempt : Option PreCause := none
  yielded : Yielded := .no
  blocking : Blocking := .free
  passed : Nat := 0
  residence : Nat := 0
  placedAt : Nat := 0
  /-- The warp's slot waits for tokens with it. -/
  tokenWait : Option TokenWait := none
  /-- It waits with it for its core's copy engine or fabric engine to have room (R245, R368). -/
  engineWait : Bool := false
  /-- Elements of its next accumulator move that have been read, or written, before the rest (R305). -/
  part : Table (Option (BitVec 32)) := {}
  seq : Nat := 0
  deriving DecidableEq, Repr

/-- Where a block stands in its life (R263, R267, R280, R428). -/
inductive BlockSt where
  | none
  /-- Placed; a gang's blocks do not issue before the instance starts. -/
  | placed
  /-- Pre-empted off its core, its scratchpad in the image (R428). -/
  | waiting
  /-- Retired, removed or killed. -/
  | gone
  deriving DecidableEq, Repr

/-- The launch record of a grid (R264), or a node block's, made from its descriptor (R268). -/
structure Launch where
  entry : Nat := 0
  sentry : Nat := 0
  mentry : Nat := 0
  pentry : Nat := 0
  rentry : Nat := 0
  grid : Nat := 0
  seed : BitVec 32 := 0
  rl : Bool := false
  df : Bool := false
  qh : Bool := false
  gw : Nat := 0
  scr : Nat := 0
  ss : Nat := 0
  sl : Nat := 0
  vs : Nat := 0
  vl : Nat := 0
  ws : Nat := 0
  wl : Nat := 0
  dies : Nat := 0
  wdog : Nat := 0
  graph : Nat := 0
  nodes : Nat := 0
  params : List Word := []
  /-- A node block's records, and its handle (R270). -/
  records : List Byte := []
  node : Option Nat := none
  deriving DecidableEq, Repr

/-- A block: its task record (R280), its place, its scratchpad with tags (R196) and its save area (R422). -/
structure BlockRec where
  st : BlockSt := .none
  job : Nat := 0
  grid : Nat := 0
  b : Nat := 0
  rcd : Launch := {}
  relaunches : Nat := 0
  /-- Logical core, die × 16 + core, and residency slot on it (R328). -/
  core : Nat := 0
  resSlot : Nat := 0
  /-- The requester handle of the block's placement (R328). -/
  handle : Nat := 0
  base : Nat := 0
  warps : List Nat := []
  alloc : Nat := 0
  scratch : Memory := {}
  tags : Table Bool := {}
  cluster : Option Nat := none
  member : Nat := 0
  leaving : Bool := false
  gang : Option Nat := none
  savePa : Nat := 0
  saveVa : Nat := 0
  preempt : Option PreCause := none
  /-- A second delivery held until every warp has returned (R428). -/
  held : Option PreCause := none
  cancelDue : Bool := false
  /-- Operations that must be performed at dev scope before the block starts, and the core, warp and threads whose
  stores must be written back (R279). -/
  publish : List Nat := []
  publishers : List (Nat × Nat × Nat) := []
  /-- The loft or launch-queue entry that the block was placed from. -/
  entry : Nat := 0
  killed : Bool := false
  /-- A relaunch is due (R281). -/
  again : Bool := false
  /-- Writes and increments are held while the block moves (R431). -/
  frozen : Bool := false
  /-- The block stands on its new core, and its warps are to resume (R431 step 6). -/
  moved : Bool := false
  deriving DecidableEq, Repr

/-- A job (R259). -/
structure Job where
  live : Bool := false
  asid : Nat := 0
  port : Nat := 0
  retired : Nat := 0
  dropped : Nat := 0
  reports : Nat := 0
  cancelled : Bool := false
  /-- A block of the job has been placed (R452). -/
  placed : Bool := false
  /-- Dies that have passed their cancel point (R278). -/
  passed : Nat := 0
  deriving DecidableEq, Repr

/-- A loft entry (R261) or a queued host launch (R260). Keys: die × 4096 + entry; (24 + processor) × 4096 + index. -/
structure Entry where
  live : Bool := false
  job : Nat := 0
  rcd : Launch := {}
  grid : Nat := 0
  /-- The next block, or gang member block, that is not placed (R263). -/
  nextB : Nat := 0
  /-- LAUNCHT's trigger (R274): the block that holds the word, its offset, the generation. -/
  trigger : Option (Nat × Nat × Nat) := none
  /-- What the first test that decides the trigger found: it fires, or it is dropped. -/
  hit : Option Bool := none
  publish : List Nat := []
  publishers : List (Nat × Nat × Nat) := []
  seq : Nat := 0
  deriving DecidableEq, Repr

/-- A record in a bin: its bytes, when it entered, and what its maker had in flight (R279). -/
structure BinRecord where
  bytes : List Byte
  since : Nat
  publish : List Nat
  publisher : Nat × Nat × Nat
  deriving DecidableEq, Repr

/-- A bin of a node on a die (R269). -/
structure Bin where
  live : Bool := false
  die : Nat := 0
  job : Nat := 0
  node : Nat := 0
  cap : Nat := 0
  rsz : Nat := 0
  count : Nat := 0
  timer : Nat := 0
  /-- The descriptor as a launch record. -/
  rcd : Launch := {}
  /-- Records, oldest first, each with the time it entered and what its maker had in flight. -/
  records : List BinRecord := []
  /-- A formation is due: by count or by timer (R270). -/
  due : Bool := false
  deriving DecidableEq, Repr

/-- A cluster (R215). -/
structure Cluster where
  live : Bool := false
  grid : Nat := 0
  key : Nat := 0
  /-- Block of each member index in use. -/
  members : Table (Option Nat) := {}
  cgen : Nat := 0
  deriving DecidableEq, Repr

/-- A gang instance (R267). -/
structure Gang where
  live : Bool := false
  bay : Nat := 0
  blocks : List Nat := []
  started : Bool := false
  index : Nat := 0
  deriving DecidableEq, Repr

/-- A save-area pool of a die (R422, R453). -/
structure SavePool where
  bytes : Nat := 0
  pbase : Nat := 0
  vbase : Nat := 0
  deriving DecidableEq, Repr

/-- One element of an operation in flight: its address, where it performs, its data, what it returned. -/
structure Elem where
  lane : Nat := 0
  addr : Nat := 0
  place : Place := .none
  size : Nat := 0
  data : Nat := 0
  data2 : Nat := 0
  done : Bool := false
  ret : Nat := 0
  deriving DecidableEq, Repr

/-- The progress of an operation in flight. -/
inductive OpSt where
  | none
  /-- It has issued and is not performed. -/
  | flying
  /-- It holds a replay slot (R231), or was abandoned (R254). -/
  | stuck
  deriving DecidableEq, Repr

/-- An operation in flight (R144, R170): the instruction with what it captured at issue. `lanes` are the threads that
count it, `enabled` those whose elements are enabled, `group` those whose destination lanes Merge may write. -/
structure Op where
  st : OpSt := .none
  instr : Option Instr := none
  warp : Nat := 0
  block : Nat := 0
  core : Nat := 0
  job : Nat := 0
  asid : Nat := 0
  hset : Bool := false
  strm : Nat := 0
  after : Nat := 0
  scope : Scope := .warp
  lanes : Nat := 0
  enabled : Nat := 0
  group : Nat := 0
  zero : Bool := false
  pc : Nat := 0
  seq : Nat := 0
  elems : List Elem := []
  args : List Nat := []
  members : List Nat := []
  cause : Nat := 0
  faultLane : Nat := 0
  /-- Threads whose part is performed and counted (R144). -/
  counted : Nat := 0
  /-- Its replay slot, 0–3 (R231). -/
  slot : Option Nat := none
  /-- SMSG (R345, R346): queued at its slice, and the reply once an outcome is known. Transfers: bytes done. -/
  sent : Bool := false
  reply : Option Nat := none
  issuedAt : Nat := 0
  /-- The warp that issued it has gone: only its effects remain. -/
  orphan : Bool := false
  deriving DecidableEq, Repr

/-- A line in an L1 (R135–R137): a pinned line with its dirty bytes and the stores that pinned it, or a clean copy. -/
structure L1Line where
  valid : Bool := false
  pinned : Bool := false
  data : List Byte := []
  /-- A pinned line: what its clean copy held before, which a narrow load of another block may still be given (R137). -/
  older : List Byte := []
  since : Nat := 0
  order : Nat := 0
  /-- Bytes that stores have written. -/
  dirty : Nat := 0
  /-- The stores that pinned it: warp, handler streams or not, stream, lanes. -/
  owners : List (Nat × Bool × Nat × Nat) := []
  deriving DecidableEq, Repr

/-- A region-00 line in its home slice (R134, R325, R336), and whether the switch slices hold a copy. -/
structure L2Line where
  present : Bool := false
  pending : Bool := false
  dirty : Bool := false
  asid : Option Nat := none
  switch : Bool := false
  deriving DecidableEq, Repr

/-- A translation held in a TLB (R128): the page's base and size in address bits, and its entry. -/
structure TlbEntry where
  asid : Nat
  va : Nat
  size : Nat
  pte : Nat
  deriving DecidableEq, Repr

/-- A fill block in an instruction cache (R38–R40): its parcels, or the fault of its fetch. -/
structure FillBlock where
  asid : Nat
  va : Nat
  parcels : List Nat
  fault : Option Nat
  deriving DecidableEq, Repr

/-- A pantry (R382, R386, R395, R398). -/
structure Pantry where
  level : Nat := 0
  quota : Nat := 0
  /-- A soft start near the core halves its quota until then (R395). -/
  halfUntil : Nat := 0
  waited : BitVec 64 := 0
  charged : BitVec 64 := 0
  /-- The latest charge: its cycle, and its place in the order of a cycle (R382). -/
  cycle : Nat := 0
  rank : Nat := 0
  /-- A scan test of the core aborts, and the core is restored, until then (R393). -/
  abortUntil : Nat := 0
  /-- The array beside the core waits for tokens; so does the MCC when the core is 4b. -/
  arrayWait : Option TokenWait := none
  mccWait : Option TokenWait := none
  deriving DecidableEq, Repr

/-- A larder and its die's share (R385, R386, R391, R392). -/
structure Larder where
  /-- The general level, and what is set aside for pantries. -/
  level : Nat := 0
  setAside : Nat := 0
  /-- Die draws that found the level at zero. -/
  debt : Nat := 0
  /-- Die draws since the last refill, and since boot. -/
  draws : Nat := 0
  drawn : BitVec 64 := 0
  /-- Refills and ticks that have passed. -/
  refills : Nat := 0
  ticks : Nat := 0
  /-- Overflow that items may still spend, and all of it in this interval (R385, R393). -/
  ballast : Nat := 0
  spent : Nat := 0
  /-- What classes 2 to 5 of ballast took at the last refill, and the physical cores that class 4 tests (R393). -/
  classes : List Nat := []
  tested : Nat := 0
  /-- A core whose hotspot asks for a migration, and since when (R391, R432). -/
  hotCore : Option (Nat × Nat) := none
  /-- Tj in quarter degrees: the latest sample, and the greatest of this interval. -/
  tj : Nat := 0
  tjMax : Nat := 0
  hot : Bool := false
  /-- The die's share in W while it returns at the slew after being withheld (R392). -/
  share : Option Nat := none
  capLow : Bool := false
  deriving DecidableEq, Repr

/-- A capacitor bank (R405). -/
structure CapBank where
  qmin : Nat := 0x1C20
  vbank : Nat := 0x0E10
  charge : Nat := 0x1C20
  deriving DecidableEq, Repr

/-- A power region and its IVR (R394, R395, R404). -/
structure Region where
  on : Bool := false
  since : Nat := 0
  /-- Its inrush grant comes then: its feed group is loaded (R395). -/
  grantAt : Option Nat := none
  droops : Nat := 0
  vmin : Nat := 0xFFFF
  vtime : Nat := 0
  deriving DecidableEq, Repr

/-- A stack's refresh (R396). -/
structure Hbm where
  /-- 0: 3.9 µs, 1: 1.95 µs, 2: 0.975 µs. -/
  refresh : Nat := 0
  hot : Bool := false
  deriving DecidableEq, Repr

/-- An intent (R400, R401). -/
structure Intent where
  warp : Nat := 0
  delta : Int := 0
  start : Nat := 0
  stop : Option Nat := none
  deriving DecidableEq, Repr

/-- A ballast item (R402, R403). -/
structure BallastItem where
  live : Bool := false
  stage : Bool := false
  job : Nat := 0
  block : Nat := 0
  core : Nat := 0
  warpIdx : Nat := 0
  asid : Nat := 0
  va : Nat := 0
  dst : Nat := 0
  len : Nat := 0
  registered : Nat := 0
  aw : Option Nat := none
  deadline : Option Nat := none
  late : Bool := false
  /-- Lines finished. -/
  done : Nat := 0
  pc : Nat := 0
  strm : Nat := 0
  lane : Nat := 0
  deriving DecidableEq, Repr

/-- What RAMPQ reports of an interval (R406). -/
structure GovRow where
  slew : Nat := 2000
  ballast : Nat := 0
  target : Nat := 2400
  rate : Nat := 2400
  state : Nat := 0
  interval : Nat := 0
  members : Nat := 1
  theta : Nat := 256
  need : Nat := 0
  demand : Nat := 0
  deriving DecidableEq, Repr

/-- Demands, needs, θ, S and M of a power group (R389). -/
structure Aggregate where
  demand : Nat
  need : Nat
  theta : Nat
  slew : Nat
  members : Nat
  deriving DecidableEq, Repr

/-- The ramp governor (R387–R392, R406, R408, R457, R458). -/
structure Governor where
  rate : Nat := 2400
  slew : Nat := 2000
  slewDue : Nat := 2000
  lost : Nat := 0
  emerg : Nat := 0
  /-- Intervals begun, and whether the rate of the latest is due. -/
  interval : Nat := 0
  due : Bool := false
  /-- Interval k − 1 and interval k as R390 left them. -/
  prev : GovRow := {}
  cur : GovRow := {}
  /-- Demand of the interval so far, in tokens (R388). -/
  demand : Nat := 0
  /-- The local limit (R457, R458). -/
  limit : Nat := 12000
  aggregate : Option Aggregate := none
  /-- The flit that the module sent for the interval, and its need for the next (R388, R389, R408). -/
  own : Aggregate := { demand := 0, need := 0, theta := 256, slew := 2000, members := 1 }
  need : Nat := 0
  /-- The id of the fabric group that is the power group, if one is bound. -/
  group : Option Nat := none
  /-- Input voltage in 0.5 mV: the latest sample, and the lowest of this interval. -/
  input : Nat := 108000
  inputMin : Nat := 108000
  under48 : Bool := false
  dip : Bool := false
  dipSince : Nat := 0
  over60 : Bool := false
  /-- Coolant flow in 0.01 L/min. -/
  flow : Nat := 900
  flowLow : Bool := false
  flowStop : Bool := false
  /-- The supply was lost; the emergency is posted when it returns. -/
  supplyLost : Bool := false
  deriving DecidableEq, Repr

/-- A fabric group's binding (R361). -/
structure Group where
  live : Bool := false
  id : Nat := 0
  n : Nat := 0
  rank : Nat := 0
  ids : List Nat := []
  asids : List Nat := []
  deriving DecidableEq, Repr

/-- A binding held until a ring entry makes its job (R453). -/
structure HeldBinding where
  ring : Nat
  entry : Nat
  group : Group
  /-- The group is to be the power group too. -/
  power : Bool
  deriving DecidableEq, Repr

/-- A fabric port (R365, R377). -/
structure Port where
  retrains : Nat := 0
  credits : Nat := 128
  lanes : Nat := 0xFF
  /-- Lanes that have failed (R459). -/
  failed : Nat := 0
  width : Nat := 0
  state : Nat := 0
  /-- A retrain that the host asked for may widen the link. -/
  widen : Bool := false
  /-- When the present retrain began, and the times of those before, during which no request timeout counts. -/
  since : Nat := 0
  spans : List (Nat × Nat) := []
  /-- Flits replayed after a retrain: when, and how many. -/
  replayed : List (Nat × Nat) := []
  deriving DecidableEq, Repr

/-- A transfer of a peer into this module (R369, R370): the bytes that have arrived, or that it is over (its increment, if it
has one, was made), or that it was refused or aborted. -/
inductive XferSt where
  | none
  | started (bytes : Nat)
  | incremented
  | aborted
  deriving DecidableEq, Repr

/-- A matrix instruction in a queue (R285), with what it captured at issue. -/
inductive MEntry where
  | cfg (wfmt afmt : Nat) (rm : Rm)
  | scl (ascale wscale : Nat)
  | lds (addr pitch : Nat) (t g : Bool)
  | swap
  | strm (row rows feed pitch : Nat) (acc : Bool)
  | clr (row rows : Nat)
  deriving DecidableEq, Repr

/-- A queued entry: its place in the MCC's issue order, and whether its work has been charged (R311). -/
structure QEntry where
  seq : Nat
  e : MEntry
  /-- Rows done (MSTRM), or 1 once the work is charged. -/
  prog : Nat := 0
  deriving DecidableEq, Repr

/-- A MARRIVE in the buffer (R301). -/
structure Arrival where
  seq : Nat
  block : Nat
  off : Nat
  n : Nat
  mask : Nat
  deriving DecidableEq, Repr

/-- A weight plane (R288): elements by q × 128 + n as raw patterns, format tag, scale bytes. -/
structure Plane where
  w : Table Nat := {}
  tag : Nat := 3
  scales : Table Byte := {}
  deriving DecidableEq, Repr

/-- A matrix array (R288). -/
structure Arr where
  active : Plane := {}
  shadow : Plane := {}
  afmt : Nat := 3
  wfmt : Nat := 3
  rm : Rm := .rne
  ascale : Nat := 0
  wscale : Nat := 0
  invalid : Bool := false
  overflow : Bool := false
  underflow : Bool := false
  inexact : Bool := false
  loadQ : List QEntry := []
  compQ : List QEntry := []
  /-- What the running row or MCLR has read, once it has begun (R298), and the elements done before the rest (R305). -/
  fed : Option (List Byte × List Byte) := none
  part : Nat := 0
  deriving DecidableEq, Repr

/-- An MWAITG that waits (R300): its word, the generation and when it began. -/
structure MWait where
  block : Nat
  off : Nat
  gen : Nat
  since : Nat
  deriving DecidableEq, Repr

/-- A matrix control core (R283). -/
structure Mcc where
  failed : Bool := false
  gang : Option Nat := none
  pc : Nat := 0
  /-- Address of the instruction being issued, and its sequential successor. -/
  cur : Nat := 0
  npc : Nat := 0
  s : Table Word := {}
  exited : Bool := false
  halted : Bool := false
  cause : Nat := 0
  xfer : Option Nat := none
  stopped : Bool := false
  inWait : Option MWait := none
  /-- It was stopped in an MWAITG (R307, R309). -/
  waited : Bool := false
  /-- An operand fault has halted the instance: nothing resumes it (R306). -/
  dead : Bool := false
  arrivals : List Arrival := []
  seq : Nat := 0
  deriving DecidableEq, Repr

/-- An event in a slice's queue (R325, R326). -/
structure SliceEvent where
  kind : Nat
  tenant : Nat
  dirty : Bool := false
  fromSlice : Bool := false
  handle : Nat := 0xFFFFFFFF
  pa : Nat := 0
  msg : List Byte := []
  /-- The SMSG's operation. -/
  op : Option Nat := none
  deriving DecidableEq, Repr

/-- A tenant's five words (R323). -/
structure Tenant where
  td0 : BitVec 64 := 0
  td1 : BitVec 64 := 0xFFFFFFFFFFFFFFFF
  td2 : BitVec 64 := 0
  td3 : BitVec 64 := 0
  td4 : BitVec 64 := 0
  deriving DecidableEq, Repr

/-- Where a slice core stands (R327, R330). -/
inductive HandlerSt where
  | idle | running | committing
  deriving DecidableEq, Repr

/-- A slice core (R321–R332). -/
structure Slice where
  tenants : Table Tenant := {}
  imem : Memory := {}
  dmem : Memory := {}
  queue : List SliceEvent := []
  st : HandlerSt := .idle
  event : Option SliceEvent := none
  pc : Nat := 0
  x : Table (BitVec 32) := {}
  count : Nat := 0
  /-- SLWR bytes by physical address, and the lines they lie in (R337). -/
  buffer : Table (Option Byte) := {}
  /-- Held SLARR increments, oldest first: handle, offset, count (R340). -/
  arrivals : List (Nat × Nat × Nat) := []
  reply : BitVec 32 := 0
  /-- Messages sent by SLMSG and not yet delivered, oldest first: target PA, tenant's ASID, bytes. -/
  outbox : List (Nat × Nat × List Byte) := []
  deriving DecidableEq, Repr

/-- A copy fault log entry (R256). -/
structure LogEntry where
  word0 : BitVec 64 := 0
  addr : Nat := 0
  record : Nat := 0
  pc : Nat := 0
  deriving DecidableEq, Repr

/-- A submission ring (R449). -/
structure Ring where
  base : Nat := 0
  size : Nat := 0
  head : Nat := 0
  tail : Nat := 0
  asid : Nat := 0
  loop : BitVec 64 := 0
  error : BitVec 64 := 0
  /-- The job whose cancel the ring's CANCEL waits for. -/
  cancelling : Option Nat := none
  deriving DecidableEq, Repr

/-- A completion entry (R451), for a port's ring. -/
structure Completion where
  port : Nat
  w0 : Nat
  w1 : Nat
  w2 : Nat
  w3 : Nat
  deriving DecidableEq, Repr

/-- The management mailbox (R452). -/
structure Mailbox where
  owner : Nat := 0
  status : Nat := 0
  respLen : Nat := 0
  request : Memory := {}
  response : Memory := {}
  deriving DecidableEq, Repr

/-- The result of the latest command of a view (R448). -/
structure ViewStatus where
  warp : Nat := 0
  mcc : Nat := 0
  deriving DecidableEq, Repr

/-- Whose instruction is being executed: set by the step before `exec`. -/
inductive Agent where
  | none
  | warp (w : Nat)
  | mcc (k : Nat)
  | slice (k : Nat)
  deriving DecidableEq, Repr

/-- The module. -/
structure State where
  -- the model's own: whose turn it is, and the counter of free values
  turn : Turn
  issuer : Agent
  free : Nat
  -- time (R1, R382)
  time : Nat
  cycles : Nat
  -- platform (R446–R459)
  powered : Bool
  recovery : Bool
  ready : Bool
  moduleId : Nat
  measurements : List Nat
  rings : Table Ring
  completions : List Completion
  mailbox : Mailbox
  selectors : Table Nat
  views : Table ViewStatus
  i3c : List Nat
  nextRing : Table Nat
  -- memory (R122–R139)
  mem : Memory
  l1 : Table L1Line
  l2 : Table L2Line
  -- lines that a die's RDC holds (R134, R138): die × 2^45 + line
  rdc : Table (List Byte)
  -- what memory holds of lines whose bytes a handler has written in their slice (R324)
  shadow : Table (List Byte)
  -- by warp: what was written while its threads were parked in WAITG, oldest first (R176)
  past : Table (List Past)
  roots : Table Nat
  -- roots that a change has replaced, until an invalidation of the ASID
  oldRoots : Table (List Nat)
  tlbs : Table (List TlbEntry)
  icaches : Table (List FillBlock)
  -- operations in flight
  ops : Table Op
  nextOp : Nat
  nextSeq : Nat
  -- work (R259–R281)
  jobs : Table Job
  nextGrid : Nat
  blocks : Table BlockRec
  nextBlock : Nat
  warps : Table Warp
  nextWarp : Nat
  entries : Table Entry
  binds : Table (BitVec 64)
  bins : Table Bin
  clusters : Table Cluster
  gangs : Table Gang
  nextGang : Nat
  savePools : Table SavePool
  slots : Table (Option Nat)
  -- cores (R8, R256, R430)
  coreMap : Table Nat
  phys : Table Nat
  placeCounts : Table Nat
  -- when a physical core, or (from 24 × 17 on) a bay, last held work
  lastBusy : Table Nat
  copyLogs : Table (List LogEntry)
  -- matrix (R283–R288)
  mccs : Table Mcc
  arrs : Table Arr
  acc : Table (BitVec 32)
  -- slices (R321)
  slices : Table Slice
  -- fabric (R361–R377)
  groups : Table Group
  held : List HeldBinding
  ringJobs : Table Nat
  ports : Table Port
  xfers : Table XferSt
  -- power (R381–R408)
  pantries : Table Pantry
  larders : Table Larder
  capBanks : Table CapBank
  regions : Table Region
  hbms : Table Hbm
  intents : Table Intent
  ballast : Table BallastItem
  gov : Governor
  deriving DecidableEq, Repr

/-- The module at power-good, before its ROM has verified the firmware (R454). Every register is at the value the spec
gives it for reset; the log names the rest. -/
def State.reset : State where
  turn := .event (.powerGood { verified := true, moduleId := 0, spares := [], failed := [], measurements := [] })
  issuer := .none
  free := 0
  time := 0
  cycles := 0
  powered := true
  recovery := false
  ready := false
  moduleId := 0
  measurements := []
  rings := {}
  completions := []
  mailbox := {}
  selectors := {}
  views := {}
  i3c := []
  nextRing := {}
  mem := {}
  l1 := {}
  l2 := {}
  rdc := {}
  shadow := {}
  past := {}
  roots := {}
  oldRoots := {}
  tlbs := {}
  icaches := {}
  ops := {}
  nextOp := 1
  nextSeq := 1
  jobs := {}
  nextGrid := 1
  blocks := {}
  nextBlock := 1
  warps := {}
  nextWarp := 1
  entries := {}
  binds := {}
  bins := {}
  clusters := {}
  gangs := {}
  nextGang := 1
  savePools := {}
  slots := {}
  coreMap := {}
  phys := {}
  placeCounts := {}
  lastBusy := {}
  copyLogs := {}
  mccs := {}
  arrs := {}
  acc := {}
  slices := {}
  groups := {}
  held := []
  ringJobs := {}
  ports := {}
  xfers := {}
  pantries := {}
  larders := {}
  capBanks := {}
  regions := {}
  hbms := {}
  intents := {}
  ballast := {}
  gov := {}

end Sys2Proof.Machine
end

