-- ==== Sys2Proof/Machine/Flags.lean ====
section
/-!
DEFINITION. The flags of `sr.fflags` (spec/05 R103), which an instruction raises per lane, and the generator that
stochastic rounding draws from (R102).
-/
namespace Sys2Proof.Machine

/-- Flags that an operation raises (R103). -/
structure Flags where
  invalid : Bool := false
  dz : Bool := false
  overflow : Bool := false
  underflow : Bool := false
  inexact : Bool := false
  idz : Bool := false
  saturated : Bool := false
  deriving DecidableEq, Repr

/-- Flags of two operations together. -/
def Flags.or (a b : Flags) : Flags :=
  { invalid := a.invalid || b.invalid, dz := a.dz || b.dz, overflow := a.overflow || b.overflow,
    underflow := a.underflow || b.underflow, inexact := a.inexact || b.inexact, idz := a.idz || b.idz,
    saturated := a.saturated || b.saturated }

/-- The bits of R103. -/
def Flags.toBits (f : Flags) : Nat :=
  b2n f.invalid + b2n f.dz * 2 + b2n f.overflow * 4 + b2n f.underflow * 8 + b2n f.inexact * 16 + b2n f.idz * 32 +
  b2n f.saturated * 64

/-- Sticky flags: a flag that is set stays set. -/
def raiseFlags (r : BitVec 32) (f : Flags) : BitVec 32 := r ||| BitVec.ofNat 32 f.toBits

/-- The rmode field of `sr.fflags`. -/
def rmodeOf (r : BitVec 32) : Nat := bits r.toNat 8 3

/-- A write of `sr.fflags` (R103): reserved bits are ignored, and an rmode of 110 or 111 leaves the field. -/
def writeFflags (old new : BitVec 32) : BitVec 32 :=
  let m := bits new.toNat 8 3
  let rm := if m = 6 ∨ m = 7 then rmodeOf old else m
  BitVec.ofNat 32 (bits new.toNat 0 7 + rm * 2 ^ 8)

/-- One step of a lane's generator (R102). -/
def stepRng (st : BitVec 32) : BitVec 32 :=
  let a := st ^^^ (st <<< 13)
  let b := a ^^^ (a >>> 17)
  b ^^^ (b <<< 5)

/-- The draw of a generator's new state (R102): bits [31:16]. -/
def drawOf (st : BitVec 32) : Nat := st.toNat / 2 ^ 16

/-- The generator's state at warp start (R102): seed, the warp's index within its grid, the lane. -/
def startRng (seed : BitVec 32) (g l : Nat) : BitVec 32 :=
  let x := seed ^^^ BitVec.ofNat 32 ((32 * g + l + 1) * 0x9E3779B9)
  if x = 0 then 1 else x

/-- The cause of the first arithmetic fault among the flags (R105). -/
def arithCause (f : Flags) : Option Nat :=
  if f.invalid then some 0x041 else if f.dz then some 0x042 else if f.overflow then some 0x043 else none

end Sys2Proof.Machine
end

