-- ==== Sys2Proof/Machine/RegUse.lean ====
section
/-!
DEFINITION. Which registers an instruction names as sources and as destinations (R25, R85): the fill check of
register fields, the budget check at issue and the operand interlocks all read these lists.
-/
namespace Sys2Proof

/-- The side that decodes an instruction: a vector warp or a matrix control core (R48). -/
inductive Side where
  | vector | mcc
  deriving DecidableEq, Repr

/-- A register file (R80). -/
inductive RegKind where
  | v | s | p | m
  deriving DecidableEq, Repr

/-- A register named by an instruction. -/
structure RegRef where
  kind : RegKind
  n : Nat
  deriving DecidableEq, Repr

/-- `k` consecutive registers from `n`. -/
def RegKind.span (r : RegKind) (n k : Nat) : List RegRef := (List.range k).map (fun i => ⟨r, n + i⟩)

/-- The register an operand names, if it names no latch. -/
def Opnd.regs (r : RegKind) : Opnd → List RegRef
  | .reg n => [⟨r, n⟩]
  | .latch _ => []

/-- The register source b names: of file `r`, or a scalar when it is broadcast. -/
def SrcB.regs (r : RegKind) : SrcB → List RegRef
  | .opnd o => o.regs r
  | .bcast o => o.regs .s
  | .imm _ => []

/-- The vector or scalar file of class 0x1 or 0x0. -/
def fileOf (vec : Bool) : RegKind := if vec then .v else .s

/-- Guard and mask of a class 0x1–0x4 word. -/
def Alu.ctl (x : Alu) : List RegRef := [⟨.p, x.g.p⟩, ⟨.m, x.vx.m⟩]

/-- The destination number of a CMP or FCMP: in form FI the low bits of d (R92, R110). -/
def Alu.cmpD (vec : Bool) (x : Alu) : Nat :=
  match x.b with
  | .imm _ => if vec then x.d % 16 else x.d % 128
  | _ => x.d

/-- The condition code of a CMP or FCMP (R92, R110). -/
def Alu.cmpCond (vec : Bool) (x : Alu) : Nat :=
  match x.b, x.c with
  | .imm _, _ => if vec then bits x.d 5 3 else x.d / 128
  | _, .reg c => c % 8
  | _, .latch _ => 0

/-- The kind bit of a CMP or FCMP: a mask destination. -/
def Alu.cmpKind (vec : Bool) (x : Alu) : Bool :=
  match x.b, x.c with
  | .imm _, _ => vec && bit x.d 8
  | _, .reg c => bit c 3
  | _, .latch _ => false

/-- The any bit of a CMP or FCMP. -/
def Alu.cmpAny (vec : Bool) (x : Alu) : Bool :=
  match x.b, x.c with
  | .imm _, _ => vec && bit x.d 9
  | _, .reg c => bit c 4
  | _, .latch _ => false

/-- The destination of a CMP or FCMP. -/
def Alu.cmpDest (vec : Bool) (x : Alu) : RegRef :=
  if vec then ⟨if x.cmpKind true then .m else .p, x.cmpD true⟩ else ⟨.s, x.cmpD false⟩

/-- The constant in c (R180): 0 when a latch stands there. -/
def Alu.cNum (x : Alu) : Nat := match x.c with | .reg c => c | .latch _ => 0

/-- The number in a: 0 when a latch stands there. -/
def Alu.aNum (x : Alu) : Nat := match x.a with | .reg n => n | .latch _ => 0

/-- The offset register of an FM word. -/
def MOff.regs (r : RegKind) : MOff → List RegRef
  | .reg n _ => [⟨r, n⟩]
  | .imm _ _ => []

/-- The registers of a PMOV, source and destination (R78). -/
def pmovRegs (x : R3) : RegRef × RegRef :=
  match x.b with
  | 1 => (⟨.s, x.a⟩, ⟨.p, x.d⟩)
  | 2 => (⟨.p, x.a⟩, ⟨.s, x.d⟩)
  | 3 => (⟨.p, x.a⟩, ⟨.m, x.d⟩)
  | 4 => (⟨.m, x.a⟩, ⟨.p, x.d⟩)
  | _ => (⟨.p, x.a⟩, ⟨.p, x.d⟩)

/-- The sources of a slot: its destination first (R29). -/
def Slot.srcRegs (x : Slot) : List RegRef := ⟨.p, x.g.p⟩ :: ⟨.v, x.d⟩ :: x.a.regs .v

/-- Parameters a LAUNCH or LAUNCHT passes: c[6:4]. -/
def R3.launchN (x : R3) : Nat := bits x.c 4 3

/-- log2 of the registers or rows of a class 0xA vector instruction: c[1:0]. -/
def R3.nr (x : R3) : Nat := 2 ^ (x.c % 4)

/-- Width in bits of a CVT code's format (R97, R99, R114): narrow formats take a byte. -/
def cvtWidth (code : Nat) : Nat :=
  match code with
  | 0x00 => 32 | 0x01 => 64 | 0x02 => 16 | 0x03 => 16
  | 0x14 => 32 | 0x15 => 32 | 0x16 => 64 | 0x17 => 64
  | 0x12 => 16 | 0x13 => 16
  | _ => 8

/-- Registers that an ACCRDC writes: ⌈128·nr·wd / 2,048⌉ (R304). -/
def R3.accrdcRegs (x : R3) : Nat := ceilDiv (128 * x.nr * cvtWidth (bits x.c 5 5)) 2048

/-- The class numbers: `SRD` of a per-lane value (R435), `SYSWR` of a per-lane register (R419). -/
def srdPerLane (n : Nat) : Bool := n == 0 || n == 1 || n == 0x0B || n == 0x0C

/-- Sources of an instruction, the guard and the VX mask among them. -/
def Instr.reads (sd : Side) : Instr → List RegRef
  | .add v x | .sub v x | .mul v x | .mulh v x | .div v x | .rem v x | .min v x | .max v x
  | .and v x | .or v x | .xor v x | .andn v x | .shl v x | .shr v x | .sar v x | .rot v x
  | .bfx v x | .cmp v x | .lea v x => x.ctl ++ x.a.regs (fileOf v) ++ x.b.regs (fileOf v)
  | .mad v x | .madw v x | .bfi v x | .sad v x =>
      x.ctl ++ x.a.regs (fileOf v) ++ x.b.regs (fileOf v) ++ x.c.regs (fileOf v)
  | .sel v x => x.ctl ++ x.a.regs (fileOf v) ++ x.b.regs (fileOf v) ++ x.c.regs (if v then .p else .s)
  | .abs v x | .clz v x | .popc v x | .brev v x => x.ctl ++ x.a.regs (fileOf v)
  | .mov v x => x.ctl ++ x.a.regs (if v && x.cNum == 0 then .v else .s)
  | .movi _ x => x.ctl
  | .fadd x | .fsub x | .fmul x | .fmin x | .fmax x | .fcmp x | .fscale x | .fdiv x =>
      x.ctl ++ x.a.regs .v ++ x.b.regs .v
  | .ffma x | .fdot2 x | .fdot4 x => x.ctl ++ x.a.regs .v ++ x.b.regs .v ++ x.c.regs .v
  | .fabs x | .fneg x | .fclass x | .frnd x | .fsqrt x | .frcp x | .frsq x | .fexp2 x | .flog2 x | .fsin x
  | .fcos x | .ftanh x | .cvt x | .cvtbPack x | .cvtbUnpack x => x.ctl ++ x.a.regs .v
  | .xget x | .xput x | .xbcast x | .xrot x | .xshift x | .xalign x | .xzip x | .xunzip x | .permb x =>
      x.ctl ++ x.a.regs .v ++ x.b.regs .v
  | .xrev x | .qswap x | .qbcast x | .scan x | .reduce x => x.ctl ++ x.a.regs .v
  | .permt x => x.ctl ++ (match x.a with
      | .reg n => RegKind.span .v n (2 ^ bits x.cNum 8 2)
      | .latch _ => []) ++ x.b.regs .v
  | .ballot x | .vote x => x.ctl ++ x.a.regs .p
  | .first x | .popcp x => x.ctl ++ x.a.regs (if bit x.cNum 0 then .m else .p)
  | .br x => [⟨.p, x.g.p⟩]
  | .bru x => [⟨.p, x.g.p⟩, ⟨.s, x.a⟩]
  | .brp x => [⟨.p, x.g.p⟩, ⟨.p, x.a⟩]
  | .brx x => [⟨.p, x.g.p⟩, ⟨.v, x.a⟩]
  | .call x => [⟨.p, x.g.p⟩]
  | .ret x => [⟨.p, x.g.p⟩, ⟨if sd = .mcc then .s else .v, x.a⟩]
  | .join x | .exit x | .yield x | .nop x | .trap x | .rett x | .yieldp x | .sysrd x | .srd x => [⟨.p, x.g.p⟩]
  | .plop _ a b c _ g => [⟨.p, g.p⟩, ⟨.p, a⟩, ⟨.p, b⟩, ⟨.p, c⟩]
  | .pmov x => [⟨.p, x.g.p⟩, (pmovRegs x).1]
  | .pWord a b => a.srcRegs ++ b.srcRegs
  | .ld x | .pf x | .ldf x | .ldfe x => [⟨.p, x.g.p⟩, ⟨.m, x.vx.m⟩, ⟨.s, x.a⟩] ++ x.off.regs .v
  | .st x | .ste x | .stf x => [⟨.p, x.g.p⟩, ⟨.m, x.vx.m⟩, ⟨.s, x.a⟩, ⟨.v, x.d⟩] ++ x.off.regs .v
  | .ldu x | .ldb x | .icinv x => [⟨.p, x.g.p⟩, ⟨.m, x.vx.m⟩, ⟨.s, x.a⟩] ++ x.off.regs .s
  | .stu x | .awarm x | .arrive x | .waitg x => [⟨.p, x.g.p⟩, ⟨.s, x.a⟩, ⟨.s, x.d⟩] ++ x.off.regs .s
  | .stb x => [⟨.p, x.g.p⟩, ⟨.m, x.vx.m⟩, ⟨.s, x.a⟩] ++ RegKind.span .v x.d (2 ^ (x.sz % 4)) ++ x.off.regs .s
  | .smsg x => [⟨.p, x.g.p⟩, ⟨.s, x.a⟩] ++ RegKind.span .s x.d 9 ++ x.off.regs .s
  | .strq x => [⟨.p, x.g.p⟩]
  | .feset x => [⟨.p, x.g.p⟩, ⟨.s, x.a⟩, ⟨.s, x.b⟩]
  | .feq x | .cjoin x | .nodeq x | .cancel x | .flinkq x | .vminq x | .capq x => [⟨.p, x.g.p⟩, ⟨.s, x.a⟩]
  | .cleave x | .tokq x | .rampq x => [⟨.p, x.g.p⟩]
  | .atom _ x | .atomnr _ x | .fatom _ x | .fatomnr _ x | .redv _ x =>
      [⟨.p, x.g.p⟩, ⟨.m, x.vx.m⟩, ⟨.s, x.a⟩, ⟨.v, x.d⟩] ++ x.off.regs .v
  | .atomcas x => [⟨.p, x.g.p⟩, ⟨.m, x.vx.m⟩, ⟨.s, x.a⟩, ⟨.v, x.d⟩, ⟨.v, x.d + 1⟩] ++ x.off.regs .v
  | .cpy x | .cpys x | .cpym x =>
      [⟨.p, x.g.p⟩, ⟨.s, x.a⟩, ⟨.s, x.d⟩] ++ (match x.off with
        | .reg n _ => RegKind.span .s n 5
        | .imm _ _ => [])
  | .cpyg x =>
      [⟨.p, x.g.p⟩, ⟨.s, x.a⟩, ⟨.s, x.d⟩] ++ (match x.off with
        | .reg n _ => RegKind.span .s n 2
        | .imm _ _ => [])
  | .cpyc x => [⟨.p, x.g.p⟩, ⟨.s, x.a⟩, ⟨.s, x.d⟩] ++ x.off.regs .s
  | .mcfg _ _ _ _ => []
  | .mlds x | .mscl x | .mwaitg x | .marrive x => [⟨.s, x.a⟩, ⟨.s, x.b⟩]
  | .mswap _ | .mstat _ => []
  | .mstrm x => [⟨.s, x.d⟩, ⟨.s, x.a⟩, ⟨.s, x.b⟩]
  | .mclr x => [⟨.s, x.d⟩]
  | .accrd x => [⟨.p, x.g.p⟩, ⟨.s, x.a⟩]
  | .accwr x => [⟨.p, x.g.p⟩, ⟨.s, x.a⟩] ++ RegKind.span .v x.d (2 * x.nr)
  | .accrdc x => [⟨.p, x.g.p⟩, ⟨.s, x.a⟩, ⟨.s, x.b⟩]
  | .launch x => [⟨.p, x.g.p⟩, ⟨.s, x.a⟩] ++ RegKind.span .s x.b x.launchN
  | .launcht x => [⟨.p, x.g.p⟩, ⟨.s, x.a⟩] ++ RegKind.span .s x.b (2 + x.launchN)
  | .spawn x => [⟨.p, x.g.p⟩, ⟨.s, x.b⟩, ⟨.v, x.a⟩]
  | .fxfer x | .fget x => [⟨.p, x.g.p⟩, ⟨.s, x.a⟩] ++ RegKind.span .s x.d 3 ++ x.off.regs .s
  | .coll x => [⟨.p, x.g.p⟩, ⟨.s, x.a⟩] ++ x.off.regs .s
  | .tokpr x | .intent x => [⟨.p, x.g.p⟩, ⟨.s, x.a⟩, ⟨.s, x.b⟩]
  | .ballastPf x | .ballastStage x => [⟨.p, x.g.p⟩] ++ RegKind.span .s x.a 4
  | .ballastCancel x => [⟨.p, x.g.p⟩, ⟨.s, x.a⟩, ⟨.s, x.a + 3⟩]
  | .syswrFflags x | .syswrRng x => [⟨.p, x.g.p⟩, ⟨.v, x.a⟩]
  | .syswrTlbinv x | .syswrResumepc x => [⟨.p, x.g.p⟩, ⟨.s, x.a⟩]
  | _ => []

/-- Destinations of an instruction. -/
def Instr.writes (sd : Side) : Instr → List RegRef
  | .add v x | .sub v x | .mul v x | .mulh v x | .div v x | .rem v x | .min v x | .max v x
  | .and v x | .or v x | .xor v x | .andn v x | .shl v x | .shr v x | .sar v x | .rot v x
  | .bfx v x | .lea v x | .mad v x | .madw v x | .bfi v x | .sad v x | .sel v x
  | .abs v x | .clz v x | .popc v x | .brev v x | .mov v x | .movi v x => [⟨fileOf v, x.d⟩]
  | .cmp v x => [x.cmpDest v]
  | .fcmp x => [x.cmpDest true]
  | .fadd x | .fsub x | .fmul x | .fmin x | .fmax x | .fscale x | .fdiv x
  | .ffma x | .fdot2 x | .fdot4 x
  | .fabs x | .fneg x | .fclass x | .frnd x | .fsqrt x | .frcp x | .frsq x | .fexp2 x | .flog2 x | .fsin x
  | .fcos x | .ftanh x | .cvt x | .cvtbPack x | .cvtbUnpack x
  | .xget x | .xput x | .xbcast x | .xrot x | .xshift x | .xalign x | .xzip x | .xunzip x | .permb x
  | .xrev x | .qswap x | .qbcast x | .scan x | .permt x => [⟨.v, x.d⟩]
  | .reduce x | .ballot x | .first x | .popcp x => [⟨.s, x.d⟩]
  | .vote x => [⟨.p, x.d⟩]
  | .call x => [⟨if sd = .mcc then .s else .v, x.a⟩]
  | .plop d _ _ _ _ _ => [⟨.p, d⟩]
  | .pmov x => [(pmovRegs x).2]
  | .pWord a b => [⟨.v, a.d⟩, ⟨.v, b.d⟩]
  | .ld x | .ldf x | .ldfe x => [⟨.v, x.d⟩]
  | .ldu x => [⟨.s, x.d⟩]
  | .ldb x => RegKind.span .v x.d (2 ^ (x.sz % 4))
  | .strq x => [⟨.v, x.d⟩]
  | .feq x | .cjoin x | .nodeq x | .flinkq x | .tokq x | .tokpr x | .rampq x | .intent x | .capq x
  | .ballastPf x | .ballastStage x | .ballastCancel x | .cancel x => [⟨.s, x.d⟩]
  | .vminq x => RegKind.span .s x.d 2
  | .atom _ x | .atomcas x | .fatom _ x => [⟨.v, x.d⟩]
  | .mstat x => [⟨.s, x.d⟩]
  | .accrd x => RegKind.span .v x.d (2 * x.nr)
  | .accrdc x => RegKind.span .v x.d x.accrdcRegs
  | .launch x | .launcht x | .spawn x => [⟨.s, x.d⟩, ⟨.p, x.c % 16⟩]
  | .sysrd x => [⟨.s, x.d⟩]
  | .srd x => [⟨if srdPerLane x.sys then .v else .s, x.d⟩]
  | _ => []

/-! ## The class 0x0–0x4 operands of an instruction -/

/-- The operands of a class 0x0–0x4 instruction, and whether its operands are vectors. -/
def Instr.alu : Instr → Option (Bool × Alu)
  | .add v x | .sub v x | .mul v x | .mulh v x | .mad v x | .madw v x | .div v x | .rem v x | .min v x | .max v x
  | .abs v x | .and v x | .or v x | .xor v x | .andn v x | .shl v x | .shr v x | .sar v x | .rot v x | .clz v x
  | .popc v x | .brev v x | .bfx v x | .bfi v x | .sel v x | .cmp v x | .mov v x | .movi v x | .lea v x | .sad v x =>
      some (v, x)
  | .fadd x | .fsub x | .fmul x | .ffma x | .fmin x | .fmax x | .fabs x | .fneg x | .fcmp x | .fclass x | .frnd x
  | .fdot2 x | .fdot4 x | .fscale x | .fdiv x | .fsqrt x | .frcp x | .frsq x | .fexp2 x | .flog2 x | .fsin x
  | .fcos x | .ftanh x | .cvt x | .cvtbPack x | .cvtbUnpack x
  | .xget x | .xput x | .xbcast x | .xrot x | .xshift x | .xalign x | .xrev x | .xzip x | .xunzip x | .qswap x
  | .qbcast x | .permt x | .permb x | .scan x | .reduce x | .ballot x | .vote x | .first x | .popcp x =>
      some (true, x)
  | _ => none

def Opnd.latchOf (r : RegKind) : Opnd → List (RegKind × Nat)
  | .reg _ => []
  | .latch i => [(r, i)]

def SrcB.latchOf (r : RegKind) : SrcB → List (RegKind × Nat)
  | .opnd o => o.latchOf r
  | .bcast o => o.latchOf .s
  | .imm _ => []

/-- The latches that an instruction reads, each with the file its operand stands for. A vector MOV of a scalar reads a
scalar (R93). -/
def Instr.latchReads : Instr → List (RegKind × Nat)
  | .pWord a b => a.a.latchOf .v ++ b.a.latchOf .v
  | i =>
    match i.alu with
    | none => []
    | some (v, x) =>
      let k := fileOf v
      let ka := match i with
        | .mov true y => if y.cNum == 1 then .s else .v
        | _ => k
      x.a.latchOf ka ++ x.b.latchOf k ++ x.c.latchOf k

/-- A head reads no latch (R35). -/
def Instr.isHead (i : Instr) : Bool := i.latchReads.isEmpty

/-- Registers whose numbers the budgets bound at issue (R25): a destination that `nowb` keeps from being written is
not one. -/
def Instr.budgeted (sd : Side) (i : Instr) : List RegRef :=
  i.reads sd ++ (match i, i.alu with
    | .pWord a b, _ => (if a.nowb then [] else [⟨.v, a.d⟩]) ++ (if b.nowb then [] else [⟨.v, b.d⟩])
    | _, some (_, x) => if x.nowb then [] else i.writes sd
    | _, none => i.writes sd)

def RegRef.within (r : RegRef) (vb sb : Nat) : Bool :=
  match r.kind with
  | .v => r.n < vb
  | .s => r.n < sb
  | _ => true

end Sys2Proof
end

