-- ==== Sys2Proof/WellFormed.lean ====
section
/-!
DEFINITION. The field checks that fill makes on an instruction (R40 item 4): an instruction that fails one is
an illegal encoding. `Instr.wf` also holds the bounds that make every field fit its place in the word, so that a
well-formed instruction has an encoding. Events have no encoding and are well formed.
-/
namespace Sys2Proof

/-- The value of an immediate, sign-extended (R18). -/
def Imm.val : Imm → Int
  | .short n => sext 20 n
  | .long n => sext 48 n

def Imm.fits : Imm → Bool
  | .short n => n < 2 ^ 20
  | .long n => n < 2 ^ 48

def Opnd.fits : Opnd → Bool
  | .reg n => n < 1024
  | .latch i => i < 4

def SrcB.fits : SrcB → Bool
  | .opnd o => o.fits
  | .bcast o => o.fits
  | .imm i => i.fits

def Guard.fits (g : Guard) : Bool := g.p < 16

def Opnd.isReg : Opnd → Bool
  | .reg _ => true
  | .latch _ => false

/-- In form FI, bits [9:8] and the c field belong to the immediate, so c is register 0. -/
def Alu.fits (x : Alu) : Bool :=
  x.vx.m < 16 && x.d < 1024 && x.a.fits && x.b.fits && x.c.fits && x.g.fits && x.fmt < 8 &&
  (match x.b with
   | .imm _ => x.c == .reg 0
   | _ => true)

def R3.fits (x : R3) : Bool :=
  x.d < 1024 && x.a < 1024 && x.b < 1024 && x.c < 1024 && x.g.fits && x.fmt < 8

def ixFits : Option Nat → Bool
  | none => true
  | some n => n < 2 ^ 28

def MOff.fits : MOff → Bool
  | .reg n ix => n < 1024 && ixFits ix
  | .imm n ix => n < 1024 && ixFits ix

def Mem.fits (x : Mem) : Bool :=
  x.vx.m < 16 && x.d < 1024 && x.a < 1024 && x.off.fits && x.strm < 8 && x.after < 256 && x.sz < 8 && x.g.fits

def Br.fits (x : Br) : Bool := x.a < 1024 && x.off < 2 ^ 24 && x.g.fits

def Sys.fits (x : Sys) : Bool := x.d < 1024 && x.a < 1024 && x.sys < 2 ^ 16 && x.g.fits

def Slot.fits (x : Slot) : Bool :=
  x.d < 256 && (match x.a with | .reg n => n < 256 | .latch i => i < 4) && x.g.p < 4 && x.fmt < 8

def SlArgs.fits (x : SlArgs) : Bool := x.rd < 32 && x.rs1 < 32 && x.rs2 < 32 && x.f7 < 128

/-- What a class 0x0–0x4 instruction may use (R17, R33, R34): sources a and b, c as a register or a constant,
a latch in c, `nowb`, VX rm and VX sat. -/
structure AluUse where
  a : Bool := true
  b : Bool := true
  c : Bool := false
  latchA : Bool := true
  latchC : Bool := false
  elig : Bool := true
  rm : Bool := false
  sat : Bool := false

/-- R17, R20, R33, R34: unused fields are zero, latches stand only where they may, and `nowb`, rm and sat are
set only where they are permitted. -/
def Alu.uses (u : AluUse) (x : Alu) : Bool :=
  (u.a || x.a == .reg 0) && (u.b || x.b == .opnd (.reg 0)) && (u.c || x.c == .reg 0) &&
  (u.latchA || x.a.isReg) && (u.latchC || x.c.isReg) && (u.elig || !x.nowb) &&
  (u.rm || x.vx.rm == .rne) && (u.sat || !x.vx.sat)

/-- Class 0x0 takes no VX prefix (R17). -/
def Alu.cls01 (vec : Bool) (u : AluUse) (x : Alu) : Bool :=
  x.fits && x.uses u && (vec || x.vx == {})

/-- Formats of R106: `f64` is excluded for some instructions, `f32` for FDOT4. -/
def Alu.cls23 (u : AluUse) (f64 f32 : Bool) (x : Alu) : Bool :=
  x.fits && x.uses u && x.fmt < 4 && (f64 || x.fmt != 1) && (f32 || x.fmt != 0)

/-- The condition fields of CMP (R92) and FCMP (R110); `all` admits the conditions un and ord. -/
def Alu.cmpOk (vec all : Bool) (x : Alu) : Bool :=
  (all || x.cmpCond vec < 6) && !(x.cmpKind vec && x.cmpAny vec) &&
  (match x.b with
   | .imm _ => !vec || !bit x.d 4
   | _ => x.cNum < (if vec then 32 else 8))

/-- Elements per lane of an integer format (R27, R177). -/
def subCount (fmt : Nat) : Nat := 8 / 2 ^ (fmt / 2)

def cvtCodeOk (code : Nat) : Bool :=
  code ≤ 0x08 || (0x10 ≤ code && code ≤ 0x17)

/-- CVT's codes and part (R114, R115), with sat only for an integer destination (R106). -/
def Alu.cvtOk (x : Alu) : Bool :=
  let dst := bits x.cNum 5 5
  let src := bits x.cNum 0 5
  (cvtCodeOk dst || dst == 0x0C || dst == 0x0D) && cvtCodeOk src &&
  x.fmt < (Nat.max (cvtWidth dst) (cvtWidth src)) / (Nat.min (cvtWidth dst) (cvtWidth src)) &&
  (!x.vx.sat || 0x10 ≤ dst)

/-- SCAN and REDUCE (R181, R187). -/
def Alu.scanOk (excl : Bool) (x : Alu) : Bool :=
  let c := x.cNum
  let fl := bit c 4
  let op := c % 16
  c < 64 && (excl || !bit c 5) && op ≤ (if fl then 2 else 5) && (!fl || x.fmt < 4) &&
  (x.vx.rm == .rne || (fl && op == 0)) && (!x.vx.sat || (!fl && op == 0))

/-- A class 0x0–0x4 instruction with a constant in c. -/
def useConst (b : Bool) (elig : Bool) : AluUse := { b := b, c := true, elig := elig }

/-- An FR word outside classes 0x0–0x4, with the fields it uses (R3, R20, R27). -/
def R3.uses (d a b c fmt : Bool) (x : R3) : Bool :=
  x.fits && (d || x.d == 0) && (a || x.a == 0) && (b || x.b == 0) && (c || x.c == 0) && (fmt || x.fmt == 0)

def Mem.noVx (x : Mem) : Bool := x.vx == {}

/-- VX fields m and z before LD, ST, LDB and STB; only m before an atomic (R17). -/
def Mem.vxMz (x : Mem) : Bool := x.vx.rm == .rne && !x.vx.sat

def Mem.isImm (x : Mem) : Bool := match x.off with | .imm _ _ => true | .reg _ _ => false

def Mem.noIx (x : Mem) : Bool :=
  match x.off with
  | .imm _ ix => ix == none
  | .reg _ ix => ix == none

def Sys.uses (d a sys : Bool) (x : Sys) : Bool :=
  x.fits && (d || x.d == 0) && (a || x.a == 0) && (sys || x.sys == 0)

/-- The sz values that R224 permits. -/
def intSz (x : Mem) : Bool := x.sz < 2
def floatSz (o : FAtomOp) (x : Mem) : Bool :=
  match o with
  | .add => x.sz == 2 || x.sz == 3 || x.sz == 4
  | _ => x.sz == 2

def Mem.atomic (x : Mem) : Bool := x.fits && x.vxMz && !x.vx.z && !x.isImm

/-- Copies: FM with I = 0, sz 000, no prefix (R242). -/
def Mem.copyOk (x : Mem) : Bool := x.fits && x.noVx && !x.isImm && x.noIx && x.sz == 0

/-- Vector operations of class 0x7: sz 011 and no VX (R203, R204). -/
def Mem.cls7 (szs : List Nat) (x : Mem) : Bool := x.fits && x.noVx && szs.contains x.sz

def PairOp.isFloat : PairOp → Bool
  | .fadd | .fsub | .fmul | .fmin | .fmax | .fabs | .fneg | .fscale => true
  | _ => false

/-- Operations whose modifier bit may be 1 (R30). -/
def PairOp.modOk : PairOp → Bool
  | .add | .sub | .mul | .abs | .fadd | .fsub | .fmul | .fscale => true
  | _ => false

/-- One slot (R29, R30): its format is one of its class. -/
def Slot.ok (x : Slot) : Bool :=
  x.fits && (!x.mod || x.op.modOk) && (!x.op.isFloat || x.fmt < 4) && (!x.nowb || x.d == 0)

/-- The vector registers that a slot reads, for the bank rule (R31). -/
def Slot.bankReads (x : Slot) : List Nat :=
  match x.a with
  | .reg n => [x.d, n]
  | .latch _ => [x.d]

/-- The pairing rules (R31). -/
def pairOk (a b : Slot) : Bool :=
  a.ok && b.ok && a.d % 4 != b.d % 4 &&
  (List.range 4).all (fun k => ((a.bankReads ++ b.bankReads).filter (fun r => r % 4 == k)).length ≤ 2) &&
  !b.bankReads.contains a.d && b.a != .latch 0

/-- Matrix words without d, with their c field below `lim` (R293). -/
def R3.matrix (d a b : Bool) (lim : Nat) (x : R3) : Bool := x.uses d a b true false && x.c < lim

/-- Register fields within their files (R25). -/
def RegRef.inFile (r : RegRef) : Bool :=
  match r.kind with
  | .v => true
  | .s => r.n < 128
  | .p | .m => r.n < 16

/-! ## Base instructions of a slice core (R321) -/

/-- A signed field of `len` bits whose value is a multiple of `step`. -/
def signedFits (len step : Nat) (i : Int) : Bool :=
  i % (step : Int) == 0 && -(2 ^ (len - 1) : Nat) ≤ i && i < (2 ^ (len - 1) : Nat)

def Rv.fits : Rv → Bool
  | .lui rd imm | .auipc rd imm => rd < 32 && imm < 2 ^ 20
  | .jal rd off => rd < 32 && signedFits 21 2 off
  | .jalr rd rs1 off => rd < 32 && rs1 < 32 && signedFits 12 1 off
  | .branch _ rs1 rs2 off => rs1 < 32 && rs2 < 32 && signedFits 13 2 off
  | .load w rd rs1 off => (w.bytes == 1 || w.bytes == 2 || (w.bytes == 4 && w.signed)) && rd < 32 && rs1 < 32 &&
      signedFits 12 1 off
  | .store n rs1 rs2 off => (n == 1 || n == 2 || n == 4) && rs1 < 32 && rs2 < 32 && signedFits 12 1 off
  | .opImm o rd rs1 imm => rd < 32 && rs1 < 32 && (match o with
      | .sll | .srl | .sra => 0 ≤ imm && imm < 32
      | .add | .slt | .sltu | .xor | .or | .and => signedFits 12 1 imm
      | _ => false)
  | .op _ rd rs1 rs2 => rd < 32 && rs1 < 32 && rs2 < 32

/-- A register of a three-bit field: x8 to x15. -/
def xp (n : Nat) : Bool := 8 ≤ n && n < 16

def Rvc.fits : Rvc → Bool
  | .addi4spn rd n => xp rd && n != 0 && n % 4 == 0 && n < 1024
  | .lw a b n | .sw a b n => xp a && xp b && n % 4 == 0 && n < 128
  | .addi rd i | .li rd i => rd < 32 && signedFits 6 1 i
  | .jal off | .j off => signedFits 12 2 off
  | .addi16sp i => i != 0 && signedFits 10 16 i
  | .lui rd i => rd < 32 && rd != 2 && i != 0 && signedFits 6 1 i
  | .srli rd sh | .srai rd sh => xp rd && sh < 32
  | .andi rd i => xp rd && signedFits 6 1 i
  | .sub a b | .xor a b | .or a b | .and a b => xp a && xp b
  | .beqz a off | .bnez a off => xp a && signedFits 9 2 off
  | .slli rd sh => rd < 32 && sh < 32
  | .lwsp rd n => rd < 32 && rd != 0 && n % 4 == 0 && n < 256
  | .jr a | .jalr a => a < 32 && a != 0
  | .mv rd b | .add rd b => rd < 32 && b < 32 && b != 0
  | .swsp b n => b < 32 && n % 4 == 0 && n < 256

def RvWord.fits : RvWord → Bool
  | .base r => r.fits
  | .comp c => c.fits
  | .illegal _ => true

/-- What the two sides share of the field checks. -/
def Instr.fieldsOk : Instr → Bool
  | .add v x | .sub v x | .mul v x => x.cls01 v { sat := true }
  | .mulh v x | .min v x | .max v x
  | .and v x | .or v x | .xor v x | .andn v x | .shr v x | .sar v x | .rot v x => x.cls01 v { sat := true }
  | .div v x | .rem v x => x.cls01 v { sat := true, elig := false }
  | .shl v x | .bfx v x => x.cls01 v { sat := true }
  | .mad v x | .bfi v x | .sad v x => x.cls01 v { sat := true, c := true, latchC := true }
  | .madw v x => x.cls01 v { sat := true, c := true, latchC := true } && x.fmt < 6
  | .abs v x | .clz v x | .popc v x | .brev v x => x.cls01 v { b := false, sat := true }
  | .sel v x => x.cls01 v { sat := true, c := true, latchC := !v }
  | .cmp v x => x.cls01 v { sat := true, c := true, elig := !v } && x.cmpOk v false
  | .mov v x => x.cls01 v { b := false, c := true, sat := true } && x.cNum < (if v then 2 else 1)
  | .movi v x => x.cls01 v { a := false, sat := true, latchA := false }
  | .lea v x => x.cls01 v { c := true, sat := true } &&
      (match x.b with
       | .imm _ => x.fmt == 6
       | _ => x.cNum < 8)
  | .fadd x | .fsub x | .fmul x => x.cls23 { rm := true } true true
  | .fscale x => x.cls23 { rm := true } true true
  | .ffma x => x.cls23 { c := true, latchC := true, rm := true } true true
  | .fmin x | .fmax x => x.cls23 {} true true
  | .fabs x | .fneg x => x.cls23 { b := false } true true
  | .fclass x => x.cls23 { b := false } true true
  | .frnd x => x.cls23 { b := false, rm := true } true true
  | .fcmp x => x.cls23 { c := true, elig := false } true true && x.cmpOk true true
  | .fdot2 x => x.cls23 { c := true, latchC := true, rm := true } false true
  | .fdot4 x => x.cls23 { c := true, latchC := true, rm := true } false false
  | .fdiv x => x.cls23 { rm := true, elig := false } true true
  | .fsqrt x | .frcp x | .frsq x => x.cls23 { b := false, rm := true, elig := false } true true
  | .fexp2 x | .flog2 x | .fsin x | .fcos x | .ftanh x => x.cls23 { b := false, elig := false } false true
  | .cvt x => x.fits && x.uses { b := false, c := true, rm := true, sat := true, elig := false } && x.cvtOk
  | .cvtbPack x | .cvtbUnpack x =>
      x.fits && x.uses { b := false, c := true, rm := true, elig := false } && x.fmt == 0 && x.cNum < 7
  | .xget x | .xput x => x.fits && x.uses { elig := false }
  | .xbcast x => x.fits && x.uses {} &&
      (match x.b with
       | .imm i => 0 ≤ i.val && i.val ≤ 255 && i.val.toNat % 8 < subCount x.fmt
       | _ => true)
  | .xrot x | .xshift x => x.fits && x.uses {}
  | .xalign x => x.fits && x.uses (useConst true true) && x.cNum ≤ 32 * subCount x.fmt
  | .xrev x => x.fits && x.uses (useConst false true) && x.cNum < 16 && 2 ^ x.cNum ≤ 32 * subCount x.fmt
  | .xzip x | .xunzip x => x.fits && x.uses (useConst true true) && x.cNum < 2
  | .qswap x => x.fits && x.uses (useConst false true) && x.cNum < 4 && x.cNum != 0
  | .qbcast x => x.fits && x.uses (useConst false true) && x.cNum < 4
  | .permt x => x.fits && x.uses (useConst true true) && x.fmt == 0 && (x.a.isReg || bits x.cNum 8 2 == 0)
  | .permb x => x.fits && x.uses {} && x.fmt == 0
  | .scan x => x.fits && x.uses { b := false, c := true, elig := false, rm := true, sat := true } && x.scanOk true
  | .reduce x => x.fits && x.uses { b := false, c := true, elig := false, rm := true, sat := true } && x.scanOk false
  | .ballot x => x.fits && x.uses { b := false, latchA := false, elig := false } && x.fmt == 0
  | .vote x => x.fits && x.uses { b := false, c := true, latchA := false, elig := false } && x.fmt == 0 && x.cNum < 3
  | .first x | .popcp x =>
      x.fits && x.uses { b := false, c := true, latchA := false, elig := false } && x.fmt == 0 && x.cNum < 2
  | .br x => x.fits && x.a == 0 && !x.cneg
  | .bru x | .brp x => x.fits
  | .call x => x.fits && !x.cneg
  | .brx x => x.uses false true false false false
  | .ret x => x.uses false true false
  | .join x | .exit x | .yield x | .nop x => x.uses false false false
  | .plop d a b c tt g => d < 1024 && a < 1024 && b < 16 && c < 16 && tt < 256 && g.fits
  | .pmov x => x.uses true true true false false && x.b < 5
  | .pWord a b => pairOk a b
  | .ld x | .st x => x.fits && x.vxMz
  | .ldu x | .stu x => x.fits && x.noVx
  | .ldb x | .stb x => x.fits && x.vxMz
  | .pf x => x.fits && x.noVx && x.strm == 0 && x.after == 0 && x.scope == .lane && x.sz == 0 && x.d < 3
  | .icinv x => x.fits && x.noVx && x.d == 0 && x.sz < 4 && x.scope != .sys
  | .strq x => x.uses true false false true false && x.c < 8
  | .smsg x => x.fits && x.noVx && x.sz == 0
  | .ldf x | .ldfe x | .ste x | .stf x => x.cls7 [3]
  | .awarm x | .arrive x => x.cls7 [0, 1]
  | .waitg x => x.cls7 [0]
  | .feset x => x.uses false true true true false && x.c < 2
  | .feq x | .cjoin x => x.uses true true false false false
  | .cleave x => x.uses false false false false false
  | .atom _ x => x.atomic && intSz x
  | .atomnr o x => x.atomic && intSz x && o != .exch
  | .atomcas x => x.atomic && intSz x && x.noVx
  | .fatom o x | .fatomnr o x => x.atomic && floatSz o x
  | .redv (.int o) x => x.atomic && intSz x && o != .exch
  | .redv (.float o) x => x.atomic && floatSz o x
  | .cpy x | .cpys x | .cpyg x | .cpym x | .cpyc x => x.copyOk
  | .mcfg k wf af rm =>
      k < 4 && 1 ≤ wf && wf ≤ 20 && 1 ≤ af && af ≤ 20 &&
      (match rm with
       | .stoch | .dyn => false
       | _ => true)
  | .mlds x => x.matrix false true true 16
  | .mswap x => x.matrix false false false 4
  | .mstrm x => x.matrix true true true 8
  | .mclr x => x.matrix true false false 4
  | .mscl x => x.matrix false true true 4
  | .mwaitg x => x.matrix false true true 1
  | .marrive x => x.matrix false true true 256
  | .mstat x => x.matrix true false false 8
  | .accrd x | .accwr x => x.matrix true true false 3
  | .accrdc x => x.uses true true true true true && x.c % 4 != 3 && (x.fmt == 0 || x.fmt == 4) &&
      bits x.c 2 3 ≤ 4 && [0x00, 0x02, 0x03, 0x04, 0x05, 0x06, 0x07, 0x08, 0x0C, 0x0D, 0x10, 0x12, 0x14].contains (bits x.c 5 5)
  -- b names a scalar register also where n = 0 and none is read (log entry 91)
  | .launch x | .launcht x => x.uses true true true true false && x.b < 128 && x.c < 128 && x.launchN != 7
  | .spawn x => x.uses true true true true false && x.c < 16
  | .nodeq x | .cancel x => x.uses true true false false false
  | .fxfer x | .fget x => x.fits && x.noVx && !x.isImm && x.sz == 0
  | .coll x => x.fits && x.noVx && !x.isImm && x.sz == 0 && x.d == 0
  | .flinkq x => x.uses true true false false false
  | .tokq x => x.uses true false false true false && x.c < 6
  | .tokpr x | .intent x => x.uses true true true false false
  | .ballastPf x | .ballastStage x | .ballastCancel x => x.uses true true false false false
  | .vminq x => x.uses true true false false false
  | .capq x => x.uses true true false true false && x.c < 2
  | .rampq x => x.uses true false false true false && x.c < 3
  | .sysrd x => x.uses true false true && x.sys < 10 && x.sys != 6 && x.sys != 7 && x.sys != 8
  | .syswrFflags x => x.uses false true true && x.sys == 6
  | .syswrRng x => x.uses false true true && x.sys == 7
  | .syswrTlbinv x => x.uses false true true && x.sys == 8
  | .syswrResumepc x => x.uses false true true && x.sys == 4
  | .srd x => x.uses true false true && x.sys < 13
  | .rett x | .yieldp x => x.uses false false false && x.g == {}
  | .trap x => x.uses false false true && x.sys < 256
  | .slrd x => x.fits && x.rs2 == 0 && x.f7 < 2
  | .slwr x => x.fits && x.rd == 0 && x.f7 < 16
  | .slpf x | .slmsg x | .slarr x => x.fits && x.rd == 0 && x.f7 == 0
  | .sldone x => x.fits && x.rd == 0 && x.rs2 == 0 && x.f7 == 0
  | .slqry x => x.fits && x.rs2 == 0 && x.f7 == 0
  | .slbud x => x.fits && x.rs1 == 0 && x.rs2 == 0 && x.f7 == 0
  | .handlerBaseInstruction r => r.fits
  | _ => true

/-- The guard, latch and prefix fields that a matrix control core's stream may not use (R48, R64). -/
def Alu.mccOk (x : Alu) : Bool :=
  x.g == {} && !x.nowb && x.a.isReg && x.c.isReg && x.vx == {} &&
  (match x.b with
   | .opnd o => o.isReg
   | .bcast _ => false
   | .imm _ => true)

/-- Instructions that a matrix control core decodes (R48), with the field limits of its stream (R64). -/
def Instr.mccSide : Instr → Option Bool
  | .add false x | .sub false x | .mul false x | .mulh false x | .mad false x | .madw false x | .div false x
  | .rem false x | .min false x | .max false x | .abs false x | .and false x | .or false x | .xor false x
  | .andn false x | .shl false x | .shr false x | .sar false x | .rot false x | .clz false x | .popc false x
  | .brev false x | .bfx false x | .bfi false x | .sel false x | .cmp false x | .mov false x | .movi false x
  | .lea false x | .sad false x => some x.mccOk
  | .br x | .bru x | .call x => some (x.g == {})
  | .ret x | .exit x => some (x.g == {})
  | .mcfg _ _ _ _ => some true
  | .mlds x | .mswap x | .mstrm x | .mclr x | .mscl x | .mwaitg x | .marrive x | .mstat x => some (x.g == {})
  | _ => none

/-- Instructions that only a matrix control core decodes (R48). -/
def Instr.mccOnly : Instr → Bool
  | .mcfg _ _ _ _ | .mlds _ | .mswap _ | .mstrm _ | .mclr _ | .mscl _ | .mwaitg _ | .marrive _ | .mstat _ => true
  | _ => false

/-- Whether a side decodes the instruction's opcode at all (R48). -/
def Instr.onSide (sd : Side) (i : Instr) : Bool :=
  match sd with
  | .vector => !i.mccOnly
  | .mcc => i.mccSide.isSome

/-- Every register field lies within its file (R25). -/
def Instr.regsOk (sd : Side) (i : Instr) : Bool := (i.reads sd ++ i.writes sd).all RegRef.inFile

/-- The instruction passes every check that fill makes on its fields (R40), on the side that decodes it. -/
def Instr.wf (sd : Side) (i : Instr) : Bool :=
  i.fieldsOk && i.regsOk sd && i.onSide sd &&
  (match sd with
   | .vector => true
   | .mcc => i.mccSide == some true)

end Sys2Proof
end

