-- ==== Sys2Proof/Decode.lean ====
section
/-!
DEFINITION. The decoder, total on any parcels, and after it the encoder, from the same tables of spec/02.
A warp's word is taken apart in three stages: `parse` reads the fields of its form (R20–R24, R29), `build` finds
the instruction its opcode names (R44–R47), and `Instr.wf` makes the checks on its fields (R40).
-/
namespace Sys2Proof

/-- Why fill refuses an instruction (R40): a broken structure, an unassigned opcode, a bad field. -/
inductive DecodeError where
  | shape
  | opcode
  | fields
  deriving DecidableEq, Repr

/-- The cause code of a refusal (R42). -/
def DecodeError.cause : DecodeError → Nat
  | .shape => 0x021
  | .opcode => 0x020
  | .fields => 0x021

/-- The fields of a word, by form. In `alu`, the class and the operation index stand for the opcode. In `mem`, the
opcode is the one with I = 0 where bit 0 of the opcode is I. -/
inductive Form where
  | alu (cls idx : Nat) (x : Alu)
  | r3 (op : Nat) (x : R3)
  | fi (op d a imm : Nat) (g : Guard)
  | mem (op : Nat) (x : Mem)
  | br (op : Nat) (x : Br)
  | sys (op : Nat) (x : Sys)
  | pair (a b : Slot)
  deriving DecidableEq, Repr

/-- The layouts of R20–R24. -/
inductive Layout where
  | fr | fi | fm | fb | fs
  deriving DecidableEq, Repr

/-- The layout an opcode outside classes 0x0–0x4 has (R46). Unassigned opcodes have any. -/
def layoutOf (op : Nat) : Layout :=
  match op / 128 with
  | 5 => if op % 128 == 3 || op % 128 == 0x0B then .fr else if op % 128 == 0x0A then .fi
      else if op % 128 < 5 then .fb else .fs
  | 6 => if op % 128 == 0x10 then .fr else .fm
  | 7 => if op % 128 == 0x08 || op % 128 == 0x0A || op % 128 == 0x12 || op % 128 == 0x14 then .fr else .fm
  | 8 => .fm
  | 9 => .fm
  | 10 => if op % 128 == 0 then .fi else .fr
  | 12 => if op % 128 == 6 then .fr else .fm
  | 14 => .fs
  | _ => .fr

/-- Opcode bit 0 is I (R21, R46): not in class 0x8. -/
def iIsBit0 (op : Nat) : Bool := op / 128 != 8

/-- Words that a VX prefix may precede (R17). -/
def vxAllowed (op : Nat) : Bool :=
  (1 ≤ op / 128 && op / 128 ≤ 4) ||
  (op / 128 == 6 && (op % 128 < 4 || (8 ≤ op % 128 && op % 128 < 12))) ||
  (op / 128 == 8 && op % 128 / 16 != 2)

/-- Words that an IX prefix may precede (R18): FI words of classes 0x0–0x4, and FM words but for copies (R242). -/
def ixAllowed (op : Nat) : Bool :=
  (op / 128 ≤ 4 && bit op 6) ||
  ((op / 128 == 6 || op / 128 == 7 || op / 128 == 8 || op / 128 == 12) && layoutOf op == .fm)

def rmOf (n : Nat) : Option Rm :=
  match n with
  | 0 => some .rne | 1 => some .rtz | 2 => some .rdn | 3 => some .rup
  | 4 => some .rna | 5 => some .stoch | 6 => some .dyn
  | _ => none

def Rm.code : Rm → Nat
  | .rne => 0 | .rtz => 1 | .rdn => 2 | .rup => 3 | .rna => 4 | .stoch => 5 | .dyn => 6

def scopeOf (n : Nat) : Option Scope :=
  match n with
  | 0 => some .lane | 1 => some .warp | 2 => some .block | 3 => some .cluster
  | 4 => some .die | 5 => some .dev | 6 => some .sys
  | _ => none

def Scope.code : Scope → Nat
  | .lane => 0 | .warp => 1 | .block => 2 | .cluster => 3 | .die => 4 | .dev => 5 | .sys => 6

/-- The VX prefix (R16): none when rm is 111, a bit of [7:0] or the fourth operand is not zero. -/
def parseVx (p : Nat) : Option Vx :=
  if bits p 0 8 == 0 && bits p 9 11 == 0 then
    (rmOf (bits p 20 3)).map (fun rm => { m := bits p 24 4, z := bit p 23, rm := rm, sat := bit p 8 })
  else none

/-- A source field with its latch flag; the field of a latch has [9:2] zero (R34). -/
def parseOpnd (field : Nat) (latch : Bool) : Opnd := if latch then .latch (field % 4) else .reg field

def opndBad (field : Nat) (latch : Bool) : Bool := latch && 4 ≤ field

/-- A class 0x0–0x4 word (R20, R45), and whether a field breaks a rule that its fields no longer show. -/
def parseAlu (vx : Vx) (ix : Option Nat) (w : Nat) : Form × Bool :=
  let op := bits w 52 11
  let a := bits w 31 10
  let g : Guard := { p := bits w 3 4, neg := bit w 7 }
  if bit op 6 then
    let i := match ix with
      | some n => Imm.long (n * 2 ^ 20 + bits w 11 20)
      | none => Imm.short (bits w 11 20)
    (.alu (op / 128) (bits op 1 5)
      { vx := vx, d := bits w 42 10, nowb := bit w 41, a := parseOpnd a (bit w 10), b := .imm i,
        g := g, fmt := bits w 0 3 },
     opndBad a (bit w 10) || bits w 8 2 != 0)
  else
    let b := parseOpnd (bits w 21 10) (bit w 9)
    (.alu (op / 128) (bits op 1 5)
      { vx := vx, d := bits w 42 10, nowb := bit w 41, a := parseOpnd a (bit w 10),
        b := if bit op 0 then .bcast b else .opnd b, c := parseOpnd (bits w 11 10) (bit w 8),
        g := g, fmt := bits w 0 3 },
     opndBad a (bit w 10) || opndBad (bits w 21 10) (bit w 9) || opndBad (bits w 11 10) (bit w 8))

/-- An FR word outside classes 0x0–0x4: nowb and the latch flags are zero (R33, R34). -/
def parseR3 (w : Nat) : Form × Bool :=
  (.r3 (bits w 52 11)
    { d := bits w 42 10, a := bits w 31 10, b := bits w 21 10, c := bits w 11 10,
      g := { p := bits w 3 4, neg := bit w 7 }, fmt := bits w 0 3 },
   bit w 41 || bits w 8 3 != 0)

/-- PLOP and MCFG: FI with a laid-out imm20 (R77, R294). -/
def parseFi (w : Nat) : Form × Bool :=
  (.fi (bits w 52 11) (bits w 42 10) (bits w 31 10) (bits w 11 20) { p := bits w 3 4, neg := bit w 7 },
   bit w 41 || bits w 8 3 != 0 || bits w 0 3 != 0)

/-- An FM word (R21); scope 111 is refused (R22). -/
def parseMem (vx : Vx) (ix : Option Nat) (w : Nat) : Form × Bool :=
  let op := bits w 52 11
  let isImm := iIsBit0 op && bit op 0
  (.mem (if isImm then op - 1 else op)
    { vx := vx, d := bits w 42 10, a := bits w 31 10,
      off := if isImm then .imm (bits w 21 10) ix else .reg (bits w 21 10) ix,
      strm := bits w 18 3, after := bits w 10 8, scope := (scopeOf (bits w 7 3)).getD .lane,
      sz := bits w 4 3, g := { p := bits w 0 4, neg := bit w 41 } },
   (scopeOf (bits w 7 3)).isNone)

/-- An FB word (R23). -/
def parseBr (w : Nat) : Form × Bool :=
  (.br (bits w 52 11)
    { a := bits w 42 10, cneg := bit w 41, off := bits w 5 24, g := { p := bits w 0 4, neg := bit w 4 } },
   bits w 29 12 != 0)

/-- An FS word (R24). -/
def parseSys (w : Nat) : Form × Bool :=
  (.sys (bits w 52 11)
    { d := bits w 42 10, a := bits w 32 10, sys := bits w 16 16, g := { p := bits w 3 4, neg := bit w 7 } },
   bits w 8 8 != 0 || bits w 0 3 != 0)

/-- The pairable operation of op7[6:1] (R29, R30, R45). -/
def pairOpOf (n : Nat) : Option PairOp :=
  match n with
  | 0 => some .add | 1 => some .sub | 2 => some .mul | 8 => some .min | 9 => some .max | 10 => some .abs
  | 11 => some .and | 12 => some .or | 13 => some .xor | 14 => some .andn | 15 => some .shl | 16 => some .shr
  | 17 => some .sar | 18 => some .rot | 19 => some .clz | 20 => some .popc | 21 => some .brev | 26 => some .mov
  | 32 => some .fadd | 33 => some .fsub | 34 => some .fmul | 36 => some .fmin | 37 => some .fmax
  | 38 => some .fabs | 39 => some .fneg | 45 => some .fscale
  | _ => none

def PairOp.code : PairOp → Nat
  | .add => 0 | .sub => 1 | .mul => 2 | .min => 8 | .max => 9 | .abs => 10
  | .and => 11 | .or => 12 | .xor => 13 | .andn => 14 | .shl => 15 | .shr => 16
  | .sar => 17 | .rot => 18 | .clz => 19 | .popc => 20 | .brev => 21 | .mov => 26
  | .fadd => 32 | .fsub => 33 | .fmul => 34 | .fmin => 36 | .fmax => 37 | .fabs => 38 | .fneg => 39 | .fscale => 45

/-- One slot of a P-word (R29). -/
def parseSlot (s : Nat) : Option Slot :=
  if bit s 7 && 4 ≤ bits s 8 8 then none
  else (pairOpOf (bits s 25 6)).map (fun o =>
    { op := o, mod := bit s 24, d := bits s 16 8,
      a := if bit s 7 then .latch (bits s 8 2) else .reg (bits s 8 8),
      nowb := bit s 6, g := { p := bits s 4 2, neg := bit s 3 }, fmt := bits s 0 3 })

/-- The fields of a word (R15, R20–R24, R29) after its prefixes. -/
def parse (vx ix : Option Nat) (w : Nat) : Except DecodeError (Form × Bool) :=
  if bits w 62 2 == 2 then
    match parseSlot (bits w 31 31), parseSlot (bits w 0 31) with
    | some a, some b => .ok (.pair a b, vx.isSome || ix.isSome)
    | _, _ => .error .fields
  else
    let op := bits w 52 11
    let v := (vx.bind parseVx).getD {}
    let vxBad := vx.isSome && (!vxAllowed op || (vx.bind parseVx).isNone)
    let ixBad := ix.isSome && !ixAllowed op
    let r : Form × Bool :=
      if op / 128 ≤ 4 then parseAlu v ix w
      else match layoutOf op with
        | .fr => parseR3 w
        | .fi => parseFi w
        | .fm => parseMem v ix w
        | .fb => parseBr w
        | .fs => parseSys w
    if op / 128 ≤ 4 && bit op 6 && bit op 0 then .error .opcode
    else .ok (r.1, r.2 || vxBad || ixBad)

/-- The combinations of I and B that an operation admits (R45, R180). -/
inductive Forms where
  | all | frB | frOnly | fiOnly | bFi
  deriving DecidableEq, Repr

def Forms.ok : Forms → SrcB → Bool
  | .all, _ => true
  | .frB, .imm _ => false
  | .frB, _ => true
  | .frOnly, .opnd _ => true
  | .frOnly, _ => false
  | .fiOnly, .imm _ => true
  | .fiOnly, _ => false
  | .bFi, .opnd _ => false
  | .bFi, _ => true

/-- Classes 0x0 and 0x1 (R45, R86). -/
def intOp (idx : Nat) : Option (Forms × (Bool → Alu → Instr)) :=
  match idx with
  | 0 => some (.all, .add) | 1 => some (.all, .sub) | 2 => some (.all, .mul) | 3 => some (.frB, .mulh)
  | 4 => some (.frB, .mad) | 5 => some (.frB, .madw) | 6 => some (.frB, .div) | 7 => some (.frB, .rem)
  | 8 => some (.all, .min) | 9 => some (.all, .max) | 10 => some (.frOnly, .abs) | 11 => some (.all, .and)
  | 12 => some (.all, .or) | 13 => some (.all, .xor) | 14 => some (.all, .andn) | 15 => some (.all, .shl)
  | 16 => some (.all, .shr) | 17 => some (.all, .sar) | 18 => some (.all, .rot) | 19 => some (.frOnly, .clz)
  | 20 => some (.frOnly, .popc) | 21 => some (.frOnly, .brev) | 22 => some (.all, .bfx) | 23 => some (.frB, .bfi)
  | 24 => some (.frB, .sel) | 25 => some (.all, .cmp) | 26 => some (.frOnly, .mov) | 27 => some (.fiOnly, .movi)
  | 28 => some (.all, .lea) | 29 => some (.frB, .sad)
  | _ => none

/-- Class 0x2 (R45, R106). -/
def floatOp (idx : Nat) : Option (Forms × (Alu → Instr)) :=
  match idx with
  | 0 => some (.all, .fadd) | 1 => some (.all, .fsub) | 2 => some (.all, .fmul) | 3 => some (.frB, .ffma)
  | 4 => some (.all, .fmin) | 5 => some (.all, .fmax) | 6 => some (.frOnly, .fabs) | 7 => some (.frOnly, .fneg)
  | 8 => some (.all, .fcmp) | 9 => some (.frOnly, .fclass) | 10 => some (.frOnly, .frnd)
  | 11 => some (.frB, .fdot2) | 12 => some (.frB, .fdot4) | 13 => some (.all, .fscale)
  | _ => none

/-- Class 0x3 (R45, R106); bit 4 of CVTB's c tells unpacking from packing (R117). -/
def specialOp (idx : Nat) (x : Alu) : Option (Forms × Instr) :=
  match idx with
  | 0 => some (.frB, .fdiv x) | 1 => some (.frOnly, .fsqrt x) | 2 => some (.frOnly, .frcp x)
  | 3 => some (.frOnly, .frsq x) | 4 => some (.frOnly, .fexp2 x) | 5 => some (.frOnly, .flog2 x)
  | 6 => some (.frOnly, .fsin x) | 7 => some (.frOnly, .fcos x) | 8 => some (.frOnly, .ftanh x)
  | 16 => some (.frOnly, .cvt x)
  | 17 =>
      match x.c with
      | .reg c => if bit c 4 then some (.frOnly, .cvtbUnpack { x with c := .reg (c - 16) }) else some (.frOnly, .cvtbPack x)
      | .latch _ => some (.frOnly, .cvtbPack x)
  | _ => none

/-- Class 0x4 (R45, R180). -/
def rearrangeOp (idx : Nat) : Option (Forms × (Alu → Instr)) :=
  match idx with
  | 0 => some (.frOnly, .xget) | 1 => some (.frOnly, .xput) | 2 => some (.bFi, .xbcast) | 3 => some (.bFi, .xrot)
  | 4 => some (.bFi, .xshift) | 5 => some (.frOnly, .xalign) | 6 => some (.frOnly, .xrev)
  | 7 => some (.frOnly, .xzip) | 8 => some (.frOnly, .xunzip) | 9 => some (.frOnly, .qswap)
  | 10 => some (.frOnly, .qbcast) | 11 => some (.frOnly, .permt) | 12 => some (.frOnly, .permb)
  | 13 => some (.frOnly, .scan) | 14 => some (.frOnly, .reduce) | 15 => some (.frOnly, .ballot)
  | 16 => some (.frOnly, .vote) | 17 => some (.frOnly, .first) | 18 => some (.frOnly, .popcp)
  | _ => none

def buildAlu (cls idx : Nat) (x : Alu) : Option Instr :=
  match cls with
  | 0 => (intOp idx).bind (fun r =>
      match x.b with
      | .bcast _ => none
      | _ => if r.1.ok x.b then some (r.2 false x) else none)
  | 1 => (intOp idx).bind (fun r => if r.1.ok x.b then some (r.2 true x) else none)
  | 2 => (floatOp idx).bind (fun r => if r.1.ok x.b then some (r.2 x) else none)
  | 3 => (specialOp idx x).bind (fun r => if r.1.ok x.b then some r.2 else none)
  | 4 => (rearrangeOp idx).bind (fun r => if r.1.ok x.b then some (r.2 x) else none)
  | _ => none

/-- FR words outside classes 0x0–0x4 (R46); BALLAST's kind is its c field (R397). -/
def buildR3 (op : Nat) (x : R3) : Option Instr :=
  match op with
  | 0x283 => some (.brx x) | 0x28B => some (.pmov x)
  | 0x310 => some (.strq x)
  | 0x388 => some (.feset x) | 0x38A => some (.feq x) | 0x392 => some (.cjoin x) | 0x394 => some (.cleave x)
  | 0x501 => some (.mlds x) | 0x502 => some (.mswap x) | 0x503 => some (.mstrm x) | 0x504 => some (.mclr x)
  | 0x505 => some (.mscl x) | 0x506 => some (.mwaitg x) | 0x507 => some (.marrive x) | 0x508 => some (.mstat x)
  | 0x510 => some (.accrd x) | 0x511 => some (.accwr x) | 0x512 => some (.accrdc x)
  | 0x580 => some (.launch x) | 0x581 => some (.launcht x) | 0x582 => some (.spawn x)
  | 0x583 => some (.nodeq x) | 0x584 => some (.cancel x)
  | 0x606 => some (.flinkq x)
  | 0x680 => some (.tokq x) | 0x681 => some (.tokpr x) | 0x682 => some (.intent x)
  | 0x683 =>
      match x.c with
      | 0 => some (.ballastPf x)
      | 1 => some (.ballastStage { x with c := 0 })
      | 2 => some (.ballastCancel { x with c := 0 })
      | _ => some (.ballastPf x)
  | 0x684 => some (.vminq x) | 0x685 => some (.capq x) | 0x686 => some (.rampq x)
  | _ => none

/-- The integer operation of class 0x8 (R47). -/
def atomOpOf (n : Nat) : Option AtomOp :=
  match n with
  | 0 => some .add | 1 => some .smin | 2 => some .umin | 3 => some .smax | 4 => some .umax
  | 5 => some .and | 6 => some .or | 7 => some .xor | 8 => some .exch
  | _ => none

def AtomOp.code : AtomOp → Nat
  | .add => 0 | .smin => 1 | .umin => 2 | .smax => 3 | .umax => 4 | .and => 5 | .or => 6 | .xor => 7 | .exch => 8

def fatomOpOf (n : Nat) : Option FAtomOp :=
  match n with
  | 0 => some .add | 1 => some .min | 2 => some .max
  | _ => none

def FAtomOp.code : FAtomOp → Nat
  | .add => 0 | .min => 1 | .max => 2

/-- The operations of class 0x8 that R47 lists; `exch` only in ATOM. -/
def buildAtomic (sub : Nat) (x : Mem) : Option Instr :=
  match sub / 16 with
  | 0 => (atomOpOf (sub % 16)).map (fun o => .atom o x)
  | 1 => (atomOpOf (sub % 16)).bind (fun o => if o = .exch then none else some (.atomnr o x))
  | 2 => if sub % 16 == 0 then some (.atomcas x) else none
  | 3 => (fatomOpOf (sub % 16)).map (fun o => .fatom o x)
  | 4 => (fatomOpOf (sub % 16)).map (fun o => .fatomnr o x)
  | 5 =>
      if 12 ≤ sub % 16 then (fatomOpOf (sub % 16 - 12)).map (fun o => .redv (.float o) x)
      else (atomOpOf (sub % 16)).bind (fun o => if o = .exch then none else some (.redv (.int o) x))
  | _ => none

/-- FM words that have only I = 0 (R46). -/
def regOnly (x : Mem) (i : Instr) : Option Instr := if x.isImm then none else some i

/-- FM words (R46, R47). -/
def buildMem (op : Nat) (x : Mem) : Option Instr :=
  match op with
  | 0x300 => some (.ld x) | 0x302 => some (.st x) | 0x304 => some (.ldu x) | 0x306 => some (.stu x)
  | 0x308 => some (.ldb x) | 0x30A => some (.stb x) | 0x30C => some (.pf x) | 0x30E => some (.icinv x)
  | 0x312 => some (.smsg x)
  | 0x380 => some (.ldf x) | 0x382 => some (.ldfe x) | 0x384 => some (.ste x) | 0x386 => some (.stf x)
  | 0x38C => some (.awarm x) | 0x38E => some (.arrive x) | 0x390 => some (.waitg x)
  | 0x480 => regOnly x (.cpy x) | 0x482 => regOnly x (.cpys x) | 0x484 => regOnly x (.cpyg x)
  | 0x486 => regOnly x (.cpym x) | 0x488 => regOnly x (.cpyc x)
  | 0x600 => regOnly x (.fxfer x) | 0x602 => regOnly x (.fget x) | 0x604 => regOnly x (.coll x)
  | _ => if op / 128 == 8 then buildAtomic (op % 128) x else none

def buildBr (op : Nat) (x : Br) : Option Instr :=
  match op with
  | 0x280 => some (.br x) | 0x281 => some (.bru x) | 0x282 => some (.brp x) | 0x284 => some (.call x)
  | _ => none

/-- FS words (R46). SYSWR's row is its register's; a number without a row is left to the field check (R434). -/
def buildSys (op : Nat) (x : Sys) : Option Instr :=
  match op with
  | 0x285 => some (.ret x) | 0x286 => some (.join x) | 0x287 => some (.exit x) | 0x288 => some (.yield x)
  | 0x289 => some (.nop x)
  | 0x700 => some (.sysrd x)
  | 0x701 =>
      match x.sys with
      | 6 => some (.syswrFflags x) | 7 => some (.syswrRng x) | 8 => some (.syswrTlbinv x)
      | _ => some (.syswrResumepc x)
  | 0x702 => some (.srd x) | 0x703 => some (.rett x) | 0x704 => some (.yieldp x) | 0x705 => some (.trap x)
  | _ => none

/-- PLOP and MCFG (R77, R294): the instruction, and whether a reserved bit of the layout is set. -/
def buildFi (op d a imm : Nat) (g : Guard) : Option (Instr × Bool) :=
  match op with
  | 0x28A => some (.plop d a (bits imm 8 4) (bits imm 12 4) (bits imm 0 8) g, bits imm 16 4 != 0)
  | 0x500 =>
      some (.mcfg (bits imm 18 2) (bits imm 11 5) (bits imm 6 5) ((rmOf (bits imm 3 3)).getD .dyn),
        bits imm 16 2 != 0 || bits imm 0 3 != 0 || d != 0 || a != 0 || g != {})
  | _ => none

/-- The instruction a form's opcode names (R44–R47), and whether a reserved bit is set; none when it is unassigned. -/
def build : Form → Option (Instr × Bool)
  | .alu cls idx x => (buildAlu cls idx x).map (·, false)
  | .r3 op x => (buildR3 op x).map (·, op == 0x683 && x.c == 3)
  | .fi op d a imm g => buildFi op d a imm g
  | .mem op x => (buildMem op x).map (·, false)
  | .br op x => (buildBr op x).map (·, false)
  | .sys op x => (buildSys op x).map (·, false)
  | .pair a b => some (.pWord a b, false)

/-- A P-word: on the side that does not decode it, an illegal encoding (R48). -/
def Instr.isPair : Instr → Bool
  | .pWord _ _ => true
  | _ => false

/-- One word after its prefixes, on one side (R40 items 3 and 4, R48). -/
def decodeWord (sd : Side) (vx ix : Option Nat) (w : Nat) : Except DecodeError Instr :=
  match parse vx ix w with
  | .error e => .error e
  | .ok (f, bad) =>
    match build f with
    | none => .error .opcode
    | some (i, bad') =>
      if !i.onSide sd && !i.isPair then .error .opcode
      else if bad || bad' || !i.wf sd || (sd == .mcc && vx.isSome) then .error .fields
      else .ok i

/-- One instruction of a fill block (R38): where it starts, how many parcels it takes, its prefix-like parcels and
its word, absent when the run ends at a PAD or the block's end, or the word would cross that end. -/
structure Item where
  start : Nat
  len : Nat
  pre : List Nat
  word : Option Nat
  deriving DecidableEq, Repr

/-- A PAD parcel (R19). -/
def isPad (p : Nat) : Bool := p == 0xF0000000

/-- A parcel that belongs to a prefix run (R38). -/
def prefixLike (p : Nat) : Bool := p / 2 ^ 30 == 3 && !isPad p

/-- The prefix run at the head of the parcels, and what follows it. -/
def takeRun : List Nat → List Nat × List Nat
  | [] => ([], [])
  | p :: ps => if prefixLike p then let r := takeRun ps; (p :: r.1, r.2) else ([], p :: ps)

/-- The instructions of a block from parcel `i` on (R38); the fuel is the number of parcels. -/
def scanItems : Nat → Nat → List Nat → List Item
  | 0, _, _ => []
  | _ + 1, _, [] => []
  | fuel + 1, i, p :: ps =>
    if isPad p then scanItems fuel (i + 1) ps
    else
      let r := takeRun (p :: ps)
      let n := r.1.length
      match r.2 with
      | [] => [⟨i, n, r.1, none⟩]
      | q :: qs =>
        if isPad q then ⟨i, n, r.1, none⟩ :: scanItems fuel (i + n) (q :: qs)
        else match qs with
          | [] => [⟨i, n + 1, r.1, none⟩]
          | q' :: qs' => ⟨i, n + 2, r.1, some (q * 2 ^ 32 + q')⟩ :: scanItems fuel (i + n + 2) qs'

/-- The instructions of a fill block of 16 parcels (R38). -/
def scanBlock (ps : List Nat) : List Item := scanItems ps.length 0 ps

/-- The prefixes of a run (R40 item 2): nothing, VX, IX, or VX then IX. -/
def runPrefixes (pre : List Nat) : Option (Option Nat × Option Nat) :=
  match pre with
  | [] => some (none, none)
  | [p] =>
      if p / 2 ^ 28 == 0xC then some (some (p % 2 ^ 28), none)
      else if p / 2 ^ 28 == 0xD then some (none, some (p % 2 ^ 28))
      else none
  | [p, q] => if p / 2 ^ 28 == 0xC && q / 2 ^ 28 == 0xD then some (some (p % 2 ^ 28), some (q % 2 ^ 28)) else none
  | _ => none

/-- Decode one instruction of a fill block (R39, R40 items 2 to 4). -/
def decodeItem (sd : Side) (it : Item) : Except DecodeError Instr :=
  match it.word, runPrefixes it.pre with
  | some w, some (vx, ix) => decodeWord sd vx ix w
  | _, _ => .error .shape

/-- The first instruction of a list of parcels, if one starts at its first parcel. -/
def decodeParcels (sd : Side) (ps : List Nat) : Except DecodeError Instr :=
  match scanItems ps.length 0 ps with
  | it :: _ => if it.start == 0 then decodeItem sd it else .error .shape
  | [] => .error .shape

/-! ## Slice cores: RV32IMC and custom-0 (R321, R333) -/

def rvCond (f3 : Nat) : Option RvCond :=
  match f3 with
  | 0 => some .eq | 1 => some .ne | 4 => some .lt | 5 => some .ge | 6 => some .ltu | 7 => some .geu
  | _ => none

def RvCond.code : RvCond → Nat
  | .eq => 0 | .ne => 1 | .lt => 4 | .ge => 5 | .ltu => 6 | .geu => 7

def rvLoad (f3 : Nat) : Option RvWidth :=
  match f3 with
  | 0 => some ⟨1, true⟩ | 1 => some ⟨2, true⟩ | 2 => some ⟨4, true⟩ | 4 => some ⟨1, false⟩ | 5 => some ⟨2, false⟩
  | _ => none

def RvWidth.code (w : RvWidth) : Nat :=
  match w.bytes, w.signed with
  | 1, true => 0 | 2, true => 1 | 1, false => 4 | 2, false => 5 | _, _ => 2

/-- Register operations by funct7 and funct3. -/
def rvOp (f7 f3 : Nat) : Option RvOp :=
  match f7, f3 with
  | 0, 0 => some .add | 32, 0 => some .sub | 0, 1 => some .sll | 0, 2 => some .slt | 0, 3 => some .sltu
  | 0, 4 => some .xor | 0, 5 => some .srl | 32, 5 => some .sra | 0, 6 => some .or | 0, 7 => some .and
  | 1, 0 => some .mul | 1, 1 => some .mulh | 1, 2 => some .mulhsu | 1, 3 => some .mulhu
  | 1, 4 => some .div | 1, 5 => some .divu | 1, 6 => some .rem | 1, 7 => some .remu
  | _, _ => none

/-- funct7 × 8 + funct3 of a register operation. -/
def RvOp.code : RvOp → Nat
  | .add => 0 | .sub => 256 | .sll => 1 | .slt => 2 | .sltu => 3 | .xor => 4 | .srl => 5 | .sra => 261 | .or => 6
  | .and => 7 | .mul => 8 | .mulh => 9 | .mulhsu => 10 | .mulhu => 11 | .div => 12 | .divu => 13 | .rem => 14
  | .remu => 15

/-- A word of the base set (RV32IM); none where it is illegal (R321). -/
def rvBase (w : Nat) : Option Rv :=
  let rd := bits w 7 5
  let f3 := bits w 12 3
  let rs1 := bits w 15 5
  let rs2 := bits w 20 5
  let f7 := bits w 25 7
  let immI := sext 12 (bits w 20 12)
  match w % 128 with
  | 0x37 => some (.lui rd (bits w 12 20))
  | 0x17 => some (.auipc rd (bits w 12 20))
  | 0x6F => some (.jal rd (sext 21 (bits w 31 1 * 2 ^ 20 + bits w 12 8 * 2 ^ 12 + bits w 20 1 * 2 ^ 11 + bits w 21 10 * 2)))
  | 0x67 => if f3 == 0 then some (.jalr rd rs1 immI) else none
  | 0x63 => (rvCond f3).map (fun c =>
      .branch c rs1 rs2 (sext 13 (bits w 31 1 * 2 ^ 12 + bits w 7 1 * 2 ^ 11 + bits w 25 6 * 2 ^ 5 + bits w 8 4 * 2)))
  | 0x03 => (rvLoad f3).map (fun b => .load b rd rs1 immI)
  | 0x23 => if f3 < 3 then some (.store (2 ^ f3) rs1 rs2 (sext 12 (f7 * 32 + rd))) else none
  | 0x13 =>
      match f3 with
      | 1 => if f7 == 0 then some (.opImm .sll rd rs1 rs2) else none
      | 5 => if f7 == 0 then some (.opImm .srl rd rs1 rs2) else if f7 == 32 then some (.opImm .sra rd rs1 rs2) else none
      | _ => (rvOp 0 f3).map (fun o => .opImm o rd rs1 immI)
  | 0x33 => (rvOp f7 f3).map (fun o => .op o rd rs1 rs2)
  | _ => none

/-- A compressed half-word (RV32C without floating point); none where it is illegal or reserved (R321). -/
def rvComp (h : Nat) : Option Rvc :=
  let rd := bits h 7 5
  let rs2 := bits h 2 5
  let rdp := 8 + bits h 2 3
  let rsp := 8 + bits h 7 3
  let imm6 := bits h 12 1 * 32 + bits h 2 5
  let immJ := sext 12 (bits h 12 1 * 2 ^ 11 + bits h 8 1 * 2 ^ 10 + bits h 9 2 * 2 ^ 8 + bits h 6 1 * 2 ^ 7 +
    bits h 7 1 * 2 ^ 6 + bits h 2 1 * 2 ^ 5 + bits h 11 1 * 2 ^ 4 + bits h 3 3 * 2)
  let immB := sext 9 (bits h 12 1 * 2 ^ 8 + bits h 5 2 * 2 ^ 6 + bits h 2 1 * 2 ^ 5 + bits h 10 2 * 2 ^ 3 + bits h 3 2 * 2)
  let immW := bits h 5 1 * 64 + bits h 10 3 * 8 + bits h 6 1 * 4
  match h % 4, bits h 13 3 with
  | 0, 0 =>
      let imm := bits h 7 4 * 64 + bits h 11 2 * 16 + bits h 5 1 * 8 + bits h 6 1 * 4
      if imm == 0 then none else some (.addi4spn rdp imm)
  | 0, 2 => some (.lw rdp rsp immW)
  | 0, 6 => some (.sw rsp rdp immW)
  | 1, 0 => some (.addi rd (sext 6 imm6))
  | 1, 1 => some (.jal immJ)
  | 1, 2 => some (.li rd (sext 6 imm6))
  | 1, 3 =>
      if rd == 2 then
        let imm := sext 10 (bits h 12 1 * 2 ^ 9 + bits h 3 2 * 2 ^ 7 + bits h 5 1 * 2 ^ 6 + bits h 2 1 * 2 ^ 5 + bits h 6 1 * 2 ^ 4)
        if imm == 0 then none else some (.addi16sp imm)
      else if imm6 == 0 then none else some (.lui rd (sext 6 imm6))
  | 1, 4 =>
      match bits h 10 2 with
      | 0 => if bit h 12 then none else some (.srli rsp (bits h 2 5))
      | 1 => if bit h 12 then none else some (.srai rsp (bits h 2 5))
      | 2 => some (.andi rsp (sext 6 imm6))
      | _ =>
        if bit h 12 then none
        else match bits h 5 2 with
          | 0 => some (.sub rsp rdp)
          | 1 => some (.xor rsp rdp)
          | 2 => some (.or rsp rdp)
          | _ => some (.and rsp rdp)
  | 1, 5 => some (.j immJ)
  | 1, 6 => some (.beqz rsp immB)
  | 1, 7 => some (.bnez rsp immB)
  | 2, 0 => if bit h 12 then none else some (.slli rd rs2)
  | 2, 2 => if rd == 0 then none else some (.lwsp rd (bits h 2 2 * 64 + bits h 12 1 * 32 + bits h 4 3 * 4))
  | 2, 4 =>
      if bit h 12 then
        if rs2 == 0 then (if rd == 0 then none else some (.jalr rd)) else some (.add rd rs2)
      else if rs2 == 0 then (if rd == 0 then none else some (.jr rd)) else some (.mv rd rs2)
  | 2, 6 => some (.swsp rs2 (bits h 7 2 * 64 + bits h 9 4 * 4))
  | _, _ => none

/-- The base instruction that a compressed one stands for. -/
def Rvc.expand : Rvc → Rv
  | .addi4spn rd imm => .opImm .add rd 2 imm
  | .lw rd rs1 imm => .load ⟨4, true⟩ rd rs1 imm
  | .sw rs1 rs2 imm => .store 4 rs1 rs2 imm
  | .addi rd imm => .opImm .add rd rd imm
  | .jal off => .jal 1 off
  | .li rd imm => .opImm .add rd 0 imm
  | .addi16sp imm => .opImm .add 2 2 imm
  | .lui rd imm => .lui rd (pattern 20 imm)
  | .srli rd sh => .opImm .srl rd rd sh
  | .srai rd sh => .opImm .sra rd rd sh
  | .andi rd imm => .opImm .and rd rd imm
  | .sub rd rs2 => .op .sub rd rd rs2
  | .xor rd rs2 => .op .xor rd rd rs2
  | .or rd rs2 => .op .or rd rd rs2
  | .and rd rs2 => .op .and rd rd rs2
  | .j off => .jal 0 off
  | .beqz rs1 off => .branch .eq rs1 0 off
  | .bnez rs1 off => .branch .ne rs1 0 off
  | .slli rd sh => .opImm .sll rd rd sh
  | .lwsp rd imm => .load ⟨4, true⟩ rd 2 imm
  | .jr rs1 => .jalr 0 rs1 0
  | .mv rd rs2 => .op .add rd 0 rs2
  | .jalr rs1 => .jalr 1 rs1 0
  | .add rd rs2 => .op .add rd rd rs2
  | .swsp rs2 imm => .store 4 2 rs2 imm

/-- A custom-0 word (R333), one of the table's eight rows. -/
def slOf (f3 : Nat) (x : SlArgs) : Instr :=
  match f3 with
  | 0 => .slrd x | 1 => .slwr x | 2 => .slpf x | 3 => .slmsg x
  | 4 => .slarr x | 5 => .sldone x | 6 => .slqry x | _ => .slbud x

/-- An instruction of a slice core: its 32 bits, of which a compressed one uses the low 16 (R321, R333). -/
def decodeSlice (w : Nat) : Instr :=
  if w % 4 != 3 then
    match rvComp (w % 2 ^ 16) with
    | some c => .handlerBaseInstruction (.comp c)
    | none => .handlerBaseInstruction (.illegal (w % 2 ^ 16))
  else if w % 128 == 0x0B then
    let i := slOf (bits w 12 3) ⟨bits w 7 5, bits w 15 5, bits w 20 5, bits w 25 7⟩
    if i.fieldsOk then i else .handlerBaseInstruction (.illegal w)
  else match rvBase w with
    | some r => .handlerBaseInstruction (.base r)
    | none => .handlerBaseInstruction (.illegal w)

/-- Bytes that an instruction of a slice core takes. -/
def sliceLen (w : Nat) : Nat := if w % 4 != 3 then 2 else 4

/-- The instruction that the decoder reads from `nbits` bits `w`, every higher bit zero. Up to 32 bits are a slice
core's instruction; more are parcels of a warp's stream, the first parcel lowest, or of a matrix control core's where
a warp does not decode them. -/
def decodeTableWord (nbits w : Nat) : Option Instr :=
  if nbits ≤ 32 then
    match decodeSlice (w % 2 ^ 32) with
    | .handlerBaseInstruction (.illegal _) => none
    | i => some i
  else
    let ps := [bits w 0 32, bits w 32 32, bits w 64 32, bits w 96 32]
    match decodeParcels .vector ps with
    | .ok i => some i
    | .error _ =>
      match decodeParcels .mcc ps with
      | .ok i => some i
      | .error _ => none

/-! ## The encoder -/

/-- The form of an instruction that has an encoding in a warp's stream: the inverse of `build`. -/
def Instr.form : Instr → Option Form
  | .add v x => some (.alu (b2n v) 0 x) | .sub v x => some (.alu (b2n v) 1 x)
  | .mul v x => some (.alu (b2n v) 2 x) | .mulh v x => some (.alu (b2n v) 3 x)
  | .mad v x => some (.alu (b2n v) 4 x) | .madw v x => some (.alu (b2n v) 5 x)
  | .div v x => some (.alu (b2n v) 6 x) | .rem v x => some (.alu (b2n v) 7 x)
  | .min v x => some (.alu (b2n v) 8 x) | .max v x => some (.alu (b2n v) 9 x)
  | .abs v x => some (.alu (b2n v) 10 x) | .and v x => some (.alu (b2n v) 11 x)
  | .or v x => some (.alu (b2n v) 12 x) | .xor v x => some (.alu (b2n v) 13 x)
  | .andn v x => some (.alu (b2n v) 14 x) | .shl v x => some (.alu (b2n v) 15 x)
  | .shr v x => some (.alu (b2n v) 16 x) | .sar v x => some (.alu (b2n v) 17 x)
  | .rot v x => some (.alu (b2n v) 18 x) | .clz v x => some (.alu (b2n v) 19 x)
  | .popc v x => some (.alu (b2n v) 20 x) | .brev v x => some (.alu (b2n v) 21 x)
  | .bfx v x => some (.alu (b2n v) 22 x) | .bfi v x => some (.alu (b2n v) 23 x)
  | .sel v x => some (.alu (b2n v) 24 x) | .cmp v x => some (.alu (b2n v) 25 x)
  | .mov v x => some (.alu (b2n v) 26 x) | .movi v x => some (.alu (b2n v) 27 x)
  | .lea v x => some (.alu (b2n v) 28 x) | .sad v x => some (.alu (b2n v) 29 x)
  | .fadd x => some (.alu 2 0 x) | .fsub x => some (.alu 2 1 x) | .fmul x => some (.alu 2 2 x)
  | .ffma x => some (.alu 2 3 x) | .fmin x => some (.alu 2 4 x) | .fmax x => some (.alu 2 5 x)
  | .fabs x => some (.alu 2 6 x) | .fneg x => some (.alu 2 7 x) | .fcmp x => some (.alu 2 8 x)
  | .fclass x => some (.alu 2 9 x) | .frnd x => some (.alu 2 10 x) | .fdot2 x => some (.alu 2 11 x)
  | .fdot4 x => some (.alu 2 12 x) | .fscale x => some (.alu 2 13 x)
  | .fdiv x => some (.alu 3 0 x) | .fsqrt x => some (.alu 3 1 x) | .frcp x => some (.alu 3 2 x)
  | .frsq x => some (.alu 3 3 x) | .fexp2 x => some (.alu 3 4 x) | .flog2 x => some (.alu 3 5 x)
  | .fsin x => some (.alu 3 6 x) | .fcos x => some (.alu 3 7 x) | .ftanh x => some (.alu 3 8 x)
  | .cvt x => some (.alu 3 16 x) | .cvtbPack x => some (.alu 3 17 x)
  | .cvtbUnpack x => some (.alu 3 17 { x with c := .reg (x.cNum + 16) })
  | .xget x => some (.alu 4 0 x) | .xput x => some (.alu 4 1 x) | .xbcast x => some (.alu 4 2 x)
  | .xrot x => some (.alu 4 3 x) | .xshift x => some (.alu 4 4 x) | .xalign x => some (.alu 4 5 x)
  | .xrev x => some (.alu 4 6 x) | .xzip x => some (.alu 4 7 x) | .xunzip x => some (.alu 4 8 x)
  | .qswap x => some (.alu 4 9 x) | .qbcast x => some (.alu 4 10 x) | .permt x => some (.alu 4 11 x)
  | .permb x => some (.alu 4 12 x) | .scan x => some (.alu 4 13 x) | .reduce x => some (.alu 4 14 x)
  | .ballot x => some (.alu 4 15 x) | .vote x => some (.alu 4 16 x) | .first x => some (.alu 4 17 x)
  | .popcp x => some (.alu 4 18 x)
  | .br x => some (.br 0x280 x) | .bru x => some (.br 0x281 x) | .brp x => some (.br 0x282 x)
  | .brx x => some (.r3 0x283 x) | .call x => some (.br 0x284 x) | .ret x => some (.sys 0x285 x)
  | .join x => some (.sys 0x286 x) | .exit x => some (.sys 0x287 x) | .yield x => some (.sys 0x288 x)
  | .nop x => some (.sys 0x289 x)
  | .plop d a b c tt g => some (.fi 0x28A d a (c * 2 ^ 12 + b * 2 ^ 8 + tt) g)
  | .pmov x => some (.r3 0x28B x)
  | .pWord a b => some (.pair a b)
  | .ld x => some (.mem 0x300 x) | .st x => some (.mem 0x302 x) | .ldu x => some (.mem 0x304 x)
  | .stu x => some (.mem 0x306 x) | .ldb x => some (.mem 0x308 x) | .stb x => some (.mem 0x30A x)
  | .pf x => some (.mem 0x30C x) | .icinv x => some (.mem 0x30E x) | .strq x => some (.r3 0x310 x)
  | .smsg x => some (.mem 0x312 x)
  | .ldf x => some (.mem 0x380 x) | .ldfe x => some (.mem 0x382 x) | .ste x => some (.mem 0x384 x)
  | .stf x => some (.mem 0x386 x) | .feset x => some (.r3 0x388 x) | .feq x => some (.r3 0x38A x)
  | .awarm x => some (.mem 0x38C x) | .arrive x => some (.mem 0x38E x) | .waitg x => some (.mem 0x390 x)
  | .cjoin x => some (.r3 0x392 x) | .cleave x => some (.r3 0x394 x)
  | .atom o x => some (.mem (0x400 + o.code) x) | .atomnr o x => some (.mem (0x410 + o.code) x)
  | .atomcas x => some (.mem 0x420 x)
  | .fatom o x => some (.mem (0x430 + o.code) x) | .fatomnr o x => some (.mem (0x440 + o.code) x)
  | .redv (.int o) x => some (.mem (0x450 + o.code) x)
  | .redv (.float o) x => some (.mem (0x45C + o.code) x)
  | .cpy x => some (.mem 0x480 x) | .cpys x => some (.mem 0x482 x) | .cpyg x => some (.mem 0x484 x)
  | .cpym x => some (.mem 0x486 x) | .cpyc x => some (.mem 0x488 x)
  | .mcfg k wf af rm => some (.fi 0x500 0 0 (k * 2 ^ 18 + wf * 2 ^ 11 + af * 2 ^ 6 + rm.code * 2 ^ 3) {})
  | .mlds x => some (.r3 0x501 x) | .mswap x => some (.r3 0x502 x) | .mstrm x => some (.r3 0x503 x)
  | .mclr x => some (.r3 0x504 x) | .mscl x => some (.r3 0x505 x) | .mwaitg x => some (.r3 0x506 x)
  | .marrive x => some (.r3 0x507 x) | .mstat x => some (.r3 0x508 x)
  | .accrd x => some (.r3 0x510 x) | .accwr x => some (.r3 0x511 x) | .accrdc x => some (.r3 0x512 x)
  | .launch x => some (.r3 0x580 x) | .launcht x => some (.r3 0x581 x) | .spawn x => some (.r3 0x582 x)
  | .nodeq x => some (.r3 0x583 x) | .cancel x => some (.r3 0x584 x)
  | .fxfer x => some (.mem 0x600 x) | .fget x => some (.mem 0x602 x) | .coll x => some (.mem 0x604 x)
  | .flinkq x => some (.r3 0x606 x)
  | .tokq x => some (.r3 0x680 x) | .tokpr x => some (.r3 0x681 x) | .intent x => some (.r3 0x682 x)
  | .ballastPf x => some (.r3 0x683 x) | .ballastStage x => some (.r3 0x683 { x with c := 1 })
  | .ballastCancel x => some (.r3 0x683 { x with c := 2 })
  | .vminq x => some (.r3 0x684 x) | .capq x => some (.r3 0x685 x) | .rampq x => some (.r3 0x686 x)
  | .sysrd x => some (.sys 0x700 x) | .syswrFflags x => some (.sys 0x701 x) | .syswrRng x => some (.sys 0x701 x)
  | .syswrTlbinv x => some (.sys 0x701 x) | .syswrResumepc x => some (.sys 0x701 x)
  | .srd x => some (.sys 0x702 x) | .rett x => some (.sys 0x703 x) | .yieldp x => some (.sys 0x704 x)
  | .trap x => some (.sys 0x705 x)
  | _ => none

def Opnd.field : Opnd → Nat
  | .reg n => n
  | .latch i => i

def Opnd.flag : Opnd → Nat
  | .reg _ => 0
  | .latch _ => 1

def Guard.hi (g : Guard) : Nat := b2n g.neg * 2 ^ 7 + g.p * 2 ^ 3

/-- The word of a class 0x0–0x4 instruction (R20, R45). -/
def emitAlu (cls idx : Nat) (x : Alu) : Nat :=
  let top := x.d * 2 ^ 42 + b2n x.nowb * 2 ^ 41 + x.a.field * 2 ^ 31 + x.a.flag * 2 ^ 10 + x.g.hi + x.fmt
  match x.b with
  | .imm i =>
      (cls * 128 + 64 + idx * 2) * 2 ^ 52 + top +
        (match i with
         | .short n => n
         | .long n => n % 2 ^ 20) * 2 ^ 11
  | .bcast b =>
      (cls * 128 + idx * 2 + 1) * 2 ^ 52 + top + b.field * 2 ^ 21 + b.flag * 2 ^ 9 + x.c.field * 2 ^ 11 + x.c.flag * 2 ^ 8
  | .opnd b =>
      (cls * 128 + idx * 2) * 2 ^ 52 + top + b.field * 2 ^ 21 + b.flag * 2 ^ 9 + x.c.field * 2 ^ 11 + x.c.flag * 2 ^ 8

/-- The VX parcel (R16), absent when every field has its default. -/
def emitVx (v : Vx) : List Nat :=
  if v = {} then []
  else [0xC * 2 ^ 28 + v.m * 2 ^ 24 + b2n v.z * 2 ^ 23 + v.rm.code * 2 ^ 20 + b2n v.sat * 2 ^ 8]

def emitIx : Option Nat → List Nat
  | none => []
  | some n => [0xD * 2 ^ 28 + n]

/-- A 64-bit word as its two parcels, the high one first (R15). -/
def twoParcels (w : Nat) : List Nat := [w / 2 ^ 32, w % 2 ^ 32]

def Mem.ix (x : Mem) : Option Nat :=
  match x.off with
  | .reg _ ix => ix
  | .imm _ ix => ix

def Mem.bField (x : Mem) : Nat :=
  match x.off with
  | .reg n _ => n
  | .imm n _ => n

/-- A slot of a P-word (R29). -/
def emitSlot (x : Slot) : Nat :=
  x.op.code * 2 ^ 25 + b2n x.mod * 2 ^ 24 + x.d * 2 ^ 16 + x.a.field * 2 ^ 8 + x.a.flag * 2 ^ 7 +
  b2n x.nowb * 2 ^ 6 + x.g.p * 2 ^ 4 + b2n x.g.neg * 2 ^ 3 + x.fmt

/-- The parcels of a form (R15–R29). -/
def emit : Form → List Nat
  | .alu cls idx x =>
      emitVx x.vx ++ (match x.b with
        | .imm (.long n) => emitIx (some (n / 2 ^ 20))
        | _ => []) ++ twoParcels (emitAlu cls idx x)
  | .r3 op x =>
      twoParcels (op * 2 ^ 52 + x.d * 2 ^ 42 + x.a * 2 ^ 31 + x.b * 2 ^ 21 + x.c * 2 ^ 11 + x.g.hi + x.fmt)
  | .fi op d a imm g => twoParcels (op * 2 ^ 52 + d * 2 ^ 42 + a * 2 ^ 31 + imm * 2 ^ 11 + g.hi)
  | .mem op x =>
      emitVx x.vx ++ emitIx x.ix ++
      twoParcels ((op + b2n x.isImm) * 2 ^ 52 + x.d * 2 ^ 42 + b2n x.g.neg * 2 ^ 41 + x.a * 2 ^ 31 + x.bField * 2 ^ 21 +
        x.strm * 2 ^ 18 + x.after * 2 ^ 10 + x.scope.code * 2 ^ 7 + x.sz * 2 ^ 4 + x.g.p)
  | .br op x =>
      twoParcels (op * 2 ^ 52 + x.a * 2 ^ 42 + b2n x.cneg * 2 ^ 41 + x.off * 2 ^ 5 + b2n x.g.neg * 2 ^ 4 + x.g.p)
  | .sys op x => twoParcels (op * 2 ^ 52 + x.d * 2 ^ 42 + x.a * 2 ^ 32 + x.sys * 2 ^ 16 + x.g.hi)
  | .pair a b => twoParcels (2 * 2 ^ 62 + emitSlot a * 2 ^ 31 + emitSlot b)

/-- The parcels of an instruction of a warp's or a matrix control core's stream. -/
def encode (i : Instr) : Option (List Nat) := i.form.map emit

/-- The word of a custom-0 instruction (R333). -/
def emitSl (f3 : Nat) (x : SlArgs) : Nat :=
  x.f7 * 2 ^ 25 + x.rs2 * 2 ^ 20 + x.rs1 * 2 ^ 15 + f3 * 2 ^ 12 + x.rd * 2 ^ 7 + 0x0B

/-- The word of a base instruction of a slice core. -/
def emitRv : Rv → Nat
  | .lui rd imm => imm * 2 ^ 12 + rd * 2 ^ 7 + 0x37
  | .auipc rd imm => imm * 2 ^ 12 + rd * 2 ^ 7 + 0x17
  | .jal rd off =>
      let p := pattern 21 off
      bits p 20 1 * 2 ^ 31 + bits p 1 10 * 2 ^ 21 + bits p 11 1 * 2 ^ 20 + bits p 12 8 * 2 ^ 12 + rd * 2 ^ 7 + 0x6F
  | .jalr rd rs1 off => pattern 12 off * 2 ^ 20 + rs1 * 2 ^ 15 + rd * 2 ^ 7 + 0x67
  | .branch c rs1 rs2 off =>
      let p := pattern 13 off
      bits p 12 1 * 2 ^ 31 + bits p 5 6 * 2 ^ 25 + rs2 * 2 ^ 20 + rs1 * 2 ^ 15 + c.code * 2 ^ 12 +
        bits p 1 4 * 2 ^ 8 + bits p 11 1 * 2 ^ 7 + 0x63
  | .load w rd rs1 off => pattern 12 off * 2 ^ 20 + rs1 * 2 ^ 15 + w.code * 2 ^ 12 + rd * 2 ^ 7 + 0x03
  | .store n rs1 rs2 off =>
      let p := pattern 12 off
      bits p 5 7 * 2 ^ 25 + rs2 * 2 ^ 20 + rs1 * 2 ^ 15 + (if n = 1 then 0 else if n = 2 then 1 else 2) * 2 ^ 12 +
        bits p 0 5 * 2 ^ 7 + 0x23
  | .opImm o rd rs1 imm =>
      pattern 12 imm * 2 ^ 20 + (if o = .sra then 2 ^ 30 else 0) + rs1 * 2 ^ 15 + (o.code % 8) * 2 ^ 12 + rd * 2 ^ 7 + 0x13
  | .op o rd rs1 rs2 =>
      (o.code / 8) * 2 ^ 25 + rs2 * 2 ^ 20 + rs1 * 2 ^ 15 + (o.code % 8) * 2 ^ 12 + rd * 2 ^ 7 + 0x33

/-- Quadrant, funct3 and the rest of a compressed half-word. -/
def rvcHalf (q f3 rest : Nat) : Nat := f3 * 2 ^ 13 + rest + q

def rvcImm6 (i : Int) : Nat := bits (pattern 6 i) 5 1 * 2 ^ 12 + bits (pattern 6 i) 0 5 * 2 ^ 2

def rvcImmJ (i : Int) : Nat :=
  let p := pattern 12 i
  bits p 11 1 * 2 ^ 12 + bits p 4 1 * 2 ^ 11 + bits p 8 2 * 2 ^ 9 + bits p 10 1 * 2 ^ 8 + bits p 6 1 * 2 ^ 7 +
    bits p 7 1 * 2 ^ 6 + bits p 1 3 * 2 ^ 3 + bits p 5 1 * 2 ^ 2

def rvcImmB (i : Int) : Nat :=
  let p := pattern 9 i
  bits p 8 1 * 2 ^ 12 + bits p 3 2 * 2 ^ 10 + bits p 6 2 * 2 ^ 5 + bits p 1 2 * 2 ^ 3 + bits p 5 1 * 2 ^ 2

def rvcImmW (n : Nat) : Nat := bits n 3 3 * 2 ^ 10 + bits n 2 1 * 2 ^ 6 + bits n 6 1 * 2 ^ 5

/-- The half-word of a compressed instruction. -/
def emitRvc : Rvc → Nat
  | .addi4spn rd n =>
      rvcHalf 0 0 (bits n 4 2 * 2 ^ 11 + bits n 6 4 * 2 ^ 7 + bits n 2 1 * 2 ^ 6 + bits n 3 1 * 2 ^ 5 + (rd - 8) * 2 ^ 2)
  | .lw rd rs1 n => rvcHalf 0 2 (rvcImmW n + (rs1 - 8) * 2 ^ 7 + (rd - 8) * 2 ^ 2)
  | .sw rs1 rs2 n => rvcHalf 0 6 (rvcImmW n + (rs1 - 8) * 2 ^ 7 + (rs2 - 8) * 2 ^ 2)
  | .addi rd i => rvcHalf 1 0 (rvcImm6 i + rd * 2 ^ 7)
  | .jal off => rvcHalf 1 1 (rvcImmJ off)
  | .li rd i => rvcHalf 1 2 (rvcImm6 i + rd * 2 ^ 7)
  | .addi16sp i =>
      let p := pattern 10 i
      rvcHalf 1 3 (bits p 9 1 * 2 ^ 12 + 2 * 2 ^ 7 + bits p 4 1 * 2 ^ 6 + bits p 6 1 * 2 ^ 5 + bits p 7 2 * 2 ^ 3 + bits p 5 1 * 2 ^ 2)
  | .lui rd i => rvcHalf 1 3 (rvcImm6 i + rd * 2 ^ 7)
  | .srli rd sh => rvcHalf 1 4 ((rd - 8) * 2 ^ 7 + sh * 2 ^ 2)
  | .srai rd sh => rvcHalf 1 4 (2 ^ 10 + (rd - 8) * 2 ^ 7 + sh * 2 ^ 2)
  | .andi rd i => rvcHalf 1 4 (2 * 2 ^ 10 + rvcImm6 i + (rd - 8) * 2 ^ 7)
  | .sub rd rs2 => rvcHalf 1 4 (3 * 2 ^ 10 + (rd - 8) * 2 ^ 7 + (rs2 - 8) * 2 ^ 2)
  | .xor rd rs2 => rvcHalf 1 4 (3 * 2 ^ 10 + (rd - 8) * 2 ^ 7 + 2 ^ 5 + (rs2 - 8) * 2 ^ 2)
  | .or rd rs2 => rvcHalf 1 4 (3 * 2 ^ 10 + (rd - 8) * 2 ^ 7 + 2 * 2 ^ 5 + (rs2 - 8) * 2 ^ 2)
  | .and rd rs2 => rvcHalf 1 4 (3 * 2 ^ 10 + (rd - 8) * 2 ^ 7 + 3 * 2 ^ 5 + (rs2 - 8) * 2 ^ 2)
  | .j off => rvcHalf 1 5 (rvcImmJ off)
  | .beqz rs1 off => rvcHalf 1 6 (rvcImmB off + (rs1 - 8) * 2 ^ 7)
  | .bnez rs1 off => rvcHalf 1 7 (rvcImmB off + (rs1 - 8) * 2 ^ 7)
  | .slli rd sh => rvcHalf 2 0 (rd * 2 ^ 7 + sh * 2 ^ 2)
  | .lwsp rd n => rvcHalf 2 2 (bits n 5 1 * 2 ^ 12 + rd * 2 ^ 7 + bits n 2 3 * 2 ^ 4 + bits n 6 2 * 2 ^ 2)
  | .jr rs1 => rvcHalf 2 4 (rs1 * 2 ^ 7)
  | .mv rd rs2 => rvcHalf 2 4 (rd * 2 ^ 7 + rs2 * 2 ^ 2)
  | .jalr rs1 => rvcHalf 2 4 (2 ^ 12 + rs1 * 2 ^ 7)
  | .add rd rs2 => rvcHalf 2 4 (2 ^ 12 + rd * 2 ^ 7 + rs2 * 2 ^ 2)
  | .swsp rs2 n => rvcHalf 2 6 (bits n 2 4 * 2 ^ 9 + bits n 6 2 * 2 ^ 7 + rs2 * 2 ^ 2)

/-- The word of a slice core's instruction; none for an illegal word and for other streams' instructions. -/
def encodeSlice : Instr → Option Nat
  | .slrd x => some (emitSl 0 x) | .slwr x => some (emitSl 1 x) | .slpf x => some (emitSl 2 x)
  | .slmsg x => some (emitSl 3 x) | .slarr x => some (emitSl 4 x) | .sldone x => some (emitSl 5 x)
  | .slqry x => some (emitSl 6 x) | .slbud x => some (emitSl 7 x)
  | .handlerBaseInstruction (.base r) => some (emitRv r)
  | .handlerBaseInstruction (.comp c) => some (emitRvc c)
  | _ => none

end Sys2Proof
end

