-- ==== Sys2Proof/Machine/Ops.lean ====
section
/-!
DEFINITION. The named operations over registers, threads and frames: reading and writing registers with their fixed
entries (R80), which threads are Active (R6, R65), frontier selection (R54), and, as one shared operation each, taking
a halt or a handler entry (R414, R423, R425) and the return from a frame (R437).
-/
namespace Sys2Proof.Machine

/-- What an instruction's body answers: the state after it, or a fault found before it had any effect but flags. -/
structure Trap where
  cause : Nat
  lane : Nat := 0
  addr : Nat := 0
  /-- The P-word slot that faulted (R420): 0 none, 1 A, 2 B. -/
  ps : Nat := 0
  deriving DecidableEq, Repr

inductive Res where
  | ok (s : State)
  | trap (t : Trap) (s : State)

/-! ## Records of the state -/

def State.warp (s : State) (w : Nat) : Warp := s.warps.get {} w
def State.setWarp (s : State) (w : Nat) (x : Warp) : State := { s with warps := s.warps.set {} w x }
def State.block (s : State) (b : Nat) : BlockRec := s.blocks.get {} b
def State.setBlock (s : State) (b : Nat) (x : BlockRec) : State := { s with blocks := s.blocks.set {} b x }
def State.job (s : State) (j : Nat) : Job := s.jobs.get {} j
def State.setJob (s : State) (j : Nat) (x : Job) : State := { s with jobs := s.jobs.set {} j x }
def State.op (s : State) (o : Nat) : Op := s.ops.get {} o
def State.setOp (s : State) (o : Nat) (x : Op) : State := { s with ops := s.ops.set {} o x }
def State.mcc (s : State) (k : Nat) : Mcc := s.mccs.get {} k
def State.setMcc (s : State) (k : Nat) (x : Mcc) : State := { s with mccs := s.mccs.set {} k x }
def State.arr (s : State) (k : Nat) : Arr := s.arrs.get {} k
def State.setArr (s : State) (k : Nat) (x : Arr) : State := { s with arrs := s.arrs.set {} k x }
def State.slice (s : State) (k : Nat) : Slice := s.slices.get {} k
def State.setSlice (s : State) (k : Nat) (x : Slice) : State := { s with slices := s.slices.set {} k x }
def State.gang (s : State) (g : Nat) : Gang := s.gangs.get {} g
def State.setGang (s : State) (g : Nat) (x : Gang) : State := { s with gangs := s.gangs.set {} g x }
def State.pantry (s : State) (c : Nat) : Pantry := s.pantries.get {} c
def State.setPantry (s : State) (c : Nat) (x : Pantry) : State := { s with pantries := s.pantries.set {} c x }
def State.larder (s : State) (d : Nat) : Larder := s.larders.get {} d
def State.setLarder (s : State) (d : Nat) (x : Larder) : State := { s with larders := s.larders.set {} d x }

/-- A free value, and the state with the counter advanced. -/
def State.draw (s : State) : State := { s with free := s.free + 1 }

/-- A free choice of the device. -/
def State.choice (s : State) : Bool := Config.choice s.free

/-! ## Registers (R80): s0, p0 and m0 read as their fixed values and ignore writes -/

def Warp.rdS (wp : Warp) (n : Nat) : Word := if n = 0 then 0 else wp.s.get 0 n
def Warp.wrS (wp : Warp) (n : Nat) (x : Word) : Warp := if n = 0 then wp else { wp with s := wp.s.set 0 n x }
def Warp.rdP (wp : Warp) (n : Nat) : BitVec 32 := if n = 0 then BitVec.allOnes 32 else wp.p.get 0 n
def Warp.wrP (wp : Warp) (n : Nat) (x : BitVec 32) : Warp := if n = 0 then wp else { wp with p := wp.p.set 0 n x }
def Warp.rdM (wp : Warp) (n : Nat) : BitVec 256 := if n = 0 then BitVec.allOnes 256 else wp.m.get 0 n
def Warp.wrM (wp : Warp) (n : Nat) (x : BitVec 256) : Warp := if n = 0 then wp else { wp with m := wp.m.set 0 n x }
def Warp.rdV (wp : Warp) (n l : Nat) : Word := wp.v.get 0 (n * 32 + l)
def Warp.wrV (wp : Warp) (n l : Nat) (x : Word) : Warp := { wp with v := wp.v.set 0 (n * 32 + l) x }

def Warp.lane (wp : Warp) (l : Nat) : Lane := wp.lanes.get {} l
def Warp.setLane (wp : Warp) (l : Nat) (x : Lane) : Warp := { wp with lanes := wp.lanes.set {} l x }

/-- A matrix control core's scalar registers (R283). -/
def Mcc.rdS (m : Mcc) (n : Nat) : Word := if n = 0 then 0 else m.s.get 0 n
def Mcc.wrS (m : Mcc) (n : Nat) (x : Word) : Mcc := if n = 0 then m else { m with s := m.s.set 0 n x }

/-- The 32 lane numbers. -/
def lanes32 : List Nat := List.range 32

/-- Change every lane of a mask. -/
def Warp.mapLanes (wp : Warp) (mask : Nat) (f : Nat → Lane → Lane) : Warp :=
  (maskList mask 32).foldl (fun a l => a.setLane l (f l (a.lane l))) wp

/-- A vector register written in the lanes of a mask. -/
def Warp.wrVs (wp : Warp) (n mask : Nat) (f : Nat → Word) : Warp :=
  (maskList mask 32).foldl (fun a l => a.wrV n l (f l)) wp

/-! ## Threads -/

def TState.isParked : TState → Bool
  | .parked | .draining => true
  | _ => false

def Warp.isHelper (wp : Warp) (l : Nat) : Bool := (wp.lane l).st == .helper

/-- A thread that is live or parked (R53; a draining thread is parked). -/
def Warp.standing (wp : Warp) (l : Nat) : Bool := (wp.lane l).st == .live || (wp.lane l).st.isParked

/-- The host of a helper (R54): the lowest thread of its quad that is live or parked. -/
def Warp.host (wp : Warp) (l : Nat) : Option Nat :=
  ([0, 1, 2, 3].map (fun i => 4 * (l / 4) + i)).find? (fun k => wp.standing k)

/-- The guard of a thread, a helper reading its host's (R6). -/
def Warp.guardBit (wp : Warp) (g : Guard) (l : Nat) : Bool :=
  let k := if wp.isHelper l then (wp.host l).getD l else l
  bit (wp.rdP g.p).toNat k != g.neg

/-- Active threads (R6, R26): those of the group whose guard is true. -/
def Warp.active (wp : Warp) (g : Guard) : Nat :=
  maskWhere 32 (fun l => bit wp.group l && wp.guardBit g l)

/-- Active threads that are not helpers, for instructions at which a helper's guard reads as false (R65). -/
def Warp.activeReal (wp : Warp) (g : Guard) : Nat :=
  maskWhere 32 (fun l => bit (wp.active g) l && !wp.isHelper l)

/-- Enabled (R6): the element's mask bit in an Active thread. -/
def Warp.enabled (wp : Warp) (g : Guard) (m : Nat) (l k : Nat) : Bool :=
  bit (wp.active g) l && bit (wp.rdM m).toNat (8 * l + k)

/-- Every thread of the group moves to an address (helpers follow their hosts). -/
def Warp.moveGroup (wp : Warp) (pc : Nat) : Warp := wp.mapLanes wp.group (fun _ x => { x with pc := pc })

/-- The thread whose guard, condition and target a thread follows (R65): a helper follows its host. -/
def Warp.leader (wp : Warp) (l : Nat) : Nat := if wp.isHelper l then (wp.host l).getD l else l

/-- The PC of a thread (R54): a helper's always equals its host's, so what a helper's own field holds is never looked at. -/
def Warp.pcOf (wp : Warp) (l : Nat) : Nat := (wp.lane (wp.leader l)).pc

/-- A control transfer (R55, R70): threads of a mask move to the addresses given. A thread that moves to its sequential
successor has not left it; when some thread moves elsewhere a selection is due, which checks the address (R41, R71). -/
def Warp.jump (wp : Warp) (mask : Nat) (f : Nat → Nat) : Warp :=
  let moved := maskWhere 32 (fun l => bit mask l && f (wp.leader l) != wp.npc)
  let w1 := wp.mapLanes moved (fun l x => { x with pc := f (wp.leader l), xfer := some wp.pc })
  if moved = 0 then w1 else { w1 with selDue := true }

/-- Latches become invalid, and no run is in progress (R37). -/
def Warp.endRun (wp : Warp) : Warp := { wp with latches := {}, chainLen := 0, inRun := false, part := {} }

/-- The frontier group of a warp (R54), if it has one: the threads and their PC. -/
def Warp.frontier (wp : Warp) : Option (Nat × Nat) :=
  let live := lanes32.filter (fun l => (wp.lane l).st == .live)
  let fresh := live.filter (fun l => !(wp.lane l).yielded)
  let c := if fresh.isEmpty then live else fresh
  match c with
  | [] => none
  | l :: _ =>
    let pc := c.foldl (fun a k => Nat.min a (wp.lane k).pc) (wp.lane l).pc
    let g := c.filter (fun k => (wp.lane k).pc == pc)
    let helpers := lanes32.filter (fun h => wp.isHelper h && (match wp.host h with
      | some k => g.contains k
      | none => false))
    some (maskOf (g ++ helpers), pc)

/-- A selection (R54): the frontier group is chosen, helpers stand at their host's PC, and yielded flags clear. Threads
of another group than before have no predecessor in the run (R37). -/
def Warp.select (wp : Warp) : Warp :=
  match wp.frontier with
  | none => { wp with group := 0, selDue := true }
  | some (g, pc) =>
    let w1 := { wp with group := g, selDue := false, inRun := wp.inRun && g == wp.group }
    let w2 := w1.mapLanes (ones 32) (fun _ x => { x with yielded := false })
    w2.mapLanes (maskWhere 32 (fun l => bit g l && wp.isHelper l)) (fun _ x => { x with pc := pc })

/-- The threads of the group that still issue together: those live, with the helpers they carry (R53, R54). -/
def Warp.liveGroup (wp : Warp) : Nat :=
  let live := maskWhere 32 (fun l => bit wp.group l && (wp.lane l).st == .live)
  maskWhere 32 (fun l => bit live l || (bit wp.group l && wp.isHelper l && bit live (wp.leader l)))

/-- The lowest PC of the group's live threads, and whether they all stand there. -/
def Warp.groupPc (wp : Warp) : Option (Nat × Bool) :=
  match (maskList wp.liveGroup 32).filter (fun l => (wp.lane l).st == .live) with
  | [] => none
  | l :: r =>
    let pc := r.foldl (fun a k => Nat.min a (wp.lane k).pc) (wp.lane l).pc
    some (pc, (l :: r).all (fun k => (wp.lane k).pc == pc))

/-- When no thread of a quad is live or parked, its helpers become exited (R65). -/
def Warp.dropHelpers (wp : Warp) : Warp :=
  wp.mapLanes (maskWhere 32 (fun l => wp.isHelper l && (wp.host l).isNone)) (fun _ x => { x with st := .exited })

/-- Every thread has exited (R53). -/
def Warp.allExited (wp : Warp) : Bool := lanes32.all (fun l => (wp.lane l).st == .exited)

/-! ## Stream counters (R144): lane × 8 + stream -/

def Streams.issuedOf (x : Streams) (l st : Nat) : BitVec 16 := x.issued.get 0 (l * 8 + st)
def Streams.doneOf (x : Streams) (l st : Nat) : BitVec 16 := x.done.get 0 (l * 8 + st)

/-- Outstanding operations (R145). -/
def Streams.outstanding (x : Streams) (l st : Nat) : Nat := (x.issuedOf l st - x.doneOf l st).toNat

def Streams.issue (x : Streams) (mask st : Nat) : Streams :=
  (maskList mask 32).foldl (fun a l => { a with issued := a.issued.set 0 (l * 8 + st) (a.issuedOf l st + 1) }) x

def Streams.complete (x : Streams) (mask st : Nat) : Streams :=
  (maskList mask 32).foldl (fun a l => { a with done := a.done.set 0 (l * 8 + st) (a.doneOf l st + 1) }) x

/-- A handler or a resume routine uses the handler streams (R426). -/
def Warp.usesHandlerStreams (wp : Warp) : Bool := wp.mode != .normal

def Warp.streams (wp : Warp) (hset : Bool) : Streams := if hset then wp.hnd else wp.own

def Warp.setStreams (wp : Warp) (hset : Bool) (x : Streams) : Warp :=
  if hset then { wp with hnd := x } else { wp with own := x }

/-! ## Addresses of a save area (R422) -/

def frameOff (index : Nat) : Nat := 0x1000 + 0x4000 * index
def regAreaOff (warps index : Nat) : Nat := 0x1000 + 0x4000 * warps + 0x41000 * index
def scratchImageOff (warps : Nat) : Nat := 0x1000 + 0x4000 * warps + 0x41000 * warps
def mccRecordOff (warps : Nat) : Nat := scratchImageOff warps + 0x104000
def saveAreaSize (warps : Nat) : Nat := mccRecordOff warps + 0x82000

def BlockRec.framePa (b : BlockRec) (index : Nat) : Nat := b.savePa + frameOff index
def BlockRec.frameVa (b : BlockRec) (index : Nat) : Nat := b.saveVa + frameOff index

/-! ## Lines in an L1 (R134–R136) -/

/-- The key of a core's copy of a line. -/
def l1Key (core line : Nat) : Nat := core * 2 ^ 45 + line % 2 ^ 45

/-- The bytes of a line at the home. -/
def State.homeLine (s : State) (line : Nat) : List Byte := s.mem.readBytes 128 (line * 128)

/-- Bytes `new`, which begin at address `a`, put over the 128 bytes of a line. -/
def overlayLine (data : List Byte) (line a : Nat) (new : List Byte) : List Byte :=
  (List.range 128).map (fun i =>
    let pa := line * 128 + i
    if a ≤ pa ∧ pa < a + new.length then new.getD (pa - a) 0 else data.getD i 0)

/-- The lines that `n` bytes from `a` up touch. -/
def linesOf (a n : Nat) : List Nat := List.range' (a / 128) ((a + (n - 1)) / 128 - a / 128 + 1)

/-- The RDC copies of some lines are invalidated (R138, R223). -/
def dropRdc (t : Table (List Byte)) (ls : List Nat) : Table (List Byte) := t.keep (fun k _ => !ls.contains (k % 2 ^ 45))

/-- Bytes written at the home by hardware of core `c` (frames, saved registers): no RDC keeps the lines (R138), and the
core's own copies of them take the bytes too, so that its own later accesses see them (R143, R422). -/
def State.hardWrite (s : State) (c a : Nat) (bs : List Byte) : State :=
  { s with
    mem := s.mem.writeBytes a bs
    rdc := dropRdc s.rdc (linesOf a bs.length)
    l1 := ⟨s.l1.cells.map (fun (e : Nat × L1Line) =>
      let line := e.1 % 2 ^ 45
      if e.1 / 2 ^ 45 = c ∧ a < (line + 1) * 128 ∧ line * 128 < a + bs.length then
        (e.1, { e.2 with data := overlayLine e.2.data line a bs })
      else e)⟩ }

/-! ## Frames (R420, R423) -/

/-- Word 0 of a frame (R420). -/
def frameWord0 (h : Bool) (kind ps index lane cause : Nat) : Nat :=
  b2n h * 2 ^ 63 + kind * 2 ^ 60 + ps * 2 ^ 40 + index * 2 ^ 32 + lane * 2 ^ 24 + cause

def TState.code : TState → Nat
  | .live => 0
  | .parked => 1
  | .helper => 2
  | .exited => 3
  | .draining => 4

def WaitKind.code : WaitKind → Nat
  | .none => 0
  | .tag => 1
  | .arrival => 2
  | .exhaustion => 3

/-- The instruction of an operation. -/
def Op.i (o : Op) : Instr := o.instr.getD (.nop {})

/-- The opcode of an encoded instruction (R20). -/
def opcodeOf (i : Instr) : Nat :=
  match (encode i).map List.reverse with
  | some (_ :: hi :: _) => bits hi 20 11
  | _ => 0

/-- The FM operands of an instruction that replay slots or copies record. -/
def memOf : Instr → Mem
  | .ld x | .st x | .ldu x | .stu x | .ldb x | .stb x | .pf x | .icinv x | .smsg x | .ldf x | .ldfe x | .ste x
  | .stf x | .awarm x | .arrive x | .waitg x | .atom _ x | .atomnr _ x | .atomcas x | .fatom _ x | .fatomnr _ x
  | .redv _ x | .cpy x | .cpys x | .cpyg x | .cpym x | .cpyc x | .fxfer x | .fget x | .coll x => x
  | _ => {}

/-- A replay slot's bytes (R232). -/
def slotBytes (o : Op) : List Byte :=
  let i := o.instr.getD (.nop {})
  let x := memOf i
  let isLoad := match i with
    | .ld _ | .ldu _ | .ldb _ => true
    | _ => false
  let block := match i with
    | .ldb _ | .stb _ => true
    | _ => false
  let first := (o.elems.find? (fun e => e.lane == o.faultLane && !e.done)).getD {}
  let byLane := fun (f : Elem → Nat) (l : Nat) => match o.elems.find? (fun e => e.lane == l) with
    | some e => f e
    | none => 0
  let redv := match i with
    | .redv _ _ => true
    | _ => false
  let cas := match i with
    | .atomcas _ => true
    | _ => false
  -- a REDV's lanes keep their own addresses and operands, 32 of each
  let addr := fun (l : Nat) => if redv then o.args.getD l 0 else byLane (·.addr) l
  let operand := fun (l : Nat) => if redv then o.args.getD (32 + l) 0 else byLane (·.data) l
  let base := o.args.headD 0
  let doneMask := if isLoad then 0
    else if block then maskOf ((o.elems.filter (·.done)).map (fun (e : Elem) => (e.addr - base) / 8))
    else maskOf (((o.elems.filter (·.done)).map (fun (e : Elem) =>
      if redv then (maskList e.data2 32).map (8 * ·) else [8 * e.lane])).flatten)
  let piece := fun (j : Nat) => match o.elems.find? (fun e => e.addr == base + 8 * j) with
    | some e => e.data
    | none => 0
  let word0 := 2 ^ 63 + o.cause * 2 ^ 53 + opcodeOf i * 2 ^ 42 + x.d * 2 ^ 32 + x.sz * 2 ^ 29 + o.strm * 2 ^ 26 +
    o.after * 2 ^ 18 + o.scope.code * 2 ^ 15
  bytesOf 8 word0 ++ bytesOf 8 first.addr ++ bytesOf 8 (o.enabled * 2 ^ 32 + 8 * o.faultLane) ++ bytesOf 8 0 ++
  bytesOf 32 doneMask ++
  (if block then bytesOf 8 base ++ bytesOf 248 0
   else (lanes32.map (fun l => bytesOf 8 (addr l))).flatten) ++
  (if block then ((List.range 256).map (fun j => bytesOf 8 (piece j))).flatten
   else (lanes32.map (fun l => bytesOf 8 (operand l))).flatten ++
     (lanes32.map (fun l => bytesOf 8 (if cas then byLane (·.data2) l else 0))).flatten ++
     (lanes32.map (fun l => bytesOf 8 (byLane (·.ret) l))).flatten ++ List.replicate 1280 0)

/-- The fields of a frame at 0x000–0x02F: what every frame write records of the fault (R423, R425). -/
def frameHead (wp : Warp) : List Byte :=
  bytesOf 8 wp.word0.toNat ++ bytesOf 8 wp.reportPc ++ bytesOf 8 wp.resumePc ++ bytesOf 8 wp.reportAddr ++
  bytesOf 8 wp.frameTime ++ bytesOf 8 wp.headRec

/-- The operation that holds replay slot `i` of a warp (R231). -/
def State.slotOp (s : State) (wp : Warp) (i : Nat) : Option Nat := wp.replays.find? (fun k => (s.op k).slot == some i)

/-- The four replay slots of a frame (R232, R423). -/
def frameSlots (s : State) (wp : Warp) : List Byte :=
  ((List.range 4).map (fun i => match s.slotOp wp i with
    | some o => slotBytes (s.op o)
    | none => List.replicate 2368 0)).flatten

/-- The fields of a frame from 0x030 on: the state of the warp (R423). -/
def frameBody (s : State) (wp : Warp) : List Byte :=
  bytesOf 16 0 ++
  (lanes32.map (fun l => bytesOf 8 (wp.pcOf l))).flatten ++
  lanes32.map (fun l => BitVec.ofNat 8 ((wp.lane l).st.code + (wp.lane l).wait.kind.code * 8 + b2n (wp.lane l).yielded * 64)) ++
  ((List.range 15).map (fun i => bytesOf 4 (wp.rdP (i + 1)).toNat)).flatten ++ bytesOf 4 0 ++
  ((List.range 15).map (fun i => bytesOf 32 (wp.rdM (i + 1)).toNat)).flatten ++
  ((List.range 15).map (fun i => bytesOf 8 (wp.rdS (i + 1)).toNat)).flatten ++ bytesOf 8 0 ++
  (lanes32.map (fun l => bytesOf 4 (wp.lane l).fflags.toNat)).flatten ++
  (lanes32.map (fun l => bytesOf 4 (wp.lane l).rng.toNat)).flatten ++
  lanes32.map (fun l => BitVec.ofNat 8 (wp.lane l).reported.toNat) ++
  bytesOf 4 wp.latchRec ++ bytesOf 28 0 ++
  (lanes32.map (fun l => ((List.range 8).map (fun st =>
    bytesOf 4 ((wp.own.issuedOf l st).toNat + (wp.own.doneOf l st).toNat * 2 ^ 16))).flatten)).flatten ++
  (lanes32.map (fun l => bytesOf 8 (wp.lane l).wait.addr)).flatten ++
  frameSlots s wp ++ List.replicate (0x4000 - 0x2F40) 0

/-- The frame of a warp that holds interrupted state takes its replay slots as they now stand (R231). -/
def State.writeSlots (s : State) (w : Nat) : State :=
  let wp := s.warp w
  let b := s.block wp.block
  if wp.halted || wp.mode != .normal || wp.yielded != .no then
    s.hardWrite b.core (b.framePa wp.index + 0xA40) (frameSlots s wp)
  else s

/-- Validity of the latches, as bits [3:0]. -/
def Latches.valid (x : Latches) : Nat :=
  b2n (x.l0 != .invalid) + b2n (x.l1 != .invalid) * 2 + b2n (x.l2 != .invalid) * 4 + b2n (x.l3 != .invalid) * 8

/-- What the hardware keeps with a frame (R423): every thread's state and wait kind. -/
def Warp.keepState (wp : Warp) : Warp :=
  { wp with
    saved := lanes32.foldl (fun t l => t.set {} l { st := (wp.lane l).st, kind := (wp.lane l).wait.kind }) {}
    savedGroup := wp.group }

/-- What a frame write records. -/
structure FrameInfo where
  kind : Nat
  cause : Nat
  lane : Nat := 0
  ps : Nat := 0
  pc : Nat
  addr : Nat := 0
  head : Nat

/-- Write a warp's frame (R414, R423): in a handler or a resume routine only word 0 and the fields of 0x008–0x02F
(R425); otherwise the whole, and the hardware keeps its copy. -/
def State.writeFrame (s : State) (w : Nat) (f : FrameInfo) : State :=
  let wp := s.warp w
  let b := s.block wp.block
  let h := wp.mode != .normal
  let wp1 := { wp with
    word0 := BitVec.ofNat 64 (frameWord0 h f.kind f.ps wp.index f.lane f.cause)
    reportPc := f.pc, reportAddr := f.addr, headRec := f.head, frameTime := s.time, latchRec := wp.latches.valid }
  if h then
    (s.setWarp w wp1).hardWrite b.core (b.framePa wp.index) (frameHead wp1)
  else
    let wp2 := wp1.keepState
    (s.setWarp w wp2).hardWrite b.core (b.framePa wp.index) (frameHead wp2 ++ frameBody s wp2)

/-- Post a completion entry (R451). -/
def State.post (s : State) (port kind die job aux w1 w2 w3 : Nat) : State :=
  { s with completions := s.completions ++
      [⟨port, kind + die * 2 ^ 8 + job * 2 ^ 16 + aux * 2 ^ 32, w1, w2, w3⟩] }

/-- Report a halted warp to the host (R414, R451 kind 3). -/
def State.reportHalt (s : State) (w : Nat) : State :=
  let wp := s.warp w
  let b := s.block wp.block
  s.post (s.job b.job).port 3 (b.core / 16) b.job
    (b.core % 16 + b.resSlot * 2 ^ 4 + wp.index * 2 ^ 9) wp.word0.toNat wp.reportPc wp.reportAddr

/-- Parked threads leave their queues (R200, R414). -/
def Warp.leaveQueues (wp : Warp) : Warp :=
  wp.mapLanes (ones 32) (fun _ x => { x with wait := { x.wait with joined := 0 } })

/-- Halt a warp (R414): its group stands where `move` says, its parked threads leave their queues, its frame is written
with kind 010, and the host hears of it, unless replay slots may still be taken. -/
def State.haltAt (s : State) (w : Nat) (t : Trap) (move : Option Nat) (reportPc head : Nat) (late : Bool) : State :=
  let wp := s.warp w
  let w1 := match move with
    | some pc => wp.moveGroup pc
    | none => wp
  let w2 := { w1.leaveQueues with
    halted := true, cause := t.cause, haltDue := none, reportDue := late, selDue := true, tokenWait := none
    engineWait := false }
  let s1 := (s.setWarp w w2).writeFrame w
    { kind := 2, cause := t.cause, lane := t.lane, ps := t.ps, pc := reportPc, addr := t.addr, head := head }
  let s2 := s1.setWarp w (s1.warp w).endRun
  if late then s2 else s2.reportHalt w

/-- A precise fault (R414): the warp halts at the faulting instruction, its group at the chain head. -/
def State.faultWarp (s : State) (w : Nat) (t : Trap) : State :=
  let wp := s.warp w
  s.haltAt w t (some wp.chainHead) wp.pc wp.chainHead false

/-- A fault of the address that a group has reached (R40, R41): the group stands there, and the report PC is the
instruction that moved it, or the address itself. -/
def State.faultTarget (s : State) (w cause pc : Nat) (src : Option Nat) : State :=
  s.haltAt w { cause := cause, addr := pc } (some pc) (src.getD pc) pc false

/-- The head at which a warp stands: that of its standing group (R56), or of its frontier group when a selection is due. -/
def Warp.headPc (wp : Warp) : Nat :=
  match wp.selDue, wp.groupPc with
  | false, some (pc, true) => pc
  | _, _ => match wp.frontier with
    | some (_, pc) => pc
    | none => wp.pcOf 0

/-- A halt that was due is taken at the head the warp has reached (R231, R254, R415). -/
def State.takeHalt (s : State) (w : Nat) (h : HaltDue) : State :=
  let head := (s.warp w).headPc
  s.haltAt w { cause := h.cause, lane := h.lane, addr := h.addr } none (h.pc.getD head) head h.late

/-- A halt falls due; the first stands. -/
def Warp.haltLater (wp : Warp) (h : HaltDue) : Warp :=
  if wp.halted || wp.haltDue.isSome then wp else { wp with haltDue := some h }

/-! ## Entering a handler and returning from a frame -/

/-- Handler entry (R425): the frame is written with kind 001, every thread is live at `entry` as one group, the
latches are invalid and the handler streams are zero. -/
def State.enterHandler (s : State) (w cause : Nat) : State :=
  let wp := s.warp w
  let b := s.block wp.block
  let head := wp.headPc
  let s1 := (s.setWarp w wp.leaveQueues).writeFrame w { kind := 1, cause := cause, pc := head, head := head }
  let wp1 := s1.warp w
  let wp2 := wp1.mapLanes (ones 32) (fun _ x =>
    { x with pc := b.rcd.pentry, st := .live, yielded := false, xfer := some b.rcd.pentry, wait := {} })
  s1.setWarp w { wp2.endRun with
    mode := .handler, hnd := {}, group := ones 32, selDue := true, blocking := .free, tokenWait := none
    engineWait := false }

/-- The frame's fields that a return takes from memory (R423), as a function of the bytes. -/
def frameNat (bs : List Byte) (off n : Nat) : Nat := ofBytes ((bs.drop off).take n)

/-- A thread after a return (R437): parked and draining threads become live at their PC. -/
def TState.restored : TState → TState
  | .parked | .draining => .live
  | st => st

/-- The return from a frame (R437), with the frame's bytes: what RETT and the host's RESUME do. Each thread has come to
its PC from the warp's last issue (log entry 93); reserved flag bits are ignored (R103), and a zero generator state stays
as the frame has it (log entry 92). -/
def Warp.restore (wp : Warp) (f : List Byte) : Warp :=
  let w1 := wp.mapLanes (ones 32) (fun l x =>
    { x with
      pc := frameNat f (0x040 + 8 * l) 8
      st := (wp.saved.get {} l).st.restored
      yielded := bit (frameNat f (0x140 + l) 1) 6
      xfer := some wp.pc
      fflags := writeFflags x.fflags (BitVec.ofNat 32 (frameNat f (0x400 + 4 * l) 4))
      rng := BitVec.ofNat 32 (frameNat f (0x480 + 4 * l) 4)
      reported := BitVec.ofNat 3 (frameNat f (0x500 + l) 1)
      wait := {} })
  let w2 := (List.range 15).foldl (fun a i => a.wrP (i + 1) (BitVec.ofNat 32 (frameNat f (0x160 + 4 * i) 4))) w1
  let w3 := (List.range 15).foldl (fun a i => a.wrM (i + 1) (BitVec.ofNat 256 (frameNat f (0x1A0 + 32 * i) 32))) w2
  let w4 := (List.range 15).foldl (fun a i => a.wrS (i + 1) (BitVec.ofNat 64 (frameNat f (0x380 + 8 * i) 8))) w3
  { w4.endRun with
    mode := .normal, halted := false, cause := 0, reportDue := false, selDue := true,
    deadline := 0, preempt := none, yielded := .no, tokenWait := none, engineWait := false, hnd := {} }

/-- The bytes of a warp's frame in memory, up to its replay slots. -/
def State.frameBytes (s : State) (w : Nat) : List Byte :=
  let wp := s.warp w
  s.mem.readBytes 0x540 ((s.block wp.block).framePa wp.index)

/-- An operation in a replay slot flies again (R233): its elements that are not done; of a load, all but those of threads
whose part has been counted (log entry 94). Its slot stays its own. -/
def Op.again (o : Op) : Op :=
  let load := match o.i with
    | .ld _ | .ldu _ | .ldb _ => true
    | _ => false
  { o with
    st := .flying
    elems := if load then o.elems.map (fun e => if e.done && !bit o.counted e.lane then { e with done := false, ret := 0 } else e)
      else o.elems }

/-- What a warp that resumes does first: its replay slots reissue (R233), and its abandoned copies count as performed
(R254). A JOIN still waits for its stores (R58). A warp that nothing resumes reissues nothing (R234). -/
def State.reissue (s : State) (w : Nat) : State :=
  let wp := s.warp w
  if wp.dead then s else
  let w1 := wp.abandoned.foldl (fun (a : Warp) o =>
    let x := s.op o
    a.setStreams x.hset ((a.streams x.hset).complete x.lanes x.strm)) { wp with abandoned := [] }
  let s1 := wp.abandoned.foldl (fun (a : State) o => a.setOp o {}) (s.setWarp w w1)
  wp.replays.foldl (fun (a : State) o => a.setOp o (a.op o).again) s1

/-- RETT's restoration (R437). -/
def State.restoreWarp (s : State) (w : Nat) : State :=
  (s.setWarp w ((s.warp w).restore (s.frameBytes w))).reissue w

end Sys2Proof.Machine
end

