-- ==== Sys2Proof/Machine/Operands.lean ====
section
/-!
DEFINITION. Operand forms and element-wise results (R27, R82, R83): how a source is read from a register, a bypass
latch or an immediate, and how a result is written through Merge (R6), into the latches (R33) and into the flags.
-/
namespace Sys2Proof.Machine

/-! ## Integer formats (R27) -/

/-- Width of an integer format. -/
def intWidth (fmt : Nat) : Nat := 8 * 2 ^ (fmt / 2)

/-- Even formats are signed. -/
def intSigned (fmt : Nat) : Bool := fmt % 2 == 0

/-- `Val(fmt, x)` (R83). -/
def valOf (fmt x : Nat) : Int :=
  if intSigned fmt then sext (intWidth fmt) x else (x % 2 ^ intWidth fmt : Nat)

/-- Least and greatest values of an integer format. -/
def intMin (fmt : Nat) : Int := if intSigned fmt then -(2 ^ (intWidth fmt - 1) : Nat) else 0
def intMax (fmt : Nat) : Int :=
  if intSigned fmt then (2 ^ (intWidth fmt - 1) : Nat) - 1 else (2 ^ intWidth fmt : Nat) - 1

/-- The pattern of `Wrap(fmt, t)` (R6). -/
def wrapPat (fmt : Nat) (t : Int) : Nat := pattern (intWidth fmt) t

/-- The pattern of `Sat(fmt, t)` (R6), and whether the value changed. -/
def satPat (fmt : Nat) (t : Int) : Nat × Bool :=
  let c := clampInt (intMin fmt) (intMax fmt) t
  (wrapPat fmt c, c != t)

/-- A scalar result of R82: sign-extended for a signed format, zero-extended for an unsigned one. -/
def extendTo64 (fmt x : Nat) : Word := BitVec.ofNat 64 (pattern 64 (valOf fmt x))

/-- Width of a floating-point format of R27. -/
def floatWidth (fmt : Nat) : Nat :=
  match fmt with
  | 0 => 32
  | 1 => 64
  | _ => 16

/-! ## Latches (R33, R34) -/

def Latches.get (x : Latches) : Nat → Latch
  | 0 => x.l0
  | 1 => x.l1
  | 2 => x.l2
  | _ => x.l3

/-- A result enters l0, and the others move on (R33). -/
def Latches.push (x : Latches) (r : Latch) : Latches := { l0 := r, l1 := x.l0, l2 := x.l1, l3 := x.l2 }

/-- What two slots leave (R32): slot B's result, slot A's, and the former l0 and l1. -/
def Latches.pushPair (x : Latches) (a b : Latch) : Latches := { l0 := b, l1 := a, l2 := x.l0, l3 := x.l1 }

/-- A latch read as a scalar, or as lane `l` of a vector; the issue has checked its kind. -/
def Latch.scalarOf : Latch → Word
  | .scalar x => x
  | _ => 0

def Latch.laneOf (r : Latch) (l : Nat) : Word :=
  match r with
  | .vector t => t.get 0 l
  | _ => 0

/-- Whether the latch holds what a vector or scalar operand can read (R34, R35). -/
def Latch.serves : Latch → RegKind → Bool
  | .vector _, .v => true
  | .scalar _, .s => true
  | _, _ => false

/-! ## Reading sources -/

/-- A scalar source, 64 bits. -/
def Warp.opndS (wp : Warp) : Opnd → Word
  | .reg n => wp.rdS n
  | .latch i => (wp.latches.get i).scalarOf

/-- A vector source in one lane, 64 bits. -/
def Warp.opndV (wp : Warp) (o : Opnd) (l : Nat) : Word :=
  match o with
  | .reg n => wp.rdV n l
  | .latch i => (wp.latches.get i).laneOf l

/-- Sub-element `k`, `w` bits wide, of a lane (R80). -/
def subOf (x : Word) (w k : Nat) : Nat := bits x.toNat (w * k) w

/-- Source b of a vector instruction, as element `(l, k)` of width `w`: `immPat` is what an immediate supplies. -/
def Warp.srcB (wp : Warp) (b : SrcB) (immPat : Imm → Nat) (w l k : Nat) : Nat :=
  match b with
  | .opnd o => subOf (wp.opndV o l) w k
  | .bcast o => (wp.opndS o).toNat % 2 ^ w
  | .imm i => immPat i % 2 ^ w

/-- Source b as 64 bits of a lane (R90, R94). -/
def Warp.srcB64 (wp : Warp) (b : SrcB) (l : Nat) : Nat :=
  match b with
  | .opnd o => (wp.opndV o l).toNat
  | .bcast o => (wp.opndS o).toNat
  | .imm i => pattern 64 i.val

/-! ## Element-wise results -/

/-- One element's result: its pattern, the flags it raises, and the generator after it. -/
structure ElemOut where
  val : Nat
  fl : Flags := {}
  rng : BitVec 32

/-- One lane's result: the merged 64 bits, the 64 bits that enter a latch (elements that Merge leaves unchanged are
zero), the flags and the generator. -/
structure LaneOut where
  val : Word
  latch : Word := 0
  fl : Flags := {}
  rng : BitVec 32

/-- What an element's function is given: its lane, its sub-element, the lane's flags and its generator. -/
abbrev ElemFn := Nat → Nat → BitVec 32 → BitVec 32 → ElemOut

/-- One element of a lane, written through Merge: the merged bits, the bits for a latch, the flags, the generator. -/
def laneStep (wp : Warp) (g : Guard) (vx : Vx) (w : Nat) (at_ : Nat → Nat) (f : ElemFn) (l : Nat)
    (acc : Nat × Nat × Flags × BitVec 32) (j : Nat) : Nat × Nat × Flags × BitVec 32 :=
  if wp.enabled g vx.m l (at_ j) then
    let e := f l j (wp.lane l).fflags acc.2.2.2
    (putBits acc.1 (w * at_ j) w e.val, putBits acc.2.1 (w * at_ j) w e.val, acc.2.2.1.or e.fl, e.rng)
  else if vx.z then (putBits acc.1 (w * at_ j) w 0, acc.2)
  else acc

/-- The elements of one lane, in ascending order (R102), written through Merge into `old`: `n` elements, the element
with index `j` being sub-element `at j` of width `w`. -/
def laneRun (wp : Warp) (g : Guard) (vx : Vx) (w : Nat) (at_ : Nat → Nat) (n : Nat) (f : ElemFn) (old : Word) (l : Nat) :
    LaneOut :=
  let r := (List.range n).foldl (laneStep wp g vx w at_ f l) (old.toNat, 0, {}, (wp.lane l).rng)
  { val := BitVec.ofNat 64 r.1, latch := BitVec.ofNat 64 r.2.1, fl := r.2.2.1, rng := r.2.2.2 }

/-- The 32 lanes of an element-wise instruction whose destination is v[d]. -/
def vecRun (wp : Warp) (x : Alu) (w : Nat) (at_ : Nat → Nat) (n : Nat) (f : ElemFn) : List LaneOut :=
  lanes32.map (fun l => laneRun wp x.g x.vx w at_ n f (wp.rdV x.d l) l)

/-- The invalid, dz and overflow flags, which a reported mask shadows (R417). -/
def reportBits (r : BitVec 32) : BitVec 3 := BitVec.ofNat 3 (r.toNat % 8)

/-- Flags and generators after an instruction. A flag that a helper raises is marked reported, so that a helper adds
nothing to deferred reporting (R65). -/
def Warp.takeFlags (wp : Warp) (outs : List LaneOut) (steps : Bool) : Warp :=
  lanes32.foldl (fun a l =>
    match outs[l]? with
    | none => a
    | some o =>
      let x := a.lane l
      let ff := raiseFlags x.fflags o.fl
      a.setLane l { x with
        fflags := ff
        reported := if x.st == .helper then x.reported ||| (reportBits ff &&& ~~~ reportBits x.fflags) else x.reported
        rng := if steps then o.rng else x.rng }) wp

/-- The lowest lane, of a thread that is no helper, whose flags pass a test. -/
def faultyLane (wp : Warp) (outs : List LaneOut) (p : Flags → Bool) : Option Nat :=
  lanes32.find? (fun l => !wp.isHelper l && (outs[l]?.map (fun o => p o.fl)).getD false)

/-- The arithmetic fault of a vector instruction (R89, R105): its cause and lowest lane. Helpers never fault. -/
def vecFault (wp : Warp) (outs : List LaneOut) : Option (Nat × Nat) :=
  match faultyLane wp outs (·.idz), faultyLane wp outs (·.invalid), faultyLane wp outs (·.dz),
    faultyLane wp outs (·.overflow) with
  | some l, _, _, _ => some (0x040, l)
  | _, some l, _, _ => some (0x041, l)
  | _, _, some l, _ => some (0x042, l)
  | _, _, _, some l => some (0x043, l)
  | _, _, _, _ => none

/-- Write v[d] in every lane. -/
def Warp.writeOuts (wp : Warp) (d : Nat) (outs : List LaneOut) : Warp :=
  lanes32.foldl (fun a l => match outs[l]? with
    | none => a
    | some o => a.wrV d l o.val) wp

/-- The latch value of a vector result. -/
def latchOfOuts (outs : List LaneOut) : Latch :=
  .vector (lanes32.foldl (fun t l => match outs[l]? with
    | none => t
    | some o => t.set 0 l o.latch) {})

/-- The fault mode of a warp's launch (R52): true is defer. -/
def State.defers (s : State) (w : Nat) : Bool := (s.block (s.warp w).block).rcd.df

/-- End an element-wise vector instruction: flags, then the fault of the halt mode, then the register and, when the
instruction is latch-eligible, the latches. -/
def finishVec (x : Alu) (elig : Bool) (outs : List LaneOut) (w : Nat) (s : State) : Res :=
  let wp := s.warp w
  match (if s.defers w then none else vecFault wp outs) with
  | some (c, l) => .trap { cause := c, lane := l } (s.setWarp w (wp.takeFlags outs false))
  | none =>
    let w1 := wp.takeFlags outs true
    let w2 := if x.nowb then w1 else w1.writeOuts x.d outs
    .ok (s.setWarp w (if elig then { w2 with latches := w2.latches.push (latchOfOuts outs) } else w2))

/-- An element-wise instruction with as many elements as its width gives. -/
def vecOp (x : Alu) (elig : Bool) (wd : Nat) (f : Warp → ElemFn) (w : Nat) (s : State) : Res :=
  let wp := s.warp w
  finishVec x elig (vecRun wp x wd id (64 / wd) (f wp)) w s

/-- Write a scalar result of a latch-eligible scalar instruction. -/
def Warp.finishScalar (wp : Warp) (x : Alu) (elig : Bool) (r : Word) : Warp :=
  let w1 := if x.nowb then wp else wp.wrS x.d r
  if elig then { w1 with latches := w1.latches.push (.scalar r) } else w1

/-- A warp-uniform instruction takes effect when some thread is Active (R26). -/
def Warp.anyActive (wp : Warp) (g : Guard) : Bool := wp.active g != 0

end Sys2Proof.Machine
end

