-- ==== Sys2Proof/Machine/Issue.lean ====
section
/-!
DEFINITION. What every issue does around an instruction's own effect (R25, R32–R37, R40, R41): the latches become
invalid before a head, the faults found at issue are raised in their order, and the group moves to its sequential
successor.
-/
namespace Sys2Proof.Machine

/-- An outcome of `exec`. -/
abbrev Answer := Host.Outcome State Fault Refusal

/-- The chain and the latches as an instruction issues (R35, R37): a head starts a chain; a latch reader without a
predecessor in its run finds every latch invalid, and counts toward no chain. -/
def Warp.beginIssue (i : Instr) (wp : Warp) : Warp :=
  if !i.isHead && wp.inRun then { wp with chainLen := wp.chainLen + 1 }
  else { wp with latches := {}, chainHead := wp.pc, chainLen := 0, inRun := true }

/-- The slot of a P-word that a fault found at issue names (R32, R420). -/
def pairSlot (i : Instr) (a b : Slot → Bool) : Nat :=
  match i with
  | .pWord x y => if a x then 1 else if b y then 2 else 0
  | _ => 0

def slotRegs (x : Slot) : List RegRef := x.srcRegs ++ (if x.nowb then [] else [⟨.v, x.d⟩])

/-- Illegal operand, latch-invalid and latch-chain, found at issue in that order (R40). -/
def issueFault (i : Instr) (wp : Warp) : Option (Nat × Nat) :=
  let beyond := fun (l : List RegRef) => !l.all (fun r => r.within wp.vb wp.sb)
  let bad := fun (l : List (RegKind × Nat)) => !l.all (fun r => (wp.latches.get r.2).serves r.1)
  if beyond (i.budgeted .vector) then some (0x022, pairSlot i (fun x => beyond (slotRegs x)) (fun x => beyond (slotRegs x)))
  else if bad i.latchReads then
    some (0x024, pairSlot i (fun x => bad (x.a.latchOf .v)) (fun x => bad (x.a.latchOf .v)))
  else if 16 < wp.chainLen then some (0x025, 0)
  else none

/-- The state as an instruction's body finds it: the chain begun, the group at its sequential successor. -/
def State.issued (s : State) (i : Instr) (w : Nat) : State :=
  let wp := (s.warp w).beginIssue i
  s.setWarp w (wp.moveGroup wp.npc)

/-- An instruction issues for warp `w`. -/
def runIssue (i : Instr) (body : Nat → State → Res) (w : Nat) (s : State) : State :=
  match issueFault i ((s.warp w).beginIssue i) with
  | some (c, ps) => (s.issued i w).faultWarp w { cause := c, ps := ps }
  | none =>
    match body w (s.issued i w) with
    | .ok t => t
    | .trap f t => t.faultWarp w f

/-- Member 0 of the instance on a bay. -/
def State.member0 (s : State) (k : Nat) : Nat :=
  match (s.mcc k).gang with
  | some g => (s.gang g).blocks.headD 0
  | none => 0

/-- An MCC fault at issue (R287): the MCC halts at the faulting instruction, and the host hears of it (R451 kind 7). -/
def State.faultMcc (s : State) (k cause pc : Nat) : State :=
  let s1 := s.setMcc k { s.mcc k with halted := true, cause := cause, pc := pc, inWait := none }
  let j := (s.block (s.member0 k)).job
  s1.post (s.job j).port 7 (k / 4) j (k % 4) cause pc 0

/-- An instruction issues for matrix control core `k` (R283, R287). -/
def runMcc (body : Nat → State → Res) (k : Nat) (s : State) : State :=
  let m := s.mcc k
  match body k (s.setMcc k { m with pc := m.npc, xfer := none }) with
  | .ok t => t
  | .trap f t => t.faultMcc k f.cause m.cur

/-- An instruction that only a vector warp decodes. -/
def onWarp (i : Instr) (body : Nat → State → Res) (s : State) : Answer :=
  match s.issuer with
  | .warp w => .next (runIssue i body w s)
  | _ => .fault .wrongAgent

/-- An instruction that only a matrix control core decodes. -/
def onMcc (body : Nat → State → Res) (s : State) : Answer :=
  match s.issuer with
  | .mcc k => .next (runMcc body k s)
  | _ => .fault .wrongAgent

/-- An instruction that both decode. -/
def onEither (i : Instr) (warpBody mccBody : Nat → State → Res) (s : State) : Answer :=
  match s.issuer with
  | .warp w => .next (runIssue i warpBody w s)
  | .mcc k => .next (runMcc mccBody k s)
  | _ => .fault .wrongAgent

/-- An instruction of a slice core. -/
def onSlice (body : Nat → State → State) (s : State) : Answer :=
  match s.issuer with
  | .slice k => .next (body k s)
  | _ => .fault .wrongAgent

/-- A warp-uniform effect (R26): it happens when some thread is Active. -/
def uniform (g : Guard) (body : Nat → State → Res) (w : Nat) (s : State) : Res :=
  if (s.warp w).anyActive g then body w s else .ok s

/-- The same where a helper's guard reads as false (R65). -/
def uniformReal (g : Guard) (body : Nat → State → Res) (w : Nat) (s : State) : Res :=
  if (s.warp w).activeReal g != 0 then body w s else .ok s

end Sys2Proof.Machine
end

