-- ==== Sys2Proof/Machine/Integer.lean ====
section
/-!
DEFINITION. The integer and address instructions of classes 0x0 and 0x1 (spec/04 R80–R96), scalar, vector and in a
matrix control core's stream.
-/
namespace Sys2Proof.Machine

/-- An element's function: format, the `w`-bit patterns of a, b and c, and whether results saturate. It answers the
pattern of the result and the flags. -/
abbrev IntFn := Nat → Nat → Nat → Nat → Bool → Nat × Flags

/-- Limit an exact result (R84): by Sat when the operation saturates and sat is 1, otherwise by Wrap. -/
def limitInt (fmt : Nat) (sat : Bool) (t : Int) : Nat × Flags :=
  if sat then ((satPat fmt t).1, { saturated := (satPat fmt t).2 }) else (wrapPat fmt t, {})

/-- Operations that the table of R86 marks as saturating. -/
def satFn (f : Nat → Nat → Nat → Nat → Int) : IntFn := fun fmt x y z sat => limitInt fmt sat (f fmt x y z)

/-- Operations that always wrap. -/
def wrapFn (f : Nat → Nat → Nat → Nat → Int) : IntFn := fun fmt x y z _ => limitInt fmt false (f fmt x y z)

/-! ## The exact functions of R87 -/

def exactAdd (fmt x y _z : Nat) : Int := valOf fmt x + valOf fmt y
def exactSub (fmt x y _z : Nat) : Int := valOf fmt x - valOf fmt y
def exactMul (fmt x y _z : Nat) : Int := valOf fmt x * valOf fmt y
def exactMulh (fmt x y _z : Nat) : Int := (valOf fmt x * valOf fmt y) / (2 ^ intWidth fmt : Nat)
def exactMad (fmt x y z : Nat) : Int := valOf fmt x * valOf fmt y + valOf fmt z
def exactSad (fmt x y z : Nat) : Int := valOf fmt z + ((valOf fmt x - valOf fmt y).natAbs : Int)
def exactMin (fmt x y _z : Nat) : Int := if valOf fmt y < valOf fmt x then valOf fmt y else valOf fmt x
def exactMax (fmt x y _z : Nat) : Int := if valOf fmt x < valOf fmt y then valOf fmt y else valOf fmt x
def exactAbs (fmt x _y _z : Nat) : Int := ((valOf fmt x).natAbs : Int)

/-- Functions of the patterns. -/
def patAnd (_fmt x y _z : Nat) : Int := (x &&& y : Nat)
def patOr (_fmt x y _z : Nat) : Int := (x ||| y : Nat)
def patXor (_fmt x y _z : Nat) : Int := (x ^^^ y : Nat)
def patAndn (fmt x y _z : Nat) : Int := (x &&& (ones (intWidth fmt) - y % 2 ^ intWidth fmt) : Nat)

/-- The shift amount (R87). -/
def shiftOf (fmt y : Nat) : Nat := y % 2 ^ intWidth fmt % intWidth fmt

def exactShl (fmt x y _z : Nat) : Int := valOf fmt x * (2 ^ shiftOf fmt y : Nat)
def patShr (fmt x y _z : Nat) : Int := (x % 2 ^ intWidth fmt / 2 ^ shiftOf fmt y : Nat)
def patSar (fmt x y _z : Nat) : Int := sext (intWidth fmt) x / (2 ^ shiftOf fmt y : Nat)
def patRot (fmt x y _z : Nat) : Int :=
  let w := intWidth fmt
  let s := shiftOf fmt y
  (x % 2 ^ w * 2 ^ s % 2 ^ w + x % 2 ^ w / 2 ^ (w - s) : Nat)

/-- Leading zero bits of a pattern. -/
def leadingZeros (w x : Nat) : Nat := if x % 2 ^ w = 0 then w else w - 1 - Nat.log2 (x % 2 ^ w)

def patClz (fmt x _y _z : Nat) : Int := (leadingZeros (intWidth fmt) x : Nat)
def patPopc (fmt x _y _z : Nat) : Int := (popcount (intWidth fmt) x : Nat)
def patBrev (fmt x _y _z : Nat) : Int :=
  (maskWhere (intWidth fmt) (fun i => bit x (intWidth fmt - 1 - i)) : Nat)
def patMov (_fmt x _y _z : Nat) : Int := (x : Nat)
def patImm (_fmt _x y _z : Nat) : Int := (y : Nat)

/-- DIV (R89). -/
def divFn : IntFn := fun fmt x y _ sat =>
  if valOf fmt y = 0 then (ones (intWidth fmt), { idz := true })
  else limitInt fmt sat (Int.tdiv (valOf fmt x) (valOf fmt y))

/-- REM (R89). -/
def remFn : IntFn := fun fmt x y _ _ =>
  if valOf fmt y = 0 then (x % 2 ^ intWidth fmt, { idz := true })
  else limitInt fmt false (Int.tmod (valOf fmt x) (valOf fmt y))

/-- The field of a control value (R90): its position and its length, 0 when the field is empty. -/
def fieldOf (w ctl : Nat) : Nat × Nat :=
  let pos := bits ctl 0 8
  let len := bits ctl 8 8
  (pos, if len = 0 ∨ w ≤ pos then 0 else Nat.min len (w - pos))

/-- BFX (R90). -/
def bfxFn : IntFn := fun fmt x ctl _ _ =>
  let w := intWidth fmt
  let (pos, len) := fieldOf w ctl
  if len = 0 then (0, {})
  else if intSigned fmt then (pattern w (sext len (bits x pos len)), {})
  else (bits x pos len, {})

/-- BFI (R90). -/
def bfiFn : IntFn := fun fmt x ctl z _ =>
  let (pos, len) := fieldOf (intWidth fmt) ctl
  if len = 0 then (z, {}) else (putBits z pos len x, {})

/-! ## Vector, scalar and MCC forms -/

/-- Source b of an integer vector instruction in one element. -/
def Warp.intB (wp : Warp) (x : Alu) (l k : Nat) : Nat :=
  wp.srcB x.b (fun i => pattern (intWidth x.fmt) i.val) (intWidth x.fmt) l k

/-- An element of a vector instruction (R83): `yFull` reads b as 64 bits of the lane. -/
def intElem (x : Alu) (yFull : Bool) (f : IntFn) (wp : Warp) : ElemFn := fun l k _ rg =>
  let wd := intWidth x.fmt
  let r := f x.fmt (subOf (wp.opndV x.a l) wd k) (if yFull then wp.srcB64 x.b l else wp.intB x l k)
    (subOf (wp.opndV x.c l) wd k) x.vx.sat
  { val := r.1, fl := r.2, rng := rg }

/-- A vector instruction (R83). -/
def intVec (x : Alu) (elig yFull : Bool) (f : IntFn) (w : Nat) (s : State) : Res :=
  vecOp x elig (intWidth x.fmt) (intElem x yFull f) w s

/-- Source b of a scalar instruction as 64 bits. -/
def scalarB (rd : Opnd → Word) (b : SrcB) : Nat :=
  match b with
  | .opnd o => (rd o).toNat
  | .bcast o => (rd o).toNat
  | .imm i => pattern 64 i.val

/-- A scalar result (R82), read through `rd`: the register's new value and the flags. -/
def scalarCompute (rd : Opnd → Word) (x : Alu) (yFull : Bool) (f : IntFn) : Word × Flags :=
  let m := 2 ^ intWidth x.fmt
  let r := f x.fmt ((rd x.a).toNat % m) (if yFull then scalarB rd x.b else scalarB rd x.b % m) ((rd x.c).toNat % m) false
  (extendTo64 x.fmt r.1, r.2)

/-- End a scalar instruction: a division by zero sets int-div-zero in every Active thread, and faults in the halt
mode (R89). -/
def finishScalarOp (x : Alu) (elig : Bool) (r : Word × Flags) (w : Nat) (s : State) : Res :=
  let wp := s.warp w
  if r.2.idz then
    let w1 := wp.mapLanes (wp.active x.g) (fun _ la => { la with fflags := raiseFlags la.fflags { idz := true } })
    if s.defers w then .ok (s.setWarp w (w1.finishScalar x elig r.1))
    else .trap { cause := 0x040 } (s.setWarp w w1)
  else .ok (s.setWarp w (wp.finishScalar x elig r.1))

/-- A scalar instruction of class 0x0 (R82), warp-uniform. -/
def intScalar (x : Alu) (elig yFull : Bool) (f : IntFn) : Nat → State → Res :=
  uniform x.g (fun w s => finishScalarOp x elig (scalarCompute (s.warp w).opndS x yFull f) w s)

/-- A matrix control core's registers as operands. -/
def Mcc.opnd (m : Mcc) : Opnd → Word
  | .reg n => m.rdS n
  | .latch _ => 0

/-- A scalar instruction in an MCC (R283); a division by zero faults in either mode (R89). -/
def intMcc (x : Alu) (yFull : Bool) (f : IntFn) (k : Nat) (s : State) : Res :=
  let r := scalarCompute (s.mcc k).opnd x yFull f
  if r.2.idz then .trap { cause := 0x040 } s else .ok (s.setMcc k ((s.mcc k).wrS x.d r.1))

/-- The instruction in each of its three forms. -/
def intExec (i : Instr) (v : Bool) (x : Alu) (elig yFull : Bool) (f : IntFn) (s : State) : Answer :=
  if v then onWarp i (intVec x elig yFull f) s
  else onEither i (intScalar x elig yFull f) (intMcc x yFull f) s

def execAdd (v : Bool) (x : Alu) (s : State) : Answer := intExec (.add v x) v x true false (satFn exactAdd) s
def execSub (v : Bool) (x : Alu) (s : State) : Answer := intExec (.sub v x) v x true false (satFn exactSub) s
def execMul (v : Bool) (x : Alu) (s : State) : Answer := intExec (.mul v x) v x true false (satFn exactMul) s
def execMulh (v : Bool) (x : Alu) (s : State) : Answer := intExec (.mulh v x) v x true false (wrapFn exactMulh) s
def execMad (v : Bool) (x : Alu) (s : State) : Answer := intExec (.mad v x) v x true false (satFn exactMad) s
def execDiv (v : Bool) (x : Alu) (s : State) : Answer := intExec (.div v x) v x false false divFn s
def execRem (v : Bool) (x : Alu) (s : State) : Answer := intExec (.rem v x) v x false false remFn s
def execMin (v : Bool) (x : Alu) (s : State) : Answer := intExec (.min v x) v x true false (wrapFn exactMin) s
def execMax (v : Bool) (x : Alu) (s : State) : Answer := intExec (.max v x) v x true false (wrapFn exactMax) s
def execAbs (v : Bool) (x : Alu) (s : State) : Answer := intExec (.abs v x) v x true false (satFn exactAbs) s
def execAnd (v : Bool) (x : Alu) (s : State) : Answer := intExec (.and v x) v x true false (wrapFn patAnd) s
def execOr (v : Bool) (x : Alu) (s : State) : Answer := intExec (.or v x) v x true false (wrapFn patOr) s
def execXor (v : Bool) (x : Alu) (s : State) : Answer := intExec (.xor v x) v x true false (wrapFn patXor) s
def execAndn (v : Bool) (x : Alu) (s : State) : Answer := intExec (.andn v x) v x true false (wrapFn patAndn) s
def execShl (v : Bool) (x : Alu) (s : State) : Answer := intExec (.shl v x) v x true false (satFn exactShl) s
def execShr (v : Bool) (x : Alu) (s : State) : Answer := intExec (.shr v x) v x true false (wrapFn patShr) s
def execSar (v : Bool) (x : Alu) (s : State) : Answer := intExec (.sar v x) v x true false (wrapFn patSar) s
def execRot (v : Bool) (x : Alu) (s : State) : Answer := intExec (.rot v x) v x true false (wrapFn patRot) s
def execClz (v : Bool) (x : Alu) (s : State) : Answer := intExec (.clz v x) v x true false (wrapFn patClz) s
def execPopc (v : Bool) (x : Alu) (s : State) : Answer := intExec (.popc v x) v x true false (wrapFn patPopc) s
def execBrev (v : Bool) (x : Alu) (s : State) : Answer := intExec (.brev v x) v x true false (wrapFn patBrev) s
def execBfx (v : Bool) (x : Alu) (s : State) : Answer := intExec (.bfx v x) v x true true bfxFn s
def execBfi (v : Bool) (x : Alu) (s : State) : Answer := intExec (.bfi v x) v x true true bfiFn s
def execMovi (v : Bool) (x : Alu) (s : State) : Answer := intExec (.movi v x) v x true false (wrapFn patImm) s
def execSad (v : Bool) (x : Alu) (s : State) : Answer := intExec (.sad v x) v x true false (satFn exactSad) s

/-! ## SEL (R91) -/

/-- A vector SEL: the condition of lane l is p[c].bit[l]. -/
def selElem (x : Alu) (wp : Warp) : ElemFn := fun l k _ rg =>
  { val := if bit (wp.rdP x.cNum).toNat l then subOf (wp.opndV x.a l) (intWidth x.fmt) k else wp.intB x l k, rng := rg }

def selVec (x : Alu) (w : Nat) (s : State) : Res := vecOp x true (intWidth x.fmt) (selElem x) w s

/-- A scalar SEL: the condition is the whole of s[c]. -/
def selScalar (rd : Opnd → Word) (x : Alu) : Word :=
  extendTo64 x.fmt (if rd x.c != 0 then (rd x.a).toNat else scalarB rd x.b)

def execSel (v : Bool) (x : Alu) (s : State) : Answer :=
  if v then onWarp (.sel v x) (selVec x) s
  else onEither (.sel v x)
    (uniform x.g (fun w s => finishScalarOp x true (selScalar (s.warp w).opndS x, {}) w s))
    (fun k s => .ok (s.setMcc k ((s.mcc k).wrS x.d (selScalar (s.mcc k).opnd x)))) s

/-! ## CMP (R92) -/

/-- The six conditions on two values. -/
def condHolds (c : Nat) (x y : Int) : Bool :=
  match c with
  | 0 => x == y
  | 1 => x != y
  | 2 => x < y
  | 3 => x ≤ y
  | 4 => y < x
  | _ => y ≤ x

/-- A predicate or mask written from per-element conditions (R92, R110): `n` elements a lane. -/
def Warp.writeCond (wp : Warp) (x : Alu) (n : Nat) (cond : Nat → Nat → Bool) : Warp :=
  let act := wp.active x.g
  let m := x.vx.m
  if x.cmpKind true then
    let old := (wp.rdM (x.cmpD true)).toNat
    let new := maskWhere 256 (fun i =>
      let l := i / 8
      let k := i % 8
      if !bit act l then bit old i
      else if n ≤ k then false
      else if wp.enabled x.g m l k then cond l k
      else if x.vx.z then false else bit old i)
    wp.wrM (x.cmpD true) (BitVec.ofNat 256 new)
  else
    let old := (wp.rdP (x.cmpD true)).toNat
    let new := maskWhere 32 (fun l =>
      if !bit act l then bit old l
      else
        let ks := (List.range n).filter (fun k => wp.enabled x.g m l k)
        if x.cmpAny true then ks.any (cond l) else ks.all (cond l))
    wp.wrP (x.cmpD true) (BitVec.ofNat 32 new)

def cmpVec (x : Alu) (w : Nat) (s : State) : Res :=
  let wd := intWidth x.fmt
  let wp := s.warp w
  .ok (s.setWarp w (wp.writeCond x (64 / wd) (fun l k =>
    condHolds (x.cmpCond true) (valOf x.fmt (subOf (wp.opndV x.a l) wd k))
      (valOf x.fmt (wp.intB x l k)))))

def cmpScalar (rd : Opnd → Word) (x : Alu) : Word :=
  BitVec.ofNat 64 (b2n (condHolds (x.cmpCond false) (valOf x.fmt (rd x.a).toNat) (valOf x.fmt (scalarB rd x.b))))

def execCmp (v : Bool) (x : Alu) (s : State) : Answer :=
  if v then onWarp (.cmp v x) (cmpVec x) s
  else onEither (.cmp v x)
    (uniform x.g (fun w s =>
      finishScalarOp { x with d := x.cmpD false } true (cmpScalar (s.warp w).opndS x, {}) w s))
    (fun k s => .ok (s.setMcc k ((s.mcc k).wrS (x.cmpD false) (cmpScalar (s.mcc k).opnd x)))) s

/-! ## MOV (R93) -/

/-- A vector MOV: from v[a], or with c = 1 from s[a]. -/
def movElem (x : Alu) (wp : Warp) : ElemFn := fun l k _ rg =>
  { val := if x.cNum == 1 then (wp.opndS x.a).toNat % 2 ^ intWidth x.fmt else subOf (wp.opndV x.a l) (intWidth x.fmt) k
    rng := rg }

def movVec (x : Alu) (w : Nat) (s : State) : Res := vecOp x true (intWidth x.fmt) (movElem x) w s

def execMov (v : Bool) (x : Alu) (s : State) : Answer :=
  if v then onWarp (.mov v x) (movVec x) s
  else onEither (.mov v x) (intScalar x true false (wrapFn patMov)) (intMcc x false (wrapFn patMov)) s

/-! ## MADW (R88) -/

/-- One widened result: `fmt` is the source format, the result has the format of twice its width. -/
def madwFn (fmt x y z : Nat) (sat : Bool) : Nat × Flags :=
  limitInt (fmt + 2) sat (valOf fmt x * valOf fmt y + valOf (fmt + 2) z)

def madwElem (x : Alu) (wp : Warp) : ElemFn := fun l k _ rg =>
  let r := madwFn x.fmt (subOf (wp.opndV x.a l) (intWidth x.fmt) k) (wp.intB x l k)
    (subOf (wp.opndV x.c l) (2 * intWidth x.fmt) k) x.vx.sat
  { val := r.1, fl := r.2, rng := rg }

def madwVec (x : Alu) (w : Nat) (s : State) : Res := vecOp x true (2 * intWidth x.fmt) (madwElem x) w s

def madwScalar (rd : Opnd → Word) (x : Alu) : Word :=
  extendTo64 (x.fmt + 2) (madwFn x.fmt (rd x.a).toNat (scalarB rd x.b) (rd x.c).toNat false).1

def execMadw (v : Bool) (x : Alu) (s : State) : Answer :=
  if v then onWarp (.madw v x) (madwVec x) s
  else onEither (.madw v x)
    (uniform x.g (fun w s => finishScalarOp x true (madwScalar (s.warp w).opndS x, {}) w s))
    (fun k s => .ok (s.setMcc k ((s.mcc k).wrS x.d (madwScalar (s.mcc k).opnd x)))) s

/-! ## LEA (R94) -/

/-- The address of a base and 64 bits of source b, which an immediate form takes as they are. -/
def leaAddr (x : Alu) (a b : Nat) : Nat :=
  match x.b with
  | .imm i => wrap64 (a + i.val)
  | _ => wrap64 (a + valOf x.fmt b * (2 ^ (x.cNum % 8) : Nat))

def leaElem (x : Alu) (wp : Warp) : ElemFn := fun l _ _ rg =>
  { val := leaAddr x (wp.opndV x.a l).toNat (wp.srcB64 x.b l), rng := rg }

def leaVec (x : Alu) (w : Nat) (s : State) : Res := vecOp x true 64 (leaElem x) w s

def leaScalar (rd : Opnd → Word) (x : Alu) : Word :=
  BitVec.ofNat 64 (leaAddr x (rd x.a).toNat (scalarB rd x.b))

def execLea (v : Bool) (x : Alu) (s : State) : Answer :=
  if v then onWarp (.lea v x) (leaVec x) s
  else onEither (.lea v x)
    (uniform x.g (fun w s => finishScalarOp x true (leaScalar (s.warp w).opndS x, {}) w s))
    (fun k s => .ok (s.setMcc k ((s.mcc k).wrS x.d (leaScalar (s.mcc k).opnd x)))) s

end Sys2Proof.Machine
end

