-- ==== Sys2Proof/Machine/Control.lean ====
section
/-!
DEFINITION. The control instructions of class 0x5 (spec/03 R66–R78), and the deferred arithmetic reports that a
thread's exit makes (R417, R418).
-/
namespace Sys2Proof.Machine

/-! ## Deferred reports -/

/-- The flags of a lane that are set and not yet reported (R417). -/
def Lane.unreported (x : Lane) : BitVec 3 := reportBits x.fflags &&& ~~~ x.reported

/-- A report of the lanes of a mask, made at address `pc` (R417, R418): the block status record takes the new flags,
and they are marked reported. Under the fault mode halt nothing is deferred. -/
def State.report (s : State) (w mask pc : Nat) : State :=
  let wp := s.warp w
  let b := s.block wp.block
  let ls := (maskList mask 32).filter (fun l => (wp.lane l).unreported != 0)
  match ls with
  | [] => s
  | l0 :: _ =>
    if !b.rcd.df then s
    else
      let old := ofBytes (s.mem.readBytes 8 b.savePa)
      let n := bits old 32 32
      let flags := ls.foldl (fun a l => a ||| (wp.lane l).unreported.toNat) 0
      let first := if n = 0 then wp.index * 2 ^ 11 + l0 * 2 ^ 6 else bits old 6 26 * 2 ^ 6
      let word0 := Nat.min (n + 1) (ones 32) * 2 ^ 32 + first + (bits old 0 3 ||| flags)
      let bytes := bytesOf 8 word0 ++ (if n = 0 then bytesOf 8 pc ++ bytesOf 8 s.time else [])
      (s.setWarp w (wp.mapLanes (maskOf ls) (fun _ x => { x with reported := x.reported ||| x.unreported }))).hardWrite
        b.core b.savePa bytes

/-! ## Ending threads (R65, R74) -/

/-- Threads become exited, and with them helpers that no thread carries any more; their deferred faults are reported. -/
def State.exitLanes (s : State) (w mask pc : Nat) : State :=
  let wp := s.warp w
  let w1 := (wp.mapLanes mask (fun _ x => { x with st := .exited, yielded := false, wait := {} })).dropHelpers
  let gone := maskWhere 32 (fun l => (w1.lane l).st == .exited && (wp.lane l).st != .exited)
  (s.report w gone pc).setWarp w
    (((s.report w gone pc).warp w).mapLanes gone (fun _ x => { x with st := .exited, yielded := false, wait := {} }))

/-- All eight streams of a thread are idle. -/
def Warp.idle (wp : Warp) (l : Nat) : Bool := (List.range 8).all (fun st => wp.own.outstanding l st == 0)

/-- Draining threads whose streams have drained become exited (R74). No selection falls due by that (log entry 104). -/
def State.drain (s : State) (w : Nat) : State :=
  let wp := s.warp w
  let ready := lanes32.filter (fun l => (wp.lane l).st == .draining && wp.idle l)
  match ready with
  | [] => s
  | l :: _ => s.exitLanes w (maskOf ready) (wp.lane l).pc

/-- EXIT (R74) for the threads of `x`: each becomes a helper or drains. -/
def Warp.beginExit (wp : Warp) (qhelp : Bool) (x : Nat) : Warp :=
  let keeps := fun l => qhelp && ([0, 1, 2, 3].any (fun i =>
    let k := 4 * (l / 4) + i
    wp.standing k && !bit x k))
  { wp.mapLanes x (fun l la =>
      if keeps l then { la with st := .helper, yielded := false }
      else { la with st := .draining, pc := wp.pc, yielded := false }) with selDue := true }

def exitWarp (x : Sys) (w : Nat) (s : State) : Res :=
  let wp := s.warp w
  -- R425: no thread exits in a handler or a resume routine
  if wp.mode != .normal then .trap { cause := 0x00A } s
  else
    let b := s.block wp.block
    .ok ((s.setWarp w (wp.beginExit b.rcd.qh (wp.activeReal x.g))).drain w)

def execExit (x : Sys) (s : State) : Answer :=
  onEither (.exit x) (exitWarp x)
    -- R286: issue stops; the MCC is finished once its queues and its buffer are empty
    (fun k s => .ok (s.setMcc k { s.mcc k with exited := true })) s

/-! ## Branches (R70–R72) -/

/-- The target of a form FB word at an address (R23). -/
def fbTarget (pc : Nat) (x : Br) : Nat := wrap64 (pc + 4 * sext 24 x.off)

/-- A matrix control core moves to an address (R41, R64). -/
def Mcc.jump (m : Mcc) (t : Nat) : Mcc := if t = m.npc then m else { m with pc := t, xfer := some m.cur }

def brWarp (x : Br) (w : Nat) (s : State) : Res :=
  let wp := s.warp w
  .ok (s.setWarp w (wp.jump (wp.active x.g) (fun _ => fbTarget wp.pc x)))

def execBr (x : Br) (s : State) : Answer :=
  onEither (.br x) (brWarp x) (fun k s => .ok (s.setMcc k ((s.mcc k).jump (fbTarget (s.mcc k).cur x)))) s

def bruWarp (x : Br) : Nat → State → Res :=
  uniform x.g (fun w s =>
    let wp := s.warp w
    if (wp.rdS x.a != 0) != x.cneg then .ok (s.setWarp w (wp.jump wp.group (fun _ => fbTarget wp.pc x))) else .ok s)

def bruMcc (x : Br) (k : Nat) (s : State) : Res :=
  let m := s.mcc k
  if (m.rdS x.a != 0) != x.cneg then .ok (s.setMcc k (m.jump (fbTarget m.cur x))) else .ok s

def execBru (x : Br) (s : State) : Answer := onEither (.bru x) (bruWarp x) (bruMcc x) s

/-- A thread's condition; a helper takes its host's (R65). -/
def brpWarp (x : Br) (w : Nat) (s : State) : Res :=
  let wp := s.warp w
  let taken := maskWhere 32 (fun l => bit (wp.active x.g) l && (bit (wp.rdP x.a).toNat (wp.leader l) != x.cneg))
  .ok (s.setWarp w (wp.jump taken (fun _ => fbTarget wp.pc x)))

def execBrp (x : Br) (s : State) : Answer := onWarp (.brp x) (brpWarp x) s

/-- BRX and RET: each Active thread goes to the address in its lane (R71). -/
def indirect (a : Nat) (g : Guard) (w : Nat) (s : State) : Res :=
  let wp := s.warp w
  .ok (s.setWarp w (wp.jump (wp.active g) (fun l => (wp.rdV a l).toNat)))

def execBrx (x : R3) (s : State) : Answer := onWarp (.brx x) (indirect x.a x.g) s

def execRet (x : Sys) (s : State) : Answer :=
  onEither (.ret x) (indirect x.a x.g)
    (fun k s => .ok (s.setMcc k ((s.mcc k).jump ((s.mcc k).rdS x.a).toNat))) s

def callWarp (x : Br) (w : Nat) (s : State) : Res :=
  let wp := s.warp w
  let act := wp.active x.g
  .ok (s.setWarp w ((wp.wrVs x.a act (fun _ => BitVec.ofNat 64 wp.npc)).jump act (fun _ => fbTarget wp.pc x)))

def callMcc (x : Br) (k : Nat) (s : State) : Res :=
  let m := s.mcc k
  .ok (s.setMcc k ((m.wrS x.a (BitVec.ofNat 64 m.npc)).jump (fbTarget m.cur x)))

def execCall (x : Br) (s : State) : Answer := onEither (.call x) (callWarp x) (callMcc x) s

/-! ## JOIN, YIELD, NOP (R73, R75) -/

/-- Stores and atomics (R58). -/
def storesOrAtomic : Instr → Bool
  | .st _ | .stu _ | .stb _ | .ste _ | .stf _ | .ldfe _ | .atom _ _ | .atomnr _ _ | .atomcas _ | .fatom _ _
  | .fatomnr _ _ | .redv _ _ | .arrive _ | .awarm _ => true
  | _ => false

/-- Operations in flight of a warp that some thread of a mask issued and that pass a test. -/
def State.flying (s : State) (w mask : Nat) (p : Instr → Bool) : List Nat :=
  (s.ops.cells.filter (fun c => c.2.st == .flying && c.2.warp == w && !c.2.orphan && (c.2.lanes &&& mask) != 0 &&
    (match c.2.instr with
     | some i => p i
     | none => false))).map (·.1)

/-- A warp issues nothing until the operations named have performed. -/
def Warp.blockOn (wp : Warp) (l : List Nat) : Warp :=
  { wp with blocking := if l.isEmpty then .free else .ops l }

/-- JOIN: the warp issues nothing until the stores and atomics of its group are performed (R58); until then it is neither
chosen nor passed over (R62; log entry 103). -/
def execJoin (x : Sys) (s : State) : Answer :=
  onWarp (.join x) (fun w s =>
    .ok (s.setWarp w ((s.warp w).blockOn (s.flying w (s.warp w).group storesOrAtomic)))) s

def execYield (x : Sys) (s : State) : Answer :=
  onWarp (.yield x) (fun w s =>
    let wp := s.warp w
    .ok (s.setWarp w { wp.mapLanes (wp.active x.g) (fun _ la => { la with yielded := true }) with selDue := true })) s

def execNop (x : Sys) (s : State) : Answer := onWarp (.nop x) (fun _ s => .ok s) s

/-! ## PLOP, PMOV (R76, R78) -/

def execPlop (d a b c tt : Nat) (g : Guard) (s : State) : Answer :=
  onWarp (.plop d a b c tt g) (fun w s =>
    let wp := s.warp w
    let act := wp.active g
    let p := fun n l => b2n (bit (wp.rdP n).toNat l)
    let new := maskWhere 32 (fun l =>
      if bit act l then bit tt (4 * p a l + 2 * p b l + p c l) else bit (wp.rdP d).toNat l)
    .ok (s.setWarp w (wp.wrP d (BitVec.ofNat 32 new)))) s

/-- The warp after a PMOV (R78), given the threads that are Active. -/
def Warp.pmov (wp : Warp) (x : R3) (act : Nat) : Warp :=
  let keepP := fun (f : Nat → Bool) =>
    wp.wrP x.d (BitVec.ofNat 32 (maskWhere 32 (fun l => if bit act l then f l else bit (wp.rdP x.d).toNat l)))
  match x.b with
  | 0 => keepP (fun l => bit (wp.rdP x.a).toNat l)
  | 1 => if act = 0 then wp else wp.wrP x.d (BitVec.ofNat 32 (wp.rdS x.a).toNat)
  | 2 => if act = 0 then wp else wp.wrS x.d (BitVec.ofNat 64 (wp.rdP x.a).toNat)
  | 3 => wp.wrM x.d (BitVec.ofNat 256 (maskWhere 256 (fun i =>
      if bit act (i / 8) then bit (wp.rdP x.a).toNat (i / 8) else bit (wp.rdM x.d).toNat i)))
  | _ => keepP (fun l => (List.range 8).any (fun k => bit (wp.rdM x.a).toNat (8 * l + k)))

def execPmov (x : R3) (s : State) : Answer :=
  onWarp (.pmov x) (fun w s => .ok (s.setWarp w ((s.warp w).pmov x ((s.warp w).active x.g)))) s

end Sys2Proof.Machine
end

