-- ==== Sys2Proof/Machine/Home.lean ====
section
/-!
DEFINITION. The home of a region-00 line (R11, R132, R134, R324–R326): the slice that owns it, the tenants of that slice
and their events, and the lines that the slice holds.
-/
namespace Sys2Proof.Machine

/-- A valid region-00 or region-01 address (R131). -/
def isLocal (pa : Nat) : Bool :=
  match bits pa 50 2 with
  | 0 => bits pa 42 8 = 0 && bits pa 36 6 < 24 && bits pa 0 36 < 0xEE6B28000
  | 1 => bits pa 41 9 = 0
  | _ => false

/-! ## Tenants (R323, R324) -/

def Tenant.valid (t : Tenant) : Bool := bit t.td0.toNat 63
def Tenant.asid (t : Tenant) : Nat := bits t.td0.toNat 40 16
def Tenant.qmax (t : Tenant) : Nat := if bits t.td0.toNat 32 7 = 0 then 64 else bits t.td0.toNat 32 7
def Tenant.ibase (t : Tenant) : Nat := bits t.td0.toNat 26 6 * 1024
def Tenant.isize (t : Tenant) : Nat := bits t.td0.toNat 19 7 * 1024
def Tenant.dbase (t : Tenant) : Nat := bits t.td0.toNat 13 6 * 1024
def Tenant.dsize (t : Tenant) : Nat := bits t.td0.toNat 6 7 * 1024
/-- The entry of an event kind; 0xFFFF is unbound. -/
def Tenant.entry (t : Tenant) (kind : Nat) : Nat := bits t.td1.toNat (16 * kind) 16
def Tenant.budget (t : Tenant) (kind : Nat) : Nat :=
  let b := bits t.td2.toNat (13 * kind) 13
  if b = 0 then 512 else Nat.min b 4096
/-- The DMEM region as addresses of the slice core's map. -/
def Tenant.dlo (t : Tenant) : Nat := 0x10000 + t.dbase
def Tenant.dhi (t : Tenant) : Nat := Nat.min (t.dlo + t.dsize) 0x20000
def Tenant.ihi (t : Tenant) : Nat := Nat.min (t.ibase + t.isize) 0x10000

def Slice.tenant (c : Slice) (t : Nat) : Tenant := c.tenants.get {} t
def Slice.setTenant (c : Slice) (t : Nat) (x : Tenant) : Slice := { c with tenants := c.tenants.set {} t x }

/-- A counter of TD4 raised by one, saturating. -/
def Tenant.count (t : Tenant) (lo w : Nat) : Tenant :=
  let n := bits t.td4.toNat lo w
  { t with td4 := BitVec.ofNat 64 (putBits t.td4.toNat lo w (Nat.min (n + 1) (ones w))) }

/-- The slice that owns a region-00 line (R132). -/
def sliceOf (pa : Nat) : Nat :=
  bits pa 7 5 ^^^ bits pa 12 5 ^^^ bits pa 17 5 ^^^ bits pa 22 5 ^^^ bits pa 27 5 ^^^ bits pa 32 4

/-- The slice core of a region-00 address. -/
def ownerOf (pa : Nat) : Nat := bits pa 36 6 * 32 + sliceOf pa

/-- A line of a tenant of slice core `k`. -/
def Tenant.owns (t : Tenant) (k pa : Nat) : Bool :=
  bits pa 50 2 == 0 && isLocal pa && ownerOf pa == k &&
  bits t.td3.toNat 0 20 * 65536 ≤ pa % 2 ^ 36 && pa % 2 ^ 36 < bits t.td3.toNat 32 20 * 65536

/-- The tenant that serves an ASID: the lowest-numbered. -/
def Slice.tenantFor (c : Slice) (asid : Nat) : Option Nat :=
  (List.range 8).find? (fun t => (c.tenant t).valid && (c.tenant t).asid == asid)

/-! ## Replies (R346) -/

def replyWord (value used cause status : Nat) : Nat :=
  value % 2 ^ 32 * 2 ^ 32 + Nat.min used 0xFFFF * 2 ^ 16 + cause * 2 ^ 8 + status

/-- The outcome of an SMSG is known. -/
def State.answerSmsg (s : State) (op : Option Nat) (r : Nat) : State :=
  match op with
  | some o => if (s.op o).st == .none then s else s.setOp o { s.op o with reply := some r }
  | none => s

/-! ## The queue (R325, R326) -/

/-- An event is queued for tenant `t`, or dropped. -/
def State.queueEvent (s : State) (k t : Nat) (e : SliceEvent) : State :=
  let c := s.slice k
  let x := c.tenant t
  if 64 ≤ c.queue.length || x.qmax ≤ (c.queue.filter (fun q => q.tenant == t)).length then
    (s.setSlice k (c.setTenant t (x.count 32 32))).answerSmsg e.op (replyWord 0 0 0 2)
  else s.setSlice k { c with queue := c.queue ++ [e] }

/-- The tenant of a request's ASID that the line belongs to, where it binds the event. -/
def State.boundTenant (s : State) (k kind pa asid : Nat) : Option Nat :=
  match (s.slice k).tenantFor asid with
  | some t => if ((s.slice k).tenant t).owns k pa && ((s.slice k).tenant t).entry kind != 0xFFFF then some t else none
  | none => none

def State.lineOf (s : State) (pa : Nat) : L2Line := s.l2.get {} (pa / 128)
def State.setLine (s : State) (pa : Nat) (x : L2Line) : State := { s with l2 := s.l2.set {} (pa / 128) x }

/-- An event of kinds 0 to 2 for a line. -/
def State.lineEvent (s : State) (k kind pa : Nat) (asid : Option Nat) (dirty : Bool) (handle : Nat) : State :=
  match asid with
  | none => s
  | some a => match s.boundTenant k kind pa a with
    | some t => s.queueEvent k t { kind := kind, tenant := t, dirty := dirty, handle := handle, pa := pa / 128 * 128 }
    | none => s

/-! ## Lines of a slice (R11, R13, R325) -/

/-- Lines that a slice of 3 MiB holds. -/
def sliceLines : Nat := 24576

/-- A line leaves its slice by replacement or flush, after any write-back. -/
def State.dropLine (s : State) (pa : Nat) : State :=
  let x := s.lineOf pa
  let s1 := { s with shadow := s.shadow.set [] (pa / 128) [] }
  (s1.setLine pa { switch := x.switch }).lineEvent (ownerOf pa) 2 pa x.asid x.dirty 0xFFFFFFFF

/-- A full slice has some line leave before another comes. -/
def State.makeLine (s : State) (pa : Nat) : State :=
  if s.l2.cells.length < sliceLines then s
  else
    let here := s.l2.cells.filter (fun c => c.2.present && ownerOf (c.1 * 128) == ownerOf pa)
    if here.length < sliceLines then s
    else match here[Config.freeValue s.free % here.length]? with
    | some c => s.draw.dropLine (c.1 * 128)
    | none => s

/-- A fill of a line is written into its slice, under the ASID of the request that allocated it. -/
def State.fillLine (s : State) (pa : Nat) (asid : Option Nat) : State :=
  let s1 := s.makeLine pa
  (s1.setLine pa { s1.lineOf pa with present := true, pending := false, dirty := false, asid := asid }).lineEvent
    (ownerOf pa) 1 pa asid false 0xFFFFFFFF

/-- A request reaches the home slice of a line: one that is absent is fetched. A read or atomic brings its requester's
handle, and raises MISS where no fill is pending; a store or prefetch brings none. A cellar line has no slice. -/
def State.atSlice (s : State) (pa : Nat) (asid handle : Option Nat) : State :=
  let x := s.lineOf pa
  if bits pa 50 2 != 0 || x.present then s
  else if x.pending then s.fillLine pa x.asid
  else match handle with
  | some h => (s.lineEvent (ownerOf pa) 0 pa asid false h).fillLine pa asid
  | none => s.fillLine pa asid

/-- The requester of an operation: its ASID and its block's handle (R328). -/
def State.byOp (s : State) (o : Op) (pa : Nat) (reads : Bool) : State :=
  s.atSlice pa (some o.asid) (if reads then some (s.block o.block).handle else none)

end Sys2Proof.Machine
end

