-- ==== Sys2Proof/Machine/Access.lean ====
section
/-!
DEFINITION. How an address is decoded, translated and checked (R122–R133, R197), and how a byte is read and written
through the L1 caches (R134–R138): shared by loads, stores, atomics, copies and transfers.
-/
namespace Sys2Proof.Machine

/-! ## Who accesses -/

/-- Whose access it is: a logical core, a block and an ASID. -/
structure Ctx where
  core : Nat
  block : Nat
  asid : Nat
  deriving DecidableEq, Repr

/-- The context of a warp. -/
def State.ctx (s : State) (w : Nat) : Ctx :=
  let b := s.block (s.warp w).block
  { core := b.core, block := (s.warp w).block, asid := (s.job b.job).asid }

/-! ## Clusters (R215) -/

def State.cluster (s : State) (c : Nat) : Cluster := s.clusters.get {} c

/-- Indexes in use, and the span: one more than the highest. -/
def Cluster.indexes (c : Cluster) : List Nat := (List.range 16).filter (fun i => (c.members.get none i).isSome)
def Cluster.span (c : Cluster) : Nat := match c.indexes.getLast? with
  | some i => i + 1
  | none => 0

/-- The block at index `i` of the cluster of block `b` (R123, R215): scratchpad range fault or cluster-revoked where
there is none. -/
def State.memberBlock (s : State) (b i : Nat) : Except Nat Nat :=
  match (s.block b).cluster with
  | none => .error 0x064
  | some c =>
    let cl := s.cluster c
    if cl.span ≤ i then .error 0x064
    else match cl.members.get none i with
    | none => .error 0x072
    -- R217 step 1: a leaving block's scratchpad is revoked for the other members
    | some m => if (s.block m).leaving && m != b then .error 0x072 else .ok m

/-- `n` bytes at an offset of a block's scratchpad, within its allocation. -/
def State.inScratch (s : State) (b off n : Nat) : Except Nat Place :=
  if (s.block b).alloc < off + n then .error 0x064 else .ok (.scratch b off)

/-- The place of an SA (R197). -/
def State.resolveSa (s : State) (b sa n : Nat) : Except Nat Place :=
  if sa < 2 ^ 20 then s.inScratch b sa n
  else if sa / 2 ^ 24 = 1 then
    match s.memberBlock b (bits sa 20 4) with
    | .error c => .error c
    | .ok m => s.inScratch m (sa % 2 ^ 20) n
  else .error 0x064

/-- The window range (R122). -/
def windowBase : Nat := 0x01FFFE0000000000
def ownWindow : Nat := 0x01FFFF0000000000
def isWindow (va : Nat) : Bool := windowBase ≤ va && va < 2 ^ 57

/-- The place of a window address (R123). -/
def State.resolveWindow (s : State) (b va n : Nat) : Except Nat Place :=
  if ownWindow ≤ va then
    if va - ownWindow < 2 ^ 20 then s.inScratch b (va - ownWindow) n else .error 0x064
  else if va - windowBase < 2 ^ 24 then
    match s.memberBlock b ((va - windowBase) / 2 ^ 20) with
    | .error c => .error c
    | .ok m => s.inScratch m ((va - windowBase) % 2 ^ 20) n
  else .error 0x064

/-! ## Translation (R125–R128) -/

/-- Address bits that an entry of a level indexes, and the bits of the page that a leaf there maps. -/
def levelShift (level : Nat) : Nat :=
  match level with
  | 4 => 47
  | 3 => 36
  | 2 => 26
  | _ => 16
def levelEntries (level : Nat) : Nat := if level = 3 then 2048 else 1024

/-- A leaf that R127 permits at a level. -/
def leafOk (level pte : Nat) : Bool :=
  level < 4 && bits pte 0 (levelShift level) / 2 ^ 13 = 0 && bits pte 52 12 = 0 && bits pte 8 5 = 0 && !bit pte 4 &&
  (!bit pte 2 || bit pte 1) && (!bit pte 5 || (bits pte 50 2 = 0 && !bit pte 3))

/-- A pointer that R127 permits at a level. -/
def pointerOk (level pte : Nat) : Bool :=
  1 < level && bits pte 52 12 = 0 && bits pte 4 9 = 0 &&
  bits pte 13 39 * 2 ^ 13 % (8 * levelEntries (level - 1)) = 0 && isLocal (bits pte 13 39 * 2 ^ 13)

/-- The walk from a table of a level down: the leaf and its page size in address bits. -/
def State.walkFrom (s : State) (va : Nat) : Nat → Nat → Option (Nat × Nat)
  | 0, _ => none
  | level + 1, table =>
    let l := level + 1
    let idx := va / 2 ^ levelShift l % levelEntries l
    let pte := ofBytes (s.mem.readBytes 8 (table + 8 * idx))
    if !bit pte 0 then none
    else if bits pte 1 3 = 0 then
      if pointerOk l pte then s.walkFrom va level (bits pte 13 39 * 2 ^ 13) else none
    else if leafOk l pte then some (pte, levelShift l) else none

/-- A walk from a root (R125). -/
def State.walkRoot (s : State) (root asid va : Nat) : Option TlbEntry :=
  if !isLocal root || root % 8192 != 0 then none
  else match s.walkFrom va 4 root with
  | none => none
  | some (pte, size) => some { asid := asid, va := va / 2 ^ size, size := size, pte := pte }

/-- A walk of an ASID's table. -/
def State.walk (s : State) (asid va : Nat) : Option TlbEntry := s.walkRoot (s.roots.get 0 asid) asid va

/-- An entry that a TLB may use for an address. -/
def TlbEntry.covers (e : TlbEntry) (asid va : Nat) : Bool :=
  (e.asid == asid || bit e.pte 7) && va / 2 ^ e.size == e.va

/-- The physical address that an entry gives. -/
def TlbEntry.pa (e : TlbEntry) (va : Nat) : Nat := bits e.pte 13 39 * 2 ^ 13 / 2 ^ e.size * 2 ^ e.size + va % 2 ^ e.size

/-- A translation for a die (R128): a walk, or an older translation that a TLB still holds, or a walk of a table that
SETROOT has replaced and no invalidation has followed (R452). The translation that a walk finds is held from then on. -/
def State.translate (s : State) (die asid va : Nat) : Option TlbEntry × State :=
  let tlb := s.tlbs.get [] die
  let fresh := s.walk asid va
  let olds := tlb.filter (fun e => e.covers asid va && some e != fresh) ++
    (s.oldRoots.get [] asid).filterMap (fun r => s.walkRoot r asid va)
  let s1 := s.draw
  let s2 := match fresh with
    | some e => if tlb.contains e then s1 else { s1 with tlbs := s1.tlbs.set [] die (e :: tlb) }
    | none => s1
  match olds[Config.freeValue s.free % (olds.length + 1)]? with
  | some e => if s.choice then (some e, s2) else (fresh, s2)
  | none => (fresh, s2)

/-! ## Checks (R129–R131, R133) -/

/-- What an access needs: permissions, and whether MMIO accepts it. -/
structure Need where
  read : Bool := false
  write : Bool := false
  mmio : Bool := false
  deriving DecidableEq, Repr

/-- A fabric address under the module's own id that names none of its memory: it ends in remote rejection (R131). -/
def State.strays (s : State) (pa : Nat) : Bool := bits pa 42 8 = s.moduleId && !isLocal (bits pa 0 42)

/-- Some port of the module is up, or comes up again when its retrain ends (R365, R377): peers can be reached. -/
def State.reaches (s : State) : Bool := (List.range 36).any (fun p => (s.ports.get {} p).state < 2)

/-- Nanoseconds of retraining on a link since a time (R365). -/
def Port.paused (p : Port) (since now : Nat) : Nat :=
  let spans := if p.state = 1 then (p.since, now) :: p.spans else p.spans
  spans.foldl (fun a x => a + (x.2 - Nat.max since x.1)) 0

/-- The request timeout of a width in nanoseconds (R365). -/
def widthTimeout (width : Nat) : Nat :=
  match width with
  | 0 => 40000
  | 1 => 80000
  | _ => 160000

/-- A request sent at a time can have timed out (R365): on some port that is up, not counting its retrains, or because no
port reaches the peer. -/
def State.timedOut (s : State) (since : Nat) : Bool :=
  !s.reaches || (List.range 36).any (fun k =>
    let p := s.ports.get {} k
    p.state = 0 && since + p.paused since s.time + widthTimeout p.width ≤ s.time)

/-- The place of a physical address with its page's attributes (R131, R133), or a data access fault. A fabric address
of this module is served by its own HBM4E. -/
def State.placeOf (s : State) (pte pa n : Nat) (need : Need) : Except Nat Place :=
  match bits pa 50 2 with
  | 0 | 1 => if isLocal pa then .ok (.home pa (bit pte 6) (bit pte 5)) else .error 0x063
  | 2 =>
    let own := bits pa 0 42
    if bits pa 42 8 = s.moduleId && isLocal own then .ok (.self own) else .ok (.peer pa)
  | _ =>
    let host := bits pa 48 2
    if !need.mmio || (n != 4 && n != 8) || host = 3 then .error 0x063
    else if host = 0 && (need.write || bits pa 30 18 != 0) then .error 0x063
    else .ok (.mmio pa)

/-- One element's checks in the order of R130. -/
def State.checkElem (s : State) (c : Ctx) (need : Need) (va n align : Nat) : Except Nat Place × State :=
  if va % align != 0 then (.error 0x062, s)
  else if isWindow va then (s.resolveWindow c.block va n, s)
  else if 2 ^ 57 ≤ va then (.error 0x060, s)
  else
    let (t, s1) := s.translate (c.core / 16) c.asid va
    match t with
    | none => (.error 0x060, s1)
    | some e =>
      if (need.read && !bit e.pte 1) || (need.write && !bit e.pte 2) then (.error 0x061, s1)
      else (s.placeOf e.pte (e.pa va) n need, s1)

/-- The elements of an access in ascending order: their places, or the first failing element (R130). A helper's element
that would have faulted is placed nowhere (R65). -/
def State.checkAll (s : State) (c : Ctx) (need : Need) (align : Nat) (helper : Nat → Bool) :
    List Elem → Except Trap (List Elem) × State
  | [] => (.ok [], s)
  | e :: r =>
    match s.checkElem c need e.addr e.size align with
    | (.error cause, s1) =>
      if helper e.lane then
        match s1.checkAll c need align helper r with
        | (.ok l, s2) => (.ok ({ e with place := .none } :: l), s2)
        | x => x
      else (.error { cause := cause, lane := e.lane, addr := e.addr }, s1)
    | (.ok p, s1) =>
      match s1.checkAll c need align helper r with
      | (.ok l, s2) => (.ok ({ e with place := p } :: l), s2)
      | x => x

/-! ## Places and their bytes -/

/-- Where the bytes of a place lie in this module: a scratchpad (its block, plus one) or memory (0), and the address. -/
def Place.spot : Place → Option (Nat × Nat)
  | .scratch b o => Option.some (b + 1, o)
  | .home a _ _ | .self a => Option.some (0, a)
  | _ => Option.none

/-- A fabric address, or host memory: performed at sys scope whatever scope is named (R131, R139). -/
def Place.outer : Place → Bool
  | .self _ | .peer _ => true
  | .mmio pa => bits pa 48 2 != 0
  | _ => false

/-- Two places share a byte. -/
def overlaps (p : Place) (n : Nat) (q : Place) (m : Nat) : Bool :=
  match p, q with
  | .peer a, .peer a' | .mmio a, .mmio a' => a < a' + m && a' < a + n
  | _, _ => match p.spot, q.spot with
    | some (k, a), some (k', a') => k == k' && a < a' + m && a' < a + n
    | _, _ => false

/-! ## What a load may still be given (R142, R166, R176)

A thread parked in WAITG has issued nothing after it; yet a later load that no edge orders after the WAITG, nor after
anything else, may return what its bytes held before writes made meanwhile. -/

/-- A thread of the warp is parked in WAITG. -/
def Warp.watches (wp : Warp) : Bool :=
  wp.live && lanes32.any (fun l => (wp.lane l).st == .parked && (wp.lane l).wait.kind == .arrival)

/-- What is about to be overwritten is kept for the warps that watch. -/
def State.remember (s : State) (x : Past) : State :=
  (s.warps.cells.filter (fun c => c.2.watches)).foldl
    (fun (a : State) c => { a with past := a.past.set [] c.1 (a.past.get [] c.1 ++ [x]) }) s

/-- A warp that has read or written some bytes is given nothing older of them (R143, R166). -/
def State.forget (s : State) (w : Nat) (p : Place) (n : Nat) : State :=
  { s with past := s.past.set [] w ((s.past.get [] w).filter (fun x => !overlaps x.place x.data.length p n)) }

/-- Bytes as they were before the first of some writes that holds them. -/
def asOf (l : List Past) (p : Place) (now : List Byte) : List Byte :=
  now.mapIdx (fun i x => match p.spot with
    | some (k, a) => match l.find? (fun (y : Past) => match y.place.spot with
        | some (k', a') => k' == k && a' ≤ a + i && a + i < a' + y.data.length
        | none => false) with
      | some y => match y.place.spot with
        | some (_, a') => y.data.getD (a + i - a') x
        | none => x
      | none => x
    | none => x)

/-- The bytes that a load of warp `w` returns, where `now` is what it finds: with an empty mask, perhaps as they were
before some of the writes kept. -/
def State.loadPast (s : State) (w : Nat) (p : Place) (now : List Byte) (bare : Bool) : List Byte × State :=
  let l := s.past.get [] w
  if l = [] then (now, s)
  else if !bare then (now, s.forget w p now.length)
  else
    let i := l.length - Config.freeValue s.free % (l.length + 1)
    let kept := (l.take i).filter (fun x => !overlaps x.place x.data.length p now.length)
    (asOf (l.drop i) p now, { s.draw with past := s.past.set [] w (kept ++ l.drop i) })

/-! ## Lines and L1 copies (R134–R137) -/

/-- A line that an L1 may hold: plain region 00 or plain cellar. -/
def cacheable (nc ms : Bool) : Bool := !nc && !ms

def State.l1Line (s : State) (core line : Nat) : L1Line := s.l1.get {} (l1Key core line)
def State.setL1 (s : State) (core line : Nat) (x : L1Line) : State := { s with l1 := s.l1.set {} (l1Key core line) x }

/-- Another core holds the line pinned (R136). -/
def State.pinnedElsewhere (s : State) (core line : Nat) : Bool :=
  s.l1.cells.any (fun c => c.1 % 2 ^ 45 == line % 2 ^ 45 && c.1 / 2 ^ 45 != core && c.2.pinned)

/-- A line pinned in any L1. -/
def State.pinned (s : State) (line : Nat) : Bool :=
  s.l1.cells.any (fun c => c.1 % 2 ^ 45 == line % 2 ^ 45 && c.2.pinned)

/-- An access to a line must go to a stack whose case is too hot: it waits (R392). What the L2 holds is served. -/
def State.stackWaits (s : State) (pa : Nat) (ms : Bool) : Bool :=
  bits pa 50 2 = 0 && (s.hbms.get {} (bits pa 36 6)).hot && (ms || !(s.lineOf pa).present)

/-- An access at the home of a line is held up: by a pin (R136), or by its stack (R392). -/
def State.homeHeld (s : State) (pa : Nat) (ms : Bool) : Bool := s.pinned (pa / 128) || s.stackWaits pa ms

/-- The copies of a line in the RDCs and in the switch slices are invalidated (R138, R223). -/
def State.unshare (s : State) (ls : List Nat) : State :=
  { s with
    rdc := dropRdc s.rdc ls
    l2 := ls.foldl (fun t l => t.set {} l { t.get {} l with switch := false }) s.l2 }

/-- Bytes written at the home: lines in their slices become dirty, and RDC and switch copies go (R138). -/
def State.writeHome (s : State) (pa : Nat) (bs : List Byte) : State :=
  let ls := linesOf pa bs.length
  let s1 := (s.remember { place := .home pa false false, data := s.mem.readBytes bs.length pa }).unshare ls
  { s1 with
    mem := s1.mem.writeBytes pa bs
    l2 := ls.foldl (fun t l => let x := t.get {} l; t.set {} l { x with dirty := x.dirty || x.present }) s1.l2 }

/-- Bytes of an MS page: memory itself, which what a handler has written in the slice does not reach (R133, R324). -/
def State.msRead (s : State) (n pa : Nat) : List Byte :=
  (List.range n).map (fun i => match s.shadow.get [] ((pa + i) / 128) with
    | [] => s.mem.read (pa + i)
    | d => d.getD ((pa + i) % 128) 0)

/-- Bytes written to an MS page, within a line. -/
def State.msWrite (s : State) (pa : Nat) (bs : List Byte) : State :=
  match s.shadow.get [] (pa / 128) with
  | [] => s.writeHome pa bs
  | d => { s with shadow := s.shadow.set [] (pa / 128) (overlayLine d (pa / 128) pa bs) }

/-- The bytes of a line whose bits are set in a mask, from `data`, written over `old`. -/
def mergeLine (old data : List Byte) (mask : Nat) : List Byte :=
  (List.range 128).map (fun i => if bit mask i then data.getD i 0 else old.getD i 0)

/-- A pinned line is written back and released (R136); the L1 keeps a clean copy. -/
def State.release (s : State) (core line : Nat) : State :=
  let x := s.l1Line core line
  if !x.pinned then s
  else
    let new := mergeLine (s.homeLine line) x.data x.dirty
    let asid := x.owners.head?.map (fun o => (s.job (s.block (s.warp o.1).block).job).asid)
    ((s.atSlice (line * 128) asid none).writeHome (line * 128) new).setL1 core line { valid := true, data := new }

/-- Release every pinned line of a core that a test names. -/
def State.releaseWhere (s : State) (core : Nat) (f : Nat → L1Line → Bool) : State :=
  (s.l1.cells.filter (fun c => c.1 / 2 ^ 45 == core && c.2.pinned && f (c.1 % 2 ^ 45) c.2)).foldl
    (fun a c => a.release core (c.1 % 2 ^ 45)) s

/-- The set of a line in an L1: PA[13:7]. -/
def l1Set (line : Nat) : Nat := line % 128

/-- The other lines that an L1 holds in the set of a line. -/
def State.setMates (s : State) (core line : Nat) : List (Nat × L1Line) :=
  s.l1.cells.filter (fun c => c.1 / 2 ^ 45 == core && l1Set (c.1 % 2 ^ 45) == l1Set line && c.1 % 2 ^ 45 != line)

/-- The pin limit (R135): before a ninth pin of a set, the oldest pinned line of the set is written back. -/
def State.makePinRoom (s : State) (core line : Nat) : State :=
  let same := (s.setMates core line).filter (fun c => c.2.pinned)
  if same.length < 8 then s
  else match same with
  | [] => s
  | c :: r =>
    let oldest := r.foldl (fun (a : Nat × L1Line) d => if d.2.order < a.2.order then d else a) c
    s.release core (oldest.1 % 2 ^ 45)

/-- Room for a line in its set of 16 ways (R135): some clean line of a full set makes way. -/
def State.makeWay (s : State) (core line : Nat) : State :=
  let same := s.setMates core line
  let clean := same.filter (fun c => !c.2.pinned)
  if same.length < 16 then s
  else match clean[Config.freeValue s.free % clean.length]? with
  | some c => { s.draw with l1 := s.l1.set {} c.1 {} }
  | none => s

/-- A clean copy enters an L1. -/
def State.fillL1 (s : State) (core line : Nat) : State :=
  (s.makeWay core line).setL1 core line { valid := true, data := s.homeLine line }

/-- A narrow store, or an atomic, in the issuing core's L1 (R135, R221): the line is pinned there. What the line held
before stays beside it (log entry 95). -/
def State.writePinned (s : State) (core pa : Nat) (bs : List Byte) (owner : Nat × Bool × Nat × Nat) : State :=
  let line := pa / 128
  let x0 := s.l1Line core line
  let s1 := if x0.pinned then s else if x0.valid then s.makePinRoom core line
    else (s.makePinRoom core line).makeWay core line
  let x := s1.l1Line core line
  let base := if x.pinned then x.data else s1.homeLine line
  let mask := maskWhere 128 (fun i => line * 128 + i ≥ pa && line * 128 + i < pa + bs.length)
  { s1 with nextSeq := s1.nextSeq + 1 }.setL1 core line
    { valid := true, pinned := true, data := overlayLine base line pa bs
      older := if x.pinned then x.older else if x.valid then x.data else base
      since := if x.pinned then x.since else s1.time
      order := if x.pinned then x.order else s1.nextSeq
      dirty := x.dirty ||| mask
      owners := if x.owners.contains owner then x.owners else owner :: x.owners }

/-- A clean copy takes bytes that its core has seen or written. -/
def State.patchClean (s : State) (core line a : Nat) (bs : List Byte) : State :=
  let x := s.l1Line core line
  if x.valid && !x.pinned then s.setL1 core line { x with data := overlayLine x.data line a bs } else s

/-- A store through to the home by a core (R135): its own pinned copy of the line is written back first, and its own
clean copy takes the bytes. -/
def State.writeThrough (s : State) (core pa : Nat) (bs : List Byte) : State :=
  ((s.release core (pa / 128)).writeHome pa bs).patchClean core (pa / 128) pa bs

/-- Bytes that an engine of a core wrote at the home for one of its threads: the core's clean copies of the lines take
them, so that the thread's later loads cannot miss them (R143, R172; log entry 96). -/
def State.engineSeen (s : State) (core pa : Nat) (bs : List Byte) : State :=
  (linesOf pa bs.length).foldl (fun (a : State) l => a.patchClean core l pa bs) s

/-- A clean copy dropped (R222). -/
def State.dropClean (s : State) (core line : Nat) : State :=
  { s with l1 := s.l1.keep (fun k x => !(k == l1Key core line && !x.pinned)) }

/-! ## RDCs (R11, R13, R134, R138) -/

/-- The key of a die's RDC copy of a line. -/
def rdcKey (die line : Nat) : Nat := die * 2 ^ 45 + line % 2 ^ 45

/-- Lines that an RDC of 32 MiB holds. -/
def rdcLines : Nat := 262144

/-- The copy of a line that a die's RDC holds; empty when it holds none. -/
def State.rdcLine (s : State) (die line : Nat) : List Byte := s.rdc.get [] (rdcKey die line)

/-- A line that some die's RDC may hold for a core of `die`: plain, and homed elsewhere. -/
def rdcMay (die pa : Nat) (nc ms : Bool) : Bool := cacheable nc ms && !(bits pa 50 2 = 0 && bits pa 36 6 = die)

/-- A line enters a die's RDC in the shared state; some line of a full RDC makes way. A line pinned in an L1 gives
nothing (R136). -/
def State.fillRdc (s : State) (die pa : Nat) : State :=
  let line := pa / 128
  if !(s.rdcLine die line).isEmpty || s.pinned line then s
  else
    let here := s.rdc.cells.filter (fun c => c.1 / 2 ^ 45 == die)
    let s1 := if here.length < rdcLines then s
      else match here[Config.freeValue s.free % here.length]? with
      | some c => { s.draw with rdc := s.rdc.set [] c.1 [] }
      | none => s
    { s1 with rdc := s1.rdc.set [] (rdcKey die line) (s1.homeLine line) }

/-- A die that reads a plain line homed elsewhere may keep it in its RDC. -/
def State.noteRdc (s : State) (die pa : Nat) (nc ms : Bool) : State :=
  if !rdcMay die pa nc ms then s
  else if s.choice then s.draw.fillRdc die pa else s.draw

/-- A load of a line that another core holds pinned is served all the same, by the RDC of its die, or with a narrow scope
by a clean copy in its L1 (R137). -/
def State.servedNear (s : State) (core pa : Nat) (nc ms narrow : Bool) : Bool :=
  cacheable nc ms && (!(s.rdcLine (core / 16) (pa / 128)).isEmpty || (narrow && (s.l1Line core (pa / 128)).valid))

/-- `n` bytes of a cacheable line as a load of an operation reads them (R137): from its core's own pinned line, or with a
narrow scope and no store of its own block there, perhaps from what that line held before; with a narrow scope perhaps
from an older clean copy; otherwise from the RDC or the home. What is read is never given older again. -/
def State.readCached (s : State) (o : Op) (core pa n : Nat) (narrow stream : Bool) : List Byte × State :=
  let line := pa / 128
  let x := s.l1Line core line
  let cut := fun (d : List Byte) => (d.drop (pa % 128)).take n
  let s1 := s.draw
  if x.pinned then
    if narrow && !x.older.isEmpty && x.owners.all (fun y => (s.warp y.1).block != o.block) && s.choice then (cut x.older, s1)
    else if x.older.isEmpty then (cut x.data, s1)
    else (cut x.data, s1.setL1 core line { x with older := overlayLine x.older line pa (cut x.data) })
  else
    let near := s.rdcLine (core / 16) line
    let fresh := if near.isEmpty then s.mem.readBytes n pa else cut near
    if x.valid && narrow && (s.choice || (near.isEmpty && s.pinnedElsewhere core line)) then (cut x.data, s1)
    else
      let s2 := if near.isEmpty then (s1.byOp o pa true).noteRdc (core / 16) pa false false else s1
      if x.valid then (fresh, s2.patchClean core line pa fresh)
      else if stream then (fresh, s2)
      else (fresh, s2.fillL1 core line)

/-! ## Reading and writing at a place -/

/-- A block whose scratchpad still exists (R461). -/
def BlockRec.standing (b : BlockRec) : Bool := (b.st == .placed || b.st == .waiting) && !b.killed

/-- The block is off its core, and its scratchpad is the image in its save area (R428). -/
def BlockRec.imaged (b : BlockRec) : Bool := b.st == .waiting

/-- Address of the scratchpad image (R422). -/
def BlockRec.imagePa (b : BlockRec) : Nat := b.savePa + scratchImageOff b.warps.length

/-- Bytes of a block's scratchpad: zero when the block is gone (R461). -/
def State.readScratch (s : State) (b off n : Nat) : List Byte :=
  let x := s.block b
  if !x.standing then List.replicate n 0
  else if x.imaged then s.mem.readBytes n (x.imagePa + off)
  else x.scratch.readBytes n off

/-- Bytes written to a block's scratchpad: discarded when the block is gone. -/
def State.writeScratch (s : State) (b off : Nat) (bs : List Byte) : State :=
  let x := s.block b
  if !x.standing then s
  else if x.imaged then s.hardWrite x.core (x.imagePa + off) bs
  else (s.remember { place := .scratch b off, data := x.scratch.readBytes bs.length off }).setBlock b
    { x with scratch := x.scratch.writeBytes off bs }

/-- The tag of the word at an offset (R199), in the image's tag bits while the block is off its core. -/
def State.tagAt (s : State) (b off : Nat) : Bool :=
  let x := s.block b
  if x.imaged then bit (s.mem.read (x.imagePa + 0x100000 + off / 64)).toNat (off / 8 % 8)
  else x.tags.get false (off / 8)

def State.setTag (s : State) (b off : Nat) (v : Bool) : State :=
  let x := s.block b
  if !x.standing then s
  else if x.imaged then
    let a := x.imagePa + 0x100000 + off / 64
    s.hardWrite x.core a [BitVec.ofNat 8 (putBit (s.mem.read a).toNat (off / 8 % 8) v)]
  else s.setBlock b { x with tags := x.tags.set false (off / 8) v }

/-- Scope block or narrower. -/
def Scope.narrow : Scope → Bool
  | .lane | .warp | .block => true
  | _ => false

/-- Bytes of the identity page as a port presents it (R446, R447). -/
def State.identity (s : State) (port off n : Nat) : List Byte :=
  (List.range n).map (fun i => Config.identityByte port s.ready s.measurements (off + i))

end Sys2Proof.Machine
end

