-- ==== Sys2Proof/Machine/Fetch.lean ====
section
/-!
DEFINITION. Instruction fetch (R38–R43): fill blocks in an instruction cache, the instruction at an address, its
sequential successor, and what a fill records.
-/
namespace Sys2Proof.Machine

/-- What a front end finds at a program counter. -/
inductive Fetched where
  /-- A block that is not in the cache: its address. -/
  | missing (va : Nat)
  /-- The block's fetch fault (R40). -/
  | fault (cause : Nat)
  /-- No instruction starts there (R41). -/
  | notStart
  /-- The instruction, or the fault recorded in it, and its sequential successor. -/
  | instr (r : Except DecodeError Instr) (next : Nat)

/-- The block of an address in a front end's cache. -/
def State.fillBlock (s : State) (fe asid va : Nat) : Option FillBlock :=
  (s.icaches.get [] fe).find? (fun b => b.asid == asid && b.va == va / 64 * 64)

/-- The instructions of a block. -/
def FillBlock.items (b : FillBlock) : List Item := if b.fault.isSome then [] else scanBlock b.parcels

/-- The first instruction start at or after a block's address (R41): a block without one is passed over, and one with a
fetch fault is reached at its address. `error` names a block that is not in the cache. -/
def State.firstStart (s : State) (fe asid : Nat) : Nat → Nat → Except Nat Nat
  | 0, va => .error va
  | fuel + 1, va =>
    match s.fillBlock fe asid va with
    | none => .error va
    | some b =>
      if b.fault.isSome then .ok va
      else match b.items with
        | it :: _ => .ok (va + 4 * it.start)
        | [] => s.firstStart fe asid fuel (va + 64)

/-- The instruction at an address. An address that is not a parcel's needs no fetch to be found wrong (R71). -/
def State.fetch (s : State) (fe asid : Nat) (sd : Side) (pc : Nat) : Fetched :=
  let va := pc / 64 * 64
  if pc % 4 != 0 then .notStart
  else match s.fillBlock fe asid va with
  | none => .missing va
  | some b =>
    match b.fault with
    | some c => .fault c
    | none =>
      match b.items.find? (fun it => va + 4 * it.start == pc) with
      | none => .notStart
      | some it =>
        match b.items.find? (fun x => it.start < x.start) with
        | some x => .instr (decodeItem sd it) (va + 4 * x.start)
        | none =>
          match s.firstStart fe asid ((s.icaches.get [] fe).length + 1) (va + 64) with
          | .ok n => .instr (decodeItem sd it) n
          | .error m => .missing m

/-- The next instruction start at or after an address, which sequential execution goes to (R41); `error` names a block that
is not in the cache. -/
def State.nextStart (s : State) (fe asid pc : Nat) : Except Nat Nat :=
  let va := pc / 64 * 64
  match s.fillBlock fe asid va with
  | none => .error va
  | some b => match b.items.find? (fun it => pc ≤ va + 4 * it.start) with
    | some it => .ok (va + 4 * it.start)
    | none => s.firstStart fe asid ((s.icaches.get [] fe).length + 1) (va + 64)

/-- The parcels of 64 bytes. -/
def parcelsOf (bs : List Byte) : List Nat := (List.range 16).map (fun i => ofBytes ((bs.drop (4 * i)).take 4))

/-- A block put into a cache in place of what it held of that address. -/
def State.putFill (s : State) (fe : Nat) (b : FillBlock) : State :=
  let rest := (s.icaches.get [] fe).filter (fun x => !(x.asid == b.asid && x.va == b.va))
  { s with icaches := s.icaches.set [] fe (b :: rest) }

/-- A block removed from a cache: a resumption after its fault fetches it again (R40). -/
def State.dropFill (s : State) (fe asid va : Nat) : State :=
  let rest := (s.icaches.get [] fe).filter (fun x => !(x.asid == asid && x.va == va / 64 * 64))
  { s with icaches := s.icaches.set [] fe rest }

/-- Die of a front end. -/
def frontDie (fe : Nat) : Nat := if fe < 384 then fe / 16 else (fe - 384) / 4

/-- A fill with the parcels that are fetched: those that `keep` names stay as at the last fill (R43). -/
def State.fillWith (s : State) (fe asid va keep : Nat) (new : List Nat) : State :=
  let kept := match s.fillBlock fe asid va with
    | some b => new.mapIdx (fun i p => if bit keep i then b.parcels.getD i p else p)
    | none => new
  s.putFill fe { asid := asid, va := va, parcels := kept, fault := none }

/-- A fill (R38–R40, R43). A line pinned in an L1 holds it up (R136). A peer's bytes are free values; a peer that no port
reaches refuses. -/
def State.fill (s : State) (fe asid va0 keep : Nat) (e : FillEnd) : State :=
  let va := va0 / 64 * 64
  let bad := fun (t : State) (c : Nat) => t.putFill fe { asid := asid, va := va, parcels := [], fault := some c }
  if isWindow va || 2 ^ 57 ≤ va then bad s 0x028
  else
    let (t, s1) := s.translate (frontDie fe) asid va
    match t with
    | none => bad s1 0x028
    | some y =>
      if !bit y.pte 3 then bad s1 0x029
      else match s1.placeOf y.pte (y.pa va) 64 {} with
      | .ok (.home pa _ ms) =>
        if s1.homeHeld pa ms then s1
        else if e = .uncorrectable then bad s1 0x02A
        else if ms then s1.fillWith fe asid va keep (parcelsOf (s1.msRead 64 pa))
        else (s1.atSlice pa (some asid) none).fillWith fe asid va keep (parcelsOf (s1.mem.readBytes 64 pa))
      | .ok (.self pa) =>
        if s1.homeHeld pa false then s1
        else if e = .uncorrectable then bad s1 0x02A
        else if e = .refused then bad s1 0x029
        else s1.fillWith fe asid va keep (parcelsOf (s1.mem.readBytes 64 pa))
      | .ok (.peer pa) =>
        if e = .refused || s1.strays pa || !s1.reaches then bad s1 0x029
        else if e = .uncorrectable then bad s1 0x02A
        else { s1 with free := s1.free + 16 }.fillWith fe asid va keep
          ((List.range 16).map (fun i => Config.freeValue (s1.free + i) % 2 ^ 32))
      | _ => bad s1 0x029

def execFillBlock (fe asid va keep : Nat) (e : FillEnd) (s : State) : Host.Outcome State Fault Refusal :=
  .next (s.fill fe asid va keep e)

/-! ## What a warp stands before -/

/-- The ASID of a warp. -/
def State.asidOf (s : State) (w : Nat) : Nat := (s.job (s.block (s.warp w).block).job).asid

/-- What a warp's group, at an address, would issue next. -/
def State.peekAt (s : State) (w pc : Nat) : Fetched :=
  s.fetch (s.block (s.warp w).block).core (s.asidOf w) .vector pc

/-- A chain is in progress (R35): the group's next instruction reads a latch and has its predecessor in this run. While
it is not in the cache, it may be such a one. So is an accumulator move that has begun. -/
def State.midChain (s : State) (w : Nat) : Bool :=
  let wp := s.warp w
  match wp.groupPc with
  | some (pc, true) =>
    !wp.part.cells.isEmpty || wp.inRun && (match s.peekAt w pc with
      | .instr (.ok i) _ => !i.isHead
      | .missing _ => true
      | _ => false)
  | _ => false

/-- The warp is at a head, or at no instruction: halts and handler entries that are due can be taken. -/
def State.atHead (s : State) (w : Nat) : Bool := !s.midChain w

end Sys2Proof.Machine
end

