-- ==== Sys2Proof/Machine/FloatFmt.lean ====
section
/-!
DEFINITION. Number formats (R97–R100) and rounding (R101, R102): patterns as exact rational values and back.
-/
namespace Sys2Proof.Machine

/-- What the all-ones exponent means (R97). -/
inductive TopExp where
  /-- Infinity and NaNs. -/
  | ieee
  /-- Normal values, but for mantissa all ones, a NaN: e4m3. -/
  | oneNan
  /-- Normal values. -/
  | normal
  deriving DecidableEq, Repr

/-- A floating-point format: exponent and mantissa widths. Its bias is `2 ^ (e − 1) − 1`. -/
structure FFmt where
  e : Nat
  m : Nat
  top : TopExp := .ieee
  deriving DecidableEq, Repr

def f32 : FFmt := { e := 8, m := 23 }
def f64 : FFmt := { e := 11, m := 52 }
def f16 : FFmt := { e := 5, m := 10 }
def bf16 : FFmt := { e := 8, m := 7 }
def fp19 : FFmt := { e := 8, m := 10 }
def e5m2 : FFmt := { e := 5, m := 2 }
def e4m3 : FFmt := { e := 4, m := 3, top := .oneNan }
def e3m2 : FFmt := { e := 3, m := 2, top := .normal }
def e2m3 : FFmt := { e := 2, m := 3, top := .normal }
def e2m1 : FFmt := { e := 2, m := 1, top := .normal }

/-- The formats of R27 for classes 0x2 and 0x3. -/
def fmtOf (fmt : Nat) : FFmt :=
  match fmt with
  | 0 => f32
  | 1 => f64
  | 2 => f16
  | _ => bf16

def FFmt.bias (f : FFmt) : Nat := 2 ^ (f.e - 1) - 1
def FFmt.signBit (f : FFmt) : Nat := 2 ^ (f.e + f.m)

/-- The pattern of the largest finite value. -/
def FFmt.maxPat (f : FFmt) : Nat :=
  match f.top with
  | .ieee => (2 ^ f.e - 1) * 2 ^ f.m - 1
  | .oneNan => 2 ^ (f.e + f.m) - 2
  | .normal => 2 ^ (f.e + f.m) - 1

def FFmt.hasInf (f : FFmt) : Bool := f.top == .ieee
def FFmt.infPat (f : FFmt) : Nat := (2 ^ f.e - 1) * 2 ^ f.m

/-- The canonical NaN (R98), of a format that has one. -/
def FFmt.nanPat (f : FFmt) : Option Nat :=
  match f.top with
  | .ieee => some ((2 ^ f.e - 1) * 2 ^ f.m + 2 ^ (f.m - 1))
  | .oneNan => some (2 ^ (f.e + f.m) - 1)
  | .normal => none

/-- An exact value: NaN (signalling or quiet), infinity, a signed zero, or ± num / den with num and den positive. -/
inductive FVal where
  | nan (sig : Bool)
  | inf (neg : Bool)
  | zero (neg : Bool)
  | fin (neg : Bool) (num den : Nat)
  deriving DecidableEq, Repr

/-- A pattern's value (R97). -/
def FFmt.decode (f : FFmt) (p : Nat) : FVal :=
  let neg := bit p (f.e + f.m)
  let ex := bits p f.m f.e
  let mt := bits p 0 f.m
  let allOnes := ex == 2 ^ f.e - 1
  if f.top == .ieee && allOnes then
    if mt = 0 then .inf neg else .nan (!bit mt (f.m - 1))
  else if f.top == .oneNan && allOnes && mt == 2 ^ f.m - 1 then .nan false
  else
    let k := if ex = 0 then mt else 2 ^ f.m + mt
    let up := Nat.max ex 1
    let dn := f.bias + f.m
    if k = 0 then .zero neg
    else if dn ≤ up then .fin neg (k * 2 ^ (up - dn)) 1
    else .fin neg k (2 ^ (dn - up))

/-- e8m0 (R100): a scale's value. -/
def e8m0Val (p : Nat) : FVal :=
  if p = 0xFF then .nan false
  else if 127 ≤ p then .fin false (2 ^ (p - 127)) 1 else .fin false 1 (2 ^ (127 - p))

/-- ue5m3 (R100): no sign, and only 0xFF is a NaN. -/
def ue5m3Val (p : Nat) : FVal :=
  if p = 0xFF then .nan false
  else
    let ex := p / 8
    let k := if ex = 0 then p % 8 else 8 + p % 8
    if k = 0 then .zero false else .fin false (k * 2 ^ Nat.max ex 1) (2 ^ 18)

def FVal.isSig : FVal → Bool
  | .nan s => s
  | _ => false

def FVal.isNan : FVal → Bool
  | .nan _ => true
  | _ => false

def FVal.isInf : FVal → Bool
  | .inf _ => true
  | _ => false

def FVal.isZero : FVal → Bool
  | .zero _ => true
  | _ => false

def FVal.neg : FVal → FVal
  | .nan s => .nan s
  | .inf n => .inf !n
  | .zero n => .zero !n
  | .fin n a b => .fin (!n) a b

def FVal.isNeg : FVal → Bool
  | .nan _ => false
  | .inf n | .zero n | .fin n _ _ => n

/-- A finite value as a signed fraction. -/
def FVal.toFrac : FVal → Int × Nat
  | .fin n a b => (if n then -(a : Int) else a, b)
  | _ => (0, 1)

/-- An exact fraction as a value; a zero takes the sign given. -/
def ofFrac (num : Int) (den : Nat) (zneg : Bool) : FVal :=
  if num = 0 then .zero zneg else .fin (num < 0) num.natAbs den

/-- An integer as a value. -/
def ofInt (x : Int) : FVal := ofFrac x 1 false

/-! ## Rounding (R101) -/

/-- The mode of an instruction: DYN is the lane's rmode (R101, R103). -/
def resolveRm (rm : Rm) (fflags : BitVec 32) : Rm :=
  match rm with
  | .dyn =>
    match rmodeOf fflags with
    | 0 => .rne
    | 1 => .rtz
    | 2 => .rdn
    | 3 => .rup
    | 4 => .rna
    | _ => .stoch
  | r => r

/-- Whether the mode takes the neighbour of greater magnitude, for a magnitude of `k + r / d` units with 0 < r < d. -/
def roundsUp (mode : Rm) (neg : Bool) (k r d draw : Nat) : Bool :=
  match mode with
  | .rne => d < 2 * r || (2 * r == d && k % 2 == 1)
  | .rtz => false
  | .rdn => neg
  | .rup => !neg
  | .rna => d ≤ 2 * r
  | .stoch => if neg then !(draw < 65536 * (d - r) / d) else draw < 65536 * r / d
  | .dyn => false

/-- A magnitude num / den in units of 2 ^ q, rounded: the count of units, and whether it is exact. -/
def roundUnits (mode : Rm) (neg : Bool) (num den draw : Nat) (q : Int) : Nat × Bool :=
  let n := if q < 0 then num * 2 ^ (-q).toNat else num
  let d := if q < 0 then den else den * 2 ^ q.toNat
  let k := n / d
  let r := n % d
  if r = 0 then (k, true) else (if roundsUp mode neg k r d draw then k + 1 else k, false)

/-- Floor(log₂(num / den)). -/
def floorLog2 (num den : Nat) : Int :=
  let l : Int := (Nat.log2 num : Int) - (Nat.log2 den : Int)
  let ge := if 0 ≤ l then den * 2 ^ l.toNat ≤ num else den ≤ num * 2 ^ (-l).toNat
  if ge then l else l - 1

/-- Whether k units of 2 ^ q lie below the smallest normal. -/
def belowNormal (f : FFmt) (k : Nat) (q : Int) : Bool :=
  let s : Int := q - (1 - (f.bias : Int))
  if s < 0 then k < 2 ^ (-s).toNat else k = 0

/-- The pattern that replaces a result above the largest finite value (R101). -/
def overflowPat (f : FFmt) (mode : Rm) (neg : Bool) : Nat :=
  let sign := if neg then f.signBit else 0
  let inf := match mode with
    | .rne | .rna | .stoch | .dyn => true
    | .rtz => false
    | .rdn => neg
    | .rup => !neg
  sign + (if f.hasInf && inf then f.infPat else f.maxPat)

/-- Round a value to a format (R101), with the mode resolved and the draw given: the pattern and the flags. -/
def roundVal (f : FFmt) (x : FVal) (mode : Rm) (draw : Nat) : Nat × Flags :=
  match x with
  | .nan _ => match f.nanPat with
    | some p => (p, {})
    | none => (f.maxPat, { invalid := true })
  | .inf n =>
    let sign := if n then f.signBit else 0
    if f.hasInf then (sign + f.infPat, {}) else (sign + f.maxPat, { invalid := true })
  | .zero n => (if n then f.signBit else 0, {})
  | .fin neg num den =>
    let sign := if neg then f.signBit else 0
    let ex := floorLog2 num den
    let qMin : Int := 1 - (f.bias : Int) - f.m
    let qFree : Int := ex - f.m
    let q := if qFree < qMin then qMin else qFree
    let (k, exact) := roundUnits mode neg num den draw q
    let free := roundUnits mode neg num den draw qFree
    let tiny := belowNormal f free.1 qFree
    -- the field E is q + m + bias, and a carry out of the mantissa goes into it
    let pat := (q + f.m + (f.bias : Int) - 1).toNat * 2 ^ f.m + k
    if f.maxPat < pat then (overflowPat f mode neg, { overflow := true, inexact := true })
    else (sign + pat, { inexact := !exact, underflow := !exact && tiny })

/-- A lane's draw (R102): its generator steps under STOCH. -/
def stepIf (mode : Rm) (rng : BitVec 32) : BitVec 32 :=
  match mode with
  | .stoch => stepRng rng
  | _ => rng

/-- Round with a lane's flags and generator (R6): the pattern, the flags and the generator after. -/
def roundLane (f : FFmt) (x : FVal) (rm : Rm) (fflags rng : BitVec 32) : Nat × Flags × BitVec 32 :=
  let mode := resolveRm rm fflags
  let rng' := stepIf mode rng
  let r := roundVal f x mode (drawOf rng')
  (r.1, r.2, rng')

/-- An integer chosen from the neighbours of a finite value by a mode's rule (R460), and whether it is exact. -/
def roundToInt (x : FVal) (mode : Rm) (draw : Nat) : Int × Bool :=
  match x with
  | .fin neg num den =>
    let (k, exact) := roundUnits mode neg num den draw 0
    (if neg then -(k : Int) else k, exact)
  | _ => (0, true)

/-! ## Exact arithmetic (R104) -/

/-- An exact product, and whether it is an invalid operation. -/
def mulVal (x y : FVal) : FVal × Bool :=
  match x, y with
  | .nan _, _ => (.nan false, false)
  | _, .nan _ => (.nan false, false)
  | .inf a, y => if y.isZero then (.nan false, true) else (.inf (a != y.isNeg), false)
  | x, .inf b => if x.isZero then (.nan false, true) else (.inf (x.isNeg != b), false)
  | .zero a, y => (.zero (a != y.isNeg), false)
  | x, .zero b => (.zero (x.isNeg != b), false)
  | .fin a n d, .fin b n' d' => (.fin (a != b) (n * n') (d * d'), false)

/-- An exact sum of two fractions, over the greater denominator where it serves both. -/
def fracAdd (a b : Int × Nat) : Int × Nat :=
  if b.2 % a.2 = 0 then (a.1 * (b.2 / a.2 : Nat) + b.1, b.2)
  else if a.2 % b.2 = 0 then (a.1 + b.1 * (a.2 / b.2 : Nat), a.2)
  else (a.1 * b.2 + b.1 * a.2, a.2 * b.2)

/-- An exact sum of terms (R104, R291), and whether it is an invalid operation: infinities of both signs are one, also
beside a NaN. `rdn` gives the sign of an exact zero. -/
def sumVals (l : List FVal) (rdn : Bool) : FVal × Bool :=
  if l.any (fun x => x.isInf && x.isNeg) && l.any (fun x => x.isInf && !x.isNeg) then (.nan false, true)
  else if l.any FVal.isNan then (.nan false, false)
  else match l.find? FVal.isInf with
  | some i => (i, false)
  | none =>
    if l.all FVal.isZero && l.all FVal.isNeg then (.zero true, false)
    else if l.all FVal.isZero && l.all (fun x => !x.isNeg) then (.zero false, false)
    else
      let t := l.foldl (fun (a : Int × Nat) x => fracAdd a x.toFrac) (0, 1)
      (ofFrac t.1 t.2 rdn, false)

/-- `x` times a power of two. -/
def scaleVal (x : FVal) (n : Int) : FVal :=
  match x with
  | .fin s a b => if 0 ≤ n then .fin s (a * 2 ^ n.toNat) b else .fin s a (b * 2 ^ (-n).toNat)
  | x => x

/-- Order of two values that are not NaNs. -/
def lessVal (x y : FVal) : Bool :=
  match x, y with
  | .inf a, .inf b => a && !b
  | .inf a, _ => a
  | _, .inf b => !b
  | x, y => x.toFrac.1 * y.toFrac.2 < y.toFrac.1 * x.toFrac.2

def eqVal (x y : FVal) : Bool :=
  match x, y with
  | .inf a, .inf b => a == b
  | .inf _, _ => false
  | _, .inf _ => false
  | x, y => x.toFrac.1 * y.toFrac.2 == y.toFrac.1 * x.toFrac.2

end Sys2Proof.Machine
end

