-- ==== Sys2Proof/Machine/FloatFn.lean ====
section
/-!
DEFINITION. Roots and transcendental functions (R112, R113) on exact values. A value that is not a fraction is given by
one that lies between the same neighbours of every format: a fixed-point value of many bits with one more bit set, so
that it is never itself a format's value or a midpoint (a DEDUCED reading of "correctly rounded", see the log).
-/
namespace Sys2Proof.Machine

/-- Fraction bits of the fixed-point values below. -/
def fixBits : Nat := 640

/-- π and ln 2 with `fixBits` fraction bits, cut off. -/
def piFix : Nat :=
  0x3243f6a8885a308d313198a2e03707344a4093822299f31d0082efa98ec4e6c89452821e638d01377be5466cf34e90c6cc0ac29b7c97c50dd3f84d5b5b54709179216d5d98979fb1bd1310ba698dfb5ac
def ln2Fix : Nat :=
  0xb17217f7d1cf79abc9e3b39803f2f6af40f343267298b62d8a0d175b8baafa2be7b876206debac98559552fb4afa1b10ed2eae35c138214427573b291169b8253e96ca16224ae8c51acbda11317c387e

/-- The product of two fixed-point values, cut off. -/
def mulFix (a b : Nat) : Nat := a * b / 2 ^ fixBits

/-- The quotient of two, cut off. -/
def divFix (a b : Nat) : Nat := a * 2 ^ fixBits / b

/-- A fraction as a fixed-point value, cut off. -/
def toFix (num den : Nat) : Nat := num * 2 ^ fixBits / den

/-- An inexact fixed-point value as a value: half a unit more, so that it lies strictly between neighbours. -/
def ofFix (neg : Bool) (x : Nat) : FVal := .fin neg (2 * x + 1) (2 ^ (fixBits + 1))

/-- Integer square root: bits from `2 ^ i` down to 1 tried in turn. -/
def isqrtBits : Nat → Nat → Nat → Nat
  | 0, _, r => r
  | i + 1, n, r => isqrtBits i n (if (r + 2 ^ i) * (r + 2 ^ i) ≤ n then r + 2 ^ i else r)

def isqrt (n : Nat) : Nat := isqrtBits (Nat.log2 n / 2 + 1) n 0

/-- √(num / den). -/
def sqrtFrac (num den : Nat) : FVal :=
  -- enough bits after the point for 100 significant bits of the root
  let p := 100 + (Nat.log2 den - Nat.log2 num) / 2 + 1
  let t := num * 4 ^ p / den
  let q := isqrt t
  if q * q = t ∧ num * 4 ^ p % den = 0 then .fin false q (2 ^ p) else .fin false (2 * q + 1) (2 ^ (p + 1))

/-- Σ xⁿ / n! from term `k`, at most `fuel` terms: `t` is the term before it. -/
def expTerms : Nat → Nat → Nat → Nat → Nat
  | 0, _, _, _ => 0
  | fuel + 1, x, t, k =>
    let t' := mulFix t x / k
    if t' = 0 then 0 else t' + expTerms fuel x t' (k + 1)

/-- eˣ of a fixed-point x below 2. -/
def expFix (x : Nat) : Nat := 2 ^ fixBits + expTerms 200 x (2 ^ fixBits) 1

/-- The alternating series Σ (−1)ⁿ x^(2n + k) / (2n + k)!, given its previous term: the sum of positive terms and of
negative ones. -/
def trigTerms : Nat → Nat → Nat → Nat → Bool → Nat × Nat → Nat × Nat
  | 0, _, _, _, _, acc => acc
  | fuel + 1, x2, t, k, neg, acc =>
    let t' := mulFix t x2 / (k * (k + 1))
    if t' = 0 then acc
    else trigTerms fuel x2 t' (k + 2) (!neg) (if neg then (acc.1, acc.2 + t') else (acc.1 + t', acc.2))

/-- sin and cos of a fixed-point angle below 2. -/
def sinFix (y : Nat) : Nat :=
  let r := trigTerms 120 (mulFix y y) y 2 true (y, 0)
  r.1 - r.2
def cosFix (y : Nat) : Nat :=
  let r := trigTerms 120 (mulFix y y) (2 ^ fixBits) 1 true (2 ^ fixBits, 0)
  r.1 - r.2

/-- Σ z^(2n + 1) / (2n + 1): atanh of a fixed-point z of at most 1/3. -/
def atanhTerms : Nat → Nat → Nat → Nat → Nat
  | 0, _, _, _ => 0
  | fuel + 1, z2, t, k => if t = 0 then 0 else t / k + atanhTerms fuel z2 (mulFix t z2) (k + 2)

/-- 2ˣ of a signed fraction, not an integer. -/
def exp2Frac (neg : Bool) (num den : Nat) : FVal :=
  let i := num / den
  let r := num % den
  -- the integer part, bounded: beyond it every format overflows or rounds to zero or its smallest value
  let n := Nat.min i 4096
  if neg then scaleVal (ofFix false (expFix (mulFix (toFix (den - r) den) ln2Fix))) (-((n : Int) + 1))
  else scaleVal (ofFix false (expFix (mulFix (toFix r den) ln2Fix))) n

/-- log₂ of a fraction that is no power of two. -/
def log2Frac (num den : Nat) : FVal :=
  let e := floorLog2 num den
  -- y = num / den / 2 ^ e lies in (1, 2)
  let a := if e < 0 then num * 2 ^ (-e).toNat else num
  let b := if e < 0 then den else den * 2 ^ e.toNat
  let z := toFix (a - b) (a + b)
  let l := divFix (2 * atanhTerms 250 (mulFix z z) z 1) ln2Fix
  if 0 ≤ e then ofFix false (e.toNat * 2 ^ fixBits + l)
  else ofFix true ((-e).toNat * 2 ^ fixBits - l - 1)

/-- Whether a fraction is a power of two. -/
def isPow2 (num den : Nat) : Bool :=
  let e := floorLog2 num den
  if e < 0 then num * 2 ^ (-e).toNat == den else num == den * 2 ^ e.toNat

/-- sin(π·t) for a fraction t of 0 up to 2 (R113): exact values as they are. -/
def sinPi (num den : Nat) : FVal :=
  let q := 2 * num / den
  let r := 2 * num % den
  -- t = q / 2 + r / (2·den)
  let y := mulFix (toFix r (2 * den)) piFix
  match q % 4 with
  | 0 => if r = 0 then .zero false else ofFix false (sinFix y)
  | 1 => if r = 0 then .fin false 1 1 else ofFix false (cosFix y)
  | 2 => if r = 0 then .zero false else ofFix true (sinFix y)
  | _ => if r = 0 then .fin true 1 1 else ofFix true (cosFix y)

/-- tanh of a fraction. -/
def tanhFrac (neg : Bool) (num den : Nat) : FVal :=
  if 100 * den ≤ num then .fin neg (2 ^ 256 - 1) (2 ^ 256)
  else
    let t := toFix (2 * num) den
    let n := t / ln2Fix
    let ex := expFix (t % ln2Fix) * 2 ^ n
    ofFix neg (divFix (ex - 2 ^ fixBits) (ex + 2 ^ fixBits))

/-! ## The functions of R112 with the special operands of R113 and the flags of R104 -/

/-- A value with the flags that it raises before rounding. -/
abbrev FRes := FVal × Flags

def invalidNan : FRes := (.nan false, { invalid := true })

def divVal (x y : FVal) : FRes :=
  match x, y with
  | .nan _, _ => (.nan false, {})
  | _, .nan _ => (.nan false, {})
  | .inf a, y => if y.isInf then invalidNan else (.inf (a != y.isNeg), {})
  | x, .inf b => (.zero (x.isNeg != b), {})
  | .zero a, y => if y.isZero then invalidNan else (.zero (a != y.isNeg), {})
  | x, .zero b => (.inf (x.isNeg != b), { dz := true })
  | .fin a n d, .fin b n' d' => (.fin (a != b) (n * d') (d * n'), {})

def rcpVal (x : FVal) : FRes := divVal (.fin false 1 1) x

def sqrtVal (x : FVal) : FRes :=
  match x with
  | .nan _ => (.nan false, {})
  | .inf n => if n then invalidNan else (.inf false, {})
  | .zero n => (.zero n, {})
  | .fin n a b => if n then invalidNan else (sqrtFrac a b, {})

def rsqVal (x : FVal) : FRes :=
  match x with
  | .nan _ => (.nan false, {})
  | .inf n => if n then invalidNan else (.zero false, {})
  | .zero n => (.inf n, { dz := true })
  | .fin n a b => if n then invalidNan else (sqrtFrac b a, {})

def exp2Val (x : FVal) : FRes :=
  match x with
  | .nan _ => (.nan false, {})
  | .inf n => (if n then .zero false else .inf false, {})
  | .zero _ => (.fin false 1 1, {})
  | .fin n a b =>
    if a % b = 0 then (scaleVal (.fin false 1 1) (if n then -(Nat.min (a / b) 4096 : Nat) else (Nat.min (a / b) 4096 : Nat)), {})
    else (exp2Frac n a b, {})

def log2Val (x : FVal) : FRes :=
  match x with
  | .nan _ => (.nan false, {})
  | .inf n => if n then invalidNan else (.inf false, {})
  | .zero _ => (.inf true, { dz := true })
  | .fin n a b =>
    if n then invalidNan
    else if isPow2 a b then (ofInt (floorLog2 a b), {})
    else (log2Frac a b, {})

def sinVal (x : FVal) : FRes :=
  match x with
  | .nan _ => (.nan false, {})
  | .inf _ => invalidNan
  | .zero n => (.zero n, {})
  | .fin n a b =>
    let v := sinPi (a % (2 * b)) b
    (if n then v.neg else v, {})

def cosVal (x : FVal) : FRes :=
  match x with
  | .nan _ => (.nan false, {})
  | .inf _ => invalidNan
  | .zero _ => (.fin false 1 1, {})
  -- cos(π·x) = sin(π·(x + 1/2))
  | .fin _ a b => (sinPi ((2 * a + b) % (4 * b)) (2 * b), {})

def tanhVal (x : FVal) : FRes :=
  match x with
  | .nan _ => (.nan false, {})
  | .inf n => (.fin n 1 1, {})
  | .zero n => (.zero n, {})
  | .fin n a b => (tanhFrac n a b, {})

end Sys2Proof.Machine
end

