-- ==== Sys2Proof/Machine/Float.lean ====
section
/-!
DEFINITION. The floating-point instructions of classes 0x2 and 0x3 but for conversions (R104–R113).
-/
namespace Sys2Proof.Machine

/-- The pattern of an immediate in a format (R28). -/
def floatImm (fmt : Nat) (i : Imm) : Nat :=
  let v := match i with
    | .short n => f32.decode (n % 2 ^ 20 * 2 ^ 12)
    | .long n => f64.decode (n % 2 ^ 48 * 2 ^ 16)
  (roundVal (fmtOf fmt) v .rne 0).1

/-- A rounded element: the flags of the operation, of a signalling operand (R104) and of Round. -/
def roundElem (f : FFmt) (r : FRes) (sig : Bool) (rm : Rm) (ff rg : BitVec 32) : ElemOut :=
  let q := roundLane f r.1 rm ff rg
  { val := q.1, fl := (r.2.or { invalid := sig }).or q.2.1, rng := q.2.2 }

/-- An exact operation: operands, and whether the mode rounds down (the sign of an exact zero sum). -/
abbrev FloatOp := FVal → FVal → FVal → Bool → FRes

/-- The flags of an operation that answers whether it was invalid. -/
def ofInvalid (r : FVal × Bool) : FRes := (r.1, { invalid := r.2 })

def opAdd : FloatOp := fun x y _ rdn => ofInvalid (sumVals [x, y] rdn)
def opSub : FloatOp := fun x y _ rdn => ofInvalid (sumVals [x, y.neg] rdn)
def opMul : FloatOp := fun x y _ _ => ofInvalid (mulVal x y)
def opFma : FloatOp := fun x y z rdn =>
  let p := mulVal x y
  let t := sumVals [p.1, z] rdn
  (t.1, { invalid := p.2 || t.2 })
def opDiv : FloatOp := fun x y _ _ => divVal x y
def opUn (f : FVal → FRes) : FloatOp := fun x _ _ _ => f x

/-- An element of an operation on patterns: `n` operands are read. -/
def floatElem (f : FFmt) (op : FloatOp) (n : Nat) (px py pz : Nat) (rm : Rm) (ff rg : BitVec 32) : ElemOut :=
  let x := f.decode px
  let y := f.decode py
  let z := f.decode pz
  let rdn := resolveRm rm ff == .rdn
  roundElem f (op x y z rdn) (x.isSig || (1 < n && y.isSig) || (2 < n && z.isSig)) rm ff rg

/-- Source b of a floating-point vector instruction in one element. -/
def Warp.floatB (wp : Warp) (x : Alu) (l k : Nat) : Nat := wp.srcB x.b (floatImm x.fmt) (floatWidth x.fmt) l k

/-- An element of an instruction of `n` operands that rounds once (R108, R112). -/
def floatOpElem (x : Alu) (op : FloatOp) (n : Nat) (wp : Warp) : ElemFn := fun l k ff rg =>
  floatElem (fmtOf x.fmt) op n (subOf (wp.opndV x.a l) (floatWidth x.fmt) k) (wp.floatB x l k)
    (subOf (wp.opndV x.c l) (floatWidth x.fmt) k) x.vx.rm ff rg

def floatVec (x : Alu) (elig : Bool) (op : FloatOp) (n : Nat) (w : Nat) (s : State) : Res :=
  vecOp x elig (floatWidth x.fmt) (floatOpElem x op n) w s

def execFadd (x : Alu) (s : State) : Answer := onWarp (.fadd x) (floatVec x true opAdd 2) s
def execFsub (x : Alu) (s : State) : Answer := onWarp (.fsub x) (floatVec x true opSub 2) s
def execFmul (x : Alu) (s : State) : Answer := onWarp (.fmul x) (floatVec x true opMul 2) s
def execFfma (x : Alu) (s : State) : Answer := onWarp (.ffma x) (floatVec x true opFma 3) s
def execFdiv (x : Alu) (s : State) : Answer := onWarp (.fdiv x) (floatVec x false opDiv 2) s
def execFsqrt (x : Alu) (s : State) : Answer := onWarp (.fsqrt x) (floatVec x false (opUn sqrtVal) 1) s
def execFrcp (x : Alu) (s : State) : Answer := onWarp (.frcp x) (floatVec x false (opUn rcpVal) 1) s
def execFrsq (x : Alu) (s : State) : Answer := onWarp (.frsq x) (floatVec x false (opUn rsqVal) 1) s
def execFexp2 (x : Alu) (s : State) : Answer := onWarp (.fexp2 x) (floatVec x false (opUn exp2Val) 1) s
def execFlog2 (x : Alu) (s : State) : Answer := onWarp (.flog2 x) (floatVec x false (opUn log2Val) 1) s
def execFsin (x : Alu) (s : State) : Answer := onWarp (.fsin x) (floatVec x false (opUn sinVal) 1) s
def execFcos (x : Alu) (s : State) : Answer := onWarp (.fcos x) (floatVec x false (opUn cosVal) 1) s
def execFtanh (x : Alu) (s : State) : Answer := onWarp (.ftanh x) (floatVec x false (opUn tanhVal) 1) s

/-! ## FMIN, FMAX, FABS, FNEG, FCLASS (R108, R111) -/

/-- A value that is no NaN below another, −0 below +0. -/
def lessTotal (x y : FVal) : Bool := lessVal x y || (x.isZero && y.isZero && x.isNeg && !y.isNeg)

/-- minimumNumber (`mx = false`) or maximumNumber of two patterns. -/
def minMaxPat (f : FFmt) (mx : Bool) (px py : Nat) : Nat × Flags :=
  let x := f.decode px
  let y := f.decode py
  let fl : Flags := { invalid := x.isSig || y.isSig }
  if x.isNan && y.isNan then (f.nanPat.getD 0, fl)
  else if x.isNan then (py, fl)
  else if y.isNan then (px, fl)
  else if mx then (if lessTotal x y then py else px, fl)
  else (if lessTotal y x then py else px, fl)

/-- An element of an operation on patterns that rounds nothing. -/
def patElem (x : Alu) (op : FFmt → Nat → Nat → Nat × Flags) (wp : Warp) : ElemFn := fun l k _ rg =>
  let r := op (fmtOf x.fmt) (subOf (wp.opndV x.a l) (floatWidth x.fmt) k) (wp.floatB x l k)
  { val := r.1, fl := r.2, rng := rg }

def patVec (x : Alu) (op : FFmt → Nat → Nat → Nat × Flags) (w : Nat) (s : State) : Res :=
  vecOp x true (floatWidth x.fmt) (patElem x op) w s

def absPat (f : FFmt) (px _py : Nat) : Nat × Flags := (px % f.signBit, {})
def negPat (f : FFmt) (px _py : Nat) : Nat × Flags :=
  (if bit px (f.e + f.m) then px % f.signBit else px % f.signBit + f.signBit, {})

/-- The bit of a value's class (R111). -/
def classBit (f : FFmt) (p : Nat) : Nat :=
  match f.decode p with
  | .inf n => if n then 0 else 7
  | .zero n => if n then 3 else 4
  | .nan sig => if sig then 8 else 9
  | .fin n _ _ => if bits p f.m f.e = 0 then (if n then 2 else 5) else if n then 1 else 6

def classPat (f : FFmt) (px _py : Nat) : Nat × Flags := (2 ^ classBit f px, {})

def execFmin (x : Alu) (s : State) : Answer := onWarp (.fmin x) (patVec x (fun f a b => minMaxPat f false a b)) s
def execFmax (x : Alu) (s : State) : Answer := onWarp (.fmax x) (patVec x (fun f a b => minMaxPat f true a b)) s
def execFabs (x : Alu) (s : State) : Answer := onWarp (.fabs x) (patVec x absPat) s
def execFneg (x : Alu) (s : State) : Answer := onWarp (.fneg x) (patVec x negPat) s
def execFclass (x : Alu) (s : State) : Answer := onWarp (.fclass x) (patVec x classPat) s

/-! ## FRND, FSCALE (R108) -/

/-- FRND's element (R460: one step of the generator, at IntegralPart). -/
def frndElem (f : FFmt) (p : Nat) (rm : Rm) (ff rg : BitVec 32) : ElemOut :=
  let mode := resolveRm rm ff
  let rg' := stepIf mode rg
  match f.decode p with
  | .nan sig => { val := f.nanPat.getD 0, fl := { invalid := sig }, rng := rg' }
  | .fin n a b =>
    let q := roundToInt (.fin n a b) mode (drawOf rg')
    { val := (roundVal f (ofFrac q.1 1 n) .rne 0).1, fl := { inexact := !q.2 }, rng := rg' }
  | _ => { val := p, rng := rg' }

def frndLane (x : Alu) (wp : Warp) : ElemFn := fun l k ff rg =>
  frndElem (fmtOf x.fmt) (subOf (wp.opndV x.a l) (floatWidth x.fmt) k) x.vx.rm ff rg

def frndVec (x : Alu) (w : Nat) (s : State) : Res := vecOp x true (floatWidth x.fmt) (frndLane x) w s

def execFrnd (x : Alu) (s : State) : Answer := onWarp (.frnd x) (frndVec x) s

/-- FSCALE's element. Beyond ± 8,192 the count changes no result: every format has overflowed or underflowed. -/
def fscaleElem (f : FFmt) (p : Nat) (n : Int) (rm : Rm) (ff rg : BitVec 32) : ElemOut :=
  let x := f.decode p
  roundElem f (scaleVal x (clampInt (-8192) 8192 n), {}) x.isSig rm ff rg

def fscaleLane (x : Alu) (wp : Warp) : ElemFn := fun l k ff rg =>
  fscaleElem (fmtOf x.fmt) (subOf (wp.opndV x.a l) (floatWidth x.fmt) k)
    (match x.b with
     | .imm i => i.val
     | b => sext (floatWidth x.fmt) (wp.srcB b (fun _ => 0) (floatWidth x.fmt) l k)) x.vx.rm ff rg

def fscaleVec (x : Alu) (w : Nat) (s : State) : Res := vecOp x true (floatWidth x.fmt) (fscaleLane x) w s

def execFscale (x : Alu) (s : State) : Answer := onWarp (.fscale x) (fscaleVec x) s

/-! ## FDOT2, FDOT4 (R109) -/

/-- Products of pairs of patterns and an addend, summed exactly and rounded once in the result format. -/
def dotElem (src dst : FFmt) (l : List (Nat × Nat)) (c : Nat) (rm : Rm) (ff rg : BitVec 32) : ElemOut :=
  let ps := l.map (fun (e : Nat × Nat) => mulVal (src.decode e.1) (src.decode e.2))
  let z := dst.decode c
  let t := sumVals (ps.map (·.1) ++ [z]) (resolveRm rm ff == .rdn)
  roundElem dst (t.1, { invalid := t.2 || ps.any (·.2) })
    (z.isSig || l.any (fun e => (src.decode e.1).isSig || (src.decode e.2).isSig)) rm ff rg

/-- Pairs of source elements `i`, …, `i + n − 1`. -/
def Warp.dotPairs (wp : Warp) (x : Alu) (wd l i n : Nat) : List (Nat × Nat) :=
  (List.range n).map (fun k => (subOf (wp.opndV x.a l) wd (i + k), wp.srcB x.b (fun _ => 0) wd l (i + k)))

def fdot2Lane (x : Alu) (wp : Warp) : ElemFn := fun l j ff rg =>
  let wd := floatWidth x.fmt
  dotElem (fmtOf x.fmt) (if x.fmt = 0 then f64 else f32) (wp.dotPairs x wd l (2 * j) 2) (subOf (wp.opndV x.c l) (2 * wd) j)
    x.vx.rm ff rg

def fdot2Vec (x : Alu) (w : Nat) (s : State) : Res := vecOp x true (2 * floatWidth x.fmt) (fdot2Lane x) w s

def fdot4Lane (x : Alu) (wp : Warp) : ElemFn := fun l j ff rg =>
  if j = 0 then dotElem (fmtOf x.fmt) f32 (wp.dotPairs x 16 l 0 4) (subOf (wp.opndV x.c l) 32 0) x.vx.rm ff rg
  else { val := 0, rng := rg }

def fdot4Vec (x : Alu) (w : Nat) (s : State) : Res := vecOp x true 32 (fdot4Lane x) w s

def execFdot2 (x : Alu) (s : State) : Answer := onWarp (.fdot2 x) (fdot2Vec x) s
def execFdot4 (x : Alu) (s : State) : Answer := onWarp (.fdot4 x) (fdot4Vec x) s

/-! ## FCMP (R110) -/

/-- A condition of R110, and whether it is invalid. -/
def fcmpHolds (c : Nat) (x y : FVal) : Bool × Bool :=
  let un := x.isNan || y.isNan
  let sig := x.isSig || y.isSig
  match c with
  | 0 => (!un && eqVal x y, sig)
  | 1 => (un || !eqVal x y, sig)
  | 2 => (!un && lessVal x y, un)
  | 3 => (!un && (lessVal x y || eqVal x y), un)
  | 4 => (!un && lessVal y x, un)
  | 5 => (!un && (lessVal y x || eqVal x y), un)
  | 6 => (un, sig)
  | _ => (!un, sig)

def fcmpVec (x : Alu) (w : Nat) (s : State) : Res :=
  let wd := floatWidth x.fmt
  let f := fmtOf x.fmt
  let wp := s.warp w
  let r := fun l k => fcmpHolds (x.cmpCond true) (f.decode (subOf (wp.opndV x.a l) wd k))
    (f.decode (wp.floatB x l k))
  let outs := vecRun wp x wd id (64 / wd) (fun l k _ rg => { val := 0, fl := { invalid := (r l k).2 }, rng := rg })
  let w1 := wp.takeFlags outs true
  match (if s.defers w then none else vecFault wp outs) with
  | some (c, l) => .trap { cause := c, lane := l } (s.setWarp w w1)
  | none => .ok (s.setWarp w (w1.writeCond x (64 / wd) (fun l k => (r l k).1)))

def execFcmp (x : Alu) (s : State) : Answer := onWarp (.fcmp x) (fcmpVec x) s

end Sys2Proof.Machine
end

