-- ==== Sys2Proof/Machine/Tensor.lean ====
section
/-!
DEFINITION. Tensor layout records (R237–R241) and the pieces that a copy moves (R246–R250): the checks of a record, the
addresses of a box's positions and where they lie in scratchpad.
-/
namespace Sys2Proof.Machine

/-! ## Records -/

/-- A tensor layout record (R237). -/
structure TRec where
  base : Nat
  dims : List Nat
  strides : List Nat
  fill : Nat
  ctl : Nat

def TRec.of (bs : List Byte) : TRec :=
  let f := fun (off n : Nat) => ofBytes ((bs.drop off).take n)
  { base := f 0 8, dims := (List.range 5).map (fun i => f (8 + 4 * i) 4)
    strides := (List.range 4).map (fun i => f (0x1C + 5 * i) 5), fill := f 0x30 8, ctl := f 0x38 8 }

def TRec.rank (r : TRec) : Nat := bits r.ctl 0 3
def TRec.esz (r : TRec) : Nat := 2 ^ bits r.ctl 3 2
def TRec.efmt (r : TRec) : Nat := bits r.ctl 48 5
def TRec.dim (r : TRec) (i : Nat) : Nat := r.dims.getD i 0
/-- Box extent of a dimension. -/
def TRec.box (r : TRec) (i : Nat) : Nat := bits r.ctl (8 + 8 * i) 8 + 1
/-- Stride of dimension `i`, 1 to 4. -/
def TRec.stride (r : TRec) (i : Nat) : Nat := r.strides.getD (i - 1) 0

/-- Bytes of the box. -/
def TRec.bytes (r : TRec) : Nat := (List.range r.rank).foldl (fun a i => a * r.box i) r.esz

/-- Bytes in a row of a skewed layout, granules of a row, and the period (R240). -/
def TRec.row (r : TRec) : Nat := 32 * 2 ^ bits r.ctl 5 2
def TRec.skewed (r : TRec) : Bool := bits r.ctl 5 2 != 0
def TRec.period (r : TRec) : Nat := r.row * (r.row / 16)

/-- `Skw(o)` (R240). -/
def TRec.skw (r : TRec) (o : Nat) : Nat :=
  if !r.skewed then o
  else
    let u := r.row
    let g := u / 16
    let row := o / u
    row * u + ((o % u / 16 + row % g) % g) * 16 + o % 16

/-- Width in bytes of a CVT code, as a record's element format (R99, R114, R237), if it has one. -/
def efmtBytes (code : Nat) : Option Nat :=
  match code with
  | 0x00 | 0x14 | 0x15 => some 4
  | 0x01 | 0x16 | 0x17 => some 8
  | 0x02 | 0x03 | 0x12 | 0x13 => some 2
  | 0x04 | 0x05 | 0x06 | 0x07 | 0x08 | 0x10 | 0x11 => some 1
  | _ => none

/-- The record is malformed (R238). -/
def TRec.malformed (r : TRec) : Bool :=
  let n := r.rank
  let es := List.range 5
  bits r.ctl 53 11 != 0 || bit r.ctl 7 || bits r.base 57 7 != 0 ||
  n == 0 || 6 ≤ n ||
  es.any (fun i => i < n && r.dim i == 0) ||
  es.any (fun i => n ≤ i && (r.dim i != 0 || r.box i != 1 || (1 ≤ i && r.stride i != 0))) ||
  r.base % r.esz != 0 || es.any (fun i => 1 ≤ i && i < n && r.stride i % r.esz != 0) ||
  (r.efmt != 0x1F && efmtBytes r.efmt != some r.esz) ||
  r.bytes % 16 != 0 || 2 ^ 20 < r.bytes || (r.skewed && r.bytes % r.period != 0)

/-- The index of box position number `p` in dimension `i`. -/
def TRec.jOf (r : TRec) (p i : Nat) : Nat := p / (List.range i).foldl (fun a k => a * r.box k) 1 % r.box i

/-- The exact element address of an index, if it is in bounds (R239). -/
def TRec.addrOf (r : TRec) (x : List Int) : Option Nat :=
  if (List.range r.rank).all (fun i => 0 ≤ x.getD i 0 && x.getD i 0 < (r.dim i : Int)) then
    some (r.base + r.esz * (x.getD 0 0).toNat +
      ((List.range r.rank).foldl (fun a i => if i = 0 then a else a + (x.getD i 0).toNat * r.stride i) 0))
  else none

/-- The element at one position of a box: its memory address (`data2` is 1 where it is out of bounds and reads no
memory), its place in the scratchpad of block `b`, and the fill bytes it would receive. -/
def TRec.piece (r : TRec) (x : List Int) (b sp p : Nat) : Elem :=
  let o := r.esz * p
  let fill := r.fill / 2 ^ (8 * (o % 8)) % 2 ^ (8 * r.esz)
  match r.addrOf x with
  | some a => { lane := p % 32, addr := a, place := .scratch b (sp + r.skw o), size := r.esz }
  | none => { lane := p % 32, place := .scratch b (sp + r.skw o), size := r.esz, data := fill, data2 := 1 }

/-- The pieces of a box at coordinates `cs`; `idx` replaces dimension 1 in CPYG (R247). -/
def TRec.pieces (r : TRec) (cs : List Int) (idx : Option (List Int)) (b sp : Nat) : List Elem :=
  (List.range (r.bytes / r.esz)).map (fun p =>
    let x := (List.range r.rank).map (fun i => match idx, i with
      | some l, 1 => l.getD (r.jOf p 1) 0
      | _, _ => cs.getD i 0 + (r.jOf p i : Int))
    r.piece x b sp p)

/-! ## Memory as an engine sees it -/

/-- An engine's access to memory: the place, or its cause (R255). Windows and MMIO are not memory. -/
def State.engineCheck (s : State) (c : Ctx) (need : Need) (va n : Nat) : Except Nat Place × State :=
  if isWindow va then (.error 0x077, s)
  else match s.checkElem c { need with mmio := false } va n 1 with
  | (.error 0x060, s1) => (.error 0x075, s1)
  | (.error 0x061, s1) => (.error 0x076, s1)
  | (.error _, s1) => (.error 0x077, s1)
  | (.ok p, s1) => (.ok p, s1)

/-- The places that a range of virtual addresses now names, by 64 KiB pages. -/
def State.vaPlaces (s : State) (asid block : Nat) : Nat → Nat → Nat → List (Place × Nat)
  | 0, _, _ => []
  | fuel + 1, va, n =>
    if n = 0 then []
    else
      let k := Nat.min n (65536 - va % 65536)
      let rest := s.vaPlaces asid block fuel (va + k) (n - k)
      if isWindow va then
        match s.resolveWindow block va k with
        | .ok p => (p, k) :: rest
        | .error _ => rest
      else match s.walk asid va with
      | some e =>
        match s.placeOf e.pte (e.pa va) k {} with
        | .ok p => (p, k) :: rest
        | .error _ => rest
      | none => rest

/-- A range of virtual addresses shares a byte with a place. -/
def State.vaOverlaps (s : State) (asid block va n : Nat) (p : Place) (m : Nat) : Bool :=
  (s.vaPlaces asid block (n / 65536 + 2) va n).any (fun q => overlaps q.1 q.2 p m)

/-! ## What a copy captured at issue -/

/-- The operands of a copy (R243, R244): record address, target and offset of sp and of aw (the cause where the SA names
nothing), CPYG's list, and coordinates. -/
structure CopyArgs where
  rcd : Nat
  sp : Nat
  spBlock : Nat
  spCause : Nat
  aw : Nat
  awBlock : Nat
  awCause : Nat
  list : Nat
  listBlock : Nat
  listCause : Nat
  lane : Nat
  coords : List Nat

def CopyArgs.nats (a : CopyArgs) : List Nat :=
  [a.rcd, a.sp, a.spBlock, a.spCause, a.aw, a.awBlock, a.awCause, a.list, a.listBlock, a.listCause, a.lane] ++ a.coords

def CopyArgs.of (l : List Nat) : CopyArgs :=
  let g := fun (i : Nat) => l.getD i 0
  { rcd := g 0, sp := g 1, spBlock := g 2, spCause := g 3, aw := g 4, awBlock := g 5, awCause := g 6, list := g 7,
    listBlock := g 8, listCause := g 9, lane := g 10, coords := l.drop 11 }

def CopyArgs.cs (a : CopyArgs) : List Int := a.coords.map (sext 32)

/-- The target of an SA for an engine: its block, or the cause (R255). -/
def State.saTarget (s : State) (b sa : Nat) : Nat × Nat :=
  if sa < 2 ^ 20 then (b, 0)
  else if sa / 2 ^ 24 = 1 then
    match s.memberBlock b (bits sa 20 4) with
    | .ok m => (m, 0)
    | .error c => (b, if c = 0x072 then 0x079 else 0x078)
  else (b, 0x078)

/-- The state as an operation of a block's engine finds it: a member that began to leave after the operation issued is
still there for it (R217). -/
def State.asIssued (s : State) (o : Op) : State :=
  (s.ops.cells.filter (fun c => c.2.st == .flying && o.seq < c.2.seq && (match c.2.instr with
    | some (.cleave _) => true
    | _ => false))).foldl (fun (a : State) c => a.setBlock c.2.block { a.block c.2.block with leaving := false }) s

/-- A copy's operands as they now resolve (R253): an SA that named nothing at issue may do so by now. One that did names
the block it named, for as long as that stands. -/
def State.copyArgs (s : State) (o : Op) : CopyArgs :=
  let a := CopyArgs.of o.args
  let again := fun (sa blk cause : Nat) => if cause = 0 then (blk, 0) else (s.asIssued o).saTarget o.block sa
  let (spB, spC) := again a.sp a.spBlock a.spCause
  let (awB, awC) := again a.aw a.awBlock a.awCause
  let (liB, liC) := again a.list a.listBlock a.listCause
  { a with spBlock := spB, spCause := spC, awBlock := awB, awCause := awC, listBlock := liB, listCause := liC }

/-- Bytes that pass the end of a standing block's scratchpad; what a block that is gone would take is discarded (R253). -/
def State.beyond (s : State) (b n : Nat) : Bool := (s.block b).standing && (s.block b).alloc < n

/-- CPYG's index list, if it lies within its scratchpad. -/
def State.indexList (s : State) (a : CopyArgs) (n : Nat) : Option (List Int) :=
  if s.beyond a.listBlock (a.list % 2 ^ 20 + 4 * n) then none
  else some ((List.range n).map (fun i =>
    sext 32 (ofBytes (s.readScratch a.listBlock (a.list % 2 ^ 20 + 4 * i) 4))))

/-- The pieces of a copy whose record has the bytes given, or the cause for which it is abandoned and the address that it
reports (R255, R256). -/
def State.copyPieces (s : State) (i : Instr) (a : CopyArgs) (bs : List Byte) : Except (Nat × Nat) (List Elem) :=
  let r := TRec.of bs
  let gather := match i with
    | .cpyg _ => true
    | _ => false
  let sp := a.sp % 2 ^ 20
  if r.malformed || (gather && r.rank != 2) || (r.skewed && sp % r.period != 0) then .error (0x074, a.rcd)
  else if a.spCause != 0 then .error (a.spCause, a.sp)
  else if s.beyond a.spBlock (sp + r.bytes) then .error (0x078, a.sp)
  else if gather then
    if a.listCause != 0 then .error (a.listCause, a.list)
    else match s.indexList a (r.box 1) with
    | none => .error (0x078, a.list)
    | some l => .ok (r.pieces a.cs (some l) a.spBlock sp)
  else .ok (r.pieces a.cs none a.spBlock sp)

/-- The lines of a CPYC (R250): source in `addr`, destination in `data`. -/
def linePieces (len src dst : Nat) : List Elem :=
  (List.range (len / 128)).map (fun i =>
    { lane := i % 32, addr := src + 128 * i, data := dst + 128 * i, size := 128 })

/-- Instructions of engines that write memory. -/
def engineWrites : Option Instr → Bool
  | some (.cpys _) | some (.cpyc _) | some (.fget _) | some (.coll _) => true
  | _ => false

/-- Where a record or parameter block of an operation lies in this module's memory. -/
def State.recordAt (s : State) (o : Op) (va n : Nat) : Option Nat :=
  match s.walk o.asid va with
  | none => none
  | some e => match s.placeOf e.pte (e.pa va) n {} with
    | .ok (.home pa _ _) | .ok (.self pa) => some pa
    | _ => none

/-- The bytes of a record or parameter block of an operation, as far as they are settled: they lie in this module's memory,
and neither its warp nor a pinned line has still to write them. -/
def State.recordNow (s : State) (o : Op) (va n : Nat) : Option (List Byte) :=
  match s.recordAt o va n with
  | none => none
  | some pa =>
    let before := s.ops.cells.filter (fun c => c.2.st != .none && c.2.warp == o.warp && c.2.seq < o.seq)
    if s.pinned (pa / 128) || before.any (fun c => engineWrites c.2.instr ||
        c.2.elems.any (fun x => !x.done && overlaps x.place x.size (.self pa) n)) then none
    else some (s.mem.readBytes n pa)

/-! ## Parameter blocks of collectives (R371, R372) -/

/-- A parameter block (R371). -/
structure CollBlock where
  src : Nat
  dst : Nat
  count : Nat
  ctl : Nat
  root : Nat
  group : Nat
  aw : Nat
  tag : Nat
  rest : Nat

def CollBlock.of (bs : List Byte) : CollBlock :=
  let f := fun (off n : Nat) => ofBytes ((bs.drop off).take n)
  { src := f 0 8, dst := f 8 8, count := f 0x10 8, ctl := f 0x18 4, root := f 0x1C 4, group := f 0x20 4
    aw := f 0x24 4, tag := f 0x28 8, rest := f 0x30 80 }

def CollBlock.kind (p : CollBlock) : Nat := bits p.ctl 0 4
def CollBlock.cop (p : CollBlock) : Nat := bits p.ctl 4 4
def CollBlock.fmt (p : CollBlock) : Nat := bits p.ctl 8 4

/-- Element size of a collective's format (R371). -/
def CollBlock.esz (p : CollBlock) : Nat :=
  match p.fmt with
  | 0 | 4 | 5 => 4
  | 1 | 2 => 2
  | _ => 8

/-- Bytes that src holds and that dst receives (R372), with N ranks. -/
def CollBlock.srcLen (p : CollBlock) (n : Nat) : Nat :=
  match p.kind with
  | 0 | 2 | 3 => p.count * p.esz
  | 1 => n * p.count * p.esz
  | _ => 0
def CollBlock.dstLen (p : CollBlock) (n : Nat) : Nat :=
  match p.kind with
  | 0 | 1 | 3 => p.count * p.esz
  | 2 => n * p.count * p.esz
  | _ => 0

/-- Bytes of src that a rank reads: a broadcast reads it on the root only. -/
def CollBlock.readLen (p : CollBlock) (n rank : Nat) : Nat := if p.kind = 3 && rank != p.root then 0 else p.srcLen n

/-- The parts of a copy, transfer or collective: those it was found to consist of when it started, or those of its record
as it now stands; `none` while that is not settled (log entry 105). -/
def State.wholeParts (s : State) (o : Op) : Option (List Elem) :=
  if o.sent then some o.elems
  else match o.instr with
  | some (.cpy _) | some (.cpys _) | some (.cpyg _) | some (.cpym _) =>
    let a := s.copyArgs o
    match s.recordNow o a.rcd 64 with
    | some bs => match s.copyPieces (o.instr.getD (.nop {})) a bs with
      | .ok l => some l
      | .error _ => none
    | none => none
  | some (.coll _) =>
    let g := s.groups.get {} o.job
    let at0 := o.args.headD 0
    match s.recordNow o at0 128 with
    | some bs =>
      let p := CollBlock.of bs
      some [{ addr := at0, size := 128 }, { addr := p.src, size := p.readLen g.n g.rank },
            { addr := p.dst, size := p.dstLen g.n }]
    | none => none
  | _ => some o.elems

/-- Where an engine writes a piece in scratchpad: in every member for a CPYM (R248). -/
def copyTargets (o : Op) (e : Elem) : List Place :=
  match o.instr, e.place with
  | some (.cpym _), .scratch _ off => o.members.map (fun m => .scratch m off)
  | _, p => [p]

/-- Some part of a copy, transfer or collective that is not performed touches the bytes named, in scratchpad or in
memory (R172); one whose parts are not settled may. -/
def State.wholeTouches (s : State) (o : Op) (p : Place) (n : Nat) : Bool :=
  match s.wholeParts o with
  | none => true
  | some l => l.any (fun e => !e.done && ((copyTargets o e).any (fun q => overlaps q e.size p n) ||
    (e.data2 != 1 && s.vaOverlaps o.asid o.block e.addr e.size p n) ||
    (match o.instr with
     | some (.cpyc _) => s.vaOverlaps o.asid o.block e.data e.size p n
     | _ => false)))

end Sys2Proof.Machine
end

