-- ==== Sys2Proof/Machine/MemOps.lean ====
section
/-!
DEFINITION. Operations in flight (R140–R145, R170–R173): how an operation issues, what holds its elements back (R136,
R142, R143), what performing an element does, how it completes, how threads wait (R145, R200, R212), and how a late
fault takes a replay slot (R231–R234).
-/
namespace Sys2Proof

/-- Warp-uniform operations (R26): one operation in every Active thread. -/
def Instr.uniformOp : Instr → Bool
  | .ldu _ | .stu _ | .ldb _ | .stb _ | .icinv _ | .arrive _ | .awarm _ | .feset _ | .cleave _ | .syswrTlbinv _
  | .launch _ | .launcht _ | .spawn _ | .nodeq _ => true
  | _ => false

/-- Operations whose parts are not separate elements: copies, transfers, collectives, messages (R170). -/
def Instr.wholeOp : Instr → Bool
  | .cpy _ | .cpys _ | .cpyg _ | .cpym _ | .cpyc _ | .fxfer _ | .fget _ | .coll _ | .smsg _ | .ballastPf _
  | .ballastStage _ | .ballastCancel _ | .cancel _ | .cleave _ => true
  | _ => false

/-- Operations that are in flight but count in no stream: instructions that wait for something. -/
def Instr.uncounted : Instr → Bool
  | .feset _ | .cleave _ | .cancel _ | .syswrTlbinv _ | .launch _ | .launcht _ | .spawn _ | .nodeq _ => true
  | _ => false

/-- LAUNCH, LAUNCHT and SPAWN. -/
def Instr.asksUnit : Instr → Bool
  | .launch _ | .launcht _ | .spawn _ => true
  | _ => false

/-- The atomics of class 0x8. -/
def Instr.isAtomic : Instr → Bool
  | .atom _ _ | .atomnr _ _ | .atomcas _ | .fatom _ _ | .fatomnr _ _ | .redv _ _ => true
  | _ => false

/-- Loads of class 0x6. -/
def Instr.isLoad : Instr → Bool
  | .ld _ | .ldu _ | .ldb _ => true
  | _ => false

/-- Instructions that read memory through the L1: loads, and the reads of records and descriptors. -/
def Instr.reading (i : Instr) : Bool :=
  i.isLoad || (match i with
    | .launch _ | .launcht _ | .spawn _ | .nodeq _ => true
    | _ => false)

/-- Operations that report late faults through replay slots (R231). -/
def Instr.slotted (i : Instr) : Bool :=
  i.isAtomic || i.isLoad || (match i with
    | .st _ | .stu _ | .stb _ => true
    | _ => false)

namespace Machine

/-- Scope cluster or wider. -/
def Scope.wide (sc : Scope) : Bool := !Scope.narrow sc

/-- The threads that an element concerns: all that count a warp-uniform operation, the group of a REDV, or one. -/
def Op.elemLanes (o : Op) (e : Elem) : Nat :=
  if o.i.uniformOp then o.lanes
  else match o.i with
    | .redv _ _ => e.data2
    | _ => 2 ^ e.lane

/-- Some part of the operation that concerns a thread of `lanes` is not performed. An atomic is performed in every
thread that it has enabled only when its every element is (R170, R229). -/
def Op.pending (o : Op) (lanes : Nat) : Bool :=
  (o.lanes &&& lanes &&& (ones 32 - o.counted % 2 ^ 32)) != 0 &&
  (o.i.wholeOp || (o.i.isAtomic && (o.enabled &&& lanes) != 0 && o.elems.any (fun e => !e.done)) ||
   o.elems.any (fun e => !e.done && (o.elemLanes e &&& lanes) != 0))

/-- Threads whose part is performed and not yet counted (R140, R144). -/
def Op.finished (o : Op) : Nat :=
  maskWhere 32 (fun l => bit o.lanes l && !bit o.counted l && !o.pending (2 ^ l))

/-- Some part of it that touches the bytes named is not performed. -/
def State.touches (s : State) (o : Op) (lanes : Nat) (p : Place) (n : Nat) : Bool :=
  (o.lanes &&& lanes) != 0 &&
  if o.i.wholeOp then s.wholeTouches o p n
  else o.elems.any (fun e => !e.done && (o.elemLanes e &&& lanes) != 0 && overlaps e.place e.size p n)

/-- Operations of a warp that issued before a place in its program order; a killed warp's go on as they were (R415). -/
def State.earlier (s : State) (w seq : Nat) : List Op :=
  (s.ops.cells.map (·.2)).filter (fun o => o.st != .none && o.warp == w && o.seq < seq)

/-- The edges of a mask are met for the threads of `lanes` (R142). -/
def State.edgesMet (s : State) (w : Nat) (hset : Bool) (after lanes seq : Nat) : Bool :=
  (s.earlier w seq).all (fun a => !(a.hset == hset && bit after a.strm && a.pending lanes))

/-- The same-address rule holds nothing back (R143, R172). -/
def State.sameMet (s : State) (w lanes seq : Nat) (p : Place) (n : Nat) : Bool :=
  (s.earlier w seq).all (fun a => !s.touches a lanes p n)

/-- The core on which an operation's block now stands. -/
def State.opCore (s : State) (o : Op) : Nat := if (s.block o.block).standing then (s.block o.block).core else o.core

/-- An operation of scope cluster or wider releases the pinned lines that hold stores of the streams its mask names
(R136), in the threads of `lanes`. -/
def State.releaseFor (s : State) (core w : Nat) (hset : Bool) (after lanes : Nat) : State :=
  s.releaseWhere core (fun _ x => x.owners.any (fun (o : Nat × Bool × Nat × Nat) =>
    o.1 == w && o.2.1 == hset && bit after o.2.2.1 && (o.2.2.2 &&& lanes) != 0))

/-- Threads at whose edges an operation performs at scope cluster or wider: all of them by the scope it names, or those
of its elements on fabric addresses and host memory, whose scope is sys (R131, R139). -/
def Op.wideLanes (o : Op) : Nat :=
  if Scope.wide o.scope then o.lanes
  else o.elems.foldl (fun a e => if e.place.outer then a ||| o.elemLanes e else a) 0

def State.opRelease (s : State) (o : Op) : State := s.releaseFor (s.opCore o) o.warp o.hset o.after o.wideLanes

/-- The element of an atomic or a store executes in the issuing core's L1 (R135, R220): a narrow one on a plain
region-00 line, whichever die is its home and whatever its policy (log entry 98). -/
def inL1 (sc : Scope) (p : Place) : Bool :=
  match p with
  | .home pa nc ms => cacheable nc ms && bits pa 50 2 == 0 && Scope.narrow sc
  | _ => false

/-- A fabric peer or host memory: served outside this module. -/
def Place.remote : Place → Bool
  | .peer _ => true
  | .mmio pa => bits pa 48 2 != 0
  | _ => false

/-- Nothing at its place holds the element up: no pin of another core (R136) unless a load is served nearer (R137), for
an atomic at the home and for an access by fabric address no pin at all, and no scratchpad whose writes are held
(R253); nor does it have to go to a stack that is too hot (R392). -/
def State.placeFree (s : State) (o : Op) (e : Elem) : Bool :=
  let core := s.opCore o
  match e.place with
  | .home pa nc ms =>
    let near := inL1 o.scope e.place && (s.l1Line core (pa / 128)).valid
    if o.i.isAtomic && !inL1 o.scope e.place then !s.homeHeld pa ms
    else (!s.pinnedElsewhere core (pa / 128) && (near || !s.stackWaits pa ms)) ||
      (o.i.reading && s.servedNear core pa nc ms (Scope.narrow o.scope))
  | .self pa => !s.homeHeld pa false
  | .scratch b _ => !(s.block b).frozen
  | _ => true

/-- An element may perform. `before` are the elements of its operation that stand in front of it. -/
def State.elemReady (s : State) (o : Op) (before : List Elem) (e : Elem) : Bool :=
  let lanes := o.elemLanes e
  s.edgesMet o.warp o.hset o.after lanes o.seq && s.sameMet o.warp lanes o.seq e.place e.size &&
  before.all (fun b => b.done || !overlaps b.place b.size e.place e.size) && s.placeFree o e &&
  (match o.i with
   | .syswrTlbinv _ => (s.earlier o.warp o.seq).all (fun a => !(storesOrAtomic a.i && a.pending o.lanes))
   | .feset _ => (s.earlier o.warp o.seq).all (fun a => !s.touches a (ones 32) e.place e.size)
   | _ => true)

/-! ## Arrival words (R207, R208) -/

/-- An arrival word's fields. -/
structure AWord where
  target : Nat
  count : Nat
  gen : Nat
  ar : Bool
  scope : Nat
  err : Bool
  high : Nat

def AWord.of (x : Nat) : AWord :=
  { target := bits x 0 32, count := bits x 32 32, gen := bits x 64 32, ar := bit x 96, scope := bits x 97 3,
    err := bit x 100, high := bits x 101 27 }

/-- The word's 16 bytes. Reserved bits that a plain store has set stay as they are (log entry 99). -/
def AWord.nat (a : AWord) : Nat :=
  a.target + a.count * 2 ^ 32 + a.gen * 2 ^ 64 + b2n a.ar * 2 ^ 96 + a.scope * 2 ^ 97 + b2n a.err * 2 ^ 100 +
  a.high * 2 ^ 101

/-- `Increment(w, n)` (R208): with auto-rearm every multiple of the target crosses; without it, one. -/
def AWord.increment (a : AWord) (n : Nat) : AWord :=
  let sum := a.count + n
  let c := Nat.min sum (2 ^ 32 - 1)
  let a1 := { a with err := a.err || 2 ^ 32 ≤ sum }
  if a.target = 0 ∨ c < a.target then { a1 with count := c }
  else if a.ar then { a1 with count := c % a.target, gen := (a.gen + c / a.target) % 2 ^ 32 }
  else { a1 with count := c - a.target, gen := (a.gen + 1) % 2 ^ 32, target := 0 }

/-- AWARM with arming value `x` (R210). -/
def AWord.arm (a : AWord) (x : Nat) (init : Bool) : AWord :=
  { a with target := bits x 0 32, ar := bit x 32, scope := bits x 33 3, err := false,
           count := if init then 0 else a.count }.increment 0

/-- WAITG's condition (R212). -/
def AWord.reached (a : AWord) (g : Nat) : Bool := (a.gen + 2 ^ 32 - g % 2 ^ 32) % 2 ^ 32 < 2 ^ 31

def State.aword (s : State) (b off : Nat) : AWord := AWord.of (ofBytes (s.readScratch b off 16))

/-! ## Waits (R145, R200, R212) -/

/-- Waiting threads: warp, lane and wait. -/
def State.waiters (s : State) (f : Wait → Bool) : List (Nat × Nat × Wait) :=
  (s.warps.cells.map (fun c => (maskList (ones 32) 32).filterMap (fun l =>
    let x := c.2.lane l
    if c.2.live && x.st == .parked && !x.wait.ended && f x.wait then some (c.1, l, x.wait) else none))).flatten

/-- The waiter that joined first, lower lanes first. -/
def firstJoined : List (Nat × Nat × Wait) → Option (Nat × Nat × Wait)
  | [] => none
  | x :: r => some (r.foldl (fun a y => if y.2.2.joined < a.2.2.joined then y else a) x)

/-- A wait has performed: both counts of its stream rise in the threads that count it, and the threads of the mask
stand at the successor, still parked. -/
def Warp.waitOver (wp : Warp) (mask count : Nat) (x : Wait) : Warp :=
  let strm := (memOf (x.instr.getD (.nop {}))).strm
  let st := (wp.streams wp.usesHandlerStreams)
  (wp.setStreams wp.usesHandlerStreams ((st.issue count strm).complete count strm)).mapLanes mask (fun _ la =>
    { la with pc := x.next, wait := { la.wait with ended := true, kind := .none } })

/-- A tag instruction can perform on a word whose tag is `full` (R199). -/
def tagOk (i : Instr) (full : Bool) : Bool :=
  match i with
  | .ldf _ | .ldfe _ => full
  | .ste _ => !full
  | _ => true

/-- A tag instruction that has passed its checks can perform on a word now: its tag allows it, or the block is gone
(R461). -/
def State.tagServes (s : State) (i : Instr) (b off : Nat) : Bool := !(s.block b).standing || tagOk i (s.tagAt b off)

/-- What an LDF, LDFE, STE or STF does to its word, as one event (R199): the value it returns. -/
def State.tagDo (s : State) (i : Instr) (b off data : Nat) : Nat × State :=
  let old := ofBytes (s.readScratch b off 8)
  match i with
  | .ldfe _ => (old, s.setTag b off false)
  | .ste _ | .stf _ => (0, (s.writeScratch b off (bytesOf 8 data)).setTag b off true)
  | _ => (old, s)

/-- A tag instruction's destination lane, when it has one. -/
def tagDest : Instr → Option Nat
  | .ldf x | .ldfe x => some x.d
  | _ => none

/-- MWAITGs on the words that the bytes named touch (R300). -/
def State.serveMccs (s : State) (b off n : Nat) : State :=
  (s.mccs.cells.filter (fun c => match c.2.inWait with
    | some x => overlaps (.scratch x.block x.off) 16 (.scratch b off) n
    | none => false)).foldl (fun (a : State) c => match c.2.inWait with
    | some x =>
      let word := a.aword x.block x.off
      if word.err then a.faultMcc c.1 0x073 c.2.cur
      else if word.reached x.gen then a.setMcc c.1 { c.2 with inWait := none, pc := c.2.npc }
      else a
    | none => a) s

/-- WAITG waiters of the words that the bytes named touch (R212): one whose generation is reached performs; one whose
word has `err` set faults. -/
def State.serveWords (s : State) (b off n : Nat) : State :=
  let hit := s.waiters (fun x => x.kind == .arrival && x.joined != 0 && overlaps x.place 16 (.scratch b off) n)
  hit.foldl (fun (a : State) (e : Nat × Nat × Wait) =>
    let (w, l, x) := e
    let wp := a.warp w
    -- an earlier lane of the same wait may have taken it
    if (wp.lane l).wait.ended || (wp.lane l).wait.joined = 0 then a
    else match x.place with
    | .scratch b' o' =>
      let word := a.aword b' o'
      let mates := maskWhere 32 (fun k => (wp.lane k).st == .parked && (wp.lane k).wait.seq == x.seq)
      if word.err then
        a.setWarp w ((wp.mapLanes mates (fun _ la => { la with wait := { la.wait with joined := 0 } })).haltLater
          { cause := 0x073, lane := l, addr := x.addr, pc := some x.pc })
      else if word.reached x.data then
        let a1 := a.setWarp w (wp.waitOver mates x.lanes x)
        a1.report w x.lanes x.pc
      else a
    | _ => a) (s.serveMccs b off n)

/-- Queued elements of a tagged word (R200): examined in the order in which they joined, a change of the tag starting
the examination again. -/
def State.serveTag : Nat → Nat → Nat → State → State
  | 0, _, _, s => s
  | fuel + 1, b, off, s =>
    let q := s.waiters (fun x => x.kind == .tag && x.joined != 0 && x.place == .scratch b off &&
      (match x.instr with
       | some i => s.tagServes i b off
       | none => false))
    match firstJoined q with
    | none => s
    | some (w, l, x) =>
      let i := x.instr.getD (.nop {})
      let (v, s1) := s.tagDo i b off x.data
      let wp := s1.warp w
      let w1 := match tagDest i with
        | some d => wp.wrV d l (BitVec.ofNat 64 v)
        | none => wp
      State.serveTag fuel b off (((s1.setWarp w (w1.waitOver (2 ^ l) x.lanes x)).forget w x.place 8).serveWords b off 8)

/-- How many elements wait for tags. -/
def State.tagFuel (s : State) : Nat := (s.waiters (fun x => x.kind == .tag)).length + 1

/-- Bytes written to a scratchpad, with what the write satisfies. -/
def State.pokeScratch (s : State) (b off : Nat) (bs : List Byte) : State :=
  (s.writeScratch b off bs).serveWords b off bs.length

/-- A tag changed, with what the change lets perform. -/
def State.changeTag (s : State) (b off : Nat) (v : Bool) : State :=
  (s.setTag b off v).serveTag s.tagFuel b off

/-- An arrival word replaced as one RMW, with what that satisfies. -/
def State.setWord (s : State) (b off : Nat) (a : AWord) : State := s.pokeScratch b off (bytesOf 16 a.nat)

/-- The test of a LAUNCHT trigger (R274): it holds, it is dropped, or it goes on. -/
def AWord.trigger (a : AWord) (g : Nat) : Option Bool :=
  if a.err then some false else if a.reached g then some true else none

/-- LAUNCHT triggers on a word are tested (R274); the first test that decides stands. -/
def State.testTriggers (s : State) (b off : Nat) : State :=
  { s with entries := ⟨s.entries.cells.map (fun (c : Nat × Entry) => match c.2.trigger, c.2.hit with
      | some (tb, tOff, g), none =>
        if tb = b ∧ tOff = off ∧ c.2.live then (c.1, { c.2 with hit := (s.aword b off).trigger g }) else c
      | _, _ => c)⟩ }

/-- An increment of an arrival word by an engine (R171, R208). -/
def State.arriveAt (s : State) (b off n : Nat) : State :=
  (s.setWord b off ((s.aword b off).increment n)).testTriggers b off

/-- An engine sets `err` in a word that it will not count into (R208). -/
def State.spoilWord (s : State) (b off : Nat) : State := s.setWord b off { s.aword b off with err := true }

/-- Waits on a block that is gone end (R461): its words read as zero, and what is written to them is discarded. -/
def State.serveGone (s : State) (b : Nat) : State :=
  let offs := ((s.waiters (fun x => x.kind == .tag && x.joined != 0)).filterMap (fun e => match e.2.2.place with
    | .scratch b' off => if b' = b then some off else none
    | _ => none)).eraseDups
  (offs.foldl (fun (a : State) off => State.serveTag a.tagFuel b off a) s).serveWords b 0 (2 ^ 20)

/-- A waiting element may join its word's queue: its edges and the same-address rule are met. -/
def State.mayJoin (s : State) (w l : Nat) (x : Wait) : Bool :=
  let m := memOf (x.instr.getD (.nop {}))
  let n := if x.kind == .arrival then 16 else 8
  let lanes := if x.kind == .arrival then x.lanes else 2 ^ l
  s.edgesMet w (s.warp w).usesHandlerStreams m.after lanes x.seq && s.sameMet w lanes x.seq x.place n &&
  (match x.place with
   | .scratch b _ => !(s.block b).frozen
   | _ => true)

/-- A wait of scope cluster or wider, or on nothing narrower, meets its mask's edges at its scope: the pinned lines that
they cover are written back before it joins (R136, R142, R200, R212). -/
def State.waitRelease (s : State) (w l : Nat) (x : Wait) : State :=
  let m := memOf (x.instr.getD (.nop {}))
  let wp := s.warp w
  if Scope.wide m.scope then
    s.releaseFor (s.block wp.block).core w wp.usesHandlerStreams m.after (if x.kind == .arrival then x.lanes else 2 ^ l)
  else s

/-- Elements of a warp that may now join their queues do so (R200), in ascending lanes. -/
def State.joinWaits (s : State) (w : Nat) : State :=
  (maskList (ones 32) 32).foldl (fun (a : State) l =>
    let la := (a.warp w).lane l
    let x := la.wait
    if la.st == .parked && !x.ended && (x.kind == .tag || x.kind == .arrival) && x.joined == 0 && !(a.warp w).halted &&
       a.mayJoin w l x then
      let a1 := { a.waitRelease w l x with nextSeq := (a.waitRelease w l x).nextSeq + 1 }
      let a2 := a1.setWarp w ((a1.warp w).setLane l { la with wait := { x with joined := a1.nextSeq } })
      match x.place with
      | .scratch b off => if x.kind == .tag then State.serveTag a2.tagFuel b off a2 else a2.serveWords b off 16
      | _ => a2
    else a) s

/-- Threads of a mask park in a wait at the instruction being issued (R53); a helper parks with its host. A selection
is due (R55). -/
def Warp.park (wp : Warp) (mask : Nat) (x : Nat → Wait) : Warp :=
  { wp.mapLanes mask (fun l la => { la with
      pc := wp.pc
      st := if la.st == .helper then .helper else .parked
      wait := if la.st == .helper then {} else { x l with pc := wp.pc, next := wp.npc } }) with
    selDue := true, group := maskWhere 32 (fun l => bit wp.group l && !bit mask l) }

/-- Threads of a mask with the helpers they carry. -/
def Warp.withHelpers (wp : Warp) (mask : Nat) : Nat :=
  maskWhere 32 (fun l => bit mask l || (wp.isHelper l && bit mask (wp.leader l)))

/-- Threads whose stream has no room (R145). -/
def Warp.full (wp : Warp) (strm mask : Nat) : Nat :=
  maskWhere 32 (fun l => bit mask l && 1023 ≤ (wp.streams wp.usesHandlerStreams).outstanding l strm)

/-- Threads park in a stream-exhaustion stall until the streams of `room` have room. -/
def State.stall (s : State) (w : Nat) (i : Instr) (strm mask : Nat) (room : Nat → Nat) : State :=
  let wp := s.warp w
  { s.setWarp w (wp.park (wp.withHelpers mask) (fun l =>
      { kind := .exhaustion, instr := some i, data := strm, lanes := room l, since := s.time, seq := s.nextSeq })) with
    nextSeq := s.nextSeq + 1 }

/-! ## Completion -/

/-- Registers of the interrupted code written by an operation that ends while a frame holds them (R175, R426): what the
frame or the register area holds is written there too. -/
def State.echoRegs (s : State) (w : Nat) (regs : List RegRef) : State :=
  let wp := s.warp w
  let b := s.block wp.block
  let area := b.savePa + regAreaOff b.warps.length wp.index
  let framed := wp.mode != .normal || wp.halted || wp.yielded != .no
  let saved := wp.yielded == .forced || wp.yielded == .halted
  regs.foldl (fun a r => match r.kind with
    | .s =>
      let a1 := if framed && 0 < r.n && r.n < 16 then
          a.hardWrite b.core (b.framePa wp.index + 0x380 + 8 * (r.n - 1)) (bytesOf 8 (wp.rdS r.n).toNat) else a
      if saved then a1.hardWrite b.core (area + 0x40000 + 8 * r.n) (bytesOf 8 (wp.rdS r.n).toNat) else a1
    | .v =>
      if saved then a.hardWrite b.core (area + 256 * r.n) ((lanes32.map (fun l => bytesOf 8 (wp.rdV r.n l).toNat)).flatten)
      else a
    | _ => a) s

/-- The destinations written when every element is bound (R150, R152, R226). -/
def Warp.bindOp (wp : Warp) (o : Op) : Warp :=
  let ret := fun (a l : Nat) => match o.elems.find? (fun e => e.lane == l && e.addr == a) with
    | some e => BitVec.ofNat 64 e.ret
    | none => 0
  let byLane := fun (l : Nat) => match o.elems.find? (fun e => e.lane == l) with
    | some e => BitVec.ofNat 64 e.ret
    | none => 0
  let merge := fun (a : Warp) (d : Nat) (f : Nat → Word) =>
    (maskList o.group 32).foldl (fun a l =>
      if bit o.enabled l then a.wrV d l (f l) else if o.zero then a.wrV d l 0 else a) a
  match o.i with
  | .ld x | .atom _ x | .atomcas x | .fatom _ x => merge wp x.d byLane
  | .ldu x => wp.wrS x.d (match o.elems with
    | e :: _ => BitVec.ofNat 64 e.ret
    | [] => 0)
  | .ldb x => (List.range (2 ^ (x.sz % 4))).foldl (fun a r =>
      merge a (x.d + r) (fun l => ret (o.args.headD 0 + 256 * r + 8 * l) l)) wp
  | _ => wp

/-- A halt that waited for replay slots becomes visible once no operation of classes 0x6 and 0x8 is left to perform
(R231): the frame then holds the slots, and the host hears of it. -/
def State.settleHalt (s : State) (w : Nat) : State :=
  let wp := s.warp w
  let flying := s.ops.cells.any (fun c => c.2.st == .flying && c.2.warp == w && !c.2.orphan && c.2.i.slotted)
  if wp.halted && wp.reportDue && !flying then
    let b := s.block wp.block
    let s1 := s.setWarp w { wp with reportDue := false }
    let s2 := if wp.mode != .normal then s1
      else s1.hardWrite b.core (b.framePa wp.index) (frameHead wp ++ frameBody s1 wp)
    s2.reportHalt w
  else s

/-- A replay slot has been taken or freed: the frame shows it (R231), and a halt that waited for it is reported. -/
def State.slotChanged (s : State) (w : Nat) : State := (s.writeSlots w).settleHalt w

/-- An operation leaves: its slot is freed, threads that drained exit, and waits whose edges it met join. -/
def State.dropOp (s : State) (k : Nat) : State :=
  let w := (s.op k).warp
  if (s.op k).orphan then s.setOp k {}
  else
    let s1 := s.setOp k {}
    let held := (s1.warp w).replays.contains k
    let s2 := if held then
        (s1.setWarp w { s1.warp w with replays := (s1.warp w).replays.filter (fun o => o != k) }).writeSlots w
      else s1
    ((s2.drain w).joinWaits w).settleHalt w

/-- Threads whose part of an operation is performed count it (R144), and may have drained (R74). -/
def State.countParts (s : State) (k : Nat) : State :=
  let o := s.op k
  let f := o.finished
  if o.st != .flying || o.orphan || o.i.uncounted || f = 0 then s
  else
    let wp := s.warp o.warp
    ((s.setOp k { o with counted := o.counted ||| f }).setWarp o.warp
      (wp.setStreams o.hset ((wp.streams o.hset).complete f o.strm))).drain o.warp

/-- An operation whose every part is performed: results, the completion counts that are left (R144), and its place is
free. -/
def State.finishOp (s : State) (k : Nat) : State :=
  let o := s.op k
  if o.orphan then s.setOp k {}
  else
    let wp := s.warp o.warp
    let w1 := wp.bindOp o
    let w2 := if o.i.uncounted then w1
      else w1.setStreams o.hset ((w1.streams o.hset).complete (maskWhere 32 (fun l => bit o.lanes l && !bit o.counted l)) o.strm)
    ((s.setWarp o.warp w2).echoRegs o.warp (if o.hset then [] else o.i.writes .vector)).dropOp k

/-! ## Performing an element -/

/-- The bytes an atomic or a store would find at a place, as a number. -/
def State.peek (s : State) (o : Op) (e : Elem) : Nat :=
  match e.place with
  | .scratch b off => ofBytes (s.readScratch b off e.size)
  | .home pa _ ms =>
    let x := s.l1Line (s.opCore o) (pa / 128)
    if inL1 o.scope e.place && x.pinned then ofBytes ((x.data.drop (pa % 128)).take e.size)
    else ofBytes (if ms then s.msRead e.size pa else s.mem.readBytes e.size pa)
  | .self pa => ofBytes (s.mem.readBytes e.size pa)
  | _ => 0

/-- Bytes written at an element's place (R124, R131, R133, R135, R220). A store that goes round the L1 first has the core's
own pinned line written back, and its clean copy goes. What a peer or the host is sent leaves the module. -/
def State.poke (s : State) (o : Op) (e : Elem) (bs : List Byte) : State :=
  match e.place with
  | .scratch b off => s.pokeScratch b off bs
  | .home pa nc ms =>
    let core := s.opCore o
    if inL1 o.scope e.place then s.writePinned core pa bs (o.warp, o.hset, o.strm, o.elemLanes e)
    else if cacheable nc ms then
      let s1 := s.byOp o pa false
      if o.i.isAtomic then (s1.dropClean core (pa / 128)).writeHome pa bs else s1.writeThrough core pa bs
    else
      let s1 := (s.release core (pa / 128)).dropClean core (pa / 128)
      if ms then s1.msWrite pa bs else (s1.byOp o pa false).writeHome pa bs
  | .self pa => (s.dropClean (s.opCore o) (pa / 128)).writeHome pa bs
  | _ => s

/-- The value a load's element binds, as it is found: `x` is what a peer or the host answers. -/
def State.loadNow (s : State) (o : Op) (e : Elem) (x : Nat) : List Byte × State :=
  match e.place with
  | .none => (List.replicate e.size 0, s)
  | .scratch b off => (s.readScratch b off e.size, s)
  | .home pa nc ms =>
    let core := s.opCore o
    if cacheable nc ms then s.readCached o core pa e.size (Scope.narrow o.scope) (bit (memOf o.i).sz 2)
    else
      -- the core's own pinned line is written back first, so that the thread's own store is seen (R143)
      let s1 := s.release core (pa / 128)
      if ms then (s1.msRead e.size pa, s1) else (s1.mem.readBytes e.size pa, s1.byOp o pa true)
  | .self pa => (s.mem.readBytes e.size pa, s)
  | .peer _ => (bytesOf e.size x, s)
  | .mmio pa => (if e.place.remote then bytesOf e.size x else s.identity 0 (pa % 2 ^ 48) e.size, s)

/-- The value a load's element binds: an older one where nothing orders it after what has been written (R142, R166). -/
def State.loadElem (s : State) (o : Op) (e : Elem) (x : Nat) : Nat × State :=
  let (now, s1) := s.loadNow o e x
  let (bs, s2) := s1.loadPast o.warp e.place now (o.after = 0 && !o.hset && o.i.isLoad)
  (ofBytes bs, s2)

end Machine
end Sys2Proof
end

