-- ==== Sys2Proof/Machine/Work.lean ====
section
/-!
DEFINITION. Work and its places (R259–R270, R280): launch records and node descriptors, the loft, room on a core,
save areas, and how a placed block and its warps begin.
-/
namespace Sys2Proof.Machine

/-! ## Launch records (R264, R265) -/

/-- The fields of a shape word put into a launch record. -/
def Launch.withShape (l : Launch) (x : Nat) : Launch :=
  { l with
    rl := bit x 41, df := bit x 40, qh := bit x 39, gw := bits x 37 2, scr := bits x 28 9, ss := bits x 25 3
    sl := bits x 22 3, vs := bits x 17 5, vl := bits x 12 5, ws := bits x 6 6, wl := bits x 0 6 }

def byteField (bs : List Byte) (off n : Nat) : Nat := ofBytes ((bs.drop off).take n)

/-- A launch record's bytes. -/
def Launch.of (bs : List Byte) : Launch :=
  let f := byteField bs
  Launch.withShape
    { entry := f 0 8, sentry := f 8 8, mentry := f 0x10 8, pentry := f 0x18 8, rentry := f 0x20 8, grid := f 0x28 4
      seed := BitVec.ofNat 32 (f 0x2C 4), dies := f 0x38 4, wdog := f 0x3C 4, graph := f 0x40 8, nodes := f 0x48 1
      params := (List.range 6).map (fun i => BitVec.ofNat 64 (f (0x50 + 8 * i) 8)) } (f 0x30 8)

def Launch.warps (l : Launch) : Nat := l.wl + l.ws
/-- Budgets of a warp (R264). -/
def Launch.vbOf (l : Launch) (w : Nat) : Nat := ((if w < l.wl then l.vl else l.vs) + 1) * 32
def Launch.sbOf (l : Launch) (w : Nat) : Nat := ((if w < l.wl then l.sl else l.ss) + 1) * 16
def Launch.isGang (l : Launch) : Bool := l.mentry != 0
/-- Blocks of one instance. -/
def Launch.blocks (l : Launch) : Nat := if l.isGang then l.gw + 1 else 1

/-- Warps and vector registers that a block with a base adds to an issue slot (R61, R81). -/
def Launch.slotLoad (l : Launch) (base slot : Nat) : Nat × Nat :=
  let ws := (List.range l.warps).filter (fun w => (base + w) % 4 == slot)
  (ws.length, ws.foldl (fun a w => a + l.vbOf w) 0)

/-- Some core could ever hold one block (R10, R61, R81). -/
def Launch.couldFit (l : Launch) : Bool :=
  (List.range 4).all (fun slot => (l.slotLoad 0 slot).1 ≤ 8 && (l.slotLoad 0 slot).2 ≤ 1024)

def pcOk (x : Nat) : Bool := x % 4 == 0 && bits x 57 7 == 0

/-- The rules of R265 that concern a record's fields. -/
def Launch.bad (l : Launch) : Bool :=
  l.grid == 0 || l.wl == 0 || 32 < l.warps || ((l.ws == 0) != (l.sentry == 0)) || 256 < l.scr ||
  (l.gw != 0 && !l.isGang) || l.dies == 0 || bits l.dies 24 8 != 0 || 60000 < l.wdog ||
  64 < l.nodes || ((l.graph == 0) != (l.nodes == 0)) || l.graph % 64 != 0 ||
  !(pcOk l.entry && pcOk l.sentry && pcOk l.mentry && pcOk l.pentry && pcOk l.rentry) || !l.couldFit

/-- A record of memory is malformed (R265). -/
def recordBad (bs : List Byte) : Bool :=
  (Launch.of bs).bad || byteField bs 0x30 8 / 2 ^ 42 != 0 || byteField bs 0x49 7 != 0

/-! ## Node descriptors (R268) -/

/-- A node descriptor's own fields. -/
structure NodeDesc where
  rcd : Launch
  count : Nat
  rsz : Nat
  timer : Nat
  cap : Nat

/-- A descriptor; its node blocks inherit graph and node count, and run on the producing die. -/
def NodeDesc.of (bs : List Byte) (graph nodes die : Nat) : NodeDesc :=
  let f := byteField bs
  { rcd := Launch.withShape
      { entry := f 0 8, pentry := f 0x10 8, rentry := f 0x18 8, grid := 1, seed := BitVec.ofNat 32 (f 0x30 4)
        dies := 2 ^ die, wdog := f 0x2C 4, graph := graph, nodes := nodes } (f 8 8)
    count := f 0x20 2, rsz := f 0x22 1, timer := f 0x24 4, cap := f 0x28 4 }

/-- A descriptor is malformed (R268). -/
def descBad (bs : List Byte) (graph nodes die : Nat) : Bool :=
  let d := NodeDesc.of bs graph nodes die
  let shape := byteField bs 8 8
  d.rcd.bad || shape / 2 ^ 42 != 0 || d.rcd.ws != 0 || d.rcd.vs != 0 || d.rcd.ss != 0 || d.rcd.gw != 0 ||
  d.count == 0 || 256 < d.count || d.rsz == 0 || 32 < d.rsz || byteField bs 0x23 1 != 0 ||
  d.cap < d.count || 65536 < d.cap || byteField bs 0x34 12 != 0 || d.rcd.scr * 4096 < d.count * d.rsz * 8

/-! ## The loft (R261) -/

/-- Keys of a die's loft, or of a command processor's launch queue (24, 25). -/
def entryKey (die e : Nat) : Nat := die * 4096 + e

def State.entry (s : State) (k : Nat) : Entry := s.entries.get {} k
def State.setEntry (s : State) (k : Nat) (x : Entry) : State := { s with entries := s.entries.set {} k x }

/-- Entries of a die in use. -/
def State.loftUsed (s : State) (die : Nat) : List Nat :=
  (s.entries.cells.filter (fun c => c.2.live && c.1 / 4096 == die)).map (fun c => c.1 % 4096)

def State.loftFree (s : State) (die : Nat) : Nat := 4096 - (s.loftUsed die).length

/-- The first number from `n` up, modulo `m`, that is not used. -/
def firstUnusedMod (m : Nat) (used : List Nat) : Nat → Nat → Nat
  | 0, n => n
  | fuel + 1, n => if used.contains n then firstUnusedMod m used fuel ((n + 1) % m) else n

/-- An entry is taken (R261): which one is the task unit's choice. -/
def State.takeEntry (s : State) (die : Nat) (x : Entry) : State :=
  let used := s.loftUsed die
  let e := firstUnusedMod 4096 used (used.length + 1) (Config.freeValue s.free % 4096)
  let s1 := { s.draw with nextSeq := s.nextSeq + 1, nextGrid := s.nextGrid + 1 }
  s1.setEntry (entryKey die e) { x with live := true, seq := s.nextSeq, grid := s.nextGrid }

/-! ## Jobs (R259) -/

/-- Every compute die. -/
def allDies : Nat := ones 24

/-- What keeps a job: a placed block, an entry, a bin record, a cancel that has not passed every die, and what is being
asked of a task unit for it (R415). -/
def State.jobBusy (s : State) (j : Nat) : Bool :=
  s.ops.cells.any (fun c => c.2.st != .none && c.2.job == j && c.2.i.asksUnit) ||
  s.blocks.cells.any (fun c => c.2.job == j && c.2.st != .none && c.2.st != .gone) ||
  s.entries.cells.any (fun c => c.2.live && c.2.job == j) ||
  s.bins.cells.any (fun c => c.2.live && c.2.job == j && !c.2.records.isEmpty) ||
  ((s.job j).cancelled && (s.job j).passed != allDies)

/-- A job with nothing left terminates, and the host hears of it (R259, R451 kind 1). Its bins, ballast
items and group go with it (R269, R361, R403). -/
def State.endJob (s : State) (j : Nat) : State :=
  let x := s.job j
  if !x.live || s.jobBusy j then s
  else
    let s1 := s.post x.port 1 0xFF j (Nat.min x.retired (2 ^ 32 - 1)) (x.dropped + x.reports * 2 ^ 16) s.time 0
    { s1.setJob j {} with
      bins := s1.bins.keep (fun _ b => b.job != j)
      groups := s1.groups.set {} j {}
      gov := if s1.gov.group = some (s1.groups.get {} j).id && (s1.groups.get {} j).live then
          { s1.gov with group := none } else s1.gov
      ballast := s1.ballast.keep (fun _ b => b.job != j) }

/-- An entry is freed (R261). -/
def State.freeEntry (s : State) (k : Nat) : State := s.setEntry k {}

/-- An entry is dropped with its trigger (R274); the termination report counts it. -/
def State.dropTrigger (s : State) (k : Nat) : State :=
  let j := (s.entry k).job
  ((s.setJob j { s.job j with dropped := (s.job j).dropped + 1 }).freeEntry k).endJob j

/-! ## Room (R10, R61, R81, R263) -/

/-- Blocks on a logical core. -/
def State.onCore (s : State) (core : Nat) : List (Nat × BlockRec) :=
  s.blocks.cells.filter (fun c => c.2.st == .placed && c.2.core == core)

/-- A logical core that the map binds to a physical core (R430). -/
def State.mapped (s : State) (core : Nat) : Bool := bit (s.coreMap.get 0 core) 7

/-- The physical core of a logical core, as die × 17 + number. -/
def State.physOf (s : State) (core : Nat) : Nat := core / 16 * 17 + bits (s.coreMap.get 0 core) 0 5

/-- The lowest base for which every slot holds the warps bound to it (R61). -/
def State.baseOn (s : State) (core : Nat) (l : Launch) : Option Nat :=
  let on := s.onCore core
  (List.range 4).find? (fun base => (List.range 4).all (fun slot =>
    let have_ := on.foldl (fun (a : Nat × Nat) b =>
      let x := b.2.rcd.slotLoad b.2.base slot
      (a.1 + x.1, a.2 + x.2)) (l.slotLoad base slot)
    have_.1 ≤ 8 && have_.2 ≤ 1024))

/-- The base with which a core has room for a block: warps, budgets, scratchpad, a residency slot. -/
def State.roomOn (s : State) (core : Nat) (l : Launch) : Option Nat :=
  let on := s.onCore core
  if !s.mapped core || 32 ≤ on.length || 2 ^ 20 < on.foldl (fun a b => a + b.2.alloc) (4096 * l.scr) then none
  else s.baseOn core l

/-! ## Save areas (R422) -/

/-- Save areas of a die's pool in use: offset from the pool's physical base, and size. -/
def State.areasOf (s : State) (die : Nat) : List (Nat × Nat) :=
  let p := s.savePools.get {} die
  (s.blocks.cells.filter (fun c => c.2.st != .none && c.2.st != .gone && p.pbase ≤ c.2.savePa &&
    c.2.savePa < p.pbase + p.bytes)).map (fun c => (c.2.savePa - p.pbase, saveAreaSize c.2.rcd.warps))

/-- A place in the pool for an area of `n` bytes: firmware's choice among those that are free. -/
def State.areaFor (s : State) (die n : Nat) : Option Nat :=
  let p := s.savePools.get {} die
  let used := s.areasOf die
  let ok := fun (o : Nat) => o + n ≤ p.bytes && used.all (fun u => o + n ≤ u.1 || u.1 + u.2 ≤ o)
  let want := Config.freeValue s.free % (p.bytes + 1) / 4096 * 4096
  if ok want then some want
  else (0 :: used.map (fun u => u.1 + u.2)).find? ok

/-! ## Placement (R266, R267) -/

/-- A warp as it starts (R266). -/
def startWarp (s : State) (block : Nat) (b : BlockRec) (w : Nat) : Warp :=
  let l := b.rcd
  let main := w < l.wl
  let pc := if main then l.entry else l.sentry
  let g := b.b * l.warps + w
  let lane := fun (k : Nat) => ({ pc := pc, st := .live, xfer := some pc, rng := startRng l.seed g k } : Lane)
  let regs := (List.range 6).foldl (fun (a : Warp) i => a.wrS (i + 1) (l.params.getD i 0))
    { live := true, block := block, index := w, storer := !main, slot := (b.base + w) % 4, vb := l.vbOf w
      sb := l.sbOf w, resumePc := l.rentry, residence := s.time, placedAt := s.time, seq := s.nextSeq + w }
  lanes32.foldl (fun (a : Warp) k => a.setLane k (lane k)) regs

/-- A block leaves a core: the time from which the physical core's regions may switch off counts (R394). -/
def State.coreLeft (s : State) (core : Nat) : State := { s with lastBusy := s.lastBusy.set 0 (s.physOf core) s.time }

/-- A core that a block comes to is tested no more: it is restored within 2 µs (R393). -/
def State.endTest (s : State) (core : Nat) : State :=
  let die := core / 16
  let p := s.physOf core % 17
  let l := s.larder die
  if bit l.tested p then
    (s.draw.setLarder die { l with tested := putBit l.tested p false }).setPantry core
      { s.pantry core with abortUntil := s.time + Config.freeValue s.free % 2001 }
  else s

/-- A block is put on a core: its record, its save area with a clear status record, and its warps. -/
def State.putBlock (s : State) (core base die off : Nat) (b : BlockRec) : State :=
  let k := s.nextBlock
  let p := s.savePools.get {} die
  let n := b.rcd.warps
  let used := (s.onCore core).map (fun c => c.2.resSlot)
  let count := s.placeCounts.get 0 core
  let ids := (List.range n).map (fun w => s.nextWarp + w)
  let slot := ((List.range 32).find? (fun i => !used.contains i)).getD 0
  let b1 := { b with
    st := .placed, core := core, base := base, alloc := 4096 * b.rcd.scr, warps := ids, resSlot := slot
    handle := core * 2 ^ 23 + slot * 2 ^ 18 + count % 2 ^ 18, savePa := p.pbase + off, saveVa := p.vbase + off
    scratch := Memory.writeBytes {} 0 b.rcd.records }
  let s1 := { s.draw with
    nextBlock := k + 1, nextWarp := s.nextWarp + n, nextSeq := s.nextSeq + n
    placeCounts := s.placeCounts.set 0 core (count + 1) }
  let s2 := (s1.setBlock k b1).setJob b.job { s.job b.job with placed := true }
  let s3 := (s2.hardWrite core b1.savePa (List.replicate 64 0)).endTest core
  (List.range n).foldl (fun (a : State) w => a.setWarp (s.nextWarp + w) (startWarp s k b1 w)) s3

/-! ## Keys of bins (R269) -/

/-- The bin of a node on a die: a handle names a descriptor of its grid's own node table (R268). -/
def binKey (die job graph h : Nat) : Nat := graph * 2 ^ 27 + (die * 65536 + job) * 64 + h
def State.bin (s : State) (k : Nat) : Bin := s.bins.get {} k
def State.setBin (s : State) (k : Nat) (x : Bin) : State := { s with bins := s.bins.set {} k x }

/-- Bin storage of a die that is reserved. -/
def State.binBytes (s : State) (die : Nat) : Nat :=
  (s.bins.cells.filter (fun c => c.2.live && c.2.die == die)).foldl (fun a c => a + c.2.cap * c.2.rsz * 8) 0

/-! ## What the task unit answers (R272) -/

/-- A status word. -/
def statusWord (aux code : Nat) : Word := BitVec.ofNat 64 (aux * 2 ^ 8 + code)

/-- The status and the predicate bits of the Active threads, written together. -/
def Warp.answer (wp : Warp) (x : R3) (act aux code : Nat) : Warp :=
  let p := x.c % 16
  (wp.wrS x.d (statusWord aux code)).wrP p (BitVec.ofNat 32 (maskWhere 32 (fun l =>
    if bit act l then code == 0 else bit (wp.rdP p).toNat l)))

/-- The job is past the cancel point of a die (R278). -/
def State.pastCancel (s : State) (job die : Nat) : Bool := bit (s.job job).passed die

/-- What threads of an asking operation had in flight before it (R279), by operation. -/
def State.inFlight (s : State) (o : Op) (lanes : Nat) : List Nat :=
  (s.ops.cells.filter (fun c => c.2.st != .none && c.2.warp == o.warp && c.2.seq < o.seq && !c.2.i.uncounted &&
    (c.2.lanes &&& lanes) != 0)).map (·.1)

/-- The task unit answers the threads that asked (R272); a killed warp hears nothing. -/
def State.answerOp (s : State) (o : Op) (x : R3) (aux code : Nat) : State :=
  if o.orphan then s else s.setWarp o.warp ((s.warp o.warp).answer x o.lanes aux code)

/-- LAUNCH and LAUNCHT with a record's bytes (R273), for an operation that holds what they captured at issue: the job and
the die, the threads that were Active, and the parameters. -/
def State.acceptLaunch (s : State) (o : Op) (x : R3) (trigger : Option (Nat × Nat × Nat)) (params : List Nat)
    (bs : List Byte) : State :=
  let die := o.core / 16
  let r0 := Launch.of bs
  let r := { r0 with params := r0.params.mapIdx (fun i (p : Word) => match params[i]? with
    | some v => BitVec.ofNat 64 v
    | none => p) }
  let answer := fun (t : State) (code : Nat) => t.answerOp o x (t.loftFree die) code
  if recordBad bs then answer s 0x04
  else if s.pastCancel o.job die then answer s 0x02
  else if s.loftFree die = 0 then answer s 0x01
  else
    let hit := match trigger with
      | some (tb, off, g) => (s.aword tb off).trigger g
      | none => none
    answer (s.takeEntry die
      { job := o.job, rcd := r, trigger := trigger, hit := hit, publish := s.inFlight o o.lanes
        publishers := [(o.core, o.warp, o.lanes)] }) 0x00

/-- What a SPAWN captured at issue (R275): its node, its graph and node count, the registers below the vector budget, and
the record registers of its threads, 32 for each lane. -/
structure SpawnArgs where
  node : Nat
  graph : Nat
  nodes : Nat
  vb : Nat
  regs : List Nat

def SpawnArgs.nats (a : SpawnArgs) : List Nat := [a.node, a.graph, a.nodes, a.vb] ++ a.regs

def SpawnArgs.of (l : List Nat) : SpawnArgs :=
  { node := l.getD 0 0, graph := l.getD 1 0, nodes := l.getD 2 0, vb := l.getD 3 0, regs := l.drop 4 }

/-- The record of lane `l`: `n` registers. -/
def SpawnArgs.record (a : SpawnArgs) (l n : Nat) : List Byte :=
  (List.range n).flatMap (fun i => bytesOf 8 (a.regs.getD (32 * l + i) 0))

def SpawnArgs.at (wp : Warp) (b : BlockRec) (x : R3) : SpawnArgs :=
  { node := (wp.rdS x.b).toNat, graph := b.rcd.graph, nodes := b.rcd.nodes, vb := wp.vb
    regs := lanes32.flatMap (fun l => (List.range 32).map (fun i =>
      if x.a + i < wp.vb then (wp.rdV (x.a + i) l).toNat else 0)) }

/-- SPAWN with the descriptor's bytes, `none` where it cannot be read (R275): `none` where it faults on its budget. -/
def State.acceptSpawn (s : State) (o : Op) (x : R3) (bs : Option (List Byte)) : Option State :=
  let a := SpawnArgs.of o.args
  let die := o.core / 16
  let k := binKey die o.job a.graph a.node
  let bin := s.bin k
  let desc : Option Bin :=
    if bin.live then some bin
    else match bs with
    | none => none
    | some y =>
      if descBad y a.graph a.nodes die then none
      else
        let d := NodeDesc.of y a.graph a.nodes die
        some { live := true, die := die, job := o.job, node := a.node, cap := d.cap, rsz := d.rsz, count := d.count
               timer := d.timer, rcd := d.rcd }
  match desc with
  | none => some (s.answerOp o x 0 0x04)
  | some d =>
    if a.vb ≤ x.a + d.rsz - 1 then none
    else if s.pastCancel o.job die then some (s.answerOp o x (d.cap - d.records.length) 0x02)
    else if !bin.live && 2 ^ 22 < s.binBytes die + d.cap * d.rsz * 8 then some (s.answerOp o x 0 0x03)
    else
      let room := d.cap - d.records.length
      let lanes := maskList o.lanes 32
      if room < lanes.length then some ((s.setBin k d).answerOp o x room 0x03)
      else
        let new := lanes.map (fun l =>
          ({ bytes := a.record l d.rsz, since := s.time
             publish := s.inFlight o (2 ^ l), publisher := (o.core, o.warp, 2 ^ l) } : BinRecord))
        some ((s.setBin k { d with records := d.records ++ new }).answerOp o x (room - lanes.length) 0x00)

/-- NODEQ's word (R276) with the bin's capacity. -/
def State.nodeWord (s : State) (die job graph h cap : Nat) : Word :=
  let bin := s.bin (binKey die job graph h)
  let formed := (s.entries.cells.filter (fun c => c.2.live && c.1 / 4096 == die && c.2.job == job &&
    c.2.rcd.node == some h && c.2.rcd.graph == graph)).length
  let n := bin.records.length
  BitVec.ofNat 64 (formed % 2 ^ 12 * 2 ^ 48 + (cap - n) % 2 ^ 24 * 2 ^ 24 + n % 2 ^ 24)

end Sys2Proof.Machine
end

