-- ==== Sys2Proof/Machine/Perform.lean ====
section
/-!
DEFINITION. Issuing and performing memory operations, shared by classes 0x6, 0x7 and 0x8: the functions of atomics
(R226), the issue with its checks and exhaustion (R130, R144, R145), the events that perform elements, late faults
(R231–R234) and the ends of waits.
-/
namespace Sys2Proof.Machine

/-! ## The functions of atomics (R226) -/

/-- Width of an atomic's element in bits (R224). -/
def atomWidth (sz : Nat) : Nat := if sz = 1 ∨ sz = 3 then 64 else 32

def atomInt (o : AtomOp) (w old x : Nat) : Nat :=
  match o with
  | .add => (old + x) % 2 ^ w
  | .smin => if sext w old ≤ sext w x then old else x
  | .umin => Nat.min old x
  | .smax => if sext w old ≤ sext w x then x else old
  | .umax => Nat.max old x
  | .and => old &&& x
  | .or => old ||| x
  | .xor => old ^^^ x
  | .exch => x

/-- A sum in a format, rounded to nearest even; flags are dropped. -/
def addPat (f : FFmt) (a b : Nat) : Nat :=
  (roundVal f (sumVals [f.decode a, f.decode b] false).1 .rne 0).1

def atomFloat (o : FAtomOp) (sz old x : Nat) : Nat :=
  match o with
  | .add =>
    if sz = 4 then addPat bf16 (bits old 0 16) (bits x 0 16) + addPat bf16 (bits old 16 16) (bits x 16 16) * 2 ^ 16
    else if sz = 3 then addPat f64 old x
    else addPat f32 old x
  | .min => (minMaxPat f32 false old x).1
  | .max => (minMaxPat f32 true old x).1

def redFn (o : RedOp) (sz old x : Nat) : Nat :=
  match o with
  | .int o => atomInt o (atomWidth sz) old x
  | .float o => atomFloat o sz old x

/-- `F(old, x)` of an atomic; `y` is ATOMCAS's new value. Nothing is written when a comparison fails. -/
def atomFn (i : Instr) (old x y : Nat) : Option Nat :=
  match i with
  | .atom o m | .atomnr o m => some (atomInt o (atomWidth m.sz) old x)
  | .fatom o m | .fatomnr o m => some (atomFloat o m.sz old x)
  | .redv o m => some (redFn o m.sz old x)
  | .atomcas _ => if old = x then some y else none
  | _ => none

/-! ## Performing -/

/-- An atomic's element as one RMW: `x` is the old value at a peer. -/
def State.atomElem (s : State) (o : Op) (e : Elem) (x : Nat) : Nat × State :=
  let s1 := match e.place with
    | .home pa _ ms =>
      let near := inL1 o.scope e.place
      let t := if near then s else s.release (s.opCore o) (pa / 128)
      -- the line is read at its home, also for a fill of the L1 (R221, R325)
      if ms || (near && (s.l1Line (s.opCore o) (pa / 128)).valid) then t else t.byOp o pa true
    | _ => s
  let old := if e.place.remote then x % 2 ^ (8 * e.size) else s1.peek o e
  match atomFn o.i old e.data e.data2 with
  | some y => (old, s1.poke o e (bytesOf e.size y))
  -- also when the comparison fails the line is filled and pinned (R221), or its shared copies go (R223)
  | none => (old, if inL1 o.scope e.place then s1.poke o e [] else match e.place with
    | .home pa _ _ | .self pa => s1.unshare [pa / 128]
    | _ => s1)

/-- Fill blocks that an ICINV removes (R155). -/
def icinvTakes (o : Op) (x : Mem) (a : Nat) (b : FillBlock) : Bool :=
  b.asid == o.asid && (match x.sz % 4 with
    | 0 => b.va / 64 == a / 64
    | 1 => b.va / 2 ^ 12 == a / 2 ^ 12
    | 2 => b.va / 2 ^ 16 == a / 2 ^ 16
    | _ => true)

def State.icinv (s : State) (o : Op) (x : Mem) (a : Nat) : State :=
  let core := s.opCore o
  let reach := fun (fe : Nat) => match o.scope with
    | .lane | .warp | .block => fe == core
    | .cluster | .die => frontDie fe == core / 16
    | _ => true
  { s with icaches := ⟨(s.icaches.cells.map (fun (c : Nat × List FillBlock) =>
      if reach c.1 then (c.1, c.2.filter (fun b => !icinvTakes o x a b)) else c)).filter (fun c => c.2 != [])⟩ }

/-- SYS_TLBINV's removal (R421): from every TLB of the module. -/
def State.tlbinv (s : State) (asid x : Nat) : State :=
  let gone := fun (e : TlbEntry) =>
    if bits x 62 2 = 0 then
      (e.asid == asid || bit e.pte 7) && bits x 16 41 * 2 ^ 16 / 2 ^ e.size == e.va
    else e.asid == asid && !bit e.pte 7
  { s with
    tlbs := ⟨(s.tlbs.cells.map (fun (c : Nat × List TlbEntry) =>
      (c.1, c.2.filter (fun e => !gone e)))).filter (fun c => c.2 != [])⟩
    oldRoots := if bits x 62 2 = 1 then s.oldRoots.set [] asid [] else s.oldRoots }

/-- The stores that an element's own rules make performed first: TLBINV at dev scope, every stream (R421). -/
def State.elemRelease (s : State) (o : Op) : State :=
  match o.i with
  | .syswrTlbinv _ =>
    (s.releaseFor (s.opCore o) o.warp false 0xFF o.lanes).releaseFor (s.opCore o) o.warp true 0xFF o.lanes
  | _ => s.opRelease o

/-- What one element does: the value it returns, and the state. -/
def State.doElem (s : State) (o : Op) (e : Elem) (x : Nat) : Nat × State :=
  match o.i with
  | .ld _ | .ldu _ | .ldb _ => s.loadElem o e x
  | .st _ | .stu _ | .stb _ => (0, s.poke o e (bytesOf e.size e.data))
  | .atom _ _ | .atomnr _ _ | .atomcas _ | .fatom _ _ | .fatomnr _ _ | .redv _ _ => s.atomElem o e x
  | .icinv m => (0, s.icinv o m e.addr)
  | .arrive _ => match e.place with
    | .scratch b off =>
      -- the word's own scope may widen the release (R209)
      let s1 := if 3 ≤ (s.aword b off).scope then s.releaseFor (s.opCore o) o.warp o.hset o.after o.lanes else s
      (0, s1.arriveAt b off e.data)
    | _ => (0, s)
  | .awarm m => match e.place with
    | .scratch b off => (0, (s.setWord b off ((s.aword b off).arm e.data (bit m.sz 0))).testTriggers b off)
    | _ => (0, s)
  | .feset m => match e.place with
    | .scratch b off => (0, (List.range (e.size / 8)).foldl (fun a i => a.changeTag b (off + 8 * i) (bit m.c 0)) s)
    | _ => (0, s)
  | .syswrTlbinv _ => (0, s.tlbinv o.asid e.data)
  | .launch y =>
    let (v, s1) := s.loadElem o e x
    (v, s1.acceptLaunch o y none o.args (bytesOf 128 v))
  | .launcht y =>
    let (v, s1) := s.loadElem o e x
    (v, s1.acceptLaunch o y (some (o.args.getD 0 0, o.args.getD 1 0, o.args.getD 2 0)) (o.args.drop 3) (bytesOf 128 v))
  | .spawn y =>
    let (v, s1) := s.loadElem o e x
    match s1.acceptSpawn o y (some (bytesOf 64 v)) with
    | some s2 => (v, s2)
    -- the fault is found when the descriptor is read, and is precise (R275)
    | none => (v, if o.orphan then s1 else s1.faultWarp o.warp { cause := 0x022 })
  | .nodeq y =>
    let (v, s1) := s.loadElem o e x
    let (h, graph, die) := (o.args.getD 0 0, o.args.getD 1 0, o.core / 16)
    let cap := (NodeDesc.of (bytesOf 64 v) graph 0 die).cap
    (v, if o.orphan then s1
      else s1.setWarp o.warp ((s1.warp o.warp).wrS y.d (s1.nodeWord die o.job graph h cap)))
  | _ => (0, s)

/-- Mark an element done. -/
def Op.markDone (o : Op) (j ret : Nat) : Op :=
  { o with elems := o.elems.mapIdx (fun i (e : Elem) => if i = j then { e with done := true, ret := ret } else e) }

/-- Perform element `j` of operation `k`, if nothing holds it back. -/
def State.performElem (s : State) (k j x : Nat) : State :=
  let o := s.op k
  match o.elems[j]? with
  | none => s
  | some e =>
    if e.done || o.st != .flying then s
    else
      let s0 := s.elemRelease o
      if s0.elemReady o (o.elems.take j) e then
        let (v, s1) := s0.doElem o e x
        -- what the thread has written it is never given older (R143)
        let s2 := if o.i.isLoad then s1 else s1.forget o.warp e.place e.size
        s2.setOp k ((s2.op k).markDone j v)
      else s

/-- An operation of elements whose every element is done completes; otherwise the threads whose part is performed count
it. -/
def State.finishIfDone (s : State) (k : Nat) : State :=
  let o := s.op k
  if o.st == .flying && !o.i.wholeOp then (if o.elems.all (·.done) then s.finishOp k else s.countParts k) else s

/-- The element performs in this module, or at a peer or the host that serves it: an address that strays (R131) is
never served, nor a peer that no port reaches (R365). -/
def State.performsAt (s : State) (e : Elem) (remote : Bool) : Bool :=
  e.place.remote == remote && (match e.place with
    | .peer pa => !s.strays pa && s.reaches
    | _ => true)

/-- Elements of an operation perform: those of the lanes named, at places of this module or at remote ones. -/
def State.performOp (s : State) (k lanes : Nat) (ext : List Nat) (remote : Bool) : State :=
  let o := s.op k
  if o.st != .flying || o.i.wholeOp then s
  else
    let js := (List.range o.elems.length).filter (fun j => match o.elems[j]? with
      | some e => bit lanes e.lane && s.performsAt e remote
      | none => false)
    let s1 := js.foldl (fun (a : State) j => a.performElem k j (ext.getD j 0)) s
    let s2 := s1.finishIfDone k
    -- waits whose edges the parts performed now meet; a job that only this kept may end
    let s3 := if o.orphan then s2 else s2.joinWaits o.warp
    if o.i.asksUnit then s3.endJob o.job else s3

/-- A request that a peer's switch, or the host, serves (R363). -/
def execRemoteAccess (op lanes : Nat) (ext : List Nat) (s : State) : Answer := .next (s.performOp op lanes ext true)

/-! ## Issue (R130, R144, R145) -/

/-- The address of an FM word in a lane (R149): base, offset and displacement. -/
def Warp.memAddr (wp : Warp) (x : Mem) (vecOff : Bool) (l : Nat) : Nat :=
  let off : Int := match x.off with
    | .reg n ix =>
      let r : Int := if vecOff then ((wp.rdV n l).toNat : Int) else ((wp.rdS n).toNat : Int)
      r + (match ix with
        | some i => sext 28 i
        | none => 0)
    | .imm n ix => match ix with
      | some i => sext 38 (i * 2 ^ 10 + n)
      | none => sext 10 n
  wrap64 (((wp.rdS x.a).toNat : Int) + off)

/-- Lanes whose element `(l, 0)` is enabled, of a mask of Active threads. -/
def Warp.enabledLanes (wp : Warp) (m act : Nat) : Nat :=
  maskWhere 32 (fun l => bit act l && bit (wp.rdM m).toNat (8 * l))

/-- An operation in flight made from what an issue captured. -/
def State.newOp (s : State) (w : Nat) (i : Instr) (x : Mem) (lanes enabled group : Nat) (elems : List Elem)
    (args : List Nat) : Op :=
  let wp := s.warp w
  let b := s.block wp.block
  { st := .flying, instr := some i, warp := w, block := wp.block, core := b.core, job := b.job
    asid := (s.job b.job).asid, hset := wp.usesHandlerStreams, strm := x.strm, after := x.after, scope := x.scope
    lanes := lanes, enabled := enabled, group := group, zero := x.vx.z, pc := wp.pc, seq := s.nextSeq
    elems := elems, args := args, issuedAt := s.time }

/-- An operation enters flight: its issue counts rise (R144), and its state is kept under a number of its own. -/
def State.launchOp (s : State) (o : Op) : State × Nat :=
  let k := s.nextOp
  let wp := s.warp o.warp
  let w1 := if o.i.uncounted then wp else wp.setStreams o.hset ((wp.streams o.hset).issue o.lanes o.strm)
  ((({ s with nextOp := k + 1, nextSeq := s.nextSeq + 1 }.setWarp o.warp w1).setOp k o).opRelease o, k)

/-- What an atomic does to the issuing core's L1 as it issues (R222). -/
def State.atomIssue (s : State) (o : Op) : State :=
  if !o.i.isAtomic then s
  else o.elems.foldl (fun (a : State) e => match e.place with
    | .home pa _ _ | .self pa =>
      if inL1 o.scope e.place then a
      else if (a.l1Line o.core (pa / 128)).pinned then a.release o.core (pa / 128)
      else a.dropClean o.core (pa / 128)
    | _ => a) s

/-- Threads that must wait for room, of those about to issue an operation (R145): the whole group of a warp-uniform
operation, or the threads themselves. -/
def Warp.mustStall (wp : Warp) (uni : Bool) (strm real : Nat) : Nat :=
  let full := wp.full strm real
  if full = 0 then 0
  else if uni then maskWhere 32 (fun l => bit wp.group l && !wp.isHelper l) else full

/-- A memory operation issues. Its elements are already checked; those of threads that stall are left out. -/
def State.issueOp (s : State) (w : Nat) (i : Instr) (x : Mem) (real enabled : Nat) (elems : List Elem)
    (args : List Nat) : State :=
  let wp := s.warp w
  let stop := wp.mustStall i.uniformOp x.strm real
  let s1 := if stop = 0 then s
    else s.stall w i x.strm stop (fun l => if i.uniformOp then real else 2 ^ l)
  let out := (s.warp w).withHelpers stop
  let lanes := maskWhere 32 (fun l => bit real l && !bit out l)
  let keep := elems.filter (fun (e : Elem) => i.uniformOp || !bit out e.lane)
  let o := s1.newOp w i x lanes (maskWhere 32 (fun l => bit enabled l && !bit out l))
    (maskWhere 32 (fun l => bit wp.group l && !bit out l)) keep args
  if lanes = 0 then (match i with
    -- no operation; but Merge with z writes 0 in every thread of the group that is not Enabled (R150)
    | .ld _ => s1.setWarp w ((s1.warp w).bindOp { o with elems := [] })
    | _ => s1)
  else
    let (s2, k) := (s1.atomIssue o).launchOp o
    s2.finishIfDone k

/-- Issue of an access with one element in each enabled lane. -/
def laneAccess (i : Instr) (x : Mem) (need : Need) (helpers : Bool) (n : Nat) (mk : Warp → Nat → Elem → Elem)
    (w : Nat) (s : State) : Res :=
  let wp := s.warp w
  let act := if helpers then wp.active x.g else wp.activeReal x.g
  let en := wp.enabledLanes x.vx.m act
  let elems := (maskList en 32).map (fun l => mk wp l { lane := l, addr := wp.memAddr x true l, size := n })
  match s.checkAll (s.ctx w) need n wp.isHelper elems with
  | (.error t, s1) => .trap t s1
  | (.ok l, s1) => .ok (s1.issueOp w i x (wp.activeReal x.g) en l [])

/-- Issue of a warp-uniform access of one element, or of the pieces of a block transfer. -/
def wholeAccess (i : Instr) (x : Mem) (need : Need) (align : Nat) (elems : List Elem) (enabled : Nat) (args : List Nat)
    (w : Nat) (s : State) : Res :=
  let wp := s.warp w
  match s.checkAll (s.ctx w) need align wp.isHelper elems with
  | (.error t, s1) => .trap t s1
  | (.ok l, s1) => .ok (s1.issueOp w i x (wp.activeReal x.g) enabled l args)

/-! ## Late faults (R159, R231–R234) -/

/-- The causes of a late fault that a place can give (R157): an address that strays is rejected (R131). -/
def State.lateCauseOk (s : State) (p : Place) (cause : Nat) : Bool :=
  match p with
  | .home _ _ _ | .self _ => cause == 0x065
  | .peer pa => if s.strays pa then cause == 0x066 else cause == 0x065 || cause == 0x066 || cause == 0x067
  | .mmio _ => p.remote && (cause == 0x065 || cause == 0x066 || cause == 0x067)
  | _ => false

/-- What is never performed of an operation (R173, R234): the handler streams or not, the stream, and the threads. -/
abbrev Void := Bool × Nat × Nat

/-- Some part of an operation of those threads is ordered after what is never performed. -/
def Op.voided (o : Op) (l : List Void) (lanes : Nat) : Bool :=
  l.any (fun v => v.1 == o.hset && bit o.after v.2.1 && (v.2.2 &&& lanes) != 0)

/-- The operations of a warp that is gone, in issue order: one that is stuck is lost, and so is what its mask, or theirs in
turn, orders after it (R173); the rest goes on (R415). -/
def State.voidOps (s : State) (w : Nat) : State :=
  ((s.ops.cells.filter (fun c => c.2.warp == w && c.2.st != .none)).foldl (fun (a : State × List Void) c =>
    let o := c.2
    if o.st = .stuck then
      (a.1.setOp c.1 {}, (o.hset, o.strm, maskWhere 32 (fun l => bit o.lanes l && o.pending (2 ^ l))) :: a.2)
    else if o.i.wholeOp then
      (if o.voided a.2 o.lanes then (a.1.setOp c.1 {}, (o.hset, o.strm, o.lanes) :: a.2) else a)
    else
      let lost := o.elems.filter (fun e => !e.done && o.voided a.2 (o.elemLanes e))
      if lost.isEmpty then a
      else (a.1.setOp c.1 { o with elems := o.elems.filter (fun e => e.done || !o.voided a.2 (o.elemLanes e)) },
        (o.hset, o.strm, lost.foldl (fun m e => m ||| o.elemLanes e) 0) :: a.2)) (s, [])).1

/-- An operation takes a replay slot, the lowest that is free, or keeps its own (R231, R233). -/
def State.takeSlot (s : State) (k cause lane : Nat) : State :=
  let o := s.op k
  let wp := s.warp o.warp
  let slot := if wp.replays.contains k then o.slot
    else (List.range 4).find? (fun i => (s.slotOp wp i).isNone)
  (s.setOp k { o with st := .stuck, cause := cause, faultLane := lane, slot := slot }).setWarp o.warp
    { wp with replays := if wp.replays.contains k then wp.replays else wp.replays ++ [k] }

/-- A late fault on elements of the lanes named. A helper's element returns 0 instead (R65). -/
def State.lateFault (s : State) (k lanes cause : Nat) : State :=
  let o := s.op k
  let wp := s.warp o.warp
  let hit := (List.range o.elems.length).filter (fun j => match o.elems[j]? with
    | some e => bit lanes e.lane && !e.done && s.lateCauseOk e.place cause && s.elemReady o (o.elems.take j) e &&
      (cause != 0x067 || s.timedOut o.issuedAt)
    | none => false)
  let helper := fun (j : Nat) => o.i.isLoad && (match o.elems[j]? with
    | some e => wp.isHelper e.lane && !bit o.lanes e.lane
    | none => false)
  if o.st != .flying || !o.i.slotted then s
  else
    let o1 := (hit.filter helper).foldl (fun (a : Op) j => a.markDone j 0) o
    let s1 := (s.setOp k o1).finishIfDone k
    match hit.filter (fun j => !helper j) with
    | [] => s1
    | j :: _ =>
      let e := o.elems.getD j {}
      if o.orphan then (s1.setOp k { s1.op k with st := .stuck }).voidOps o.warp
      else
        let wq := s1.warp o.warp
        let due : HaltDue := { cause := cause, lane := e.lane, addr := e.addr, pc := some o.pc, late := true }
        if wq.replays.length < 4 || wq.replays.contains k then
          let s2 := s1.takeSlot k cause e.lane
          (s2.setWarp o.warp ((s2.warp o.warp).haltLater due)).slotChanged o.warp
        else
          -- R234: the elements not done are lost, and the operation is never performed (R173)
          let w1 := { wq with dead := true, cause := if wq.halted then 0x068 else wq.cause,
                              haltDue := if wq.halted then none else some { due with cause := 0x068 } }
          let w2 := if wq.halted then { w1 with word0 := BitVec.ofNat 64 (putBits wq.word0.toNat 0 10 0x068) } else w1
          let s2 := (s1.setOp k { s1.op k with st := .stuck, cause := 0x068, faultLane := e.lane }).setWarp o.warp w2
          let b := s.block wq.block
          (if wq.halted then s2.hardWrite b.core (b.framePa wq.index) (bytesOf 8 w2.word0.toNat) else s2).settleHalt o.warp

/-! ## Pins and waits -/

/-- 20 µs after the store that first dirtied it, a pinned line is written back (R136). -/
def execPinTimeout (core line : Nat) (s : State) : Answer :=
  let x := s.l1Line core line
  .next (if x.pinned && x.since + 20000 ≤ s.time then s.release core line else s)

/-- Threads leave their waits (R145, R200, R212): those that have performed, and those whose streams have room. A
selection is due (R55). -/
def State.waitEnd (s : State) (w lanes : Nat) : State :=
  let wp := s.warp w
  let out := maskWhere 32 (fun l =>
    let la := wp.lane l
    bit lanes l && la.st == .parked && (la.wait.ended || (la.wait.kind == .exhaustion &&
      wp.full la.wait.data la.wait.lanes = 0)))
  if out = 0 || wp.halted || !wp.live then s
  else s.setWarp w { wp.mapLanes out (fun _ la => { la with st := .live, wait := {} }) with selDue := true }

def execWaitEnd (warp lanes : Nat) (s : State) : Answer := .next (s.waitEnd warp lanes)

/-- A watchdog's period in nanoseconds (R213, R264). -/
def BlockRec.watchdog (b : BlockRec) : Nat := if b.rcd.wdog = 0 then 1000000000 else b.rcd.wdog * 1000000

/-- The watchdog of a parked thread expires (R213): its warp halts with the cause of its wait. -/
def State.watchdogWarp (s : State) (w : Nat) : State :=
  let wp := s.warp w
  let b := s.block wp.block
  let late := fun (l : Nat) =>
    let la := wp.lane l
    la.st == .parked && !la.wait.ended && (la.wait.kind == .tag || la.wait.kind == .arrival) &&
    la.wait.since + b.watchdog ≤ s.time
  match lanes32.find? late with
  | none => s
  | some l =>
    if wp.halted || !wp.live || b.st != .placed then s
    else
      let x := (wp.lane l).wait
      s.setWarp w (wp.haltLater
        { cause := if x.kind == .tag then 0x070 else 0x071, lane := l, addr := x.addr, pc := some x.pc })

end Sys2Proof.Machine
end

