-- ==== Sys2Proof/Machine/Atomic.lean ====
section
/-!
DEFINITION. The atomics and reductions of class 0x8 (R220–R230). What an element does stands in Perform.
-/
namespace Sys2Proof.Machine

def rmwNeed : Need := { read := true, write := true }

/-- Bytes of an atomic's element. -/
def atomBytes (x : Mem) : Nat := atomWidth x.sz / 8

/-- An atomic issues: its operands are captured at the element's width. -/
def atomicAccess (i : Instr) (x : Mem) (w : Nat) (s : State) : Res :=
  laneAccess i x rmwNeed false (atomBytes x) (fun wp l e =>
    { e with data := (wp.rdV x.d l).toNat % 2 ^ atomWidth x.sz
             data2 := (wp.rdV (x.d + 1) l).toNat % 2 ^ atomWidth x.sz }) w s

def execAtom (o : AtomOp) (x : Mem) (s : State) : Answer := onWarp (.atom o x) (atomicAccess (.atom o x) x) s
def execAtomnr (o : AtomOp) (x : Mem) (s : State) : Answer := onWarp (.atomnr o x) (atomicAccess (.atomnr o x) x) s
def execAtomcas (x : Mem) (s : State) : Answer := onWarp (.atomcas x) (atomicAccess (.atomcas x) x) s
def execFatom (o : FAtomOp) (x : Mem) (s : State) : Answer := onWarp (.fatom o x) (atomicAccess (.fatom o x) x) s
def execFatomnr (o : FAtomOp) (x : Mem) (s : State) : Answer := onWarp (.fatomnr o x) (atomicAccess (.fatomnr o x) x) s

/-- The elements that a REDV sends (R228): lanes of equal addresses combined in ascending order into the lowest. Each
names its lanes in `data2`. -/
def combine (f : Nat → Nat → Nat) : List Elem → List Elem → List Elem
  | [], acc => acc
  | e :: r, acc =>
    if acc.any (fun a => a.addr == e.addr) then
      combine f r (acc.map (fun a =>
        if a.addr == e.addr then { a with data := f a.data e.data, data2 := a.data2 + 2 ^ e.lane } else a))
    else combine f r (acc ++ [{ e with data2 := 2 ^ e.lane }])

def redvAccess (o : RedOp) (x : Mem) (w : Nat) (s : State) : Res :=
  let wp := s.warp w
  let real := wp.activeReal x.g
  let en := wp.enabledLanes x.vx.m real
  let elems := (maskList en 32).map (fun l =>
    ({ lane := l, addr := wp.memAddr x true l, size := atomBytes x
       data := (wp.rdV x.d l).toNat % 2 ^ atomWidth x.sz } : Elem))
  -- a replay slot records every lane's own address and operand (R232)
  let byLane : (Elem → Nat) → List Nat := fun f => lanes32.map (fun l => match elems.find? (fun e => e.lane == l) with
    | some e => f e
    | none => 0)
  match s.checkAll (s.ctx w) rmwNeed (atomBytes x) wp.isHelper elems with
  | (.error t, s1) => .trap t s1
  | (.ok l, s1) =>
    -- threads that stall combine nothing (R145)
    let stay := l.filter (fun e => !bit (wp.mustStall false x.strm real) e.lane)
    .ok (s1.issueOp w (.redv o x) x real en (combine (redFn o x.sz) stay [])
      (byLane (·.addr) ++ byLane (·.data)))

def execRedv (o : RedOp) (x : Mem) (s : State) : Answer := onWarp (.redv o x) (redvAccess o x) s

end Sys2Proof.Machine
end

