-- ==== Sys2Proof/Machine/Convert.lean ====
section
/-!
DEFINITION. Conversions: CVT (R114–R116) and the block formats of CVTB (R117–R119).
-/
namespace Sys2Proof

/-- Widths of a CVT's destination and source, and how many elements it converts in a lane. -/
def Alu.cvtDst (x : Alu) : Nat := cvtWidth (bits x.cNum 5 5)
def Alu.cvtSrc (x : Alu) : Nat := cvtWidth (bits x.cNum 0 5)
def Alu.cvtCount (x : Alu) : Nat := Nat.min (64 / x.cvtSrc) (64 / x.cvtDst)

/-- The destination and source sub-elements that element `j` uses (R115). -/
def Alu.cvtDstAt (x : Alu) (j : Nat) : Nat := if x.cvtDst < x.cvtSrc then x.fmt * (64 / x.cvtSrc) + j else j
def Alu.cvtSrcAt (x : Alu) (j : Nat) : Nat := if x.cvtSrc < x.cvtDst then x.fmt * (64 / x.cvtDst) + j else j

end Sys2Proof

namespace Sys2Proof.Machine

/-- The floating-point format of a CVT code (R114). -/
def cvtFloat (code : Nat) : FFmt :=
  match code with
  | 0x00 => f32
  | 0x01 => f64
  | 0x02 => f16
  | 0x03 => bf16
  | 0x04 | 0x0C => e4m3
  | 0x05 | 0x0D => e5m2
  | 0x06 => e3m2
  | 0x07 => e2m3
  | _ => e2m1

/-- Codes from 0x10 are the integer formats of R27. -/
def cvtIsInt (code : Nat) : Bool := 0x10 ≤ code
def cvtInt (code : Nat) : Nat := code - 0x10

/-- |x| > 57,344. -/
def aboveE5m2 (x : FVal) : Bool :=
  match x with
  | .fin _ n d => 57344 * d < n
  | _ => false

/-- A value converted to a floating-point destination (R116), with the mode resolved and the draw given. -/
def cvtToFloat (dst : Nat) (x : FVal) (mode : Rm) (draw : Nat) : Nat × Flags :=
  let f := cvtFloat dst
  if dst = 0x05 && aboveE5m2 x then
    ((if x.isNeg then f.signBit else 0) + f.maxPat, { overflow := true, inexact := true })
  else if dst = 0x0C then
    let r := roundVal f x mode draw
    if x.isInf || r.2.overflow then (0x7F, r.2) else r
  else roundVal f x mode draw

/-- A value converted to an integer destination (R116): `fmt` is the integer format. -/
def cvtToInt (fmt : Nat) (x : FVal) (mode : Rm) (draw : Nat) : Nat × Flags :=
  match x with
  | .nan _ => (0, { invalid := true })
  | .inf n => (wrapPat fmt (if n then intMin fmt else intMax fmt), { invalid := true })
  | .zero _ => (0, {})
  | .fin _ _ _ =>
    let q := roundToInt x mode draw
    if q.1 < intMin fmt then (wrapPat fmt (intMin fmt), { invalid := true })
    else if intMax fmt < q.1 then (wrapPat fmt (intMax fmt), { invalid := true })
    else (wrapPat fmt q.1, { inexact := !q.2 })

/-- One element of CVT: destination and source codes and the source pattern. -/
def cvtElem (dst src p : Nat) (sat : Bool) (rm : Rm) (ff rg : BitVec 32) : ElemOut :=
  if cvtIsInt dst && cvtIsInt src then
    let r := limitInt (cvtInt dst) sat (valOf (cvtInt src) p)
    { val := r.1, fl := r.2, rng := rg }
  else
    let mode := resolveRm rm ff
    let rg' := stepIf mode rg
    let x := if cvtIsInt src then ofInt (valOf (cvtInt src) p) else (cvtFloat src).decode p
    let r := if cvtIsInt dst then cvtToInt (cvtInt dst) x mode (drawOf rg') else cvtToFloat dst x mode (drawOf rg')
    { val := r.1, fl := r.2.or { invalid := x.isSig }, rng := rg' }

def cvtLane (x : Alu) (wp : Warp) : ElemFn := fun l j ff rg =>
  cvtElem (bits x.cNum 5 5) (bits x.cNum 0 5) (subOf (wp.opndV x.a l) (Alu.cvtSrc x) (Alu.cvtSrcAt x j)) x.vx.sat x.vx.rm
    ff rg

def cvtVec (x : Alu) (w : Nat) (s : State) : Res :=
  let wp := s.warp w
  finishVec x false (vecRun wp x (Alu.cvtDst x) (Alu.cvtDstAt x) (Alu.cvtCount x) (cvtLane x wp)) w s

def execCvt (x : Alu) (s : State) : Answer := onWarp (.cvt x) (cvtVec x) s

/-! ## CVTB -/

/-- A block format of R117: its element format (none: s8 × 2^−6), its emax (none: PB4), and whether two elements share
a byte. -/
structure BlockFmt where
  elem : Option FFmt
  emax : Option Nat
  packed : Bool := false

def blockFmt (b : Nat) : BlockFmt :=
  match b with
  | 0 => { elem := some e4m3, emax := some 8 }
  | 1 => { elem := some e5m2, emax := some 15 }
  | 2 => { elem := some e3m2, emax := some 4 }
  | 3 => { elem := some e2m3, emax := some 2 }
  | 4 => { elem := some e2m1, emax := some 2, packed := true }
  | 5 => { elem := none, emax := some 0 }
  | _ => { elem := some e2m1, emax := none, packed := true }

/-- A scale's value. -/
def BlockFmt.scaleVal (b : BlockFmt) (p : Nat) : FVal :=
  match b.emax with
  | some _ => e8m0Val p
  | none => ue5m3Val p

/-- The greater magnitude. -/
def maxMag (a b : FVal) : FVal :=
  let m := fun (v : FVal) => if v.isNeg then v.neg else v
  if lessVal (m a) (m b) then m b else m a

/-- The scale of a block whose largest magnitude is `amax` (R118). -/
def packScale (b : BlockFmt) (amax : FVal) : Nat :=
  match amax, b.emax with
  | .fin _ n d, some e => (clampInt (-127) 127 (floorLog2 n d - e) + 127).toNat
  | .fin _ n d, none =>
    ((List.range 255).find? (fun p => !lessVal (ue5m3Val p) (.fin false n (6 * d)))).getD 0xFE
  | _, _ => 0

/-- One element of CVTB.pack: its pattern and flags, given its block's scale. An MX INT8 element sets inexact as CVT to
an integer does (log entry 90). -/
def packElem (b : BlockFmt) (scale : Nat) (x : FVal) (mode : Rm) (draw : Nat) : Nat × Flags :=
  let sv := b.scaleVal scale
  match sv with
  | .fin _ sn sd =>
    let y := (divVal x (.fin false sn sd)).1
    match b.elem with
    | some f =>
      let r := roundVal f y mode draw
      -- overflow saturates
      if r.2.overflow then ((if y.isNeg then f.signBit else 0) + f.maxPat, r.2) else r
    | none =>
      let q := roundToInt (scaleVal y 6) mode draw
      let r := limitInt 0 true q.1
      (r.1, r.2.or { inexact := !q.2 })
  | _ => (0, {})

/-- The 32 lanes of a CVTB.pack: the packed register, byte by byte. -/
def packOuts (x : Alu) (wp : Warp) : List LaneOut :=
    let b := blockFmt (x.cNum % 16)
    let on := fun i => wp.enabled x.g x.vx.m (i / 2) (i % 2)
    let xOf := fun i => if on i then f32.decode (subOf (wp.opndV x.a (i / 2)) 32 (i % 2)) else FVal.zero false
    let ids := fun blk => (List.range 32).map (fun i => 32 * blk + i)
    let special := fun (v : FVal) => v.isNan || v.isInf
    let scale := fun blk =>
      if (ids blk).any (fun i => special (xOf i)) then 0xFF
      else packScale b ((ids blk).foldl (fun a i => maxMag a (xOf i)) (.zero false))
    let sc0 := scale 0
    let sc1 := scale 1
    -- each lane in turn: its two elements, in order
    let lane := fun (l : Nat) =>
      let la := wp.lane l
      let mode := resolveRm x.vx.rm la.fflags
      [2 * l, 2 * l + 1].foldl (fun (acc : List Nat × Flags × BitVec 32) i =>
        if on i then
          let rg := stepIf mode acc.2.2
          let v := xOf i
          let r := packElem b (if i < 32 then sc0 else sc1) v mode (drawOf rg)
          (acc.1 ++ [r.1], (acc.2.1.or r.2).or { invalid := special v }, rg)
        else (acc.1 ++ [0], acc.2.1, acc.2.2)) ([], {}, la.rng)
    let res := lanes32.map lane
    let pats := (res.map (·.1)).flatten
    let pat := fun i => pats.getD i 0
    -- the packed register, byte by byte
    let byte := fun o =>
      if o = 248 then sc0
      else if o = 249 then sc1
      else if b.packed then (if o < 32 then pat (2 * o) + pat (2 * o + 1) * 16 else 0)
      else if o < 64 then pat o else 0
    lanes32.map (fun l =>
      { val := BitVec.ofNat 64 (ofBytes ((List.range 8).map (fun k => BitVec.ofNat 8 (byte (8 * l + k)))))
        fl := (res.getD l ([], {}, 0)).2.1
        rng := (res.getD l ([], {}, (wp.lane l).rng)).2.2 })

def packVec (x : Alu) (w : Nat) (s : State) : Res :=
  if !(s.warp w).anyActive x.g then .ok s else finishVec x false (packOuts x (s.warp w)) w s

/-- One element of CVTB.unpack (R119). -/
def unpackElem (b : BlockFmt) (scale p : Nat) (rm : Rm) (ff rg : BitVec 32) : ElemOut :=
  let sv := b.scaleVal scale
  let v := match b.elem with
    | some f => f.decode p
    | none => scaleVal (ofInt (sext 8 p)) (-6)
  let y := match sv with
    | .nan _ => .nan false
    | .zero _ => .zero false
    | sv => (mulVal v sv).1
  roundElem f32 (y, {}) v.isSig rm ff rg

def unpackLane (x : Alu) (wp : Warp) : ElemFn := fun l k ff rg =>
  let b := blockFmt (x.cNum % 16)
  let byte := fun o => subOf (wp.opndV x.a (o / 8)) 8 (o % 8)
  let i := 2 * l + k
  let p := if b.packed then (if i % 2 = 0 then byte (i / 2) % 16 else byte (i / 2) / 16) else byte i
  unpackElem b (byte (248 + i / 32)) p x.vx.rm ff rg

def unpackVec (x : Alu) (w : Nat) (s : State) : Res := vecOp x false 32 (unpackLane x) w s

def execCvtbPack (x : Alu) (s : State) : Answer := onWarp (.cvtbPack x) (packVec x) s
def execCvtbUnpack (x : Alu) (s : State) : Answer := onWarp (.cvtbUnpack x) (unpackVec x) s

end Sys2Proof.Machine
end

