-- ==== Sys2Proof/Machine/Scratch.lean ====
section
/-!
DEFINITION. The instructions of class 0x7 (R199–R218): full/empty tags, arrival words and clusters.
-/
namespace Sys2Proof.Machine

/-! ## Tag instructions (R199, R200) -/

/-- The SA of an element, checked (R197, R198). -/
def State.placeSa (s : State) (w sa n align : Nat) : Except Nat Place :=
  if sa % align != 0 then .error 0x062 else s.resolveSa (s.warp w).block sa n

/-- The places of the lanes' words, or the lowest lane that fails. -/
def State.placeLanes (s : State) (w : Nat) (f : Nat → Nat) : List Nat → Except Trap (List (Nat × Nat × Place))
  | [] => .ok []
  | l :: r =>
    match s.placeSa w (f l) 8 8 with
    | .error c => .error { cause := c, lane := l, addr := f l }
    | .ok p => match s.placeLanes w f r with
      | .ok q => .ok ((l, f l, p) :: q)
      | e => e

/-- One element of a tag instruction at issue: it performs, or its thread parks and joins the queue once its edges are
met. -/
def State.tagIssue (s : State) (w : Nat) (i : Instr) (x : Mem) (l sa : Nat) (p : Place) : State :=
  let wp := s.warp w
  let data := (wp.rdV x.d l).toNat
  let wait : Wait := { kind := .tag, instr := some i, addr := sa, place := p, data := data, lanes := 2 ^ l
                       since := s.time, seq := s.nextSeq }
  let s0 := { s with nextSeq := s.nextSeq + 1 }
  match p with
  | .scratch b off =>
    let met := s.mayJoin w l wait
    if met && s.tagServes i b off then
      let (v, s1) := s0.tagDo i b off data
      let w1 := s1.warp w
      let st := w1.streams w1.usesHandlerStreams
      let w2 := w1.setStreams w1.usesHandlerStreams ((st.issue (2 ^ l) x.strm).complete (2 ^ l) x.strm)
      let w3 := match tagDest i with
        | some d => w2.wrV d l (BitVec.ofNat 64 v)
        | none => w2
      let s2 := ((s1.setWarp w w3).forget w p 8).serveWords b off 8
      State.serveTag s2.tagFuel b off s2
    else
      s0.setWarp w (wp.park (wp.withHelpers (2 ^ l)) (fun _ => { wait with joined := if met then s.nextSeq else 0 }))
  | _ => s0

def tagWarp (i : Instr) (x : Mem) (w : Nat) (s : State) : Res :=
  let wp := s.warp w
  let real := wp.activeReal x.g
  match s.placeLanes w (fun l => wp.memAddr x true l) (maskList real 32) with
  | .error t => .trap t s
  | .ok l =>
    let stop := wp.mustStall false x.strm real
    let s1 := if stop = 0 then s else s.stall w i x.strm stop (fun k => 2 ^ k)
    let s2 := if Scope.wide x.scope then
        s1.releaseFor (s.block wp.block).core w wp.usesHandlerStreams x.after real else s1
    .ok (l.foldl (fun (a : State) (e : Nat × Nat × Place) =>
      if bit stop e.1 then a else a.tagIssue w i x e.1 e.2.1 e.2.2) s2)

def execLdf (x : Mem) (s : State) : Answer := onWarp (.ldf x) (tagWarp (.ldf x) x) s
def execLdfe (x : Mem) (s : State) : Answer := onWarp (.ldfe x) (tagWarp (.ldfe x) x) s
def execSte (x : Mem) (s : State) : Answer := onWarp (.ste x) (tagWarp (.ste x) x) s
def execStf (x : Mem) (s : State) : Answer := onWarp (.stf x) (tagWarp (.stf x) x) s

/-! ## FESET, FEQ (R205, R206) -/

/-- An instruction that may have to wait becomes an operation that counts in no stream: it performs at once where
nothing holds it back; otherwise the warp issues nothing until it has performed. -/
def State.runOrBlock (s : State) (o : Op) (w : Nat) : State :=
  let (s1, k) := s.launchOp o
  let s2 := s1.performOp k (ones 32) [] false
  if (s2.op k).st == .none then s2 else s2.setWarp w ((s2.warp w).blockOn [k])

def fesetWarp (x : R3) (w : Nat) (s : State) : Res :=
  let wp := s.warp w
  let sa := (wp.rdS x.a).toNat
  let n := (wp.rdS x.b).toNat
  if 131072 < n && sa % 8 = 0 then
    -- a bad SA raises its own cause first
    match s.placeSa w sa 0 8 with
    | .error c => .trap { cause := c, addr := sa } s
    | .ok _ => .trap { cause := 0x064, addr := sa } s
  else match s.placeSa w sa (8 * n) 8 with
  | .error c => .trap { cause := c, addr := sa } s
  | .ok p =>
    if n = 0 then .ok s
    else .ok (s.runOrBlock
      (s.newOp w (.feset x) {} (ones 32) 0 0 [{ addr := sa, place := p, size := 8 * n }] []) w)

def execFeset (x : R3) (s : State) : Answer := onWarp (.feset x) (uniformReal x.g (fesetWarp x)) s

def feqWarp (x : R3) (w : Nat) (s : State) : Res :=
  let wp := s.warp w
  let sa := (wp.rdS x.a).toNat
  match s.placeSa w sa 1 8 with
  | .error c => .trap { cause := c, addr := sa } s
  | .ok (.scratch b off) =>
    let r := maskWhere 64 (fun i => off + 8 * i < (s.block b).alloc && s.tagAt b (off + 8 * i))
    .ok (s.setWarp w (wp.wrS x.d (BitVec.ofNat 64 r)))
  | .ok _ => .ok s

def execFeq (x : R3) (s : State) : Answer := onWarp (.feq x) (uniformReal x.g (feqWarp x)) s

/-! ## Arrival words (R210–R212) -/

/-- The operation of an AWARM or ARRIVE on the 16 bytes at its SA. Both count in their stream (R211; for AWARM log entry
101). -/
def wordOp (i : Instr) (x : Mem) (data : Nat) (w : Nat) (s : State) : Res :=
  let wp := s.warp w
  let sa := wp.memAddr x false 0
  match s.placeSa w sa 16 16 with
  | .error c => .trap { cause := c, addr := sa } s
  | .ok p => .ok (s.issueOp w i x (wp.activeReal x.g) 1 [{ addr := sa, place := p, size := 16, data := data }] [])

def awarmWarp (x : Mem) (w : Nat) (s : State) : Res :=
  let a := ((s.warp w).rdS x.d).toNat
  if bits a 36 28 != 0 || bits a 33 3 = 7 then .trap { cause := 0x022 } s else wordOp (.awarm x) x a w s

def execAwarm (x : Mem) (s : State) : Answer := onWarp (.awarm x) (uniformReal x.g (awarmWarp x)) s

def arriveWarp (x : Mem) (w : Nat) (s : State) : Res :=
  let wp := s.warp w
  let n := (wp.rdS x.d).toNat % 2 ^ 32
  wordOp (.arrive x) x (if bit x.sz 0 then n * popcount 32 (wp.activeReal x.g) else n) w s

def execArrive (x : Mem) (s : State) : Answer := onWarp (.arrive x) (uniformReal x.g (arriveWarp x)) s

def waitgWarp (x : Mem) (w : Nat) (s : State) : Res :=
  let wp := s.warp w
  let sa := wp.memAddr x false 0
  let real := wp.activeReal x.g
  match s.placeSa w sa 16 16 with
  | .error c => .trap { cause := c, addr := sa } s
  | .ok p =>
    let stop := wp.mustStall true x.strm real
    if stop != 0 then .ok (s.stall w (.waitg x) x.strm stop (fun _ => real))
    else
      let s0 := if Scope.wide x.scope then
          s.releaseFor (s.block wp.block).core w wp.usesHandlerStreams x.after real else s
      let s1 := { s0 with nextSeq := s0.nextSeq + 1 }
      let wait : Wait := { kind := .arrival, instr := some (.waitg x), addr := sa, place := p
                           data := (wp.rdS x.d).toNat % 2 ^ 32, lanes := real, since := s.time, seq := s0.nextSeq }
      let met := s0.mayJoin w 0 wait
      let word := match p with
        | .scratch b off => s0.aword b off
        | _ => AWord.of 0
      if met && word.err then .trap { cause := 0x073, addr := sa } s
      else if met && word.reached wait.data then
        let st := wp.streams wp.usesHandlerStreams
        let w1 := wp.setStreams wp.usesHandlerStreams ((st.issue real x.strm).complete real x.strm)
        .ok ((s1.setWarp w w1).report w real wp.pc)
      else
        -- what is written from now on is kept for the loads that follow (R176)
        let s2 := if wp.watches then s1 else { s1 with past := s1.past.set [] w [] }
        .ok (s2.setWarp w (wp.park wp.group (fun _ => { wait with joined := if met then s0.nextSeq else 0 })))

def execWaitg (x : Mem) (s : State) : Answer := onWarp (.waitg x) (uniformReal x.g (waitgWarp x)) s

/-! ## Clusters (R215–R218) -/

/-- The first number from `n` up, modulo 65,535, that is not used. -/
def firstUnused (used : List Nat) : Nat → Nat → Nat
  | 0, n => n
  | fuel + 1, n => if used.contains n then firstUnused used fuel ((n + 1) % 65535) else n

/-- A cluster of a die by grid and key; created empty if absent, under a die-unique identifier. -/
def State.findCluster (s : State) (die grid key : Nat) : Nat × State :=
  let here := s.clusters.cells.filter (fun c => c.2.live && c.1 / 65536 = die)
  match here.find? (fun c => c.2.grid = grid && c.2.key = key) with
  | some c => (c.1, s)
  | none =>
    let used := here.map (fun c => c.1 % 65536)
    let k := die * 65536 + firstUnused used (used.length + 1) (Config.freeValue s.free % 65535)
    (k, { s.draw with clusters := s.clusters.set {} k { live := true, grid := grid, key := key } })

/-- A block becomes the member with an index (R216). -/
def State.addMember (s : State) (c b i : Nat) : State :=
  let cl := s.cluster c
  let cl1 := { cl with members := cl.members.set none i (some b), cgen := (cl.cgen + 1) % 2 ^ 32 }
  { s with clusters := s.clusters.set {} c cl1 }.setBlock b { s.block b with cluster := some c, member := i }

/-- CJOIN as one step of the die's cluster table (R216): the status, the cluster and the index. -/
def State.cjoin (s : State) (b key : Nat) : Nat × Nat × Nat × State :=
  let bl := s.block b
  match bl.cluster with
  | some c => (if (s.cluster c).key = key then 1 else 3, c, bl.member, s)
  | none =>
    let (c, s1) := s.findCluster (bl.core / 16) bl.grid key
    let cl := s1.cluster c
    match (List.range 16).find? (fun i => (cl.members.get none i).isNone) with
    | none => (2, c, 0xFF, s1)
    | some i => (0, c, i, s1.addMember c b i)

def cjoinWarp (x : R3) (w : Nat) (s : State) : Res :=
  let (st, c, i, s1) := s.cjoin (s.warp w).block ((s.warp w).rdS x.a).toNat
  let cl := s1.cluster c
  let r := cl.cgen * 2 ^ 32 + st * 2 ^ 24 + cl.indexes.length * 2 ^ 16 + cl.span * 2 ^ 8 + i
  .ok (s1.setWarp w ((s1.warp w).wrS x.d (BitVec.ofNat 64 r)))

def execCjoin (x : R3) (s : State) : Answer := onWarp (.cjoin x) (uniformReal x.g (cjoinWarp x)) s

/-- R217 step 1: the scratchpad of block `b` is revoked for the other members; their waits on it end with the fault. -/
def State.revoke (s : State) (b : Nat) : State :=
  let s1 := s.setBlock b { s.block b with leaving := true }
  let hit := s1.waiters (fun x => (x.kind == .tag || x.kind == .arrival) && (match x.place with
    | .scratch b' _ => b' == b
    | _ => false))
  hit.foldl (fun (a : State) (e : Nat × Nat × Wait) =>
    let (w, l, x) := e
    let wp := a.warp w
    if wp.block = b then a
    else a.setWarp w ((wp.setLane l { wp.lane l with wait := { x with joined := 0 } }).haltLater
      { cause := 0x072, lane := l, addr := x.addr, pc := some x.pc })) s1

/-- The operation still has to access the scratchpad of block `b` from another block, or another member's from `b`. -/
def Op.crosses (o : Op) (b : Nat) : Bool :=
  o.members.any (fun m => (m == b) != (o.block == b)) ||
  o.elems.any (fun e => !e.done && (match e.place with
    | .scratch m _ => (m == b) != (o.block == b)
    | _ => false))

/-- Blocks whose scratchpads the engine of an operation reaches: for a COLL the one that its parameter block names, or while
that is not settled any member. -/
def State.opMembers (s : State) (o : Op) : List Nat :=
  match o.instr with
  | some (.coll _) => match s.recordNow o (o.args.headD 0) 128 with
    | some bs => [((s.asIssued o).saTarget o.block (CollBlock.of bs).aw).1]
    | none => match (s.block o.block).cluster with
      | some c => (s.cluster c).indexes.filterMap (fun i => (s.cluster c).members.get none i)
      | none => []
  | _ => o.members

/-- R217 steps 2 and 3: no operation that issued before `seq` still has to access the block's scratchpad, nor has the
block to access another member's. -/
def State.cleaveFree (s : State) (b seq : Nat) : Bool :=
  s.ops.cells.all (fun c => c.2.st == .none || seq ≤ c.2.seq || !{ c.2 with members := s.opMembers c.2 }.crosses b)

/-- R217 step 4: the index is freed, and the cluster ceases to exist with its last member. -/
def State.leaveCluster (s : State) (b : Nat) : State :=
  let bl := s.block b
  match bl.cluster with
  | none => s
  | some c =>
    let cl := s.cluster c
    let cl1 := { cl with members := cl.members.set none bl.member none, cgen := (cl.cgen + 1) % 2 ^ 32 }
    { s with clusters := s.clusters.set {} c (if cl1.indexes.isEmpty then {} else cl1) }.setBlock b
      { bl with cluster := none, member := 0, leaving := false }

def cleaveWarp (x : R3) (w : Nat) (s : State) : Res :=
  let b := (s.warp w).block
  if (s.block b).cluster.isNone || (s.block b).gang.isSome then .ok s
  else
    let s1 := s.revoke b
    let o := s1.newOp w (.cleave x) {} (ones 32) 0 0 [] []
    if s1.cleaveFree b o.seq then .ok (s1.leaveCluster b)
    else
      let (s2, k) := s1.launchOp o
      .ok (s2.setWarp w ((s2.warp w).blockOn [k]))

def execCleave (x : R3) (s : State) : Answer := onWarp (.cleave x) (uniformReal x.g (cleaveWarp x)) s

end Sys2Proof.Machine
end

