-- ==== Sys2Proof/Machine/Copy.lean ====
section
/-!
DEFINITION. The asynchronous copies of class 0x9 (R242–R256): what they check and capture at issue, how the copy engine
moves their pieces, completes them, and abandons them.
-/
namespace Sys2Proof.Machine

/-! ## Issue (R244) -/

/-- The packed-SA checks: illegal operand before misaligned access. -/
def packedFault (i : Instr) (d a list : Nat) : Option Trap :=
  let sp := bits d 0 25
  let aw := bits d 32 25
  let mem := bit sp 24 || bit aw 24
  let bad := match i with
    | .cpys _ => aw != 0
    | .cpym _ => mem
    | .cpyg _ => list / 2 ^ 25 != 0
    | _ => false
  if bits d 57 7 != 0 || bits d 25 7 != 0 || bad then some { cause := 0x022 }
  else if a % 64 != 0 then some { cause := 0x062, addr := a }
  else if sp % 16 != 0 then some { cause := 0x062, addr := sp }
  else if aw % 16 != 0 then some { cause := 0x062, addr := aw }
  else match i with
    | .cpyg _ => if list % 4 != 0 then some { cause := 0x062, addr := list } else none
    | _ => none

/-- The first register of an FM word's offset. -/
def Mem.offReg (x : Mem) : Nat :=
  match x.off with
  | .reg n _ => n
  | .imm _ _ => 0

/-- A copy enters its engine as one operation; its group stalls where a stream has no room. -/
def State.issueCopy (s : State) (w : Nat) (i : Instr) (x : Mem) (args : List Nat) (members : List Nat)
    (elems : List Elem) : State :=
  let wp := s.warp w
  let real := wp.activeReal x.g
  let stop := wp.mustStall true x.strm real
  if stop != 0 then s.stall w i x.strm stop (fun _ => real)
  else (s.launchOp { s.newOp w i x real real wp.group elems args with members := members }).1

/-- CPY, CPYS, CPYG and CPYM. -/
def boxCopy (i : Instr) (x : Mem) (w : Nat) (s : State) : Res :=
  let wp := s.warp w
  let b := wp.block
  let d := (wp.rdS x.d).toNat
  let a := (wp.rdS x.a).toNat
  let r := fun (k : Nat) => (wp.rdS (Mem.offReg x + k)).toNat
  let gather := match i with
    | .cpyg _ => true
    | _ => false
  let list := if gather then r 1 else 0
  match packedFault i d a list with
  | some t => .trap t s
  | none =>
    let sp := bits d 0 25
    let aw := bits d 32 25
    let (spB, spC) := s.saTarget b sp
    let (awB, awC) := s.saTarget b aw
    let (liB, liC) := s.saTarget b list
    let noWord := match i with
      | .cpys _ => true
      | _ => false
    let args : CopyArgs :=
      { rcd := a, sp := sp, spBlock := spB, spCause := spC, aw := aw, awBlock := awB
        awCause := if noWord then 0 else awC, list := list, listBlock := liB, listCause := if gather then liC else 0
        lane := ((maskList (wp.activeReal x.g) 32).head?).getD 0
        coords := if gather then [r 0 % 2 ^ 32] else (List.range 5).map (fun k => r k % 2 ^ 32) }
    let members := match i with
      | .cpym _ => match (s.block b).cluster with
        | some c => (s.cluster c).indexes.filterMap (fun k => (s.cluster c).members.get none k)
        | none => [b]
      | .cpys _ => [spB]
      | _ => [spB, awB, liB]
    .ok (s.issueCopy w i x args.nats members [])

def execCpy (x : Mem) (s : State) : Answer := onWarp (.cpy x) (uniformReal x.g (boxCopy (.cpy x) x)) s
def execCpys (x : Mem) (s : State) : Answer := onWarp (.cpys x) (uniformReal x.g (boxCopy (.cpys x) x)) s
def execCpyg (x : Mem) (s : State) : Answer := onWarp (.cpyg x) (uniformReal x.g (boxCopy (.cpyg x) x)) s
def execCpym (x : Mem) (s : State) : Answer := onWarp (.cpym x) (uniformReal x.g (boxCopy (.cpym x) x)) s

/-- CPYC (R250): with no byte to copy it is performed at issue. -/
def lineCopy (x : Mem) (w : Nat) (s : State) : Res :=
  let wp := s.warp w
  let n := (wp.rdS x.d).toNat
  let src := (wp.rdS x.a).toNat
  let dst := (wp.rdS (Mem.offReg x)).toNat
  if n % 128 != 0 || 2 ^ 32 ≤ n then .trap { cause := 0x022 } s
  else if src % 128 != 0 then .trap { cause := 0x062, addr := src } s
  else if dst % 128 != 0 then .trap { cause := 0x062, addr := dst } s
  else
    let lane := ((maskList (wp.activeReal x.g) 32).head?).getD 0
    let args : CopyArgs := { rcd := src, sp := n, spBlock := 0, spCause := 0, aw := dst, awBlock := 0, awCause := 0,
                             list := 0, listBlock := 0, listCause := 0, lane := lane, coords := [] }
    let s1 := s.issueCopy w (.cpyc x) x args.nats [] (linePieces n src dst)
    if n = 0 && s1.nextOp != s.nextOp then .ok (s1.finishOp s.nextOp) else .ok s1

def execCpyc (x : Mem) (s : State) : Answer := onWarp (.cpyc x) (uniformReal x.g (lineCopy x)) s

/-! ## The engine -/

/-- Whose access a copy's is. -/
def Op.ctx (s : State) (o : Op) : Ctx := { core := s.opCore o, block := o.block, asid := o.asid }

/-- What holds a copy back: its mask, and earlier operations of its threads that overlap the bytes named. -/
def State.copyEdges (s : State) (o : Op) : Bool := s.edgesMet o.warp o.hset o.after o.lanes o.seq

def State.copySame (s : State) (o : Op) (p : Place) (n : Nat) : Bool := s.sameMet o.warp o.lanes o.seq p n

/-- Bytes of memory as an engine reads them: at the home, never from an L1 (R252); nothing while the line is pinned, nor
from a peer that cannot be reached. `ext` are a peer's bytes. -/
def State.engineRead (s : State) (die : Nat) (p : Place) (n : Nat) (ext : List Nat) : Option (List Byte) × State :=
  match p with
  | .home pa nc ms =>
    if s.homeHeld pa ms then (none, s)
    else if ms then (some (s.msRead n pa), s)
    else (some (s.mem.readBytes n pa), s.noteRdc die pa nc ms)
  | .self pa => (if s.homeHeld pa false then none else some (s.mem.readBytes n pa), s)
  | .peer pa =>
    (if s.strays pa || !s.reaches then none else some ((List.range n).map (fun i => BitVec.ofNat 8 (ext.getD i 0 % 256))), s)
  | _ => (none, s)

/-- Bytes written through to the home by an engine; nothing while the line is pinned, nor at a peer that cannot be
reached. -/
def State.engineWrite (s : State) (p : Place) (bs : List Byte) : Option State :=
  match p with
  | .home pa _ ms =>
    if s.homeHeld pa ms then none else if ms then some (s.msWrite pa bs) else some (s.writeHome pa bs)
  | .self pa => if s.homeHeld pa false then none else some (s.writeHome pa bs)
  | .peer pa => if s.strays pa || !s.reaches then none else some s
  | _ => none

/-- A copy's request reaches the home slice of a line (R325). -/
def State.copyAt (s : State) (o : Op) (p : Place) (reads : Bool) : State :=
  match p with
  | .home pa _ false => s.byOp o pa reads
  | _ => s

/-- Memory written for a copy: the issuing core's copies take the bytes (R172), and its warp is given nothing older. -/
def State.copyWrite (s : State) (o : Op) (p : Place) (bs : List Byte) : Option State :=
  match (s.copyAt o p false).engineWrite p bs with
  | none => none
  | some t =>
    let t1 := t.forget o.warp p bs.length
    some (match p.spot with
      | some (0, pa) => t1.engineSeen (t.opCore o) pa bs
      | _ => t1)

def isCopy : Instr → Bool
  | .cpy _ | .cpys _ | .cpyg _ | .cpym _ | .cpyc _ => true
  | _ => false

/-- Every copy that the core's engine accepted before this one has started (R245). -/
def State.copyTurn (s : State) (o : Op) : Bool :=
  s.ops.cells.all (fun c => c.2.st != .flying || !isCopy c.2.i || c.2.sent || s.opCore c.2 != s.opCore o || o.seq ≤ c.2.seq)

/-- A fault of a copy as its log records it (R256): cause, address, member index. -/
abbrev CopyBad := Nat × Nat × Nat

/-- What a copy finds when it starts: its pieces, the faults it has, or something that holds it back. -/
inductive CopyStart where
  | wait
  | bad (l : List CopyBad)
  | pieces (l : List Elem)

/-- The members of a CPYM, or the one target of another copy, whose scratchpad does not hold `n` bytes at an SA (R255). -/
def State.shortTargets (s : State) (o : Op) (sa n : Nat) : List CopyBad :=
  match o.i with
  | .cpym _ => (o.members.filter (fun m => s.beyond m (sa % 2 ^ 20 + n))).map (fun m => (0x078, sa, (s.block m).member))
  | _ => []

/-- The start of a copy: its record and list are read after the edges of its mask are met (R246, R247). -/
def State.copyStart (s : State) (o : Op) (ext : List Nat) : CopyStart × State :=
  let a := s.copyArgs o
  if !s.copyEdges o || !s.copyTurn o then (.wait, s)
  else match s.engineCheck (o.ctx s) { read := true } a.rcd 64 with
  | (.error c, s1) => (.bad [(c, a.rcd, 0)], s1)
  | (.ok p, s1) =>
    if !s1.copySame o p 64 then (.wait, s1)
    else match (s1.copyAt o p true).engineRead (s.opCore o / 16) p 64 ext with
    | (none, s2) => (.wait, s2)
    | (some bs, s2) =>
      let r := TRec.of bs
      let listFree := match o.i with
        | .cpyg _ => s2.copySame o (.scratch a.listBlock (a.list % 2 ^ 20)) (4 * r.box 1)
        | _ => true
      match s2.copyPieces o.i a bs with
      | .error (c, at0) => (.bad (match c, s2.shortTargets o a.sp r.bytes with
        | 0x078, f :: rest => f :: rest
        | _, _ => [(c, at0, 0)]), s2)
      | .ok l =>
        if !listFree then (.wait, s2)
        else match s2.shortTargets o a.sp r.bytes with
        | [] => (.pieces l, s2)
        | f => (.bad f, s2)

/-- What came of one piece: it waits, it has a fault, or it is moved. -/
inductive PieceRes where
  | wait
  | bad (cause addr : Nat)
  | done (s : State)

/-- The line of a CPYC pairs region 01 with region 00 (R250). -/
def pairs (p q : Place) : Bool :=
  match p, q with
  | .home a _ _, .home b _ _ => bits a 50 2 + bits b 50 2 == 1
  | _, _ => false

/-- One piece of a copy moves. -/
def State.movePiece (s : State) (o : Op) (before : List Elem) (e : Elem) (ext : List Nat) : PieceRes :=
  let c := o.ctx s
  let die := s.opCore o / 16
  let frozen := (copyTargets o e).any (fun p => match p with
    | .scratch b _ => (s.block b).frozen
    | _ => false)
  let put := fun (a : State) (bs : List Byte) => (copyTargets o e).foldl (fun (a : State) p => match p with
    | .scratch b off => (a.forget o.warp p bs.length).pokeScratch b off bs
    | _ => a) a
  let free := fun (a : State) => !frozen && (copyTargets o e).all (fun p => a.copySame o p e.size)
  match o.i with
  | .cpys _ =>
    if e.data2 = 1 then .done s
    else match s.engineCheck c { write := true } e.addr e.size, e.place with
    | (.error f, _), _ => .bad f e.addr
    | (.ok p, s1), .scratch b off =>
      if !free s1 || !s1.copySame o p e.size ||
         before.any (fun d => !d.done && d.data2 != 1 && d.addr < e.addr + e.size && e.addr < d.addr + d.size) then .wait
      else match s1.copyWrite o p (s1.readScratch b off e.size) with
      | none => .wait
      | some s2 => .done s2
    | _, _ => .wait
  | .cpyc _ =>
    match s.engineCheck c { read := true } e.addr 128 with
    | (.error f, _) => .bad f e.addr
    | (.ok p, s1) =>
      match s1.engineCheck c { write := true } e.data 128 with
      | (.error f, _) => .bad f e.data
      | (.ok q, s2) =>
        if !pairs p q then .bad 0x077 e.addr
        else if !s2.copySame o p 128 || !s2.copySame o q 128 then .wait
        else match (s2.copyAt o p true).engineRead die p 128 ext with
        | (none, _) => .wait
        | (some bs, s3) =>
          match s3.copyWrite o q bs with
          | none => .wait
          | some s4 => .done s4
  | _ =>
    if e.data2 = 1 then (if free s then .done (put s (bytesOf e.size e.data)) else .wait)
    else match s.engineCheck c { read := true } e.addr e.size with
    | (.error f, _) => .bad f e.addr
    | (.ok p, s1) =>
      if !free s1 || !s1.copySame o p e.size then .wait
      else match (s1.copyAt o p true).engineRead die p e.size ext with
      | (none, _) => .wait
      | (some bs, s2) => .done (put s2 bs)

/-- A copy starts, if it has not: its pieces are then known. -/
def State.startCopy (s : State) (k : Nat) (ext : List Nat) : State :=
  let o := s.op k
  if o.sent then s
  else match o.i with
  | .cpyc _ => if s.copyEdges o && s.copyTurn o then s.setOp k { o with sent := true } else s
  | _ => match s.copyStart o ext with
    | (.pieces l, s1) => s1.setOp k { o with elems := l, sent := true }
    | (_, s1) => s1

/-- Pieces of the lanes named move, where nothing holds them back. `ext` are the 64 bytes of a record, then the bytes of
each piece in order, for those at fabric peers. The pinned lines that its mask's edges cover are written back before
(R252). -/
def State.moveCopy (s : State) (k lanes : Nat) (ext : List Nat) : State :=
  let s0 := if s.copyEdges (s.op k) then s.opRelease (s.op k) else s
  let s1 := s0.startCopy k ext
  let o := s1.op k
  if o.st != .flying || !o.sent || !s1.copyEdges o then s1
  else (List.range o.elems.length).foldl (fun (a : State) j =>
    let q := a.op k
    match q.elems[j]? with
    | some e =>
      if e.done || !bit lanes e.lane then a
      else match a.movePiece q (q.elems.take j) e (ext.drop ((q.elems.take j).foldl (fun n d => n + d.size) 64)) with
      | .done b => b.setOp k ((b.op k).markDone j 0)
      | _ => a
    | none => a) s1

/-- The arrival words of a copy: block and offset (R246, R248). -/
def State.copyWords (s : State) (o : Op) : List (Nat × Nat) :=
  let a := s.copyArgs o
  match o.i with
  | .cpys _ | .cpyc _ => []
  | .cpym _ => o.members.map (fun m => (m, a.aw % 2 ^ 20))
  | _ => if a.awCause = 0 then [(a.awBlock, a.aw % 2 ^ 20)] else []

/-- Bytes that a copy's increment counts: the box. -/
def copyBytes (o : Op) : Nat := o.elems.foldl (fun a e => a + e.size) 0

/-- The faults of a copy's arrival words (R255). -/
def State.wordFaults (s : State) (o : Op) : List CopyBad :=
  let a := s.copyArgs o
  match o.i with
  | .cpys _ | .cpyc _ => []
  | .cpym _ => s.shortTargets o a.aw 16
  | _ => if a.awCause != 0 then [(a.awCause, a.aw, 0)]
    else if s.beyond a.awBlock (a.aw % 2 ^ 20 + 16) then [(0x078, a.aw, 0)] else []

/-- Every piece has moved: the increments are made and the copy is performed (R246, R251). Increments of several members
come together (log entry 106). -/
def State.endCopy (s : State) (k : Nat) : State :=
  let o := s.op k
  if o.st == .flying && o.sent && o.elems.all (·.done) && (s.wordFaults o).isEmpty &&
     (s.copyWords o).all (fun w => !(s.block w.1).frozen) then
    ((s.copyWords o).foldl (fun (a : State) w => a.arriveAt w.1 w.2 (copyBytes o)) s).finishOp k
  else s

/-- The engine finishes a copy. -/
def execCopyComplete (op : Nat) (ext : List Nat) (s : State) : Answer :=
  .next (if isCopy (s.op op).i && (s.op op).st == .flying then (s.moveCopy op (ones 32) ext).endCopy op else s)

/-- Elements of an operation perform; pieces of a copy move; a CLEAVE ends once nothing holds it. -/
def State.opPerformed (s : State) (k lanes : Nat) (ext : List Nat) : State :=
  let o := s.op k
  match o.i with
  | .cleave _ =>
    if o.st == .flying && s.cleaveFree o.block o.seq then (s.leaveCluster o.block).dropOp k else s
  | i =>
    if isCopy i then (if o.st == .flying then s.moveCopy k lanes ext else s) else s.performOp k lanes ext false

/-! ## Faults (R254–R256) -/

/-- An entry of a core's copy fault log: the first that is not valid, or the overflow bit of entry 0, which only the host
clears. -/
def State.logCopy (s : State) (core : Nat) (e : LogEntry) : State :=
  let log := s.copyLogs.get [] core
  let full := log ++ List.replicate (8 - log.length) {}
  match (List.range 8).find? (fun i => !bit (full.getD i {}).word0.toNat 63) with
  | some i =>
    let ovf := bit (full.getD i {}).word0.toNat 24
    { s with copyLogs := s.copyLogs.set [] core
               (full.set i { e with word0 := BitVec.ofNat 64 (putBit e.word0.toNat 24 ovf) }) }
  | none =>
    let e0 := full.getD 0 {}
    { s with copyLogs := s.copyLogs.set [] core
               (full.set 0 { e0 with word0 := BitVec.ofNat 64 (putBit e0.word0.toNat 24 true) }) }

/-- A copy's log entry. -/
def copyLogEntry (s : State) (o : Op) (cause addr member : Nat) : LogEntry :=
  let a := CopyArgs.of o.args
  { word0 := BitVec.ofNat 64 (2 ^ 63 + cause * 2 ^ 53 + opcodeOf o.i * 2 ^ 42 + (s.warp o.warp).index * 2 ^ 37 +
      a.lane * 2 ^ 32 + o.strm * 2 ^ 29 + member * 2 ^ 25)
    addr := addr, record := a.rcd, pc := o.pc }

/-- A copy or transfer is abandoned (R254): it stays, uncounted, until its warp resumes, and the warp halts at its next
head. -/
def State.abandon (s : State) (k cause addr lane : Nat) : State :=
  let o := s.op k
  -- a killed warp's copy is lost, with what its mask orders (R173)
  if o.orphan then (s.setOp k { o with st := .stuck }).voidOps o.warp
  else
    let wp := s.warp o.warp
    let s1 := s.setOp k { o with st := .stuck, cause := cause }
    (s1.setWarp o.warp ({ wp with abandoned := wp.abandoned ++ [k] }.haltLater
      { cause := cause, lane := lane, addr := addr, pc := some o.pc, late := true })).settleHalt o.warp

/-- A data error can come of reading, or at a peer of writing, at an address (R255): an uncorrectable error at a source, a
rejection, a timeout. -/
def State.dataErrs (s : State) (o : Op) (va n : Nat) (writes : Bool) : List CopyBad :=
  match (s.engineCheck (o.ctx s) (if writes then { write := true } else { read := true }) va n).1 with
  | .ok (.home pa _ ms) => if writes || s.homeHeld pa ms then [] else [(0x07A, va, 0)]
  | .ok (.self _) | .ok (.peer _) => [(0x07A, va, 0)]
  | _ => []

/-- The faults that a copy can meet as things stand. -/
def State.copyFaults (s : State) (k : Nat) (ext : List Nat) : List CopyBad :=
  let o := s.op k
  if !s.copyEdges o then []
  else if !o.sent then
    if !s.copyTurn o then []
    else match o.i with
    | .cpyc _ => []
    | _ => (match (s.copyStart o ext).1 with
      | .bad l => l
      | _ => []) ++ s.dataErrs o (s.copyArgs o).rcd 64 false
  else
    let writes := match o.i with
      | .cpys _ => true
      | _ => false
    s.wordFaults o ++ (List.range o.elems.length).flatMap (fun j => match o.elems[j]? with
      | some e =>
        if e.done || e.data2 = 1 then []
        else (match s.movePiece o (o.elems.take j) e ext with
          | .bad c a => [(c, a, 0)]
          | _ => []) ++ s.dataErrs o e.addr e.size writes
      | none => [])

/-- The engine meets a fault and abandons the copy (R254); pieces of the lanes `written` moved before it. While a word's
scratchpad moves, setting its `err` waits (R253). -/
def State.copyFault (s : State) (k cause addr member written : Nat) (ext : List Nat) : State :=
  let o := s.op k
  if o.st != .flying || !isCopy o.i then s
  else
    let s1 := s.moveCopy k written ext
    let words := s1.copyWords o
    if words.any (fun w => (s1.block w.1).frozen) || !(s1.copyFaults k ext).contains (cause, addr, member) then s1
    else
      let s2 := (words.filter (fun w => !s1.beyond w.1 (w.2 + 16))).foldl (fun (b : State) w => b.spoilWord w.1 w.2) s1
      (s2.logCopy o.core (copyLogEntry s o cause addr member)).abandon k cause addr (CopyArgs.of o.args).lane

def execCopyFault (op cause addr member written : Nat) (ext : List Nat) (s : State) : Answer :=
  .next (s.copyFault op cause addr member written ext)

end Sys2Proof.Machine
end

