-- ==== Sys2Proof/Machine/Fabric.lean ====
section
/-!
DEFINITION. The fabric (R361–R377): transfers and collectives, how they start, end and are abandoned, what peers do to
this module, and the state of its ports.
-/
namespace Sys2Proof.Machine

/-! ## Groups and issue (R361, R367, R368) -/

/-- The group bound to a job. -/
def State.groupOf (s : State) (job : Nat) : Group := s.groups.get {} job

/-- Block `B` of the host-launched grid of a job, whether it stands or not. -/
def State.peerBlock (s : State) (job blk : Nat) : Option Nat :=
  (s.blocks.cells.find? (fun c => c.2.job == job && c.2.b == blk && 24 * 4096 ≤ c.2.entry && c.2.rcd.node.isNone &&
    c.2.standing)).map (·.1)

/-- The checks of a transfer, in R368's order: `d0`, `d1`, `d2` are s[d] to s[d+2] and `lva` is the local address. -/
def State.xferFault (s : State) (get : Bool) (job d0 d1 d2 lva : Nat) : Option Trap :=
  let g := s.groupOf job
  let kind := bit d0 63
  let nw := bit d1 63
  let len := bits d2 32 32
  if bits d0 57 6 != 0 || (kind && bits d0 20 37 != 0) || bits d1 40 23 != 0 || bits d1 25 7 != 0 ||
     (!nw && !get && bits d1 20 5 != 0) || len < 16 || 2 ^ 24 < len || len % 16 != 0 ||
     (!nw && bits d1 0 25 % 16 != 0) then some { cause := 0x022 }
  else if lva % 16 != 0 then some { cause := 0x062, addr := lva }
  else if !kind && bits d0 0 57 % 16 != 0 then some { cause := 0x062, addr := bits d0 0 57 }
  else if !g.live || g.n ≤ bits d1 32 8 then some { cause := 0x0C4 }
  else none

/-- What a transfer captured at issue (R368). -/
structure XferArgs where
  lva : Nat
  nw : Bool
  aw : Nat
  len : Nat
  lane : Nat
  /-- The peer's side: s[d], the rank, and block B. -/
  peer : Nat
  rank : Nat
  blk : Nat

def XferArgs.of (l : List Nat) : XferArgs :=
  { lva := l.getD 0 0, nw := l.getD 1 0 != 0, aw := l.getD 2 0, len := l.getD 3 0, lane := l.getD 4 0
    peer := l.getD 5 0, rank := l.getD 6 0, blk := l.getD 7 0 }

/-- FXFER and FGET (R367–R369): the operation keeps the local address, nw, aw, len, the lowest Active lane, and the
peer's operands, which leave the module; and the blocks whose scratchpads it reaches (R217). -/
def xferWarp (i : Instr) (x : Mem) (get : Bool) (w : Nat) (s : State) : Res :=
  let wp := s.warp w
  let d := fun (k : Nat) => (wp.rdS (x.d + k)).toNat
  let lva := wp.memAddr x false 0
  match s.xferFault get (s.block wp.block).job (d 0) (d 1) (d 2) lva with
  | some t => .trap t s
  | none =>
    let len := bits (d 2) 32 32
    let lane := ((maskList (wp.activeReal x.g) 32).head?).getD 0
    let near := match if isWindow lva then s.resolveWindow wp.block lva 16 else .error 0 with
      | .ok (.scratch b _) => [b]
      | _ => []
    -- to its own rank, a transfer's far end lies in this module too
    let far : List Elem := if bits (d 1) 32 8 != (s.groupOf (s.block wp.block).job).rank then []
      else if bit (d 0) 63 then match s.peerBlock (s.block wp.block).job (bits (d 2) 0 32) with
        | some b => [{ place := .scratch b (bits (d 0) 0 20), size := len, data2 := 1 }]
        | none => []
      else [{ addr := bits (d 0) 0 57, size := len }]
    let word := if get && !bit (d 1) 63 then [(s.saTarget wp.block (bits (d 1) 0 25)).1] else []
    .ok (s.issueCopy w i { x with scope := .sys }
      [lva, b2n (bit (d 1) 63), bits (d 1) 0 25, len, lane, d 0, bits (d 1) 32 8, bits (d 2) 0 32] (near ++ word)
      ({ addr := lva, size := len } :: far))

def execFxfer (x : Mem) (s : State) : Answer := onWarp (.fxfer x) (uniformReal x.g (xferWarp (.fxfer x) x false)) s
def execFget (x : Mem) (s : State) : Answer := onWarp (.fget x) (uniformReal x.g (xferWarp (.fget x) x true)) s

/-- COLL (R372): the parameter block is read later, by the engine. -/
def collWarp (x : Mem) (w : Nat) (s : State) : Res :=
  let wp := s.warp w
  let lane := ((maskList (wp.activeReal x.g) 32).head?).getD 0
  .ok (s.issueCopy w (.coll x) { x with scope := .sys } [wp.memAddr x false 0, lane] [] [])

def execColl (x : Mem) (s : State) : Answer := onWarp (.coll x) (uniformReal x.g (collWarp x)) s

/-! ## FLINKQ (R377) -/

/-- Flits replayed in the last millisecond. -/
def Port.replays (p : Port) (now : Nat) : Nat :=
  Nat.min 255 ((p.replayed.filter (fun x => now < x.1 + 1000000)).foldl (fun a x => a + x.2) 0)

/-- The link word of a port. -/
def Port.word (p : Port) (now : Nat) : Nat :=
  p.retrains * 2 ^ 48 + p.credits * 2 ^ 32 + p.replays now * 2 ^ 16 + p.lanes * 2 ^ 8 + p.width * 4 + p.state

def flinkqWarp (x : R3) (w : Nat) (s : State) : Res :=
  let p := ((s.warp w).rdS x.a).toNat
  if 36 ≤ p then .trap { cause := 0x022 } s
  else .ok (s.setWarp w ((s.warp w).wrS x.d (BitVec.ofNat 64 ((s.ports.get {} p).word s.time))))

def execFlinkq (x : R3) (s : State) : Answer := onWarp (.flinkq x) (uniform x.g (flinkqWarp x)) s

/-! ## Local memory as the fabric engine sees it (R369, R372) -/

/-- The place of bytes of one line: windows where a transfer allows them, as they resolve in the state given, else region
00 or 01. -/
def State.fabricPlace (s : State) (c : Ctx) (window : Option State) (need : Need) (va n : Nat) : Except Nat Place × State :=
  if isWindow va then
    match window, (window.getD s).resolveWindow c.block va n with
    | some _, .ok p => (.ok p, s)
    | _, _ => (.error 0x0C2, s)
  else if 2 ^ 57 ≤ va then (.error 0x0C1, s)
  else
    let (t, s1) := s.translate (c.core / 16) c.asid va
    match t with
    | none => (.error 0x0C1, s1)
    | some e =>
      if (need.read && !bit e.pte 1) || (need.write && !bit e.pte 2) || !isLocal (e.pa va) then (.error 0x0C2, s1)
      else (.ok (.home (e.pa va) (bit e.pte 6) (bit e.pte 5)), s1)

/-- A range of addresses cut at lines. -/
def lineCuts : Nat → Nat → Nat → List (Nat × Nat)
  | 0, _, _ => []
  | fuel + 1, va, n =>
    if n = 0 then [] else
      let k := Nat.min n (128 - va % 128)
      (va, k) :: lineCuts fuel (va + k) (n - k)

/-- The places of a range, or the cause and address of the first line that has none. -/
def State.fabricPlaces (s : State) (c : Ctx) (window : Option State) (need : Need) :
    List (Nat × Nat) → Except (Nat × Nat) (List (Place × Nat)) × State
  | [] => (.ok [], s)
  | (va, n) :: r =>
    match s.fabricPlace c window need va n with
    | (.error e, s1) => (.error (e, va), s1)
    | (.ok p, s1) => match s1.fabricPlaces c window need r with
      | (.ok l, s2) => (.ok ((p, n) :: l), s2)
      | x => x

def State.fabricRange (s : State) (c : Ctx) (window : Option State) (need : Need) (va n : Nat) :
    Except (Nat × Nat) (List (Place × Nat)) × State :=
  s.fabricPlaces c window need (lineCuts (n / 128 + 2) va n)

/-- Nothing holds the bytes at the places: earlier operations on them, pins, moving scratchpads. -/
def State.fabricFree (s : State) (o : Op) (l : List (Place × Nat)) : Bool :=
  l.all (fun p => s.copySame o p.1 p.2 && (match p.1 with
    | .home pa _ ms => !s.homeHeld pa ms
    | .scratch b _ => !(s.block b).frozen
    | _ => true))

def State.fabricRead (s : State) (l : List (Place × Nat)) : List Byte :=
  (l.map (fun p => match p.1 with
    | .home pa _ ms => if ms then s.msRead p.2 pa else s.mem.readBytes p.2 pa
    | .scratch b off => s.readScratch b off p.2
    | _ => [])).flatten

/-- Bytes written at the places, in order, for a request of an ASID, or of a peer. -/
def State.fabricWrite (s : State) (asid : Option Nat) : List (Place × Nat) → List Byte → State
  | [], _ => s
  | (p, n) :: r, bs =>
    (match p with
     | .home pa _ ms => if ms then s.msWrite pa (bs.take n) else (s.atSlice pa asid none).writeHome pa (bs.take n)
     | .scratch b off => s.pokeScratch b off (bs.take n)
     | _ => s).fabricWrite asid r (bs.drop n)

/-- Bytes that the engine writes for one of its core's operations: the core's copies take them, and the warp is given nothing
older of them (R143, R172). -/
def State.fabricPut (s : State) (o : Op) (l : List (Place × Nat)) (bs : List Byte) : State :=
  let t := s.fabricWrite (some o.asid) l bs
  (l.foldl (fun (a : State × List Byte) p =>
    let a1 := a.1.forget o.warp p.1 p.2
    (match p.1 with
     | .home pa _ _ => a1.engineSeen (a1.opCore o) pa (a.2.take p.2)
     | _ => a1, a.2.drop p.2)) (t, bs)).1

/-! ## Ends and abandonments (R369, R370) -/

/-- The local arrival word of an operation: its place, or nothing where it is unusable (R372). -/
def State.localWord (s : State) (o : Op) (aw : Nat) : Option (Nat × Nat) :=
  let (m, c) := (s.asIssued o).saTarget o.block aw
  if c != 0 || (s.block m).alloc < aw % 2 ^ 20 + 16 then none else some (m, aw % 2 ^ 20)

/-- A transfer or collective is abandoned (R370): it is logged, sets err in the word given, and its warp halts. While that
word's scratchpad moves, this waits (R253). -/
def State.abandonXfer (s : State) (k cause addr rcd lane : Nat) (word : Option (Nat × Nat)) : State :=
  let o := s.op k
  let s1 := match word with
    | some (b, off) => if (s.block b).standing then s.spoilWord b off else s
    | none => s
  let entry : LogEntry :=
    { word0 := BitVec.ofNat 64 (2 ^ 63 + cause * 2 ^ 53 + opcodeOf o.i * 2 ^ 42 + (s.warp o.warp).index * 2 ^ 37 +
        lane * 2 ^ 32 + o.strm * 2 ^ 29)
      addr := addr, record := rcd, pc := o.pc }
  if (match word with
    | some (b, _) => (s.block b).frozen
    | none => false) then s
  else (s1.logCopy o.core entry).abandon k cause addr lane

/-- The word of a transfer that this rank counts into: FGET's. -/
def State.xferWord (s : State) (o : Op) : Option (Nat × Nat) :=
  let a := XferArgs.of o.args
  match o.i with
  | .fget _ => if a.nw then none else s.localWord o a.aw
  | _ => none

def State.abandonTransfer (s : State) (k cause addr : Nat) : State :=
  let o := s.op k
  let a := XferArgs.of o.args
  s.abandonXfer k cause addr a.lva a.lane (s.xferWord o)

def isFxfer (o : Op) : Bool :=
  match o.i with
  | .fxfer _ => o.st == .flying
  | _ => false
def isFget (o : Op) : Bool :=
  match o.i with
  | .fget _ => o.st == .flying
  | _ => false

/-! ## The peer's side (R362, R369, R370) -/

/-- The peer's word, where it stands within its block. -/
def State.peerWord (s : State) (job blk off : Nat) : Option (Nat × Nat) :=
  match s.peerBlock job blk with
  | some b => if (s.block b).alloc < off + 16 then none else some (b, off)
  | none => none

/-- A transfer that is refused sets err in its word, where the word's block is resident (R370). -/
def State.refuseWord (s : State) (word : Option (Nat × Nat)) : State :=
  match word with
  | some (b, off) => if (s.block b).st = .placed then s.spoilWord b off else s
  | none => s

/-- The places that a transfer names in this module as its peer, or nothing where they are rejected. -/
def State.peerPlaces (s : State) (job : Nat) (toScratch : Bool) (addr blk n : Nat) (need : Need) (first : Bool) :
    Option (List (Place × Nat)) × State :=
  if toScratch then
    match s.peerBlock job blk with
    | some b =>
      (if (s.block b).alloc < addr + n || (first && (s.block b).st != .placed) then none
       else some [(.scratch b addr, n)], s)
    | none => (none, s)
  else
    let core := match s.blocks.cells.find? (fun c => c.2.job == job && c.2.standing) with
      | some c => c.2.core
      | none => 0
    match s.fabricRange { core := core, block := 0, asid := (s.job job).asid } none need addr n with
    | (.ok l, s1) => (some l, s1)
    | (.error _, s1) => (none, s1)

/-- Nothing at the peer's places holds the bytes up: pins, and scratchpads that move. -/
def State.peerFree (s : State) (l : List (Place × Nat)) : Bool :=
  l.all (fun p => match p.1 with
    | .home pa _ ms => !s.homeHeld pa ms
    | .scratch b _ => !(s.block b).frozen
    | _ => true)

/-- The word's scratchpad moves. -/
def State.wordHeld (s : State) (word : Option (Nat × Nat)) : Bool :=
  match word with
  | some (b, _) => (s.block b).frozen
  | none => false

/-- Bytes of a peer's FXFER arrive; with its last bytes the increment counts all of them. -/
def State.inbound (s : State) (job : Nat) (toScratch : Bool) (addr blk : Nat) (aw : Option Nat) (last : Bool)
    (bytes : List Nat) (xfer : Nat) : State :=
  let st := s.xfers.get .none xfer
  let bs := bytes.map (fun x => BitVec.ofNat 8 x)
  let before := match st with
    | .started n => n
    | _ => 0
  let live := match st with
    | .none | .started _ => true
    | _ => false
  let word := match aw with
    | some off => s.peerWord job blk (off % 2 ^ 20)
    | none => none
  if !live || !(s.groupOf job).live || s.wordHeld word then s
  else
    let (ps, s1) := s.peerPlaces job toScratch addr blk bs.length { write := true } (st == .none)
    let reject := { s1.refuseWord word with xfers := s1.xfers.set .none xfer .aborted }
    match ps with
    | none => reject
    | some l =>
      if !s1.peerFree l then s1
      else if last && aw.isSome && word.isNone then reject
      else
        let s2 := s1.fabricWrite none l bs
        let s3 := match last, word with
          | true, some (b, off) => s2.arriveAt b off (before + bs.length)
          | _, _ => s2
        { s3 with xfers := s3.xfers.set .none xfer (if last then .incremented else .started (before + bs.length)) }

/-! ## Transfers of this module (R369, R370) -/

/-- The transfer's peer is this module itself. -/
def State.ownRank (s : State) (o : Op) : Bool := (XferArgs.of o.args).rank = (s.groupOf o.job).rank

/-- The places of a transfer's peer operand in this module, for one of its own rank. -/
def State.ownPlaces (s : State) (o : Op) (need : Need) : Option (List (Place × Nat)) × State :=
  let a := XferArgs.of o.args
  s.peerPlaces o.job (bit a.peer 63) (bits a.peer 0 57) a.blk a.len need true

/-- The word that an FXFER to this module's own rank counts into. -/
def State.ownWord (s : State) (o : Op) : Option (Nat × Nat) :=
  let a := XferArgs.of o.args
  match o.i with
  | .fxfer _ => if a.nw then none else s.peerWord o.job a.blk (a.aw % 2 ^ 20)
  | _ => none

/-- A transfer is refused by its peer, or its request times out (R370). Where the peer is this module, its word takes the
err (R370). -/
def State.failXfer (s : State) (k cause : Nat) : State :=
  let o := s.op k
  if s.ownRank o then
    if s.wordHeld (s.ownWord o) then s
    else (s.refuseWord (s.ownWord o)).abandonTransfer k cause (XferArgs.of o.args).lva
  else s.abandonTransfer k cause (XferArgs.of o.args).lva

/-- The acknowledgement of an FXFER: its source was read after the edges of its mask. To this module's own rank, the bytes
are written and counted here first, all in one step (log entry 107). -/
def State.xferAck (s : State) (k : Nat) : State :=
  let o := s.op k
  let a := XferArgs.of o.args
  if !isFxfer o || !s.copyEdges o then s
  else match (s.opRelease o).fabricRange (o.ctx s) (some (s.asIssued o)) { read := true } a.lva a.len with
  | (.error (c, va), s1) => s1.abandonTransfer k c va
  | (.ok l, s1) =>
    if !s1.fabricFree o l then s1
    else if !s1.ownRank o then s1.finishOp k
    else match s1.ownPlaces o { write := true } with
    | (none, s2) => s2.failXfer k 0x066
    | (some q, s2) =>
      let word := s2.ownWord o
      if !s2.fabricFree o q || s2.wordHeld word then s2
      else match a.nw, word with
      | false, none => s2.failXfer k 0x066
      | _, some (b, off) => (((s2.fabricPut o q (s2.fabricRead l)).arriveAt b off a.len)).finishOp k
      | true, none => (s2.fabricPut o q (s2.fabricRead l)).finishOp k

/-- The bytes of an FGET arrive, all in one step (log entry 107); those of this module's own rank are read here. -/
def State.xferData (s : State) (k : Nat) (bytes : List Nat) : State :=
  let o := s.op k
  let a := XferArgs.of o.args
  if !isFget o || !s.copyEdges o then s
  else match (s.opRelease o).fabricRange (o.ctx s) (some (s.asIssued o)) { write := true } a.lva a.len with
  | (.error (c, va), s1) => s1.abandonTransfer k c va
  | (.ok l, s1) =>
    let own := s1.ownRank o
    let (q, s2) := if own then s1.ownPlaces o { read := true } else (some [], s1)
    let word := s2.localWord o a.aw
    match q with
    | none => s2.failXfer k 0x066
    | some src =>
      let bs := if own then s2.fabricRead src else (List.range a.len).map (fun i => BitVec.ofNat 8 (bytes.getD i 0))
      if !s2.fabricFree o (l ++ src) then s2
      else if a.nw then (s2.fabricPut o l bs).finishOp k
      else match word with
      | none => s2.abandonXfer k 0x0C2 a.aw a.lva a.lane none
      | some (b, off) =>
        if (s2.block b).frozen then s2 else ((s2.fabricPut o l bs).arriveAt b off a.len).finishOp k

/-- The peer's refusal of a transfer: this module itself refuses what it cannot place. -/
def State.xferRefused (s : State) (k : Nat) : State :=
  let o := s.op k
  let need : Need := if isFget o then { read := true } else { write := true }
  if !(isFxfer o || isFget o) || !s.copyEdges o || (s.ownRank o && (s.ownPlaces o need).1.isSome) then s
  else s.failXfer k 0x066

/-- Bytes and acknowledgements that the fabric brings. -/
def State.landing (s : State) : Landing → State
  | .inbound job toScratch addr blk aw last bytes xfer => s.inbound job toScratch addr blk aw last bytes xfer
  | .ack op => s.xferAck op
  | .data op bytes => s.xferData op bytes
  | .rejected op => s.xferRefused op

def execFabricLanding (l : Landing) (s : State) : Answer := .next (s.landing l)

/-- A transfer's request timeout (R365, R370). -/
def execFabricTimeout (op : Nat) (s : State) : Answer :=
  let o := s.op op
  .next (if (isFxfer o || isFget o) && s.copyEdges o && s.timedOut o.issuedAt then s.failXfer op 0x067 else s)

/-- The abort of a peer's transfer arrives (R370): err, unless the increment was made. -/
def State.abortArrives (s : State) (a : AbortMsg) : State :=
  match s.xfers.get .none a.xfer with
  | .incremented | .aborted => s
  | _ =>
    let word := match a.aw with
      | some off => s.peerWord a.job a.blk (off % 2 ^ 20)
      | none => none
    let s1 := match word with
      | some (b, o) => s.spoilWord b o
      | none => s
    if s.wordHeld word then s else { s1 with xfers := s1.xfers.set .none a.xfer .aborted }

def execTransferAbortArrival (a : AbortMsg) (s : State) : Answer := .next (s.abortArrives a)

/-- A request of a fabric peer (R138, R363): a store is written at the home; a load or a fetch may leave a copy in the
switch slices, unless the line is memory-side. -/
def State.peerRequest (s : State) : PeerReq → State
  | .fget _ _ _ => s
  | .store pa bytes =>
    if isLocal pa && bits pa 50 2 = 0 && pa % 128 + bytes.length ≤ 128 && !s.homeHeld pa false then
      (s.atSlice pa none none).writeHome pa (bytes.map (fun x => BitVec.ofNat 8 x))
    else s
  | .load pa _ | .fetch pa =>
    if isLocal pa && bits pa 50 2 = 0 && !s.homeHeld pa false then
      let s1 := s.atSlice pa none none
      s1.setLine pa { s1.lineOf pa with switch := true }
    else s

def execPeerRequest (r : PeerReq) (s : State) : Answer := .next (s.peerRequest r)

/-! ## Collectives (R371–R376) -/

/-- aw is of a form of R197. -/
def CollBlock.awForm (p : CollBlock) : Bool := p.aw % 2 ^ 25 < 2 ^ 20 || bit p.aw 24

/-- The block is malformed (R372), in a group of N ranks bound under an id. -/
def CollBlock.malformed (p : CollBlock) (g : Group) : Bool :=
  let src := p.srcLen g.n
  let dst := p.dstLen g.n
  bits p.ctl 14 18 != 0 || bits p.ctl 12 2 == 3 || 8 ≤ p.fmt || 6 ≤ p.cop || 5 ≤ p.kind || bits p.count 40 24 != 0 ||
  p.rest != 0 || bits p.aw 25 7 != 0 || bits p.group 16 16 != 0 || (p.kind != 3 && p.root != 0) ||
  p.aw % 16 != 0 || !p.awForm || (3 ≤ p.cop && p.fmt < 4) || !g.live || p.group != g.id || g.n ≤ p.root ||
  (p.kind == 4) != (p.count == 0) ||
  p.src % p.esz != 0 || p.dst % p.esz != 0 ||
  (p.src != p.dst && p.src < p.dst + dst && p.dst < p.src + src) || (p.src == p.dst && p.kind != 0 && p.kind != 3)

/-- The float format of an element and the format it is combined in. -/
def collFloat (fmt : Nat) : Option (FFmt × FFmt) :=
  match fmt with
  | 0 => some (f32, f32)
  | 1 => some (bf16, f32)
  | 2 => some (f16, f32)
  | 3 => some (f64, f64)
  | _ => none

/-- `Widen` (R373). -/
def collWiden (fmt x : Nat) : Nat :=
  match collFloat fmt with
  | some (f, g) => (roundVal g (f.decode x) .rne 0).1
  | none => x

/-- `Narrow` (R373): every NaN is canonical. -/
def collNarrow (fmt x : Nat) : Nat :=
  match collFloat fmt with
  | some (f, g) => (roundVal f (g.decode x) .rne 0).1
  | none => x

/-- One step of a combination (R373). -/
def collStep (fmt op acc x : Nat) : Nat :=
  match collFloat fmt with
  | some (_, g) => match op with
    | 0 => addPat g acc x
    | 1 => (minMaxPat g false acc x).1
    | _ => (minMaxPat g true acc x).1
  | none =>
    let w := if fmt = 6 ∨ fmt = 7 then 64 else 32
    let signed := fmt = 4 ∨ fmt = 6
    match op with
    | 0 => atomInt .add w acc x
    | 1 => if signed then atomInt .smin w acc x else Nat.min acc x
    | 2 => if signed then atomInt .smax w acc x else Nat.max acc x
    | 3 => acc &&& x
    | 4 => acc ||| x
    | _ => acc ^^^ x

/-- One combined element from the ranks' elements, rank 0 first (R373). -/
def collElem (fmt op : Nat) : List Nat → Nat
  | [] => 0
  | x :: r => collNarrow fmt (r.foldl (fun a y => collStep fmt op a (collWiden fmt y)) (collWiden fmt x))

/-- The bytes of dst on rank `r` (R372), from every rank's src. -/
def CollBlock.result (p : CollBlock) (rank : Nat) (srcs : List (List Byte)) : List Byte :=
  let e := p.esz
  let combine := fun (from0 : Nat) => ((List.range p.count).map (fun i =>
    bytesOf e (collElem p.fmt p.cop (srcs.map (fun l => ofBytes ((l.drop ((from0 + i) * e)).take e)))))).flatten
  match p.kind with
  | 0 => combine 0
  | 1 => combine (rank * p.count)
  | 2 => (srcs.map (fun l => l.take (p.count * e))).flatten
  | 3 => (srcs.getD p.root []).take (p.count * e)
  | _ => []

/-- Another collective of the job with the same tag is in flight since before (R375). -/
def State.tagInUse (s : State) (o : Op) (tag : Nat) : Bool :=
  s.ops.cells.any (fun c => c.2.st == .flying && c.2.job == o.job && c.2.seq < o.seq && (match c.2.i with
    | .coll _ => s.edgesMet c.2.warp c.2.hset c.2.after c.2.lanes c.2.seq &&
        (match s.recordAt c.2 (c.2.args.headD 0) 128 with
         | some pa => (CollBlock.of (s.mem.readBytes 128 pa)).tag == tag
         | none => false)
    | _ => false))

/-- Abandonment of a collective, with err in its own word when that can be reached. -/
def State.abandonColl (s : State) (k cause addr : Nat) (word : Option (Nat × Nat)) : State :=
  let o := s.op k
  s.abandonXfer k cause addr (o.args.headD 0) (o.args.getD 1 0) word

/-- A collective ends on this rank (R372–R376), its result bytes and its increment in one step (log entry 107). `others` are the other ranks' contributions. -/
def State.collEnd (s : State) (k : Nat) (r : CollEnd) : State :=
  let o := s.op k
  let at0 := o.args.headD 0
  let c := o.ctx s
  let g := s.groupOf o.job
  let isColl := match o.i with
    | .coll _ => o.st == .flying
    | _ => false
  if !isColl || !s.copyEdges o then s
  else if at0 % 128 != 0 then s.abandonColl k 0x0C0 at0 none
  else match (s.opRelease o).fabricPlace c none { read := true } at0 128 with
  | (.error e, s1) => s1.abandonColl k e at0 none
  | (.ok q, s1) =>
    if !s1.fabricFree o [(q, 128)] then s1
    else
      let p := CollBlock.of (s1.fabricRead [(q, 128)])
      let word := s1.localWord o p.aw
      if p.malformed g then s1.abandonColl k 0x0C0 at0 (if bits p.aw 25 7 = 0 ∧ p.aw % 16 = 0 ∧ p.awForm then word else none)
      else if 2 ^ 36 < p.srcLen g.n then s1.abandonColl k 0x0C2 p.src word
      else if 2 ^ 36 < p.dstLen g.n then s1.abandonColl k 0x0C2 p.dst word
      -- the areas are checked whole on every rank; a broadcast's src is read on the root only
      else match s1.fabricRange c none { read := true } p.src (p.srcLen g.n) with
      | (.error (e, va), s2) => s2.abandonColl k e va word
      | (.ok ls, s2) => match s2.fabricRange c none { write := true } p.dst (p.dstLen g.n) with
        | (.error (e, va), s3) => s3.abandonColl k e va word
        | (.ok ld, s3) => match word with
          | none => s3.abandonColl k 0x0C2 p.aw none
          | some (b, off) =>
            if s3.tagInUse o p.tag then s3.abandonColl k 0x0C5 at0 word
            else match r with
            | .mismatch => s3.abandonColl k 0x0C5 at0 word
            | .done others =>
              if !s3.fabricFree o (ls ++ ld) || (s3.block b).frozen then s3
              else
                let mine := if p.kind = 3 ∧ g.rank ≠ p.root then [] else s3.fabricRead ls
                let srcs := (List.range g.n).map (fun i => if i = g.rank then mine
                  else (others.getD i []).map (fun x => BitVec.ofNat 8 x))
                let out := p.result g.rank srcs
                ((s3.fabricPut o ld out).arriveAt b off (p.dstLen g.n)).finishOp k

def execCollComplete (op : Nat) (r : CollEnd) (s : State) : Answer := .next (s.collEnd op r)

/-! ## Links (R365) -/

/-- The lane sets of a width. -/
def laneSets (width : Nat) : List Nat :=
  match width with
  | 0 => [0xFF]
  | 1 => [0x0F, 0xF0]
  | 2 => [0x03, 0x0C, 0x30, 0xC0]
  | _ => []

/-- The widest lane set without a failed lane, from a width on: its width and lanes; down is width 3. -/
def pickLanes (failed : Nat) (width : Nat) : Nat × Nat :=
  match ([0, 1, 2].filter (fun w => width ≤ w)).findSome? (fun w =>
    ((laneSets w).find? (fun l => l &&& failed == 0)).map (fun l => (w, l))) with
  | some x => x
  | none => (3, 0)

/-- The credit window of a width. -/
def widthCredits (width : Nat) : Nat :=
  match width with
  | 0 => 128
  | 1 => 64
  | 2 => 32
  | _ => 0

/-- A lane fails (R365): a lane that carried traffic makes the link retrain. -/
def State.laneFails (s : State) (port lane : Nat) : State :=
  let p := s.ports.get {} port
  if 36 ≤ port || 8 ≤ lane then s
  else
    let p1 := { p with failed := p.failed ||| 2 ^ lane }
    let p2 := if bit p.lanes lane && p.state = 0 then
        { p1 with state := 1, since := s.time, retrains := Nat.min 255 (p.retrains + 1) } else p1
    { s with ports := s.ports.set {} port p2 }

def execLaneFailure (port lane : Nat) (s : State) : Answer := .next (s.laneFails port lane)

/-- A retrain ends (R365): at the widest set that the table allows, and no wider than before unless the host asked. -/
def State.retrained (s : State) (port : Nat) : State :=
  let p := s.ports.get {} port
  if 36 ≤ port || p.state != 1 then s
  else
    let (w, l) := pickLanes p.failed (if p.widen then 0 else p.width)
    -- flits in flight as it began are resent: how many is not stated
    let again := if w = 3 then 0 else Config.freeValue s.free % 2 ^ 8
    let q := { p with
      width := w, lanes := l, credits := widthCredits w, state := if w = 3 then 2 else 0, widen := false
      spans := (p.since, s.time) :: p.spans
      replayed := (s.time, again) :: p.replayed.filter (fun x => s.time < x.1 + 1000000) }
    { s.draw with ports := s.ports.set {} port q }

def execRetrainComplete (port : Nat) (s : State) : Answer := .next (s.retrained port)

end Sys2Proof.Machine
end

