-- ==== Sys2Proof/Machine/Task.lean ====
section
/-!
DEFINITION. The task and launch instructions of class 0xB (R271–R279), and the events of the task unit and the dispatch
hardware: placing blocks, starting gangs, forming node blocks, firing triggers (R263, R267, R270, R274).
-/
namespace Sys2Proof.Machine

/-! ## LAUNCH, LAUNCHT (R273, R274) -/

/-- The task unit's load as an operation of the issuing threads: dev scope, no stream. -/
def State.unitLoad (s : State) (w : Nat) (i : Instr) (g : Guard) (e : Elem) (args : List Nat) : State :=
  s.runOrBlock (s.newOp w i { scope := .dev } ((s.warp w).activeReal g) 1 0 [e] args) w

def launchWarp (i : Instr) (x : R3) (trig : Bool) (w : Nat) (s : State) : Res :=
  let wp := s.warp w
  let va := (wp.rdS x.a).toNat
  let params := fun (k : Nat) => (List.range (bits x.c 4 3)).map (fun i => (wp.rdS (x.b + k + i)).toNat)
  match s.checkElem (s.ctx w) { read := true } va 128 128 with
  | (.error c, s1) => .trap { cause := c, addr := va } s1
  | (.ok p, s1) =>
    let e : Elem := { addr := va, place := p, size := 128 }
    if trig then
      let sa := (wp.rdS x.b).toNat
      match s1.placeSa w sa 16 16 with
      | .ok (.scratch b off) =>
        .ok (s1.unitLoad w i x.g e ([b, off, (wp.rdS (x.b + 1)).toNat % 2 ^ 32] ++ params 2))
      | .ok _ => .ok s1
      | .error c => .trap { cause := c, addr := sa } s1
    else .ok (s1.unitLoad w i x.g e (params 0))

def execLaunch (x : R3) (s : State) : Answer :=
  onWarp (.launch x) (uniformReal x.g (launchWarp (.launch x) x false)) s

def execLauncht (x : R3) (s : State) : Answer :=
  onWarp (.launcht x) (uniformReal x.g (launchWarp (.launcht x) x true)) s

/-! ## SPAWN, NODEQ (R275, R276) -/

/-- The address of a node's descriptor. -/
def BlockRec.descVa (b : BlockRec) (h : Nat) : Nat := wrap64 ((b.rcd.graph + 64 * h : Nat) : Int)

def spawnWarp (x : R3) (w : Nat) (s : State) : Res :=
  let wp := s.warp w
  let b := s.block wp.block
  let h := (wp.rdS x.b).toNat
  let args := (SpawnArgs.at wp b x).nats
  let real := wp.activeReal x.g
  -- a live bin holds the descriptor, and one that cannot be read is malformed: the task unit answers at once
  let now := fun (t : State) => match t.acceptSpawn (t.newOp w (.spawn x) { scope := .dev } real 1 0 [] args) x none with
    | some u => Res.ok u
    | none => .trap { cause := 0x022 } t
  if h / 2 ^ 6 != 0 then .trap { cause := 0x022 } s
  else if b.rcd.nodes ≤ h || b.rcd.graph = 0 then .ok (s.setWarp w (wp.answer x real 0 0x05))
  else if (s.bin (binKey (b.core / 16) b.job b.rcd.graph h)).live then now s
  else match s.checkElem (s.ctx w) { read := true } (b.descVa h) 64 64 with
  | (.error _, s1) => now s1
  | (.ok p, s1) => .ok (s1.unitLoad w (.spawn x) x.g { addr := b.descVa h, place := p, size := 64 } args)

def execSpawn (x : R3) (s : State) : Answer := onWarp (.spawn x) (uniformReal x.g (spawnWarp x)) s

def nodeqWarp (x : R3) (w : Nat) (s : State) : Res :=
  let wp := s.warp w
  let b := s.block wp.block
  let die := b.core / 16
  let h := (wp.rdS x.a).toNat
  let graph := b.rcd.graph
  let bin := s.bin (binKey die b.job graph h)
  let put := fun (t : State) (v : Word) => Res.ok (t.setWarp w ((t.warp w).wrS x.d v))
  if h / 2 ^ 6 != 0 || b.rcd.nodes ≤ h then put s (BitVec.allOnes 64)
  else if bin.live then put s (s.nodeWord die b.job graph h bin.cap)
  else match s.checkElem (s.ctx w) { read := true } (b.descVa h) 64 64 with
  -- the spec states no capacity for a descriptor that cannot be read: a free value
  | (.error _, s1) => put s1.draw (s1.nodeWord die b.job graph h (Config.freeValue s1.free % 2 ^ 24))
  | (.ok p, s1) => .ok (s1.unitLoad w (.nodeq x) x.g { addr := b.descVa h, place := p, size := 64 } [h, graph])

def execNodeq (x : R3) (s : State) : Answer := onWarp (.nodeq x) (uniform x.g (nodeqWarp x)) s

/-! ## CANCEL (R277) -/

/-- The cancel of a job begins: host launches that are not issued are dropped (R278). -/
def State.beginCancel (s : State) (j : Nat) : State :=
  let x := s.job j
  { s.setJob j { x with cancelled := true } with
    entries := s.entries.keep (fun k e => !(e.live && e.job == j && 24 ≤ k / 4096)) }

def cancelWarp (x : R3) (w : Nat) (s : State) : Res :=
  let wp := s.warp w
  let own := (s.block wp.block).job
  let v := (wp.rdS x.a).toNat
  let j := if v = 0 then own else v
  let act := wp.activeReal x.g
  if v / 2 ^ 16 != 0 then .trap { cause := 0x022 } s
  else if !(s.job j).live || (s.job j).asid != (s.job own).asid then .ok (s.setWarp w (wp.answer x act 0 0x06))
  else if (s.job j).passed = allDies then .ok (s.setWarp w (wp.answer x act 0 0x00))
  else
    let s1 := s.beginCancel j
    let (s2, k) := s1.launchOp (s1.newOp w (.cancel x) {} act 0 0 [] [j])
    .ok (s2.setWarp w ((s2.warp w).blockOn [k]))

def execCancel (x : R3) (s : State) : Answer := onWarp (.cancel x) (uniformReal x.g (cancelWarp x)) s

/-! ## Dispatch (R263, R267) -/

/-- The valid bind records of a die in the order in which they are served: rank 7 first, then the lowest index. -/
def State.bindsOf (s : State) (die : Nat) : List (BitVec 64) :=
  let all := (List.range 64).map (fun i => s.binds.get 0 (die * 64 + i))
  ((List.range 8).map (fun r => all.filter (fun x => bit x.toNat 0 && bits x.toNat 20 3 == 7 - r))).flatten

/-- Blocks, or gang instances, that an entry has still to place. -/
def Entry.left (e : Entry) : Bool := e.live && e.trigger.isNone && e.nextB < e.rcd.grid

/-- What a placed block starts from. -/
def Entry.block (e : Entry) (k b : Nat) : BlockRec :=
  { job := e.job, grid := e.grid, b := b, rcd := e.rcd, entry := k, publish := e.publish, publishers := e.publishers }

/-- The accumulator store and the array of a core, as a gang block finds them (R288). -/
def State.clearArray (s : State) (core : Nat) : State :=
  { s with acc := s.acc.keep (fun k _ => k / 2 ^ 20 != core) }.setArr core {}

/-- The entry after a block or an instance has been placed from it: freed with the last (R261). -/
def State.served (s : State) (k : Nat) : State :=
  let e := s.entry k
  if e.nextB + 1 < e.rcd.grid then s.setEntry k { e with nextB := e.nextB + 1 } else s.freeEntry k

/-- A block of an entry without a matrix role is placed on the lowest core that has room. -/
def State.placeVector (s : State) (die k cores : Nat) : Option State :=
  let e := s.entry k
  let ok := (maskList cores 16).find? (fun c => (s.roomOn (die * 16 + c) e.rcd).isSome)
  match ok, s.areaFor die (saveAreaSize e.rcd.warps) with
  | some c, some off =>
    let core := die * 16 + c
    some ((s.putBlock core ((s.roomOn core e.rcd).getD 0) die off (e.block k e.nextB)).served k)
  | _, _ => none

/-- Block `i` of a gang on its core of the bay, where that has room. -/
def State.putGangBlock (s : State) (die bay g : Nat) (e : BlockRec) (first i : Nat) : Option State :=
  let core := die * 16 + 4 * bay + i
  match s.roomOn core e.rcd, s.areaFor die (saveAreaSize e.rcd.warps) with
  | some base, some off =>
    some ((s.putBlock core base die off { e with b := first + i, gang := some g }).clearArray core)
  | _, _ => none

/-- Blocks of a gang, one after another, on the cores of a bay: the state, and the blocks placed. -/
def State.putGang (s : State) (die bay g : Nat) (e : BlockRec) (first : Nat) : Nat → List Nat → Option (State × List Nat)
  | 0, acc => some (s, acc)
  | n + 1, acc =>
    match s.putGangBlock die bay g e first acc.length with
    | some s1 => State.putGang s1 die bay g e first n (acc ++ [s.nextBlock])
    | none => none

/-- A matrix control core as an instance begins (R283). -/
def startMcc (g index : Nat) (l : Launch) : Mcc :=
  let m := (List.range 6).foldl (fun (a : Mcc) i => a.wrS (i + 1) (l.params.getD i 0)) { gang := some g, pc := l.mentry }
  { m.wrS 7 (BitVec.ofNat 64 index) with xfer := some l.mentry }

/-- An instance is put on a bay with its cluster and its MCC. -/
def State.putInstance (s : State) (die bay index : Nat) (e : BlockRec) : Option State :=
  let g := s.nextGang
  let n := e.rcd.blocks
  match State.putGang { s with nextGang := g + 1 } die bay g e (index * n) n [] with
  | none => none
  | some (s1, bs) =>
    let (c, s2) := s1.findCluster die e.grid (0xFFFFFFFF00000000 + index)
    let s3 := bs.foldl (fun (a : State) b => a.addMember c b ((bs.findIdx? (· == b)).getD 0)) s2
    let k := die * 4 + bay
    some ((s3.setGang g { live := true, bay := k, blocks := bs, index := index }).setMcc k (startMcc g index e.rcd))

/-- An instance of an entry is placed whole on the first bay whose MCC is free and working. -/
def State.placeGang (s : State) (die k cores : Nat) : Option State :=
  let e := s.entry k
  let n := e.rcd.blocks
  let bays := (List.range 4).filter (fun b =>
    !(s.mcc (die * 4 + b)).failed && (s.mcc (die * 4 + b)).gang.isNone &&
    (List.range n).all (fun i => bit cores (4 * b + i)))
  match bays.findSome? (fun b => s.putInstance die b e.nextB (e.block k 0)) with
  | some s1 => some (s1.served k)
  | none => none

/-- One bind record: its next block is placed, if its entry may place it and it fits. -/
def State.serveBind (s : State) (die : Nat) (x : BitVec 64) : Option State :=
  let k := entryKey (bits x.toNat 47 5) (bits x.toNat 52 12)
  let e := s.entry k
  let maxb := bits x.toNat 23 8
  let here := (s.blocks.cells.filter (fun c => c.2.st == .placed && c.2.core / 16 == die && c.2.grid == e.grid)).length
  if !e.left || !bit e.rcd.dies die || (maxb != 0 && maxb < here + e.rcd.blocks) then none
  else if e.rcd.isGang then s.placeGang die k (bits x.toNat 31 16)
  else s.placeVector die k (bits x.toNat 31 16)

def execDispatch (die : Nat) (s : State) : Answer :=
  .next (match (s.bindsOf die).findSome? (s.serveBind die) with
    | some s1 => s1
    | none => s)

/-- Every warp of an instance and its MCC begin issue together (R267). -/
def execGangStart (gang : Nat) (s : State) : Answer :=
  let g := s.gang gang
  .next (if g.live && g.blocks.all (fun b => (s.block b).st == .placed) then s.setGang gang { g with started := true }
    else s)

/-- Firmware writes a bind record (R262). Reserved bits stay zero. -/
def execBindRecordWrite (die index record : Nat) (s : State) : Answer :=
  .next (if die < 24 ∧ index < 64 then
      let x := putBits (record % 2 ^ 64) 1 19 0
      { s with binds := s.binds.set 0 (die * 64 + index) (BitVec.ofNat 64 x) }
    else s)

/-! ## Node blocks and triggers (R270, R274) -/

/-- The launch record of a node block from its bin's oldest records. -/
def Bin.rcdFor (b : Bin) (rs : List BinRecord) : Launch :=
  { b.rcd with
    node := some b.node, records := (rs.map (·.bytes)).flatten
    params := [BitVec.ofNat 64 rs.length, BitVec.ofNat 64 b.node, 0, 0, 0, 0] }

/-- A bin forms a node block (R270): by count, or by its timer; the records stay while the loft is full. -/
def State.formBlock (s : State) (k : Nat) : State :=
  let b := s.bin k
  let n := if b.count ≤ b.records.length then b.count else if b.due then b.records.length else 0
  if !b.live || n = 0 || s.loftFree b.die = 0 then s
  else
    let rs := b.records.take n
    (s.setBin k { b with records := b.records.drop n, due := false }).takeEntry b.die
      { job := b.job, rcd := b.rcdFor rs, publish := (rs.map (·.publish)).flatten, publishers := rs.map (·.publisher) }

def execNodeBlockFormation (bin : Nat) (s : State) : Answer := .next (s.formBlock bin)

def execCoalesceTimer (bin : Nat) (s : State) : Answer :=
  let b := s.bin bin
  .next (match b.records with
    | r :: _ => if b.live && b.timer != 0 && r.since + b.timer ≤ s.time then s.setBin bin { b with due := true } else s
    | [] => s)

/-- A trigger fires at its first test that holds, or is dropped (R274). -/
def execTriggerFire (entry : Nat) (s : State) : Answer :=
  let e := s.entry entry
  .next (if !e.live || e.trigger.isNone then s
    else match e.hit with
    | some true => s.setEntry entry { e with trigger := none, hit := none }
    | some false => s.dropTrigger entry
    | none => s)

end Sys2Proof.Machine
end

