-- ==== Sys2Proof/Machine/Preempt.lean ====
section
/-!
DEFINITION. Pre-emption, migration, kills and relaunches (R278, R281, R307, R308, R415, R416, R424–R433), and the
retirement of blocks (R74, R267).
-/
namespace Sys2Proof

/-- The code of a cause in the frame's first word (R424). -/
def PreCause.code : PreCause → Nat
  | .preempt => 1
  | .migrate => 2
  | .cancel => 3
  | .scantest => 4

end Sys2Proof

namespace Sys2Proof.Machine

/-! ## Kill, retirement, relaunch -/

/-- The operations of a warp go on without it (R415): what was issued still performs, but for what is in a replay slot
or abandoned, and what a mask orders after that (R173). -/
def State.orphan (s : State) (w : Nat) : State :=
  let t := s.voidOps w
  { t with ops := ⟨t.ops.cells.map (fun (c : Nat × Op) => if c.2.warp = w then (c.1, { c.2 with orphan := true }) else c)⟩ }

/-- KILL (R415): every thread becomes exited without draining. -/
def State.killWarp (s : State) (w : Nat) : State :=
  let wp := s.warp w
  if !wp.live then s
  else { (s.orphan w).setWarp w
    { wp.mapLanes (ones 32) (fun _ la => { la with st := .exited, yielded := false, wait := {} }) with
      halted := false, haltDue := none, reportDue := false, replays := [], abandoned := [], blocking := .free
      preempt := none, yielded := .no, dead := false, mode := .normal, group := 0, tokenWait := none
      engineWait := false, part := {} } with past := s.past.set [] w [] }

/-- Every warp of a block is killed, and its intents end (R401). -/
def State.killBlock (s : State) (b : Nat) : State :=
  let ws := (s.block b).warps
  let t := ws.foldl State.killWarp s
  { t with intents := t.intents.keep (fun _ x => !ws.contains x.warp) }

/-- Blocks that share a block's fate: its instance's (R267), or itself. -/
def State.instanceOf (s : State) (b : Nat) : List Nat :=
  match (s.block b).gang with
  | some g => (s.gang g).blocks
  | none => [b]

/-- Lines that a block's warps have pinned are written back (R136). -/
def State.releaseBlock (s : State) (b : Nat) : State :=
  let x := s.block b
  s.releaseWhere x.core (fun _ l => l.owners.any (fun (o : Nat × Bool × Nat × Nat) => x.warps.contains o.1))

/-- Triggers on a block's words are dropped (R274); one that a test has found to hold fires. -/
def State.dropTriggersOn (s : State) (b : Nat) : State :=
  (s.entries.cells.filter (fun c => c.2.live && (match c.2.trigger with
    | some (tb, _, _) => tb == b
    | none => false))).foldl (fun a c =>
      if c.2.hit = some true then a.setEntry c.1 { c.2 with trigger := none, hit := none } else a.dropTrigger c.1) s

/-- A block's report to the host (R418, R451 kind 6). -/
def State.reportBlock (s : State) (b : Nat) : State :=
  let x := s.block b
  let word0 := ofBytes (s.mem.readBytes 8 x.savePa)
  if bits word0 32 32 = 0 then s
  else
    let j := s.job x.job
    (s.post j.port 6 (x.core / 16) x.job (x.b % 2 ^ 32) word0 (ofBytes (s.mem.readBytes 8 (x.savePa + 8)))
      (ofBytes (s.mem.readBytes 8 (x.savePa + 16)))).setJob x.job { j with reports := Nat.min (j.reports + 1) 65535 }

/-- What a block held is free: its scratchpad, its save area, its place in a cluster, its warps. Waits on its words end
(R461). -/
def State.freeBlock (s : State) (b : Nat) : State :=
  let x := s.block b
  let s1 := (((s.releaseBlock b).dropTriggersOn b).leaveCluster b)
  let s2 := x.warps.foldl (fun (a : State) w => { (a.orphan w).setWarp w {} with past := a.past.set [] w [] }) s1
  ((if x.st == .placed then s2.coreLeft x.core else s2).setBlock b {}).serveGone b

/-- An MCC waits for no tokens. -/
def State.dropMccWait (s : State) (k : Nat) : State :=
  let core := k / 4 * 16 + 4 * (k % 4)
  s.setPantry core { s.pantry core with mccWait := none }

/-- An instance's bay is free again. -/
def State.freeBay (s : State) (g : Nat) : State :=
  let k := (s.gang g).bay
  let s1 := (s.dropMccWait k).setMcc k { failed := (s.mcc k).failed }
  { s1 with gangs := s1.gangs.set {} g {}, lastBusy := s1.lastBusy.set 0 (24 * 17 + k) s1.time }

/-- A block retires: the job counts it, its report goes out, and its resources return (R74). -/
def State.retireBlock (s : State) (b : Nat) : State :=
  let j := (s.block b).job
  let s1 := (s.reportBlock b).freeBlock b
  (s1.setJob j { s1.job j with retired := (s1.job j).retired + 1 }).endJob j

/-- Every warp of a block has exited. -/
def State.allOut (s : State) (b : Nat) : Bool := (s.block b).warps.all (fun w => !(s.warp w).live || (s.warp w).allExited)

/-- Entries queued for the arrays of a bay, or arrivals in its buffer. -/
def State.bayBusy (s : State) (k : Nat) : Bool :=
  !(s.mcc k).arrivals.isEmpty ||
  (List.range 4).any (fun i =>
    let a := s.arr (k / 4 * 16 + 4 * (k % 4) + i)
    !a.loadQ.isEmpty || !a.compQ.isEmpty)

/-- The MCC of an instance is finished (R286), and no operand fault keeps it for the host (R306). -/
def State.mccDone (s : State) (g : Nat) : Bool :=
  let k := (s.gang g).bay
  (s.mcc k).exited && !(s.mcc k).halted && !s.bayBusy k

/-- The last warp of a block, or of an instance, has retired. A member leaves its cluster as if by CLEAVE (R217). -/
def State.tryRetire (s : State) (b : Nat) : State :=
  let x := s.block b
  let all := s.instanceOf b
  if x.st != .placed || x.again || !all.all s.allOut then s
  else match x.gang with
  | some g => if s.mccDone g then (all.foldl State.retireBlock s).freeBay g else s
  | none =>
    if x.cluster.isNone then s.retireBlock b
    else if !x.leaving then s.revoke b
    else if s.cleaveFree b s.nextSeq then s.retireBlock b else s

def execBlockRetire (block : Nat) (s : State) : Answer := .next (s.tryRetire block)

/-- A block, or its instance with its MCC, halts to the host (R281, R306). What is `dead` cannot resume, and an MCC then
halts also where its EXIT has been executed and its queues were still at work. -/
def State.haltAll (s : State) (b cause addr : Nat) (dead : Bool) : State :=
  let s1 := (s.instanceOf b).foldl (fun (a : State) b => (a.block b).warps.foldl (fun (a : State) w =>
    let wp := a.warp w
    if !wp.live || wp.allExited then a
    else
      let a1 := if wp.halted then a else a.haltAt w { cause := cause, addr := addr } none wp.headPc wp.headPc false
      a1.setWarp w { a1.warp w with dead := wp.dead || dead }) a) s
  match (s.block b).gang with
  | some g =>
    let k := (s.gang g).bay
    let s2 := if (s1.mcc k).halted || ((s1.mcc k).exited && !dead) then s1 else s1.faultMcc k cause (s1.mcc k).pc
    s2.setMcc k { s2.mcc k with dead := (s2.mcc k).dead || dead }
  | none => s1

/-- A relaunch is asked for (R280, R281): every warp, and the MCC, stop; at the limit the block halts instead. -/
def State.askRelaunch (s : State) (b : Nat) : State :=
  let all := s.instanceOf b
  if 2 ≤ (s.block b).relaunches then s.haltAll b 0x0B0 0 false
  else
    let s1 := all.foldl (fun (a : State) b =>
      let t := a.killBlock b
      (t.setBlock b { t.block b with again := true, killed := true }).serveGone b) s
    match (s.block b).gang with
    | some g =>
      let k := (s.gang g).bay
      let s2 := s1.dropMccWait k
      s2.setMcc k { s2.mcc k with exited := true, halted := false, inWait := none, arrivals := [] }
    | none => s1

/-- Every operation of a block is performed or discarded (R281). What copies bring to its scratchpad is discarded
(R253). -/
def State.quiet (s : State) (b : Nat) : Bool := s.ops.cells.all (fun c => c.2.block != b || c.2.st == .none)

/-- What a relaunched block starts from: its task record, with the count raised. -/
def BlockRec.anew (x : BlockRec) : BlockRec :=
  { job := x.job, grid := x.grid, b := x.b, rcd := x.rcd, entry := x.entry, relaunches := x.relaunches + 1 }

/-- Cores of a die, in the order in which free values choose among them. -/
def State.anyCore (s : State) (l : List Nat) : List Nat :=
  let k := Config.freeValue s.free % (l.length + 1)
  l.drop k ++ l.take k

/-- Cores of a die that may take a block again (R281, R428): its record permits the die, and the bind records of the die
that still name its entry permit the cores; where none does, any core (log entry 112). -/
def State.permits (s : State) (x : BlockRec) (die : Nat) : Nat :=
  let e := s.entry x.entry
  let own := if e.live && e.grid != x.grid then [] else
    (s.bindsOf die).filter (fun r => entryKey (bits r.toNat 47 5) (bits r.toNat 52 12) == x.entry)
  if !bit x.rcd.dies die then 0
  else if own.isEmpty then ones 16
  else own.foldl (fun a r => a ||| bits r.toNat 31 16) 0

/-- The logical cores that may take a block again. -/
def State.permitted (s : State) (x : BlockRec) (dies : List Nat) : List Nat :=
  s.anyCore (dies.flatMap (fun d => (maskList (s.permits x d) 16).map (d * 16 + ·)))

/-- The bays that may take an instance again: its blocks stand on cores 4b up. -/
def State.permittedBays (s : State) (x : BlockRec) (n : Nat) (dies : List Nat) : List Nat :=
  (s.anyCore (dies.flatMap (fun d => (List.range 4).map (d * 4 + ·)))).filter (fun k =>
    !(s.mcc k).failed && (s.mcc k).gang.isNone &&
    (List.range n).all (fun i => bit (s.permits x (k / 4)) (4 * (k % 4) + i)))

/-- A block is put anew on some core of those named that has room. -/
def State.putAnew (s : State) (x : BlockRec) (cores : List Nat) : Option State :=
  cores.findSome? (fun c => match s.roomOn c x.rcd, s.areaFor (c / 16) (saveAreaSize x.rcd.warps) with
    | some base, some off => some (s.putBlock c base (c / 16) off x)
    | _, _ => none)

/-- A block is removed by a cancel (R278, R428): nothing is saved, and it is never relaunched. It retires with that
(R259). -/
def State.removeBlock (s : State) (b : Nat) : State := s.retireBlock b

/-- An instance, or a block, is removed. -/
def State.removeAll (s : State) (b : Nat) : State :=
  let g := (s.block b).gang
  let s1 := (s.instanceOf b).foldl State.removeBlock s
  match g with
  | some g => s1.freeBay g
  | none => s1

/-- A relaunch (R281): the block, or the instance, is placed anew on permitted cores that have room. A cancel that came
meanwhile removes it (R278). -/
def State.relaunch (s : State) (b : Nat) : State :=
  let x := s.block b
  let all := s.instanceOf b
  let busy := match x.gang with
    | some g => s.bayBusy (s.gang g).bay
    | none => false
  if !x.again || !all.all s.quiet || busy then s
  else if all.any (fun c => (s.block c).cancelDue) then s.removeAll b
  else match x.gang with
  | none =>
    let s1 := (s.freeBlock b).draw
    (s1.putAnew x.anew (s1.permitted x (List.range 24))).getD s
  | some g =>
    let s1 := ((all.foldl State.freeBlock s).freeBay g).draw
    ((s1.permittedBays x all.length (List.range 24)).findSome? (fun k =>
      s1.putInstance (k / 4) (k % 4) (s.gang g).index x.anew)).getD s

def execRelaunch (block : Nat) (s : State) : Answer := .next (s.relaunch block)

/-- A late fault (R231); at replay overflow a relaunchable block is relaunched (R234, R280). -/
def State.lateFaultOf (s : State) (k lanes cause : Nat) : State :=
  let w := (s.op k).warp
  let b := (s.warp w).block
  let t := s.lateFault k lanes cause
  if (t.warp w).dead && !(s.warp w).dead && (t.block b).rcd.rl && !(t.block b).again then t.askRelaunch b else t

def execLateFault (op lanes cause : Nat) (s : State) : Answer := .next (s.lateFaultOf op lanes cause)

/-! ## Delivery (R307, R424) -/

/-- A warp of a pre-empted block: it will enter its handler, be force-saved, or, under CANCEL without a handler, is
killed. A warp that has retired takes no part. -/
def State.deliverWarp (s : State) (w : Nat) (c : PreCause) : State :=
  let wp := s.warp w
  if !wp.live || wp.allExited then s
  else if c = .cancel && (wp.halted || (s.block wp.block).rcd.pentry = 0) then s.killWarp w
  else s.setWarp w { wp with preempt := some c, deadline := s.time + 100000 }

/-- The MCC of a block's instance stops at its next instruction boundary (R307). -/
def State.stopMcc (s : State) (b : Nat) : State :=
  match (s.block b).gang with
  | some g =>
    let k := (s.gang g).bay
    let m := s.mcc k
    (s.dropMccWait k).setMcc k { m with stopped := true, waited := m.waited || m.inWait.isSome, inWait := none }
  | none => s

def State.deliverOne (s : State) (b : Nat) (c : PreCause) : State :=
  let x := s.block b
  if x.st != .placed then s
  -- a block under relaunch is not placed again once its job is cancelled
  else if x.again then (if c = .cancel then s.setBlock b { x with cancelDue := true } else s)
  else if x.preempt.isSome then
    -- R428: a CANCEL is not held; another request is
    s.setBlock b (if c = .cancel then { x with cancelDue := true }
      else if x.held.isSome then x else { x with held := some c })
  else
    let s1 := s.setBlock b { x with preempt := some c }
    x.warps.foldl (fun (a : State) w => a.deliverWarp w c) (s1.stopMcc b)

/-- A delivery to a block (R424), to every block of its instance but for MIGRATE (R307). -/
def State.deliver (s : State) (b : Nat) (c : PreCause) : State :=
  if c = .migrate then s.deliverOne b c else (s.instanceOf b).foldl (fun a b => a.deliverOne b c) s

/-- CANCEL is delivered by the task unit at a cancel point only (R278). -/
def execPreemptionDelivery (block : Nat) (cause : PreCause) (s : State) : Answer :=
  .next (if cause = .cancel then s else s.deliver block cause)

/-- CANCEL instructions and ring commands that wait for a job end once every die has passed its cancel point (R277). -/
def State.cancelsEnd (s : State) (j : Nat) : State :=
  (s.ops.cells.filter (fun c => c.2.st == .flying && c.2.args.headD 0 == j && (match c.2.i with
    | .cancel _ => true
    | _ => false))).foldl (fun (a : State) c => match c.2.i with
    | .cancel x =>
      if c.2.orphan then a.setOp c.1 {}
      else (a.setWarp c.2.warp ((a.warp c.2.warp).answer x c.2.lanes 0 0x00)).dropOp c.1
    | _ => a) s

/-- The cancel point of a job on a die, one step of the task unit's sequence (R278). -/
def State.cancelPoint (s : State) (die j : Nat) : State :=
  let x := s.job j
  if !x.live || !x.cancelled || bit x.passed die || 24 ≤ die then s
  else
    let s1 := { s.setJob j { x with passed := putBit x.passed die true } with
      bins := ⟨s.bins.cells.map (fun (c : Nat × Bin) =>
        if c.2.job = j ∧ c.2.die = die then (c.1, { c.2 with records := [], due := false }) else c)⟩
      entries := s.entries.keep (fun k e => !(e.live && e.job == j && k / 4096 == die)) }
    let here := s.blocks.cells.filter (fun c => c.2.job == j && c.2.core / 16 == die)
    let s2 := here.foldl (fun (a : State) c =>
      if c.2.st = .placed then a.deliverOne c.1 .cancel
      else if c.2.st = .waiting then a.removeAll c.1 else a) s1
    let s3 := if (s2.job j).passed = allDies then s2.cancelsEnd j else s2
    s3.endJob j

def execCancelPoint (die job : Nat) (s : State) : Answer := .next (s.cancelPoint die job)

/-! ## Handler entry and forced save (R425, R427) -/

/-- Nothing keeps the warp from its next head. -/
def Warp.unblocked (s : State) (wp : Warp) : Bool :=
  match wp.blocking with
  | .free => true
  | .ops l => l.all (fun k => (s.op k).st == .none)

/-- Scalar loads of the interrupted code are bound before a frame holds s1–s15 (R85, R149). -/
def State.scalarsBound (s : State) (w : Nat) : Bool :=
  s.ops.cells.all (fun c => c.2.st == .none || c.2.warp != w || c.2.orphan || c.2.hset || !c.2.i.isLoad ||
    (c.2.i.writes .vector).all (fun r => r.kind != .s))

/-- A warp enters its handler at its next head (R424, R425). -/
def State.tryEnter (s : State) (w : Nat) : State :=
  let wp := s.warp w
  match wp.preempt with
  | some c =>
    if wp.live && wp.mode == .normal && !wp.halted && wp.yielded == .no && (s.block wp.block).rcd.pentry != 0 &&
       wp.unblocked s && s.atHead w && wp.haltDue.isNone then
      s.enterHandler w c.code
    else s
  | none => s

def execHandlerEntry (warp : Nat) (s : State) : Answer := .next (s.tryEnter warp)

/-- Every operation of a warp's handler streams is performed (R427, R437, R438). -/
def State.handlerDone (s : State) (w : Nat) : Bool :=
  s.ops.cells.all (fun c => c.2.st == .none || c.2.warp != w || c.2.orphan || !c.2.hset)

/-- Stores of a warp's handler streams, and its own stores to its frame, are written back. -/
def State.handlerRelease (s : State) (w : Nat) : State :=
  let b := s.block (s.warp w).block
  let a := b.framePa (s.warp w).index
  (s.releaseFor b.core w true 0xFF (ones 32)).releaseWhere b.core (fun line _ =>
    a < (line + 1) * 128 && line * 128 < a + 0x4000)

/-- The register area of a warp (R422), as its registers stand. -/
def Warp.regArea (wp : Warp) : List Byte :=
  ((List.range wp.vb).map (fun n => (lanes32.map (fun l => bytesOf 8 (wp.rdV n l).toNat)).flatten)).flatten
def Warp.scalarArea (wp : Warp) : List Byte :=
  ((List.range wp.sb).map (fun n => bytesOf 8 (wp.rdS n).toNat)).flatten

/-- A forced save (R427). -/
def State.forceSave (s : State) (w : Nat) (c : PreCause) : State :=
  let s0 := s.handlerRelease w
  let wp := s0.warp w
  let b := s0.block wp.block
  let s1 :=
    if wp.mode = .normal && wp.halted then s0
    else if wp.mode = .normal then
      (s0.setWarp w wp.leaveQueues).writeFrame w { kind := 3, cause := c.code, pc := wp.headPc, head := wp.headPc }
    else
      -- the frame keeps its fields from entry; only word 0 changes
      let word0 := frameWord0 true 3 0 wp.index 0 c.code
      (s0.setWarp w { wp with word0 := BitVec.ofNat 64 word0 }).hardWrite b.core (b.framePa wp.index) (bytesOf 8 word0)
  let area := b.savePa + regAreaOff b.warps.length wp.index
  let s2 := (s1.hardWrite b.core area wp.regArea).hardWrite b.core (area + 0x40000) wp.scalarArea
  let was := wp.mode = .normal && wp.halted
  s2.setWarp w { s2.warp w with
    yielded := if was then .halted else .forced, halted := was, tokenWait := none, engineWait := false
    selDue := true }

/-- A forced save begins at the deadline, and at once without a handler or in a halt (R424, R427). A resume routine has
no deadline (R419). -/
def State.trySave (s : State) (w : Nat) : State :=
  let wp := s.warp w
  match wp.preempt with
  | some c =>
    let due := (wp.mode != .resume && wp.deadline ≤ s.time) || (wp.mode == .normal && (wp.halted || (s.block wp.block).rcd.pentry == 0))
    if wp.live && wp.yielded == .no && wp.haltDue.isNone && due && s.handlerDone w &&
       (wp.halted || (s.atHead w && wp.unblocked s && s.scalarsBound w)) then
      s.forceSave w c
    else s
  | none => s

def execForcedSave (warp : Nat) (s : State) : Answer := .next (s.trySave warp)

/-! ## Leaving a core (R307–R309, R428) -/

/-- Every warp of a block has yielded, been force-saved or retired. -/
def State.allYielded (s : State) (b : Nat) : Bool :=
  (s.block b).warps.all (fun w =>
    let wp := s.warp w
    !wp.live || wp.allExited || wp.yielded != .no)

/-- The MCC of a block's instance has stopped, and its queues are empty (R307). -/
def State.mccStopped (s : State) (b : Nat) : Bool :=
  match (s.block b).gang with
  | some g =>
    let k := (s.gang g).bay
    ((s.mcc k).stopped || (s.mcc k).exited || (s.mcc k).halted) && !s.bayBusy k
  | none => true

/-- Bytes of a plane in a context record: rows of R289's layout, zero-padded to 512 bytes. -/
def Plane.bytes (p : Plane) : List Byte :=
  let w := match p.tag with
    | 1 | 2 => 32
    | 3 | 4 => 16
    | 9 | 12 | 13 | 18 | 20 => 4
    | _ => 8
  (List.range 128).flatMap (fun q => bytesOf 512 ((List.range 128).foldl (fun a n =>
    a + p.w.get 0 (q * 128 + n) * 2 ^ (w * n)) 0))

def Plane.scaleBytes (p : Plane) : List Byte := (List.range 512).map (fun i => p.scales.get 0 i)

/-- The configuration words of an array in a context record. -/
def Arr.configBytes (a : Arr) : List Byte :=
  bytesOf 8 (a.afmt + a.wfmt * 2 ^ 8 + a.rm.code * 2 ^ 16 +
    (b2n a.invalid + b2n a.overflow * 4 + b2n a.underflow * 8 + b2n a.inexact * 16) * 2 ^ 24 +
    a.active.tag * 2 ^ 32 + a.shadow.tag * 2 ^ 40) ++
  bytesOf 8 a.ascale ++ bytesOf 8 a.wscale ++ bytesOf 8 0

/-- The MCC context record (R309). -/
def State.mccRecord (s : State) (k n : Nat) : List Byte :=
  let m := s.mcc k
  let arr := fun (i : Nat) => if i < n then s.arr (k / 4 * 16 + 4 * (k % 4) + i) else { afmt := 0, wfmt := 0 }
  bytesOf 8 m.pc ++ bytesOf 8 (b2n m.exited + b2n m.waited * 2) ++
  ((List.range 128).map (fun i => bytesOf 8 (m.rdS i).toNat)).flatten ++
  ((List.range 4).map (fun i => if i < n then (arr i).configBytes else bytesOf 32 0)).flatten ++ bytesOf 880 0 ++
  (List.range 4).flatMap (fun i =>
    if i < n then (arr i).active.bytes ++ (arr i).active.scaleBytes ++ (arr i).shadow.bytes ++ (arr i).shadow.scaleBytes
    else List.replicate 132096 0)

/-- The scratchpad image and its tags (R422, R428). -/
def State.writeImage (s : State) (b : Nat) : State :=
  let x := s.block b
  let tags := (List.range (x.alloc / 64)).map (fun i =>
    BitVec.ofNat 8 (maskWhere 8 (fun j => x.tags.get false (8 * i + j))))
  (s.hardWrite x.core x.imagePa (x.scratch.readBytes x.alloc 0)).hardWrite x.core (x.imagePa + 0x100000) tags

/-- A pre-empted block leaves its core for its image. -/
def State.toImage (s : State) (b : Nat) : State :=
  let s1 := (s.releaseBlock b).writeImage b
  let x := s1.block b
  (s1.coreLeft x.core).setBlock b { x with st := .waiting, scratch := {}, tags := {} }

/-- A block, or with it its instance, leaves (R428). -/
def State.leave (s : State) (b : Nat) : State :=
  let x := s.block b
  let all := s.instanceOf b
  let ready := fun (c : Nat) => s.allYielded c && (s.block c).preempt.isSome
  match x.preempt with
  | none => s
  | some c =>
    if x.st != .placed || x.frozen || x.moved || !s.mccStopped b then s
    else if x.cancelDue || c = .cancel then
      if all.all (fun k => s.allYielded k) then s.removeAll b else s
    else if c = .preempt then
      if !all.all ready then s
      else match x.gang with
      | some g =>
        let k := (s.gang g).bay
        let s1 := match all with
          | m :: _ => s.hardWrite (s.block m).core ((s.block m).savePa + mccRecordOff (s.block m).warps.length)
              (s.mccRecord k all.length)
          | [] => s
        let s2 := all.foldl State.toImage s1
        -- the instance keeps its MCC's state in the record; the bay is free
        let s3 := (s2.setMcc k { failed := (s.mcc k).failed }).setGang g { s.gang g with bay := 1000 }
        { s3 with lastBusy := s3.lastBusy.set 0 (24 * 17 + k) s3.time }
      | none => s.toImage b
    else if s.allYielded b then (s.releaseBlock b).setBlock b { (s.releaseBlock b).block b with frozen := true }
    else s

def execBlockLeave (block : Nat) (s : State) : Answer := .next (s.leave block)

/-! ## The logical core map (R430–R433) -/

/-- A physical core that a move may take: working, and named by no entry of the map. -/
def State.physFree (s : State) (die p : Nat) : Bool :=
  p < 17 && s.phys.get 0 (die * 17 + p) == 1 &&
  (List.range 16).all (fun c => !(s.mapped (die * 16 + c) && s.physOf (die * 16 + c) == die * 17 + p))

/-- A core's L1 keeps no clean copy (log entry 113). -/
def State.emptyL1 (s : State) (core : Nat) : State :=
  { s with l1 := s.l1.keep (fun k x => k / 2 ^ 45 != core || x.pinned) }

/-- Steps 3 to 5 of R431: every block on the core has left it; the map entry is switched, and held writes go on. Planes,
configuration and flags stay with the logical core; the accumulator store does not (R308). -/
def State.migrate (s : State) (core p : Nat) : State :=
  let on := s.onCore core
  let die := core / 16
  if !s.mapped core || !s.physFree die p || !on.all (fun b => b.2.frozen) then s
  else
    let old := s.physOf core
    let scan := on.any (fun b => b.2.preempt == some .scantest)
    let s1 := { s with
      coreMap := s.coreMap.set 0 core (2 ^ 7 + p)
      phys := (s.phys.set 0 old (if scan then 2 else 1)).set 0 (die * 17 + p) 0
      acc := s.acc.keep (fun k _ => k / 2 ^ 20 != core)
      lastBusy := s.lastBusy.set 0 old s.time }
    let l := s1.larder die
    let s2 := (s1.emptyL1 core).setLarder die
      { l with hotCore := if (l.hotCore.map (·.1)) = some (core % 16) then none else l.hotCore }
    on.foldl (fun (a : State) b => a.setBlock b.1 { a.block b.1 with frozen := false, moved := true }) s2

def execMigration (core phys : Nat) (s : State) : Answer := .next (s.migrate core phys)

/-- A physical core that holds no block is tested, or its test ends (R393, R433). -/
def execScanTest (phys : Nat) (s : State) : Answer :=
  .next (match s.phys.get 0 phys with
    | 1 => { s with phys := s.phys.set 0 phys 2 }
    | 2 => { s with phys := s.phys.set 0 phys 1 }
    | _ => s)

/-- A matrix control core, or rather its bay (408 up), fails: from then on the bay is vector-only (R8, R433). -/
def State.failBay (s : State) (k : Nat) : State :=
  if 96 ≤ k || (s.mcc k).gang.isSome then s else s.setMcc k { s.mcc k with failed := true }

/-- A physical core fails its test and is never mapped again (R433): an idle logical core moves to a spare, or loses its
valid bit. -/
def State.failCore (s : State) (p : Nat) : State :=
  let die := p / 17
  let named := (List.range 16).find? (fun c => s.mapped (die * 16 + c) && s.physOf (die * 16 + c) == p)
  let s1 := { s with phys := s.phys.set 0 p 3 }
  match named with
  | none => s1
  | some c =>
    let core := die * 16 + c
    if !(s.onCore core).isEmpty then s
    else match (List.range 17).find? (fun q => s1.physFree die q) with
    | some q => { s1 with coreMap := s1.coreMap.set 0 core (2 ^ 7 + q), phys := s1.phys.set 0 (die * 17 + q) 0 }
    | none => { s1 with coreMap := s1.coreMap.set 0 core (bits (s1.coreMap.get 0 core) 0 5) }

def execCoreFailure (phys : Nat) (s : State) : Answer :=
  .next (if phys < 24 * 17 then s.failCore phys else s.failBay (phys - 24 * 17))

/-! ## Coming back (R429) -/

/-- Every register at zero (R429). -/
def Warp.zeroRegs (wp : Warp) : Warp := { wp with v := {}, s := {}, p := {}, m := {} }

/-- The registers of a register area (R427, R429). -/
def State.loadArea (s : State) (w : Nat) : Warp :=
  let wp := s.warp w
  let b := s.block wp.block
  let area := b.savePa + regAreaOff b.warps.length wp.index
  let word := fun (a : Nat) => BitVec.ofNat 64 (ofBytes (s.mem.readBytes 8 a))
  let w1 := (List.range wp.vb).foldl (fun (a : Warp) n => a.wrVs n (ones 32) (fun l => word (area + 256 * n + 8 * l)))
    { wp with v := {}, s := {} }
  (List.range wp.sb).foldl (fun (a : Warp) i => a.wrS i (word (area + 0x40000 + 8 * i))) w1

/-- When every warp of a block has executed RETT, a held request is delivered, or a cancel that came meanwhile (R428), and
the MCC goes on when every block of the instance has (R307). -/
def State.afterResume (s : State) (b : Nat) : State :=
  let back := fun (t : State) (c : Nat) => (t.block c).warps.all (fun w => (t.warp w).preempt.isNone && (t.warp w).mode == .normal)
  if !back s b || (s.block b).preempt.isNone then s
  else
    let x := s.block b
    let s1 := s.setBlock b { x with preempt := none, held := none, moved := false, cancelDue := false }
    let s2 := match x.gang with
      | some g =>
        if (s1.gang g).blocks.all (fun c => (s1.block c).preempt.isNone) then
          s1.setMcc (s1.gang g).bay { s1.mcc (s1.gang g).bay with stopped := false, waited := false }
        else s1
      | none => s1
    if x.cancelDue then s2.deliverOne b .cancel
    else match x.held with
    | some c => s2.deliver b c
    | none => s2

/-- One warp resumes after its block was placed again (R429). Its age is its time on its new core, and it has been passed
over by none there (R79). -/
def State.resumeWarp (s0 : State) (w : Nat) : State :=
  let s := s0.setWarp w { s0.warp w with residence := s0.time, placedAt := s0.time, passed := 0 }
  let wp := s.warp w
  if !wp.live || wp.allExited then s.setWarp w { wp with preempt := none, yielded := .no }
  else match wp.yielded with
  | .halted =>
    s.setWarp w { s.loadArea w with yielded := .no, preempt := none, deadline := 0 }
  | .forced => (s.setWarp w (s.loadArea w)).restoreWarp w
  | _ =>
    if wp.resumePc = 0 then (s.setWarp w wp.zeroRegs).restoreWarp w
    else
      let b := s.block wp.block
      let word0 := putBits wp.word0.toNat 60 3 4
      let w1 := wp.zeroRegs.mapLanes (ones 32) (fun _ la =>
        { la with pc := wp.resumePc, st := .live, yielded := false, xfer := some wp.resumePc, wait := {} })
      (s.setWarp w { w1.endRun with
        mode := .resume, hnd := {}, group := ones 32, selDue := true, yielded := .no, deadline := 0
        word0 := BitVec.ofNat 64 word0, blocking := .free }).hardWrite
        b.core (b.framePa wp.index) (bytesOf 8 word0)

/-- The warps of a block resume. -/
def State.resumeBlock (s : State) (b : Nat) : State :=
  let s1 := (s.block b).warps.foldl State.resumeWarp (s.setBlock b { s.block b with moved := false })
  s1.afterResume b

/-- The scratchpad and its tags come back from the image. -/
def State.fromImage (s : State) (b core base slot : Nat) : State :=
  let x := s.block b
  let n := x.alloc
  let tags := (List.range (n / 8)).foldl (fun (t : Table Bool) i =>
    t.set false i (bit (s.mem.read (x.imagePa + 0x100000 + i / 8)).toNat (i % 8))) {}
  let s1 := s.setBlock b { x with
    st := .placed, core := core, base := base, resSlot := slot, tags := tags
    scratch := Memory.writeBytes {} 0 (s.mem.readBytes n x.imagePa) }
  x.warps.foldl (fun (a : State) w => a.setWarp w
    { a.warp w with slot := (base + (a.warp w).index) % 4 }) (s1.emptyL1 core)

/-- A lowest free residency slot of a core. -/
def State.freeSlot (s : State) (core : Nat) : Nat :=
  let used := (s.onCore core).map (fun c => c.2.resSlot)
  ((List.range 32).find? (fun i => !used.contains i)).getD 0

/-- Planes and configuration of an array from a context record (R309). -/
def planeOf (bs : List Byte) (tag : Nat) : Plane :=
  let w := match tag with
    | 1 | 2 => 32
    | 3 | 4 => 16
    | 9 | 12 | 13 | 18 | 20 => 4
    | _ => 8
  { tag := tag
    w := Table.tabulate 0 16384 (fun i => bits (ofBytes ((bs.drop (512 * (i / 128))).take 512)) (w * (i % 128)) w)
    scales := Table.tabulate 0 512 (fun i => (bs.drop 65536).getD i 0) }

def arrOf (rcd : List Byte) (i : Nat) : Arr :=
  let c := (rcd.drop (1040 + 32 * i)).take 32
  let f := fun (o : Nat) => ofBytes ((c.drop o).take 1)
  let p := rcd.drop (2048 + 132096 * i)
  { afmt := f 0, wfmt := f 1, rm := (rmOf (f 2)).getD .rne, invalid := bit (f 3) 0, overflow := bit (f 3) 2
    underflow := bit (f 3) 3, inexact := bit (f 3) 4, ascale := ofBytes ((c.drop 8).take 8)
    wscale := ofBytes ((c.drop 16).take 8), active := planeOf p (f 4), shadow := planeOf (p.drop 66048) (f 5) }

/-- The MCC of an instance on a bay, from its context record. -/
def State.loadMcc (s : State) (g k : Nat) (rcd : List Byte) (n : Nat) : State :=
  let m := (List.range 128).foldl (fun (a : Mcc) i =>
    a.wrS i (BitVec.ofNat 64 (ofBytes ((rcd.drop (16 + 8 * i)).take 8)))) { gang := some g }
  let flags := ofBytes ((rcd.drop 8).take 8)
  let s1 := s.setMcc k { m with pc := ofBytes (rcd.take 8), exited := bit flags 0, stopped := true, waited := bit flags 1 }
  (List.range n).foldl (fun (a : State) i => a.setArr (k / 4 * 16 + 4 * (k % 4) + i) (arrOf rcd i)) s1

/-- A waiting instance comes back on a bay whose MCC is free and working. -/
def State.replaceGang (s : State) (g : Nat) : Option State :=
  let bs := (s.gang g).blocks
  match bs with
  | [] => none
  | m :: _ =>
    let x := s.block m
    let n := bs.length
    let fits := fun (k : Nat) => (List.range n).all (fun i => (s.roomOn (k / 4 * 16 + 4 * (k % 4) + i) x.rcd).isSome)
    match (s.permittedBays x n [x.core / 16]).find? fits with
    | none => none
    | some k =>
      let rcd := s.mem.readBytes 530432 (x.savePa + mccRecordOff x.warps.length)
      let s1 := (s.draw.setGang g { s.gang g with bay := k })
      let s2 := (bs.zipIdx).foldl (fun (a : State) (e : Nat × Nat) =>
        let core := k / 4 * 16 + 4 * (k % 4) + e.2
        (a.fromImage e.1 core ((a.roomOn core x.rcd).getD 0) (a.freeSlot core)).clearArray core) s1
      some (bs.foldl State.resumeBlock (s2.loadMcc g k rcd n))

/-- A pre-empted block is placed again on some core of its die that has room, or resumes where it was moved to. -/
def State.replace (s : State) (b : Nat) : State :=
  let x := s.block b
  if x.st = .placed && x.moved then s.resumeBlock b
  else if x.st != .waiting || x.killed then s
  else match x.gang with
  | some g => (s.replaceGang g).getD s
  | none =>
    match (s.permitted x [x.core / 16]).findSome? (fun c => (s.roomOn c x.rcd).map (fun base => (c, base))) with
    | some (c, base) => (s.draw.fromImage b c base (s.freeSlot c)).resumeBlock b
    | none => s

def execBlockReplace (block : Nat) (s : State) : Answer := .next (s.replace block)

/-- A resume routine that has not executed RETT 100 µs after placement halts (R429). -/
def execResumeTimeout (warp : Nat) (s : State) : Answer :=
  let wp := s.warp warp
  .next (if wp.live && wp.mode == .resume && !wp.halted && wp.placedAt + 100000 ≤ s.time then
      s.setWarp warp (wp.haltLater { cause := 0x009 })
    else s)

/-! ## Machine checks (R416) -/

/-- A warp consumes data with an uncorrectable error: it halts precisely, and the host gets a record. -/
def State.machineCheck (s : State) (w part : Nat) : State :=
  let wp := s.warp w
  let b := s.block wp.block
  match wp.groupPc with
  | none => s
  | some (pc, _) =>
    if !wp.live || wp.halted || wp.yielded != .no || b.st != .placed then s
    else
      let head := if s.midChain w then wp.chainHead else pc
      let s1 := s.haltAt w { cause := 0x0F0 } (some head) pc head false
      let w1 := s1.warp w
      s1.post (s1.job b.job).port 2 (b.core / 16) b.job (s1.physOf b.core % 17 + part % 4 * 2 ^ 8) w1.word0.toNat
        w1.reportPc s1.time

def execMachineCheck (warp part : Nat) (s : State) : Answer := .next (s.machineCheck warp part)

end Sys2Proof.Machine
end

