-- ==== Sys2Proof/Machine/System.lean ====
section
/-!
DEFINITION. The system instructions of class 0xE (R434–R439): reading and writing system registers, special values, the
return from a frame, the end of a handler, and TRAP.
-/
namespace Sys2Proof.Machine

/-! ## SYSRD, SYSWR (R419, R436) -/

/-- A system register that SYSRD reads (R419). -/
def State.sysReg (s : State) (w n : Nat) : Word :=
  let wp := s.warp w
  let b := s.block wp.block
  match n with
  | 0 => wp.word0
  | 1 => BitVec.ofNat 64 b.saveVa
  | 2 => BitVec.ofNat 64 (b.frameVa wp.index)
  | 3 => BitVec.ofNat 64 wp.reportPc
  | 4 => BitVec.ofNat 64 wp.resumePc
  | 5 => if wp.mode = .normal then 0 else BitVec.ofNat 64 wp.deadline
  | 9 => BitVec.ofNat 64 (s.asidOf w)
  | _ => 0

def execSysrd (x : Sys) (s : State) : Answer :=
  onWarp (.sysrd x) (uniform x.g (fun w s => .ok (s.setWarp w ((s.warp w).wrS x.d (s.sysReg w x.sys))))) s

/-- SYS_FFLAGS (R103, R417): the reported mask becomes the three flags written. -/
def fflagsWarp (x : Sys) (w : Nat) (s : State) : Res :=
  let wp := s.warp w
  .ok (s.setWarp w (wp.mapLanes (wp.activeReal x.g) (fun l la =>
    let v := (wp.rdV x.a l).setWidth 32
    { la with fflags := writeFflags la.fflags v, reported := reportBits v })))

def execSyswrFflags (x : Sys) (s : State) : Answer := onWarp (.syswrFflags x) (fflagsWarp x) s

/-- SYS_RNG (R102): a zero becomes one. -/
def rngWarp (x : Sys) (w : Nat) (s : State) : Res :=
  let wp := s.warp w
  .ok (s.setWarp w (wp.mapLanes (wp.activeReal x.g) (fun l la =>
    let v := (wp.rdV x.a l).setWidth 32
    { la with rng := if v = 0 then 1 else v })))

def execSyswrRng (x : Sys) (s : State) : Answer := onWarp (.syswrRng x) (rngWarp x) s

/-- A value written to SYS_TLBINV is legal (R421). -/
def tlbinvOk (x : Nat) : Bool := bits x 62 2 < 2 && bits x 57 5 == 0 && bits x 0 16 == 0

def tlbinvWarp (x : Sys) (w : Nat) (s : State) : Res :=
  let wp := s.warp w
  let v := (wp.rdS x.a).toNat
  if !tlbinvOk v then .trap { cause := 0x022 } s
  else .ok (s.runOrBlock
    (s.newOp w (.syswrTlbinv x) { scope := .dev } (wp.activeReal x.g) 0 0 [{ data := v }] []) w)

def execSyswrTlbinv (x : Sys) (s : State) : Answer :=
  onWarp (.syswrTlbinv x) (uniformReal x.g (tlbinvWarp x)) s

/-- SYS_RESUMEPC is written in a handler or a resume routine only. -/
def resumepcWarp (x : Sys) (w : Nat) (s : State) : Res :=
  let wp := s.warp w
  let v := (wp.rdS x.a).toNat
  if wp.mode = .normal then .trap { cause := 0x00A } s
  else if !pcOk v then .trap { cause := 0x022 } s
  else .ok (s.setWarp w { wp with resumePc := v })

def execSyswrResumepc (x : Sys) (s : State) : Answer :=
  onWarp (.syswrResumepc x) (uniformReal x.g (resumepcWarp x)) s

/-! ## SRD (R435) -/

/-- A per-lane special value. -/
def Warp.laneValue (wp : Warp) (n l : Nat) : Nat :=
  match n with
  | 0 => l
  | 1 => l / 4
  | 0x0B => (wp.lane l).rng.toNat
  | _ => (wp.lane l).fflags.toNat

/-- A scalar special value; without a cluster the three cluster values are those of R215. -/
def State.scalarValue (s : State) (w n : Nat) : Nat :=
  let wp := s.warp w
  let b := s.block wp.block
  match n, b.cluster with
  | 0x02, _ => wp.index
  | 0x03, _ => b.b
  | 0x04, some c => c % 65536
  | 0x04, none => 0xFFFF
  | 0x05, some _ => b.member
  | 0x05, none => 0xFF
  | 0x06, some c => (s.cluster c).cgen
  | 0x07, _ => b.core % 16
  | 0x08, _ => b.core / 16
  | 0x09, _ => s.moduleId
  | 0x0A, _ => s.time
  | _, _ => 0

def srdWarp (x : Sys) (w : Nat) (s : State) : Res :=
  let wp := s.warp w
  if srdPerLane x.sys then
    .ok (s.setWarp w (wp.wrVs x.d (wp.active x.g) (fun l => BitVec.ofNat 64 (wp.laneValue x.sys l))))
  else if wp.anyActive x.g then .ok (s.setWarp w (wp.wrS x.d (BitVec.ofNat 64 (s.scalarValue w x.sys))))
  else .ok s

def execSrd (x : Sys) (s : State) : Answer := onWarp (.srd x) (srdWarp x) s

/-! ## RETT, YIELDP (R437, R438) -/

/-- RETT is permitted (R437): in a handler that was not entered for CANCEL, or in a resume routine. -/
def Warp.mayReturn (wp : Warp) : Bool := wp.mode == .resume || (wp.mode == .handler && wp.preempt != some .cancel)

/-- RETT or YIELDP waits for the operations of the handler streams. -/
def State.mustWait (s : State) (i : Instr) (w : Nat) : Bool :=
  let wp := s.warp w
  match i with
  | .rett _ => wp.mayReturn && !s.handlerDone w
  | .yieldp _ => wp.mode == .handler && !s.handlerDone w
  | _ => false

def rettWarp (w : Nat) (s : State) : Res :=
  let wp := s.warp w
  if wp.mayReturn then .ok (((s.handlerRelease w).restoreWarp w).afterResume wp.block)
  else .trap { cause := 0x00A } s

/-- An instruction that waits until its condition holds: until then nothing happens. -/
def onceReady (i : Instr) (s : State) (k : Answer) : Answer :=
  match s.issuer with
  | .warp w => if s.mustWait i w then .next s else k
  | _ => k

def execRett (x : Sys) (s : State) : Answer := onceReady (.rett x) s (onWarp (.rett x) rettWarp s)

def yieldpWarp (w : Nat) (s : State) : Res :=
  let wp := s.warp w
  if wp.mode != .handler then .trap { cause := 0x00A } s
  else
    let s1 := s.handlerRelease w
    let b := s1.block wp.block
    .ok ((s1.setWarp w { wp.endRun with yielded := .yielded }).hardWrite b.core (b.framePa wp.index + 0x010)
      (bytesOf 8 wp.resumePc))

def execYieldp (x : Sys) (s : State) : Answer := onceReady (.yieldp x) s (onWarp (.yieldp x) yieldpWarp s)

/-! ## TRAP (R439) -/

def trapWarp (x : Sys) (w : Nat) (s : State) : Res :=
  let wp := s.warp w
  .ok (s.haltAt w { cause := 0x100 + x.sys % 256 } none wp.pc wp.chainHead false)

def execTrap (x : Sys) (s : State) : Answer := onWarp (.trap x) (uniformReal x.g (trapWarp x)) s

end Sys2Proof.Machine
end

