-- ==== Sys2Proof/Machine/Price.lean ====
section
/-!
DEFINITION. Prices (R69, R96, R121, R160, R190, R219, R235, R257, R282, R311–R313, R350, R379, R407, R440) and charging
a pantry (R382–R384).
-/
namespace Sys2Proof

/-- A vector instruction with nowb costs 8 tokens less. -/
def Alu.vecPrice (x : Alu) (n : Nat) : Nat := if x.nowb then n - 8 else n

/-- Class 0x0 or 0x1: a scalar or a vector price. -/
def Alu.intPrice (x : Alu) (vec : Bool) (sc v : Nat) : Nat := if vec then x.vecPrice v else sc

/-- The format field of class 0x2 and 0x3 names f64. -/
def Alu.isF64 (x : Alu) : Bool := x.fmt == 1

/-- A P-slot (R32). -/
def Slot.price (x : Slot) : Nat :=
  let n := match x.op with
    | .mul => 96
    | .fadd | .fsub | .fmul | .fscale => if x.fmt == 1 then 128 else 96
    | _ => 40
  if x.nowb then n - 8 else n

/-- The price of an issue, in tokens. -/
def Instr.price : Instr → Nat
  | .add v x | .sub v x | .min v x | .max v x | .abs v x | .and v x | .or v x | .xor v x | .andn v x | .shl v x
  | .shr v x | .sar v x | .rot v x | .clz v x | .popc v x | .brev v x | .bfx v x | .bfi v x | .sel v x | .mov v x
  | .movi v x | .lea v x | .cmp v x => x.intPrice v 6 40
  | .mul v x | .mulh v x | .mad v x | .madw v x | .sad v x => x.intPrice v 10 96
  | .div v x | .rem v x => x.intPrice v 40 640
  | .fadd x | .fsub x | .fmul x | .ffma x | .fscale x => x.vecPrice (if x.isF64 then 128 else 96)
  | .fdot2 x | .fdot4 x => x.vecPrice 112
  | .fmin x | .fmax x | .fabs x | .fneg x | .fclass x | .fcmp x => x.vecPrice 40
  | .frnd x => x.vecPrice 48
  | .fdiv x | .fsqrt x => if x.isF64 then 960 else 480
  | .frcp x | .frsq x => if x.isF64 then 480 else 240
  | .fexp2 _ | .flog2 _ | .fsin _ | .fcos _ | .ftanh _ => 240
  | .cvt _ => 48
  | .cvtbPack _ | .cvtbUnpack _ => 160
  | .qswap x | .qbcast x => x.vecPrice 40
  | .xbcast x | .xrot x | .xshift x | .xalign x | .xrev x | .xzip x | .xunzip x => x.vecPrice 56
  | .permt x => x.vecPrice (48 + 16 * 2 ^ bits x.cNum 8 2)
  | .permb x => x.vecPrice 96
  | .xget x | .xput x => x.vecPrice 96
  | .scan x | .reduce x => if bit x.cNum 4 then 192 else 80
  | .ballot _ | .vote _ | .first _ | .popcp _ => 12
  | .br _ | .bru _ | .brp _ | .call _ => 12
  | .brx _ | .ret _ => 20
  | .join _ | .exit _ => 8
  | .yield _ | .nop _ => 4
  | .plop _ _ _ _ _ _ | .pmov _ => 6
  | .pWord a b => a.price + b.price
  | .ld _ | .st _ => 64
  | .ldu _ | .stu _ => 16
  | .ldb x | .stb x => 64 + 40 * 2 ^ (x.sz % 4)
  | .pf _ => 24
  | .icinv _ => 32
  | .strq _ => 8
  | .smsg _ => 48
  | .ldf _ | .ldfe _ | .ste _ | .stf _ => 64
  | .feset _ => 48
  | .feq _ => 24
  | .awarm _ | .arrive _ => 24
  | .waitg _ => 16
  | .cjoin _ | .cleave _ => 40
  | .atom _ _ => 72
  | .atomcas _ => 88
  | .fatom _ _ => 80
  | .atomnr _ _ => 56
  | .fatomnr _ _ => 64
  | .redv _ _ => 112
  | .cpy _ | .cpys _ | .cpyg _ | .cpym _ | .cpyc _ => 64
  | .mcfg _ _ _ _ | .mscl _ | .mstat _ | .mswap _ | .mclr _ | .mlds _ => 8
  | .mwaitg _ | .mstrm _ => 16
  | .marrive _ => 24
  | .accrd x | .accwr x => 48 + 32 * x.nr
  | .accrdc x => 96 + 48 * x.nr
  | .launch _ | .launcht _ => 160
  | .spawn _ => 192
  | .nodeq _ => 16
  | .cancel _ => 64
  | .fxfer _ | .fget _ | .coll _ => 96
  | .flinkq _ => 16
  | .tokq _ | .tokpr _ => 8
  | .intent _ => 24
  | .ballastPf _ | .ballastStage _ | .ballastCancel _ => 48
  | .vminq _ | .capq _ | .rampq _ => 16
  | .sysrd _ => 8
  | .syswrFflags _ | .syswrRng _ | .syswrTlbinv _ | .syswrResumepc _ => 16
  | .srd x => if srdPerLane x.sys then 16 else 8
  | .rett _ => 64
  | .yieldp _ => 32
  | .trap _ => 16
  | _ => 0

/-- Bits of an element of a matrix format (R289). -/
def matWidth (code : Nat) : Nat :=
  match code with
  | 1 | 2 => 32
  | 3 | 4 => 16
  | 9 | 12 | 13 | 18 | 20 => 4
  | _ => 8

/-- A format with block scales (R290). -/
def matScaled (code : Nat) : Bool := 14 ≤ code && code ≤ 20

/-- Four times the rows per cycle of a format (R290). -/
def matRate (code : Nat) : Nat :=
  match code with
  | 1 => 1
  | 2 => 2
  | 3 | 4 => 4
  | 9 | 12 | 13 | 18 | 20 => 16
  | _ => 8

/-- The work of an MLDS (R311). -/
def mldsPrice (wfmt : Nat) (g : Bool) : Nat :=
  (match matWidth wfmt with
    | 32 => 4096
    | 16 => 2048
    | 8 => 1024
    | _ => 512) + (if matScaled wfmt then 128 else 0) + (if g then 1024 else 0)

/-- A row of an MSTRM (R313). -/
def rowPrice (afmt wfmt : Nat) : Nat :=
  (match Nat.min (matRate afmt) (matRate wfmt) with
    | 1 => 6400
    | 2 => 3600
    | 4 => 2460
    | 8 => 1300
    | _ => 680) + (if matScaled afmt || matScaled wfmt then 20 else 0)

namespace Machine

/-! ## Charging (R382–R384) -/

/-- Waits for the tokens of a core's pantry: slots, the array, and the MCC that is charged there; and whether they are at
issue priority 0. -/
def State.waitsOn (s : State) (core : Nat) : List (TokenWait × Bool) :=
  (s.warps.cells.filter (fun c => c.2.live && !c.2.halted && c.2.yielded == .no && (s.block c.2.block).st == .placed &&
    (s.block c.2.block).core == core)).filterMap (fun c => c.2.tokenWait.map (·, c.2.mode == .handler)) ++
  (s.pantry core).arrayWait.toList.map (·, false) ++ (s.pantry core).mccWait.toList.map (·, false)

/-- A reserved wait that comes before a consumer which waits as `me` (R382, R383): at issue priority 0, then the longest. -/
def goesFirst (me : Option TokenWait) (prio : Bool) (t : TokenWait × Bool) : Bool :=
  t.1.reserved && (if t.2 != prio then t.2 else match me with
    | some x => !x.reserved || t.1.since < x.since
    | none => true)

/-- The reserved waits ahead of a consumer. -/
def State.reservedAhead (s : State) (core : Nat) (me : Option TokenWait) (prio : Bool) : List TokenWait :=
  ((s.waitsOn core).filter (goesFirst me prio)).map (·.1)

/-- The place of a consumer in the order of a cycle (R382): issue priority 0 is 1, and reserved consumers are 2. -/
def rankOf (me : Option TokenWait) (prio : Bool) (rank : Nat) : Nat :=
  if prio then 1 else match me with
  | some x => if x.reserved then 2 else rank
  | none => rank

/-- A consumer is looked at in this cycle (R382–R384): no tick is due first, none that comes later has been charged in it,
no reserved wait ahead of it has still to be looked at, and its own wait is over only at a tick. -/
def State.mayCharge (s : State) (core : Nat) (me : Option TokenWait) (prio : Bool) (rank : Nat) : Bool :=
  let p := s.pantry core
  s.cycles < 32 * ((s.larder (core / 16)).ticks + 1) &&
  (p.cycle != s.cycles || p.rank ≤ rankOf me prio rank) &&
  (s.reservedAhead core me prio).all (fun t => !t.due) &&
  (match me with
   | some x => x.due
   | none => true)

/-- What came of a charge: it was made, or the consumer waits, or this is not its turn. -/
inductive Charged where
  | paid (s : State)
  | waits
  | later

/-- A consumer that waits as `me` is charged `n`, if the pantry holds it beside what is reserved ahead of it. -/
def State.charge (s : State) (core n : Nat) (me : Option TokenWait) (prio : Bool) (rank : Nat) : Charged :=
  let p := s.pantry core
  if !s.mayCharge core me prio rank then .later
  else if n + (s.reservedAhead core me prio).foldl (fun a t => a + t.price) 0 ≤ p.level then
    .paid (s.setPantry core { p with
      level := p.level - n, charged := p.charged + BitVec.ofNat 64 n, cycle := s.cycles, rank := rankOf me prio rank })
  else .waits

/-- A wait begins, or goes on until the next tick. -/
def TokenWait.begin (me : Option TokenWait) (n seq : Nat) : Option TokenWait :=
  some { me.getD { price := n, since := seq } with price := n, due := false }

/-- A slot's warp is looked at in this cycle. -/
def State.looksAt (s : State) (w : Nat) : Bool :=
  let wp := s.warp w
  s.mayCharge (s.block wp.block).core wp.tokenWait (wp.mode == .handler) (5 + wp.slot)

/-- A warp is charged for its next issue, or its slot waits with it. -/
def State.chargeWarp (s : State) (w n : Nat) : State × Bool :=
  let wp := s.warp w
  match s.charge (s.block wp.block).core n wp.tokenWait (wp.mode == .handler) (5 + wp.slot) with
  | .paid s1 => (s1.setWarp w { s1.warp w with tokenWait := none }, true)
  | .later => (s, false)
  | .waits => ({ s with nextSeq := s.nextSeq + 1 }.setWarp w { wp with tokenWait := TokenWait.begin wp.tokenWait n s.nextSeq }, false)

/-- An MCC is charged on logical core 4b. -/
def State.chargeMcc (s : State) (k n : Nat) : State × Bool :=
  let core := k / 4 * 16 + 4 * (k % 4)
  let p := s.pantry core
  match s.charge core n p.mccWait false 4 with
  | .paid s1 => (s1.setPantry core { s1.pantry core with mccWait := none }, true)
  | .later => (s, false)
  | .waits => ({ s with nextSeq := s.nextSeq + 1 }.setPantry core { p with mccWait := TokenWait.begin p.mccWait n s.nextSeq }, false)

/-- An array is charged for its work. -/
def State.chargeArray (s : State) (core n : Nat) : State × Bool :=
  let p := s.pantry core
  match s.charge core n p.arrayWait false 3 with
  | .paid s1 => (s1.setPantry core { s1.pantry core with arrayWait := none }, true)
  | .later => (s, false)
  | .waits => ({ s with nextSeq := s.nextSeq + 1 }.setPantry core { p with arrayWait := TokenWait.begin p.arrayWait n s.nextSeq }, false)

end Machine
end Sys2Proof
end

