-- ==== Sys2Proof/Machine/Matrix.lean ====
section
/-!
DEFINITION. The matrix instructions of class 0xA (R283–R304): what an MCC queues, what the arrays do with their queues
(R285), exact slice sums (R291, R298), operand faults (R306), and the vector side's accumulator moves.
-/
namespace Sys2Proof.Machine

/-! ## Places -/

/-- The core, and array, that array number `i` of an MCC stands beside (R284). -/
def mccCore (k i : Nat) : Nat := k / 4 * 16 + 4 * (k % 4) + i

/-- The MCC of an array. -/
def arrMcc (core : Nat) : Nat := core / 16 * 4 + core % 16 / 4

/-- Blocks of the instance on a bay. -/
def State.mccBlocks (s : State) (k : Nat) : List Nat :=
  match (s.mcc k).gang with
  | some g => (s.gang g).blocks
  | none => []

/-- The array is one of the instance's (R284). -/
def State.hasArray (s : State) (k i : Nat) : Bool := i < (s.mccBlocks k).length

/-- `n` bytes at an SA lie in its target's allocation (R284). -/
def State.saOk (s : State) (k sa n : Nat) : Bool :=
  match s.resolveSa (s.member0 k) sa n with
  | .ok _ => true
  | .error _ => false

/-- Bytes at an SA; zero where there is no scratchpad. -/
def State.saBytes (s : State) (k sa n : Nat) : List Byte :=
  match s.resolveSa (s.member0 k) sa n with
  | .ok (.scratch b off) => s.readScratch b off n
  | _ => List.replicate n 0

/-- A value that is an SA (R197). -/
def isSa (x : Nat) : Bool := x < 2 ^ 20 || x / 2 ^ 24 == 1

/-! ## Queues (R285) -/

/-- MCFG and MSCL at the head of a load queue take effect and are done. -/
def settleLoad : List QEntry → Arr → Arr
  | [], a => { a with loadQ := [] }
  | q :: r, a => match q.e with
    | .cfg w _ _ => settleLoad r { a with wfmt := w }
    | .scl _ w => settleLoad r { a with wscale := w }
    | _ => { a with loadQ := q :: r }

/-- The same of a compute queue. -/
def settleComp : List QEntry → Arr → Arr
  | [], a => { a with compQ := [] }
  | q :: r, a => match q.e with
    | .cfg _ f rm => settleComp r { a with afmt := f, rm := rm }
    | .scl x _ => settleComp r { a with ascale := x }
    | _ => { a with compQ := q :: r }

/-- An array whose queues hold nothing that is done. -/
def Arr.settle (a : Arr) : Arr :=
  let b := settleLoad a.loadQ a
  settleComp b.compQ b

/-- wfmt and wscale as the latest earlier MCFG and MSCL of an array set them. -/
def Arr.lastWfmt (a : Arr) : Nat := (settleLoad (a.loadQ.filter (fun q => match q.e with
  | .cfg _ _ _ => true
  | _ => false)) a).wfmt
def Arr.lastWscale (a : Arr) : Nat := (settleLoad (a.loadQ.filter (fun q => match q.e with
  | .scl _ _ => true
  | _ => false)) a).wscale
def Arr.lastAfmt (a : Arr) : Nat := (settleComp (a.compQ.filter (fun q => match q.e with
  | .cfg _ _ _ => true
  | _ => false)) a).afmt
def Arr.lastAscale (a : Arr) : Nat := (settleComp (a.compQ.filter (fun q => match q.e with
  | .scl _ _ => true
  | _ => false)) a).ascale

/-- An entry joins the queues it needs. -/
def State.enqueue (s : State) (k i : Nat) (e : MEntry) (load comp : Bool) : State :=
  let m := s.mcc k
  let c := mccCore k i
  let a := s.arr c
  let q : QEntry := { seq := m.seq, e := e }
  let b := { a with
    loadQ := if load then a.loadQ ++ [q] else a.loadQ
    compQ := if comp then a.compQ ++ [q] else a.compQ }
  (s.setMcc k { m with seq := m.seq + 1 }).setArr c b.settle

/-- There is a place in every queue or buffer that an instruction needs. -/
def State.mccRoom (s : State) (i : Instr) (k : Nat) : Bool :=
  let a := fun (n : Nat) => s.arr (mccCore k n)
  match i with
  | .mcfg n _ _ _ => (a n).loadQ.length < 16 && (a n).compQ.length < 16
  | .mscl x => (a (x.c % 4)).loadQ.length < 16 && (a (x.c % 4)).compQ.length < 16
  | .mlds x => (a (x.c % 4)).loadQ.length < 16
  | .mswap x | .mstrm x | .mclr x => (a (x.c % 4)).compQ.length < 16
  | .marrive _ => (s.mcc k).arrivals.length < 8
  | _ => true

/-- An MCC's instruction waits at issue for a place in a queue; otherwise it issues. -/
def onRoom (i : Instr) (body : Nat → State → Res) (s : State) : Answer :=
  match s.issuer with
  | .mcc k => .next (if s.mccRoom i k then runMcc body k s else s)
  | _ => .fault .wrongAgent

/-! ## Issue (R294–R302) -/

/-- An array number above gw is an illegal operand. -/
def onArray (i : Nat) (body : Nat → State → Res) (k : Nat) (s : State) : Res :=
  if s.hasArray k i then body k s else .trap { cause := 0x022 } s

def execMcfg (k wfmt afmt : Nat) (rm : Rm) (s : State) : Answer :=
  onRoom (.mcfg k wfmt afmt rm) (onArray k (fun m s => .ok (s.enqueue m k (.cfg wfmt afmt rm) true true))) s

def msclBody (x : R3) (k : Nat) (s : State) : Res :=
  let a := ((s.mcc k).rdS x.a).toNat
  let b := ((s.mcc k).rdS x.b).toNat
  if !isSa a || !isSa b then .trap { cause := 0x022 } s
  else if a % 4 != 0 || b % 16 != 0 then .trap { cause := 0x062 } s
  else .ok (s.enqueue k (x.c % 4) (.scl a b) true true)

def execMscl (x : R3) (s : State) : Answer := onRoom (.mscl x) (onArray (x.c % 4) (msclBody x)) s

/-- Bytes of a row (R289). -/
def rowBytes (code : Nat) : Nat := 16 * matWidth code

/-- The instance was launched relaunchable. -/
def State.mccRl (s : State) (k : Nat) : Bool := (s.block (s.member0 k)).rcd.rl

def mldsBody (x : R3) (k : Nat) (s : State) : Res :=
  let i := x.c % 4
  let arr := s.arr (mccCore k i)
  let a := ((s.mcc k).rdS x.a).toNat
  let p := ((s.mcc k).rdS x.b).toNat
  let w := arr.lastWfmt
  let rb := rowBytes w
  let glob := bit x.c 3
  if 2 ^ 20 ≤ p then .trap { cause := 0x022 } s
  else if a % 16 != 0 || p % 16 != 0 then .trap { cause := 0x062 } s
  else if p < rb then .trap { cause := 0x022 } s
  else if glob && !s.mccRl k then .trap { cause := 0x091 } s
  else if (!glob && !s.saOk k a (127 * p + rb)) || (matScaled w && !s.saOk k arr.lastWscale 512) then
    .trap { cause := 0x064 } s
  else .ok (s.enqueue k i (.lds a p (bit x.c 2) glob) true false)

def execMlds (x : R3) (s : State) : Answer := onRoom (.mlds x) (onArray (x.c % 4) (mldsBody x)) s

def execMswap (x : R3) (s : State) : Answer :=
  onRoom (.mswap x) (onArray (x.c % 4) (fun k s => .ok (s.enqueue k (x.c % 4) .swap false true))) s

/-- A rows register (R293): row0 and M, where it is legal. -/
def rowsOf (x : Nat) : Option (Nat × Nat) :=
  let r := bits x 0 13
  let m := bits x 16 14
  if bits x 13 3 != 0 || bits x 30 34 != 0 || m = 0 || 8192 < r + m then none else some (r, m)

def mstrmBody (x : R3) (k : Nat) (s : State) : Res :=
  let i := x.c % 4
  let arr := s.arr (mccCore k i)
  let f := ((s.mcc k).rdS x.a).toNat
  let p := ((s.mcc k).rdS x.b).toNat
  let af := arr.lastAfmt
  let rb := rowBytes af
  match rowsOf ((s.mcc k).rdS x.d).toNat with
  | none => .trap { cause := 0x022 } s
  | some (row0, m) =>
    if 2 ^ 20 ≤ p then .trap { cause := 0x022 } s
    else if f % 16 != 0 || p % 16 != 0 then .trap { cause := 0x062 } s
    else if p < rb then .trap { cause := 0x022 } s
    else if !s.saOk k f ((m - 1) * p + rb) || (matScaled af && !s.saOk k arr.lastAscale (4 * m)) then
      .trap { cause := 0x064 } s
    else .ok (s.enqueue k i (.strm row0 m f p (bit x.c 2)) false true)

def execMstrm (x : R3) (s : State) : Answer := onRoom (.mstrm x) (onArray (x.c % 4) (mstrmBody x)) s

def mclrBody (x : R3) (k : Nat) (s : State) : Res :=
  match rowsOf ((s.mcc k).rdS x.d).toNat with
  | none => .trap { cause := 0x022 } s
  | some (row0, m) => .ok (s.enqueue k (x.c % 4) (.clr row0 m) false true)

def execMclr (x : R3) (s : State) : Answer := onRoom (.mclr x) (onArray (x.c % 4) (mclrBody x)) s

/-- The word of an MWAITG or MARRIVE: its block and offset, or a cause. -/
def State.mccWord (s : State) (k sa : Nat) : Except Nat (Nat × Nat) :=
  if sa % 16 != 0 then .error 0x062
  else match s.resolveSa (s.member0 k) sa 16 with
  | .ok (.scratch b off) => .ok (b, off)
  | .ok _ => .error 0x064
  | .error c => .error c

/-- MWAITG (R300): the MCC goes on, faults, or stands at it until the word changes. -/
def mwaitgBody (x : R3) (k : Nat) (s : State) : Res :=
  let m := s.mcc k
  match s.mccWord k (m.rdS x.a).toNat with
  | .error c => .trap { cause := c } s
  | .ok (b, off) =>
    let word := s.aword b off
    let g := (m.rdS x.b).toNat % 2 ^ 32
    if word.err then .trap { cause := 0x073 } s
    else if word.reached g then .ok s
    else .ok (s.setMcc k { m with pc := m.cur, inWait := some { block := b, off := off, gen := g, since := s.time } })

def execMwaitg (x : R3) (s : State) : Answer := onMcc (mwaitgBody x) s

def marriveBody (x : R3) (k : Nat) (s : State) : Res :=
  let m := s.mcc k
  let mask := x.c % 256
  if (List.range 4).any (fun i => !s.hasArray k i && (bit mask i || bit mask (4 + i))) then .trap { cause := 0x022 } s
  else match s.mccWord k (m.rdS x.a).toNat with
  | .error c => .trap { cause := c } s
  | .ok (b, off) =>
    .ok (s.setMcc k { m with
      seq := m.seq + 1
      arrivals := m.arrivals ++
        [{ seq := m.seq, block := b, off := off, n := (m.rdS x.b).toNat % 2 ^ 32, mask := mask }] })

def execMarrive (x : R3) (s : State) : Answer := onRoom (.marrive x) (marriveBody x) s

/-- MSTAT's word (R302). -/
def mstatWord (m : Mcc) (a : Arr) : Nat :=
  m.arrivals.length * 2 ^ 32 + a.compQ.length * 2 ^ 24 + a.loadQ.length * 2 ^ 16 + a.active.tag * 2 ^ 8 +
  b2n a.inexact * 16 + b2n a.underflow * 8 + b2n a.overflow * 4 + b2n a.invalid

def mstatBody (x : R3) (k : Nat) (s : State) : Res :=
  let c := mccCore k (x.c % 4)
  let a := s.arr c
  let s1 := s.setMcc k ((s.mcc k).wrS x.d (BitVec.ofNat 64 (mstatWord (s.mcc k) a)))
  .ok (if bit x.c 2 then
      s1.setArr c { a with invalid := false, overflow := false, underflow := false, inexact := false }
    else s1)

def execMstat (x : R3) (s : State) : Answer := onMcc (onArray (x.c % 4) (mstatBody x)) s

/-! ## Values (R290, R291) -/

/-- An element's pattern as a value. -/
def matVal (code p : Nat) : FVal :=
  match code with
  | 1 => f32.decode p
  | 2 => fp19.decode (p / 2 ^ 13)
  | 3 => bf16.decode p
  | 4 => f16.decode p
  | 5 | 14 => e4m3.decode p
  | 6 | 15 => e5m2.decode p
  | 7 | 16 => e3m2.decode (p % 64)
  | 8 | 17 => e2m3.decode (p % 64)
  | 9 | 18 | 20 => e2m1.decode p
  | 10 => ofInt (sext 8 p)
  | 11 => ofInt ((p % 256 : Nat) : Int)
  | 12 => ofInt (sext 4 p)
  | 13 => ofInt ((p % 16 : Nat) : Int)
  | 19 => scaleVal (ofInt (sext 8 p)) (-6)
  | _ => .zero false

/-- A scale byte's value. -/
def matScale (code p : Nat) : FVal := if code = 20 then ue5m3Val p else e8m0Val p

/-- A format of class I. -/
def matInt (code : Nat) : Bool := 10 ≤ code && code ≤ 13

/-- An integer pair's element. -/
def matInteger (code p : Nat) : Int := (matVal code p).toFrac.1

/-- Element `x` of a row of bytes. -/
def rowElem (code : Nat) (row : Nat) (x : Nat) : Nat := bits row (matWidth code * x) (matWidth code)

/-- One slice: its exact sum, and whether it is invalid. Each term has an activation, its scale, a weight, its scale. -/
def sliceSum (terms : List (FVal × FVal × FVal × FVal)) : FVal × Bool :=
  let one := fun (t : FVal × FVal × FVal × FVal) =>
    let (a, sa, w, sw) := t
    let x := mulVal a sa
    let y := mulVal w sw
    let z := mulVal x.1 y.1
    (z.1, x.2 || y.2 || z.2 || a.isSig || w.isSig)
  let ps := terms.map one
  let t := sumVals (ps.map (·.1)) false
  (t.1, t.2 || ps.any (·.2))

/-- An element of a floating-point row (R298): the accumulator after four slices, with the flags. -/
def accFloat (rm : Rm) (acc : BitVec 32) (slices : List (List (FVal × FVal × FVal × FVal))) : Nat × Flags :=
  slices.foldl (fun (a : Nat × Flags) sl =>
    let x := f32.decode a.1
    let t := sliceSum sl
    let y := sumVals [x, t.1] (rm = .rdn)
    let r := roundVal f32 y.1 rm 0
    (r.1, (a.2.or r.2).or { invalid := t.2 || y.2 || x.isSig })) (acc.toNat, {})

def State.accAt (s : State) (core row n : Nat) : BitVec 32 := s.acc.get 0 (core * 2 ^ 20 + row * 128 + n)

/-- A row of an MSTRM: the 128 new elements and the flags. `feed` is the row's bytes and `sa` its scale bytes. -/
def strmRow (a : Arr) (old : Nat → BitVec 32) (acc : Bool) (feed : Nat) (sa : List Byte) : List (Nat × Flags) :=
  let wf := a.active.tag
  (List.range 128).map (fun n =>
    if matInt a.afmt && matInt wf then
      let t := (List.range 128).foldl (fun (t : Int) q =>
        t + matInteger a.afmt (rowElem a.afmt feed q) * matInteger wf (a.active.w.get 0 (q * 128 + n))) 0
      (pattern 32 (t + (if acc then (old n).toInt else 0)), {})
    else
      accFloat a.rm (if acc then old n else 0) ((List.range 4).map (fun j =>
        let s1 := if matScaled a.afmt then matScale a.afmt (sa.getD j 0).toNat else .fin false 1 1
        let s2 := if matScaled wf then matScale wf (a.active.scales.get 0 (4 * n + j)).toNat else .fin false 1 1
        (List.range 32).map (fun i =>
          let q := 32 * j + i
          (matVal a.afmt (rowElem a.afmt feed q), s1, matVal wf (a.active.w.get 0 (q * 128 + n)), s2)))))

/-! ## What an array does -/

/-- The head of a load queue that may run: every earlier MSWAP is done. -/
def Arr.loadHead (a : Arr) : Option QEntry :=
  match a.loadQ with
  | [] => none
  | q :: _ => if a.compQ.all (fun c => c.e != .swap || q.seq < c.seq) then some q else none

/-- The head of a compute queue. An MSWAP runs when every earlier entry of the load queue is done. -/
def Arr.compHead (a : Arr) : Option QEntry :=
  match a.compQ with
  | [] => none
  | q :: _ => if q.e != .swap || a.loadQ.all (fun c => q.seq < c.seq) then some q else none

def Arr.popLoad (a : Arr) : Arr := { a with loadQ := a.loadQ.drop 1 }.settle
def Arr.popComp (a : Arr) : Arr := { a with compQ := a.compQ.drop 1 }.settle

/-- The pantry is charged for an entry's work when it starts (R311). -/
def State.startWork (s : State) (core n : Nat) (begun : Bool) : State × Bool :=
  if begun then (s, true) else s.chargeArray core n

/-- Bytes of a global source, 16 at a time: a cause, nothing while a line is pinned, or the bytes. -/
inductive Fed where
  | bad (cause addr : Nat)
  | wait
  | bytes (l : List Byte)

def State.feed (s : State) (c : Ctx) (ext : List Nat) : List Nat → Fed × State
  | [] => (.bytes [], s)
  | va :: r =>
    match (if isWindow va then (.error 0x063, s) else s.checkElem c { read := true } va 16 16) with
    | (.error e, s1) => (.bad e va, s1)
    | (.ok p, s1) =>
      let s1 := match p with
        | .home pa _ false => s1.atSlice pa (some c.asid) none
        | _ => s1
      match s1.engineRead (c.core / 16) p 16 ext with
      | (none, s2) => (.wait, s2)
      | (some bs, s2) =>
        match s2.feed c (ext.drop 16) r with
        | (.bytes l, s3) => (.bytes (bs ++ l), s3)
        | x => x

/-- The addresses of a global plane's chunks, row by row. -/
def planeChunks (a p rb : Nat) : List Nat :=
  (List.range 128).flatMap (fun q => (List.range (rb / 16)).map (fun i => a + q * p + 16 * i))

/-- The source rows of an MLDS, one after another. -/
def State.planeBytes (s : State) (core : Nat) (a p rb : Nat) (g : Bool) (ext : List Nat) : Fed × State :=
  let k := arrMcc core
  let m := s.member0 k
  if g then s.feed { core := core, block := m, asid := (s.job (s.block m).job).asid } ext (planeChunks a p rb)
  else (.bytes ((List.range 128).flatMap (fun q => s.saBytes k (a + q * p) rb)), s)

/-- The shadow plane that rows of bytes make (R296). -/
def Plane.loaded (old : Plane) (wfmt : Nat) (t : Bool) (bs : List Byte) (scales : List Byte) : Plane :=
  let rb := rowBytes wfmt
  let row := fun (q : Nat) => ofBytes ((bs.drop (rb * q)).take rb)
  { tag := wfmt
    w := Table.tabulate 0 16384 (fun i =>
      if t then rowElem wfmt (row (i % 128)) (i / 128) else rowElem wfmt (row (i / 128)) (i % 128))
    scales := if matScaled wfmt then Table.tabulate 0 512 (fun i => scales.getD i 0) else old.scales }

/-- An MLDS runs to its end (R296). -/
def State.runMlds (s : State) (core : Nat) (ext : List Nat) : State :=
  let a := s.arr core
  match a.loadHead with
  | some { e := .lds addr p t g, prog := prog, .. } =>
    let (s1, ok) := s.startWork core (mldsPrice a.wfmt g) (prog != 0)
    if !ok then s1
    else
      let begun := s1.setArr core { a with loadQ := a.loadQ.mapIdx (fun i q => if i = 0 then { q with prog := 1 } else q) }
      match begun.planeBytes core addr p (rowBytes a.wfmt) g ext with
      | (.bytes bs, s2) =>
        let sc := s2.saBytes (arrMcc core) a.wscale 512
        s2.setArr core (Arr.popLoad { a with shadow := a.shadow.loaded a.wfmt t bs sc })
      | (_, s2) => s2
  | _ => s

def execMldsDone (arr : Nat) (ext : List Nat) (s : State) : Answer := .next (s.runMlds arr ext)

/-- An MSWAP exchanges the planes (R297). -/
def State.runMswap (s : State) (core : Nat) : State :=
  let a := s.arr core
  match a.compHead with
  | some { e := .swap, .. } =>
    let (s1, ok) := s.chargeArray core 64
    if ok then s1.setArr core (Arr.popComp { a with active := a.shadow, shadow := a.active }) else s1
  | _ => s

def execMswapDone (arr : Nat) (s : State) : Answer := .next (s.runMswap arr)

/-- A row of accumulators written. -/
def State.writeAcc (s : State) (core row : Nat) (f : Nat → BitVec 32) : State :=
  { s with acc := (List.range 128).foldl (fun (t : Table (BitVec 32)) n => t.set 0 (core * 2 ^ 20 + row * 128 + n) (f n)) s.acc }

/-- A row of an MSTRM enters the array, if it has not: its work is charged, and its feed and scale bytes are read (R298,
R311). -/
def State.enterRow (s : State) (core : Nat) : State :=
  let a := s.arr core
  match a.compHead, a.fed with
  | some { e := .strm _ _ feed p _, prog := i, .. }, none =>
    let (s1, ok) := s.chargeArray core (rowPrice a.afmt a.active.tag)
    let k := arrMcc core
    if ok then s1.setArr core { a with
        fed := some (s1.saBytes k (feed + i * p) (rowBytes a.afmt), s1.saBytes k (a.ascale + 4 * i) 4) }
    else s1
  | _, _ => s

/-- The elements of a mask of the row that has entered are written, each as one RMW (R298), unless they have been. -/
def State.rowElems (s : State) (core els : Nat) : State :=
  let a := s.arr core
  match a.compHead, a.fed with
  | some { e := .strm row _ _ _ acc, prog := i, .. }, some (feed, sa) =>
    let out := strmRow a (s.accAt core (row + i)) acc (ofBytes feed) sa
    let now := fun (n : Nat) => bit els n && !bit a.part n
    let fl := (out.zipIdx).foldl (fun (f : Flags) x => if now x.2 then f.or x.1.2 else f) {}
    (s.writeAcc core (row + i) (fun n =>
      if now n then BitVec.ofNat 32 (out.getD n (0, {})).1 else s.accAt core (row + i) n)).setArr core { a with
        invalid := a.invalid || fl.invalid, overflow := a.overflow || fl.overflow
        underflow := a.underflow || fl.underflow, inexact := a.inexact || fl.inexact
        part := a.part ||| els % 2 ^ 128 }
  | _, _ => s

/-- A row whose every element is written is done; with the last row the MSTRM is. -/
def Arr.endRow (a : Arr) : Arr :=
  match a.compHead with
  | some { e := .strm _ rows _ _ _, prog := i, .. } =>
    if i + 1 < rows then
      { a with fed := none, part := 0
               compQ := a.compQ.mapIdx (fun j q => if j = 0 then { q with prog := i + 1 } else q) }
    else { a with fed := none, part := 0 }.popComp
  | _ => a

/-- An MSTRM does its next row, or what is left of it (R298). -/
def State.runRow (s : State) (core : Nat) : State :=
  let s1 := s.enterRow core
  if (s1.arr core).fed.isNone then s1
  else
    let s2 := s1.rowElems core (ones 128)
    s2.setArr core (s2.arr core).endRow

def execMstrmRow (arr : Nat) (s : State) : Answer := .next (s.runRow arr)

/-- An MCLR begins: its work is charged. -/
def State.enterClr (s : State) (core : Nat) : State :=
  let a := s.arr core
  match a.compHead, a.fed with
  | some { e := .clr _ rows, .. }, none =>
    let (s1, ok) := s.chargeArray core (4 * rows)
    if ok then s1.setArr core { a with fed := some ([], []) } else s1
  | _, _ => s

/-- The elements of a mask of an MCLR's rows are cleared, unless they have been. -/
def State.clrElems (s : State) (core els : Nat) : State :=
  let a := s.arr core
  match a.compHead, a.fed with
  | some { e := .clr row rows, .. }, some _ =>
    let lo := core * 2 ^ 20 + row * 128
    let mask := els % 2 ^ (rows * 128)
    { s with acc := s.acc.keep (fun key _ =>
        key < lo || lo + rows * 128 ≤ key || !bit mask (key - lo) || bit a.part (key - lo)) }.setArr core
      { a with part := a.part ||| mask }
  | _, _ => s

/-- An MCLR clears its rows, or what is left of them (R299). -/
def State.runMclr (s : State) (core : Nat) : State :=
  let s1 := s.enterClr core
  match (s1.arr core).compHead, (s1.arr core).fed with
  | some { e := .clr _ rows, .. }, some _ =>
    let s2 := s1.clrElems core (ones (rows * 128))
    s2.setArr core { s2.arr core with fed := none, part := 0 }.popComp
  | _, _ => s1

/-- Some elements of an array's running row, or of its MCLR, are done before the rest (R305). -/
def State.earlyRow (s : State) (core els : Nat) : State :=
  ((s.enterRow core).rowElems core els).enterClr core |>.clrElems core els

def execMclrDone (arr : Nat) (s : State) : Answer := .next (s.runMclr arr)

/-- The oldest MARRIVE is made once the entries before it in its masked queues are done (R301). -/
def State.makeArrival (s : State) (k : Nat) : State :=
  let m := s.mcc k
  match m.arrivals with
  | [] => s
  | x :: r =>
    let done := (List.range 4).all (fun i =>
      let a := s.arr (mccCore k i)
      (!bit x.mask i || a.compQ.all (fun q => x.seq < q.seq)) &&
      (!bit x.mask (4 + i) || a.loadQ.all (fun q => x.seq < q.seq)))
    if !done || (s.block x.block).frozen then s
    else (s.setMcc k { m with arrivals := r }).arriveAt x.block x.off x.n

def execMarriveMade (bay : Nat) (s : State) : Answer := .next (s.makeArrival bay)

/-! ## Operand faults (R306) -/

/-- A fault that a running entry can meet: in a global source what its bytes now give, or an error of the data. -/
def State.operandBad (s : State) (core cause addr : Nat) : Bool :=
  let a := s.arr core
  let data := cause == 0x065
  let load := match a.loadHead with
    | some { e := .lds x p _ g, .. } => data || (g && (match (s.planeBytes core x p (rowBytes a.wfmt) g []).1 with
      | .bad c va => c == cause && va == addr
      | _ => false))
    | _ => false
  let comp := match a.compHead with
    | some { e := .strm _ _ _ _ _, .. } => data
    | _ => false
  load || comp

/-- Both planes of an instance's arrays and its accumulator stores are cleared; queues and buffer are discarded. -/
def State.scrub (s : State) (k : Nat) : State :=
  let cores := (List.range (s.mccBlocks k).length).map (mccCore k)
  let s1 := cores.foldl (fun (t : State) c =>
    let a := t.arr c
    let u := (t.clearArray c).setArr c { a with active := {}, shadow := {}, loadQ := [], compQ := [], fed := none, part := 0 }
    u.setPantry c { u.pantry c with arrayWait := none }) s
  s1.setMcc k { s1.mcc k with arrivals := [] }

def State.operandFault (s : State) (core cause addr : Nat) : State :=
  let k := arrMcc core
  let m := s.member0 k
  if !s.operandBad core cause addr then s
  else
    let s1 := s.scrub k
    if s.mccRl k && (s.block m).relaunches < 2 then s1.askRelaunch m
    else s1.haltAll m (if s.mccRl k then 0x0B0 else cause) addr true

def execOperandFault (arr cause addr : Nat) (s : State) : Answer := .next (s.operandFault arr cause addr)

/-! ## The watchdog (R213, R300) -/

/-- An MWAITG's watchdog expires: the MCC halts. -/
def State.watchdogMcc (s : State) (k : Nat) : State :=
  let m := s.mcc k
  match m.inWait with
  | some x => if x.since + (s.block (s.member0 k)).watchdog ≤ s.time then s.faultMcc k 0x071 m.cur else s
  | none => s

def execWatchdogExpiry (mcc : Bool) (id : Nat) (s : State) : Answer :=
  .next (if mcc then s.watchdogMcc id else s.watchdogWarp id)

/-! ## The vector side (R303, R304, R307) -/

/-- From the delivery of a pre-emption until its MCC has stopped, an instance's accumulator moves wait (R307). -/
def State.accHeld (s : State) (w : Nat) : Bool :=
  let b := (s.warp w).block
  (s.block b).gang.isSome && (s.instanceOf b).any (fun c => (s.block c).preempt.isSome) && !s.mccStopped b

/-- An accumulator move waits: for its MCC (R307), and for the earlier operations of its threads, after all of which it is
ordered (R305). -/
def State.accWaits (s : State) (w : Nat) (g : Guard) : Bool :=
  let wp := s.warp w
  s.accHeld w || (s.earlier w s.nextSeq).any (fun a => a.hset == wp.usesHandlerStreams && a.pending (wp.active g))

def onAcc (i : Instr) (g : Guard) (body : Nat → State → Res) (s : State) : Answer :=
  match s.issuer with
  | .warp w => if s.accWaits w g then .next s else .next (runIssue i body w s)
  | _ => .fault .wrongAgent

/-- The first row of an accumulator move, checked. -/
def State.accRow (s : State) (w : Nat) (x : R3) : Except Nat Nat :=
  let a := ((s.warp w).rdS x.a).toNat
  if a / 2 ^ 13 != 0 || 8192 < a + x.nr then .error 0x022
  else if (s.block (s.warp w).block).gang.isNone then .error 0x090
  else .ok a

def State.coreOf (s : State) (w : Nat) : Nat := (s.block (s.warp w).block).core

/-- Element `e` of a move's rows as the move reads it: as it has read it, or as it stands. -/
def State.accSeen (s : State) (w row e : Nat) : BitVec 32 :=
  ((s.warp w).part.get none e).getD (s.accAt (s.coreOf w) (row + e / 128) (e % 128))

/-- The move is over. -/
def Warp.endMove (wp : Warp) : Warp := { wp with part := {} }

def accrdWarp (x : R3) (w : Nat) (s : State) : Res :=
  match s.accRow w x with
  | .error c => .trap { cause := c } s
  | .ok row =>
    let wp := s.warp w
    .ok (s.setWarp w (Warp.endMove ((List.range (2 * x.nr)).foldl (fun (a : Warp) i =>
      a.wrVs (x.d + i) (wp.active x.g) (fun l =>
        let e := 128 * (i / 2) + 64 * (i % 2) + 2 * l
        s.accSeen w row (e + 1) ++ s.accSeen w row e)) wp)))

def execAccrd (x : R3) (s : State) : Answer := onAcc (.accrd x) x.g (accrdWarp x) s

/-- An ACCWR writes element `e` of its rows: the thread that holds it is Active, and no helper. -/
def Warp.accTakes (wp : Warp) (x : R3) (e : Nat) : Bool := bit (wp.activeReal x.g) (e % 64 / 2)

/-- Element `e` of the rows in an ACCWR's registers (R303). -/
def Warp.accWord (wp : Warp) (x : R3) (e : Nat) : BitVec 32 :=
  BitVec.ofNat 32 (subOf (wp.rdV (x.d + e / 64) (e % 64 / 2)) 32 (e % 2))

def accwrWarp (x : R3) (w : Nat) (s : State) : Res :=
  match s.accRow w x with
  | .error c => .trap { cause := c } s
  | .ok row =>
    let core := s.coreOf w
    let wp := s.warp w
    .ok (((List.range x.nr).foldl (fun (t : State) j => t.writeAcc core (row + j) (fun n =>
      if wp.accTakes x (128 * j + n) && (wp.part.get none (128 * j + n)).isNone then wp.accWord x (128 * j + n)
      else t.accAt core (row + j) n)) s).setWarp w wp.endMove)

def execAccwr (x : R3) (s : State) : Answer := onAcc (.accwr x) x.g (accwrWarp x) s

/-- The rounding mode of ACCRDC (R304). -/
def accRm (n : Nat) : Rm :=
  match n with
  | 1 => .rtz
  | 2 => .rdn
  | 3 => .rup
  | 4 => .rna
  | _ => .rne

/-- One element of ACCRDC. -/
def accrdcElem (x : R3) (acc : BitVec 32) (sigma : Nat) : Nat × Flags :=
  let dst := bits x.c 5 5
  let v := if x.fmt = 4 then ofInt acc.toInt else f32.decode acc.toNat
  let sv := f32.decode sigma
  let y := mulVal v sv
  let rm := accRm (bits x.c 2 3)
  let r := if cvtIsInt dst then cvtToInt (cvtInt dst) y.1 rm 0 else cvtToFloat dst y.1 rm 0
  (r.1, r.2.or { invalid := y.2 || v.isSig || sv.isSig })

def accrdcWarp (x : R3) (w : Nat) (s : State) : Res :=
  match s.accRow w x with
  | .error c => .trap { cause := c } s
  | .ok row =>
    let wp := s.warp w
    let act := wp.active x.g
    let wd := cvtWidth (bits x.c 5 5)
    let nd := 64 / wd
    let sigma := (wp.rdS x.b).toNat % 2 ^ 32
    -- the elements of lane l in register i of the destination
    let elems := fun (i l : Nat) => ((List.range nd).map (fun q => (i * 32 * nd + l * nd + q, q))).filter
      (fun e => e.1 < 128 * x.nr)
    let val := fun (e : Nat) => accrdcElem x (s.accSeen w row e) sigma
    let outs : List LaneOut := lanes32.map (fun l =>
      { val := 0
        fl := if bit act l then (List.range x.accrdcRegs).foldl (fun (f : Flags) i =>
          (elems i l).foldl (fun (f : Flags) e => f.or (val e.1).2) f) {} else {}
        rng := (wp.lane l).rng })
    match (if s.defers w then none else vecFault wp outs) with
    | some (c, l) => .trap { cause := c, lane := l } (s.setWarp w (wp.takeFlags outs false))
    | none =>
      let w1 := (wp.takeFlags outs false).endMove
      .ok (s.setWarp w ((List.range x.accrdcRegs).foldl (fun (a : Warp) i =>
        a.wrVs (x.d + i) act (fun l =>
          BitVec.ofNat 64 ((elems i l).foldl (fun v e => putBits v (wd * e.2) wd (val e.1).1) (a.rdV (x.d + i) l).toNat))) w1))

def execAccrdc (x : R3) (s : State) : Answer := onAcc (.accrdc x) x.g (accrdcWarp x) s

/-- Some elements of a move that could issue are read, or written, before the rest (R305). -/
def State.partMove (s : State) (w els : Nat) (i : Instr) (x : R3) : State :=
  match s.accRow w x, issueFault i ((s.warp w).beginIssue i) with
  | .ok row, none =>
    let core := s.coreOf w
    let new := (List.range (128 * x.nr)).filter (fun e => bit els e && ((s.warp w).part.get none e).isNone)
    let mark := fun (a : State) (e : Nat) (v : BitVec 32) =>
      a.setWarp w { a.warp w with part := (a.warp w).part.set none e (some v) }
    match i with
    | .accwr _ => (new.filter ((s.warp w).accTakes x)).foldl (fun (a : State) e =>
        mark { a with acc := a.acc.set 0 (core * 2 ^ 20 + (row + e / 128) * 128 + e % 128) ((s.warp w).accWord x e) } e 0) s
    | _ => new.foldl (fun (a : State) e => mark a e (s.accAt core (row + e / 128) (e % 128))) s
  | _, _ => s

end Sys2Proof.Machine
end

