-- ==== Sys2Proof/Machine/Memory.lean ====
section
/-!
DEFINITION. The memory-access instructions of class 0x6 (R147–R156) but SMSG.
-/
namespace Sys2Proof.Machine

/-- Bytes of an element: sz[1:0]. -/
def Mem.bytes (x : Mem) : Nat := 2 ^ (x.sz % 4)

def readNeed : Need := { read := true, mmio := true }
def writeNeed : Need := { write := true, mmio := true }

def execLd (x : Mem) (s : State) : Answer :=
  onWarp (.ld x) (laneAccess (.ld x) x readNeed true (Mem.bytes x) (fun _ _ e => e)) s

def execSt (x : Mem) (s : State) : Answer :=
  onWarp (.st x) (laneAccess (.st x) x writeNeed false (Mem.bytes x)
    (fun wp l e => { e with data := (wp.rdV x.d l).toNat % 2 ^ (8 * e.size) })) s

/-- LDU and STU: one element, performed once when some thread of the group is Active. The lowest of these threads that is
no helper stands for it in a trap (R130). -/
def uniformAccess (i : Instr) (x : Mem) (need : Need) (w : Nat) (s : State) : Res :=
  let wp := s.warp w
  let n := Mem.bytes x
  wholeAccess i x need n [{ lane := (maskList (wp.activeReal x.g) 32).headD 0, addr := wp.memAddr x false 0, size := n
                            data := (wp.rdS x.d).toNat % 2 ^ (8 * n) }] 1 [] w s

def execLdu (x : Mem) (s : State) : Answer :=
  onWarp (.ldu x) (uniform x.g (uniformAccess (.ldu x) x readNeed)) s

def execStu (x : Mem) (s : State) : Answer :=
  onWarp (.stu x) (uniformReal x.g (uniformAccess (.stu x) x writeNeed)) s

/-- The pieces of a block transfer (R152): 8 bytes for each register and lane that takes part. A base that is misaligned
is the fault of the lowest lane that takes part and is no helper's (log entry 97); where there is none, helpers read
0 (R65). -/
def blockAccess (i : Instr) (x : Mem) (need : Need) (helpers : Bool) (w : Nat) (s : State) : Res :=
  let wp := s.warp w
  let base := wp.memAddr x false 0
  let act := if helpers then wp.active x.g else wp.activeReal x.g
  let en := wp.enabledLanes x.vx.m act
  let elems := ((maskList en 32).map (fun l => (List.range (2 ^ (x.sz % 4))).map (fun r =>
    ({ lane := l, addr := wrap64 ((base + 256 * r + 8 * l : Nat) : Int), size := 8
       data := (wp.rdV (x.d + r) l).toNat } : Elem)))).flatten
  if base % 256 != 0 then
    match (maskList en 32).find? (fun l => !wp.isHelper l) with
    | some l => .trap { cause := 0x062, lane := l, addr := base } s
    | none => .ok (s.issueOp w i x (wp.activeReal x.g) en elems [base])
  else wholeAccess i x need 8 elems en [base] w s

def execLdb (x : Mem) (s : State) : Answer :=
  onWarp (.ldb x) (uniform x.g (blockAccess (.ldb x) x { read := true } true)) s

def execStb (x : Mem) (s : State) : Answer :=
  onWarp (.stb x) (uniformReal x.g (blockAccess (.stb x) x { write := true } false)) s

/-! ## PF (R153, R154) -/

/-- A prefetched line (R154): `.l1` puts a clean copy into the issuing core's L1, `.l1` and `.l2` a line homed elsewhere
into the die's RDC, and any target another line into its home slice. A line that another core holds pinned is left. -/
def State.prefetch (s : State) (c : Ctx) (target va : Nat) : State :=
  if isWindow va then s
  else match s.checkElem c { read := true } va 1 1 with
  | (.ok (.home pa nc ms), s1) =>
    let line := pa / 128
    if !cacheable nc ms || s1.pinnedElsewhere c.core line then s1
    else
      let s2 := if target < 2 && rdcMay (c.core / 16) pa nc ms then s1.fillRdc (c.core / 16) pa
        else s1.atSlice pa (some c.asid) none
      if target = 0 && !(s2.l1Line c.core line).valid then s2.fillL1 c.core line else s2
  | (_, s1) => s1

def pfWarp (x : Mem) (w : Nat) (s : State) : Res :=
  let wp := s.warp w
  .ok ((maskList (wp.enabledLanes x.vx.m (wp.active x.g)) 32).foldl (fun (a : State) l =>
    a.prefetch (a.ctx w) (x.d % 4) (wp.memAddr x true l)) s)

def execPf (x : Mem) (s : State) : Answer := onWarp (.pf x) (pfWarp x) s

/-! ## ICINV (R155) -/

/-- ICINV is not translated and never faults; the warp issues nothing until it is performed. -/
def icinvWarp (x : Mem) (w : Nat) (s : State) : Res :=
  let wp := s.warp w
  let s1 := s.issueOp w (.icinv x) x (wp.activeReal x.g) 1 [{ addr := wp.memAddr x false 0 }] []
  if s1.nextOp = s.nextOp then .ok s1 else .ok (s1.setWarp w ((s1.warp w).blockOn [s.nextOp]))

def execIcinv (x : Mem) (s : State) : Answer := onWarp (.icinv x) (uniformReal x.g (icinvWarp x)) s

/-! ## STRQ (R156) -/

def strqWarp (x : R3) (w : Nat) (s : State) : Res :=
  let wp := s.warp w
  let st := wp.streams wp.usesHandlerStreams
  let n := x.c % 8
  .ok (s.setWarp w (wp.wrVs x.d (wp.active x.g) (fun l => BitVec.ofNat 64
    (st.outstanding l n % 2 ^ 10 * 2 ^ 32 + (st.doneOf l n).toNat * 2 ^ 16 + (st.issuedOf l n).toNat))))

def execStrq (x : R3) (s : State) : Answer := onWarp (.strq x) (strqWarp x) s

end Sys2Proof.Machine
end

