-- ==== Sys2Proof/Machine/Pair.lean ====
section
/-!
DEFINITION. P-words (R29–R32, R95, R120): two slots that read before either writes.
-/
namespace Sys2Proof.Machine

/-- Operations of one operand, which read a (R95, R120). -/
def pairUnary : PairOp → Bool
  | .abs | .clz | .popc | .brev | .mov | .fabs | .fneg => true
  | _ => false

/-- The vector instruction that a slot stands for (R29): `d := d op a`, or `d := op(a)`. -/
def slotAlu (x : Slot) : Alu :=
  { vx := if x.op.isFloat then { rm := if x.mod then .rtz else .rne } else { sat := x.mod }
    d := x.d, nowb := x.nowb, a := if pairUnary x.op then x.a else .reg x.d, b := .opnd x.a, g := x.g, fmt := x.fmt }

/-- The function of an integer operation. -/
def pairInt : PairOp → IntFn
  | .add => satFn exactAdd
  | .sub => satFn exactSub
  | .mul => satFn exactMul
  | .min => wrapFn exactMin
  | .max => wrapFn exactMax
  | .abs => satFn exactAbs
  | .and => wrapFn patAnd
  | .or => wrapFn patOr
  | .xor => wrapFn patXor
  | .andn => wrapFn patAndn
  | .shl => wrapFn exactShl
  | .shr => wrapFn patShr
  | .sar => wrapFn patSar
  | .rot => wrapFn patRot
  | .clz => wrapFn patClz
  | .popc => wrapFn patPopc
  | .brev => wrapFn patBrev
  | _ => wrapFn patMov

/-- One element of a slot. -/
def slotElem (x : Slot) (px py : Nat) (ff rg : BitVec 32) : ElemOut :=
  let f := fmtOf x.fmt
  let rm : Rm := if x.mod then .rtz else .rne
  let plain := fun (r : Nat × Flags) => ({ val := r.1, fl := r.2, rng := rg } : ElemOut)
  match x.op with
  | .fadd => floatElem f opAdd 2 px py 0 rm ff rg
  | .fsub => floatElem f opSub 2 px py 0 rm ff rg
  | .fmul => floatElem f opMul 2 px py 0 rm ff rg
  | .fscale => fscaleElem f px (sext (floatWidth x.fmt) py) rm ff rg
  | .fmin => plain (minMaxPat f false px py)
  | .fmax => plain (minMaxPat f true px py)
  | .fabs => plain (absPat f px py)
  | .fneg => plain (negPat f px py)
  | op => plain (pairInt op x.fmt px py 0 x.mod)

/-- The lanes of a slot, from the registers and latches before the P-word. -/
def slotOuts (wp : Warp) (x : Slot) : List LaneOut :=
  let y := slotAlu x
  let wd := if x.op.isFloat then floatWidth x.fmt else intWidth x.fmt
  vecRun wp y wd id (64 / wd) (fun l k ff rg =>
    slotElem x (subOf (wp.opndV y.a l) wd k) (subOf (wp.opndV x.a l) wd k) ff rg)

/-- R32: neither slot writes when either faults, and the frame names slot A when both do. -/
def pairBody (a b : Slot) (w : Nat) (s : State) : Res :=
  let wp := s.warp w
  let oa := slotOuts wp a
  let ob := slotOuts wp b
  let w1 := (wp.takeFlags oa false).takeFlags ob false
  let stop := fun o => if s.defers w then none else vecFault wp o
  match stop oa, stop ob with
  | some (c, l), _ => .trap { cause := c, lane := l, ps := 1 } (s.setWarp w w1)
  | none, some (c, l) => .trap { cause := c, lane := l, ps := 2 } (s.setWarp w w1)
  | none, none =>
    let w2 := if a.nowb then w1 else w1.writeOuts a.d oa
    let w3 := if b.nowb then w2 else w2.writeOuts b.d ob
    .ok (s.setWarp w { w3 with latches := wp.latches.pushPair (latchOfOuts oa) (latchOfOuts ob) })

def execPWord (a b : Slot) (s : State) : Answer := onWarp (.pWord a b) (pairBody a b) s

end Sys2Proof.Machine
end

