-- ==== Sys2Proof/Machine/Power.lean ====
section
/-!
DEFINITION. Power (R381–R408, R457, R458): the queries and items of class 0xD, pantries and larders, the ramp governor
with its emergencies, regions and samples.
-/
namespace Sys2Proof.Machine

/-! ## Die draws and emergencies (R385, R392) -/

/-- Tokens drawn from a die's larder as work happens; what finds the level at zero is owed. -/
def State.dieDraw (s : State) (die n : Nat) : State :=
  let x := s.larder die
  let take := Nat.min n x.level
  { s.setLarder die { x with
      level := x.level - take, debt := x.debt + (n - take), draws := x.draws + n
      drawn := x.drawn + BitVec.ofNat 64 n } with
    gov := { s.gov with demand := s.gov.demand + n } }

/-- Draws of memory sites, engines, slice cores, the task unit and the fabric since the last look: a free amount. -/
def State.someDraws (s : State) (die : Nat) : State := s.draw.dieDraw die (Config.freeValue s.free)

/-- An emergency is counted and reported (R392, R451 kind 4); the port that takes the entry is free. -/
def State.emergency (s : State) (die cond val : Nat) : State :=
  { s.draw with gov := { s.gov with emerg := Nat.min 255 (s.gov.emerg + 1) } }.post
    (Config.freeValue s.free % 2) 4 die 0xFFFF cond s.time val 0

/-- A die's share is withheld (R392, R457, R458). -/
def State.withheld (s : State) (die : Nat) : Bool := (s.larder die).hot || s.gov.dip || s.gov.flowStop

/-- A condition that withheld shares has ended: those of the dies named return at the slew. -/
def State.shareReturns (s : State) (dies : List Nat) : State :=
  dies.foldl (fun (a : State) d => if a.withheld d then a else a.setLarder d { a.larder d with share := some 0 }) s

/-! ## Regions (R394, R395, R404) -/

/-- A region that R394 switches: of a physical core or of an MCC. -/
def regionSwitched (r : Nat) : Bool := r < 68 || (84 ≤ r && r < 88)

def State.regionOf (s : State) (die r : Nat) : Region := s.regions.get {} (die * 96 + r)
def State.setRegion (s : State) (die r : Nat) (x : Region) : State :=
  { s with regions := s.regions.set {} (die * 96 + r) x }

/-- A region is on: the others are on while the die is powered. -/
def State.regionOn (s : State) (die r : Nat) : Bool :=
  if regionSwitched r then (s.regionOf die r).on else s.powered

/-- A logical core whose regions are on, ten microseconds after they were switched on (R395), and that no scan test holds
(R393). -/
def State.coreReady (s : State) (core : Nat) : Bool :=
  let die := core / 16
  let p := s.physOf core % 17
  [0, 1, 2, 3].all (fun i => (s.regionOf die (4 * p + i)).on && (s.regionOf die (4 * p + i)).since + 10000 ≤ s.time) &&
  (s.pantry core).abortUntil ≤ s.time

/-- A matrix control core whose bay's region is on, its soft start over (R395). -/
def State.bayReady (s : State) (k : Nat) : Bool :=
  (s.regionOf (k / 4) (84 + k % 4)).on && (s.regionOf (k / 4) (84 + k % 4)).since + 10000 ≤ s.time

/-- A core that holds a resident block. -/
def State.holdsBlock (s : State) (core : Nat) : Bool :=
  s.blocks.cells.any (fun c => c.2.st == .placed && c.2.core == core)

/-- Work stands on a region (R394): a block on a core that the map gives this physical core, or a gang on a bay. -/
def State.regionWanted (s : State) (die r : Nat) : Bool :=
  if r < 68 then (List.range 16).any (fun c =>
    s.mapped (die * 16 + c) && s.physOf (die * 16 + c) % 17 == r / 4 && s.holdsBlock (die * 16 + c))
  else (s.mcc (die * 4 + (r - 84))).gang.isSome

/-- The logical cores of a die whose physical core has a test. -/
def State.coresWith (s : State) (die : Nat) (f : Nat → Bool) : List Nat :=
  ((List.range 16).map (die * 16 + ·)).filter (fun c => s.mapped c && f (s.physOf c % 17))

/-- A grant: the region switches on, and a core's pantry starts at zero (R395). -/
def State.switchOn (s : State) (die r : Nat) : State :=
  let s1 := s.setRegion die r { s.regionOf die r with on := true, since := s.time, grantAt := none }
  (s1.coresWith die (fun p => r < 68 && r / 4 == p)).foldl (fun (a : State) c => a.setPantry c { a.pantry c with level := 0 }) s1

/-- A feed group that is loaded: the grant comes after a soft start of 10 µs, in which the cores that share the group have
their quota halved (R395). -/
def State.softStart (s : State) (die r : Nat) : State :=
  let s1 := s.setRegion die r { s.regionOf die r with grantAt := some (s.time + 10000) }
  (s1.coresWith die (fun p => 4 * p / 8 == r / 8)).foldl
    (fun (a : State) c => a.setPantry c { a.pantry c with halfUntil := s.time + 10000 }) s1

/-- Another request of the feed group is served before a region's: one that waits for its grant, or a lower region's. -/
def State.feedBusy (s : State) (die r : Nat) : Bool :=
  (List.range 8).any (fun i =>
    let q := r / 8 * 8 + i
    q != r && regionSwitched q && !(s.regionOf die q).on &&
    ((s.regionOf die q).grantAt.isSome || (q < r && s.regionWanted die q)))

/-- A region that work stands on asks for its grant, or has it (R395). Whether its group draws 48 A is a free choice. -/
def execRegionPowerOn (region : Nat) (s : State) : Answer :=
  let die := region / 96
  let r := region % 96
  let x := s.regionOf die r
  .next (if s.powered && regionSwitched r && die < 24 && !x.on && s.regionWanted die r then
    match x.grantAt with
    | some t => if t ≤ s.time then s.switchOn die r else s
    | none => if s.feedBusy die r then s else if s.choice then s.draw.softStart die r else s.draw.switchOn die r
  else s)

/-- A core's or an MCC's region switches off after 50 µs without work (R394), unless its core is under a scan test. -/
def execRegionPowerOff (region : Nat) (s : State) : Answer :=
  let die := region / 96
  let r := region % 96
  let last := if r < 68 then s.lastBusy.get 0 (die * 17 + r / 4) else s.lastBusy.get 0 (24 * 17 + die * 4 + (r - 84))
  let tested := r < 68 && bit (s.larder die).tested (r / 4)
  .next (if regionSwitched r && (s.regionOf die r).on && !s.regionWanted die r && !tested && last + 50000 ≤ s.time then
    s.setRegion die r { s.regionOf die r with on := false } else s)

/-- The setpoint of an IVR in half millivolts (R404). -/
def ivrSet : Nat := 0x0546

/-- An IVR samples its output (R404). -/
def execIvrSample (region halfMv : Nat) (s : State) : Answer :=
  let die := region / 96
  let r := region % 96
  let x := s.regionOf die r
  let v := Nat.min halfMv 0xFFFE
  .next (if s.regionOn die r then
    s.setRegion die r { x with
      droops := if v + 50 < ivrSet then Nat.min 0xFFFF (x.droops + 1) else x.droops
      vtime := if v < x.vmin then s.time else x.vtime
      vmin := Nat.min x.vmin v }
  else s)

/-! ## TOKQ and TOKPR (R398, R399) -/

/-- A core's quota as it stands (R386, R395). -/
def State.quotaOf (s : State) (core : Nat) : Nat :=
  let x := s.pantry core
  if s.time < x.halfUntil then x.quota / 2 else x.quota

def State.tokenWord (s : State) (core sel : Nat) : Word :=
  let p := s.pantry core
  let l := s.larder (core / 16)
  match sel with
  | 0 => BitVec.ofNat 64 p.level
  | 1 => BitVec.ofNat 64 l.level
  | 2 => BitVec.ofNat 64 (s.quotaOf core)
  | 3 => p.waited
  | 4 => p.charged
  | _ => l.drawn

def tokqWarp (x : R3) (w : Nat) (s : State) : Res :=
  let core := (s.block (s.warp w).block).core
  let s1 := if x.c = 1 ∨ x.c = 5 then s.someDraws (core / 16) else s
  .ok (s1.setWarp w ((s1.warp w).wrS x.d (s1.tokenWord core x.c)))

def execTokq (x : R3) (s : State) : Answer := onWarp (.tokq x) (uniform x.g (tokqWarp x)) s

/-- The execution price of a matrix instruction, if its formats have one (R311, R313, R399). -/
def execPrice (i : Instr) (afmt wfmt : Nat) : Option Nat :=
  let ok := fun (f : Nat) => 1 ≤ f && f ≤ 20
  match i with
  | .mlds x => if ok wfmt then some (mldsPrice wfmt (bit x.c 3)) else none
  | .mswap _ => some 64
  | .mclr _ => some 4
  | .mstrm _ => if ok afmt && ok wfmt then some (rowPrice afmt wfmt) else none
  | _ => some 0

/-- TOKPR's result (R399). -/
def priceWord (w fmts : Nat) : Word :=
  let cls := bits w 59 5
  let sub := bits w 52 7
  let sd : Side := if cls = 0xA ∧ sub ≤ 8 then .mcc else .vector
  if bits w 62 2 = 3 then BitVec.allOnes 64
  else match decodeWord sd none none w with
  | .error _ => BitVec.allOnes 64
  | .ok i => match execPrice i (bits fmts 0 5) (bits fmts 8 5) with
    | none => BitVec.allOnes 64
    | some e => BitVec.ofNat 64 (e * 2 ^ 32 + i.price)

def execTokpr (x : R3) (s : State) : Answer :=
  onWarp (.tokpr x) (uniform x.g (fun w s => .ok (s.setWarp w ((s.warp w).wrS x.d
    (priceWord ((s.warp w).rdS x.a).toNat ((s.warp w).rdS x.b).toNat))))) s

/-! ## INTENT (R400, R401) -/

/-- The intent in a place of a die's table still stands: its warp's block lives, and its job is not cancelled. -/
def State.intentLive (s : State) (x : Intent) : Bool :=
  let wp := s.warp x.warp
  let b := s.block wp.block
  wp.live && b.standing && !(s.job b.job).cancelled && (match x.stop with
    | some t => s.time < t
    | none => true)

/-- The first interval that begins at or after a time. -/
def intervalFrom (t : Nat) : Nat := ceilDiv t 10000 * 10000

/-- INTENT's answer, and the table: key die × 64 + place. -/
def State.postIntent (s : State) (w die : Nat) (delta : Int) (eta dur : Nat) : Nat × State :=
  let places := (List.range 64).map (die * 64 + ·)
  let held := fun (k : Nat) => s.intents.cells.any (fun c => c.1 == k && s.intentLive c.2)
  let mine := s.intents.cells.find? (fun c => c.1 / 64 == die && c.2.warp == w && s.intentLive c.2)
  let s0 := { s with intents := s.intents.keep (fun k x => !(k / 64 == die && x.warp == w)) }
  if delta = 0 then (0, s0)
  else match (match mine with
    | some c => some c.1
    | none => places.find? (fun k => !held k)) with
  | none => (1, s)
  | some k =>
    let start := intervalFrom (s.time + 1000 * eta)
    let x : Intent :=
      { warp := w, delta := delta, start := start
        stop := if dur = 0 then none else some (intervalFrom (start + 1000 * dur)) }
    (0, { s0 with intents := ⟨Table.insert (Table.erase s0.intents.cells k) k x⟩ })

def intentWarp (x : R3) (w : Nat) (s : State) : Res :=
  let wp := s.warp w
  let a := (wp.rdS x.a).toNat
  let b := (wp.rdS x.b).toNat
  let delta := sext 32 a
  if a / 2 ^ 32 != 0 || delta < -12000 || 12000 < delta || 1000000 < b % 2 ^ 32 || 60000000 < b / 2 ^ 32 then
    .trap { cause := 0x022 } s
  else
    let (code, s1) := s.postIntent w ((s.block wp.block).core / 16) delta (b % 2 ^ 32) (b / 2 ^ 32)
    .ok (s1.setWarp w ((s1.warp w).wrS x.d (BitVec.ofNat 64 code)))

def execIntent (x : R3) (s : State) : Answer := onWarp (.intent x) (uniformReal x.g (intentWarp x)) s

/-! ## BALLAST (R402, R403) -/

/-- BALLAST's checks: an illegal operand before a misaligned address. -/
def ballastFault (stage : Bool) (va dst n ctl : Nat) : Option Trap :=
  let len := n % 2 ^ 40
  let nw := bit ctl 39
  if bits va 57 7 != 0 || (!stage && dst != 0) || bits ctl 40 24 != 0 || bits ctl 25 3 != 0 || len = 0 || len % 128 != 0 then
    some { cause := 0x022 }
  else if va % 128 != 0 then some { cause := 0x062, addr := va }
  else if dst % 128 != 0 then some { cause := 0x062, addr := dst }
  else if !nw && bits ctl 0 25 % 16 != 0 then some { cause := 0x062, addr := bits ctl 0 25 }
  else none

/-- What a BALLAST captured at issue. -/
def ballastWarp (i : Instr) (stage : Bool) (x : R3) (w : Nat) (s : State) : Res :=
  let wp := s.warp w
  let r := fun (k : Nat) => (wp.rdS (x.a + k)).toNat
  match ballastFault stage (r 0) (r 1) (r 2) (r 3) with
  | some t => .trap t s
  | none =>
    let lane := ((maskList (wp.activeReal x.g) 32).head?).getD 0
    .ok (s.issueCopy w i { g := x.g, strm := bits (r 3) 36 3, after := bits (r 3) 28 8, scope := .dev }
      [r 0, r 1, r 2 % 2 ^ 40, r 2 / 2 ^ 40, b2n (bit (r 3) 39), bits (r 3) 0 25, lane] [] [])

def execBallastPf (x : R3) (s : State) : Answer :=
  onWarp (.ballastPf x) (uniformReal x.g (ballastWarp (.ballastPf x) false x)) s
def execBallastStage (x : R3) (s : State) : Answer :=
  onWarp (.ballastStage x) (uniformReal x.g (ballastWarp (.ballastStage x) true x)) s

def ballastCancelWarp (x : R3) (w : Nat) (s : State) : Res :=
  let wp := s.warp w
  let a := (wp.rdS x.a).toNat
  let ctl := (wp.rdS (x.a + 3)).toNat
  if a / 2 ^ 16 != 0 then .trap { cause := 0x022 } s
  else .ok (s.issueCopy w (.ballastCancel x)
    { g := x.g, strm := bits ctl 36 3, after := bits ctl 28 8, scope := .dev } [a] [] [])

def execBallastCancel (x : R3) (s : State) : Answer :=
  onWarp (.ballastCancel x) (uniformReal x.g (ballastCancelWarp x)) s

/-- An item that has not been dropped (R403): its job lives and has not passed its cancel point on the die. -/
def State.itemLive (s : State) (k : Nat) : Bool :=
  let x := s.ballast.get {} k
  x.live && (s.job x.job).live && !s.pastCancel x.job (k / 16)

def State.dropItem (s : State) (k : Nat) : State := { s with ballast := s.ballast.set {} k {} }

/-- A BALLAST is accepted or refused: its answer, and the state. It takes the lowest free entry of the die (log entry
108). -/
def State.ballastAnswer (s : State) (o : Op) : Nat × State :=
  let die := s.opCore o / 16
  let g := fun (i : Nat) => o.args.getD i 0
  if s.pastCancel o.job die then (0x02, s)
  else match o.i with
  | .ballastCancel _ =>
    if s.itemLive (g 0) then (g 0 * 2 ^ 8, s.dropItem (g 0)) else (0x04, s)
  | i =>
    let free := ((List.range 16).map (die * 16 + ·)).filter (fun k => !s.itemLive k)
    match free.head? with
    | none => (0x01, s)
    | some k =>
      let stage := match i with
        | .ballastStage _ => true
        | _ => false
      let x : BallastItem :=
        { live := true, stage := stage, job := o.job, block := o.block, core := s.opCore o
          warpIdx := (s.warp o.warp).index, asid := o.asid, va := g 0, dst := g 1, len := g 2, registered := s.time
          deadline := if g 3 = 0 then none else some (s.time + 1000 * g 3)
          aw := if g 4 = 1 then none else some (g 5), pc := o.pc, strm := o.strm, lane := g 6 }
      (k * 2 ^ 8, { s with ballast := s.ballast.set {} k x })

/-- A BALLAST performs once its edges are met, a killed warp's too (R415). -/
def State.ballastPerformed (s : State) (k : Nat) : State :=
  let o := s.op k
  let d := match o.i with
    | .ballastPf x | .ballastStage x | .ballastCancel x => x.d
    | _ => 0
  if o.st != .flying || !s.copyEdges o then s
  else if o.orphan then (s.ballastAnswer o).2.setOp k {}
  else
    let (v, s1) := s.ballastAnswer o
    (s1.setWarp o.warp ((s1.warp o.warp).wrS d (BitVec.ofNat 64 v))).finishOp k

/-- Elements of an operation perform, pieces of a copy move, a BALLAST is accepted or refused. -/
def execMemoryOpPerformed (op lanes : Nat) (ext : List Nat) (s : State) : Answer :=
  .next (match (s.op op).i with
    | .ballastPf _ | .ballastStage _ | .ballastCancel _ => s.ballastPerformed op
    | _ => s.opPerformed op lanes ext)

/-- What came of a line of an item. -/
inductive LineRes where
  | wait
  | bad (cause addr : Nat) (s : State)
  | done (s : State)

/-- One line of an item (R403): `.pf` as PF `.l2`, `.stage` as CPYC. -/
def State.itemLine (s : State) (x : BallastItem) (j : Nat) : LineRes :=
  let c : Ctx := { core := x.core, block := x.block, asid := x.asid }
  let va := x.va + 128 * j
  if !x.stage then .done (s.prefetch c 1 va)
  else match s.engineCheck c { read := true } va 128 with
  | (.error f, s1) => .bad f va s1
  | (.ok p, s1) => match s1.engineCheck c { write := true } (x.dst + 128 * j) 128 with
    | (.error f, s2) => .bad f (x.dst + 128 * j) s2
    | (.ok q, s2) =>
      if !pairs p q then .bad 0x077 va s2
      else match s2.engineRead (x.core / 16) p 128 [] with
      | (none, _) => .wait
      | (some bs, s3) => match s3.engineWrite q bs with
        | none => .wait
        | some s4 => .done s4

/-- Ballast tokens of the module's dies, spent if there are `n` (R393). -/
def State.spendBallast (s : State) (n : Nat) : Option State :=
  let r := (List.range 24).foldl (fun (a : State × Nat) d =>
    let x := a.1.larder d
    let t := Nat.min a.2 x.ballast
    (a.1.setLarder d { x with ballast := x.ballast - t }, a.2 - t)) (s, n)
  if r.2 = 0 then some r.1 else none

/-- The price of a line (R403). -/
def BallastItem.lineCost (x : BallastItem) : Nat := if x.stage then 2560 else 1280

/-- The word that an item counts into: its block, if it still names one, and offset. -/
def State.itemWord (s : State) (x : BallastItem) : Option (Nat × Nat) :=
  match x.aw with
  | none => none
  | some aw =>
    let (m, c) := s.saTarget x.block aw
    if c != 0 || (s.block m).alloc < aw % 2 ^ 20 + 16 then none else some (m, aw % 2 ^ 20)

/-- An item ends: it leaves its table, and its word is counted into or takes err (R208, R253). -/
def State.endItem (s : State) (k : Nat) (f : State → Nat → Nat → State) : State :=
  match s.itemWord (s.ballast.get {} k) with
  | some (b, off) => f (s.dropItem k) b off
  | none => s.dropItem k

/-- An item is abandoned: its fault is logged, and no warp halts (R403). -/
def State.failItem (s : State) (k cause addr : Nat) : State :=
  let x := s.ballast.get {} k
  let entry : LogEntry :=
    { word0 := BitVec.ofNat 64 (2 ^ 63 + cause * 2 ^ 53 + 0x683 * 2 ^ 42 + x.warpIdx * 2 ^ 37 + x.lane * 2 ^ 32 +
        x.strm * 2 ^ 29)
      addr := addr, record := x.va, pc := x.pc }
  (s.endItem k (fun a b off => a.spoilWord b off)).logCopy x.core entry

/-- The word that an item counts into can take the increment now. -/
def State.itemWordFree (s : State) (x : BallastItem) : Bool := !s.wordHeld (s.itemWord x)

/-- The item's deadline has passed. -/
def BallastItem.isLate (x : BallastItem) (now : Nat) : Bool := x.late || (match x.deadline with
  | some t => t ≤ now
  | none => false)

/-- A line more keeps an item within 12.5 lines per ns since it was registered (R403). -/
def BallastItem.inPace (x : BallastItem) (now : Nat) : Bool := 2 * (x.done + 1) ≤ 25 * (now - x.registered)

/-- No item that goes before it, by registration time and then die number, has a line that it could move now (R403). -/
def State.itemTurn (s : State) (k : Nat) : Bool :=
  let x := s.ballast.get {} k
  s.ballast.cells.all (fun c =>
    let y := c.2
    c.1 == k || !s.itemLive c.1 || y.isLate s.time || y.len ≤ 128 * y.done || !y.inPace s.time ||
    (x.registered < y.registered || (x.registered == y.registered && k / 16 ≤ c.1 / 16)))

/-- Lines of an item run, each on ballast, or as a die draw past the deadline; `fault` is a data error at the next
line's source. -/
def State.runItem (fault : Option Nat) (k : Nat) : Nat → State → State
  | 0, s => s
  | fuel + 1, s =>
    let x := s.ballast.get {} k
    if !s.itemLive k then s
    else if x.len ≤ 128 * x.done then
      if s.itemWordFree x then s.endItem k (fun a b off => a.arriveAt b off x.len) else s
    else if !x.inPace s.time then s
    else
      let paid := if x.isLate s.time then some (s.dieDraw (k / 16) x.lineCost)
        else if s.itemTurn k then s.spendBallast x.lineCost else none
      match paid with
      | none => s
      | some s1 =>
        match s1.itemLine x x.done with
        | .wait => s
        | .bad c a s2 => s2.failItem k c a
        | .done s2 =>
          if fault = some 0x07A ∧ x.stage ∧ fuel = 1 then s1.failItem k 0x07A (x.va + 128 * x.done)
          else State.runItem fault k fuel { s2 with ballast := s2.ballast.set {} k { x with done := x.done + 1 } }

/-- An item's lines run, and the item completes or is abandoned. -/
def execBallastItemComplete (item lines : Nat) (fault : Option Nat) (s : State) : Answer :=
  .next (s.runItem fault item (lines + 1))

/-- An item's deadline passes (R403). -/
def execBallastDeadline (item : Nat) (s : State) : Answer :=
  let x := s.ballast.get {} item
  .next (match x.deadline with
    | some t => if s.itemLive item && t ≤ s.time then
        { s with ballast := s.ballast.set {} item { x with late := true } } else s
    | none => s)

/-! ## VMINQ and CAPQ (R404, R405) -/

def vminqWarp (x : R3) (w : Nat) (s : State) : Res :=
  let a := ((s.warp w).rdS x.a).toNat
  let r := a % 2 ^ 8
  let die := bits a 8 5
  if a / 2 ^ 13 != 0 || 95 < r || 23 < die then .trap { cause := 0x022 } s
  else
    let y := s.regionOf die r
    let vset := if s.regionOn die r then ivrSet else 0
    let w1 := (s.warp w).wrS x.d (BitVec.ofNat 64 (y.droops * 2 ^ 32 + vset * 2 ^ 16 + y.vmin))
    let w2 := w1.wrS (x.d + 1) (BitVec.ofNat 64 y.vtime)
    .ok ((s.setWarp w w2).setRegion die r { y with droops := 0, vmin := 0xFFFF, vtime := 0 })

def execVminq (x : R3) (s : State) : Answer := onWarp (.vminq x) (uniform x.g (vminqWarp x)) s

def State.bank (s : State) (die : Nat) : CapBank := s.capBanks.get {} die

def capqWarp (x : R3) (w : Nat) (s : State) : Res :=
  let die := ((s.warp w).rdS x.a).toNat
  if 24 ≤ die then .trap { cause := 0x022 } s
  else
    let y := s.bank die
    let s1 := s.setWarp w ((s.warp w).wrS x.d (BitVec.ofNat 64 (y.qmin * 2 ^ 48 + y.vbank * 2 ^ 16 + y.charge)))
    .ok (if bit x.c 0 then { s1 with capBanks := s1.capBanks.set {} die { y with qmin := y.charge } } else s1)

def execCapq (x : R3) (s : State) : Answer := onWarp (.capq x) (uniform x.g (capqWarp x)) s

/-- A bank's charge and voltage are measured. -/
def State.bankSample (s : State) (die charge vbank : Nat) : State :=
  let y := s.bank die
  let q := charge % 2 ^ 16
  { s with capBanks := s.capBanks.set {} die
             { qmin := Nat.min y.qmin q, vbank := vbank % 2 ^ 16, charge := q } }

/-- A bank falls below 1.70 V (R392). -/
def execCapBankLow (die charge vbank : Nat) (s : State) : Answer :=
  .next (if die < 24 && vbank < 3400 then
    let s1 := s.bankSample die charge vbank
    if (s.larder die).capLow then s1
    else (s1.setLarder die { s1.larder die with capLow := true }).emergency die 1 vbank
  else s)

/-- A bank is measured at 1.70 V or above; back at 1.75 V, its die's grants go on (R392). -/
def execCapacitorBankRecovery (die charge vbank : Nat) (s : State) : Answer :=
  .next (if die < 24 && 3400 ≤ vbank then
    let s1 := s.bankSample die charge vbank
    if 3500 ≤ vbank then s1.setLarder die { s1.larder die with capLow := false } else s1
  else s)

/-! ## RAMPQ (R406) -/

/-- RAMPQ's word: interval k − 1 as R390 left it, with the emergencies and lost aggregates since boot. -/
def Governor.word (g : Governor) (sel : Nat) : Nat :=
  let r := g.prev
  match sel with
  | 0 => r.slew % 2 ^ 16 * 2 ^ 48 + r.ballast % 2 ^ 16 * 2 ^ 32 + r.target % 2 ^ 16 * 2 ^ 16 + r.rate % 2 ^ 16
  | 1 => g.emerg % 2 ^ 8 * 2 ^ 56 + r.state % 2 ^ 8 * 2 ^ 48 + r.interval % 2 ^ 48
  | _ => r.members % 2 ^ 9 * 2 ^ 55 + r.theta % 2 ^ 9 * 2 ^ 46 + g.lost % 2 ^ 8 * 2 ^ 38 + r.need % 2 ^ 16 * 2 ^ 16 +
      r.demand % 2 ^ 16

def execRampq (x : R3) (s : State) : Answer :=
  onWarp (.rampq x) (uniform x.g (fun w s =>
    .ok (s.setWarp w ((s.warp w).wrS x.d (BitVec.ofNat 64 (s.gov.word x.c)))))) s

/-! ## Ticks and refills (R382–R386) -/

/-- Waits of a core in the order in which they are served after a tick: issue priority 0, then the longest. -/
def State.tickOrder (s : State) (core : Nat) : List TokenWait :=
  let first := ((s.waitsOn core).filter (·.2)).map (·.1)
  let rest := ((s.waitsOn core).filter (fun t => !t.2)).map (·.1)
  first ++ rest.foldl (fun a t => a.filter (fun x => x.since ≤ t.since) ++ t :: a.filter (fun x => t.since < x.since)) []

/-- Prices of the waits that a level does not cover (R383, R388). -/
def unserved : Nat → Nat → List TokenWait → Nat
  | _, _, [] => 0
  | level, held, t :: r =>
    if t.price + held ≤ level then unserved (level - t.price) held r else t.price + unserved level (held + t.price) r

/-- A tick passes every wait of a core, which may then end (R383, R384). -/
def State.reserve (s : State) (core : Nat) : State :=
  let mark := fun (t : Option TokenWait) => t.map (fun x => { x with reserved := true, due := true })
  let s1 := (s.warps.cells.filter (fun c => c.2.tokenWait.isSome && (s.block c.2.block).core == core)).foldl
    (fun (a : State) c => a.setWarp c.1 { c.2 with tokenWait := mark c.2.tokenWait }) s
  let p := s1.pantry core
  s1.setPantry core { p with arrayWait := mark p.arrayWait, mccWait := mark p.mccWait }

/-- One core's grant at a tick (R386), and what it adds to the demand (R388). -/
def State.grant (s : State) (core : Nat) : State :=
  let die := core / 16
  let l := s.larder die
  let p := s.pantry core
  let f := s.quotaOf core
  let able := s.holdsBlock core && s.coreReady core && !l.hot && !l.capLow
  let n := if able then Nat.min (262144 - p.level) (Nat.min f (l.level + l.setAside)) else 0
  let aside := Nat.min n l.setAside
  let s1 := (s.setLarder die { l with setAside := l.setAside - aside, level := l.level - (n - aside) }).setPantry core
    { p with level := p.level + n }
  let waits := s1.tickOrder core
  let need := if waits.isEmpty then n else f + unserved (p.level + n) 0 waits
  { s1.reserve core with gov := { s1.gov with demand := s1.gov.demand + need } }

/-- A refill tick of a die, every 32 cycles. -/
def State.tick (s : State) (die : Nat) : State :=
  let l := s.larder die
  if 24 ≤ die || !s.powered || s.cycles < 32 * (l.ticks + 1) then s
  else
    let s1 := (s.setLarder die { l with ticks := l.ticks + 1 }).someDraws die
    (List.range 16).foldl (fun (a : State) c => if a.mapped (die * 16 + c) then a.grant (die * 16 + c) else a) s1

def execPantryRefill (die : Nat) (s : State) : Answer := .next (s.tick die)

/-- Tokens of a refill (R385, R392): the die's share, rising again after it was withheld. -/
def State.refillTokens (s : State) (die : Nat) : Nat :=
  if s.withheld die then 0
  else match (s.larder die).share with
  | some w => Nat.min (w * 64000) (s.gov.rate * 64000 / 24)
  | none => s.gov.rate * 64000 / 24

/-- Capacity of a larder. -/
def larderMax : Nat := 67108864

/-- Tokens of a watt in 256 ns. -/
def wattTokens : Nat := 64000

/-- Physical cores of a die that class 4 can test: on, working, and without a block (R393, R433). -/
def State.testable (s : State) (die : Nat) : List Nat :=
  (List.range 17).filter (fun p => s.phys.get 0 (die * 17 + p) != 3 && (s.regionOf die (4 * p)).on && !s.regionWanted die (4 * p))

/-- What items have left of a die's overflow goes to patrol scrub, L2 scrub, scan tests and the ballast load, each up to its
rate (R393). -/
def State.spendClasses (s : State) (die : Nat) : State :=
  let l := s.larder die
  let c2 := Nat.min l.ballast (8 * wattTokens)
  let c3 := Nat.min (l.ballast - c2) (2 * wattTokens)
  let left := l.ballast - c2 - c3
  let cores := (s.testable die).take (left / (12 * wattTokens))
  let c4 := 12 * wattTokens * cores.length
  s.setLarder die { l with
    ballast := 0, classes := [c2, c3, c4, Nat.min (left - c4) (500 * wattTokens)], tested := maskOf cores }

/-- A refill of a die's larder, every 256 ns, with the quotas that follow (R385, R386). -/
def State.refill (s : State) (die : Nat) : State :=
  if 24 ≤ die || !s.powered || s.time < 256 * ((s.larder die).refills + 1) then s
  else
    let s1 := (s.someDraws die).spendClasses die
    let l := s1.larder die
    let n := ((List.range 16).filter (fun c => s1.holdsBlock (die * 16 + c))).length
    let lin := s1.refillTokens die
    let avail := lin - l.debt
    let aside := Nat.min avail (15565 * n)
    let level := l.level + l.setAside + (avail - aside)
    let excess := level + aside - larderMax
    let quota := Nat.max 1024 ((lin - l.draws) * 10 / (152 * Nat.max n 1))
    let s2 := s1.setLarder die { l with
      level := level - excess, setAside := aside, debt := l.debt - lin, draws := 0, refills := l.refills + 1
      ballast := excess, spent := l.spent + excess }
    (List.range 16).foldl (fun (a : State) c =>
      a.setPantry (die * 16 + c) { a.pantry (die * 16 + c) with quota := quota }) s2

def execLarderRefill (die : Nat) (s : State) : Answer := .next (s.refill die)

/-! ## The governor (R387–R391, R408) -/

/-- θ of a die from its greatest Tj of the interval, in quarter degrees (R391). -/
def thetaOf (q : Nat) : Nat :=
  let x : Int := 16 * (q : Int) - 6272
  (Max.max (166 : Int) (Min.min 256 (256 - (-((-x) / 5))))).toNat

/-- The need that intents make at a time, with a slew step per interval (R388). -/
def State.needAt (s : State) (now step : Nat) : Nat :=
  (s.intents.cells.map (fun c =>
    let x := c.2
    let live := (s.warp x.warp).live && (s.block (s.warp x.warp).block).standing &&
      !(s.job (s.block (s.warp x.warp).block).job).cancelled
    let u := fun (t : Nat) => x.delta.natAbs - step * (t - now) / 10000
    if !live then 0
    else if 0 < x.delta ∧ now < x.start then u x.start
    else match x.stop with
    | some e => if x.delta < 0 ∧ x.start ≤ now ∧ now < e then u e else 0
    | none => 0)).foldl (· + ·) 0

/-- The local limit (R457, R458). -/
def Governor.localLimit (g : Governor) : Nat :=
  let v := if 96000 ≤ g.inputMin then 12000 else (g.inputMin - 88000) * 3 / 2
  if g.flow < 900 then Nat.min v (12000 * g.flow / 900) else v

/-- R390 on an aggregate: the governor with its new rate. -/
def Governor.rule (g : Governor) (a : Aggregate) : Governor :=
  let d := a.demand / a.members
  let n := a.need / a.members
  let step := a.slew / 100
  let cap := Nat.min (12000 * a.theta / 256) g.limit
  let want := Nat.max 2400 (d + n)
  let target := Nat.min cap want
  let r := if g.rate < target then Nat.min target (g.rate + step) else Nat.max target (g.rate - step)
  let rate := Nat.min r cap
  { g with
    rate := rate, due := false, aggregate := none
    cur := { slew := a.slew, ballast := 0, target := target, rate := rate
             state := if cap < want then 3 else if g.rate < rate then 1 else if rate < g.rate then 2 else 0
             interval := g.interval, members := a.members, theta := a.theta, need := n, demand := d } }

/-- Two microseconds into an interval the new rate takes effect (R389, R390), and shares that return rise by a step
(R392). -/
def State.updateRate (s : State) : State :=
  let g := s.gov
  if !s.powered || !g.due || s.time < 10000 * g.interval + 2000 then s
  else
    let g1 := match g.aggregate with
      | some a => g.rule a
      | none => { g with due := false, lost := Nat.min 255 (g.lost + 1), cur := { g.cur with interval := g.interval } }
    (List.range 24).foldl (fun (a : State) d =>
      let x := a.larder d
      match x.share with
      | some w =>
        let w1 := w + g1.cur.slew / 100
        a.setLarder d { x with share := if a.withheld d then some w else if g1.rate ≤ 24 * w1 then none else some w1 }
      | none => a) { s with gov := g1 }

def execRateUpdate (s : State) : Answer := .next s.updateRate

/-- Interval k begins (R389, R408), the rate of the one before at the latest now in effect: what interval k − 1 was is fixed,
and the flit is sent, with the need that was found at the start of interval k − 1. Without a binding, the module's own values
are the aggregate. The ballast of an interval is R less its demand, where larders overflowed (R406, R410; log entry 109). -/
def State.beginInterval (s0 : State) : State :=
  let s := s0.updateRate
  let g := s.gov
  let start := 10000 * (g.interval + 1)
  let spent := (List.range 24).foldl (fun a d => a + (s.larder d).spent) 0
  let theta := (List.range 24).foldl (fun a d =>
    Nat.min a (thetaOf (if (s.larder d).tjMax = 0 then (s.larder d).tj else (s.larder d).tjMax))) 256
  let slew := g.slewDue
  let own : Aggregate :=
    { demand := g.demand * 4 / 10 ^ 7, need := g.need, theta := theta, slew := slew, members := 1 }
  let s1 := (List.range 24).foldl (fun (a : State) d =>
    a.setLarder d { a.larder d with spent := 0, tjMax := 0 }) s
  { s1 with
    intents := s1.intents.keep (fun _ x => match x.stop with
      | some t => start < t
      | none => true)
    gov := { g with
      interval := g.interval + 1, due := true, slew := slew, demand := 0, own := own
      need := s.needAt start (slew / 100)
      prev := { g.cur with ballast := if spent = 0 then 0 else g.cur.rate - own.demand }
      limit := g.localLimit, inputMin := g.input
      aggregate := if g.group.isSome then none else some own } }

def execGovernorInterval (s : State) : Answer :=
  .next (if s.powered && 10000 * (s.gov.interval + 1) ≤ s.time then s.beginInterval else s)

/-- Ranks of a bound fabric group. -/
def State.groupSize (s : State) (id : Nat) : Option Nat :=
  (s.groups.cells.find? (fun c => c.2.live && c.2.id == id)).map (fun c => c.2.n)

/-- The switches' aggregate can be so (R389): the sums hold the module's own demand and need, the minima are no more than its
own θ and S, and M is the group's size. -/
def State.aggregateOk (s : State) (a : Aggregate) : Bool :=
  let own := s.gov.own
  own.demand ≤ a.demand && own.need ≤ a.need && 166 ≤ a.theta && a.theta ≤ own.theta && 100 ≤ a.slew && a.slew ≤ own.slew &&
  1 ≤ a.members && a.members ≤ 256 && (match s.gov.group with
    | some id => match s.groupSize id with
      | some n => a.members == n
      | none => true
    | none => false)

/-- The switches' aggregate arrives (R389): of a bound power group, and before the rate of the interval is due. -/
def execPowerAggregate (demand need theta slew members : Nat) (s : State) : Answer :=
  let a : Aggregate := { demand := demand, need := need, theta := theta, slew := slew, members := members }
  .next (if s.gov.due && s.time < 10000 * s.gov.interval + 2000 && s.aggregateOk a then
    { s with gov := { s.gov with aggregate := some a } } else s)

/-! ## Samples (R391, R392, R396, R457, R458) -/

/-- A die samples its hottest junction, in quarter degrees. -/
def State.sampleTj (s : State) (die tj : Nat) : State :=
  let l := s.larder die
  let l1 := { l with tj := tj, tjMax := Nat.max l.tjMax tj }
  if 24 ≤ die then s
  else if 420 ≤ tj && !l.hot then (s.setLarder die { l1 with hot := true, share := none }).emergency die 0 tj
  else if tj ≤ 408 && l.hot then (s.setLarder die { l1 with hot := false }).shareReturns [die]
  else s.setLarder die l1

/-- A core's hotspot at 95 °C asks the management core for a migration of the die's hottest core, which drops the request
where the die has no spare (R391, R432). -/
def State.askMigration (s : State) (die core : Nat) : State :=
  let spare := (List.range 17).any (fun p => s.phys.get 0 (die * 17 + p) == 1)
  let l := s.larder die
  if 24 ≤ die || !spare || l.hotCore.isSome then s else s.setLarder die { l with hotCore := some (core % 16, s.time) }

def execTjSample (die tj : Nat) (hot : Option Nat) (s : State) : Answer :=
  .next (match hot with
    | some c => (s.sampleTj die tj).askMigration die c
    | none => s.sampleTj die tj)

/-- A stack's refresh class after a sample of its case temperature in quarter degrees (R396): up past a bound, back two
degrees below it. -/
def refreshAfter (now q : Nat) : Nat :=
  let up := if 380 < q then 2 else if 340 < q then 1 else 0
  if now ≤ up then up
  else if now = 2 ∧ 372 < q then 2
  else if 332 < q then 1 else 0

def State.sampleCase (s : State) (die q : Nat) : State :=
  let h := s.hbms.get {} die
  let h1 := { h with refresh := refreshAfter h.refresh q }
  let put := fun (a : State) (x : Hbm) => { a with hbms := a.hbms.set {} die x }
  if 24 ≤ die then s
  else if 420 ≤ q && !h.hot then (put s { h1 with hot := true }).emergency die 2 q
  else if q ≤ 400 && h.hot then put s { h1 with hot := false }
  else put s h1

def execHbmCaseSample (die quarter : Nat) (s : State) : Answer := .next (s.sampleCase die quarter)

/-- The 24 dies. -/
def dies24 : List Nat := List.range 24

/-- The module samples its input voltage, in half millivolts (R457). -/
def State.sampleInput (s : State) (v : Nat) : State :=
  let g := s.gov
  let s1 := { s with gov := { g with
    input := v, inputMin := Nat.min g.inputMin v
    under48 := v < 96000, dip := v < 88000, over60 := 120000 < v
    dipSince := if g.dip then g.dipSince else s.time } }
  let s2 := if 120000 < v && !g.over60 then s1.emergency 0xFF 5 v else s1
  let s3 := if v < 96000 && !g.under48 then s2.emergency 0xFF 3 v else s2
  let s4 := if v < 88000 && !g.dip then s3.emergency 0xFF 4 v else s3
  if g.dip && !(v < 88000) then s4.shareReturns dies24 else s4

def execInputVoltageSample (halfMv : Nat) (s : State) : Answer := .next (s.sampleInput halfMv)

/-- The supply is lost (R457): a dip of 1 ms, or more than 62 V. Every die stops and all state is lost. -/
def execSupplyLost (s : State) : Answer :=
  .next (if s.powered && ((s.gov.dip && s.gov.dipSince + 1000000 ≤ s.time) || 124000 < s.gov.input) then
    { State.reset with powered := false, free := s.free, gov := { supplyLost := true } }
  else s)

/-- The flow is sampled, in hundredths of a litre per minute (R458). -/
def State.sampleFlow (s : State) (f : Nat) : State :=
  let g := s.gov
  let s1 := { s with gov := { g with flow := f, flowLow := f < 900, flowStop := f < 600 } }
  let s2 := if f < 900 && !g.flowLow then s1.emergency 0xFF 6 f else s1
  if g.flowStop && !(f < 600) then s2.shareReturns dies24 else s2

def execFlowSample (centiLpm : Nat) (s : State) : Answer := .next (s.sampleFlow centiLpm)

end Sys2Proof.Machine
end

