-- ==== Sys2Proof/Machine/Rv32.lean ====
section
/-!
DEFINITION. The base instructions of a slice core: RV32I and RV32M as the RISC-V unprivileged specification has them
(R321), with their slice cycles (R351).
-/
namespace Sys2Proof.Machine

/-- A register of 32 bits; x0 is zero. -/
abbrev XWord := BitVec 32

def Slice.rd (c : Slice) (n : Nat) : XWord := if n = 0 then 0 else c.x.get 0 n
def Slice.wr (c : Slice) (n : Nat) (v : XWord) : Slice := if n = 0 then c else { c with x := c.x.set 0 n v }

/-- A quotient rounded toward zero, with the results for a zero divisor and for overflow. -/
def rvDiv (a b : XWord) : XWord := if b = 0 then BitVec.allOnes 32 else BitVec.ofInt 32 (a.toInt.tdiv b.toInt)
def rvRem (a b : XWord) : XWord := if b = 0 then a else BitVec.ofInt 32 (a.toInt.tmod b.toInt)

/-- A register operation. -/
def rvAlu (o : RvOp) (a b : XWord) : XWord :=
  let sh := b.toNat % 32
  match o with
  | .add => a + b
  | .sub => a - b
  | .sll => a <<< sh
  | .slt => if a.toInt < b.toInt then 1 else 0
  | .sltu => if a.toNat < b.toNat then 1 else 0
  | .xor => a ^^^ b
  | .srl => a >>> sh
  | .sra => a.sshiftRight sh
  | .or => a ||| b
  | .and => a &&& b
  | .mul => a * b
  | .mulh => BitVec.ofInt 32 (a.toInt * b.toInt / 2 ^ 32)
  | .mulhsu => BitVec.ofInt 32 (a.toInt * (b.toNat : Int) / 2 ^ 32)
  | .mulhu => BitVec.ofNat 32 (a.toNat * b.toNat / 2 ^ 32)
  | .div => rvDiv a b
  | .divu => if b = 0 then BitVec.allOnes 32 else BitVec.ofNat 32 (a.toNat / b.toNat)
  | .rem => rvRem a b
  | .remu => if b = 0 then a else BitVec.ofNat 32 (a.toNat % b.toNat)

/-- Slice cycles of a register operation. -/
def rvCycles : RvOp → Nat
  | .mul | .mulh | .mulhsu | .mulhu => 3
  | .div | .divu | .rem | .remu => 34
  | _ => 1

def rvTaken (c : RvCond) (a b : XWord) : Bool :=
  match c with
  | .eq => a == b
  | .ne => a != b
  | .lt => a.toInt < b.toInt
  | .ge => b.toInt ≤ a.toInt
  | .ltu => a.toNat < b.toNat
  | .geu => b.toNat ≤ a.toNat

/-- An address plus an offset, in 32 bits. -/
def rvAddr (a : Nat) (off : Int) : Nat := pattern 32 ((a : Int) + off)

/-- What a base instruction does: its slice cycles with the core after it, or an abort's cause (R332). -/
inductive RvRes where
  | ok (cycles : Nat) (c : Slice)
  | bad (cause : Nat)

/-- The offset in DMEM of an access of `n` bytes within a region (R322): misaligned before outside. -/
def dataOff (lo hi a n : Nat) : Except Nat Nat :=
  if a % n != 0 then .error 0x05
  else if a < lo || hi < a + n then .error 0x04
  else .ok (a - 0x10000)

/-- A base instruction of length `len`, at `c.pc`, with the tenant's DMEM region from `lo` up to `hi`. -/
def rvStep (r : Rv) (len lo hi : Nat) (c : Slice) : RvRes :=
  let next := rvAddr c.pc len
  let go := fun (n : Nat) (d : Slice) => RvRes.ok n { d with pc := next }
  match r with
  | .lui rd imm => go 1 (c.wr rd (BitVec.ofNat 32 (imm * 2 ^ 12)))
  | .auipc rd imm => go 1 (c.wr rd (BitVec.ofNat 32 (c.pc + imm * 2 ^ 12)))
  | .jal rd off => .ok 2 { c.wr rd (BitVec.ofNat 32 next) with pc := rvAddr c.pc off }
  | .jalr rd rs1 off =>
    .ok 2 { c.wr rd (BitVec.ofNat 32 next) with pc := rvAddr (c.rd rs1).toNat off / 2 * 2 }
  | .branch k rs1 rs2 off =>
    if rvTaken k (c.rd rs1) (c.rd rs2) then .ok 2 { c with pc := rvAddr c.pc off } else go 1 c
  | .load w rd rs1 off =>
    match dataOff lo hi (rvAddr (c.rd rs1).toNat off) w.bytes with
    | .error e => .bad e
    | .ok o =>
      let v := ofBytes (c.dmem.readBytes w.bytes o)
      go 2 (c.wr rd (BitVec.ofNat 32 (if w.signed then pattern 32 (sext (8 * w.bytes) v) else v)))
  | .store n rs1 rs2 off =>
    match dataOff lo hi (rvAddr (c.rd rs1).toNat off) n with
    | .error e => .bad e
    | .ok o => go 1 { c with dmem := c.dmem.writeBytes o (bytesOf n (c.rd rs2).toNat) }
  | .opImm o rd rs1 imm => go (rvCycles o) (c.wr rd (rvAlu o (c.rd rs1) (BitVec.ofInt 32 imm)))
  | .op o rd rs1 rs2 => go (rvCycles o) (c.wr rd (rvAlu o (c.rd rs1) (c.rd rs2)))

end Sys2Proof.Machine
end

