-- ==== Sys2Proof/Machine/SliceCore.lean ====
section
/-!
DEFINITION. Slice cores (R321–R349): tenants, the event queue, handlers with their budgets, commits and aborts, the
handler instructions, and SMSG.
-/
namespace Sys2Proof.Machine

/-- A message reaches the slice of its line. -/
def State.message (s : State) (k pa asid : Nat) (e : SliceEvent) : State :=
  match s.boundTenant k 3 pa asid with
  | some t => s.queueEvent k t { e with kind := 3, tenant := t, pa := pa }
  | none => s.answerSmsg e.op (replyWord 0 0 0 3)

/-- An operation in flight has still to read a line at its home (R325). -/
def State.readsHome (s : State) (o : Op) (pa : Nat) : Bool :=
  o.st == .flying &&
  (if o.i.reading || o.i.isAtomic then
      o.elems.any (fun e => !e.done && (match e.place with
        | .home a _ ms => !ms && a / 128 == pa / 128
        | _ => false))
   else isCopy o.i && s.wholeTouches o (.home (pa / 128 * 128) false false) 128)

/-- A read or atomic whose ASID is given finds the line absent (R325): some operation in flight of a block of that ASID,
under the block's handle. -/
def State.lineMiss (s : State) (k pa asid handle : Nat) : State :=
  let x := s.lineOf pa
  let real := s.ops.cells.any (fun c => c.2.asid == asid && (s.block c.2.block).handle == handle && s.readsHome c.2 pa)
  if ownerOf pa != k || !isLocal pa || bits pa 50 2 != 0 || x.present || x.pending || !real then s
  else (s.setLine pa { x with pending := true, asid := some asid }).lineEvent k 0 pa (some asid) false handle

/-- A fill is written (R325). A line that nothing of a job has asked for keeps no ASID. -/
def State.lineFill (s : State) (k pa : Nat) : State :=
  let x := s.lineOf pa
  if ownerOf pa != k || !isLocal pa || bits pa 50 2 != 0 || x.present then s
  else s.fillLine pa (if x.pending then x.asid else none)

/-- A line leaves by replacement or flush (R325). -/
def State.lineEvict (s : State) (k pa : Nat) : State :=
  let x := s.lineOf pa
  if ownerOf pa != k || !isLocal pa || bits pa 50 2 != 0 || !x.present then s else s.dropLine pa

/-- What an SMSG captured (R345): target, message, and where its reply goes. -/
structure SmsgArgs where
  pa : Nat
  msg : Nat
  reply : Bool
  block : Nat
  off : Nat

def SmsgArgs.nats (a : SmsgArgs) : List Nat := [a.pa, a.msg, b2n a.reply, a.block, a.off]
def SmsgArgs.of (l : List Nat) : SmsgArgs :=
  { pa := l.getD 0 0, msg := l.getD 1 0, reply := l.getD 2 0 == 1, block := l.getD 3 0, off := l.getD 4 0 }

def isSmsg : Instr → Bool
  | .smsg _ => true
  | _ => false

/-- An SMSG's message leaves once its edges are met, and reaches the slice (R345, R347). -/
def State.smsgArrives (s : State) (k o : Nat) : State :=
  let x := s.op o
  let a := SmsgArgs.of x.args
  let s1 := s.releaseFor (s.opCore x) x.warp x.hset x.after x.lanes
  if x.st != .flying || !isSmsg x.i || x.sent || ownerOf a.pa != k ||
     !s1.edgesMet x.warp x.hset x.after x.lanes x.seq then s
  else
    (s1.setOp o { x with sent := true }).message k a.pa x.asid
      { kind := 3, tenant := 0, handle := (s1.block x.block).handle, msg := bytesOf 64 a.msg, op := some o }

/-- The oldest message of slice core `src` reaches its target. -/
def State.slmsgArrives (s : State) (k src : Nat) : State :=
  let c := s.slice src
  match c.outbox.find? (fun m => ownerOf m.1 == k) with
  | none => s
  | some m =>
    let s1 := s.setSlice src { c with outbox := c.outbox.erase m }
    s1.message k m.1 m.2.1 { kind := 3, tenant := 0, fromSlice := true, handle := src, msg := m.2.2 }

def execSliceEvent (slice : Nat) (e : SliceEv) (s : State) : Answer :=
  .next (match e with
    | .miss pa asid handle => s.lineMiss slice pa asid handle
    | .fill pa => s.lineFill slice pa
    | .evict pa => s.lineEvict slice pa
    | .smsg op => s.smsgArrives slice op
    | .slmsg src => s.slmsgArrives slice src)

/-! ## Handlers (R327–R332) -/

/-- The tenant of the running handler, and its budget. -/
def Slice.running (c : Slice) : Tenant := c.tenant ((c.event.map (·.tenant)).getD 0)
def Slice.budget (c : Slice) : Nat := c.running.budget ((c.event.map (·.kind)).getD 0)

/-- The event word a0 (R328). -/
def SliceEvent.word (e : SliceEvent) : Nat := e.kind + e.tenant * 4 + b2n e.dirty * 32 + b2n e.fromSlice * 64

/-- The next handler starts (R327, R328). -/
def State.startHandler (s : State) (k : Nat) : State :=
  let c := s.slice k
  match c.st, c.queue with
  | .idle, e :: r =>
    let t := c.tenant e.tenant
    if !t.valid || t.entry e.kind = 0xFFFF then (s.setSlice k { c with queue := r }).answerSmsg e.op (replyWord 0 0 0 3)
    else
      let c1 := { c with
        queue := r, st := .running, event := some e, pc := t.ibase + t.entry e.kind, x := {}, count := 0, buffer := {}
        arrivals := [], reply := 0
        dmem := if e.kind = 3 then c.dmem.writeBytes t.dbase e.msg else c.dmem }
      let set := [(10, e.word), (11, e.handle), (12, e.pa % 2 ^ 32), (13, bits e.pa 32 20), (3, t.dlo), (2, t.dlo + t.dsize)]
      s.setSlice k (set.foldl (fun (a : Slice) p => a.wr p.1 (BitVec.ofNat 32 p.2)) c1)
  | _, _ => s

def execHandlerStart (slice : Nat) (s : State) : Answer := .next (s.startHandler slice)

/-- A handler aborts (R331) with the cycles counted (R329). -/
def State.abortHandler (s : State) (k cause used : Nat) : State :=
  let c := s.slice k
  match c.event with
  | none => s
  | some e =>
    let t := (c.tenant e.tenant).count 16 16
    let t1 := { t with td4 := BitVec.ofNat 64 (putBits t.td4.toNat 8 8 cause) }
    let c1 := { c.setTenant e.tenant t1 with
      st := .idle, event := none, buffer := {}, arrivals := [], count := 0, reply := 0 }
    (s.setSlice k c1).answerSmsg e.op (replyWord 0 used cause 1)

/-- What a handler's instruction comes to: its cycles with the state, a stall of one cycle, or an abort. -/
inductive SlRes where
  | ok (cycles : Nat) (s : State)
  | stall (s : State)
  | bad (cause : Nat)

/-- Cycles are counted, up to the budget (R329). -/
def State.countCycles (s : State) (k n : Nat) : State :=
  let c := s.slice k
  s.setSlice k { c with count := Nat.min (c.count + n) c.budget }

/-- An instruction of a running handler. At its budget the handler does nothing more: it is about to be aborted. -/
def runHandler (body : Nat → State → SlRes) (k : Nat) (s : State) : State :=
  let c := s.slice k
  if c.st != .running || c.budget ≤ c.count then s
  else match body k s with
  | .ok n s1 => s1.countCycles k n
  | .stall s1 => s1.countCycles k 1
  -- the cycle of the abort counts; the budget comes first
  | .bad cause => if c.budget ≤ c.count + 1 then s.countCycles k 1 else s.abortHandler k cause (c.count + 1)

/-- The count has reached the budget before SLDONE issued (R329). -/
def State.overrun (s : State) (k : Nat) : State :=
  let c := s.slice k
  if c.st == .running && c.budget ≤ c.count then s.abortHandler k 0x01 c.budget else s

def execHandlerBudgetOverrun (slice : Nat) (s : State) : Answer := .next (s.overrun slice)

/-! ## Handler instructions (R333–R342) -/

/-- The next instruction after a custom one. -/
def Slice.step4 (c : Slice) : Slice := { c with pc := rvAddr c.pc 4 }

/-- A pair operand as a number. -/
def Slice.pair (c : Slice) (n : Nat) : Nat := (c.rd n).toNat + (c.rd (n + 1)).toNat * 2 ^ 32

/-- The PA of a pair (R334, R335): its high bits, its alignment, then the tenant's lines. -/
def linePa (k align : Nat) (c : Slice) (n : Nat) : Except Nat Nat :=
  let pa := c.pair n
  if 2 ^ 52 ≤ pa then .error 0x05
  else if pa % align != 0 then .error 0x05
  else if !c.running.owns k pa then .error 0x06
  else .ok pa

/-- Bytes as the home holds them with the handler's buffered bytes merged in. -/
def State.handlerBytes (s : State) (c : Slice) (pa n : Nat) : Nat :=
  ofBytes ((List.range n).map (fun i => (c.buffer.get none (pa + i)).getD (s.mem.read (pa + i))))

/-- A pair operand names an even register that is not x0 (R333); any other is illegal. -/
def onPair (x : SlArgs) (body : Nat → State → SlRes) (k : Nat) (s : State) : SlRes :=
  if x.rs1 % 2 != 0 || x.rs1 == 0 then .bad 0x02 else body k s

/-- Slice cycles of an SLRD that fetches its line (R351). -/
def fetchCycles : Nat := 380

def slrdBody (x : SlArgs) (k : Nat) (s : State) : SlRes :=
  let c := s.slice k
  let put := fun (v : Nat) => SlRes.ok 4 (s.setSlice k (c.wr x.rd (BitVec.ofNat 32 v)).step4)
  match linePa k 4 c x.rs1 with
  | .error e => .bad e
  | .ok pa =>
    let line := s.lineOf pa
    if !line.present && !bit x.f7 0 then put 0
    -- a line that is pinned, or being filled for another, is waited for
    else if s.homeHeld pa false || (!line.present && line.pending) then .stall s
    else if line.present then put (s.handlerBytes c pa 4)
    -- the fetch raises no event, and the instruction takes as long as it does (R351)
    else
      let s1 := s.fillLine pa none
      .ok fetchCycles (s1.setSlice k ((s1.slice k).wr x.rd (BitVec.ofNat 32 (s1.handlerBytes c pa 4))).step4)

def execSlrd (x : SlArgs) (s : State) : Answer := onSlice (runHandler (onPair x (slrdBody x))) s

/-- The lines of a handler's buffer. -/
def Slice.bufferLines (c : Slice) : List Nat := (c.buffer.cells.map (fun b => b.1 / 128)).eraseDups

def slwrBody (x : SlArgs) (k : Nat) (s : State) : SlRes :=
  let c := s.slice k
  if x.f7 % 16 = 0 then .bad 0x02
  else match linePa k 4 c x.rs1 with
  | .error e => .bad e
  | .ok pa =>
    if !c.bufferLines.contains (pa / 128) && 8 ≤ c.bufferLines.length then .bad 0x07
    else
      let v := (c.rd x.rs2).toNat
      let buf := (maskList x.f7 4).foldl (fun (t : Table (Option Byte)) i =>
        t.set none (pa + i) (some (BitVec.ofNat 8 (bits v (8 * i) 8)))) c.buffer
      .ok 1 (s.setSlice k { c with buffer := buf }.step4)

def execSlwr (x : SlArgs) (s : State) : Answer := onSlice (runHandler (onPair x (slwrBody x))) s

/-- The line of a virtual address for a slice core (R338, R339): readable, of region 00, not MS. -/
def State.sliceVa (s : State) (die asid va : Nat) : Option Nat × State :=
  if isWindow va || 2 ^ 57 ≤ va then (none, s)
  else
    let (t, s1) := s.translate die asid va
    match t with
    | none => (none, s1)
    | some e =>
      if !bit e.pte 1 || bit e.pte 5 then (none, s1)
      else if bits (e.pa va) 50 2 = 0 && isLocal (e.pa va) then (some (e.pa va), s1) else (none, s1)

/-- One line of an SLPF. -/
def State.sliceFetch (s : State) (die asid va : Nat) : State :=
  match s.sliceVa die asid va with
  | (none, s1) => s1
  | (some pa, s1) =>
    let x := s1.lineOf pa
    if x.present || x.pending then s1 else s1.setLine pa { x with pending := true, asid := some asid }

def slpfBody (x : SlArgs) (k : Nat) (s : State) : SlRes :=
  let c := s.slice k
  let va := c.pair x.rs1
  let n := Nat.min (c.rd x.rs2).toNat 512
  let first := va / 128 * 128
  if 2 ^ 57 ≤ va then .bad 0x05
  else
    let s1 := (List.range n).foldl (fun (a : State) i =>
      if (first + 128 * i) / 65536 = first / 65536 then a.sliceFetch (k / 32) c.running.asid (first + 128 * i) else a) s
    .ok (1 + n) (s1.setSlice k (s1.slice k).step4)

def execSlpf (x : SlArgs) (s : State) : Answer := onSlice (runHandler (onPair x (slpfBody x))) s

def slmsgBody (x : SlArgs) (k : Nat) (s : State) : SlRes :=
  let c := s.slice k
  let t := (c.event.map (·.tenant)).getD 0
  let va := c.pair x.rs1
  let a := (c.rd x.rs2).toNat
  if 2 ^ 57 ≤ va then .bad 0x05
  else match dataOff c.running.dlo c.running.dhi a 64 with
  | .error e => .bad e
  | .ok o =>
    match s.sliceVa (k / 32) c.running.asid va with
    | (none, s1) => .ok 8 (s1.setSlice k ((s1.slice k).setTenant t (c.running.count 0 8)).step4)
    | (some pa, s1) =>
      let c1 := s1.slice k
      .ok 8 (s1.setSlice k { c1 with outbox := c1.outbox ++ [(pa, c.running.asid, c1.dmem.readBytes 64 o)] }.step4)

def execSlmsg (x : SlArgs) (s : State) : Answer := onSlice (runHandler (onPair x (slmsgBody x))) s

def slarrBody (x : SlArgs) (k : Nat) (s : State) : SlRes :=
  let c := s.slice k
  let off := (c.rd (x.rs1 + 1)).toNat
  if off % 16 != 0 || 2 ^ 20 ≤ off then .bad 0x05
  else if 16 ≤ c.arrivals.length then .bad 0x09
  else .ok 2 (s.setSlice k
    { c with arrivals := c.arrivals ++ [((c.rd x.rs1).toNat, off, (c.rd x.rs2).toNat)] }.step4)

def execSlarr (x : SlArgs) (s : State) : Answer := onSlice (runHandler (onPair x (slarrBody x))) s

/-- SLDONE ends the handler: its commit begins (R330, R341). -/
def sldoneBody (x : SlArgs) (k : Nat) (s : State) : SlRes :=
  let c := s.slice k
  .ok 1 (s.setSlice k { c with st := .committing, reply := c.rd x.rs1 })

def execSldone (x : SlArgs) (s : State) : Answer := onSlice (runHandler (sldoneBody x)) s

/-- SLQRY's word (R336). -/
def State.lineState (s : State) (k : Nat) (c : Slice) (pa : Nat) : Nat :=
  let x := s.lineOf pa
  let here := if x.present then (if x.dirty then 3 else 2) else if x.pending then 1 else 0
  let mine := (x.present || x.pending) && x.asid == some c.running.asid
  let shared := (List.range 24).any (fun d => d != k / 32 && !(s.rdcLine d (pa / 128)).isEmpty)
  here + b2n (s.pinned (pa / 128)) * 8 + b2n shared * 16 +
    b2n (c.bufferLines.contains (pa / 128)) * 32 + b2n mine * 64

def slqryBody (x : SlArgs) (k : Nat) (s : State) : SlRes :=
  let c := s.slice k
  match linePa k 1 c x.rs1 with
  | .error e => .bad e
  | .ok pa => .ok 4 (s.setSlice k (c.wr x.rd (BitVec.ofNat 32 (s.lineState k c pa))).step4)

def execSlqry (x : SlArgs) (s : State) : Answer := onSlice (runHandler (onPair x (slqryBody x))) s

def slbudBody (x : SlArgs) (k : Nat) (s : State) : SlRes :=
  let c := s.slice k
  .ok 1 (s.setSlice k (c.wr x.rd (BitVec.ofNat 32 (c.budget - (c.count + 1)))).step4)

def execSlbud (x : SlArgs) (s : State) : Answer := onSlice (runHandler (slbudBody x)) s

/-- A base instruction (R321). -/
def baseBody (r : RvWord) (k : Nat) (s : State) : SlRes :=
  let c := s.slice k
  let go := fun (i : Rv) (len : Nat) => match rvStep i len c.running.dlo c.running.dhi c with
    | .ok n d => SlRes.ok n (s.setSlice k d)
    | .bad e => .bad e
  match r with
  | .base i => go i 4
  | .comp i => go i.expand 2
  | .illegal _ => .bad 0x02

def execHandlerBaseInstruction (r : RvWord) (s : State) : Answer := onSlice (runHandler (baseBody r)) s

/-! ## Commit (R330, R340) -/

/-- A block that a handle names (R328, R340). -/
def State.blockOfHandle (s : State) (h : Nat) : Option Nat :=
  (s.blocks.cells.find? (fun c => c.2.standing && c.2.handle == h)).map (·.1)

/-- A held increment is made, or lost. -/
def State.makeSlarr (s : State) (k t : Nat) (a : Nat × Nat × Nat) : State :=
  let lost := s.setSlice k ((s.slice k).setTenant t (((s.slice k).tenant t).count 0 8))
  match s.blockOfHandle a.1 with
  | none => lost
  | some b =>
    let x := s.block b
    if (s.job x.job).asid != ((s.slice k).tenant t).asid || x.alloc < a.2.1 + 16 then lost
    else s.arriveAt b a.2.1 a.2.2

/-- A line that a commit writes: absent, its slice fetches it; what memory holds of it is kept beside it for memory-side
accesses (R324); no copy of it is shared any longer, and it is dirty (R330). -/
def State.gatherLine (s : State) (l : Nat) : State :=
  let s1 := s.atSlice (l * 128) none none
  let s2 := if (s1.shadow.get [] l).isEmpty then { s1 with shadow := s1.shadow.set [] l (s1.homeLine l) } else s1
  let s3 := s2.unshare [l]
  s3.setLine (l * 128) { s3.lineOf (l * 128) with dirty := true }

/-- The commit: every buffered byte in one step, the increments in their order, and the reply. -/
def State.commitHandler (s : State) (k : Nat) : State :=
  let c := s.slice k
  match c.st, c.event with
  | .committing, some e =>
    let held := c.arrivals.any (fun a => match s.blockOfHandle a.1 with
      | some b => (s.block b).frozen
      | none => false)
    if c.bufferLines.any (fun l => s.homeHeld (l * 128) false) || held then s
    else
      let s1 := c.bufferLines.foldl State.gatherLine s
      let s2 := c.buffer.cells.foldl (fun (a : State) b => match b.2 with
        | some v =>
          let a1 := a.remember { place := .home b.1 false false, data := [a.mem.read b.1] }
          { a1 with mem := a1.mem.write b.1 v }
        | none => a) s1
      let s3 := c.arrivals.foldl (fun (a : State) i => a.makeSlarr k e.tenant i) s2
      (s3.setSlice k { s3.slice k with st := .idle, event := none, buffer := {}, arrivals := [], count := 0, reply := 0 }).answerSmsg
        e.op (replyWord c.reply.toNat c.count 0 0)
  | _, _ => s

/-- The handler's next instruction reads a line (R335): the slice cycles that this takes. -/
def State.readsLine (s : State) (k : Nat) : Option Nat :=
  let c := s.slice k
  match decodeSlice (ofBytes (c.imem.readBytes 4 c.pc)) with
  | .slrd x => match linePa k 4 c x.rs1 with
    | .ok pa =>
      let line := s.lineOf pa
      if c.pc % 2 != 0 || c.pc < c.running.ibase || c.running.ihi < c.pc + 4 || x.rs1 % 2 != 0 || x.rs1 == 0 ||
         s.homeHeld pa false then none
      else if line.present then some 4
      else if bit x.f7 0 && !line.pending then some fetchCycles
      else none
    | .error _ => none
  | _ => none

/-- A commit performs; with `err`, a line it gathers, or that the handler is about to read, has an uncorrectable error
(R330, R335). -/
def execHandlerCommit (slice : Nat) (err : Bool) (s : State) : Answer :=
  let c := s.slice slice
  .next (if !err then s.commitHandler slice
    else if c.st == .committing && !c.bufferLines.isEmpty then s.abortHandler slice 0x08 c.count
    else match c.st, s.readsLine slice with
    | .running, some n => if c.count + n < c.budget then s.abortHandler slice 0x08 (c.count + n) else s
    | _, _ => s)

/-- A tenant is removed (R324): its queued events go, and its running handler aborts in this slice cycle, which counts
(R329). Memory-side accesses see what its handlers wrote from then on (log entry 100). -/
def State.dropTenant (s : State) (k t : Nat) : State :=
  let c := s.slice k
  let gone := c.queue.filter (fun e => e.tenant == t)
  let s0 := { s with shadow := s.shadow.keep (fun l _ => !(c.tenant t).owns k (l * 128)) }
  let s1 := s0.setSlice k { c with queue := c.queue.filter (fun e => e.tenant != t) }
  let s2 := gone.foldl (fun (a : State) e => a.answerSmsg e.op (replyWord 0 0 0 3)) s1
  match c.st, c.event with
  | .running, some e => if e.tenant = t then s2.abortHandler k 0x0B (Nat.min (c.count + 1) c.budget) else s2
  | _, _ => s2

/-! ## SMSG (R344–R346) -/

/-- The target of an SMSG: the line's address, or a cause (R345). -/
def State.smsgTarget (s : State) (w va : Nat) : Except Nat Nat × State :=
  if va % 8 != 0 then (.error 0x062, s)
  else if isWindow va then (.error 0x063, s)
  else match s.checkElem (s.ctx w) { read := true } va 1 8 with
  | (.error c, s1) => (.error c, s1)
  | (.ok (.home pa _ ms), s1) => (if ms || bits pa 50 2 != 0 then .error 0x063 else .ok pa, s1)
  | (.ok _, s1) => (.error 0x063, s1)

def smsgWarp (x : Mem) (w : Nat) (s : State) : Res :=
  let wp := s.warp w
  let va := wp.memAddr x false 0
  let ctl := (wp.rdS (x.d + 8)).toNat
  let msg := ofBytes ((List.range 8).flatMap (fun i => bytesOf 8 (wp.rdS (x.d + i)).toNat))
  let sa := bits ctl 0 25
  let wants := bit ctl 32
  match s.smsgTarget w va with
  | (.error c, s1) => .trap { cause := c, addr := va } s1
  | (.ok pa, s1) =>
    if bits ctl 25 7 != 0 || bits ctl 33 31 != 0 then .trap { cause := 0x022 } s1
    else if wants && sa % 8 != 0 then .trap { cause := 0x062, addr := sa } s1
    else
      let send := fun (b off : Nat) =>
        Res.ok (s1.issueCopy w (.smsg x) x (SmsgArgs.nats ⟨pa, msg, wants, b, off⟩) [b] [])
      if !wants then send wp.block 0
      else match s1.resolveSa wp.block sa 8 with
      | .error c => .trap { cause := c, addr := sa } s1
      | .ok (.scratch b off) => send b off
      | .ok _ => .ok s1

def execSmsg (x : Mem) (s : State) : Answer := onWarp (.smsg x) (uniformReal x.g (smsgWarp x)) s

/-- The block that issued an operation has neither retired nor been killed. -/
def State.issuerStands (s : State) (o : Op) : Bool :=
  (s.block o.block).standing && (s.block o.block).warps.any (fun w => !(s.warp w).allExited)

/-- The outcome reaches the warp: the reply is written, unless its issuer's block is gone, and the SMSG is performed
(R346). -/
def State.smsgEnds (s : State) (k : Nat) : State :=
  let o := s.op k
  let a := SmsgArgs.of o.args
  match o.reply with
  | some r =>
    if o.st != .flying || !isSmsg o.i || (a.reply && (s.block a.block).frozen) then s
    else (if a.reply && s.issuerStands o then s.pokeScratch a.block a.off (bytesOf 8 r) else s).finishOp k
  | none => s

def execSmsgReply (op : Nat) (s : State) : Answer := .next (s.smsgEnds op)

end Sys2Proof.Machine
end

