-- ==== Sys2Proof/Machine/Platform.lean ====
section
/-!
DEFINITION. The platform (R446–R459): command rings, the management mailbox, boot, the debug window, the host's register
writes, and the MCTP endpoint.
-/
namespace Sys2Proof.Machine

/-! ## Rings (R449, R450) -/

def State.ring (s : State) (k : Nat) : Ring := s.rings.get {} k
def State.setRing (s : State) (k : Nat) (x : Ring) : State := { s with rings := s.rings.set {} k x }

/-- A ring with an entry to execute: it is enabled, has not stopped, and its doorbell is ahead of its head. -/
def State.ringPending (s : State) (k : Nat) : Bool :=
  let r := s.ring k
  s.ready && k < 32 && r.size != 0 && !bit r.error.toNat 63 && r.head != r.tail

/-- The ring whose turn it is among those of its processor: they take one entry each in turn. -/
def State.ringTurn (s : State) (k : Nat) : Bool :=
  let first := s.nextRing.get 0 (k / 16)
  ((List.range 16).map (fun i => k / 16 * 16 + (first + i) % 16)).find? (fun r => s.ringPending r) == some k

/-- The turn passes to the ring after. -/
def State.passTurn (s : State) (k : Nat) : State := { s with nextRing := s.nextRing.set 0 (k / 16) ((k % 16 + 1) % 16) }

/-- The entry at the head is executed, and the head moves to an index. -/
def State.toEntry (s : State) (k target : Nat) : State :=
  let r := s.ring k
  (s.setRing k { r with head := target % 2 ^ r.size }).passTurn k

def State.nextEntry (s : State) (k : Nat) : State := s.toEntry k ((s.ring k).head + 1)

/-- The ring stops at its entry, and the host gets a command error (R449, R451 kind 5). -/
def State.ringError (s : State) (k opcode reason : Nat) : State :=
  let r := s.ring k
  let err := 2 ^ 63 + r.head % 2 ^ 16 * 2 ^ 16 + reason % 2 ^ 8 * 2 ^ 8 + opcode % 2 ^ 8
  ((s.setRing k { r with error := BitVec.ofNat 64 err }).passTurn k).post (k / 16) 5 0xFF 0xFFFF k err r.head 0

/-- An entry of a ring is executed when its turn comes. -/
def onRing (k : Nat) (f : State → State) (s : State) : Answer :=
  .next (if s.ringPending k && s.ringTurn k then f s else s)

def execCmdNop (ring : Nat) (s : State) : Answer := onRing ring (fun s => s.nextEntry ring) s

/-- What a command processor's load finds. -/
inductive CpRead where
  | wait
  | fault
  | bytes (bs : List Byte)

/-- A sys-scope load of a command processor in its ring's ASID; `ext` are the bytes of a peer or of the host. -/
def State.cpRead (s : State) (port asid va n : Nat) (ext : List Nat) : CpRead × State :=
  if va % n != 0 || isWindow va || 2 ^ 57 ≤ va then (.fault, s)
  else
    let (t, s1) := s.translate (24 + port) asid va
    match t with
    | none => (.fault, s1)
    | some e =>
      let pa := e.pa va
      let outside := (List.range n).map (fun i => BitVec.ofNat 8 (ext.getD i 0))
      if !bit e.pte 1 then (.fault, s1)
      else match bits pa 50 2 with
      | 3 => (if bits pa 48 2 = 1 ∨ bits pa 48 2 = 2 then .bytes outside else .fault, s1)
      | _ => match s1.placeOf e.pte pa n { read := true } with
        | .ok (.home a _ ms) =>
          (if s1.homeHeld a ms then .wait else .bytes (if ms then s1.msRead n a else s1.mem.readBytes n a), s1)
        | .ok (.self a) => (if s1.homeHeld a false then .wait else .bytes (s1.mem.readBytes n a), s1)
        | .ok (.peer _) => (.bytes outside, s1)
        | _ => (.fault, s1)

/-- A job id that no job has (R259); which one is the processor's choice. -/
def State.freeJob (s : State) : Nat :=
  let used := (s.jobs.cells.filter (fun c => c.2.live)).map (fun c => c.1 - 1)
  firstUnusedMod 65534 used (used.length + 1) (Config.freeValue s.free % 65534) + 1

/-- A held binding is attached to the job that its entry has made (R453). -/
def State.attach (s : State) (k entry j : Nat) : State :=
  let s1 := { s with ringJobs := s.ringJobs.set 0 (k * 65536 + entry) j }
  match s1.held.find? (fun h => h.ring == k && h.entry == entry) with
  | none => s1
  | some h =>
    { s1 with
      groups := s1.groups.set {} j h.group
      gov := if h.power then { s1.gov with group := some h.group.id } else s1.gov
      held := s1.held.filter (fun x => !(x.ring == k && x.entry == entry)) }

/-- An entry that has launched nothing: the binding held for it has no job to go to. -/
def State.unbind (s : State) (k entry : Nat) : State :=
  { s with
    ringJobs := s.ringJobs.set 0 (k * 65536 + entry) 0
    held := s.held.filter (fun h => !(h.ring == k && h.entry == entry)) }

/-- A host launch (R259, R260): a job with one grid in its processor's launch queue. A record that cannot be read or is
malformed launches nothing; whether the ring then stops is open, and so is the reason it gives. -/
def State.hostLaunch (s : State) (k : Nat) (opcode : Nat) (rcd : Option Launch) : State :=
  let r := s.ring k
  match rcd with
  | none =>
    if s.choice then (s.draw.unbind k r.head).nextEntry k else s.draw.ringError k opcode (Config.freeValue s.free % 256)
  | some l =>
    if (s.loftUsed (24 + k / 16)).length = 4096 then s.passTurn k
    else
      let j := s.freeJob
      let s1 := s.draw.setJob j { live := true, asid := r.asid, port := k / 16 }
      ((s1.attach k r.head j).takeEntry (24 + k / 16) { job := j, rcd := l }).nextEntry k

def State.cmdLaunch (s : State) (k va : Nat) (ext : List Nat) : State :=
  match s.cpRead (k / 16) (s.ring k).asid va 128 ext with
  | (.wait, s1) => s1.passTurn k
  | (.fault, s1) => s1.hostLaunch k 0x01 none
  | (.bytes bs, s1) => s1.hostLaunch k 0x01 (if recordBad bs then none else some (Launch.of bs))

def execCmdLaunch (ring va : Nat) (ext : List Nat) (s : State) : Answer := onRing ring (fun s => s.cmdLaunch ring va ext) s

/-- LAUNCHI (R260, R450): the grid size is read from memory, and a size of 0 launches nothing. -/
def State.cmdLaunchi (s : State) (k va size : Nat) (ext : List Nat) : State :=
  match s.cpRead (k / 16) (s.ring k).asid va 128 ext with
  | (.wait, s1) => s1.passTurn k
  | (.fault, s1) => s1.hostLaunch k 0x02 none
  | (.bytes bs, s1) => match s1.cpRead (k / 16) (s.ring k).asid size 4 (ext.drop 128) with
    | (.wait, s2) => s2.passTurn k
    | (.fault, s2) => s2.hostLaunch k 0x02 none
    | (.bytes n, s2) =>
      let bs1 := bs.take 0x28 ++ n ++ bs.drop 0x2C
      if ofBytes n = 0 then (s2.unbind k (s2.ring k).head).nextEntry k
      else s2.hostLaunch k 0x02 (if recordBad bs1 then none else some (Launch.of bs1))

def execCmdLaunchi (ring va size : Nat) (ext : List Nat) (s : State) : Answer :=
  onRing ring (fun s => s.cmdLaunchi ring va size ext) s

def execCmdWaitj (ring job : Nat) (s : State) : Answer :=
  onRing ring (fun s => if (s.job job).live then s.passTurn ring else s.nextEntry ring) s

/-- A 64-bit word that a command polls; what cannot be read holds the command up. -/
def State.cmdWord (s : State) (k va ext : Nat) (f : Nat → State → State) : State :=
  match s.cpRead (k / 16) (s.ring k).asid va 8 ((bytesOf 8 ext).map BitVec.toNat) with
  | (.bytes bs, s1) => f (ofBytes bs) s1
  | (_, s1) => s1.passTurn k

def execCmdWaitv (ring va mask value ext : Nat) (s : State) : Answer :=
  onRing ring (fun s => s.cmdWord ring va ext (fun x s1 =>
    if x &&& mask % 2 ^ 64 = value % 2 ^ 64 then s1.nextEntry ring else s1.passTurn ring)) s

/-- LOOP (R450). -/
def State.cmdLoop (s : State) (k target count : Nat) : State :=
  let r := s.ring k
  if count % 2 ^ 64 = 0 then s.ringError k 0x05 0x02
  else
    let n := (if r.loop = 0 then BitVec.ofNat 64 count else r.loop) - 1
    let s1 := s.setRing k { r with loop := n }
    if n = 0 then s1.nextEntry k else s1.toEntry k target

def execCmdLoop (ring target count : Nat) (s : State) : Answer := onRing ring (fun s => s.cmdLoop ring target count) s

def execCmdJumpv (ring va target ext : Nat) (s : State) : Answer :=
  onRing ring (fun s => s.cmdWord ring va ext (fun x s1 =>
    if x = 0 then s1.nextEntry ring else s1.toEntry ring target)) s

/-- CANCEL in a ring (R277, R450): the ring goes on once every die has passed its cancel point. -/
def State.cmdCancel (s : State) (k j : Nat) : State :=
  let r := s.ring k
  let x := s.job j
  let busy := x.live && x.cancelled && x.passed != allDies
  match r.cancelling with
  | some c =>
    let y := s.job c
    if y.live && y.cancelled && y.passed != allDies then s.passTurn k
    else (s.setRing k { r with cancelling := none }).nextEntry k
  | none =>
    if !x.live || x.asid != r.asid then s.nextEntry k
    else if busy then (s.setRing k { r with cancelling := some j }).passTurn k
    else if x.cancelled then s.nextEntry k
    else ((s.beginCancel j).setRing k { r with cancelling := some j }).passTurn k

def execCmdCancel (ring job : Nat) (s : State) : Answer := onRing ring (fun s => s.cmdCancel ring job) s

/-- An entry whose opcode is none of the eight (R450). -/
def execCommandError (ring opcode : Nat) (s : State) : Answer :=
  onRing ring (fun s => if opcode % 256 < 8 then s else s.ringError ring opcode 0x01) s

/-- The size register is written (R449): a stopped ring may go on. Sizes that the spec does not give leave it as it
is. -/
def State.writeRingSize (s : State) (k size : Nat) : State :=
  let r := s.ring k
  if 32 ≤ k then s
  else
    let ok := size = 0 ∨ (6 ≤ size ∧ size ≤ 16)
    s.setRing k { r with
      size := if ok then size else r.size
      error := BitVec.ofNat 64 (putBit r.error.toNat 63 false) }

def execRingSizeWrite (ring size : Nat) (s : State) : Answer := .next (if s.ready then s.writeRingSize ring size else s)

/-! ## Mailbox (R452, R453) -/

/-- The lock is read (R452): a free lock is taken. Readers are 1 port 0, 2 port 1, 3 I3C. -/
def execMailboxLockRead (reader : Nat) (s : State) : Answer :=
  .next (if s.mailbox.owner = 0 ∧ 1 ≤ reader ∧ reader ≤ 3 then
    { s with mailbox := { s.mailbox with owner := reader } } else s)

/-- The owner writes 0 to the lock. -/
def State.releaseLock (s : State) (writer : Nat) : State :=
  if s.mailbox.owner = writer then { s with mailbox := { s.mailbox with owner := 0 } } else s

def execMailboxLockRelease (writer : Nat) (s : State) : Answer := .next (s.releaseLock writer)

/-- A field of the request. -/
def State.reqNat (s : State) (off n : Nat) : Nat := ofBytes (s.mailbox.request.readBytes n off)

/-- The command of the request. -/
def State.reqCmd (s : State) : Nat := bits (s.reqNat 0x100 8) 0 8

/-- A request ends with a status and a response. -/
def State.mailEnd (s : State) (status : Nat) (resp : List Byte) : State :=
  { s with mailbox := { s.mailbox with
      status := status, respLen := resp.length, response := Memory.writeBytes {} 0 resp } }

/-- A command runs when its request does (R452): in recovery all but ATTEST and CERTS are BAD (R454), and so is a
request word with bits beyond its command. -/
def onMail (cmd : Nat) (f : State → State) (s : State) : Answer :=
  .next (if s.mailbox.status != 3 || s.reqCmd != cmd then s
    else if s.recovery && cmd < 8 || s.reqNat 0x100 8 / 2 ^ 8 != 0 then s.mailEnd 1 [] else f s)

/-- SETROOT: the old root may serve walks until the ASID is invalidated. -/
def State.setRoot (s : State) : State :=
  let asid := s.reqNat 0x108 8
  let pa := s.reqNat 0x110 8
  if asid / 2 ^ 16 != 0 || pa / 2 ^ 52 != 0 || pa % 8192 != 0 || bits pa 50 2 != 0 || !isLocal pa then s.mailEnd 1 []
  else { s with
    roots := s.roots.set 0 asid pa
    oldRoots := s.oldRoots.set [] asid (s.roots.get 0 asid :: s.oldRoots.get [] asid) }.mailEnd 0 []

def execSetroot (s : State) : Answer := onMail 1 State.setRoot s

/-- The fields of tenant words (R323) that a registration must respect. -/
def tenantBad (td0 td1 td2 td3 : Nat) : Bool :=
  let isize := bits td0 19 7
  let dsize := bits td0 6 7
  let entryBad := fun (e : Nat) => e != 0xFFFF && (e % 2 != 0 || isize * 1024 ≤ e)
  bits td0 56 7 != 0 || bit td0 39 || bits td0 0 6 != 0 || 64 < bits td0 32 7 || isize = 0 || 64 < isize || dsize = 0 ||
  64 < dsize || 64 < bits td0 26 6 + isize || 64 < bits td0 13 6 + dsize ||
  [0, 16, 32, 48].any (fun i => entryBad (bits td1 i 16)) || bits td2 52 12 != 0 || bits td3 52 12 != 0 ||
  bits td3 20 12 != 0

/-- The words of a descriptor as a slice core holds them: reserved bits are zero (R3, R323). -/
def Tenant.words (td : Nat → Nat) : Tenant :=
  let zero := fun (l : List (Nat × Nat)) (x : Nat) => BitVec.ofNat 64 (l.foldl (fun a p => putBits a p.1 p.2 0) x)
  { td0 := zero [(56, 7), (39, 1), (0, 6)] (td 0), td1 := BitVec.ofNat 64 (td 1), td2 := zero [(52, 12)] (td 2)
    td3 := zero [(52, 12), (20, 12)] (td 3) }

/-- REGHANDLER (R322–R324): the image and the descriptor of a tenant in all 32 slice cores of a die. -/
def State.regHandler (s : State) (image : List Nat) : State :=
  let w := s.reqNat 0x108 8
  let die := bits w 0 5
  let t := bits w 8 3
  let td := fun (i : Nat) => s.reqNat (0x110 + 8 * i) 8
  let len := s.reqNat 0x138 8
  let words := Tenant.words td
  let put := fun (x : Tenant) (im dm : Slice → Memory) => (List.range 32).foldl (fun (a : State) i =>
    let k := die * 32 + i
    let c := a.slice k
    a.setSlice k { c with tenants := c.tenants.set {} t x, imem := im c, dmem := dm c }) s
  if s.mailbox.owner = 3 || w / 2 ^ 11 != 0 || bits w 5 3 != 0 || 24 ≤ die then s.mailEnd 1 []
  else if !bit (td 0) 63 then
    let s1 := (List.range 32).foldl (fun (a : State) i => a.dropTenant (die * 32 + i) t) s
    ((List.range 32).foldl (fun (a : State) i =>
      let k := die * 32 + i
      let c := a.slice k
      a.setSlice k { c with tenants := c.tenants.set {} t words }) s1).mailEnd 0 []
  else if tenantBad (td 0) (td 1) (td 2) (td 3) || len % 2 != 0 || bits (td 0) 19 7 * 1024 < len then s.mailEnd 1 []
  else
    let bs := (List.range len).map (fun i => BitVec.ofNat 8 (image.getD i 0))
    let ibase := bits (td 0) 26 6 * 1024
    let dbase := bits (td 0) 13 6 * 1024
    let first := !bit ((s.slice (die * 32)).tenants.get {} t).td0.toNat 63
    (put words (fun c => c.imem.writeBytes ibase bs)
      (fun c => if first then c.dmem.writeBytes dbase (List.replicate (bits (td 0) 6 7 * 1024) 0) else c.dmem)).mailEnd 0 []

def execReghandler (image : List Nat) (s : State) : Answer := onMail 2 (fun s => s.regHandler image) s

/-- What a job selector names (R453). -/
inductive Selected where
  | bad
  | busy
  | job (j : Nat)
  | entry (ring entry : Nat)

/-- A job that may still be bound: its first block has not been placed. -/
def State.selectJob (s : State) (j : Nat) : Selected :=
  if !(s.job j).live then .bad else if (s.job j).placed then .busy else .job j

def State.selected (s : State) (x : Nat) : Selected :=
  if !bit x 63 then (if x / 2 ^ 16 != 0 then .bad else s.selectJob x)
  else if bits x 21 42 != 0 then .bad
  else
    let ring := bits x 20 1 * 16 + bits x 16 4
    let j := s.ringJobs.get 0 (ring * 65536 + bits x 0 16)
    if j = 0 then .entry ring (bits x 0 16) else s.selectJob j

/-- BINDGROUP (R361, R453). -/
def State.bindGroup (s : State) : State :=
  let w := s.reqNat 0x110 8
  let n := bits w 24 8 + 1
  let g : Group :=
    { live := true, id := bits w 0 16, n := n, rank := bits w 16 8
      ids := (List.range n).map (fun i => s.reqNat (0x118 + i) 1)
      asids := (List.range n).map (fun i => s.reqNat (0x218 + 2 * i) 2) }
  if w / 2 ^ 32 != 0 || n ≤ g.rank then s.mailEnd 1 []
  else match s.selected (s.reqNat 0x108 8) with
  | .bad => s.mailEnd 1 []
  | .busy => s.mailEnd 2 []
  | .job j => { s with groups := s.groups.set {} j g }.mailEnd 0 []
  | .entry r e =>
    { s with held := { ring := r, entry := e, group := g, power := false } ::
               s.held.filter (fun h => !(h.ring == r && h.entry == e)) }.mailEnd 0 []

def execBindgroup (s : State) : Answer := onMail 3 State.bindGroup s

/-- BINDPOWER (R389, R453): of a group that is bound to the job. -/
def State.bindPower (s : State) : State :=
  let id := s.reqNat 0x110 8
  match s.selected (s.reqNat 0x108 8) with
  | .bad => s.mailEnd 1 []
  | .busy => s.mailEnd 2 []
  | .job j =>
    let g := s.groupOf j
    if g.live && g.id == id then { s with gov := { s.gov with group := some id } }.mailEnd 0 [] else s.mailEnd 1 []
  | .entry r e =>
    if s.held.any (fun h => h.ring == r && h.entry == e && h.group.id == id) then
      let mark := fun (h : HeldBinding) => if h.ring = r ∧ h.entry = e then { h with power := true } else h
      { s with held := s.held.map mark }.mailEnd 0 []
    else s.mailEnd 1 []

def execBindpower (s : State) : Answer := onMail 4 State.bindPower s

/-- SETSLEW (R387, R452). -/
def State.setSlew (s : State) : State :=
  let x := s.reqNat 0x108 8
  if x < 100 || 5000 < x then s.mailEnd 1 [] else { s with gov := { s.gov with slewDue := x } }.mailEnd 0 []

def execSetslew (s : State) : Answer := onMail 5 State.setSlew s

/-- SAVEPOOL (R422, R453). -/
def State.savePool (s : State) : State :=
  let die := s.reqNat 0x108 8
  let n := s.reqNat 0x110 8
  let pb := s.reqNat 0x118 8
  let vb := s.reqNat 0x120 8
  let last := pb + (n - 1)
  if 24 ≤ die || n % 65536 != 0 || pb % 65536 != 0 || vb % 65536 != 0 || pb / 2 ^ 52 != 0 || !isLocal pb || !isLocal last ||
     bits pb 50 2 != 0 || bits pb 36 6 != die || bits last 36 6 != die || windowBase < vb + n || windowBase ≤ vb then
    s.mailEnd 1 []
  else { s with savePools := s.savePools.set {} die { bytes := n, pbase := pb, vbase := vb } }.mailEnd 0 []

def execSavepool (s : State) : Answer := onMail 6 State.savePool s

/-- RETRAIN (R365): the host's retrain may widen the link. -/
def State.hostRetrain (s : State) : State :=
  let p := s.reqNat 0x108 8
  let x := s.ports.get {} p
  if 36 ≤ p then s.mailEnd 1 []
  else
    let y := { x with state := 1, widen := true, since := if x.state = 1 then x.since else s.time, retrains := Nat.min 255 (x.retrains + 1) }
    { s with ports := s.ports.set {} p y }.mailEnd 0 []

def execRetrain (s : State) : Answer := onMail 7 State.hostRetrain s

/-- The report of ATTEST over a nonce (R453), without its signature. -/
def State.attestReport (s : State) (nonce : List Byte) : List Byte :=
  nonce ++ (List.range 32).map Config.partByte ++ bytesOf 8 (Nat.min 16 s.measurements.length) ++
  ((s.measurements.take 16).map (bytesOf 64)).flatten ++
  (List.range 408).map (fun i => BitVec.ofNat 8 (s.phys.get 0 i))

def State.attest (s : State) : State :=
  let r := s.attestReport (s.mailbox.request.readBytes 32 0x108)
  s.mailEnd 0 (r ++ (List.range 29792).map (Config.attestByte r))

def execAttest (s : State) : Answer := onMail 8 State.attest s

/-- CERTS: up to 32 KiB of the chain. -/
def State.certs (s : State) : State :=
  let off := s.reqNat 0x108 8
  s.mailEnd 0 ((List.range (Nat.min 32768 (Config.certLength - off))).map (fun i => Config.certByte (off + i)))

def execCerts (s : State) : Answer := onMail 9 State.certs s

/-- A command that R452 does not list is BAD. -/
def execUnlistedMailboxCommand (s : State) : Answer :=
  .next (if s.mailbox.status = 3 && (s.reqCmd = 0 || 9 < s.reqCmd) then s.mailEnd 1 [] else s)

/-! ## Boot (R8, R430, R454) -/

/-- The physical core of a logical core at boot: the spare is left out, and stands in for one that failed. -/
def bootPhys (spare : Nat) (failed : List Nat) (die c : Nat) : Option Nat :=
  let p := if c < spare then c else c + 1
  let bad := fun (q : Nat) => failed.contains (die * 17 + q)
  if !bad p then some p
  else
    let first := (List.range 16).find? (fun d => bad (if d < spare then d else d + 1))
    if first = some c && spare < 17 && !bad spare then some spare else none

/-- Power-good (R454): the ROM verifies the firmware; a failure leaves the module in recovery. A supply that was lost is
reported now (R457). -/
def State.boot (s : State) (b : BootImage) : State :=
  let s1 := { s with powered := true, measurements := b.measurements, moduleId := b.moduleId % 256 }
  let spare := fun (d : Nat) => Nat.min 16 (b.spares.getD d 16)
  let at0 := fun (core : Nat) => bootPhys (spare (core / 16)) b.failed (core / 16) (core % 16)
  let status := fun (p : Nat) =>
    if b.failed.contains p then 3
    else if (List.range 16).any (fun c => at0 (p / 17 * 16 + c) == some (p % 17)) then 0 else 1
  let s2 := if b.verified then
      { s1 with
        ready := true
        coreMap := Table.tabulate 0 384 (fun core => match at0 core with
          | some p => 2 ^ 7 + p
          | none => 0)
        phys := Table.tabulate 0 408 status
        mccs := (List.range 96).foldl (fun (t : Table Mcc) k =>
          if b.failed.contains (408 + k) then t.set {} k { s1.mcc k with failed := true } else t) s1.mccs }
    else { s1 with recovery := true }
  if s2.gov.supplyLost then
    { s2 with gov := { s2.gov with supplyLost := false } }.emergency 0xFF 7 s2.gov.input else s2

def execPowerGood (b : BootImage) (s : State) : Answer :=
  .next (if s.ready || s.recovery then s else s.boot b)

/-! ## The debug window (R415, R448) -/

/-- The selector of a port. -/
def State.selector (s : State) (port : Nat) : Nat := s.selectors.get 0 port

/-- The warp that a port's selector names, if it is resident. -/
def State.viewWarp (s : State) (port : Nat) : Option Nat :=
  let x := s.selector port
  let core := bits x 0 5 * 16 + bits x 6 4
  match s.blocks.cells.find? (fun c => c.2.st == .placed && c.2.core == core && c.2.resSlot == bits x 10 5) with
  | some (_, b) => match b.warps[bits x 15 5]? with
    | some w => if bits x 0 5 < 24 && (s.warp w).live && (s.warp w).yielded == .no then some w else none
    | none => none
  | none => none

/-- The MCC that a port's selector names. -/
def State.viewMcc (s : State) (port : Nat) : Nat := bits (s.selector port) 0 5 * 4 + bits (s.selector port) 25 2

/-- The result of a warp command: 0 done, 1 refused, 2 in progress. -/
def State.warpResult (s : State) (port r : Nat) : State :=
  { s with views := s.views.set {} port { s.views.get {} port with warp := r } }
def State.mccResult (s : State) (port r : Nat) : State :=
  { s with views := s.views.set {} port { s.views.get {} port with mcc := r } }

/-- A command to a warp view; refused where no warp is, or where the command does not apply. -/
def State.onView (s : State) (port : Nat) (f : Nat → Option (State × Nat)) : State :=
  match s.viewWarp port with
  | none => s.warpResult port 1
  | some w => match f w with
    | none => s.warpResult port 1
    | some (t, r) => t.warpResult port r

/-- The status word of a warp view (R448): zero where no resident warp is named. A HALT is in progress until the warp
has halted. -/
def State.warpStatus (s : State) (port : Nat) : Nat :=
  match s.viewWarp port with
  | none => 0
  | some w =>
    let wp := s.warp w
    let r := (s.views.get {} port).warp
    (if r = 2 && wp.halted then 0 else r) + b2n wp.halted * 2 ^ 8 + 2 ^ 9 + b2n (wp.mode != .normal) * 2 ^ 10 + 2 ^ 11

/-- HALT: at the next head, with cause 0x008. -/
def State.viewHalt (s : State) (port : Nat) : State :=
  s.onView port (fun w =>
    let wp := s.warp w
    if wp.halted || wp.allExited then none else some (s.setWarp w (wp.haltLater { cause := 0x008 }), 2))

def execDebugHalt (port : Nat) (s : State) : Answer := .next (if s.ready then s.viewHalt port else s)

/-- RESUME (R415): outside a handler as RETT; inside one, at the chain head, where a thread that was parked executes its
waiting instruction again (R414). A delivery that waits stays due. -/
def State.viewResume (s : State) (port : Nat) : State :=
  s.onView port (fun w =>
    let wp := s.warp w
    if !wp.halted || wp.dead || wp.reportDue then none
    else if wp.mode = .normal then
      let s1 := s.restoreWarp w
      some (s1.setWarp w { s1.warp w with preempt := wp.preempt, deadline := wp.deadline }, 0)
    else
      let w1 := wp.mapLanes (ones 32) (fun _ la => { la with st := la.st.restored, wait := {} })
      some ((s.setWarp w { w1 with halted := false, cause := 0, selDue := true }).reissue w, 0))

def execDebugResume (port : Nat) (s : State) : Answer := .next (if s.ready then s.viewResume port else s)

def State.viewKill (s : State) (port : Nat) : State := s.onView port (fun w => some (s.killWarp w, 0))

def execDebugKill (port : Nat) (s : State) : Answer := .next (if s.ready then s.viewKill port else s)

/-- RELAUNCH (R281, R415): of a relaunchable block. -/
def State.viewRelaunch (s : State) (port : Nat) : State :=
  s.onView port (fun w =>
    let b := (s.warp w).block
    if (s.block b).rcd.rl && !(s.block b).again then some (s.askRelaunch b, 0) else none)

def execDebugRelaunch (port : Nat) (s : State) : Answer := .next (if s.ready then s.viewRelaunch port else s)

/-- A command to an MCC view. -/
def State.onMccView (s : State) (port : Nat) (f : Nat → Nat → Option State) : State :=
  let k := s.viewMcc port
  match (s.mcc k).gang with
  | none => s.mccResult port 1
  | some g => match f k g with
    | none => s.mccResult port 1
    | some t => t.mccResult port 0

/-- The host resumes a halted MCC at the PC in the view (R287, R448); not where RETT would not resume (R306). -/
def State.viewMccResume (s : State) (port : Nat) : State :=
  s.onMccView port (fun k g =>
    let m := s.mcc k
    if !m.halted || m.dead || (s.gang g).blocks.any (fun b => (s.block b).warps.any (fun w => (s.warp w).dead)) then none
    else some (s.setMcc k { m with halted := false, cause := 0, xfer := none }))

def execMccResume (port : Nat) (s : State) : Answer := .next (if s.ready then s.viewMccResume port else s)

/-- The host kills the instance (R287). -/
def State.viewMccKill (s : State) (port : Nat) : State :=
  s.onMccView port (fun k g =>
    let s1 := (s.gang g).blocks.foldl State.killBlock s
    let s2 := s1.dropMccWait k
    some (s2.setMcc k { s2.mcc k with exited := true, halted := false, inWait := none }))

def execMccKill (port : Nat) (s : State) : Answer := .next (if s.ready then s.viewMccKill port else s)

/-- A TLB invalidation of the host, for the ASID in its port's selector (R421, R448). A command that R421 makes illegal
does nothing. -/
def State.viewTlbinv (s : State) (port command : Nat) : State :=
  if tlbinvOk (command % 2 ^ 64) then s.tlbinv (bits (s.selector port) 48 16) (command % 2 ^ 64) else s

def execDebugTlbInvalidation (port command : Nat) (s : State) : Answer :=
  .next (if s.ready then s.viewTlbinv port command else s)

/-- The first offset of the replay slots in a frame. -/
def replayOff : Nat := 0x2F40 - 4 * 2368

/-- Bits of a byte of the frame that RETT takes from memory (R423, R437), and so the host may write while the warp is
halted. -/
def frameWritable (off : Nat) : Nat :=
  if (0x040 ≤ off ∧ off < 0x140) ∨ (0x160 ≤ off ∧ off < 0x19C) ∨ (0x1A0 ≤ off ∧ off < 0x3F8) ∨ (0x400 ≤ off ∧ off < 0x520)
    then 0xFF
  else if 0x140 ≤ off ∧ off < 0x160 then 0x40
  else if replayOff ≤ off ∧ 32 ≤ (off - replayOff) % 2368 ∧ (off - replayOff) % 2368 < 64 ∧ off < 0x2F40 then 0xFF
  else 0

/-- The element that a done bit of a replay slot names: 8 bytes of a block transfer, or a lane. -/
def Op.slotBit (o : Op) (e : Elem) : Nat :=
  match o.i with
  | .ldb _ | .stb _ => (e.addr - o.args.headD 0) / 8
  | _ => 8 * e.lane

/-- Done masks of a warp's replay slots as its frame holds them (R232): an element whose bit is set is not reissued, and
one whose bit the host has cleared is. Loads have no done mask. -/
def State.takeDone (s : State) (w : Nat) : State :=
  let wp := s.warp w
  let base := (s.block wp.block).framePa wp.index + replayOff
  (List.range 4).foldl (fun (a : State) i => match a.slotOp wp i with
    | none => a
    | some k =>
      let o := a.op k
      let mask := ofBytes (a.mem.readBytes 32 (base + 2368 * i + 32))
      if o.i.isLoad then a
      else a.setOp k { o with elems := o.elems.map (fun (x : Elem) => { x with done := bit mask (o.slotBit x) }) }) s

/-- The host writes bytes of a warp view (R448): the frame or a register, while the warp is halted. -/
def State.writeView (s : State) (w off size data : Nat) : State :=
  let wp := s.warp w
  let b := s.block wp.block
  let put := fun (x : Word) => BitVec.ofNat 64 (putBits x.toNat (8 * (off % 8)) (8 * size) data)
  if !wp.halted then s
  else if 0x1000 ≤ off && off < 0x5000 then
    let base := b.framePa wp.index
    ((List.range size).foldl (fun (a : State) i =>
      let o := off - 0x1000 + i
      let m := frameWritable o
      let old := (a.mem.read (base + o)).toNat
      if m = 0 then a
      else a.hardWrite b.core (base + o) [BitVec.ofNat 8 ((old &&& (255 - m)) + (bits data (8 * i) 8 &&& m))]) s).takeDone w
  else if 0x8000 ≤ off && off < 0x8400 then
    let n := (off - 0x8000) / 8
    if n < wp.sb then s.setWarp w (wp.wrS n (put (wp.rdS n))) else s
  else if 0x40000 ≤ off && off < 0x80000 then
    let n := (off - 0x40000) / 256
    let l := (off - 0x40000) % 256 / 8
    if n < wp.vb then s.setWarp w (wp.wrV n l (put (wp.rdV n l))) else s
  else s

/-- The host writes bytes of an MCC view: PC and s1–s127 while the MCC is halted. -/
def State.writeMccView (s : State) (k off size data : Nat) : State :=
  let m := s.mcc k
  let n := (off - 0x1010) / 8
  if !m.halted then s
  else if 0x1000 ≤ off && off < 0x1008 then
    s.setMcc k { m with pc := putBits m.pc (8 * (off % 8)) (8 * size) data }
  else if 0x1010 ≤ off && off < 0x1410 then
    s.setMcc k (m.wrS n (BitVec.ofNat 64 (putBits (m.rdS n).toNat (8 * (off % 8)) (8 * size) data)))
  else s

/-- The host writes 1 to V or ovf of a copy fault log entry (R256). -/
def State.clearLog (s : State) (core i w1c : Nat) : State :=
  let log := s.copyLogs.get [] core
  let e := log.getD i {}
  let x := e.word0.toNat
  let y := putBit (putBit x 63 (bit x 63 && !bit w1c 63)) 24 (bit x 24 && !bit w1c 24)
  { s with copyLogs := s.copyLogs.set [] core (log.set i { e with word0 := BitVec.ofNat 64 y }) }

/-- A host write to the debug window. -/
def State.writeDebug (s : State) (port off size data : Nat) : State :=
  let x := s.selector port
  if off < 8 then
    let y := putBits x (8 * (off % 8)) (8 * size) data
    { s with selectors := s.selectors.set 0 port (putBits (putBits y 27 21 0) 5 1 0) }
  else if off = 8 && size = 8 then s.viewTlbinv port data
  else if 0x13000 ≤ off && off < 0x13100 && off % 32 < 8 then
    s.clearLog (bits x 0 5 * 16 + bits x 6 4) ((off - 0x13000) / 32) (data % 2 ^ (8 * size) * 2 ^ (8 * (off % 8)))
  else if off = 0x100000 then
    match data with
    | 1 => s.viewHalt port
    | 2 => s.viewResume port
    | 3 => s.viewKill port
    | 4 => s.viewRelaunch port
    | _ => s.warpResult port 1
  else if 0x100000 < off && off < 0x200000 then
    match s.viewWarp port with
    | some w => s.writeView w (off - 0x100000) size data
    | none => s
  else if off = 0x200000 then
    match data with
    | 2 => s.viewMccResume port
    | 3 => s.viewMccKill port
    | _ => s.mccResult port 1
  else if 0x200000 < off && off < 0x300000 then s.writeMccView (s.viewMcc port) (off - 0x200000) size data
  else s

/-- A host write to a ring's registers (R449). -/
def State.writeRing (s : State) (k off size data : Nat) : State :=
  let r := s.ring k
  let put := fun (x : Nat) => putBits x (8 * (off % 8)) (8 * size) data
  match off / 8 with
  | 0 => s.setRing k { r with base := put r.base }
  | 1 => s.writeRingSize k (put r.size)
  | 3 => s.setRing k { r with tail := put r.tail % 2 ^ 16 }
  | 4 => s.setRing k { r with asid := put r.asid % 2 ^ 16 }
  | _ => s

/-- A write to the mailbox (R452): from its owner only. -/
def State.writeMail (s : State) (writer off size data : Nat) : State :=
  let m := s.mailbox
  if m.owner != writer then s
  else if off = 0 then (if data = 0 then s.releaseLock writer else s)
  else if off = 8 then (if data = 1 ∧ m.status != 3 then { s with mailbox := { m with status := 3 } } else s)
  else if 0x100 ≤ off && off + size ≤ 0x8000 then
    { s with mailbox := { m with request := m.request.writeBytes off (bytesOf size data) } }
  else s

/-- A host write to a port's BAR0 (R447): 4 or 8 bytes, aligned. Port 2 stands for the I3C target, which reaches the
mailbox only. In recovery only the mailbox responds (R454). -/
def State.writeBar (s : State) (port off size data0 : Nat) : State :=
  let data := data0 % 2 ^ (8 * size)
  if (size != 4 && size != 8) || off % size != 0 || 3 ≤ port then s
  else if 0x100000 ≤ off && off < 0x110000 then s.writeMail (port + 1) (off - 0x100000) size data
  else if !s.ready || port = 2 then s
  else if 0x200000 ≤ off && off < 0x210000 then
    s.writeRing (port * 16 + (off - 0x200000) / 4096) (off % 4096) size data
  else if 0x1000000 ≤ off && off < 0x2000000 then s.writeDebug port (off - 0x1000000) size data
  else s

def execRegisterWrite (port offset size data : Nat) (s : State) : Answer := .next (s.writeBar port offset size data)

/-! ## MCTP over I3C (R456) -/

/-- The module answers an MCTP control message; the spec names the protocol and gives no bytes. -/
def execMctpControlMessage (msg : List Nat) (s : State) : Answer := .next { s with i3c := Config.mctpAnswer msg }

/-- A sensor read: RAMPQ's word, the input voltage in half millivolts and current, and the coolant temperatures. -/
def execMctpSensorRead (sel current coolant : Nat) (s : State) : Answer :=
  .next { s with i3c := [s.gov.word (sel % 3), s.gov.input, current, coolant] }

end Sys2Proof.Machine
end

