-- ==== Sys2Proof/Machine/Rearrange.lean ====
section
/-!
DEFINITION. Rearrangement and cross-lane instructions of class 0x4 (spec/08 R177–R189).
-/
namespace Sys2Proof.Machine

/-- Elem(v, j) by linear index (R177), with `wd` the element width. -/
def Warp.elem (wp : Warp) (o : Opnd) (wd j : Nat) : Nat :=
  let n := 64 / wd
  subOf (wp.opndV o (j / n)) wd (j % n)

/-- An element by its address, or 0 where the address names none (R182). -/
def Warp.elemAt (wp : Warp) (o : Opnd) (wd e : Nat) : Nat :=
  if e % 8 < 64 / wd then subOf (wp.opndV o (e / 8)) wd (e % 8) else 0

/-- An instruction whose elements are each picked from the sources. -/
def pickElem (f : Warp → Nat → Nat → Nat) (wp : Warp) : ElemFn := fun l k _ rg => { val := f wp l k, rng := rg }

def pickVec (x : Alu) (elig : Bool) (wd : Nat) (f : Warp → Nat → Nat → Nat) (w : Nat) (s : State) : Res :=
  vecOp x elig wd (pickElem f) w s

/-- A scalar amount (R183). -/
def Warp.amount (wp : Warp) (b : SrcB) : Int :=
  match b with
  | .opnd o | .bcast o => (wp.opndS o).toInt
  | .imm i => i.val

/-- An element by linear index, with the element count N of the register. -/
def linPick (x : Alu) (f : Warp → Nat → Nat → Nat → Nat) (wp : Warp) (l k : Nat) : Nat :=
  let wd := intWidth x.fmt
  f wp wd (32 * (64 / wd)) (64 / wd * l + k)

def pickLin (x : Alu) (f : Warp → Nat → Nat → Nat → Nat) (w : Nat) (s : State) : Res :=
  pickVec x true (intWidth x.fmt) (linPick x f) w s

def xgetPick (x : Alu) (wp : Warp) (l k : Nat) : Nat :=
  wp.elemAt x.a (intWidth x.fmt) (wp.srcB x.b (fun _ => 0) (intWidth x.fmt) l k % 256)

def execXget (x : Alu) (s : State) : Answer := onWarp (.xget x) (pickVec x false (intWidth x.fmt) (xgetPick x)) s

def xbcastPick (x : Alu) (wp : Warp) (_l _k : Nat) : Nat :=
  wp.elemAt x.a (intWidth x.fmt) (pattern 64 (wp.amount x.b) % 256)

def execXbcast (x : Alu) (s : State) : Answer := onWarp (.xbcast x) (pickVec x true (intWidth x.fmt) (xbcastPick x)) s

/-- XPUT (R182): the source with the highest element address wins. -/
def xputVec (x : Alu) (w : Nat) (s : State) : Res :=
  let wp := s.warp w
  let wd := intWidth x.fmt
  let n := 64 / wd
  let puts := ((List.range 256).filter (fun i => i % 8 < n && wp.enabled x.g x.vx.m (i / 8) (i % 8))).map (fun i =>
    (wp.srcB x.b (fun _ => 0) wd (i / 8) (i % 8) % 256, subOf (wp.opndV x.a (i / 8)) wd (i % 8)))
  let last := fun t => (puts.reverse.find? (fun (e : Nat × Nat) => e.1 == t)).map (·.2)
  let outs : List LaneOut := lanes32.map (fun l =>
    { val := BitVec.ofNat 64 ((List.range n).foldl (fun v k =>
        match last (8 * l + k) with
        | some e => putBits v (wd * k) wd e
        | none => if x.vx.z then putBits v (wd * k) wd 0 else v) (wp.rdV x.d l).toNat)
      rng := (wp.lane l).rng })
  finishVec x false outs w s

def execXput (x : Alu) (s : State) : Answer := onWarp (.xput x) (xputVec x) s

def xrotPick (x : Alu) (wp : Warp) (wd n j : Nat) : Nat := wp.elem x.a wd (((j : Int) - wp.amount x.b) % (n : Int)).toNat

def execXrot (x : Alu) (s : State) : Answer := onWarp (.xrot x) (pickLin x (xrotPick x)) s

def xshiftPick (x : Alu) (wp : Warp) (wd n j : Nat) : Nat :=
  let i := (j : Int) - wp.amount x.b
  if 0 ≤ i ∧ i < n then wp.elem x.a wd i.toNat else 0

def execXshift (x : Alu) (s : State) : Answer := onWarp (.xshift x) (pickLin x (xshiftPick x)) s

/-- Source b as a vector register or latch. -/
def SrcBvec (b : SrcB) : Opnd :=
  match b with
  | .opnd o => o
  | _ => .reg 0

def xalignPick (x : Alu) (wp : Warp) (wd n j : Nat) : Nat :=
  if x.cNum ≤ j then wp.elem x.a wd (j - x.cNum) else wp.elem (SrcBvec x.b) wd (n + j - x.cNum)

def execXalign (x : Alu) (s : State) : Answer := onWarp (.xalign x) (pickLin x (xalignPick x)) s

def xrevPick (x : Alu) (wp : Warp) (wd _n j : Nat) : Nat := wp.elem x.a wd (j ^^^ (2 ^ x.cNum - 1))

def execXrev (x : Alu) (s : State) : Answer := onWarp (.xrev x) (pickLin x (xrevPick x)) s

def xzipPick (x : Alu) (wp : Warp) (wd n j : Nat) : Nat :=
  wp.elem (if j % 2 = 0 then x.a else SrcBvec x.b) wd (x.cNum * (n / 2) + j / 2)

def execXzip (x : Alu) (s : State) : Answer := onWarp (.xzip x) (pickLin x (xzipPick x)) s

def xunzipPick (x : Alu) (wp : Warp) (wd n j : Nat) : Nat :=
  let i := 2 * j + x.cNum
  if i < n then wp.elem x.a wd i else wp.elem (SrcBvec x.b) wd (i - n)

def execXunzip (x : Alu) (s : State) : Answer := onWarp (.xunzip x) (pickLin x (xunzipPick x)) s

def qswapPick (x : Alu) (wp : Warp) (l k : Nat) : Nat := subOf (wp.opndV x.a (l ^^^ x.cNum)) (intWidth x.fmt) k

def execQswap (x : Alu) (s : State) : Answer := onWarp (.qswap x) (pickVec x true (intWidth x.fmt) (qswapPick x)) s

def qbcastPick (x : Alu) (wp : Warp) (l k : Nat) : Nat := subOf (wp.opndV x.a (4 * (l / 4) + x.cNum)) (intWidth x.fmt) k

def execQbcast (x : Alu) (s : State) : Answer := onWarp (.qbcast x) (pickVec x true (intWidth x.fmt) (qbcastPick x)) s

/-! ## Tables (R185, R186) -/

/-- Register `a + i` of a table; a latch holds a table of one register. -/
def tableReg (a : Opnd) (i : Nat) : Opnd :=
  match a with
  | .reg n => .reg (n + i)
  | o => o

def permtPick (x : Alu) (wp : Warp) (l k : Nat) : Nat :=
  let i := subOf (wp.opndV (SrcBvec x.b) l) 8 k
  if i < 8 * 2 ^ bits x.cNum 8 2 then subOf (wp.opndV (tableReg x.a (i / 8)) l) 8 (i % 8) else bits x.cNum 0 8

def execPermt (x : Alu) (s : State) : Answer := onWarp (.permt x) (pickVec x true 8 (permtPick x)) s

def permbPick (x : Alu) (wp : Warp) (l k : Nat) : Nat :=
  let i := subOf (wp.opndV (SrcBvec x.b) l) 8 k
  subOf (wp.opndV x.a (i / 8)) 8 (i % 8)

def execPermb (x : Alu) (s : State) : Answer := onWarp (.permb x) (pickVec x true 8 (permbPick x)) s

/-! ## Scans and reductions (R187, R188) -/

/-- The format of a scan, its float bit and its operation. -/
def scanWidth (x : Alu) : Nat := if bit x.cNum 4 then floatWidth x.fmt else intWidth x.fmt

/-- Id (R188), as a pattern. -/
def scanId (x : Alu) : Nat :=
  let op := x.cNum % 16
  if bit x.cNum 4 then
    let f := fmtOf x.fmt
    match op with
    | 0 => 0
    | 1 => f.infPat
    | _ => f.signBit + f.infPat
  else
    match op with
    | 1 => wrapPat x.fmt (intMax x.fmt)
    | 2 => wrapPat x.fmt (intMin x.fmt)
    | 3 => ones (intWidth x.fmt)
    | _ => 0

/-- Step (R188), with the flags and generator of the lane that holds the element. -/
def scanStep (x : Alu) (acc p : Nat) (ff rg : BitVec 32) : ElemOut :=
  let op := x.cNum % 16
  let plain := fun (r : Nat × Flags) => ({ val := r.1, fl := r.2, rng := rg } : ElemOut)
  if bit x.cNum 4 then
    let f := fmtOf x.fmt
    match op with
    | 0 => floatElem f opAdd 2 acc p 0 x.vx.rm ff rg
    | 1 => plain (minMaxPat f false acc p)
    | _ => plain (minMaxPat f true acc p)
  else
    match op with
    | 0 => plain (satFn exactAdd x.fmt acc p 0 x.vx.sat)
    | 1 => plain (wrapFn exactMin x.fmt acc p 0 false)
    | 2 => plain (wrapFn exactMax x.fmt acc p 0 false)
    | 3 => plain (wrapFn patAnd x.fmt acc p 0 false)
    | 4 => plain (wrapFn patOr x.fmt acc p 0 false)
    | _ => plain (wrapFn patXor x.fmt acc p 0 false)

/-- The first element as it enters acc (R188). -/
def scanFirst (x : Alu) (p : Nat) (rg : BitVec 32) : ElemOut :=
  if bit x.cNum 4 then
    let v := (fmtOf x.fmt).decode p
    if v.isNan then { val := (fmtOf x.fmt).nanPat.getD 0, fl := { invalid := v.isSig }, rng := rg }
    else { val := p, rng := rg }
  else { val := p, rng := rg }

/-- The elements of one lane, from the acc that the lanes below leave: the acc after it, and the lane's outcome. -/
def scanLane (wp : Warp) (x : Alu) (wd : Nat) (acc0 : Option Nat) (l : Nat) : Option Nat × LaneOut :=
  let la := wp.lane l
  let r := (List.range (64 / wd)).foldl (fun (a : Option Nat × Nat × Flags × BitVec 32) k =>
    let (acc, v, fl, rg) := a
    let en := wp.enabled x.g x.vx.m l k
    let pre := acc.getD (scanId x)
    let p := subOf (wp.opndV x.a l) wd k
    let e : ElemOut := match acc with
      | none => scanFirst x p rg
      | some c => scanStep x c p la.fflags rg
    let (acc', fl', rg') := if en && !wp.isHelper l then (some e.val, fl.or e.fl, e.rng) else (acc, fl, rg)
    let out := if bit x.cNum 5 then pre else acc'.getD (scanId x)
    let v' := if en then putBits v (wd * k) wd out else if x.vx.z then putBits v (wd * k) wd 0 else v
    (acc', v', fl', rg')) (acc0, (wp.rdV x.d l).toNat, {}, la.rng)
  (r.1, { val := BitVec.ofNat 64 r.2.1, fl := r.2.2.1, rng := r.2.2.2 })

/-- All lanes in ascending order: the final acc and the lanes' outcomes. -/
def scanRun (wp : Warp) (x : Alu) : Option Nat × List LaneOut :=
  let wd := scanWidth x
  lanes32.foldl (fun (a : Option Nat × List LaneOut) l =>
    let r := scanLane wp x wd a.1 l
    (r.1, a.2 ++ [r.2])) (none, [])

def execScan (x : Alu) (s : State) : Answer :=
  onWarp (.scan x) (fun w s => finishVec x false (scanRun (s.warp w) x).2 w s) s

/-- REDUCE's result as s[d] holds it. -/
def reduceWord (x : Alu) (acc : Option Nat) : Word :=
  let p := acc.getD (scanId x)
  if bit x.cNum 4 then BitVec.ofNat 64 p else extendTo64 x.fmt p

def reduceBody (x : Alu) : Nat → State → Res :=
  uniform x.g (fun w s =>
    let wp := s.warp w
    let r := scanRun wp x
    match (if s.defers w then none else vecFault wp r.2) with
    | some (c, l) => .trap { cause := c, lane := l } (s.setWarp w (wp.takeFlags r.2 false))
    | none => .ok (s.setWarp w ((wp.takeFlags r.2 true).wrS x.d (reduceWord x r.1))))

def execReduce (x : Alu) (s : State) : Answer := onWarp (.reduce x) (reduceBody x) s

/-! ## Votes (R189) -/

/-- Threads counted for a predicate source. -/
def Warp.countedP (wp : Warp) (x : Alu) : List Nat :=
  lanes32.filter (fun l => wp.enabled x.g x.vx.m l 0 && !wp.isHelper l)

/-- Bits counted for a mask source. -/
def Warp.countedM (wp : Warp) (x : Alu) : List Nat :=
  (List.range 256).filter (fun i => wp.enabled x.g x.vx.m (i / 8) (i % 8) && !wp.isHelper (i / 8))

/-- The counted places whose source bit is 1. -/
def Warp.votes (wp : Warp) (x : Alu) : List Nat :=
  if bit x.cNum 0 then (wp.countedM x).filter (bit (wp.rdM x.aNum).toNat)
  else (wp.countedP x).filter (bit (wp.rdP x.aNum).toNat)

/-- A warp-uniform write of s[d]. -/
def toScalar (x : Alu) (f : Warp → Nat) : Nat → State → Res :=
  uniform x.g (fun w s => .ok (s.setWarp w ((s.warp w).wrS x.d (BitVec.ofNat 64 (f (s.warp w))))))

def execBallot (x : Alu) (s : State) : Answer :=
  onWarp (.ballot x) (toScalar x (fun wp =>
    maskOf ((wp.countedP x).filter (bit (wp.rdP x.aNum).toNat)))) s

def execFirst (x : Alu) (s : State) : Answer :=
  onWarp (.first x) (toScalar x (fun wp => (wp.votes x).head?.getD (if bit x.cNum 0 then 256 else 32))) s

def execPopcp (x : Alu) (s : State) : Answer :=
  onWarp (.popcp x) (toScalar x (fun wp => (wp.votes x).length)) s

/-- VOTE's value: all, any, or uniform. -/
def voteValue (kind : Nat) (l : List Bool) : Bool :=
  match kind with
  | 0 => l.all id
  | 1 => l.any id
  | _ => l.all id || l.all (!·)

def execVote (x : Alu) (s : State) : Answer :=
  onWarp (.vote x) (fun w s =>
    let wp := s.warp w
    let v := voteValue (x.cNum % 4) ((wp.countedP x).map (bit (wp.rdP x.aNum).toNat))
    let act := wp.active x.g
    let old := (wp.rdP x.d).toNat
    .ok (s.setWarp w (wp.wrP x.d (BitVec.ofNat 32 (maskWhere 32 (fun l => if bit act l then v else bit old l)))))) s

end Sys2Proof.Machine
end

