-- ==== Sys2Proof/Machine/Dispatch.lean ====
section
/-!
DEFINITION. The dispatch: one arm per instruction or event, each one call of its meaning.
-/
namespace Sys2Proof.Machine

def exec (i : Instr) (s : State) : Host.Outcome State Fault Refusal :=
  match i with
  | .add vec x => Sys2Proof.Machine.execAdd vec x s
  | .sub vec x => Sys2Proof.Machine.execSub vec x s
  | .mul vec x => Sys2Proof.Machine.execMul vec x s
  | .mulh vec x => Sys2Proof.Machine.execMulh vec x s
  | .mad vec x => Sys2Proof.Machine.execMad vec x s
  | .madw vec x => Sys2Proof.Machine.execMadw vec x s
  | .div vec x => Sys2Proof.Machine.execDiv vec x s
  | .rem vec x => Sys2Proof.Machine.execRem vec x s
  | .min vec x => Sys2Proof.Machine.execMin vec x s
  | .max vec x => Sys2Proof.Machine.execMax vec x s
  | .abs vec x => Sys2Proof.Machine.execAbs vec x s
  | .and vec x => Sys2Proof.Machine.execAnd vec x s
  | .or vec x => Sys2Proof.Machine.execOr vec x s
  | .xor vec x => Sys2Proof.Machine.execXor vec x s
  | .andn vec x => Sys2Proof.Machine.execAndn vec x s
  | .shl vec x => Sys2Proof.Machine.execShl vec x s
  | .shr vec x => Sys2Proof.Machine.execShr vec x s
  | .sar vec x => Sys2Proof.Machine.execSar vec x s
  | .rot vec x => Sys2Proof.Machine.execRot vec x s
  | .clz vec x => Sys2Proof.Machine.execClz vec x s
  | .popc vec x => Sys2Proof.Machine.execPopc vec x s
  | .brev vec x => Sys2Proof.Machine.execBrev vec x s
  | .bfx vec x => Sys2Proof.Machine.execBfx vec x s
  | .bfi vec x => Sys2Proof.Machine.execBfi vec x s
  | .sel vec x => Sys2Proof.Machine.execSel vec x s
  | .cmp vec x => Sys2Proof.Machine.execCmp vec x s
  | .mov vec x => Sys2Proof.Machine.execMov vec x s
  | .movi vec x => Sys2Proof.Machine.execMovi vec x s
  | .lea vec x => Sys2Proof.Machine.execLea vec x s
  | .sad vec x => Sys2Proof.Machine.execSad vec x s
  | .fadd x => Sys2Proof.Machine.execFadd x s
  | .fsub x => Sys2Proof.Machine.execFsub x s
  | .fmul x => Sys2Proof.Machine.execFmul x s
  | .ffma x => Sys2Proof.Machine.execFfma x s
  | .fmin x => Sys2Proof.Machine.execFmin x s
  | .fmax x => Sys2Proof.Machine.execFmax x s
  | .fabs x => Sys2Proof.Machine.execFabs x s
  | .fneg x => Sys2Proof.Machine.execFneg x s
  | .fcmp x => Sys2Proof.Machine.execFcmp x s
  | .fclass x => Sys2Proof.Machine.execFclass x s
  | .frnd x => Sys2Proof.Machine.execFrnd x s
  | .fdot2 x => Sys2Proof.Machine.execFdot2 x s
  | .fdot4 x => Sys2Proof.Machine.execFdot4 x s
  | .fscale x => Sys2Proof.Machine.execFscale x s
  | .fdiv x => Sys2Proof.Machine.execFdiv x s
  | .fsqrt x => Sys2Proof.Machine.execFsqrt x s
  | .frcp x => Sys2Proof.Machine.execFrcp x s
  | .frsq x => Sys2Proof.Machine.execFrsq x s
  | .fexp2 x => Sys2Proof.Machine.execFexp2 x s
  | .flog2 x => Sys2Proof.Machine.execFlog2 x s
  | .fsin x => Sys2Proof.Machine.execFsin x s
  | .fcos x => Sys2Proof.Machine.execFcos x s
  | .ftanh x => Sys2Proof.Machine.execFtanh x s
  | .cvt x => Sys2Proof.Machine.execCvt x s
  | .cvtbPack x => Sys2Proof.Machine.execCvtbPack x s
  | .cvtbUnpack x => Sys2Proof.Machine.execCvtbUnpack x s
  | .xget x => Sys2Proof.Machine.execXget x s
  | .xput x => Sys2Proof.Machine.execXput x s
  | .xbcast x => Sys2Proof.Machine.execXbcast x s
  | .xrot x => Sys2Proof.Machine.execXrot x s
  | .xshift x => Sys2Proof.Machine.execXshift x s
  | .xalign x => Sys2Proof.Machine.execXalign x s
  | .xrev x => Sys2Proof.Machine.execXrev x s
  | .xzip x => Sys2Proof.Machine.execXzip x s
  | .xunzip x => Sys2Proof.Machine.execXunzip x s
  | .qswap x => Sys2Proof.Machine.execQswap x s
  | .qbcast x => Sys2Proof.Machine.execQbcast x s
  | .permt x => Sys2Proof.Machine.execPermt x s
  | .permb x => Sys2Proof.Machine.execPermb x s
  | .scan x => Sys2Proof.Machine.execScan x s
  | .reduce x => Sys2Proof.Machine.execReduce x s
  | .ballot x => Sys2Proof.Machine.execBallot x s
  | .vote x => Sys2Proof.Machine.execVote x s
  | .first x => Sys2Proof.Machine.execFirst x s
  | .popcp x => Sys2Proof.Machine.execPopcp x s
  | .br x => Sys2Proof.Machine.execBr x s
  | .bru x => Sys2Proof.Machine.execBru x s
  | .brp x => Sys2Proof.Machine.execBrp x s
  | .brx x => Sys2Proof.Machine.execBrx x s
  | .call x => Sys2Proof.Machine.execCall x s
  | .ret x => Sys2Proof.Machine.execRet x s
  | .join x => Sys2Proof.Machine.execJoin x s
  | .exit x => Sys2Proof.Machine.execExit x s
  | .yield x => Sys2Proof.Machine.execYield x s
  | .nop x => Sys2Proof.Machine.execNop x s
  | .plop d a b c tt g => Sys2Proof.Machine.execPlop d a b c tt g s
  | .pmov x => Sys2Proof.Machine.execPmov x s
  | .pWord a b => Sys2Proof.Machine.execPWord a b s
  | .ld x => Sys2Proof.Machine.execLd x s
  | .st x => Sys2Proof.Machine.execSt x s
  | .ldu x => Sys2Proof.Machine.execLdu x s
  | .stu x => Sys2Proof.Machine.execStu x s
  | .ldb x => Sys2Proof.Machine.execLdb x s
  | .stb x => Sys2Proof.Machine.execStb x s
  | .pf x => Sys2Proof.Machine.execPf x s
  | .icinv x => Sys2Proof.Machine.execIcinv x s
  | .strq x => Sys2Proof.Machine.execStrq x s
  | .smsg x => Sys2Proof.Machine.execSmsg x s
  | .ldf x => Sys2Proof.Machine.execLdf x s
  | .ldfe x => Sys2Proof.Machine.execLdfe x s
  | .ste x => Sys2Proof.Machine.execSte x s
  | .stf x => Sys2Proof.Machine.execStf x s
  | .feset x => Sys2Proof.Machine.execFeset x s
  | .feq x => Sys2Proof.Machine.execFeq x s
  | .awarm x => Sys2Proof.Machine.execAwarm x s
  | .arrive x => Sys2Proof.Machine.execArrive x s
  | .waitg x => Sys2Proof.Machine.execWaitg x s
  | .cjoin x => Sys2Proof.Machine.execCjoin x s
  | .cleave x => Sys2Proof.Machine.execCleave x s
  | .atom o x => Sys2Proof.Machine.execAtom o x s
  | .atomnr o x => Sys2Proof.Machine.execAtomnr o x s
  | .atomcas x => Sys2Proof.Machine.execAtomcas x s
  | .fatom o x => Sys2Proof.Machine.execFatom o x s
  | .fatomnr o x => Sys2Proof.Machine.execFatomnr o x s
  | .redv o x => Sys2Proof.Machine.execRedv o x s
  | .cpy x => Sys2Proof.Machine.execCpy x s
  | .cpys x => Sys2Proof.Machine.execCpys x s
  | .cpyg x => Sys2Proof.Machine.execCpyg x s
  | .cpym x => Sys2Proof.Machine.execCpym x s
  | .cpyc x => Sys2Proof.Machine.execCpyc x s
  | .mcfg k wfmt afmt rm => Sys2Proof.Machine.execMcfg k wfmt afmt rm s
  | .mlds x => Sys2Proof.Machine.execMlds x s
  | .mswap x => Sys2Proof.Machine.execMswap x s
  | .mstrm x => Sys2Proof.Machine.execMstrm x s
  | .mclr x => Sys2Proof.Machine.execMclr x s
  | .mscl x => Sys2Proof.Machine.execMscl x s
  | .mwaitg x => Sys2Proof.Machine.execMwaitg x s
  | .marrive x => Sys2Proof.Machine.execMarrive x s
  | .mstat x => Sys2Proof.Machine.execMstat x s
  | .accrd x => Sys2Proof.Machine.execAccrd x s
  | .accwr x => Sys2Proof.Machine.execAccwr x s
  | .accrdc x => Sys2Proof.Machine.execAccrdc x s
  | .launch x => Sys2Proof.Machine.execLaunch x s
  | .launcht x => Sys2Proof.Machine.execLauncht x s
  | .spawn x => Sys2Proof.Machine.execSpawn x s
  | .nodeq x => Sys2Proof.Machine.execNodeq x s
  | .cancel x => Sys2Proof.Machine.execCancel x s
  | .fxfer x => Sys2Proof.Machine.execFxfer x s
  | .fget x => Sys2Proof.Machine.execFget x s
  | .coll x => Sys2Proof.Machine.execColl x s
  | .flinkq x => Sys2Proof.Machine.execFlinkq x s
  | .tokq x => Sys2Proof.Machine.execTokq x s
  | .tokpr x => Sys2Proof.Machine.execTokpr x s
  | .intent x => Sys2Proof.Machine.execIntent x s
  | .ballastPf x => Sys2Proof.Machine.execBallastPf x s
  | .ballastStage x => Sys2Proof.Machine.execBallastStage x s
  | .ballastCancel x => Sys2Proof.Machine.execBallastCancel x s
  | .vminq x => Sys2Proof.Machine.execVminq x s
  | .capq x => Sys2Proof.Machine.execCapq x s
  | .rampq x => Sys2Proof.Machine.execRampq x s
  | .sysrd x => Sys2Proof.Machine.execSysrd x s
  | .syswrFflags x => Sys2Proof.Machine.execSyswrFflags x s
  | .syswrRng x => Sys2Proof.Machine.execSyswrRng x s
  | .syswrTlbinv x => Sys2Proof.Machine.execSyswrTlbinv x s
  | .syswrResumepc x => Sys2Proof.Machine.execSyswrResumepc x s
  | .srd x => Sys2Proof.Machine.execSrd x s
  | .rett x => Sys2Proof.Machine.execRett x s
  | .yieldp x => Sys2Proof.Machine.execYieldp x s
  | .trap x => Sys2Proof.Machine.execTrap x s
  | .slrd x => Sys2Proof.Machine.execSlrd x s
  | .slwr x => Sys2Proof.Machine.execSlwr x s
  | .slpf x => Sys2Proof.Machine.execSlpf x s
  | .slmsg x => Sys2Proof.Machine.execSlmsg x s
  | .slarr x => Sys2Proof.Machine.execSlarr x s
  | .sldone x => Sys2Proof.Machine.execSldone x s
  | .slqry x => Sys2Proof.Machine.execSlqry x s
  | .slbud x => Sys2Proof.Machine.execSlbud x s
  | .handlerBaseInstruction r => Sys2Proof.Machine.execHandlerBaseInstruction r s
  | .fillBlock fe asid va keep e => Sys2Proof.Machine.execFillBlock fe asid va keep e s
  | .memoryOpPerformed op lanes ext => Sys2Proof.Machine.execMemoryOpPerformed op lanes ext s
  | .lateFault op lanes cause => Sys2Proof.Machine.execLateFault op lanes cause s
  | .pinTimeout core line => Sys2Proof.Machine.execPinTimeout core line s
  | .waitEnd warp lanes => Sys2Proof.Machine.execWaitEnd warp lanes s
  | .watchdogExpiry mcc id => Sys2Proof.Machine.execWatchdogExpiry mcc id s
  | .copyComplete op ext => Sys2Proof.Machine.execCopyComplete op ext s
  | .copyFault op cause addr member written ext => Sys2Proof.Machine.execCopyFault op cause addr member written ext s
  | .mldsDone arr ext => Sys2Proof.Machine.execMldsDone arr ext s
  | .mswapDone arr => Sys2Proof.Machine.execMswapDone arr s
  | .mstrmRow arr => Sys2Proof.Machine.execMstrmRow arr s
  | .mclrDone arr => Sys2Proof.Machine.execMclrDone arr s
  | .marriveMade bay => Sys2Proof.Machine.execMarriveMade bay s
  | .operandFault arr cause addr => Sys2Proof.Machine.execOperandFault arr cause addr s
  | .dispatch die => Sys2Proof.Machine.execDispatch die s
  | .gangStart gang => Sys2Proof.Machine.execGangStart gang s
  | .nodeBlockFormation bin => Sys2Proof.Machine.execNodeBlockFormation bin s
  | .coalesceTimer bin => Sys2Proof.Machine.execCoalesceTimer bin s
  | .triggerFire entry => Sys2Proof.Machine.execTriggerFire entry s
  | .cancelPoint die job => Sys2Proof.Machine.execCancelPoint die job s
  | .blockRetire block => Sys2Proof.Machine.execBlockRetire block s
  | .relaunch block => Sys2Proof.Machine.execRelaunch block s
  | .preemptionDelivery block cause => Sys2Proof.Machine.execPreemptionDelivery block cause s
  | .handlerEntry warp => Sys2Proof.Machine.execHandlerEntry warp s
  | .forcedSave warp => Sys2Proof.Machine.execForcedSave warp s
  | .blockLeave block => Sys2Proof.Machine.execBlockLeave block s
  | .blockReplace block => Sys2Proof.Machine.execBlockReplace block s
  | .resumeTimeout warp => Sys2Proof.Machine.execResumeTimeout warp s
  | .migration core phys => Sys2Proof.Machine.execMigration core phys s
  | .machineCheck warp part => Sys2Proof.Machine.execMachineCheck warp part s
  | .scanTest phys => Sys2Proof.Machine.execScanTest phys s
  | .coreFailure phys => Sys2Proof.Machine.execCoreFailure phys s
  | .sliceEvent slice e => Sys2Proof.Machine.execSliceEvent slice e s
  | .handlerStart slice => Sys2Proof.Machine.execHandlerStart slice s
  | .handlerBudgetOverrun slice => Sys2Proof.Machine.execHandlerBudgetOverrun slice s
  | .handlerCommit slice err => Sys2Proof.Machine.execHandlerCommit slice err s
  | .smsgReply op => Sys2Proof.Machine.execSmsgReply op s
  | .remoteAccess op lanes ext => Sys2Proof.Machine.execRemoteAccess op lanes ext s
  | .fabricLanding l => Sys2Proof.Machine.execFabricLanding l s
  | .fabricTimeout op => Sys2Proof.Machine.execFabricTimeout op s
  | .collComplete op r => Sys2Proof.Machine.execCollComplete op r s
  | .laneFailure port lane => Sys2Proof.Machine.execLaneFailure port lane s
  | .retrainComplete port => Sys2Proof.Machine.execRetrainComplete port s
  | .pantryRefill die => Sys2Proof.Machine.execPantryRefill die s
  | .larderRefill die => Sys2Proof.Machine.execLarderRefill die s
  | .ballastDeadline item => Sys2Proof.Machine.execBallastDeadline item s
  | .governorInterval => Sys2Proof.Machine.execGovernorInterval s
  | .powerAggregate demand need theta slew members => Sys2Proof.Machine.execPowerAggregate demand need theta slew members s
  | .rateUpdate => Sys2Proof.Machine.execRateUpdate s
  | .tjSample die tj hot => Sys2Proof.Machine.execTjSample die tj hot s
  | .capBankLow die charge vbank => Sys2Proof.Machine.execCapBankLow die charge vbank s
  | .hbmCaseSample die quarter => Sys2Proof.Machine.execHbmCaseSample die quarter s
  | .ivrSample region halfMv => Sys2Proof.Machine.execIvrSample region halfMv s
  | .inputVoltageSample halfMv => Sys2Proof.Machine.execInputVoltageSample halfMv s
  | .supplyLost => Sys2Proof.Machine.execSupplyLost s
  | .flowSample centiLpm => Sys2Proof.Machine.execFlowSample centiLpm s
  | .regionPowerOn region => Sys2Proof.Machine.execRegionPowerOn region s
  | .regionPowerOff region => Sys2Proof.Machine.execRegionPowerOff region s
  | .powerGood b => Sys2Proof.Machine.execPowerGood b s
  | .cmdNop ring => Sys2Proof.Machine.execCmdNop ring s
  | .cmdLaunch ring va ext => Sys2Proof.Machine.execCmdLaunch ring va ext s
  | .cmdLaunchi ring va size ext => Sys2Proof.Machine.execCmdLaunchi ring va size ext s
  | .cmdWaitj ring job => Sys2Proof.Machine.execCmdWaitj ring job s
  | .cmdWaitv ring va mask value ext => Sys2Proof.Machine.execCmdWaitv ring va mask value ext s
  | .cmdLoop ring target count => Sys2Proof.Machine.execCmdLoop ring target count s
  | .cmdJumpv ring va target ext => Sys2Proof.Machine.execCmdJumpv ring va target ext s
  | .cmdCancel ring job => Sys2Proof.Machine.execCmdCancel ring job s
  | .commandError ring opcode => Sys2Proof.Machine.execCommandError ring opcode s
  | .setroot => Sys2Proof.Machine.execSetroot s
  | .reghandler image => Sys2Proof.Machine.execReghandler image s
  | .bindgroup => Sys2Proof.Machine.execBindgroup s
  | .bindpower => Sys2Proof.Machine.execBindpower s
  | .setslew => Sys2Proof.Machine.execSetslew s
  | .savepool => Sys2Proof.Machine.execSavepool s
  | .retrain => Sys2Proof.Machine.execRetrain s
  | .attest => Sys2Proof.Machine.execAttest s
  | .certs => Sys2Proof.Machine.execCerts s
  | .mailboxLockRead reader => Sys2Proof.Machine.execMailboxLockRead reader s
  | .mailboxLockRelease writer => Sys2Proof.Machine.execMailboxLockRelease writer s
  | .debugHalt port => Sys2Proof.Machine.execDebugHalt port s
  | .debugResume port => Sys2Proof.Machine.execDebugResume port s
  | .debugKill port => Sys2Proof.Machine.execDebugKill port s
  | .debugRelaunch port => Sys2Proof.Machine.execDebugRelaunch port s
  | .mccResume port => Sys2Proof.Machine.execMccResume port s
  | .mccKill port => Sys2Proof.Machine.execMccKill port s
  | .debugTlbInvalidation port command => Sys2Proof.Machine.execDebugTlbInvalidation port command s
  | .mctpControlMessage msg => Sys2Proof.Machine.execMctpControlMessage msg s
  | .mctpSensorRead sel current coolant => Sys2Proof.Machine.execMctpSensorRead sel current coolant s
  | .registerWrite port offset size data => Sys2Proof.Machine.execRegisterWrite port offset size data s
  | .peerRequest r => Sys2Proof.Machine.execPeerRequest r s
  | .transferAbortArrival a => Sys2Proof.Machine.execTransferAbortArrival a s
  | .ringSizeWrite ring size => Sys2Proof.Machine.execRingSizeWrite ring size s
  | .unlistedMailboxCommand => Sys2Proof.Machine.execUnlistedMailboxCommand s
  | .capacitorBankRecovery die charge vbank => Sys2Proof.Machine.execCapacitorBankRecovery die charge vbank s
  | .bindRecordWrite die index record => Sys2Proof.Machine.execBindRecordWrite die index record s
  | .ballastItemComplete item lines fault => Sys2Proof.Machine.execBallastItemComplete item lines fault s

end Sys2Proof.Machine
end

