-- ==== Sys2Proof/Machine/Run.lean ====
section
/-!
DEFINITION. What a step does around `exec`: an issue slot's choice of a warp and its issue (R35–R41, R55–R63, R85), a
matrix control core's issue (R283–R287), a slice core's (R322, R329), an event, the passage of time; and an
instruction put where the next step runs it.
-/
namespace Sys2Proof

/-- An event of the table: it has no encoding in any stream. -/
def Instr.isEvent (i : Instr) : Bool :=
  i.form.isNone && (match i with
    | .slrd _ | .slwr _ | .slpf _ | .slmsg _ | .slarr _ | .sldone _ | .slqry _ | .slbud _
    | .handlerBaseInstruction _ => false
    | _ => true)

/-- An operation of the fabric (R367). -/
def Instr.isFabric : Instr → Bool
  | .fxfer _ | .fget _ | .coll _ => true
  | _ => false

end Sys2Proof

namespace Sys2Proof.Machine

/-! ## Warps of an issue slot -/

/-- A block whose warps run: it is placed, its gang has started, and nothing holds it. -/
def State.blockRuns (s : State) (b : Nat) : Bool :=
  let x := s.block b
  x.st == .placed && !x.again && !x.frozen && x.publish.all (fun k => (s.op k).st == .none) && (match x.gang with
    | some g => (s.gang g).started
    | none => true)

/-- The warps that take part in issue slot `k`, core × 4 + slot. -/
def State.slotWarps (s : State) (k : Nat) : List Nat :=
  (s.warps.cells.filter (fun c => c.2.live && c.2.slot == k % 4 && !c.2.halted && c.2.yielded == .no &&
    s.blockRuns c.2.block && (s.block c.2.block).core == k / 4)).map (·.1)

/-- What a launch's threads had stored is visible to the block before it starts (R279). -/
def State.openBlock (s : State) (b : Nat) : State :=
  let x := s.block b
  if x.publishers.isEmpty && x.publish.isEmpty then s
  else
    let s1 := x.publishers.foldl (fun (a : State) (p : Nat × Nat × Nat) =>
      (a.releaseFor p.1 p.2.1 false 0xFF p.2.2).releaseFor p.1 p.2.1 true 0xFF p.2.2) s
    s1.setBlock b { x with publish := [], publishers := [] }

/-- No operation that the warp waits for is still on its way; one in a replay slot does not keep it from its halt. -/
def Warp.settled (s : State) (wp : Warp) : Bool :=
  match wp.blocking with
  | .free => true
  | .ops l => l.all (fun k => (s.op k).st != .flying)

/-- A halt or a pre-emption is due: the warp issues no further head. -/
def Warp.attention (wp : Warp) : Bool := wp.haltDue.isSome || (wp.preempt.isSome && wp.mode == .normal)

/-- Registers that an issue waits for: those it reads and writes. SPAWN reads a record of up to 32 registers. -/
def Instr.awaited (i : Instr) : List RegRef :=
  i.reads .vector ++ i.writes .vector ++ (match i with
    | .spawn x => RegKind.span .v x.a 32
    | _ => [])

/-- Registers of a warp that operations under way will write (R85, R149). One in a replay slot writes its register when it
is reissued; the warp's handler does not wait for that. -/
def State.unbound (s : State) (w : Nat) : List RegRef :=
  let stuck := (s.warp w).mode == .normal
  (s.ops.cells.filter (fun c => (c.2.st == .flying || (stuck && c.2.st == .stuck)) && c.2.warp == w && !c.2.orphan)).flatMap
    (fun c => c.2.i.writes .vector)

/-- The next instruction of a chain waits for an operation in a replay slot, which only a halt and a RESUME reissue: the
halt that is due is taken then, at the chain's head (log entry 102). -/
def State.chainStuck (s : State) (w : Nat) : Bool :=
  match (s.warp w).groupPc with
  | some (pc, true) => s.midChain w && (match s.peekAt w pc with
    | .instr (.ok i) _ =>
      let slots := ((s.warp w).replays.filter (fun k => (s.op k).st == .stuck)).flatMap (fun k => (s.op k).i.writes .vector)
      (Instr.awaited i).any (fun r => slots.contains r)
    | _ => false)
  | _ => false

/-- What is due at the warp's head happens (R231, R424, R427); a halt that nothing in flight can change is reported. -/
def State.attend (s : State) (w : Nat) : State :=
  let wp := s.warp w
  match wp.haltDue with
  | some h =>
    if s.atHead w && wp.settled s then (s.takeHalt w h).settleHalt w
    else if s.chainStuck w then
      (s.haltAt w { cause := h.cause, lane := h.lane, addr := h.addr } (some wp.chainHead) (h.pc.getD wp.chainHead)
        wp.chainHead h.late).settleHalt w
    else s
  | none => if (s.block wp.block).rcd.pentry = 0 then s.trySave w else s.tryEnter w

/-- The group has no common PC, or no thread of it is live. -/
def Warp.needsGroup (wp : Warp) : Bool :=
  match wp.groupPc with
  | some (_, true) => false
  | _ => true

/-- The selections due before the next head (R54, R55, R57). -/
def State.poise (s : State) (w : Nat) : State :=
  if s.midChain w || !(s.warp w).unblocked s then s
  else
    let wp := s.warp w
    let w1 := if wp.selDue || wp.needsGroup then wp.select else wp
    let s1 := s.setWarp w w1
    match w1.groupPc with
    | some (pc, true) =>
      match s1.peekAt w pc with
      | .instr (.ok (.join _)) _ => s1.setWarp w w1.select
      | _ => s1
    | _ => s1

/-- What the warp's group stands before. -/
def State.ahead (s : State) (w : Nat) : Option (Nat × Fetched) :=
  match (s.warp w).groupPc with
  | some (pc, true) => some (pc, s.peekAt w pc)
  | _ => none

/-- The instruction that moved the group to an address no selection had checked (R41, R71). -/
def Warp.cameFrom (wp : Warp) : Option Nat := (maskList wp.liveGroup 32).findSome? (fun l => (wp.lane l).xfer)

/-- A block that a warp needs and its cache lacks is fetched. A group that has come sequentially to where a refilled block
no longer begins an instruction goes on to the next start (R41, R43). -/
def State.fetchFor (s : State) (w : Nat) : State :=
  let wp := s.warp w
  let fe := (s.block wp.block).core
  match s.ahead w with
  | some (_, .missing a) => s.fill fe (s.asidOf w) a 0 .fetched
  | some (pc, .notStart) =>
    if wp.cameFrom.isSome then s
    else match s.nextStart fe (s.asidOf w) pc with
    | .ok p => s.setWarp w (wp.mapLanes wp.liveGroup (fun _ x => { x with pc := p }))
    | .error a => s.fill fe (s.asidOf w) a 0 .fetched
  | _ => s

/-- Copies, or fabric operations, in flight from a core. -/
def State.engineLoad (s : State) (core : Nat) (f : Instr → Bool) : Nat :=
  (s.ops.cells.filter (fun c => c.2.st == .flying && s.opCore c.2 == core && f c.2.i)).length

/-- The core's copy engine, or its share of the fabric engine, has no room for the instruction (R245, R368). -/
def State.engineFull (s : State) (w : Nat) (i : Instr) : Bool :=
  let core := (s.block (s.warp w).block).core
  (isCopy i && 64 ≤ s.engineLoad core isCopy) || (i.isFabric && 32 ≤ s.engineLoad core Instr.isFabric)

/-- Nothing but tokens, or room in an engine, keeps the instruction from issuing (R58, R62, R85, R257, R304, R307, R367,
R395, R437). A warp that a JOIN's stores, or a core region that is not ready, keeps from issuing does not meet R62 (log
entry 103). -/
def State.mayIssue (s : State) (w : Nat) (i : Instr) : Bool :=
  let wp := s.warp w
  let core := (s.block wp.block).core
  let busy := s.unbound w
  wp.unblocked s && s.coreReady core && (Instr.awaited i).all (fun r => !busy.contains r) && !s.mustWait i w &&
  (match i with
    | .accrd x | .accwr x | .accrdc x => !s.accWaits w x.g
    | _ => true)

/-- The warp would issue, or raise what it stands before, if it were chosen (R62). -/
def State.poised (s : State) (w : Nat) : Bool :=
  let wp := s.warp w
  match s.ahead w with
  | none => false
  | some (_, .missing _) => false
  | some (_, .instr (.ok i) _) => s.mayIssue w i
  | some _ => wp.unblocked s && s.coreReady (s.block wp.block).core

/-- The order of a slot's choice (R63): handlers, promoted warps, age, number. -/
def Warp.before (a b : Nat × Warp) : Bool :=
  let key := fun (x : Nat × Warp) =>
    (if x.2.mode == .handler then 0 else 1, if 64 ≤ x.2.passed then 0 else 1, x.2.residence, x.2.index, x.1)
  let (p, q, r, i, n) := key a
  let (p', q', r', i', n') := key b
  if p != p' then p < p' else if q != q' then q < q' else if r != r' then r < r'
  else if i != i' then i < i' else n < n'

/-- The first of some warps in the order of choice. -/
def State.firstOf (s : State) : List Nat → Option Nat
  | [] => none
  | w :: r => some (r.foldl (fun a x => if Warp.before (x, s.warp x) (a, s.warp a) then x else a) w)

/-- The slot stays with a warp in a chain, or with one that it has chosen and that waits for tokens (R36, R62) or for an
engine (R245). -/
def State.keepsSlot (s : State) (w : Nat) : Bool :=
  (s.warp w).tokenWait.isSome || (s.warp w).engineWait || s.midChain w

/-! ## Issue -/

/-- The warp as its instruction at `pc` issues: its group is what is left of it, and has left its old PC. -/
def Warp.issuing (wp : Warp) (pc next : Nat) : Warp :=
  { wp.mapLanes wp.liveGroup (fun _ x => { x with xfer := none }) with
    pc := pc, npc := next, passed := 0, engineWait := false, group := wp.liveGroup }

/-- A warp that its slot has chosen issues, or raises the fault it stands before (R40, R41). -/
def State.issueWarp (s : State) (w : Nat) : Answer :=
  let wp := { s.warp w with group := (s.warp w).liveGroup }
  match s.ahead w with
  | none | some (_, .missing _) => .next s
  | some (pc, .fault c) =>
    .next (((s.setWarp w wp).faultTarget w c pc wp.cameFrom).dropFill (s.block wp.block).core (s.asidOf w) pc)
  | some (pc, .notStart) =>
    .next (if wp.cameFrom.isSome then (s.setWarp w wp).faultTarget w 0x023 pc wp.cameFrom else s)
  | some (pc, .instr (.error e) next) =>
    .next ((s.setWarp w { wp.issuing pc next with chainHead := pc }).faultWarp w { cause := e.cause })
  | some (pc, .instr (.ok i) next) =>
    let paid := s.chargeWarp w i.price
    if s.engineFull w i then .next (s.setWarp w { s.warp w with engineWait := true })
    else if paid.2 then exec i { paid.1.setWarp w ((paid.1.warp w).issuing pc next) with issuer := .warp w }
    else .next paid.1

/-- A slot chooses among its poised warps; the others have been passed over (R63). Where the one chosen cannot be charged
in this cycle any more, the slot has no turn in it (R382). -/
def State.choose (s : State) (ws : List Nat) : Answer :=
  let ready := ws.filter s.poised
  match s.firstOf ready with
  | none => .next s
  | some w =>
    if !s.looksAt w then .next s
    else (ready.foldl (fun (a : State) x =>
      if x = w then a else a.setWarp x { a.warp x with passed := (a.warp x).passed + 1 }) s).issueWarp w

/-- What precedes a slot's choice: blocks start, what its warps need is fetched, halts and pre-emptions that are due
happen, and selections take effect. -/
def State.prepareSlot (s : State) (k : Nat) : State :=
  let s1 := ((s.slotWarps k).map (fun w => (s.warp w).block)).eraseDups.foldl State.openBlock s
  let s2 := (s1.slotWarps k).foldl State.fetchFor s1
  let s3 := ((s2.slotWarps k).filter (fun w => (s2.warp w).attention)).foldl State.attend s2
  let s4 := (s3.slotWarps k).foldl State.poise s3
  -- what has been fetched for the groups chosen may be the head before which another selection is due
  let s5 := (s4.slotWarps k).foldl State.fetchFor s4
  (s5.slotWarps k).foldl State.poise s5

/-- A tick that is due on a die comes first (R382). -/
def State.ticked (s : State) (die : Nat) : State :=
  if 32 * ((s.larder die).ticks + 1) ≤ s.cycles then s.tick die else s

/-- The turn of issue slot `k`. -/
def State.slotTurn (s : State) (k : Nat) : Answer :=
  let t := (s.ticked (k / 64)).prepareSlot k
  match (t.slotWarps k).find? t.keepsSlot with
  | some w => if t.poised w then t.issueWarp w else .next t
  | none => t.choose ((t.slotWarps k).filter (fun w => !(t.warp w).attention))

/-- An accumulator move that its warp could issue does some of its elements early (R305). -/
def State.earlyMove (s : State) (w els : Nat) : State :=
  let wp := s.warp w
  let k := (s.block wp.block).core * 4 + wp.slot
  match s.ahead w with
  | some (_, .instr (.ok i) _) =>
    if !(s.slotWarps k).contains w || wp.attention || wp.selDue || !s.poised w ||
       ((s.slotWarps k).any (fun x => x != w && s.keepsSlot x)) then s
    else match i with
    | .accrd x | .accwr x | .accrdc x => s.partMove w els i x
    | _ => s
  | _ => s

/-! ## Matrix control cores and slice cores -/

/-- A matrix control core has an instruction to issue. -/
def State.mccRuns (s : State) (k : Nat) : Bool :=
  let m := s.mcc k
  match m.gang with
  | none => false
  | some g => (s.gang g).started && !m.exited && !m.halted && !m.stopped && !m.failed && m.inWait.isNone && s.bayReady k &&
      (s.gang g).blocks.all (fun b => (s.block b).publish.all (fun o => (s.op o).st == .none))

/-- What a matrix control core stands before. -/
def State.mccAhead (s : State) (k : Nat) : Fetched :=
  s.fetch (384 + k) (s.job (s.block (s.member0 k)).job).asid .mcc (s.mcc k).pc

/-- A matrix control core issues its next instruction, or raises the fault it stands before (R283, R285, R287, R311). -/
def State.issueMcc (s : State) (k : Nat) : Answer :=
  let m := s.mcc k
  let asid := (s.job (s.block (s.member0 k)).job).asid
  match s.mccAhead k with
  | .missing a => .next (s.fill (384 + k) asid a 0 .fetched)
  | .fault c => .next ((s.faultMcc k c m.pc).dropFill (384 + k) asid m.pc)
  | .notStart =>
    .next (if m.xfer.isSome then s.faultMcc k 0x023 m.pc
      else match s.nextStart (384 + k) asid m.pc with
      | .ok p => s.setMcc k { m with pc := p }
      | .error a => s.fill (384 + k) asid a 0 .fetched)
  | .instr (.error e) _ => .next (s.faultMcc k e.cause m.pc)
  | .instr (.ok i) next =>
    if !s.mccRoom i k then .next s
    else
      let paid := s.chargeMcc k i.price
      if paid.2 then exec i { paid.1.setMcc k { paid.1.mcc k with cur := m.pc, npc := next } with issuer := .mcc k }
      else .next paid.1

/-- The turn of a matrix control core. Its instance's blocks start with it (R279). -/
def State.mccTurn (s : State) (k : Nat) : Answer :=
  if s.mccRuns k then
    let bs := match (s.mcc k).gang with
      | some g => (s.gang g).blocks
      | none => []
    (bs.foldl State.openBlock (s.ticked (k / 4))).issueMcc k
  else .next s

/-- What a running handler finds at its PC: an instruction, or the cause of its abort (R322). -/
def State.handlerFetch (s : State) (k : Nat) : Except Nat Instr :=
  let c := s.slice k
  let t := c.running
  let low := ofBytes (c.imem.readBytes 2 c.pc)
  if c.pc % 2 != 0 then .error 0x05
  else if c.pc < t.ibase || t.ihi < c.pc + 2 || t.ihi < c.pc + sliceLen low then .error 0x03
  else .ok (decodeSlice (ofBytes (c.imem.readBytes 4 c.pc)))

/-- The turn of a slice core. -/
def State.sliceTurn (s : State) (k : Nat) : Answer :=
  let c := s.slice k
  if c.st != .running then .next s
  else if c.budget ≤ c.count then .next (s.overrun k)
  else match s.handlerFetch k with
  | .error cause => .next (runHandler (fun _ _ => .bad cause) k s)
  | .ok i => exec i { s with issuer := .slice k }

/-! ## A step -/

/-- Whoever's turn it is acts. A module without power only powers up. -/
def State.act (s : State) : Answer :=
  match s.turn with
  | .event e =>
    if e.isEvent && (s.powered || (match e with
        | .powerGood _ => true
        | _ => false)) then exec e { s with issuer := .none }
    else .next s
  | .slot k => if s.powered then s.slotTurn k else .next s
  | .mcc k => if s.powered then s.mccTurn k else .next s
  | .slice k => if s.powered then s.sliceTurn k else .next s
  | .move w els => .next (if s.powered then s.earlyMove w els else s)
  | .row arr els => .next (if s.powered then s.earlyRow arr els else s)

/-- Cores at whose pantry a consumer waits. -/
def State.waitingCores (s : State) : List Nat :=
  ((s.warps.cells.filter (fun c => c.2.live && c.2.tokenWait.isSome)).map (fun c => (s.block c.2.block).core) ++
   (s.pantries.cells.filter (fun c => c.2.arrayWait.isSome || c.2.mccWait.isSome)).map (·.1)).eraseDups

/-- Time passes (R1, R382), and the next turn is anyone's. -/
def State.advance (s : State) : State :=
  let n := Config.elapsedCycles s.free
  let s1 := s.waitingCores.foldl (fun (a : State) c =>
    a.setPantry c { a.pantry c with waited := (a.pantry c).waited + BitVec.ofNat 64 n }) s
  { s1 with
    time := s.time + Config.elapsedNs s.free, cycles := s.cycles + n, turn := Config.schedule s.free
    free := s.free + 1, issuer := .none }

/-- One step: whoever's turn it is acts, and time passes. -/
def State.stepOnce (s : State) : Answer :=
  match s.act with
  | .next t => .next t.advance
  | .fault f => .fault f
  | .refused r => .refused r

/-! ## An instruction placed where the next step runs it -/

/-- The slice core of a placed handler, and its tenant: the whole of its memories, and every event bound. -/
def placedTenant : Tenant :=
  { td0 := BitVec.ofNat 64 (2 ^ 63 + 64 * 2 ^ 19 + 64 * 2 ^ 6), td1 := 0 }

/-- A handler's instruction of up to four bytes, as the next of slice core 0. -/
def State.placeHandler (s : State) (w : Nat) : State :=
  let c : Slice := { s.slice 0 with
    st := .running, event := some { kind := 0, tenant := 0 }, pc := 0, count := 0 }
  let c1 := { c.setTenant 0 placedTenant with imem := c.imem.writeBytes 0 (bytesOf 4 w) }
  { s.setSlice 0 c1 with turn := .slice 0, powered := true }

/-- A launch record for one warp with whole budgets, as an instance of a matrix role where `m`. -/
def placedLaunch (m : Bool) : Launch :=
  { entry := 0x1000, mentry := if m then 0x1000 else 0, grid := 1, wl := 1, vl := 31, sl := 7, scr := 1, dies := 1 }

/-- A cache block that holds an instruction and then nothing but PADs. -/
def placedBlock (ps : List Nat) : FillBlock :=
  { asid := 0, va := 0x1000, fault := none
    parcels := (ps ++ List.replicate 16 0xF0000000).take 16 }

/-- What both kinds of front end need: a job, power on core 0, tokens, and time for its regions to have settled. -/
def State.placeGround (s : State) : State :=
  { s with
    powered := true, time := Nat.max s.time 10000
    jobs := s.jobs.set {} 0 { s.job 0 with live := true, placed := true }
    coreMap := s.coreMap.set 0 0 0x80
    pantries := s.pantries.set {} 0 { s.pantry 0 with level := 262144 }
    regions := [0, 1, 2, 3, 84].foldl (fun (t : Table Region) r => t.set {} r { t.get {} r with on := true, since := 0 }) s.regions }

/-- An instruction of a warp's stream, as the next of the one warp of core 0. -/
def State.placeWarp (s : State) (ps : List Nat) : State :=
  let b : BlockRec := { st := .placed, rcd := placedLaunch false, warps := [s.nextWarp], alloc := 4096 }
  let wp := startWarp s s.nextBlock b 0
  let s1 := (s.placeGround.putFill 0 (placedBlock ps)).putFill 0
    { asid := 0, va := 0x1040, fault := some 0x028, parcels := [] }
  let s2 := (s1.setBlock s.nextBlock b).setWarp s.nextWarp wp
  { s2 with nextBlock := s.nextBlock + 1, nextWarp := s.nextWarp + 1, turn := .slot 0 }

/-- An instruction of a matrix control core's stream, as the next of bay 0 of die 0. -/
def State.placeMcc (s : State) (ps : List Nat) : State :=
  let l := placedLaunch true
  let b : BlockRec := { st := .placed, rcd := l, alloc := 4096, gang := some s.nextGang }
  let s1 := (s.placeGround.putFill 384 (placedBlock ps)).putFill 384
    { asid := 0, va := 0x1040, fault := some 0x028, parcels := [] }
  let s2 := (s1.setBlock s.nextBlock b).setGang s.nextGang { live := true, blocks := [s.nextBlock], started := true }
  let s3 := s2.setMcc 0 { startMcc s.nextGang 0 l with pc := 0x1000, s := (startMcc s.nextGang 0 l).s }
  { s3 with nextBlock := s.nextBlock + 1, nextGang := s.nextGang + 1, turn := .mcc 0 }

/-- An instruction given as `nbits` bits `w`, with zeros above, placed so that the very next step runs it. -/
def State.placeWord (s : State) (nbits w : Nat) : State :=
  if nbits ≤ 32 then s.placeHandler (w % 2 ^ 32)
  else
    let ps := [bits w 0 32, bits w 32 32, bits w 64 32, bits w 96 32]
    match decodeParcels .vector ps with
    | .ok _ => s.placeWarp ps
    | .error _ => match decodeParcels .mcc ps with
      | .ok _ => s.placeMcc ps
      | .error _ => s.placeWarp ps

end Sys2Proof.Machine
end

