-- ==== Sys2Proof/Safety.lean ====
section
/-!
DEFINITION. What counts as a safe run: a step that answers a next state, and runs made of such steps. Faults of the
spec halt a warp, a matrix control core or a handler, and the module goes on: they are next states. Beside it the
words that the statements use: when an instruction issues, and what a frame leaves alone.
-/
namespace Sys2Proof

/-- The next state of a step, where it has one. -/
def Safe (s : Machine.State) : Prop := ∃ t, Machine.step s = .next t

/-- A state that steps lead to. -/
inductive Reaches : Machine.State → Machine.State → Prop where
  | refl (s : Machine.State) : Reaches s s
  | step (s t u : Machine.State) (h : Machine.step s = .next t) (r : Reaches t u) : Reaches s u

namespace Machine

/-! ## Issue -/

/-- Warp `w` issues `i`, and issue finds nothing wrong with it (R40). -/
def Issues (w : Nat) (i : Instr) (s : State) : Prop :=
  s.issuer = .warp w ∧ issueFault i ((s.warp w).beginIssue i) = none

/-- The warp as the instruction's own effect finds it: its chain begun, its group at the sequential successor. -/
def State.atIssue (s : State) (i : Instr) (w : Nat) : Warp := (s.issued i w).warp w

/-- Matrix control core `k` issues. -/
def IssuesMcc (k : Nat) (s : State) : Prop := s.issuer = .mcc k

/-- A handler of slice core `k` executes an instruction within its budget. -/
def Handles (k : Nat) (s : State) : Prop :=
  s.issuer = .slice k ∧ (s.slice k).st = .running ∧ (s.slice k).count < (s.slice k).budget

/-! ## Frames -/

/-- Nothing but warp `w` differs. -/
def OnlyWarp (w : Nat) (s t : State) : Prop :=
  t = { s with warps := t.warps } ∧ ∀ u, u ≠ w → t.warp u = s.warp u

/-- Nothing but matrix control core `k` differs. -/
def OnlyMcc (k : Nat) (s t : State) : Prop :=
  t = { s with mccs := t.mccs } ∧ ∀ j, j ≠ k → t.mcc j = s.mcc j

/-- Nothing but slice core `k` differs. -/
def OnlySlice (k : Nat) (s t : State) : Prop :=
  t = { s with slices := t.slices } ∧ ∀ j, j ≠ k → t.slice j = s.slice j

/-- Registers of a warp that a list does not name are as before. -/
def KeepsRegs (named : List RegRef) (a b : Warp) : Prop :=
  (∀ n l, l < 32 → ⟨.v, n⟩ ∉ named → b.rdV n l = a.rdV n l) ∧
  (∀ n, ⟨.s, n⟩ ∉ named → b.rdS n = a.rdS n) ∧
  (∀ n, ⟨.p, n⟩ ∉ named → b.rdP n = a.rdP n) ∧
  (∀ n, ⟨.m, n⟩ ∉ named → b.rdM n = a.rdM n)

/-- A warp but for its registers, its threads and its chain. -/
def KeepsWarp (a b : Warp) : Prop :=
  b = { a with
    v := b.v, s := b.s, p := b.p, m := b.m, lanes := b.lanes, latches := b.latches, chainHead := b.chainHead
    chainLen := b.chainLen, inRun := b.inRun, selDue := b.selDue, blocking := b.blocking }

/-- A thread but for its place, its flags and its generator. -/
def KeepsLane (a b : Lane) : Prop :=
  b = { a with
    pc := b.pc, yielded := b.yielded, xfer := b.xfer, fflags := b.fflags, rng := b.rng, reported := b.reported }

/-- Flags that an instruction may raise (R89, R103): which of integer and floating-point arithmetic it is. -/
def raisesInt : Instr → Bool
  | .pWord _ _ | .cvt _ | .scan _ | .reduce _ | .cvtbPack _ => true
  | .add _ _ | .sub _ _ | .mul _ _ | .mad _ _ | .madw _ _ | .div _ _ | .rem _ _ | .abs _ _ | .shl _ _ | .sad _ _ => true
  | _ => false

def raisesFloat : Instr → Bool
  | .pWord _ _ | .cvt _ | .cvtbPack _ | .cvtbUnpack _ | .scan _ | .reduce _ => true
  | .fadd _ | .fsub _ | .fmul _ | .ffma _ | .fmin _ | .fmax _ | .fcmp _ | .frnd _ | .fdot2 _ | .fdot4 _ | .fscale _
  | .fdiv _ | .fsqrt _ | .frcp _ | .frsq _ | .fexp2 _ | .flog2 _ | .fsin _ | .fcos _ | .ftanh _ => true
  | _ => false

/-- Flags of the kinds named are raised, and no flag is cleared; the other bits stay. -/
def Raised (int float : Bool) (a b : BitVec 32) : Prop :=
  ∃ f : Flags, b = raiseFlags a f ∧ (int = false → f.idz = false ∧ f.saturated = false) ∧
    (float = false → f.invalid = false ∧ f.dz = false ∧ f.overflow = false ∧ f.underflow = false ∧ f.inexact = false)

/-! ## Element-wise results (R83, R102) -/

/-- Flags raised and the generator in a lane once its first `n` elements are done, element `j` being sub-element `at j`. -/
def elemsDone (a : Warp) (x : Alu) (at_ : Nat → Nat) (f : ElemFn) (l n : Nat) : Flags × BitVec 32 :=
  (List.range n).foldl (fun c j =>
    if a.enabled x.g x.vx.m l (at_ j) then
      (c.1.or (f l j (a.lane l).fflags c.2).fl, (f l j (a.lane l).fflags c.2).rng)
    else c) ({}, (a.lane l).rng)

/-- The value of element `j` of a lane. -/
def elemVal (a : Warp) (x : Alu) (at_ : Nat → Nat) (f : ElemFn) (l j : Nat) : Nat :=
  (f l j (a.lane l).fflags (elemsDone a x at_ f l j).2).val

/-- No element that can fault does (R89, R105): under the fault mode defer nothing faults, and helpers never do. -/
def NoArithFault (s : State) (w : Nat) (a : Warp) (x : Alu) (at_ : Nat → Nat) (n : Nat) (f : ElemFn) : Prop :=
  s.defers w = true ∨ ∀ l j, l < 32 → j < n → a.isHelper l = false → a.enabled x.g x.vx.m l (at_ j) = true →
    ∀ rg, (f l j (a.lane l).fflags rg).fl.idz = false ∧ (f l j (a.lane l).fflags rg).fl.invalid = false ∧
      (f l j (a.lane l).fflags rg).fl.dz = false ∧ (f l j (a.lane l).fflags rg).fl.overflow = false

/-- A vector instruction with operands `x` and `n` elements of `wd` bits a lane, element `j` at sub-element `at j`, has
made `b` of a warp `a`: the destination through Merge, the latches if it is latch-eligible, flags and generators, and
nothing else. -/
def VecDone (x : Alu) (elig : Bool) (wd : Nat) (at_ : Nat → Nat) (n : Nat) (f : ElemFn) (a b : Warp) : Prop :=
  b = { a with v := b.v, lanes := b.lanes, latches := b.latches } ∧
  (∀ m l, l < 32 → m ≠ x.d ∨ x.nowb = true → b.rdV m l = a.rdV m l) ∧
  (x.nowb = false → ∀ l j, l < 32 → j < n → subOf (b.rdV x.d l) wd (at_ j) =
    if a.enabled x.g x.vx.m l (at_ j) then elemVal a x at_ f l j % 2 ^ wd
    else if x.vx.z then 0 else subOf (a.rdV x.d l) wd (at_ j)) ∧
  (x.nowb = false → ∀ l k, l < 32 → (∀ j, j < n → at_ j ≠ k) →
    subOf (b.rdV x.d l) wd k = subOf (a.rdV x.d l) wd k) ∧
  (elig = false → b.latches = a.latches) ∧
  (elig = true → ∃ r, b.latches = a.latches.push r ∧ r.serves .v = true ∧ ∀ l j, l < 32 → j < n →
    subOf (r.laneOf l) wd (at_ j) = if a.enabled x.g x.vx.m l (at_ j) then elemVal a x at_ f l j % 2 ^ wd else 0) ∧
  (∀ l, 32 ≤ l → b.lane l = a.lane l) ∧
  (∀ l, l < 32 → b.lane l = { a.lane l with
    fflags := raiseFlags (a.lane l).fflags (elemsDone a x at_ f l n).1
    rng := (elemsDone a x at_ f l n).2
    reported := (b.lane l).reported } ∧ (a.isHelper l = false → (b.lane l).reported = (a.lane l).reported))

/-- `exec` of a vector instruction answers the state in which just that has happened to warp `w`. -/
def VecCompletes (i : Instr) (x : Alu) (elig : Bool) (wd : Nat) (at_ : Nat → Nat) (n : Nat) (f : Warp → ElemFn) : Prop :=
  ∀ w s, Issues w i s → NoArithFault s w (s.atIssue i w) x at_ n (f (s.atIssue i w)) →
    ∃ t, exec i s = .next t ∧ OnlyWarp w s t ∧
      VecDone x elig wd at_ n (f (s.atIssue i w)) (s.atIssue i w) (t.warp w)

/-! ## Scalar results (R82, R283) -/

/-- Warp `w` has s[d] := r, r in l0 of its latches if the instruction is latch-eligible, and nothing else. -/
def ScalarDone (d : Nat) (nowb elig : Bool) (r : Word) (a b : Warp) : Prop :=
  b = { a with s := b.s, latches := b.latches } ∧
  (∀ n, b.rdS n = if n = d ∧ n ≠ 0 ∧ nowb = false then r else a.rdS n) ∧
  b.latches = if elig then a.latches.push (.scalar r) else a.latches

/-- A scalar instruction in a warp, with some thread Active (R26). -/
def ScalarCompletes (i : Instr) (x : Alu) (d : Nat) (elig : Bool) (r : (Opnd → Word) → Word) : Prop :=
  ∀ w s, Issues w i s → (s.atIssue i w).active x.g ≠ 0 →
    ∃ t, exec i s = .next t ∧ OnlyWarp w s t ∧
      ScalarDone d x.nowb elig (r (s.atIssue i w).opndS) (s.atIssue i w) (t.warp w)

/-- The same instruction in a matrix control core (R283): only s[d] and the program counter change. -/
def MccCompletes (i : Instr) (d : Nat) (r : (Opnd → Word) → Word) : Prop :=
  ∀ k s, IssuesMcc k s →
    ∃ t, exec i s = .next t ∧ OnlyMcc k s t ∧
      t.mcc k = { s.mcc k with s := (t.mcc k).s, pc := (s.mcc k).npc, xfer := none } ∧
      ∀ n, (t.mcc k).rdS n = if n = d ∧ n ≠ 0 then r (s.mcc k).opnd else (s.mcc k).rdS n

/-- Instructions of a warp that read and write only its own registers and threads. -/
def registerOnly (i : Instr) : Bool :=
  i.alu.isSome || (match i with
    | .pWord _ _ | .br _ | .bru _ | .brp _ | .brx _ | .call _ | .ret _ | .join _ | .yield _ | .nop _
    | .plop _ _ _ _ _ _ | .pmov _ | .strq _ | .sysrd _ | .srd _ | .tokpr _ | .rampq _ => true
    | _ => false)

end Machine
end Sys2Proof
end

