-- ==== Sys2Proof/Certificates/Slice0/Obligations.lean ====
section
/-!
DEFINITION. The statements for the provers, each `def Obligations.<Name> : Prop`, listed in OBLIGATIONS.json. Names
under `Sys2Proof.Claims` are tables and words that the statements use.
-/
open Sys2Proof Sys2Proof.Machine

/-- `s` with what visits to the homes of lines leave (R134–R138, R325): memory and the caches, the queues of slice cores,
what is kept of older bytes, and the free values that were drawn. -/
def Sys2Proof.Claims.homed (s t : State) : State :=
  { s with
    mem := t.mem, l1 := t.l1, l2 := t.l2, rdc := t.rdc, shadow := t.shadow, past := t.past, slices := t.slices
    free := t.free }

/-- Slice cores have at most taken events for their tenants, and counted those they dropped (R325, R326). -/
def Sys2Proof.Claims.OnlyQueues (s t : State) : Prop :=
  ∀ k, t.slice k = { s.slice k with queue := (t.slice k).queue, tenants := (t.slice k).tenants }

/-! ## Integer instructions (spec/04) -/

/-- An integer instruction of R86: its constructor, whether it is latch-eligible, whether b is read as 64 bits (R90),
and its function. -/
structure Sys2Proof.Claims.IntOp where
  instr : Bool → Alu → Instr
  elig : Bool
  full : Bool
  fn : IntFn

/-- The instructions of R87, R89, R90 and R93 that have one function for all three forms. -/
def Sys2Proof.Claims.intOps : List Claims.IntOp :=
  [⟨.add, true, false, satFn exactAdd⟩, ⟨.sub, true, false, satFn exactSub⟩, ⟨.mul, true, false, satFn exactMul⟩,
   ⟨.mulh, true, false, wrapFn exactMulh⟩, ⟨.mad, true, false, satFn exactMad⟩, ⟨.div, false, false, divFn⟩,
   ⟨.rem, false, false, remFn⟩, ⟨.min, true, false, wrapFn exactMin⟩, ⟨.max, true, false, wrapFn exactMax⟩,
   ⟨.abs, true, false, satFn exactAbs⟩, ⟨.and, true, false, wrapFn patAnd⟩, ⟨.or, true, false, wrapFn patOr⟩,
   ⟨.xor, true, false, wrapFn patXor⟩, ⟨.andn, true, false, wrapFn patAndn⟩, ⟨.shl, true, false, satFn exactShl⟩,
   ⟨.shr, true, false, wrapFn patShr⟩, ⟨.sar, true, false, wrapFn patSar⟩, ⟨.rot, true, false, wrapFn patRot⟩,
   ⟨.clz, true, false, wrapFn patClz⟩, ⟨.popc, true, false, wrapFn patPopc⟩, ⟨.brev, true, false, wrapFn patBrev⟩,
   ⟨.bfx, true, true, bfxFn⟩, ⟨.bfi, true, true, bfiFn⟩, ⟨.movi, true, false, wrapFn patImm⟩,
   ⟨.sad, true, false, satFn exactSad⟩]

/-- R83: every vector integer instruction of class 0x1 completes where no division by zero faults, with every element
of its destination written through Merge, its result in the latches where it is latch-eligible, its saturated and
int-div-zero flags per lane, and nothing else changed. Rests on choices of the model: log entry 25. -/
def Obligations.VectorIntegerResult : Prop :=
  (∀ e ∈ Claims.intOps, ∀ x, VecCompletes (e.instr true x) x e.elig (intWidth x.fmt) id (64 / intWidth x.fmt)
    (intElem x e.full e.fn)) ∧
  (∀ x, VecCompletes (.sel true x) x true (intWidth x.fmt) id (64 / intWidth x.fmt) (selElem x)) ∧
  (∀ x, VecCompletes (.mov true x) x true (intWidth x.fmt) id (64 / intWidth x.fmt) (movElem x)) ∧
  (∀ x, VecCompletes (.madw true x) x true (2 * intWidth x.fmt) id (64 / (2 * intWidth x.fmt)) (madwElem x)) ∧
  (∀ x, VecCompletes (.lea true x) x true 64 id 1 (leaElem x))

/-- R82, R283: every scalar integer instruction but DIV and REM completes, in a warp with a thread Active and in a
matrix control core. -/
def Obligations.ScalarIntegerResult : Prop :=
  (∀ e ∈ Claims.intOps, ∀ x, (∀ y, e.instr false x ≠ .div false y) → (∀ y, e.instr false x ≠ .rem false y) →
    ScalarCompletes (e.instr false x) x x.d e.elig (fun rd => (scalarCompute rd x e.full e.fn).1) ∧
    MccCompletes (e.instr false x) x.d (fun rd => (scalarCompute rd x e.full e.fn).1)) ∧
  (∀ x, ScalarCompletes (.sel false x) x x.d true (fun rd => selScalar rd x) ∧
    MccCompletes (.sel false x) x.d (fun rd => selScalar rd x)) ∧
  (∀ x, ScalarCompletes (.mov false x) x x.d true (fun rd => extendTo64 x.fmt (rd x.a).toNat) ∧
    MccCompletes (.mov false x) x.d (fun rd => extendTo64 x.fmt (rd x.a).toNat)) ∧
  (∀ x, ScalarCompletes (.madw false x) x x.d true (fun rd => madwScalar rd x) ∧
    MccCompletes (.madw false x) x.d (fun rd => madwScalar rd x)) ∧
  (∀ x, ScalarCompletes (.lea false x) x x.d true (fun rd => leaScalar rd x) ∧
    MccCompletes (.lea false x) x.d (fun rd => leaScalar rd x)) ∧
  (∀ x, ScalarCompletes (.cmp false x) x (x.cmpD false) true (fun rd => cmpScalar rd x) ∧
    MccCompletes (.cmp false x) (x.cmpD false) (fun rd => cmpScalar rd x))

/-- R89, scalar: with a divisor that is not zero DIV writes the truncated quotient, wrapped, and REM the remainder; a
zero divisor sets int-div-zero in every Active thread and then, under defer, writes all ones and the dividend, and
under halt raises cause 0x040 with no register written; in a matrix control core it raises 0x040 in either mode. -/
def Obligations.ScalarDivision : Prop :=
  ∀ (rem : Bool) (x : Alu),
    let i : Instr := if rem then .rem false x else .div false x
    let val := fun (rd : Opnd → Word) (b : SrcB → Nat) =>
      let p := valOf x.fmt (rd x.a).toNat
      let q := valOf x.fmt (b x.b)
      if rem then (if q = 0 then extendTo64 x.fmt (rd x.a).toNat else extendTo64 x.fmt (wrapPat x.fmt (Int.tmod p q)))
      else if q = 0 then extendTo64 x.fmt (2 ^ intWidth x.fmt - 1) else extendTo64 x.fmt (wrapPat x.fmt (Int.tdiv p q))
    (∀ w s, Issues w i s → (s.atIssue i w).active x.g ≠ 0 →
      (valOf x.fmt (scalarB (s.atIssue i w).opndS x.b) ≠ 0 →
        ∃ t, exec i s = .next t ∧ OnlyWarp w s t ∧
          ScalarDone x.d x.nowb false (val (s.atIssue i w).opndS (scalarB (s.atIssue i w).opndS))
            (s.atIssue i w) (t.warp w)) ∧
      (valOf x.fmt (scalarB (s.atIssue i w).opndS x.b) = 0 →
        let a := (s.atIssue i w).mapLanes ((s.atIssue i w).active x.g)
          (fun _ la => { la with fflags := la.fflags ||| 32#32 })
        (s.defers w = true → ∃ t, exec i s = .next t ∧ OnlyWarp w s t ∧
          ScalarDone x.d x.nowb false (val (s.atIssue i w).opndS (scalarB (s.atIssue i w).opndS)) a (t.warp w)) ∧
        (s.defers w = false → exec i s = .next (((s.issued i w).setWarp w a).faultWarp w { cause := 0x040 })))) ∧
    (∀ k s, IssuesMcc k s →
      (valOf x.fmt (scalarB (s.mcc k).opnd x.b) ≠ 0 →
        ∃ t, exec i s = .next t ∧ OnlyMcc k s t ∧
          t.mcc k = { s.mcc k with s := (t.mcc k).s, pc := (s.mcc k).npc, xfer := none } ∧
          ∀ n, (t.mcc k).rdS n = if n = x.d ∧ n ≠ 0 then val (s.mcc k).opnd (scalarB (s.mcc k).opnd)
            else (s.mcc k).rdS n) ∧
      (valOf x.fmt (scalarB (s.mcc k).opnd x.b) = 0 →
        ∃ t, exec i s = .next t ∧ t.mcc k = { s.mcc k with
          pc := (s.mcc k).cur, xfer := none, halted := true, cause := 0x040, inWait := none }))

/-- R87: the wrapping functions as operations on bit vectors of the format's width, and the functions of patterns,
shifts and counts, where `s` is b mod w, read unsigned. -/
def Obligations.IntegerFunctions : Prop :=
  (∀ fmt x y z, fmt < 8 →
     let w := intWidth fmt
     let X := BitVec.ofNat w x
     let Y := BitVec.ofNat w y
     let Z := BitVec.ofNat w z
     let sg := intSigned fmt
     let out := fun (f : IntFn) => BitVec.ofNat w (f fmt x y z false).1
     out (satFn exactAdd) = X + Y ∧ out (satFn exactSub) = X - Y ∧ out (satFn exactMul) = X * Y ∧
     out (satFn exactMad) = X * Y + Z ∧
     out (satFn exactSad) = Z + (if (if sg then Y.sle X else Y.ule X) then X - Y else Y - X) ∧
     out (wrapFn exactMin) = (if (if sg then Y.slt X else Y.ult X) then Y else X) ∧
     out (wrapFn exactMax) = (if (if sg then X.slt Y else X.ult Y) then Y else X) ∧
     out (satFn exactAbs) = (if sg then X.abs else X) ∧
     out (wrapFn exactMulh) = (if sg then (X.signExtend (2 * w) * Y.signExtend (2 * w)).extractLsb' w w
       else (X.zeroExtend (2 * w) * Y.zeroExtend (2 * w)).extractLsb' w w)) ∧
  (∀ fmt x y z, fmt < 8 → x < 2 ^ intWidth fmt → y < 2 ^ intWidth fmt →
     let w := intWidth fmt
     let X := BitVec.ofNat w x
     let Y := BitVec.ofNat w y
     let s := y % w
     let out := fun (f : IntFn) => BitVec.ofNat w (f fmt x y z false).1
     out (wrapFn patAnd) = X &&& Y ∧ out (wrapFn patOr) = X ||| Y ∧ out (wrapFn patXor) = X ^^^ Y ∧
     out (wrapFn patAndn) = X &&& ~~~Y ∧ out (satFn exactShl) = X <<< s ∧ out (wrapFn patShr) = X >>> s ∧
     out (wrapFn patSar) = X.sshiftRight s ∧ out (wrapFn patRot) = X.rotateLeft s ∧
     (∀ i, i < w → (out (wrapFn patBrev)).getLsbD i = X.getLsbD (w - 1 - i)) ∧
     (wrapFn patPopc fmt x y z false).1 = ((List.range w).filter (fun i => X.getLsbD i)).length ∧
     (∀ n, (wrapFn patClz fmt x y z false).1 = n → n ≤ w ∧ (∀ i, w - n ≤ i → i < w → X.getLsbD i = false) ∧
       (n < w → X.getLsbD (w - 1 - n) = true)))

/-- R84: with sat, an operation that saturates answers the exact value where it is in the format, and otherwise the
nearer limit with the saturated flag; without it, it answers the exact value modulo 2^w and raises nothing. -/
def Obligations.SaturationLimits : Prop :=
  ∀ (fmt : Nat) (t : Int), fmt < 8 →
    (intMin fmt ≤ t → t ≤ intMax fmt → limitInt fmt true t = (wrapPat fmt t, {}) ∧ valOf fmt (wrapPat fmt t) = t) ∧
    (t < intMin fmt → (limitInt fmt true t).2 = { saturated := true } ∧ valOf fmt (limitInt fmt true t).1 = intMin fmt) ∧
    (intMax fmt < t → (limitInt fmt true t).2 = { saturated := true } ∧ valOf fmt (limitInt fmt true t).1 = intMax fmt) ∧
    (limitInt fmt false t).2 = {} ∧ (((limitInt fmt false t).1 : Int) - t) % (2 ^ intWidth fmt : Nat) = 0 ∧
    (limitInt fmt false t).1 < 2 ^ intWidth fmt

/-- R92: a vector CMP completes and writes its predicate or its mask from its elements' conditions, for Active threads
alone. -/
def Obligations.CompareResult : Prop :=
  ∀ x w s, Issues w (.cmp true x) s →
    let a := s.atIssue (.cmp true x) w
    let n := 64 / intWidth x.fmt
    let cond := fun l k => condHolds (x.cmpCond true) (valOf x.fmt (subOf (a.opndV x.a l) (intWidth x.fmt) k))
      (valOf x.fmt (a.intB x l k))
    ∃ t, exec (.cmp true x) s = .next t ∧ OnlyWarp w s t ∧
      t.warp w = { a with p := (t.warp w).p, m := (t.warp w).m } ∧
      (∀ r, ⟨.p, r⟩ ≠ x.cmpDest true → (t.warp w).rdP r = a.rdP r) ∧
      (∀ r, ⟨.m, r⟩ ≠ x.cmpDest true → (t.warp w).rdM r = a.rdM r) ∧
      (∀ r, x.cmpDest true = ⟨.p, r⟩ → r ≠ 0 → ∀ l, l < 32 → ((t.warp w).rdP r).getLsbD l =
        if bit (a.active x.g) l then
          (if x.cmpAny true then decide (∃ k, k < n ∧ a.enabled x.g x.vx.m l k = true ∧ cond l k = true)
           else decide (∀ k, k < n → a.enabled x.g x.vx.m l k = true → cond l k = true))
        else (a.rdP r).getLsbD l) ∧
      (∀ r, x.cmpDest true = ⟨.m, r⟩ → r ≠ 0 → ∀ l k, l < 32 → k < 8 → ((t.warp w).rdM r).getLsbD (8 * l + k) =
        if bit (a.active x.g) l then
          (if n ≤ k then false else if a.enabled x.g x.vx.m l k then cond l k
           else if x.vx.z then false else (a.rdM r).getLsbD (8 * l + k))
        else (a.rdM r).getLsbD (8 * l + k))

/-! ## Floating point and conversions (spec/05) -/

/-- R105, R107, R108, R112: the instructions of one rounding complete where nothing faults, each element through Merge
with the value, the flags and the generator steps of its operation; class 0x2 enters the latches, class 0x3 does not.
R104, R108, R111: so do the instructions on patterns. Rests on choices of the model: log entry 25. -/
def Obligations.VectorFloatResult : Prop :=
  (∀ x, VecCompletes (.fadd x) x true (floatWidth x.fmt) id (64 / floatWidth x.fmt) (floatOpElem x opAdd 2)) ∧
  (∀ x, VecCompletes (.fsub x) x true (floatWidth x.fmt) id (64 / floatWidth x.fmt) (floatOpElem x opSub 2)) ∧
  (∀ x, VecCompletes (.fmul x) x true (floatWidth x.fmt) id (64 / floatWidth x.fmt) (floatOpElem x opMul 2)) ∧
  (∀ x, VecCompletes (.ffma x) x true (floatWidth x.fmt) id (64 / floatWidth x.fmt) (floatOpElem x opFma 3)) ∧
  (∀ x, VecCompletes (.frnd x) x true (floatWidth x.fmt) id (64 / floatWidth x.fmt) (frndLane x)) ∧
  (∀ x, VecCompletes (.fscale x) x true (floatWidth x.fmt) id (64 / floatWidth x.fmt) (fscaleLane x)) ∧
  (∀ x, VecCompletes (.fdot2 x) x true (2 * floatWidth x.fmt) id (64 / (2 * floatWidth x.fmt)) (fdot2Lane x)) ∧
  (∀ x, VecCompletes (.fdot4 x) x true 32 id 2 (fdot4Lane x)) ∧
  (∀ x, VecCompletes (.fdiv x) x false (floatWidth x.fmt) id (64 / floatWidth x.fmt) (floatOpElem x opDiv 2)) ∧
  (∀ e ∈ ([(.fsqrt, sqrtVal), (.frcp, rcpVal), (.frsq, rsqVal), (.fexp2, exp2Val), (.flog2, log2Val), (.fsin, sinVal),
      (.fcos, cosVal), (.ftanh, tanhVal)] : List ((Alu → Instr) × (FVal → FRes))),
    ∀ x, VecCompletes (e.1 x) x false (floatWidth x.fmt) id (64 / floatWidth x.fmt) (floatOpElem x (opUn e.2) 1)) ∧
  (∀ e ∈ ([(.fmin, fun f p q => minMaxPat f false p q), (.fmax, fun f p q => minMaxPat f true p q), (.fabs, absPat),
      (.fneg, negPat), (.fclass, classPat)] : List ((Alu → Instr) × (FFmt → Nat → Nat → Nat × Flags))),
    ∀ x, VecCompletes (e.1 x) x true (floatWidth x.fmt) id (64 / floatWidth x.fmt) (patElem x e.2))

/-- R98, R101: a value that a format represents rounds to its own pattern in every mode, with no flag; a NaN rounds to
the canonical NaN of R98 where the format has one. In f32, f16 and bf16, RTZ of a positive value that is at most the
largest finite one takes the greatest pattern not above it, RUP the least not below it, and RNE one of the two. -/
def Obligations.Rounding : Prop :=
  (∀ f ∈ [f32, f64, f16, bf16, fp19, e5m2, e4m3, e3m2, e2m3, e2m1], ∀ p mode draw, p < 2 ^ (f.e + f.m + 1) →
    (f.decode p).isNan = false → roundVal f (f.decode p) mode draw = (p, {})) ∧
  (∀ sig mode draw, roundVal f32 (.nan sig) mode draw = (0x7FC00000, {}) ∧
    roundVal f64 (.nan sig) mode draw = (0x7FF8000000000000, {}) ∧ roundVal f16 (.nan sig) mode draw = (0x7E00, {}) ∧
    roundVal bf16 (.nan sig) mode draw = (0x7FC0, {}) ∧ roundVal e5m2 (.nan sig) mode draw = (0x7E, {}) ∧
    roundVal e4m3 (.nan sig) mode draw = (0x7F, {}) ∧
    ∀ f ∈ [e3m2, e2m3, e2m1], roundVal f (.nan sig) mode draw = (f.maxPat, { invalid := true })) ∧
  (∀ f ∈ [f32, f16, bf16], ∀ num den draw, 0 < num → 0 < den → lessVal (f.decode f.maxPat) (.fin false num den) = false →
    let x : FVal := .fin false num den
    let lo := (roundVal f x .rtz draw).1
    let hi := (roundVal f x .rup draw).1
    lo ≤ f.maxPat ∧ lessVal x (f.decode lo) = false ∧ lessVal x (f.decode (lo + 1)) = true ∧
    lessVal (f.decode hi) x = false ∧ (hi = lo ∨ hi = lo + 1) ∧
    ((roundVal f x .rne draw).1 = lo ∨ (roundVal f x .rne draw).1 = hi) ∧ (roundVal f x .rdn draw).1 = lo)

/-- Under the fault mode halt an instruction whose elements raise flags that fault sets the flags of all its elements
and raises the first applicable cause at the lowest lane, with no register, latch or generator written. -/
def Sys2Proof.Claims.VecFaults (i : Instr) (x : Alu) (n : Nat) (f : Warp → ElemFn) : Prop :=
  ∀ w s c l, Issues w i s → s.defers w = false → l < 32 →
    let a := s.atIssue i w
    let F := fun k => (elemsDone a x id (f a) k n).1
    let none_ := fun (p : Flags → Bool) (m : Nat) => ∀ k, k < m → a.isHelper k = false → p (F k) = false
    let first := fun (p : Flags → Bool) => a.isHelper l = false ∧ p (F l) = true ∧ none_ p l
    (c = 0x040 ∧ first (·.idz)) ∨ (c = 0x041 ∧ none_ (·.idz) 32 ∧ first (·.invalid)) ∨
      (c = 0x042 ∧ none_ (·.idz) 32 ∧ none_ (·.invalid) 32 ∧ first (·.dz)) ∨
      (c = 0x043 ∧ none_ (·.idz) 32 ∧ none_ (·.invalid) 32 ∧ none_ (·.dz) 32 ∧ first (·.overflow)) →
    ∃ b, exec i s = .next (((s.issued i w).setWarp w b).faultWarp w { cause := c, lane := l }) ∧
      b = { a with lanes := b.lanes } ∧
      ∀ k, k < 32 → b.lane k = { a.lane k with
        fflags := raiseFlags (a.lane k).fflags (F k), reported := (b.lane k).reported }

/-- R89, R105: which arithmetic fault an element-wise instruction raises, and what it leaves. Rests on choices of the
model: log entry 14. -/
def Obligations.ArithmeticFaults : Prop :=
  (∀ x, Claims.VecFaults (.div true x) x (64 / intWidth x.fmt) (intElem x false divFn)) ∧
  (∀ x, Claims.VecFaults (.rem true x) x (64 / intWidth x.fmt) (intElem x false remFn)) ∧
  (∀ e ∈ ([(.fadd, opAdd, 2), (.fsub, opSub, 2), (.fmul, opMul, 2), (.ffma, opFma, 3), (.fdiv, opDiv, 2),
      (.fsqrt, opUn sqrtVal, 1), (.frcp, opUn rcpVal, 1), (.frsq, opUn rsqVal, 1), (.fexp2, opUn exp2Val, 1),
      (.flog2, opUn log2Val, 1), (.fsin, opUn sinVal, 1), (.fcos, opUn cosVal, 1), (.ftanh, opUn tanhVal, 1)] :
      List ((Alu → Instr) × FloatOp × Nat)),
    ∀ x, Claims.VecFaults (e.1 x) x (64 / floatWidth x.fmt) (floatOpElem x e.2.1 e.2.2)) ∧
  (∀ x, Claims.VecFaults (.fmin x) x (64 / floatWidth x.fmt) (patElem x (fun f p q => minMaxPat f false p q))) ∧
  (∀ x, Claims.VecFaults (.fmax x) x (64 / floatWidth x.fmt) (patElem x (fun f p q => minMaxPat f true p q))) ∧
  (∀ x, Claims.VecFaults (.frnd x) x (64 / floatWidth x.fmt) (frndLane x)) ∧
  (∀ x, Claims.VecFaults (.fscale x) x (64 / floatWidth x.fmt) (fscaleLane x)) ∧
  (∀ x, Claims.VecFaults (.fdot4 x) x 2 (fdot4Lane x))

/-- R110: FCMP completes where no lane faults, writes its predicate or its mask from its conditions for Active threads
alone, and raises invalid where the condition says. -/
def Obligations.FloatCompareResult : Prop :=
  ∀ x w s, Issues w (.fcmp x) s →
    let a := s.atIssue (.fcmp x) w
    let n := 64 / floatWidth x.fmt
    let f := fmtOf x.fmt
    let r := fun l k => fcmpHolds (x.cmpCond true) (f.decode (subOf (a.opndV x.a l) (floatWidth x.fmt) k))
      (f.decode (a.floatB x l k))
    (s.defers w = true ∨ ∀ l k, l < 32 → k < n → a.isHelper l = false → a.enabled x.g x.vx.m l k = true → (r l k).2 = false) →
    ∃ t, exec (.fcmp x) s = .next t ∧ OnlyWarp w s t ∧
      t.warp w = { a with p := (t.warp w).p, m := (t.warp w).m, lanes := (t.warp w).lanes } ∧
      (∀ q, ⟨.p, q⟩ ≠ x.cmpDest true → (t.warp w).rdP q = a.rdP q) ∧
      (∀ q, ⟨.m, q⟩ ≠ x.cmpDest true → (t.warp w).rdM q = a.rdM q) ∧
      (∀ q, x.cmpDest true = ⟨.p, q⟩ → q ≠ 0 → ∀ l, l < 32 → ((t.warp w).rdP q).getLsbD l =
        if bit (a.active x.g) l then
          (if x.cmpAny true then decide (∃ k, k < n ∧ a.enabled x.g x.vx.m l k = true ∧ (r l k).1 = true)
           else decide (∀ k, k < n → a.enabled x.g x.vx.m l k = true → (r l k).1 = true))
        else (a.rdP q).getLsbD l) ∧
      (∀ q, x.cmpDest true = ⟨.m, q⟩ → q ≠ 0 → ∀ l k, l < 32 → k < 8 → ((t.warp w).rdM q).getLsbD (8 * l + k) =
        if bit (a.active x.g) l then
          (if n ≤ k then false else if a.enabled x.g x.vx.m l k then (r l k).1
           else if x.vx.z then false else (a.rdM q).getLsbD (8 * l + k))
        else (a.rdM q).getLsbD (8 * l + k)) ∧
      ∀ l, l < 32 → ((t.warp w).lane l).fflags = (a.lane l).fflags |||
        (if (List.range n).any (fun k => a.enabled x.g x.vx.m l k && (r l k).2) then 1#32 else 0#32)

/-- R114–R116, R119: CVT and CVTB.unpack complete where nothing faults; a CVT writes the sub-elements that its part
reaches and no others. -/
def Obligations.ConversionResult : Prop :=
  (∀ x, (Instr.cvt x).fieldsOk = true →
    VecCompletes (.cvt x) x false (Alu.cvtDst x) (Alu.cvtDstAt x) (Alu.cvtCount x) (cvtLane x)) ∧
  (∀ x, VecCompletes (.cvtbUnpack x) x false 32 id 2 (unpackLane x))

/-- R118: the elements, the two scales and the packed bytes of CVTB.pack, from the warp at issue. -/
def Sys2Proof.Claims.packX (a : Warp) (x : Alu) (i : Nat) : FVal :=
  if a.enabled x.g x.vx.m (i / 2) (i % 2) then f32.decode (subOf (a.opndV x.a (i / 2)) 32 (i % 2)) else .zero false

def Sys2Proof.Claims.packBlockScale (a : Warp) (x : Alu) (blk : Nat) : Nat :=
  if ∃ i, i < 32 ∧ ((Claims.packX a x (32 * blk + i)).isNan = true ∨ (Claims.packX a x (32 * blk + i)).isInf = true) then 0xFF
  else packScale (blockFmt (x.cNum % 16))
    (((List.range 32).map (fun i => Claims.packX a x (32 * blk + i))).foldl maxMag (.zero false))

/-- An element's result, with its lane's generator: the second element of a lane follows the first. -/
def Sys2Proof.Claims.packOne (a : Warp) (x : Alu) (i : Nat) (rg : BitVec 32) : Nat × Flags × BitVec 32 :=
  if a.enabled x.g x.vx.m (i / 2) (i % 2) then
    let mode := resolveRm x.vx.rm (a.lane (i / 2)).fflags
    let r := packElem (blockFmt (x.cNum % 16)) (Claims.packBlockScale a x (i / 32)) (Claims.packX a x i) mode (drawOf (stepIf mode rg))
    let v := Claims.packX a x i
    (r.1, r.2.or { invalid := v.isNan || v.isInf }, stepIf mode rg)
  else (0, {}, rg)

def Sys2Proof.Claims.packElemOf (a : Warp) (x : Alu) (i : Nat) : Nat × Flags × BitVec 32 :=
  Claims.packOne a x i (if i % 2 = 0 then (a.lane (i / 2)).rng else (Claims.packOne a x (i - 1) (a.lane (i / 2)).rng).2.2)

def Sys2Proof.Claims.packByte (a : Warp) (x : Alu) (o : Nat) : Nat :=
  let p := fun i => (Claims.packElemOf a x i).1
  if o = 248 then Claims.packBlockScale a x 0
  else if o = 249 then Claims.packBlockScale a x 1
  else if (blockFmt (x.cNum % 16)).packed then (if o < 32 then p (2 * o) + 16 * p (2 * o + 1) else 0)
  else if o < 64 then p o else 0

/-- R118: CVTB.pack without Active threads changes nothing; with some it completes where nothing faults, writes every
byte of its destination, and leaves the flags and the generator of each lane that its two elements give. Rests on
choices of the model: log entry 15. -/
def Obligations.PackResult : Prop :=
  ∀ x w s, Issues w (.cvtbPack x) s → (Instr.cvtbPack x).fieldsOk = true →
    let a := s.atIssue (.cvtbPack x) w
    let fl := fun l => (Claims.packElemOf a x (2 * l)).2.1.or (Claims.packElemOf a x (2 * l + 1)).2.1
    (a.active x.g = 0 → exec (.cvtbPack x) s = .next (s.issued (.cvtbPack x) w)) ∧
    (a.active x.g ≠ 0 →
      (s.defers w = true ∨ ∀ l, l < 32 → a.isHelper l = false →
        (fl l).invalid = false ∧ (fl l).dz = false ∧ (fl l).overflow = false) →
      ∃ t, exec (.cvtbPack x) s = .next t ∧ OnlyWarp w s t ∧
        t.warp w = { a with v := (t.warp w).v, lanes := (t.warp w).lanes } ∧
        (∀ n l, l < 32 → n ≠ x.d → (t.warp w).rdV n l = a.rdV n l) ∧
        (∀ o, o < 256 → subOf ((t.warp w).rdV x.d (o / 8)) 8 (o % 8) = Claims.packByte a x o % 256) ∧
        ∀ l, l < 32 → (t.warp w).lane l = { a.lane l with
          fflags := raiseFlags (a.lane l).fflags (fl l), rng := (Claims.packElemOf a x (2 * l + 1)).2.2
          reported := ((t.warp w).lane l).reported })

/-! ## Rearrangement and cross-lane (spec/08) -/

/-- R180–R186: the instructions whose every element is picked from the sources complete, through Merge. XPUT completes;
where several sources name one destination element the one with the highest element address wins, and an element that
none names is cleared by z and otherwise kept. Rests on choices of the model: log entry 25. -/
def Obligations.RearrangementResult : Prop :=
  (∀ e ∈ ([(.xrot, xrotPick), (.xshift, xshiftPick), (.xalign, xalignPick), (.xrev, xrevPick), (.xzip, xzipPick),
      (.xunzip, xunzipPick)] : List ((Alu → Instr) × (Alu → Warp → Nat → Nat → Nat → Nat))),
    ∀ x, VecCompletes (e.1 x) x true (intWidth x.fmt) id (64 / intWidth x.fmt) (pickElem (linPick x (e.2 x)))) ∧
  (∀ e ∈ ([(.xbcast, xbcastPick), (.qswap, qswapPick), (.qbcast, qbcastPick)] :
      List ((Alu → Instr) × (Alu → Warp → Nat → Nat → Nat))),
    ∀ x, VecCompletes (e.1 x) x true (intWidth x.fmt) id (64 / intWidth x.fmt) (pickElem (e.2 x))) ∧
  (∀ x, VecCompletes (.xget x) x false (intWidth x.fmt) id (64 / intWidth x.fmt) (pickElem (xgetPick x))) ∧
  (∀ x, VecCompletes (.permt x) x true 8 id 8 (pickElem (permtPick x))) ∧
  (∀ x, VecCompletes (.permb x) x true 8 id 8 (pickElem (permbPick x))) ∧
  (∀ x w s, Issues w (.xput x) s → x.nowb = false →
    let a := s.atIssue (.xput x) w
    let wd := intWidth x.fmt
    let hits := fun l k i => i < 256 ∧ i % 8 < 64 / wd ∧ a.enabled x.g x.vx.m (i / 8) (i % 8) = true ∧
      a.srcB x.b (fun _ => 0) wd (i / 8) (i % 8) % 256 = 8 * l + k
    ∃ t, exec (.xput x) s = .next t ∧ OnlyWarp w s t ∧
      t.warp w = { a with v := (t.warp w).v, lanes := (t.warp w).lanes } ∧ (∀ l, (t.warp w).lane l = a.lane l) ∧
      (∀ n l, l < 32 → n ≠ x.d → (t.warp w).rdV n l = a.rdV n l) ∧
      ∀ l k, l < 32 → k < 64 / wd →
        (∀ i, hits l k i → (∀ j, hits l k j → j ≤ i) →
          subOf ((t.warp w).rdV x.d l) wd k = subOf (a.opndV x.a (i / 8)) wd (i % 8)) ∧
        ((∀ i, ¬ hits l k i) → subOf ((t.warp w).rdV x.d l) wd k = if x.vx.z then 0 else subOf (a.rdV x.d l) wd k))

/-- R188: the loop over linear indices: acc after the first `j` elements, with the flags and the generator of the lane
that holds the last of them. -/
def Sys2Proof.Claims.scanTo (a : Warp) (x : Alu) : Nat → Option Nat × Flags × BitVec 32
  | 0 => (none, {}, 0)
  | j + 1 =>
    let n := 64 / scanWidth x
    let c := Claims.scanTo a x j
    let here : Flags × BitVec 32 := if j % n = 0 then ({}, (a.lane (j / n)).rng) else c.2
    if a.enabled x.g x.vx.m (j / n) (j % n) && !a.isHelper (j / n) then
      let p := subOf (a.opndV x.a (j / n)) (scanWidth x) (j % n)
      let e := match c.1 with
        | none => scanFirst x p here.2
        | some v => scanStep x v p (a.lane (j / n)).fflags here.2
      (some e.val, here.1.or e.fl, e.rng)
    else (c.1, here)

/-- No lane of SCAN or REDUCE raises a fault. -/
def Sys2Proof.Claims.ScanCalm (s : State) (w : Nat) (a : Warp) (x : Alu) : Prop :=
  s.defers w = true ∨ ∀ l, l < 32 → a.isHelper l = false →
    let f := (Claims.scanTo a x (64 / scanWidth x * (l + 1))).2.1
    f.idz = false ∧ f.invalid = false ∧ f.dz = false ∧ f.overflow = false

/-- Every lane has the flags and the generator that the loop leaves it. -/
def Sys2Proof.Claims.ScanLanes (a b : Warp) (x : Alu) : Prop :=
  ∀ l, l < 32 → b.lane l = { a.lane l with
    fflags := raiseFlags (a.lane l).fflags (Claims.scanTo a x (64 / scanWidth x * (l + 1))).2.1
    rng := (Claims.scanTo a x (64 / scanWidth x * (l + 1))).2.2, reported := (b.lane l).reported }

/-- R187, R188: SCAN and REDUCE complete with the prefixes and the final acc of the loop. -/
def Obligations.ScanReduceResult : Prop :=
  (∀ x w s, Issues w (.scan x) s → x.nowb = false → x.fmt < 8 →
    let a := s.atIssue (.scan x) w
    let n := 64 / scanWidth x
    Claims.ScanCalm s w a x →
    ∃ t, exec (.scan x) s = .next t ∧ OnlyWarp w s t ∧
      t.warp w = { a with v := (t.warp w).v, lanes := (t.warp w).lanes } ∧ Claims.ScanLanes a (t.warp w) x ∧
      (∀ r l, l < 32 → r ≠ x.d → (t.warp w).rdV r l = a.rdV r l) ∧
      ∀ l k, l < 32 → k < n → subOf ((t.warp w).rdV x.d l) (scanWidth x) k =
        if a.enabled x.g x.vx.m l k then
          (Claims.scanTo a x (n * l + k + (if bit x.cNum 5 then 0 else 1))).1.getD (scanId x) % 2 ^ scanWidth x
        else if x.vx.z then 0 else subOf (a.rdV x.d l) (scanWidth x) k) ∧
  (∀ x w s, Issues w (.reduce x) s → x.fmt < 8 →
    let a := s.atIssue (.reduce x) w
    a.active x.g ≠ 0 → Claims.ScanCalm s w a x →
    ∃ t, exec (.reduce x) s = .next t ∧ OnlyWarp w s t ∧
      t.warp w = { a with s := (t.warp w).s, lanes := (t.warp w).lanes } ∧ Claims.ScanLanes a (t.warp w) x ∧
      ∀ r, (t.warp w).rdS r =
        if r = x.d ∧ r ≠ 0 then
          (let acc := (Claims.scanTo a x (32 * (64 / scanWidth x))).1.getD (scanId x)
           if bit x.cNum 4 then BitVec.ofNat 64 acc else extendTo64 x.fmt acc)
        else a.rdS r)

/-- R189: the votes complete: BALLOT gathers the counted bits, FIRST finds the lowest and POPCP counts them, and VOTE
writes one value to every Active thread. -/
def Obligations.VoteResult : Prop :=
  ∀ x w s,
    let P := fun (a : Warp) l => l < 32 ∧ a.enabled x.g x.vx.m l 0 = true ∧ a.isHelper l = false
    let M := fun (a : Warp) i => i < 256 ∧ a.enabled x.g x.vx.m (i / 8) (i % 8) = true ∧ a.isHelper (i / 8) = false
    let S := fun (a : Warp) i => if bit x.cNum 0 then M a i ∧ (a.rdM x.aNum).getLsbD i = true
      else P a i ∧ (a.rdP x.aNum).getLsbD i = true
    let done := fun (i : Instr) (t : State) => exec i s = .next t ∧ OnlyWarp w s t ∧
      t.warp w = { s.atIssue i w with s := (t.warp w).s } ∧ (∀ n, n ≠ x.d → (t.warp w).rdS n = (s.atIssue i w).rdS n)
    (Issues w (.ballot x) s → (s.atIssue (.ballot x) w).active x.g ≠ 0 → ∃ t, done (.ballot x) t ∧
      (x.d ≠ 0 → ∀ l, ((t.warp w).rdS x.d).getLsbD l = decide (P (s.atIssue (.ballot x) w) l ∧
        ((s.atIssue (.ballot x) w).rdP x.aNum).getLsbD l = true))) ∧
    (Issues w (.first x) s → (s.atIssue (.first x) w).active x.g ≠ 0 → ∃ t, done (.first x) t ∧
      (x.d ≠ 0 → ∀ i, S (s.atIssue (.first x) w) i → (∀ j, S (s.atIssue (.first x) w) j → i ≤ j) →
        (t.warp w).rdS x.d = BitVec.ofNat 64 i) ∧
      (x.d ≠ 0 → (∀ i, ¬ S (s.atIssue (.first x) w) i) →
        (t.warp w).rdS x.d = if bit x.cNum 0 then 256 else 32)) ∧
    (Issues w (.popcp x) s → (s.atIssue (.popcp x) w).active x.g ≠ 0 → ∃ t, done (.popcp x) t ∧
      (x.d ≠ 0 → (t.warp w).rdS x.d = BitVec.ofNat 64 ((s.atIssue (.popcp x) w).votes x).length) ∧
      (∀ i, i ∈ (s.atIssue (.popcp x) w).votes x ↔ S (s.atIssue (.popcp x) w) i) ∧
      ((s.atIssue (.popcp x) w).votes x).Nodup) ∧
    (Issues w (.vote x) s → x.cNum < 3 →
      let a := s.atIssue (.vote x) w
      ∃ t v, exec (.vote x) s = .next t ∧ OnlyWarp w s t ∧ t.warp w = { a with p := (t.warp w).p } ∧
        (x.cNum = 0 → (v = true ↔ ∀ l, P a l → (a.rdP x.aNum).getLsbD l = true)) ∧
        (x.cNum = 1 → (v = true ↔ ∃ l, P a l ∧ (a.rdP x.aNum).getLsbD l = true)) ∧
        (x.cNum = 2 → (v = true ↔ ∀ l k, P a l → P a k → (a.rdP x.aNum).getLsbD l = (a.rdP x.aNum).getLsbD k)) ∧
        (∀ n, n ≠ x.d → (t.warp w).rdP n = a.rdP n) ∧
        (x.d ≠ 0 → ∀ l, l < 32 → ((t.warp w).rdP x.d).getLsbD l =
          if bit (a.active x.g) l then v else (a.rdP x.d).getLsbD l))

/-! ## P-words (R29–R32) -/

/-- One element of a slot, and its width. -/
def Sys2Proof.Claims.slotWidth (x : Slot) : Nat := if x.op.isFloat then floatWidth x.fmt else intWidth x.fmt

def Sys2Proof.Claims.slotFn (x : Slot) (a : Warp) : ElemFn := fun l k ff rg =>
  slotElem x (subOf (a.opndV (slotAlu x).a l) (Claims.slotWidth x) k) (subOf (a.opndV x.a l) (Claims.slotWidth x) k) ff rg

def Sys2Proof.Claims.slotVal (x : Slot) (a : Warp) (l k : Nat) : Nat :=
  elemVal a (slotAlu x) id (Claims.slotFn x a) l k % 2 ^ Claims.slotWidth x

def Sys2Proof.Claims.slotFlags (x : Slot) (a : Warp) (l : Nat) : Flags :=
  (elemsDone a (slotAlu x) id (Claims.slotFn x a) l (64 / Claims.slotWidth x)).1

/-- R32, R33: a P-word whose slots raise no fault completes: each slot's register and latch hold what it computes from
the registers and latches before the P-word. -/
def Obligations.PairResult : Prop :=
  ∀ A B w s, Issues w (.pWord A B) s → pairOk A B = true →
    let a := s.atIssue (.pWord A B) w
    let calm := fun x => s.defers w = true ∨ ∀ l, l < 32 → a.isHelper l = false →
      let f := Claims.slotFlags x a l
      f.idz = false ∧ f.invalid = false ∧ f.dz = false ∧ f.overflow = false
    calm A → calm B →
    ∃ t l0 l1, exec (.pWord A B) s = .next t ∧ OnlyWarp w s t ∧
      t.warp w = { a with v := (t.warp w).v, lanes := (t.warp w).lanes, latches := ⟨l0, l1, a.latches.l0, a.latches.l1⟩ } ∧
      (∀ n l, l < 32 → (n ≠ A.d ∨ A.nowb = true) → (n ≠ B.d ∨ B.nowb = true) → (t.warp w).rdV n l = a.rdV n l) ∧
      (∀ x ∈ [A, B], x.nowb = false → ∀ l k, l < 32 → k < 64 / Claims.slotWidth x →
        subOf ((t.warp w).rdV x.d l) (Claims.slotWidth x) k =
          if bit (a.active x.g) l then Claims.slotVal x a l k else subOf (a.rdV x.d l) (Claims.slotWidth x) k) ∧
      (∀ r ∈ [(l1, A), (l0, B)], r.1.serves .v = true ∧ ∀ l k, l < 32 → k < 64 / Claims.slotWidth r.2 →
        subOf (r.1.laneOf l) (Claims.slotWidth r.2) k = if bit (a.active r.2.g) l then Claims.slotVal r.2 a l k else 0) ∧
      ∀ l, l < 32 → (t.warp w).lane l = { a.lane l with
        fflags := raiseFlags (raiseFlags (a.lane l).fflags (Claims.slotFlags A a l)) (Claims.slotFlags B a l)
        reported := ((t.warp w).lane l).reported }

/-! ## Control (spec/03) -/

/-- Threads of a group that a control transfer takes have moved to their targets, and the others stand at the sequential
successor; when some thread has moved elsewhere a selection is due, which will check its address. -/
def Sys2Proof.Claims.Jumped (taken : Nat → Bool) (target : Nat → Nat) (a b : Warp) : Prop :=
  b = { a with lanes := b.lanes, selDue := b.selDue } ∧ (∀ l, 32 ≤ l → b.lane l = a.lane l) ∧
  (∀ l, l < 32 → b.lane l = if taken l = true ∧ target l ≠ a.npc then
    { a.lane l with pc := target l, xfer := some a.pc } else a.lane l) ∧
  (b.selDue = true ↔ a.selDue = true ∨ ∃ l, l < 32 ∧ taken l = true ∧ target l ≠ a.npc)

/-- R23, R65, R70–R72: the branches, the indirect transfers and CALL complete; threads that are not taken stand at the
sequential successor. A helper takes the condition and the target of its host. -/
def Obligations.BranchResult : Prop :=
  ∀ w s,
    let T := fun (a : Warp) (x : Br) => ((a.pc : Int) + 4 * sext 24 x.off).emod (2 ^ 64) |>.toNat
    let done := fun (i : Instr) (taken : Warp → Nat → Bool) (target : Warp → Nat → Nat) => Issues w i s →
      ∃ t, exec i s = .next t ∧ OnlyWarp w s t ∧
        Claims.Jumped (taken (s.atIssue i w)) (target (s.atIssue i w)) (s.atIssue i w) (t.warp w)
    (∀ x, done (.br x) (fun a l => bit (a.active x.g) l) (fun a _ => T a x)) ∧
    (∀ x, done (.bru x) (fun a l => a.active x.g != 0 && (a.rdS x.a != 0) != x.cneg && bit a.group l) (fun a _ => T a x)) ∧
    (∀ x, done (.brp x) (fun a l => bit (a.active x.g) l && (a.rdP x.a).getLsbD (a.leader l) != x.cneg) (fun a _ => T a x)) ∧
    (∀ x, done (.brx x) (fun a l => bit (a.active x.g) l) (fun a l => (a.rdV x.a (a.leader l)).toNat)) ∧
    (∀ x, done (.ret x) (fun a l => bit (a.active x.g) l) (fun a l => (a.rdV x.a (a.leader l)).toNat)) ∧
    (∀ x, Issues w (.call x) s →
      ∃ t b, exec (.call x) s = .next t ∧ OnlyWarp w s t ∧
        b = { s.atIssue (.call x) w with v := b.v } ∧
        (∀ n l, l < 32 → b.rdV n l = if n = x.a ∧ bit ((s.atIssue (.call x) w).active x.g) l = true then
          BitVec.ofNat 64 (s.atIssue (.call x) w).npc else (s.atIssue (.call x) w).rdV n l) ∧
        Claims.Jumped (fun l => bit ((s.atIssue (.call x) w).active x.g) l) (fun _ => T (s.atIssue (.call x) w) x) b (t.warp w))

/-- R64, R283, R286: the control instructions of a matrix control core complete. -/
def Obligations.MccControlResult : Prop :=
  ∀ k s, IssuesMcc k s →
    let m := s.mcc k
    let T := fun (x : Br) => ((m.cur : Int) + 4 * sext 24 x.off).emod (2 ^ 64) |>.toNat
    let goes := fun (m' : Mcc) (t : Nat) =>
      { m' with pc := t, xfer := if t = m.npc then none else some m.cur }
    let done := fun (i : Instr) (m' : Mcc) => ∃ t, exec i s = .next t ∧ OnlyMcc k s t ∧ t.mcc k = m'
    (∀ x, done (.br x) (goes m (T x))) ∧
    (∀ x, done (.bru x) (goes m (if (m.rdS x.a != 0) != x.cneg then T x else m.npc))) ∧
    (∀ x, done (.call x) (goes (m.wrS x.a (BitVec.ofNat 64 m.npc)) (T x))) ∧
    (∀ x, done (.ret x) (goes m (m.rdS x.a).toNat)) ∧
    (∀ x, done (.exit x) { goes m m.npc with exited := true })

/-- R58, R73, R75: JOIN waits for the stores and atomics in flight that its group issued, YIELD sets its Active
threads' yielded flags and makes a selection due, NOP does nothing; the whole group stands at the sequential successor.
Rests on choices of the model: log entry 52. -/
def Obligations.JoinYieldNopResult : Prop :=
  ∀ w s x,
    (Issues w (.join x) s → ∃ t, exec (.join x) s = .next t ∧ OnlyWarp w s t ∧
      t.warp w = { s.atIssue (.join x) w with blocking := (t.warp w).blocking } ∧
      ((t.warp w).blocking = .free ↔ (s.issued (.join x) w).flying w (s.atIssue (.join x) w).group storesOrAtomic = []) ∧
      ∀ l, (t.warp w).blocking = .ops l → ∀ o, o ∈ l ↔
        ∃ op i, (o, op) ∈ s.ops.cells ∧ op.st = .flying ∧ op.warp = w ∧ op.orphan = false ∧
          op.lanes &&& (s.atIssue (.join x) w).group ≠ 0 ∧ op.instr = some i ∧ storesOrAtomic i = true) ∧
    (Issues w (.yield x) s → ∃ t, exec (.yield x) s = .next t ∧ OnlyWarp w s t ∧
      t.warp w = { s.atIssue (.yield x) w with lanes := (t.warp w).lanes, selDue := true } ∧
      ∀ l, l < 32 → (t.warp w).lane l = if bit ((s.atIssue (.yield x) w).active x.g) l then
        { (s.atIssue (.yield x) w).lane l with yielded := true } else (s.atIssue (.yield x) w).lane l) ∧
    (Issues w (.nop x) s → exec (.nop x) s = .next (s.issued (.nop x) w))

/-- R74: EXIT of threads that are no helpers, outside handlers: each Active one becomes a helper where QHELP keeps it,
and otherwise drains, and is exited at once where its streams are idle; a thread outside is as before unless it was
draining and idle, or a helper. Other warps, registers and jobs are as before. -/
def Obligations.ExitResult : Prop :=
  ∀ w s x, Issues w (.exit x) s → (s.warp w).mode = .normal →
    let a := s.atIssue (.exit x) w
    let X := fun l => bit (a.active x.g) l = true ∧ a.isHelper l = false
    let keeps := fun l => (s.block a.block).rcd.qh = true ∧
      ∃ k, k / 4 = l / 4 ∧ k < 32 ∧ a.standing k = true ∧ ¬ X k
    ∃ t, exec (.exit x) s = .next t ∧ (∀ u, u ≠ w → t.warp u = s.warp u) ∧
      KeepsRegs [] a (t.warp w) ∧ (t.warp w).group = a.group ∧ (t.warp w).selDue = true ∧
      (t = { s with warps := t.warps, mem := t.mem, l1 := t.l1, rdc := t.rdc }) ∧
      ∀ l, l < 32 →
        (X l → ¬ keeps l → a.idle l = true → ((t.warp w).lane l).st = .exited) ∧
        (X l → ¬ keeps l → a.idle l = false → ((t.warp w).lane l).st = .draining ∧ ((t.warp w).lane l).pc = a.pc) ∧
        (X l → keeps l → ((t.warp w).lane l).st = .helper ∨ ((t.warp w).lane l).st = .exited) ∧
        (¬ X l → (a.lane l).st ≠ .draining → a.isHelper l = false → (t.warp w).lane l = a.lane l)

/-- R76: PLOP's truth table, on each Active thread. -/
def Obligations.PredicateLogic : Prop :=
  ∀ w s d a b c tt g, Issues w (.plop d a b c tt g) s →
    let wp := s.atIssue (.plop d a b c tt g) w
    let bitOf := fun n l => if (wp.rdP n).getLsbD l then 1 else 0
    ∃ t, exec (.plop d a b c tt g) s = .next t ∧ OnlyWarp w s t ∧ t.warp w = { wp with p := (t.warp w).p } ∧
      (∀ n, n ≠ d → (t.warp w).rdP n = wp.rdP n) ∧
      ∀ l, l < 32 → ((t.warp w).rdP d).getLsbD l =
        if bit (wp.active g) l = true ∧ d ≠ 0 then tt.testBit (4 * bitOf a l + 2 * bitOf b l + bitOf c l)
        else (wp.rdP d).getLsbD l

/-- R66: PLOP and the kinds of PMOV that act on each thread write the bits of Active threads alone, and writes to p0
and m0 are ignored. R78: the five kinds of PMOV. -/
def Obligations.PredicateMoves : Prop :=
  (∀ w s d a b c tt g, Issues w (.plop d a b c tt g) s →
    let wp := s.atIssue (.plop d a b c tt g) w
    ∃ t, exec (.plop d a b c tt g) s = .next t ∧ KeepsRegs [⟨.p, d⟩] wp (t.warp w) ∧ (t.warp w).rdP 0 = BitVec.allOnes 32 ∧
      ∀ l, l < 32 → bit (wp.active g) l = false → ((t.warp w).rdP d).getLsbD l = (wp.rdP d).getLsbD l) ∧
  (∀ w s x, Issues w (.pmov x) s → x.b < 5 →
    let a := s.atIssue (.pmov x) w
    let act := fun l => bit (a.active x.g) l = true
    ∃ t, exec (.pmov x) s = .next t ∧ OnlyWarp w s t ∧
      t.warp w = { a with s := (t.warp w).s, p := (t.warp w).p, m := (t.warp w).m } ∧
      KeepsRegs [(pmovRegs x).2] a (t.warp w) ∧ (t.warp w).rdP 0 = BitVec.allOnes 32 ∧
      (t.warp w).rdM 0 = BitVec.allOnes 256 ∧
      (x.d ≠ 0 → x.b = 0 → ∀ l, l < 32 → ((t.warp w).rdP x.d).getLsbD l = (a.rdP (if act l then x.a else x.d)).getLsbD l) ∧
      (x.d ≠ 0 → x.b = 1 → (t.warp w).rdP x.d = if a.active x.g = 0 then a.rdP x.d else (a.rdS x.a).setWidth 32) ∧
      (x.d ≠ 0 → x.b = 2 → (t.warp w).rdS x.d = if a.active x.g = 0 then a.rdS x.d else (a.rdP x.a).setWidth 64) ∧
      (x.d ≠ 0 → x.b = 3 → ∀ l k, l < 32 → k < 8 → ((t.warp w).rdM x.d).getLsbD (8 * l + k) =
        if act l then (a.rdP x.a).getLsbD l else (a.rdM x.d).getLsbD (8 * l + k)) ∧
      (x.d ≠ 0 → x.b = 4 → ∀ l, l < 32 → (((t.warp w).rdP x.d).getLsbD l = true ↔
        if act l then ∃ k, k < 8 ∧ (a.rdM x.a).getLsbD (8 * l + k) = true else (a.rdP x.d).getLsbD l = true)))

/-! ## Issue, faults and handlers (spec/02, spec/03, spec/22) -/

/-- Nothing makes the instruction wait at issue: a return or a yield for its handler's operations (R437, R438), an
accumulator move for an MCC that has not stopped (R307), or for its threads' earlier operations (R305). -/
def Sys2Proof.Claims.ready (s : State) (i : Instr) (w : Nat) : Bool :=
  !s.mustWait i w && (match i with
    | .accrd x | .accwr x | .accrdc x => !s.accWaits w x.g
    | _ => true)

/-- R25, R34, R35, R40: what issue finds wrong, in its order: a register beyond the budgets, a latch that does not hold
what is read of it, a chain of more than 16 latch readers. The warp then halts at the chain head. R41: an issued group
stands at the sequential successor, and nothing else of any thread changes. Rests on choices of the model: log entries
11, 13. -/
def Obligations.IssueRules : Prop :=
  (∀ (i : Instr) (s : State) w, s.issuer = .warp w → i.form.isSome = true → i.mccOnly = false → Claims.ready s i w = true →
    let a := (s.warp w).beginIssue i
    let beyond := ∃ r ∈ i.budgeted .vector, (r.kind = .v ∧ a.vb ≤ r.n) ∨ (r.kind = .s ∧ a.sb ≤ r.n)
    let unlatched := ∃ r ∈ i.latchReads, (a.latches.get r.2).serves r.1 = false
    let faults := fun (c : Nat) => ∃ ps, exec i s = .next ((s.issued i w).faultWarp w { cause := c, ps := ps })
    (beyond → faults 0x022) ∧
    (¬ beyond → unlatched → faults 0x024) ∧
    (¬ beyond → ¬ unlatched → 16 < a.chainLen → faults 0x025) ∧
    (¬ beyond → ¬ unlatched → a.chainLen ≤ 16 → Issues w i s)) ∧
  (∀ (s : State) (i : Instr) w l, l < 32 →
    (s.atIssue i w).lane l = (if bit (s.warp w).group l then { (s.warp w).lane l with pc := (s.warp w).npc }
      else (s.warp w).lane l) ∧
    OnlyWarp w s (s.issued i w) ∧
    s.atIssue i w = { s.warp w with
      lanes := (s.atIssue i w).lanes, latches := (s.atIssue i w).latches, chainHead := (s.atIssue i w).chainHead
      chainLen := (s.atIssue i w).chainLen, inRun := (s.atIssue i w).inRun })

/-- An outcome with time passed. -/
def Sys2Proof.Claims.passed : Answer → Answer
  | .next t => .next t.advance
  | .fault f => .fault f
  | .refused r => .refused r

/-- The parcels of a block held in a cache begin, at an address, with an instruction; what its stream makes of it, and
where the next instruction of the block starts. -/
def Sys2Proof.Claims.HoldsAt (s : State) (fe asid : Nat) (sd : Side) (pc : Nat) (i : Instr) (next : Nat) : Prop :=
  ∃ b it it', pc % 4 = 0 ∧ s.fillBlock fe asid (pc / 64 * 64) = some b ∧ b.fault = none ∧ it ∈ scanBlock b.parcels ∧
    it' ∈ scanBlock b.parcels ∧ pc / 64 * 64 + 4 * it.start = pc ∧ it.start < it'.start ∧
    (∀ x ∈ scanBlock b.parcels, it.start < x.start → it'.start ≤ x.start) ∧ pc / 64 * 64 + 4 * it'.start = next ∧
    decodeItem sd it = .ok i

/-- Slot `k` stays with warp `w`, or stays with none and `w` alone can issue. -/
def Sys2Proof.Claims.Chosen (t : State) (k w : Nat) : Prop :=
  (t.slotWarps k).find? t.keepsSlot = some w ∨
    ((t.slotWarps k).find? t.keepsSlot = none ∧
      (t.slotWarps k).filter (fun x => !(t.warp x).attention && t.poised x) = [w])

/-- R36, R38, R62, R283, R322: a step of an issue slot that keeps a warp or has one that can issue, of a matrix control
core or of a handler runs the instruction that decodes where its program counter points, a tick that was due and what
precedes the slot's choice done, its engine having room (R245, R368) and its tokens paid; and an event's step is the event;
time passes after each. Rests on choices of the model: log entries 1, 2, 56. -/
def Obligations.StepRunsDecoded : Prop :=
  (∀ (s : State) k w pc i next, s.powered = true → s.turn = .slot k →
    let t := (s.ticked (k / 64)).prepareSlot k
    Claims.Chosen t k w → (t.warp w).groupPc = some (pc, true) →
    Claims.HoldsAt t (t.block (t.warp w).block).core (t.asidOf w) .vector pc i next →
    t.mayIssue w i = true → t.engineFull w i = false → (t.chargeWarp w i.price).2 = true →
    let u := (t.chargeWarp w i.price).1
    step s = Claims.passed (exec i { u.setWarp w ((u.warp w).issuing pc next) with issuer := .warp w })) ∧
  (∀ (s : State) k g i next, s.powered = true → s.turn = .mcc k → s.mccRuns k = true → (s.mcc k).gang = some g →
    let t := (s.gang g).blocks.foldl State.openBlock (s.ticked (k / 4))
    Claims.HoldsAt t (384 + k) (t.job (t.block (t.member0 k)).job).asid .mcc (t.mcc k).pc i next →
    t.mccRoom i k = true → (t.chargeMcc k i.price).2 = true →
    let u := (t.chargeMcc k i.price).1
    step s = Claims.passed (exec i { u.setMcc k { u.mcc k with cur := (t.mcc k).pc, npc := next } with issuer := .mcc k })) ∧
  (∀ (s : State) k, s.powered = true → s.turn = .slice k → (s.slice k).st = .running →
    (s.slice k).count < (s.slice k).budget → (s.slice k).pc % 2 = 0 → (s.slice k).running.ibase ≤ (s.slice k).pc →
    let w := ofBytes ((s.slice k).imem.readBytes 4 (s.slice k).pc)
    (s.slice k).pc + sliceLen w ≤ (s.slice k).running.ihi →
    step s = Claims.passed (exec (decodeSlice w) { s with issuer := .slice k })) ∧
  (∀ (s : State) e, s.turn = .event e → e.isEvent = true → s.powered = true →
    step s = Claims.passed (exec e { s with issuer := .none }))

/-- R414, R420, R423: a halt at `pc`. The warp stops with its cause; its registers and counts stay, and it leaves no
latch; its frame is written with kind 010, the place of the fault and each thread's PC, a helper's being its host's, and
nothing else of memory; the host gets a completion of kind 3. R287: a matrix control core halts at the faulting instruction, and the host gets kind
7. -/
def Obligations.HaltTaken : Prop :=
  (∀ (s : State) w (f : Trap), (s.warp w).mode = .normal →
    let a := s.warp w
    let b := s.block a.block
    let fp := b.savePa + 0x1000 + 0x4000 * a.index
    let t := s.faultWarp w f
    let word0 := 2 * 2 ^ 60 + f.ps * 2 ^ 40 + a.index * 2 ^ 32 + f.lane * 2 ^ 24 + f.cause
    let field := fun (off : Nat) => ofBytes (t.mem.readBytes 8 (fp + off))
    (t.warp w).halted = true ∧ (t.warp w).cause = f.cause ∧ (t.warp w).latches = {} ∧
    KeepsRegs [] a (t.warp w) ∧ (t.warp w).own = a.own ∧ (t.warp w).hnd = a.hnd ∧ (t.warp w).mode = .normal ∧
    (∀ l, l < 32 → ((t.warp w).lane l).pc = (if bit a.group l then a.chainHead else (a.lane l).pc) ∧
      ((t.warp w).lane l).st = (a.lane l).st ∧ ((t.warp w).lane l).fflags = (a.lane l).fflags ∧
      ((t.warp w).lane l).rng = (a.lane l).rng ∧ ((t.warp w).lane l).wait.joined = 0) ∧
    (∀ u, u ≠ w → t.warp u = s.warp u) ∧
    t = { s with warps := t.warps, mem := t.mem, l1 := t.l1, rdc := t.rdc, completions := t.completions } ∧
    (∀ pa, pa < fp ∨ fp + 0x4000 ≤ pa → t.mem.read pa = s.mem.read pa) ∧
    field 0 = word0 % 2 ^ 64 ∧ field 8 = a.pc % 2 ^ 64 ∧ field 0x18 = f.addr % 2 ^ 64 ∧
    field 0x20 = s.time % 2 ^ 64 ∧ field 0x28 = a.chainHead % 2 ^ 64 ∧
    (∀ l, l < 32 → field (0x040 + 8 * l) = ((t.warp w).lane ((t.warp w).leader l)).pc % 2 ^ 64) ∧
    t.completions = s.completions ++ [{
      port := (s.job b.job).port
      w0 := 3 + b.core / 16 * 2 ^ 8 + b.job * 2 ^ 16 + (b.core % 16 + b.resSlot * 2 ^ 4 + a.index * 2 ^ 9) * 2 ^ 32
      w1 := word0 % 2 ^ 64, w2 := a.pc, w3 := f.addr }]) ∧
  (∀ (s : State) w (f : Trap), (s.warp w).mode ≠ .normal →
    let a := s.warp w
    let fp := (s.block a.block).savePa + 0x1000 + 0x4000 * a.index
    let t := s.faultWarp w f
    (t.warp w).halted = true ∧ (t.warp w).cause = f.cause ∧ (t.warp w).mode = a.mode ∧
    (∀ pa, pa < fp ∨ fp + 0x30 ≤ pa → t.mem.read pa = s.mem.read pa) ∧
    ofBytes (t.mem.readBytes 8 fp) =
      (2 ^ 63 + 2 * 2 ^ 60 + f.ps * 2 ^ 40 + a.index * 2 ^ 32 + f.lane * 2 ^ 24 + f.cause) % 2 ^ 64) ∧
  (∀ (s : State) k cause pc,
    let t := s.faultMcc k cause pc
    let b := s.block (s.member0 k)
    t.mcc k = { s.mcc k with halted := true, cause := cause, pc := pc, inWait := none } ∧
    (∀ j, j ≠ k → t.mcc j = s.mcc j) ∧
    t = { s with mccs := t.mccs, completions := s.completions ++ [{
      port := (s.job b.job).port, w0 := 7 + k / 4 * 2 ^ 8 + b.job * 2 ^ 16 + k % 4 * 2 ^ 32
      w1 := cause, w2 := pc, w3 := 0 }] })

/-- R425: a warp that enters its handler has all its threads live at the pre-emption entry as one group, its handler
streams zero and no latch, its registers as they were, and its frame written with kind 001. R437: RETT, once the
operations of the handler streams have performed, puts back what the frame holds: PCs, predicates, masks, s1–s15, flags
and generators; vector registers stay, and no thread is parked. R438: YIELDP saves the resume PC. R439: TRAP n halts
with cause 0x100 + n, its group past it. Outside a handler RETT and YIELDP raise 0x00A. Rests on choices of the model:
log entries 20, 36. -/
def Obligations.HandlerEntryAndReturn : Prop :=
  (∀ (s : State) w cause, (s.warp w).mode = .normal →
    let a := s.warp w
    let b := s.block a.block
    let fp := b.savePa + 0x1000 + 0x4000 * a.index
    let t := s.enterHandler w cause
    (t.warp w).mode = .handler ∧ (t.warp w).hnd = {} ∧ (t.warp w).own = a.own ∧ (t.warp w).latches = {} ∧
    (t.warp w).group = 2 ^ 32 - 1 ∧ KeepsRegs [] a (t.warp w) ∧
    (∀ l, l < 32 → ((t.warp w).lane l).st = .live ∧ ((t.warp w).lane l).pc = b.rcd.pentry ∧
      ((t.warp w).lane l).yielded = false ∧ ((t.warp w).lane l).fflags = (a.lane l).fflags ∧
      ((t.warp w).lane l).rng = (a.lane l).rng) ∧
    (∀ u, u ≠ w → t.warp u = s.warp u) ∧ t = { s with warps := t.warps, mem := t.mem, l1 := t.l1, rdc := t.rdc } ∧
    (∀ pa, pa < fp ∨ fp + 0x4000 ≤ pa → t.mem.read pa = s.mem.read pa) ∧
    ofBytes (t.mem.readBytes 8 fp) = (2 ^ 60 + a.index * 2 ^ 32 + cause) % 2 ^ 64 ∧
    (∀ l, l < 32 → ofBytes (t.mem.readBytes 8 (fp + 0x040 + 8 * l)) = (a.lane (a.leader l)).pc % 2 ^ 64)) ∧
  (∀ w s x, Issues w (.rett x) s → (s.warp w).mayReturn = true → s.handlerDone w = true →
    (s.block (s.warp w).block).held = none → (s.block (s.warp w).block).cancelDue = false →
    let a := s.atIssue (.rett x) w
    let m := ((s.issued (.rett x) w).handlerRelease w).mem
    let fp := (s.block a.block).savePa + 0x1000 + 0x4000 * a.index
    let field := fun (n off : Nat) => ofBytes (m.readBytes n (fp + off))
    ∃ t, exec (.rett x) s = .next t ∧ (∀ u, u ≠ w → t.warp u = s.warp u) ∧
      (t.warp w).mode = .normal ∧ (t.warp w).halted = false ∧ (t.warp w).latches = {} ∧
      (t.warp w).selDue = true ∧ (∀ n l, l < 32 → (t.warp w).rdV n l = a.rdV n l) ∧
      (∀ n, 16 ≤ n → (t.warp w).rdS n = a.rdS n) ∧
      (∀ n, 0 < n → n < 16 → ((t.warp w).rdS n).toNat = field 8 (0x380 + 8 * (n - 1)) ∧
        ((t.warp w).rdP n).toNat = field 4 (0x160 + 4 * (n - 1)) ∧
        ((t.warp w).rdM n).toNat = field 32 (0x1A0 + 32 * (n - 1))) ∧
      (∀ l, l < 32 → ((t.warp w).lane l).pc = field 8 (0x040 + 8 * l) ∧
        ((t.warp w).lane l).st = (a.saved.get {} l).st.restored ∧ ((t.warp w).lane l).st.isParked = false ∧
        ((t.warp w).lane l).fflags = writeFflags (a.lane l).fflags (BitVec.ofNat 32 (field 4 (0x400 + 4 * l))) ∧
        ((t.warp w).lane l).rng.toNat = field 4 (0x480 + 4 * l))) ∧
  (∀ w s x, Issues w (.rett x) s → (s.warp w).mayReturn = true → s.handlerDone w = false → exec (.rett x) s = .next s) ∧
  (∀ w s x, Issues w (.rett x) s → (s.warp w).mayReturn = false →
    exec (.rett x) s = .next ((s.issued (.rett x) w).faultWarp w { cause := 0x00A })) ∧
  (∀ w s x, Issues w (.yieldp x) s → (s.warp w).mode = .handler → s.handlerDone w = true →
    let a := s.atIssue (.yieldp x) w
    let s1 := (s.issued (.yieldp x) w).handlerRelease w
    let at_ := (s.block a.block).savePa + 0x1000 + 0x4000 * a.index + 0x010
    ∃ t, exec (.yieldp x) s = .next t ∧ (∀ u, u ≠ w → t.warp u = s.warp u) ∧
      t.warp w = { a with latches := {}, chainLen := 0, inRun := false, part := {}, yielded := .yielded } ∧
      t = { Claims.homed s t with warps := t.warps } ∧ Claims.OnlyQueues s t ∧
      (∀ pa, pa < at_ ∨ at_ + 8 ≤ pa → t.mem.read pa = s1.mem.read pa) ∧
      ofBytes (t.mem.readBytes 8 at_) = a.resumePc % 2 ^ 64) ∧
  (∀ w s x, Issues w (.yieldp x) s → (s.warp w).mode = .handler → s.handlerDone w = false →
    exec (.yieldp x) s = .next s) ∧
  (∀ w s x, Issues w (.yieldp x) s → (s.warp w).mode ≠ .handler →
    exec (.yieldp x) s = .next ((s.issued (.yieldp x) w).faultWarp w { cause := 0x00A })) ∧
  (∀ w s x, Issues w (.trap x) s →
    let a := s.atIssue (.trap x) w
    (a.activeReal x.g = 0 → exec (.trap x) s = .next (s.issued (.trap x) w)) ∧
    (a.activeReal x.g ≠ 0 → ∃ t, exec (.trap x) s = .next t ∧ (∀ u, u ≠ w → t.warp u = s.warp u) ∧
      (t.warp w).halted = true ∧ (t.warp w).cause = 0x100 + x.sys % 256 ∧ (t.warp w).reportPc = a.pc ∧
      KeepsRegs [] a (t.warp w) ∧ ∀ l, l < 32 → ((t.warp w).lane l).pc = (a.lane l).pc))

/-- The system registers (R419) of a warp. -/
def Sys2Proof.Claims.SysValue (s : State) (w n : Nat) (v : Word) : Prop :=
  let a := s.warp w
  let b := s.block a.block
  (n = 0 → v = a.word0) ∧ (n = 1 → v = BitVec.ofNat 64 b.saveVa) ∧
  (n = 2 → v = BitVec.ofNat 64 (b.saveVa + 0x1000 + 0x4000 * a.index)) ∧ (n = 3 → v = BitVec.ofNat 64 a.reportPc) ∧
  (n = 4 → v = BitVec.ofNat 64 a.resumePc) ∧
  (n = 5 → v = if a.mode = .normal then 0 else BitVec.ofNat 64 a.deadline) ∧
  (n = 9 → v = BitVec.ofNat 64 (s.job b.job).asid)

/-- The special values (R435): of a lane, and of a warp. -/
def Sys2Proof.Claims.LaneSpecial (a : Warp) (n l : Nat) (v : Word) : Prop :=
  (n = 0 → v = BitVec.ofNat 64 l) ∧ (n = 1 → v = BitVec.ofNat 64 (l / 4)) ∧
  (n = 0x0B → v = ((a.lane l).rng).setWidth 64) ∧ (n = 0x0C → v = ((a.lane l).fflags).setWidth 64)

def Sys2Proof.Claims.WarpSpecial (s : State) (w n : Nat) (v : Word) : Prop :=
  let a := s.warp w
  let b := s.block a.block
  (n = 2 → v = BitVec.ofNat 64 a.index) ∧ (n = 3 → v = BitVec.ofNat 64 b.b) ∧
  (b.cluster = none → (n = 4 → v = 0xFFFF) ∧ (n = 5 → v = 0xFF) ∧ (n = 6 → v = 0)) ∧
  (∀ c, b.cluster = some c → (n = 5 → v = BitVec.ofNat 64 b.member) ∧ (n = 6 → v = BitVec.ofNat 64 (s.cluster c).cgen)) ∧
  (n = 7 → v = BitVec.ofNat 64 (b.core % 16)) ∧ (n = 8 → v = BitVec.ofNat 64 (b.core / 16)) ∧
  (n = 9 → v = BitVec.ofNat 64 s.moduleId) ∧ (n = 10 → v = BitVec.ofNat 64 s.time)

/-- R102, R103, R417, R419, R421, R435, R436: SYSRD, SRD and the SYSWRs complete. SYS_FFLAGS replaces the flags and
makes the reported mask the three flags written; SYS_RNG takes one for zero; SYS_RESUMEPC is written in a handler or a
resume routine only; SYS_TLBINV, with nothing of the warp in flight, removes the translations that it names and no
others. Rests on choices of the model: log entries 7, 51, 81. -/
def Obligations.SystemRegisters : Prop :=
  ∀ w s (x : Sys),
    (Issues w (.sysrd x) s → (s.atIssue (.sysrd x) w).active x.g ≠ 0 →
      ∃ t v, exec (.sysrd x) s = .next t ∧ Claims.SysValue s w x.sys v ∧ OnlyWarp w s t ∧
        t.warp w = { s.atIssue (.sysrd x) w with s := (t.warp w).s } ∧
        ∀ n, (t.warp w).rdS n = if n = x.d ∧ n ≠ 0 then v else (s.atIssue (.sysrd x) w).rdS n) ∧
    (Issues w (.srd x) s → x.sys ∈ [0, 1, 0x0B, 0x0C] →
      let a := s.atIssue (.srd x) w
      ∃ t, exec (.srd x) s = .next t ∧ OnlyWarp w s t ∧ t.warp w = { a with v := (t.warp w).v } ∧
        (∀ n l, l < 32 → n ≠ x.d → (t.warp w).rdV n l = a.rdV n l) ∧
        ∀ l, l < 32 → (bit (a.active x.g) l = true → Claims.LaneSpecial a x.sys l ((t.warp w).rdV x.d l)) ∧
          (bit (a.active x.g) l = false → (t.warp w).rdV x.d l = a.rdV x.d l)) ∧
    (Issues w (.srd x) s → x.sys ∉ [0, 1, 0x0B, 0x0C] → (s.atIssue (.srd x) w).active x.g ≠ 0 →
      ∃ t v, exec (.srd x) s = .next t ∧ Claims.WarpSpecial s w x.sys v ∧ OnlyWarp w s t ∧
        t.warp w = { s.atIssue (.srd x) w with s := (t.warp w).s } ∧
        ∀ n, (t.warp w).rdS n = if n = x.d ∧ n ≠ 0 then v else (s.atIssue (.srd x) w).rdS n) ∧
    (Issues w (.syswrFflags x) s →
      let a := s.atIssue (.syswrFflags x) w
      ∃ t, exec (.syswrFflags x) s = .next t ∧ OnlyWarp w s t ∧ t.warp w = { a with lanes := (t.warp w).lanes } ∧
        ∀ l, l < 32 → (t.warp w).lane l = if bit (a.activeReal x.g) l then
          { a.lane l with
            fflags := writeFflags (a.lane l).fflags ((a.rdV x.a l).setWidth 32)
            reported := reportBits ((a.rdV x.a l).setWidth 32) }
          else a.lane l) ∧
    (Issues w (.syswrRng x) s →
      let a := s.atIssue (.syswrRng x) w
      ∃ t, exec (.syswrRng x) s = .next t ∧ OnlyWarp w s t ∧ t.warp w = { a with lanes := (t.warp w).lanes } ∧
        ∀ l, l < 32 → (t.warp w).lane l = if bit (a.activeReal x.g) l then
          { a.lane l with
            rng := if (a.rdV x.a l).setWidth 32 = (0 : BitVec 32) then 1 else (a.rdV x.a l).setWidth 32 }
          else a.lane l) ∧
    (Issues w (.syswrResumepc x) s →
      let a := s.atIssue (.syswrResumepc x) w
      let v := (a.rdS x.a).toNat
      a.activeReal x.g ≠ 0 →
      (a.mode = .normal → exec (.syswrResumepc x) s = .next ((s.issued (.syswrResumepc x) w).faultWarp w { cause := 0x00A })) ∧
      (a.mode ≠ .normal → v % 4 = 0 → v < 2 ^ 57 → ∃ t, exec (.syswrResumepc x) s = .next t ∧ OnlyWarp w s t ∧
        t.warp w = { a with resumePc := v }) ∧
      (a.mode ≠ .normal → v % 4 ≠ 0 →
        exec (.syswrResumepc x) s = .next ((s.issued (.syswrResumepc x) w).faultWarp w { cause := 0x022 }))) ∧
    (Issues w (.syswrTlbinv x) s →
      let a := s.atIssue (.syswrTlbinv x) w
      let v := (a.rdS x.a).toNat
      let asid := (s.job (s.block a.block).job).asid
      let named := fun (e : TlbEntry) =>
        (bits v 62 2 = 0 ∧ (e.asid = asid ∨ bit e.pte 7 = true) ∧ bits v 16 41 * 2 ^ 16 / 2 ^ e.size = e.va) ∨
        (bits v 62 2 = 1 ∧ e.asid = asid ∧ bit e.pte 7 = false)
      a.activeReal x.g ≠ 0 →
      (bits v 62 2 < 2 → bits v 57 5 = 0 → bits v 0 16 = 0 → (∀ c ∈ s.ops.cells, c.2.st = .none ∨ c.2.warp ≠ w) →
        ∃ t, exec (.syswrTlbinv x) s = .next t ∧ (∀ c ∈ t.tlbs.cells, ∀ e ∈ c.2, ¬ named e) ∧
          ∀ c ∈ s.tlbs.cells, ∀ e ∈ c.2, ¬ named e → ∃ c' ∈ t.tlbs.cells, c'.1 = c.1 ∧ e ∈ c'.2) ∧
      (2 ≤ bits v 62 2 ∨ bits v 57 5 ≠ 0 ∨ bits v 0 16 ≠ 0 →
        exec (.syswrTlbinv x) s = .next ((s.issued (.syswrTlbinv x) w).faultWarp w { cause := 0x022 })))

/-! ## Memory accesses (spec/06, spec/07, spec/11) -/

/-- Bytes at the home are as before, but for those that stores of core `c` had written to a line pinned in its L1, which
may have been written back (R136). -/
def Sys2Proof.Claims.KeepsHome (c : Nat) (s t : State) : Prop :=
  ∀ pa, t.mem.read pa = s.mem.read pa ∨
    ((s.l1Line c (pa / 128)).pinned = true ∧ bit (s.l1Line c (pa / 128)).dirty (pa % 128) = true ∧
      t.mem.read pa = (s.l1Line c (pa / 128)).data.getD (pa % 128) 0)

/-- Threads that count an operation of elements and have no element of it: their part is performed as it issues (R144). -/
def Sys2Proof.Claims.bare (o : Op) : Nat :=
  maskWhere 32 (fun l => bit o.lanes l && !o.i.wholeOp && o.elems.all (fun e => !bit (o.elemLanes e) l))

/-- A warp `a` has an operation `o` in flight in `t` that `s` had not: its issue counts have risen by one in each of
its threads, and its completion counts in those that have no element of it; no register is written, nothing has been
stored, and the rest of the module is as before. -/
def Sys2Proof.Claims.OpEnters (w : Nat) (o : Op) (a : Warp) (s t : State) : Prop :=
  t.op s.nextOp = { o with counted := Claims.bare o } ∧ t.nextOp = s.nextOp + 1 ∧
  (∀ k, k ≠ s.nextOp → t.op k = s.op k) ∧
  (∀ u, u ≠ w → t.warp u = s.warp u) ∧ t.warp w = { a with own := (t.warp w).own, hnd := (t.warp w).hnd } ∧
  (∀ h l st, l < 32 → st < 8 →
    ((t.warp w).streams h).issuedOf l st =
      (a.streams h).issuedOf l st + (if h = o.hset ∧ bit o.lanes l = true ∧ st = o.strm then 1 else 0) ∧
    ((t.warp w).streams h).doneOf l st =
      (a.streams h).doneOf l st + (if h = o.hset ∧ bit (Claims.bare o) l = true ∧ st = o.strm then 1 else 0)) ∧
  t = { Claims.homed s t with
    warps := t.warps, ops := t.ops, nextOp := t.nextOp, nextSeq := t.nextSeq, tlbs := t.tlbs } ∧
  Claims.OnlyQueues s t ∧ Claims.KeepsHome (s.block a.block).core s t ∧
  (Scope.narrow o.scope = true → (∀ e ∈ o.elems, e.place.outer = false) → o.i.isAtomic = false → t.mem = s.mem)

/-- No thread stands in EXIT's drain with nothing left to wait for: it would have exited (R74). -/
def Sys2Proof.Claims.Drained (a : Warp) : Prop := ∀ l, l < 32 → (a.lane l).st = .draining → a.idle l = false

/-- A warp that runs its program, with no thread parked: nothing of it waits for the end of an operation. -/
def Sys2Proof.Claims.Calm (a : Warp) : Prop :=
  a.mode = .normal ∧ a.halted = false ∧ a.yielded = .no ∧ ∀ l, l < 32 → (a.lane l).st.isParked = false

/-- Vector registers that an access writes through Merge. -/
def Sys2Proof.Claims.destOf : Instr → List Nat
  | .ld x | .atom _ x | .atomcas x | .fatom _ x => [x.d]
  | .ldb x => (List.range (2 ^ (x.sz % 4))).map (fun r => x.d + r)
  | _ => []

/-- R130, R144: an access whose elements all pass their checks enters flight, with the elements and places that the
checks found, when no thread's stream is full. One without an element is performed as it issues: its counts have both
risen, and Merge has written 0 where the mask and z say so. -/
def Sys2Proof.Claims.AccessIssues (i : Instr) (x : Mem) (need : Need) (align : Nat) (pre : Warp → Prop)
    (elems : Warp → List Elem) (enabled : Warp → Nat) (args : Warp → List Nat) (send : List Elem → List Elem) : Prop :=
  ∀ w s, Issues w i s → x.strm < 8 →
    let a := s.atIssue i w
    let sI := s.issued i w
    pre a → a.activeReal x.g ≠ 0 → a.mustStall i.uniformOp x.strm (a.activeReal x.g) = 0 →
    (∀ l s1, elems a ≠ [] → sI.checkAll (sI.ctx w) need align a.isHelper (elems a) = (.ok l, s1) → Claims.Drained a →
      ∃ t, exec i s = .next t ∧ Claims.OpEnters w
        { st := .flying, instr := some i, warp := w, block := a.block, core := (s.block a.block).core
          job := (s.block a.block).job, asid := (s.job (s.block a.block).job).asid, hset := a.mode != .normal
          strm := x.strm, after := x.after, scope := x.scope, lanes := a.activeReal x.g, enabled := enabled a
          group := maskWhere 32 (bit a.group), zero := x.vx.z, pc := a.pc, seq := s.nextSeq, elems := send l
          args := args a, issuedAt := s.time } a s t) ∧
    (elems a = [] → Claims.Calm a →
      ∃ t, exec i s = .next t ∧ (∀ k, t.op k = if k = s.nextOp then {} else s.op k) ∧
        (∀ u, u ≠ w → t.warp u = s.warp u) ∧ KeepsRegs ((Claims.destOf i).map (fun n => ⟨.v, n⟩)) a (t.warp w) ∧
        (∀ n ∈ Claims.destOf i, ∀ l, l < 32 →
          (t.warp w).rdV n l = if bit a.group l = true ∧ x.vx.z = true then 0 else a.rdV n l) ∧
        (∀ h l st, l < 32 → st < 8 →
          let one : BitVec 16 := if h = (a.mode != .normal) ∧ bit (a.activeReal x.g) l = true ∧ st = x.strm then 1 else 0
          ((t.warp w).streams h).issuedOf l st = (a.streams h).issuedOf l st + one ∧
          ((t.warp w).streams h).doneOf l st = (a.streams h).doneOf l st + one) ∧
        Claims.KeepsHome (s.block a.block).core s t)

/-- Such an access whose checks fail raises the fault of the lowest failing element, at that element's address, with
nothing performed. -/
def Sys2Proof.Claims.AccessFaults (i : Instr) (need : Need) (align : Nat) (pre : Warp → Prop)
    (elems : Warp → List Elem) : Prop :=
  ∀ w s f s1, Issues w i s →
    let a := s.atIssue i w
    let sI := s.issued i w
    pre a → sI.checkAll (sI.ctx w) need align a.isHelper (elems a) = (.error f, s1) →
    exec i s = .next (s1.faultWarp w f)

/-- The elements of a lane access (R149): one in each enabled lane, at base, offset and displacement. -/
def Sys2Proof.Claims.laneElems (x : Mem) (helpers : Bool) (n : Nat) (cap : Warp → Nat → Nat × Nat) (a : Warp) : List Elem :=
  (maskList (a.enabledLanes x.vx.m (if helpers then a.active x.g else a.activeReal x.g)) 32).map (fun l =>
    { lane := l, addr := a.memAddr x true l, size := n, data := (cap a l).1, data2 := (cap a l).2 })

/-- A lane access: its constructor, what it needs, whether helpers take part, the bytes of its elements, and what it
captures. -/
structure Sys2Proof.Claims.LaneOp where
  instr : Mem → Instr
  need : Need
  helpers : Bool
  bytes : Mem → Nat
  cap : Mem → Warp → Nat → Nat × Nat

def Sys2Proof.Claims.atomCap (x : Mem) (a : Warp) (l : Nat) : Nat × Nat :=
  ((a.rdV x.d l).toNat % 2 ^ atomWidth x.sz, (a.rdV (x.d + 1) l).toNat % 2 ^ atomWidth x.sz)

def Sys2Proof.Claims.laneOps : List Claims.LaneOp :=
  [⟨.ld, { read := true, mmio := true }, true, fun x => 2 ^ (x.sz % 4), fun _ _ _ => (0, 0)⟩,
   ⟨.st, { write := true, mmio := true }, false, fun x => 2 ^ (x.sz % 4),
    fun x a l => ((a.rdV x.d l).toNat % 2 ^ (8 * 2 ^ (x.sz % 4)), 0)⟩,
   ⟨.atomcas, { read := true, write := true }, false, fun x => atomWidth x.sz / 8, Claims.atomCap⟩] ++
  [AtomOp.add, .smin, .umin, .smax, .umax, .and, .or, .xor, .exch].flatMap (fun o =>
    [⟨.atom o, { read := true, write := true }, false, fun x => atomWidth x.sz / 8, Claims.atomCap⟩,
     ⟨.atomnr o, { read := true, write := true }, false, fun x => atomWidth x.sz / 8, Claims.atomCap⟩]) ++
  [FAtomOp.add, .min, .max].flatMap (fun o =>
    [⟨.fatom o, { read := true, write := true }, false, fun x => atomWidth x.sz / 8, Claims.atomCap⟩,
     ⟨.fatomnr o, { read := true, write := true }, false, fun x => atomWidth x.sz / 8, Claims.atomCap⟩])

/-- R149, R150, R224: LD, ST and the atomics of class 0x8 issue, or raise their fault. Where no thread is Active, an LD
zeroes by z and the others do nothing. Rests on choices of the model: log entry 8. -/
def Obligations.LaneAccessIssue : Prop :=
  (∀ e ∈ Claims.laneOps, ∀ x,
    Claims.AccessIssues (e.instr x) x e.need (e.bytes x) (fun _ => True)
      (Claims.laneElems x e.helpers (e.bytes x) (e.cap x))
      (fun a => a.enabledLanes x.vx.m (if e.helpers then a.active x.g else a.activeReal x.g)) (fun _ => []) id ∧
    Claims.AccessFaults (e.instr x) e.need (e.bytes x) (fun _ => True) (Claims.laneElems x e.helpers (e.bytes x) (e.cap x)) ∧
    (e.helpers = false → ∀ w s, Issues w (e.instr x) s → (s.atIssue (e.instr x) w).activeReal x.g = 0 →
      exec (e.instr x) s = .next (s.issued (e.instr x) w))) ∧
  (∀ w s x, Issues w (.ld x) s →
    let a := s.atIssue (.ld x) w
    a.active x.g = 0 → ∃ t, exec (.ld x) s = .next t ∧ OnlyWarp w s t ∧ t.warp w = { a with v := (t.warp w).v } ∧
      KeepsRegs [⟨.v, x.d⟩] a (t.warp w) ∧
      ∀ l, l < 32 → (t.warp w).rdV x.d l = if bit a.group l = true ∧ x.vx.z = true then 0 else a.rdV x.d l)

/-- The one element of LDU and STU, for the lowest Active thread that is no helper, and the pieces of LDB and STB in the
lanes that take part (R130, R151, R152). -/
def Sys2Proof.Claims.oneElem (x : Mem) (a : Warp) : List Elem :=
  [{ lane := (maskList (a.activeReal x.g) 32).headD 0, addr := a.memAddr x false 0, size := 2 ^ (x.sz % 4)
     data := (a.rdS x.d).toNat % 2 ^ (8 * 2 ^ (x.sz % 4)) }]

def Sys2Proof.Claims.blockElems (x : Mem) (lanes : Nat) (a : Warp) : List Elem :=
  (maskList lanes 32).flatMap (fun l =>
    (List.range (2 ^ (x.sz % 4))).map (fun r =>
      { lane := l, addr := wrap64 ((a.memAddr x false 0 + 256 * r + 8 * l : Nat) : Int), size := 8
        data := (a.rdV (x.d + r) l).toNat }))

/-- A warp-uniform access: its constructor, what it needs, whether helpers take part, and whether it is a block
transfer. -/
structure Sys2Proof.Claims.UniOp where
  instr : Mem → Instr
  need : Need
  helpers : Bool
  block : Bool

def Sys2Proof.Claims.uniOps : List Claims.UniOp :=
  [⟨.ldu, { read := true, mmio := true }, true, false⟩, ⟨.stu, { write := true, mmio := true }, false, false⟩,
   ⟨.ldb, { read := true }, true, true⟩, ⟨.stb, { write := true }, false, true⟩]

def Sys2Proof.Claims.UniOp.act (e : Claims.UniOp) (x : Mem) (a : Warp) : Nat :=
  if e.helpers then a.active x.g else a.activeReal x.g

/-- Lanes that take part in a block transfer. -/
def Sys2Proof.Claims.UniOp.part (e : Claims.UniOp) (x : Mem) (a : Warp) : Nat := a.enabledLanes x.vx.m (e.act x a)

def Sys2Proof.Claims.UniOp.elems (e : Claims.UniOp) (x : Mem) (a : Warp) : List Elem :=
  if e.block then Claims.blockElems x (e.part x a) a else Claims.oneElem x a

/-- It happens, and the base of a block transfer is a multiple of 256. -/
def Sys2Proof.Claims.UniOp.goes (e : Claims.UniOp) (x : Mem) (a : Warp) : Prop :=
  e.act x a ≠ 0 ∧ (e.block = true → a.memAddr x false 0 % 256 = 0)

/-- R130, R145, R149–R152: LDU, STU, LDB and STB issue where some thread is Active and their elements pass the checks, or
raise the fault of the first element that fails; a block address that is not a multiple of 256 is misaligned. With a full
stream the whole group parks, and with no Active thread nothing happens. Rests on choices of the model: log entries 8,
97. -/
def Obligations.UniformAccessIssue : Prop :=
  ∀ e ∈ Claims.uniOps, ∀ x,
    let i := e.instr x
    let align := if e.block then 8 else 2 ^ (x.sz % 4)
    Claims.AccessIssues i x e.need align (e.goes x) (e.elems x)
      (fun a => if e.block then e.part x a else 1) (fun a => if e.block then [a.memAddr x false 0] else []) id ∧
    Claims.AccessFaults i e.need align (e.goes x) (e.elems x) ∧
    (∀ w s, Issues w i s → e.act x (s.atIssue i w) = 0 → exec i s = .next (s.issued i w)) ∧
    (∀ w s l, Issues w i s → e.block = true →
      let a := s.atIssue i w
      a.memAddr x false 0 % 256 ≠ 0 → l < 32 → bit (e.part x a) l = true → a.isHelper l = false →
      (∀ k, k < l → bit (e.part x a) k = true → a.isHelper k = true) →
      exec i s = .next ((s.issued i w).faultWarp w { cause := 0x062, lane := l, addr := a.memAddr x false 0 })) ∧
    (∀ w s l s1, Issues w i s →
      let a := s.atIssue i w
      let sI := s.issued i w
      e.goes x a → a.mustStall true x.strm (a.activeReal x.g) ≠ 0 →
      sI.checkAll (sI.ctx w) e.need align a.isHelper (e.elems x a) = (.ok l, s1) →
      ∃ t, exec i s = .next t ∧ (∀ k, t.op k = s.op k) ∧ (∀ u, u ≠ w → t.warp u = s.warp u) ∧ t.mem = s.mem ∧
        KeepsRegs [] a (t.warp w) ∧ ∀ k, k < 32 → bit a.group k = true → a.isHelper k = false →
          ((t.warp w).lane k).st = .parked ∧ ((t.warp w).lane k).pc = a.pc ∧
          ((t.warp w).lane k).wait.kind = .exhaustion)

/-- R226, R228: REDV issues one element for each distinct address, in the lowest lane that names it, with the lanes'
values combined in ascending order; the element names its lanes; or it raises its fault. The functions of the atomics, on
patterns of `w` bits: the integer ones; compare and swap; sums rounded to nearest even, in bf16 each half by itself; the
lesser and the greater of two values, where a NaN yields the other. Rests on choices of the model: log entry 8. -/
def Obligations.AtomicFunctions : Prop :=
  (∀ o x,
    let n := atomWidth x.sz / 8
    let elems := Claims.laneElems x false n (fun a l => ((a.rdV x.d l).toNat % 2 ^ atomWidth x.sz, 0))
    let byLane := fun (f : Elem → Nat) (a : Warp) =>
      (List.range 32).map (fun l => (((elems a).find? (fun e => e.lane == l)).map f).getD 0)
    Claims.AccessIssues (.redv o x) x { read := true, write := true } n (fun _ => True) elems
      (fun a => a.enabledLanes x.vx.m (a.activeReal x.g)) (fun a => byLane (·.addr) a ++ byLane (·.data) a)
      (fun l => combine (redFn o x.sz) l []) ∧
    Claims.AccessFaults (.redv o x) { read := true, write := true } n (fun _ => True) elems ∧
    (∀ w s, Issues w (.redv o x) s → (s.atIssue (.redv o x) w).activeReal x.g = 0 →
      exec (.redv o x) s = .next (s.issued (.redv o x) w))) ∧
  (∀ (f : Nat → Nat → Nat) (l : List Elem),
    ((combine f l []).map (·.addr)).Nodup ∧ (∀ a, a ∈ (combine f l []).map (·.addr) ↔ a ∈ l.map (·.addr)) ∧
    ∀ e ∈ combine f l [], ∃ h r, l.filter (fun x => x.addr == e.addr) = h :: r ∧ e.lane = h.lane ∧ e.place = h.place ∧
      e.data = r.foldl (fun v x => f v x.data) h.data ∧ e.data2 = ((h :: r).map (fun x => 2 ^ x.lane)).sum) ∧
  (∀ w old x, 0 < w → old < 2 ^ w → x < 2 ^ w →
    atomInt .add w old x = (BitVec.ofNat w old + BitVec.ofNat w x).toNat ∧
    atomInt .exch w old x = x ∧ atomInt .umin w old x = min old x ∧ atomInt .umax w old x = max old x ∧
    atomInt .and w old x = (BitVec.ofNat w old &&& BitVec.ofNat w x).toNat ∧
    atomInt .or w old x = (BitVec.ofNat w old ||| BitVec.ofNat w x).toNat ∧
    atomInt .xor w old x = (BitVec.ofNat w old ^^^ BitVec.ofNat w x).toNat ∧
    (BitVec.ofNat w (atomInt .smin w old x)).toInt = min (BitVec.ofNat w old).toInt (BitVec.ofNat w x).toInt ∧
    (BitVec.ofNat w (atomInt .smax w old x)).toInt = max (BitVec.ofNat w old).toInt (BitVec.ofNat w x).toInt) ∧
  (∀ x old d2 y, atomFn (.atomcas x) old d2 y = if old = d2 then some y else none) ∧
  (∀ o x old d2 y, atomFn (.atom o x) old d2 y = some (atomInt o (atomWidth x.sz) old d2) ∧
    atomFn (.atomnr o x) old d2 y = some (atomInt o (atomWidth x.sz) old d2) ∧
    atomFn (.redv (.int o) x) old d2 y = some (atomInt o (atomWidth x.sz) old d2)) ∧
  (∀ o x old d2 y, atomFn (.fatom o x) old d2 y = some (atomFloat o x.sz old d2) ∧
    atomFn (.fatomnr o x) old d2 y = some (atomFloat o x.sz old d2) ∧
    atomFn (.redv (.float o) x) old d2 y = some (atomFloat o x.sz old d2)) ∧
  (∀ a b, a < 2 ^ 32 → b < 2 ^ 32 →
    let sum := fun (f : FFmt) (p q : Nat) => (roundVal f (sumVals [f.decode p, f.decode q] false).1 .rne 0).1
    atomFloat .add 2 a b = sum f32 a b ∧
    atomFloat .add 4 a b = sum bf16 (a % 2 ^ 16) (b % 2 ^ 16) + 2 ^ 16 * sum bf16 (a / 2 ^ 16) (b / 2 ^ 16)) ∧
  (∀ a b, a < 2 ^ 64 → b < 2 ^ 64 →
    atomFloat .add 3 a b = (roundVal f64 (sumVals [f64.decode a, f64.decode b] false).1 .rne 0).1) ∧
  (∀ sz a b, a < 2 ^ 32 → b < 2 ^ 32 →
    let na := (f32.decode a).isNan
    let nb := (f32.decode b).isNan
    let less := fun (p q : Nat) => lessVal (f32.decode p) (f32.decode q) = true ∨ (p = 2 ^ 31 ∧ q = 0)
    (na = false → nb = false →
      atomFloat .min sz a b = (if less b a then b else a) ∧ atomFloat .max sz a b = (if less a b then b else a)) ∧
    (na = true → nb = false → atomFloat .min sz a b = b ∧ atomFloat .max sz a b = b) ∧
    (na = false → nb = true → atomFloat .min sz a b = a ∧ atomFloat .max sz a b = a) ∧
    (na = true → nb = true → atomFloat .min sz a b = 0x7FC00000 ∧ atomFloat .max sz a b = 0x7FC00000))

/-- R122, R125, R127, R129–R131: one element's checks, in their order. R123, R197: a window address of the block's own
scratchpad is an offset within its allocation, and one beyond it is a range fault; without a cluster the window of
another member is one too. -/
def Obligations.AddressFaultOrder : Prop :=
  (∀ (s : State) (c : Ctx) (need : Need) va n align,
     let r := (s.checkElem c need va n align).1
     (va % align ≠ 0 → r = .error 0x062) ∧
     (va % align = 0 → isWindow va = true → r = s.resolveWindow c.block va n) ∧
     (va % align = 0 → isWindow va = false → 2 ^ 57 ≤ va → r = .error 0x060) ∧
     (va % align = 0 → isWindow va = false → va < 2 ^ 57 → ∃ t s1, s.translate (c.core / 16) c.asid va = (t, s1) ∧
       (t = none → r = .error 0x060) ∧
       ∀ e, t = some e →
         ((need.read = true ∧ bit e.pte 1 = false ∨ need.write = true ∧ bit e.pte 2 = false) → r = .error 0x061) ∧
         (¬(need.read = true ∧ bit e.pte 1 = false ∨ need.write = true ∧ bit e.pte 2 = false) →
           let pa := e.pa va
           (pa / 2 ^ 50 % 4 < 2 → isLocal pa = false → r = .error 0x063) ∧
           (pa / 2 ^ 50 % 4 < 2 → isLocal pa = true → r = .ok (.home pa (bit e.pte 6) (bit e.pte 5))) ∧
           (pa / 2 ^ 50 % 4 = 2 → r = .ok (if pa / 2 ^ 42 % 2 ^ 8 = s.moduleId ∧ isLocal (pa % 2 ^ 42) = true
             then .self (pa % 2 ^ 42) else .peer pa)) ∧
           (pa / 2 ^ 50 % 4 = 3 → (need.mmio = false ∨ (n ≠ 4 ∧ n ≠ 8)) → r = .error 0x063)))) ∧
  (∀ (s : State) b n,
     (∀ off, off < 2 ^ 20 → s.resolveWindow b (0x01FFFF0000000000 + off) n =
       if off + n ≤ (s.block b).alloc then .ok (.scratch b off) else .error 0x064) ∧
     (∀ off, off < 2 ^ 20 → s.resolveSa b off n =
       if off + n ≤ (s.block b).alloc then .ok (.scratch b off) else .error 0x064) ∧
     (∀ m off, m < 16 → off < 2 ^ 20 → (s.block b).cluster = none →
       s.resolveWindow b (0x01FFFE0000000000 + m * 2 ^ 20 + off) n = .error 0x064 ∧
       s.resolveSa b (2 ^ 24 + m * 2 ^ 20 + off) n = .error 0x064) ∧
     (∀ m off c k, m < 16 → off < 2 ^ 20 → (s.block b).cluster = some c → (s.cluster c).members.get none m = some k →
       ((s.block k).leaving = false ∨ k = b) →
       s.resolveSa b (2 ^ 24 + m * 2 ^ 20 + off) n =
         if off + n ≤ (s.block k).alloc then .ok (.scratch k off) else .error 0x064))

/-- R125, R127: a walk of four levels ends at the first leaf, which maps the whole page that its level gives; an entry
that is not present, or that R127 does not permit, ends it without a translation. -/
def Obligations.TableWalk : Prop :=
  ∀ (s : State) asid va, va < 2 ^ 57 →
    let pte := fun table level => ofBytes (s.mem.readBytes 8 (table + 8 * (va / 2 ^ levelShift level % levelEntries level)))
    let ptr := fun p => bits p 13 39 * 2 ^ 13
    let root := s.roots.get 0 asid
    let e4 := pte root 4
    let e3 := pte (ptr e4) 3
    let e2 := pte (ptr e3) 2
    let e1 := pte (ptr e2) 1
    let goes := fun e level => bit e 0 = true ∧ bits e 1 3 = 0 ∧ pointerOk level e = true
    let leaf := fun e level => bit e 0 = true ∧ bits e 1 3 ≠ 0 ∧ leafOk level e = true
    let found := fun e (k : Nat) => s.walk asid va = some { asid := asid, va := va / 2 ^ k, size := k, pte := e }
    (isLocal root = true → root % 8192 = 0 → goes e4 4 →
      (leaf e3 3 → found e3 36) ∧
      (goes e3 3 → (leaf e2 2 → found e2 26) ∧
        (goes e2 2 → leaf e1 1 → found e1 16) ∧
        (¬ goes e2 2 → ¬ leaf e2 2 → s.walk asid va = none)) ∧
      (¬ goes e3 3 → ¬ leaf e3 3 → s.walk asid va = none)) ∧
    (bit e4 0 = false → s.walk asid va = none) ∧
    (isLocal root = false ∨ root % 8192 ≠ 0 → s.walk asid va = none)

/-- R145: a thread whose stream holds 1,023 outstanding operations parks at the instruction, and the others issue.
Rests on choices of the model: log entry 8. -/
def Obligations.StreamExhaustion : Prop :=
  ∀ w s x l s1, Issues w (.ld x) s →
    let a := s.atIssue (.ld x) w
    let sI := s.issued (.ld x) w
    let full := fun k => bit (a.activeReal x.g) k = true ∧ 1023 ≤ (a.streams (a.mode != .normal)).outstanding k x.strm
    (∀ k, k < 32 → (a.lane k).st.isParked = false) →
    sI.checkAll (sI.ctx w) { read := true, mmio := true } (2 ^ (x.sz % 4)) a.isHelper
      (Claims.laneElems x true (2 ^ (x.sz % 4)) (fun _ _ => (0, 0)) a) = (.ok l, s1) →
    ∃ t, exec (.ld x) s = .next t ∧ (∀ u, u ≠ w → t.warp u = s.warp u) ∧
      ∀ k, k < 32 →
        (full k → ((t.warp w).lane k).st = .parked ∧ ((t.warp w).lane k).pc = a.pc ∧
          ((t.warp w).lane k).wait.kind = .exhaustion ∧ bit (t.warp w).group k = false) ∧
        ((a.lane k).st = .live → bit (a.activeReal x.g) k = true → ¬ full k →
          ((t.warp w).lane k).pc = (a.lane k).pc ∧ ((t.warp w).lane k).st = .live)

/-- No thread of any warp, and no matrix control core, waits for a word or a tag. -/
def Sys2Proof.Claims.NoWaiters (s : State) : Prop :=
  (∀ c ∈ s.warps.cells, ∀ l, l < 32 → (c.2.lane l).st ≠ .parked) ∧ ∀ c ∈ s.mccs.cells, c.2.inWait = none

/-- A byte at the home is as before, or what stores of core `c` had written to a line pinned in its L1 (R136). -/
def Sys2Proof.Claims.KeepsAt (c : Nat) (s t : State) (pa : Nat) : Prop :=
  t.mem.read pa = s.mem.read pa ∨
    ((s.l1Line c (pa / 128)).pinned = true ∧ bit (s.l1Line c (pa / 128)).dirty (pa % 128) = true ∧
      t.mem.read pa = (s.l1Line c (pa / 128)).data.getD (pa % 128) 0)

/-- The `n` bytes of a value lie at a place that an element may write: in a scratchpad; in a line pinned in the L1 of core
`c`; in memory itself, for an MS page; or at the home. Every other byte there is as before. -/
def Sys2Proof.Claims.Stored (c : Nat) (sc : Scope) (p : Place) (n data : Nat) (s t : State) : Prop :=
  match p with
  | .scratch b off => (s.block b).standing = true → (s.block b).imaged = false →
      ∀ i, (t.block b).scratch.read i =
        if off ≤ i ∧ i < off + n then BitVec.ofNat 8 (data / 2 ^ (8 * (i - off))) else (s.block b).scratch.read i
  | .home pa nc ms =>
    if inL1 sc (.home pa nc ms) then
      (∀ a, Claims.KeepsAt c s t a) ∧ (t.l1Line c (pa / 128)).pinned = true ∧
        ∀ i, i < n → pa % 128 + i < 128 →
          (t.l1Line c (pa / 128)).data.getD (pa % 128 + i) 0 = BitVec.ofNat 8 (data / 2 ^ (8 * i)) ∧
          bit (t.l1Line c (pa / 128)).dirty (pa % 128 + i) = true
    else
      (∀ i, i < n → pa % 128 + n ≤ 128 →
        (if ms then t.msRead n pa else t.mem.readBytes n pa).getD i 0 = BitVec.ofNat 8 (data / 2 ^ (8 * i))) ∧
        ∀ a, a < pa ∨ pa + n ≤ a → Claims.KeepsAt c s t a
  | .self pa => (∀ i, i < n → t.mem.read (pa + i) = BitVec.ofNat 8 (data / 2 ^ (8 * i))) ∧
      ∀ a, a < pa ∨ pa + n ≤ a → t.mem.read a = s.mem.read a
  | _ => True

/-- What an atomic's element finds at its place (R220, R221, R226): in the issuing core's L1, in the scratchpad, or at the
home, where the core's own pinned line has been written back. -/
def Sys2Proof.Claims.AtomicFinds (c : Nat) (sc : Scope) (p : Place) (n : Nat) (s : State) (v : Nat) : Prop :=
  match p with
  | .scratch b off => v = ofBytes (s.readScratch b off n)
  | .home pa nc ms =>
    if inL1 sc (.home pa nc ms) then
      v = if (s.l1Line c (pa / 128)).pinned then ofBytes (((s.l1Line c (pa / 128)).data.drop (pa % 128)).take n)
        else ofBytes (s.mem.readBytes n pa)
    else
      let r := s.release c (pa / 128)
      v = ofBytes (if ms then r.msRead n pa else r.mem.readBytes n pa)
  | .self pa => v = ofBytes (s.mem.readBytes n pa)
  | _ => True

/-- The bytes that a load's element finds at its place (R133, R137, R461): in its core's own pinned line, or with a narrow
scope and no store of its own block there what that line held before; with a narrow scope in a clean copy of its L1; in
the RDC of its die, else at the home. -/
def Sys2Proof.Claims.LoadFinds (c : Nat) (o : Op) (e : Elem) (x : Nat) (s : State) (now : List Byte) : Prop :=
  match e.place with
  | .none => now = List.replicate e.size 0
  | .scratch b off => now = s.readScratch b off e.size
  | .home pa nc ms =>
    let l1 := s.l1Line c (pa / 128)
    let near := s.rdcLine (c / 16) (pa / 128)
    let cut := fun (d : List Byte) => (d.drop (pa % 128)).take e.size
    if cacheable nc ms then
      if l1.pinned then
        now = cut l1.data ∨ (Scope.narrow o.scope = true ∧ l1.older ≠ [] ∧
          (∀ y ∈ l1.owners, (s.warp y.1).block ≠ o.block) ∧ now = cut l1.older)
      else (l1.valid = true ∧ Scope.narrow o.scope = true ∧ now = cut l1.data) ∨ (near ≠ [] ∧ now = cut near) ∨
        (near = [] ∧ now = s.mem.readBytes e.size pa)
    else
      let r := s.release c (pa / 128)
      now = if ms then r.msRead e.size pa else r.mem.readBytes e.size pa
  | .self pa => now = s.mem.readBytes e.size pa
  | .peer _ => now = bytesOf e.size x
  | .mmio pa => now = if e.place.remote then bytesOf e.size x else s.identity 0 (pa % 2 ^ 48) e.size

/-- What performing one element of a load, a store or an atomic does, `v` being what it returns and `x` what a peer or the
host answers. `s` is the state with the stores that the element's scope makes visible first. A load whose mask is empty may
return bytes as they were before writes that nothing orders before it (R142, R166, R176). -/
def Sys2Proof.Claims.ElemDoes (c : Nat) (o : Op) (e : Elem) (x v : Nat) (s t : State) : Prop :=
  (o.i.isLoad = true →
    (∀ b, t.block b = s.block b) ∧ (∀ a, Claims.KeepsAt c s t a) ∧
    (∀ pa nc ms, e.place = .home pa nc ms → cacheable nc ms = true → t.mem = s.mem) ∧
    ∃ now n, Claims.LoadFinds c o e x s now ∧
      let kept := ((s.loadNow o e x).2.past.get [] o.warp).drop n
      (v = ofBytes now ∨ (o.after = 0 ∧ o.hset = false ∧ v = ofBytes (asOf kept e.place now)))) ∧
  (o.i.isAtomic = false → o.i.isLoad = false → v = 0 ∧ Claims.Stored c o.scope e.place e.size e.data s t) ∧
  (o.i.isAtomic = true → e.place.remote = false →
    Claims.AtomicFinds c o.scope e.place e.size s v ∧
    (∀ y, atomFn o.i v e.data e.data2 = some y → Claims.Stored c o.scope e.place e.size y s t) ∧
    (atomFn o.i v e.data e.data2 = none → ∀ a, Claims.KeepsAt c s t a)) ∧
  (e.place.remote = true → t.mem = s.mem ∧ (∀ b, t.block b = s.block b) ∧
    (o.i.isAtomic = true → v = x % 2 ^ (8 * e.size)))

/-- What a performed operation leaves in a lane's destination (R150, R226). -/
def Sys2Proof.Claims.bound (o : Op) (l : Nat) (f : Elem → Bool) (old : Word) : Word :=
  if bit o.group l then
    if bit o.enabled l then (match o.elems.find? f with
      | some e => BitVec.ofNat 64 e.ret
      | none => 0)
    else if o.zero then 0 else old
  else old

/-- An operation whose every element is performed has become `b` of its warp `a`: its destination, and the completion
counts of the threads that had not counted it yet (R144, R150–R152, R226). -/
def Sys2Proof.Claims.Completed (o : Op) (a b : Warp) : Prop :=
  (match o.i with
    | .ld x | .atom _ x | .atomcas x | .fatom _ x =>
      KeepsRegs [⟨.v, x.d⟩] a b ∧
        ∀ l, l < 32 → b.rdV x.d l = Claims.bound o l (fun e => e.lane == l) (a.rdV x.d l)
    | .ldu x => KeepsRegs [⟨.s, x.d⟩] a b ∧ (x.d ≠ 0 → b.rdS x.d = BitVec.ofNat 64 (o.elems.headD {}).ret)
    | .ldb x => KeepsRegs ((List.range (2 ^ (x.sz % 4))).map (fun r => ⟨.v, x.d + r⟩)) a b ∧
        ∀ r l, r < 2 ^ (x.sz % 4) → l < 32 → b.rdV (x.d + r) l =
          Claims.bound o l (fun e => e.lane == l && e.addr == o.args.headD 0 + 256 * r + 8 * l) (a.rdV (x.d + r) l)
    | _ => KeepsRegs [] a b) ∧
  (∀ h l st, l < 32 → st < 8 → (b.streams h).issuedOf l st = (a.streams h).issuedOf l st ∧
    (b.streams h).doneOf l st = (a.streams h).doneOf l st +
      if h = o.hset ∧ bit o.lanes l = true ∧ bit o.counted l = false ∧ st = o.strm then 1 else 0) ∧
  b = { a with v := b.v, s := b.s, own := b.own, hnd := b.hnd, replays := b.replays }

/-- A thread's part of an operation of elements is performed, and not yet counted (R144, R229): every element that concerns
it is done, and of an atomic that it has enabled every element. -/
def Sys2Proof.Claims.partDone (o : Op) (l : Nat) : Bool :=
  bit o.lanes l && !bit o.counted l && o.elems.all (fun e =>
    e.done || !(bit (o.elemLanes e) l || (o.i.isAtomic && bit o.enabled l)))

/-- R133, R135, R137, R142–R144, R150–R152, R220–R226, R229: one element of a load, a store or an atomic performs, once
its edges, the same-address rule and the pins of other cores allow it; threads whose part is then performed count it, and
with the last element the operation completes. Rests on choices of the model: log entries 10, 95, 111. -/
def Obligations.ElementPerforms : Prop :=
  ∀ (s : State) k lanes ext remote j e,
    let o := s.op k
    let s0 := s.elemRelease o
    let c := s.opCore o
    let i : Instr := if remote then .remoteAccess k lanes ext else .memoryOpPerformed k lanes ext
    o.st = .flying → o.orphan = false → o.i.slotted = true → Claims.Calm (s.warp o.warp) →
    o.elems[j]? = some e → e.done = false → bit lanes e.lane = true → e.place.remote = remote →
    (∀ pa, e.place = .peer pa → s.strays pa = false ∧ s.reaches = true) →
    (∀ n x, n ≠ j → o.elems[n]? = some x → bit lanes x.lane = true → x.place.remote = remote → x.done = true) →
    s0.elemReady o (o.elems.take j) e = true →
    ∃ t v, exec i s = .next t ∧ Claims.ElemDoes c o e (ext.getD j 0) v s0 t ∧
      let p := o.markDone j v
      ((∃ n x, n ≠ j ∧ o.elems[n]? = some x ∧ x.done = false) →
        t.op k = { p with counted := o.counted ||| maskWhere 32 (Claims.partDone p) } ∧
        t.warp o.warp = { s.warp o.warp with own := (t.warp o.warp).own, hnd := (t.warp o.warp).hnd } ∧
        ∀ h l st, l < 32 → st < 8 →
          ((t.warp o.warp).streams h).issuedOf l st = ((s.warp o.warp).streams h).issuedOf l st ∧
          ((t.warp o.warp).streams h).doneOf l st = ((s.warp o.warp).streams h).doneOf l st +
            if h = o.hset ∧ Claims.partDone p l = true ∧ st = o.strm then 1 else 0) ∧
      ((∀ n x, n ≠ j → o.elems[n]? = some x → x.done = true) →
        t.op k = {} ∧ Claims.Completed p (s.warp o.warp) (t.warp o.warp))

/-- R136, R213, R231–R234: a pinned line goes home 20 µs after the store that first dirtied it, and stays as a clean copy.
A late fault puts its operation into the lowest free replay slot and makes the warp halt at its next head; with four slots
in use the operation is never performed, and the warp never resumes. A timeout (R365) is such a fault only once the
request can have timed out. A parked thread whose wait is over becomes live. A watchdog that expires makes the warp halt
with the cause of the wait. Rests on choices of the model: log entry 38. -/
def Obligations.LateFaultsAndWaits : Prop :=
  (∀ (s : State) c line, (s.l1Line c line).pinned = true → (s.l1Line c line).since + 20000 ≤ s.time →
    ∃ t, exec (.pinTimeout c line) s = .next t ∧ (t.l1Line c line).pinned = false ∧ (t.l1Line c line).valid = true ∧
      t = Claims.homed s t ∧ Claims.OnlyQueues s t ∧
      ∀ a, t.mem.read a = if a / 128 = line ∧ bit (s.l1Line c line).dirty (a % 128) = true then
        (s.l1Line c line).data.getD (a % 128) 0 else s.mem.read a) ∧
  (∀ (s : State) c line, (s.l1Line c line).pinned = false ∨ s.time < (s.l1Line c line).since + 20000 →
    exec (.pinTimeout c line) s = .next s) ∧
  (∀ (s : State) k lanes cause j e,
    let o := s.op k
    let a := s.warp o.warp
    let due : HaltDue := { cause := cause, lane := e.lane, addr := e.addr, pc := some o.pc, late := true }
    o.st = .flying → o.orphan = false → o.i.slotted = true → o.elems[j]? = some e → e.done = false →
    bit lanes e.lane = true → bit o.lanes e.lane = true → s.lateCauseOk e.place cause = true →
    (cause = 0x067 → s.timedOut o.issuedAt = true) →
    s.elemReady o (o.elems.take j) e = true → (∀ n x, n ≠ j → o.elems[n]? = some x → bit lanes x.lane = false) →
    (∀ l, l < 32 → Claims.partDone o l = false) → a.halted = false → a.haltDue = none → k ∉ a.replays →
    ∃ t, exec (.lateFault k lanes cause) s = .next t ∧
      t = { s with warps := t.warps, ops := t.ops, mem := t.mem, l1 := t.l1, rdc := t.rdc } ∧
      (a.mode = .normal → a.yielded = .no → t.mem = s.mem ∧ t.l1 = s.l1) ∧
      (∀ u, u ≠ o.warp → t.warp u = s.warp u) ∧ (∀ n, n ≠ k → t.op n = s.op n) ∧
      (a.replays.length < 4 → ∃ i, i < 4 ∧ (∀ q ∈ a.replays, (s.op q).slot ≠ some i) ∧
        (∀ m, m < i → ∃ q ∈ a.replays, (s.op q).slot = some m) ∧
        t.op k = { o with st := .stuck, cause := cause, faultLane := e.lane, slot := some i } ∧
        t.warp o.warp = { a with replays := a.replays ++ [k], haltDue := some due }) ∧
      (4 ≤ a.replays.length → t.op k = { o with st := .stuck, cause := 0x068, faultLane := e.lane } ∧ t.mem = s.mem ∧
        t.warp o.warp = { a with dead := true, haltDue := some { due with cause := 0x068 } })) ∧
  (∀ (s : State) w lanes,
    let a := s.warp w
    let done := fun l => bit lanes l = true ∧ (a.lane l).st = .parked ∧ ((a.lane l).wait.ended = true ∨
      ((a.lane l).wait.kind = .exhaustion ∧ a.full (a.lane l).wait.data (a.lane l).wait.lanes = 0))
    a.live = true → a.halted = false → (∃ l, l < 32 ∧ done l) →
    ∃ t, exec (.waitEnd w lanes) s = .next t ∧ OnlyWarp w s t ∧
      t.warp w = { a with lanes := (t.warp w).lanes, selDue := true } ∧
      ∀ l, l < 32 → (done l → (t.warp w).lane l = { a.lane l with st := .live, wait := {} }) ∧
        (¬ done l → (t.warp w).lane l = a.lane l)) ∧
  (∀ (s : State) w l,
    let a := s.warp w
    let b := s.block a.block
    let late := fun n => (a.lane n).st = .parked ∧ (a.lane n).wait.ended = false ∧
      ((a.lane n).wait.kind = .tag ∨ (a.lane n).wait.kind = .arrival) ∧
      (a.lane n).wait.since + (if b.rcd.wdog = 0 then 1000000000 else b.rcd.wdog * 1000000) ≤ s.time
    l < 32 → late l → (∀ n, n < l → ¬ late n) → a.live = true → a.halted = false → b.st = .placed → a.haltDue = none →
    ∃ t, exec (.watchdogExpiry false w) s = .next t ∧ OnlyWarp w s t ∧
      t.warp w = { a with haltDue := some {
        cause := if (a.lane l).wait.kind = .tag then 0x070 else 0x071, lane := l, addr := (a.lane l).wait.addr
        pc := some (a.lane l).wait.pc } }) ∧
  (∀ (s : State) k x, (s.mcc k).inWait = some x → x.since + (s.block (s.member0 k)).watchdog ≤ s.time →
    exec (.watchdogExpiry true k) s = .next (s.faultMcc k 0x071 (s.mcc k).cur))

/-- R38–R40, R43, R153–R156: PF changes no register and no byte of memory; ICINV enters flight, the warp waits for it,
and performed it removes the blocks that it names, within its scope, and no others; STRQ reads counts; a fill holds the
bytes at the home once no pin and no hot stack holds it up, or the fault of its fetch, which a peer may give too. Rests on choices of the model: log entries 7, 21, 51, 57. -/
def Obligations.CacheControl : Prop :=
  (∀ w s x, Issues w (.pf x) s → ∃ t, exec (.pf x) s = .next t ∧ t.warp w = s.atIssue (.pf x) w ∧ t.mem = s.mem ∧
    (∀ u, u ≠ w → t.warp u = s.warp u) ∧
    t = { Claims.homed s t with warps := t.warps, tlbs := t.tlbs } ∧ Claims.OnlyQueues s t) ∧
  (∀ w s x, Issues w (.icinv x) s →
    let a := s.atIssue (.icinv x) w
    a.activeReal x.g ≠ 0 → a.mustStall true x.strm (a.activeReal x.g) = 0 →
    ∃ t, exec (.icinv x) s = .next t ∧ (t.warp w).blocking = .ops [s.nextOp] ∧ (t.op s.nextOp).st = .flying ∧
      (t.op s.nextOp).instr = some (.icinv x) ∧ (t.op s.nextOp).scope = x.scope ∧
      (t.op s.nextOp).elems = [{ addr := a.memAddr x false 0 }] ∧ KeepsRegs [] a (t.warp w) ∧
      (∀ u, u ≠ w → t.warp u = s.warp u) ∧ Claims.KeepsHome (s.block a.block).core s t) ∧
  (∀ (s : State) k x addr,
    let o := s.op k
    let s0 := s.elemRelease o
    let e : Elem := { addr := addr }
    let near := fun (fe : Nat) => match o.scope with
      | .lane | .warp | .block => fe = s.opCore o
      | .cluster | .die => (if fe < 384 then fe / 16 else (fe - 384) / 4) = s.opCore o / 16
      | _ => True
    let named := fun (b : FillBlock) => b.asid = o.asid ∧ (x.sz % 4 = 0 → b.va / 64 = addr / 64) ∧
      (x.sz % 4 = 1 → b.va / 2 ^ 12 = addr / 2 ^ 12) ∧ (x.sz % 4 = 2 → b.va / 2 ^ 16 = addr / 2 ^ 16)
    o.st = .flying → o.instr = some (.icinv x) → o.elems = [e] → s0.elemReady o [] e = true →
    ∃ t, exec (.memoryOpPerformed k 1 []) s = .next t ∧ t.op k = {} ∧
      (∀ c ∈ t.icaches.cells, near c.1 → ∀ b ∈ c.2, ¬ named b) ∧
      ∀ c ∈ s.icaches.cells, ∀ b ∈ c.2, (¬ near c.1 ∨ ¬ named b) → ∃ c' ∈ t.icaches.cells, c'.1 = c.1 ∧ b ∈ c'.2) ∧
  (∀ w s x, Issues w (.strq x) s →
    let a := s.atIssue (.strq x) w
    let st := a.streams (a.mode != .normal)
    ∃ t, exec (.strq x) s = .next t ∧ OnlyWarp w s t ∧ t.warp w = { a with v := (t.warp w).v } ∧
      KeepsRegs [⟨.v, x.d⟩] a (t.warp w) ∧
      ∀ l, l < 32 → (t.warp w).rdV x.d l = if bit (a.active x.g) l then
        BitVec.ofNat 64 ((st.issuedOf l (x.c % 8) - st.doneOf l (x.c % 8)).toNat % 2 ^ 10 * 2 ^ 32 +
          (st.doneOf l (x.c % 8)).toNat * 2 ^ 16 + (st.issuedOf l (x.c % 8)).toNat)
        else a.rdV x.d l) ∧
  (∀ (s : State) fe asid va keep err,
    let base := va / 64 * 64
    let got := fun (f : FillBlock) => ∃ t, exec (.fillBlock fe asid va keep err) s = .next t ∧
      t.fillBlock fe asid va = some f ∧ t.mem = s.mem ∧
      ∀ q, q / 64 * 64 ≠ base → t.fillBlock fe asid q = s.fillBlock fe asid q
    let bad := fun (c : Nat) => got { asid := asid, va := base, parcels := [], fault := some c }
    let die := if fe < 384 then fe / 16 else (fe - 384) / 4
    (2 ^ 57 ≤ base ∨ isWindow base = true → bad 0x028) ∧
    (base < 2 ^ 57 → isWindow base = false → ∀ r s1, s.translate die asid base = (r, s1) →
      (r = none → bad 0x028) ∧
      ∀ e, r = some e → (bit e.pte 3 = false → bad 0x029) ∧
        (∀ pa nc ms, bit e.pte 3 = true → s1.placeOf e.pte (e.pa base) 64 {} = .ok (.home pa nc ms) →
          s1.pinned (pa / 128) = false → s1.stackWaits pa ms = false →
          (err = .uncorrectable → bad 0x02A) ∧
          (err ≠ .uncorrectable → keep = 0 →
            let words := (List.range 16).map (fun i =>
              ofBytes (if ms then s.msRead 4 (pa + 4 * i) else s.mem.readBytes 4 (pa + 4 * i)))
            got { asid := asid, va := base, parcels := words, fault := none })) ∧
        (∀ pa, bit e.pte 3 = true → s1.placeOf e.pte (e.pa base) 64 {} = .ok (.peer pa) →
          (err = .refused ∨ s.strays pa = true ∨ s.reaches = false → bad 0x029) ∧
          (err = .uncorrectable → s.strays pa = false → s.reaches = true → bad 0x02A))))

/-! ## Tags, arrival words, clusters (spec/10) -/

/-- An instruction of one thread, `l`, on a scratchpad word, as it finds the warp: nothing of the warp is in flight and
nobody waits, so that it performs, or waits for its word alone. -/
def Sys2Proof.Claims.Alone (w : Nat) (i : Instr) (s : State) (b : Nat) : Prop :=
  Issues w i s ∧ Claims.NoWaiters s ∧ (∀ c ∈ s.ops.cells, c.2.st = .none ∨ c.2.warp ≠ w) ∧
  (s.block b).standing = true ∧ (s.block b).imaged = false ∧ (s.block b).frozen = false

/-- Both counts of a stream have risen by one in the threads of a mask, and no other count has (R144). -/
def Sys2Proof.Claims.CountedBoth (a b : Warp) (mask strm : Nat) : Prop :=
  ∀ h l st, l < 32 → st < 8 →
    let n : BitVec 16 := if h = (a.mode != .normal) ∧ bit mask l = true ∧ st = strm then 1 else 0
    (b.streams h).issuedOf l st = (a.streams h).issuedOf l st + n ∧ (b.streams h).doneOf l st = (a.streams h).doneOf l st + n

/-- R199, R200, R205, R206: with the word's tag full LDF returns the word, LDFE returns it and empties the tag; with
it empty STE writes the word and fills the tag; STF does so either way. The wrong tag parks the thread at the
instruction, with nothing done. A misaligned SA faults. FESET sets the tags of a range and FEQ gathers 64 of them.
Rests on choices of the model: log entries 7, 51. -/
def Obligations.TagInstructions : Prop :=
  (∀ w s x l b off i, i ∈ [Instr.ldf x, .ldfe x, .ste x, .stf x] → Claims.Alone w i s b → l < 32 → x.strm < 8 →
    let a := s.atIssue i w
    let sa := a.memAddr x true l
    let word := (s.block b).scratch.readBytes 8 off
    let store := i = .ste x ∨ i = .stf x
    a.activeReal x.g = 2 ^ l → a.mustStall false x.strm (2 ^ l) = 0 → sa % 8 = 0 →
    s.resolveSa a.block sa 8 = .ok (.scratch b off) →
    (i = .stf x ∨ (s.tagAt b off = true ↔ ¬ store) →
      ∃ t, exec i s = .next t ∧ Claims.KeepsHome (s.block a.block).core s t ∧
        (∀ c, c ≠ b → t.block c = s.block c) ∧ (∀ o, o / 8 ≠ off / 8 → t.tagAt b o = s.tagAt b o) ∧
        Claims.CountedBoth a (t.warp w) (2 ^ l) x.strm ∧ (∀ u, u ≠ w → t.warp u = s.warp u) ∧
        t.warp w = { a with v := (t.warp w).v, own := (t.warp w).own, hnd := (t.warp w).hnd } ∧
        (store → t.tagAt b off = true ∧ KeepsRegs [] a (t.warp w) ∧ ∀ n, (t.block b).scratch.read n =
          if off ≤ n ∧ n < off + 8 then (a.rdV x.d l).extractLsb' (8 * (n - off)) 8 else (s.block b).scratch.read n) ∧
        (¬ store → t.tagAt b off = (i == .ldf x) ∧ (t.block b).scratch = (s.block b).scratch ∧
          ∀ n j, j < 32 → (t.warp w).rdV n j = if n = x.d ∧ j = l then BitVec.ofNat 64 (ofBytes word) else a.rdV n j)) ∧
    (¬ (i = .stf x ∨ (s.tagAt b off = true ↔ ¬ store)) →
      ∃ t, exec i s = .next t ∧ (∀ c, t.block c = s.block c) ∧ (∀ u, u ≠ w → t.warp u = s.warp u) ∧
        KeepsRegs [] a (t.warp w) ∧ (t.warp w).own = a.own ∧ (t.warp w).hnd = a.hnd ∧
        ((t.warp w).lane l).st = .parked ∧ ((t.warp w).lane l).pc = a.pc ∧ ((t.warp w).lane l).wait.kind = .tag ∧
        ((t.warp w).lane l).wait.place = .scratch b off ∧ bit (t.warp w).group l = false)) ∧
  (∀ w s x l i, i ∈ [Instr.ldf x, .ldfe x, .ste x, .stf x] → Issues w i s → l < 32 →
    (s.atIssue i w).activeReal x.g = 2 ^ l → (s.atIssue i w).memAddr x true l % 8 ≠ 0 →
    exec i s = .next ((s.issued i w).faultWarp w
      { cause := 0x062, lane := l, addr := (s.atIssue i w).memAddr x true l })) ∧
  (∀ w s x b off, Claims.Alone w (.feset x) s b →
    let a := s.atIssue (.feset x) w
    let sa := (a.rdS x.a).toNat
    let n := (a.rdS x.b).toNat
    a.activeReal x.g ≠ 0 → 0 < n → n ≤ 131072 → sa % 8 = 0 → s.resolveSa a.block sa (8 * n) = .ok (.scratch b off) →
    ∃ t, exec (.feset x) s = .next t ∧ KeepsRegs [] a (t.warp w) ∧ (∀ c, c ≠ b → t.block c = s.block c) ∧
      (t.block b).scratch = (s.block b).scratch ∧
      ∀ o, t.tagAt b o = if off / 8 ≤ o / 8 ∧ o / 8 < off / 8 + n then bit x.c 0 else s.tagAt b o) ∧
  (∀ w s x b off, Issues w (.feq x) s →
    let a := s.atIssue (.feq x) w
    let sa := (a.rdS x.a).toNat
    a.activeReal x.g ≠ 0 → sa % 8 = 0 → s.resolveSa a.block sa 1 = .ok (.scratch b off) →
    ∃ t, exec (.feq x) s = .next t ∧ OnlyWarp w s t ∧ t.warp w = { a with s := (t.warp w).s } ∧
      KeepsRegs [⟨.s, x.d⟩] a (t.warp w) ∧ (x.d ≠ 0 → ∀ i, i < 64 → ((t.warp w).rdS x.d).getLsbD i =
        (decide (off + 8 * i < (s.block b).alloc) && s.tagAt b (off + 8 * i))))

/-- R208, R210–R212: an increment of a word whose target is not zero; AWARM and ARRIVE enter flight, and performed they
arm or increment the word; AWARM refuses a value with reserved bits. WAITG goes on when the generation is reached,
faults when `err` is set, and otherwise parks its group. Rests on choices of the model: log entry 41. -/
def Obligations.ArrivalWords : Prop :=
  (∀ (a : AWord) n, a.count + n < 2 ^ 32 →
    (a.increment n).err = a.err ∧
    (0 < a.target → a.ar = true → (a.increment n).count < a.target ∧
      a.target * ((a.count + n) / a.target) + (a.increment n).count = a.count + n ∧
      (a.gen < 2 ^ 32 → (a.increment n).gen = (a.gen + (a.count + n) / a.target) % 2 ^ 32)) ∧
    (a.target ≤ a.count + n → 0 < a.target → a.ar = false →
      (a.increment n).count = a.count + n - a.target ∧ (a.increment n).target = 0 ∧
      (a.increment n).gen = (a.gen + 1) % 2 ^ 32) ∧
    (a.count + n < a.target ∨ a.target = 0 → a.increment n = { a with count := a.count + n })) ∧
  (∀ w s x i data p,
    (i = .awarm x ∧ data = ((s.atIssue i w).rdS x.d).toNat ∧ bits data 36 28 = 0 ∧ bits data 33 3 ≠ 7) ∨
    (i = .arrive x ∧ data = ((s.atIssue i w).rdS x.d).toNat % 2 ^ 32 *
      (if bit x.sz 0 then popcount 32 ((s.atIssue i w).activeReal x.g) else 1)) →
    Issues w i s → x.strm < 8 →
    let a := s.atIssue i w
    let sa := a.memAddr x false 0
    a.activeReal x.g ≠ 0 → a.mustStall true x.strm (a.activeReal x.g) = 0 → sa % 16 = 0 →
    s.resolveSa a.block sa 16 = .ok p →
    ∃ t, exec i s = .next t ∧ Claims.OpEnters w
      { st := .flying, instr := some i, warp := w, block := a.block, core := (s.block a.block).core
        job := (s.block a.block).job, asid := (s.job (s.block a.block).job).asid, hset := a.mode != .normal
        strm := x.strm, after := x.after, scope := x.scope, lanes := a.activeReal x.g, enabled := 1
        group := maskWhere 32 (bit a.group), zero := x.vx.z, pc := a.pc, seq := s.nextSeq
        elems := [{ addr := sa, place := p, size := 16, data := data }], issuedAt := s.time } a s t) ∧
  (∀ w s x, Issues w (.awarm x) s →
    let a := s.atIssue (.awarm x) w
    let v := (a.rdS x.d).toNat
    a.activeReal x.g ≠ 0 → bits v 36 28 ≠ 0 ∨ bits v 33 3 = 7 →
    exec (.awarm x) s = .next ((s.issued (.awarm x) w).faultWarp w { cause := 0x022 })) ∧
  (∀ (s : State) k x lanes e b off,
    let o := s.op k
    let s0 := s.elemRelease o
    o.st = .flying → o.elems = [e] → e.place = .scratch b off → e.size = 16 → bit lanes e.lane = true → e.done = false →
    (s.block b).standing = true → (s.block b).imaged = false → s0.elemReady o [] e = true → Claims.NoWaiters s →
    (o.instr = some (.arrive x) → ∃ t, exec (.memoryOpPerformed k lanes []) s = .next t ∧ t.op k = {} ∧
      t.aword b off = (s.aword b off).increment e.data) ∧
    (o.instr = some (.awarm x) → ∃ t, exec (.memoryOpPerformed k lanes []) s = .next t ∧ t.op k = {} ∧
      t.aword b off = (s.aword b off).arm e.data (bit x.sz 0))) ∧
  (∀ w s x b off, Claims.Alone w (.waitg x) s b → x.strm < 8 →
    let a := s.atIssue (.waitg x) w
    let sa := a.memAddr x false 0
    let word := s.aword b off
    let reached := (word.gen + 2 ^ 32 - (a.rdS x.d).toNat % 2 ^ 32) % 2 ^ 32 < 2 ^ 31
    a.activeReal x.g ≠ 0 → a.mustStall true x.strm (a.activeReal x.g) = 0 → sa % 16 = 0 →
    s.resolveSa a.block sa 16 = .ok (.scratch b off) →
    (word.err = true → ∃ t, exec (.waitg x) s = .next t ∧ (t.warp w).halted = true ∧ (t.warp w).cause = 0x073) ∧
    (word.err = false → reached → ∃ t, exec (.waitg x) s = .next t ∧ KeepsRegs [] a (t.warp w) ∧
      Claims.CountedBoth a (t.warp w) (a.activeReal x.g) x.strm ∧ (∀ u, u ≠ w → t.warp u = s.warp u) ∧
      ∀ l, l < 32 → ((t.warp w).lane l).pc = (a.lane l).pc ∧ ((t.warp w).lane l).st = (a.lane l).st) ∧
    (word.err = false → ¬ reached → ∃ t, exec (.waitg x) s = .next t ∧ KeepsRegs [] a (t.warp w) ∧
      (∀ u, u ≠ w → t.warp u = s.warp u) ∧ (t.warp w).own = a.own ∧ (t.warp w).hnd = a.hnd ∧
      ∀ l, l < 32 → bit a.group l = true → a.isHelper l = false →
        ((t.warp w).lane l).st = .parked ∧ ((t.warp w).lane l).pc = a.pc ∧ ((t.warp w).lane l).wait.kind = .arrival))

/-- R215–R218: CJOIN by a block of no cluster makes one where its die has none of that grid and key, and joins the one
there is at its lowest free index otherwise; a block that has joined gets its place again. CLEAVE frees the block's
index, once nothing crosses its scratchpad's border, and with the last member the cluster is gone. Rests on choices of
the model: log entries 51, 82. -/
def Obligations.Clusters : Prop :=
  (∀ w s x, Issues w (.cjoin x) s →
    let a := s.atIssue (.cjoin x) w
    let b := s.block a.block
    let key := (a.rdS x.a).toNat
    let answer := fun (t : State) (cl : Cluster) (st i : Nat) =>
      OnlyWarp w { s with blocks := t.blocks, clusters := t.clusters, free := t.free } t ∧
      t.warp w = { a with s := (t.warp w).s } ∧ KeepsRegs [⟨.s, x.d⟩] a (t.warp w) ∧
      (x.d ≠ 0 → (t.warp w).rdS x.d =
        BitVec.ofNat 64 (cl.cgen * 2 ^ 32 + st * 2 ^ 24 + cl.indexes.length * 2 ^ 16 + cl.span * 2 ^ 8 + i))
    a.activeReal x.g ≠ 0 →
    (∀ c, b.cluster = some c → ∃ t, exec (.cjoin x) s = .next t ∧ t.blocks = s.blocks ∧ t.clusters = s.clusters ∧
      answer t (s.cluster c) (if (s.cluster c).key = key then 1 else 3) b.member) ∧
    (b.cluster = none →
      (∀ c ∈ s.clusters.cells, ¬ (c.2.live = true ∧ c.1 / 65536 = b.core / 16 ∧ c.2.grid = b.grid ∧ c.2.key = key)) →
      (s.clusters.cells.filter (fun c => c.2.live && c.1 / 65536 == b.core / 16)).length < 65535 →
      ∃ t c, exec (.cjoin x) s = .next t ∧ c / 65536 = b.core / 16 ∧ c % 65536 < 65535 ∧
        (s.cluster c).live = false ∧
        t.cluster c = { live := true, grid := b.grid, key := key, members := ⟨[(0, some a.block)]⟩, cgen := 1 } ∧
        t.block a.block = { b with cluster := some c, member := 0 } ∧ (∀ k, k ≠ a.block → t.block k = s.block k) ∧
        answer t (t.cluster c) 0 0) ∧
    (∀ c i, b.cluster = none → (s.cluster c).live = true → c / 65536 = b.core / 16 → (s.cluster c).grid = b.grid →
      (s.cluster c).key = key →
      (∀ d ∈ s.clusters.cells, d.2.live = true → d.1 / 65536 = b.core / 16 → d.2.grid = b.grid → d.2.key = key → d.1 = c) →
      i < 16 → (s.cluster c).members.get none i = none → (∀ j, j < i → (s.cluster c).members.get none j ≠ none) →
      ∃ t, exec (.cjoin x) s = .next t ∧ t.block a.block = { b with cluster := some c, member := i } ∧
        (∀ k, k ≠ a.block → t.block k = s.block k) ∧ (t.cluster c).members.get none i = some a.block ∧
        (∀ j, j ≠ i → (t.cluster c).members.get none j = (s.cluster c).members.get none j) ∧
        (t.cluster c).cgen = ((s.cluster c).cgen + 1) % 2 ^ 32 ∧ answer t (t.cluster c) 0 i)) ∧
  (∀ w s x, Issues w (.cleave x) s →
    let a := s.atIssue (.cleave x) w
    let b := s.block a.block
    a.activeReal x.g ≠ 0 →
    (b.cluster = none → exec (.cleave x) s = .next (s.issued (.cleave x) w)) ∧
    (∀ c, b.cluster = some c → b.gang = none → Claims.NoWaiters s → (∀ o ∈ s.ops.cells, o.2.st = .none) →
      ∃ t, exec (.cleave x) s = .next t ∧ OnlyWarp w { s with blocks := t.blocks, clusters := t.clusters } t ∧
        t.warp w = a ∧ t.block a.block = { b with cluster := none, member := 0, leaving := false } ∧
        (∀ k, k ≠ a.block → t.block k = s.block k) ∧ (∀ d, d ≠ c → t.cluster d = s.cluster d) ∧
        ((∃ i, i < 16 ∧ i ≠ b.member ∧ (s.cluster c).members.get none i ≠ none) →
          (t.cluster c).members.get none b.member = none ∧
          (∀ i, i ≠ b.member → (t.cluster c).members.get none i = (s.cluster c).members.get none i) ∧
          (t.cluster c).cgen = ((s.cluster c).cgen + 1) % 2 ^ 32) ∧
        ((∀ i, i < 16 → i ≠ b.member → (s.cluster c).members.get none i = none) → t.cluster c = {}))) ∧
  (∀ (s : State) k lanes ext x,
    let o := s.op k
    o.st = .flying → o.instr = some (.cleave x) → s.cleaveFree o.block o.seq = true →
    ∃ t, exec (.memoryOpPerformed k lanes ext) s = .next t ∧ t.op k = {} ∧ (t.block o.block).cluster = none)

/-! ## Asynchronous copies (spec/12) -/

/-- R243–R245, R248, R250: a copy enters its engine as one operation that captures its record's address, its target
and its coordinates; CPYM names every member of the cluster; CPYC's lines are known at issue, and without any it is
performed at once. Reserved bits are illegal operands, and an address off its boundary is misaligned. Rests on choices
of the model: log entry 37. -/
def Obligations.CopyIssue : Prop :=
  (∀ w s x i, i ∈ [Instr.cpy x, .cpys x, .cpyg x, .cpym x] → Issues w i s → x.strm < 8 →
    let a := s.atIssue i w
    let d := (a.rdS x.d).toNat
    let rcd := (a.rdS x.a).toNat
    let r := fun (k : Nat) => (a.rdS (Mem.offReg x + k)).toNat
    let sp := bits d 0 25
    let aw := bits d 32 25
    let b := s.block a.block
    let legal := bits d 57 7 = 0 ∧ bits d 25 7 = 0 ∧ (i = .cpys x → aw = 0) ∧
      (i = .cpym x → bit sp 24 = false ∧ bit aw 24 = false) ∧ (i = .cpyg x → r 1 < 2 ^ 25)
    a.activeReal x.g ≠ 0 →
    (¬ legal → exec i s = .next ((s.issued i w).faultWarp w { cause := 0x022 })) ∧
    (legal → rcd % 64 ≠ 0 → exec i s = .next ((s.issued i w).faultWarp w { cause := 0x062, addr := rcd })) ∧
    (legal → rcd % 64 = 0 → sp % 16 = 0 → aw % 16 = 0 → (i = .cpyg x → r 1 % 4 = 0) →
      a.mustStall true x.strm (a.activeReal x.g) = 0 →
      ∃ t o, exec i s = .next t ∧ Claims.OpEnters w o a s t ∧ o.st = .flying ∧ o.instr = some i ∧ o.warp = w ∧
        o.block = a.block ∧ o.asid = (s.job b.job).asid ∧ o.hset = (a.mode != .normal) ∧ o.strm = x.strm ∧
        o.after = x.after ∧ o.scope = x.scope ∧ o.lanes = a.activeReal x.g ∧ o.pc = a.pc ∧ o.sent = false ∧
        (let c := CopyArgs.of o.args
         c.rcd = rcd ∧ c.sp = sp ∧ c.aw = aw ∧ (sp < 2 ^ 20 → c.spBlock = a.block ∧ c.spCause = 0) ∧
         (i = .cpyg x → c.list = r 1 ∧ c.coords = [r 0 % 2 ^ 32]) ∧
         (i ≠ .cpyg x → c.coords = (List.range 5).map (fun k => r k % 2 ^ 32))) ∧
        (i = .cpym x → b.cluster = none → o.members = [a.block]) ∧
        (i = .cpym x → ∀ cl, b.cluster = some cl → ∀ m, m ∈ o.members ↔
          ∃ n, n < 16 ∧ (s.cluster cl).members.get none n = some m))) ∧
  (∀ w s x, Issues w (.cpyc x) s → x.strm < 8 →
    let a := s.atIssue (.cpyc x) w
    let n := (a.rdS x.d).toNat
    let src := (a.rdS x.a).toNat
    let dst := (a.rdS (Mem.offReg x)).toNat
    a.activeReal x.g ≠ 0 →
    (n % 128 ≠ 0 ∨ 2 ^ 32 ≤ n → exec (.cpyc x) s = .next ((s.issued (.cpyc x) w).faultWarp w { cause := 0x022 })) ∧
    (n % 128 = 0 → n < 2 ^ 32 → src % 128 ≠ 0 →
      exec (.cpyc x) s = .next ((s.issued (.cpyc x) w).faultWarp w { cause := 0x062, addr := src })) ∧
    (n % 128 = 0 → n < 2 ^ 32 → src % 128 = 0 → dst % 128 = 0 → a.mustStall true x.strm (a.activeReal x.g) = 0 →
      (0 < n → ∃ t o, exec (.cpyc x) s = .next t ∧ Claims.OpEnters w o a s t ∧ o.st = .flying ∧
        o.instr = some (.cpyc x) ∧ o.hset = (a.mode != .normal) ∧ o.strm = x.strm ∧ o.lanes = a.activeReal x.g ∧
        o.sent = false ∧ o.elems.length = n / 128 ∧
        ∀ i e, o.elems[i]? = some e → e.addr = src + 128 * i ∧ e.data = dst + 128 * i ∧ e.size = 128 ∧ e.done = false) ∧
      (n = 0 → (∀ l, l < 32 → (a.lane l).st.isParked = false) → ∃ t, exec (.cpyc x) s = .next t ∧ t.op s.nextOp = {} ∧
        KeepsRegs [] a (t.warp w) ∧ Claims.CountedBoth a (t.warp w) (a.activeReal x.g) x.strm)))

/-- A copy whose pieces are known, of which `e` is the only one in the lanes named that has not moved. -/
def Sys2Proof.Claims.NextPiece (s : State) (k lanes j : Nat) (e : Elem) : Prop :=
  let o := s.op k
  isCopy o.i = true ∧ o.st = .flying ∧ o.sent = true ∧ s.copyEdges o = true ∧ o.elems[j]? = some e ∧ e.done = false ∧
  bit lanes e.lane = true ∧ (∀ n x, n ≠ j → o.elems[n]? = some x → bit lanes x.lane = true → x.done = true)

/-- Nothing earlier of its threads overlaps a piece's places in scratchpad, and none of them moves to another core. -/
def Sys2Proof.Claims.PieceFree (s s1 : State) (o : Op) (e : Elem) : Prop :=
  (∀ p ∈ copyTargets o e, s1.copySame o p e.size = true) ∧
    ∀ b off, Place.scratch b off ∈ copyTargets o e → (s.block b).frozen = false

/-- Bytes at the home, or of an MS page in memory itself (R133). -/
def Sys2Proof.Claims.homeBytes (s : State) (ms : Bool) (n pa : Nat) : List Byte :=
  if ms then s.msRead n pa else s.mem.readBytes n pa

/-- R237–R241, R245–R252, R254–R256: the addresses of a box of two dimensions; a copy whose mask's edges are met, and
before which every copy that its engine accepted has started, starts and knows its pieces from its record; CPY, CPYG and
CPYM move a piece from memory, or fill it, in every target; CPYS moves one to memory and CPYC a line from memory to
memory, where no pin and no hot stack holds the line; the last piece moved, the words of the copy, every member's for a
CPYM, count the box and the copy completes; a copy that meets a fault is abandoned, its word spoiled, its core's log
written, and the warp halts at its next head. Rests on choices of the model: log entry 106. -/
def Obligations.CopyMoves : Prop :=
  (∀ (r : TRec) cs b sp j0 j1, r.rank = 2 → j0 < r.box 0 → j1 < r.box 1 →
    let j := j1 * r.box 0 + j0
    let x0 : Int := cs.getD 0 0 + j0
    let x1 : Int := cs.getD 1 0 + j1
    let inside := 0 ≤ x0 ∧ x0 < r.dim 0 ∧ 0 ≤ x1 ∧ x1 < r.dim 1
    ∃ e, (r.pieces cs none b sp)[j]? = some e ∧ e.place = .scratch b (sp + r.skw (r.esz * j)) ∧ e.size = r.esz ∧
      (inside → e.data2 = 0 ∧ e.addr = r.base + r.esz * x0.toNat + x1.toNat * r.stride 1) ∧
      (¬ inside → e.data2 = 1 ∧ e.data = r.fill / 2 ^ (8 * (r.esz * j % 8)) % 2 ^ (8 * r.esz))) ∧
  (∀ (r : TRec) o, r.skw o / r.row = o / r.row ∧ r.skw o % 16 = o % 16) ∧
  (∀ (s : State) k pa nc ms s1 l ext,
    let o := s.op k
    let s0 := s.opRelease o
    let c := s0.copyArgs o
    let p : Place := .home pa nc ms
    let s2 := s1.copyAt o p true
    let bs := Claims.homeBytes s2 ms 64 pa
    isCopy o.i = true → (∀ y, o.i ≠ .cpyc y) → o.st = .flying → o.sent = false → s.copyEdges o = true →
    s0.copyEdges o = true → s0.copyTurn o = true →
    s0.engineCheck (o.ctx s0) { read := true } c.rcd 64 = (.ok p, s1) → s1.copySame o p 64 = true →
    s2.homeHeld pa ms = false →
    (∀ x, (s2.noteRdc (s.opCore o / 16) pa nc ms).copySame o (.scratch c.listBlock (c.list % 2 ^ 20)) x = true) →
    (s2.noteRdc (s.opCore o / 16) pa nc ms).copySame o p 64 = true →
    s0.copyPieces o.i c bs = .ok l →
    (∀ y, o.i = .cpym y → ∀ m ∈ o.members, s0.beyond m (c.sp % 2 ^ 20 + (TRec.of bs).bytes) = false) →
    ∃ t, exec (.memoryOpPerformed k 0 ext) s = .next t ∧ t.op k = { o with elems := l, sent := true } ∧
      t.mem = s0.mem ∧ t.warps = s.warps) ∧
  (∀ (s : State) k lanes j e ext, Claims.NextPiece s k lanes j e →
    let o := s.op k
    let s0 := s.opRelease o
    let moved := fun (bytes : Nat → Byte) =>
      ∃ t, exec (.memoryOpPerformed k lanes ext) s = .next t ∧ t.op k = o.markDone j 0 ∧ t.mem = s0.mem ∧
        (∀ b off, Place.scratch b off ∈ copyTargets o e → (s.block b).standing = true → (s.block b).imaged = false →
          ∀ i, i < e.size → (t.block b).scratch.read (off + i) = bytes i) ∧
        ∀ b i, (∀ off, Place.scratch b off ∈ copyTargets o e → i < off ∨ off + e.size ≤ i) →
          (t.block b).scratch.read i = (s.block b).scratch.read i
    (∀ y, o.i ≠ .cpys y) → (∀ y, o.i ≠ .cpyc y) → Claims.NoWaiters s → s0.copyEdges o = true →
    (∀ b off, Place.scratch b off ∈ copyTargets o e → (s.block b).standing = true ∧ (s.block b).imaged = false) →
    (∀ pa nc ms s1, e.data2 ≠ 1 → s0.engineCheck (o.ctx s0) { read := true } e.addr e.size = (.ok (.home pa nc ms), s1) →
      let s2 := s1.copyAt o (.home pa nc ms) true
      Claims.PieceFree s s1 o e → s1.copySame o (.home pa nc ms) e.size = true → s2.homeHeld pa ms = false →
      moved (fun i => (Claims.homeBytes s2 ms e.size pa).getD i 0)) ∧
    (e.data2 = 1 → Claims.PieceFree s s0 o e → moved (fun i => BitVec.ofNat 8 (e.data / 2 ^ (8 * i))))) ∧
  (∀ (s : State) k lanes j e ext y b off pa nc ms s1, Claims.NextPiece s k lanes j e → (s.op k).i = .cpys y →
    let o := s.op k
    let s0 := s.opRelease o
    e.data2 ≠ 1 → e.place = .scratch b off → s0.copyEdges o = true → pa % 128 + e.size ≤ 128 →
    s0.engineCheck (o.ctx s0) { write := true } e.addr e.size = (.ok (.home pa nc ms), s1) → Claims.PieceFree s s1 o e →
    s1.copySame o (.home pa nc ms) e.size = true → (s1.copyAt o (.home pa nc ms) false).homeHeld pa ms = false →
    (∀ d ∈ o.elems.take j, d.done = false → d.data2 ≠ 1 → d.addr + d.size ≤ e.addr ∨ e.addr + e.size ≤ d.addr) →
    ∃ t, exec (.memoryOpPerformed k lanes ext) s = .next t ∧ t.op k = o.markDone j 0 ∧ t.warps = s.warps ∧
      Claims.homeBytes t ms e.size pa = s0.readScratch b off e.size ∧
      ∀ a, a < pa ∨ pa + e.size ≤ a → t.mem.read a = s0.mem.read a) ∧
  (∀ (s : State) k lanes j e ext y pa nc ms pb nc' ms' s1 s2, Claims.NextPiece s k lanes j e → (s.op k).i = .cpyc y →
    let o := s.op k
    let s0 := s.opRelease o
    let p : Place := .home pa nc ms
    let q : Place := .home pb nc' ms'
    let s3 := s2.copyAt o p true
    let s4 := (if ms then s3 else s3.noteRdc (s.opCore o / 16) pa nc ms).copyAt o q false
    s0.copyEdges o = true → pb % 128 = 0 →
    s0.engineCheck (o.ctx s0) { read := true } e.addr 128 = (.ok p, s1) →
    s1.engineCheck (o.ctx s0) { write := true } e.data 128 = (.ok q, s2) →
    bits pa 50 2 + bits pb 50 2 = 1 → s2.copySame o p 128 = true → s2.copySame o q 128 = true →
    s3.homeHeld pa ms = false → s4.homeHeld pb ms' = false →
    ∃ t, exec (.memoryOpPerformed k lanes ext) s = .next t ∧ t.op k = o.markDone j 0 ∧ t.warps = s.warps ∧
      Claims.homeBytes t ms' 128 pb = Claims.homeBytes s3 ms 128 pa ∧
      ∀ a, a < pb ∨ pb + 128 ≤ a → t.mem.read a = s0.mem.read a) ∧
  (∀ (s : State) k ext,
    let o := s.op k
    let c := s.copyArgs o
    let words := match o.i with
      | .cpys _ | .cpyc _ => []
      | .cpym _ => o.members.map (fun m => (m, c.aw % 2 ^ 20))
      | _ => [(c.awBlock, c.aw % 2 ^ 20)]
    isCopy o.i = true → o.st = .flying → o.orphan = false → o.sent = true →
    (∀ e ∈ o.elems, e.done = true) → c.awCause = 0 → Claims.Calm (s.warp o.warp) → Claims.NoWaiters s → words.Nodup →
    (∀ m ∈ words, (s.block m.1).standing = true ∧ (s.block m.1).imaged = false ∧ (s.block m.1).frozen = false ∧
      m.2 + 16 ≤ (s.block m.1).alloc) →
    ∃ t, exec (.copyComplete k ext) s = .next t ∧ t.op k = {} ∧ Claims.Completed o (s.warp o.warp) (t.warp o.warp) ∧
      ∀ m ∈ words, t.aword m.1 m.2 = (s.aword m.1 m.2).increment ((o.elems.map (·.size)).sum)) ∧
  (∀ (s : State) (k j : Nat) (e : Elem) y (f : Nat) s1,
    let o := s.op k
    let s0 := s.opRelease o
    let c := s.copyArgs o
    let log := s.copyLogs.get [] o.core
    o.i = .cpy y → o.st = .flying → o.orphan = false → o.sent = true → s.copyEdges o = true → s0.copyEdges o = true →
    o.elems[j]? = some e →
    e.done = false → e.data2 ≠ 1 → s0.engineCheck (o.ctx s0) { read := true } e.addr e.size = (.error f, s1) → f < 1024 →
    Claims.NoWaiters s → (s.warp o.warp).halted = false → (s.warp o.warp).haltDue = none →
    (s.warp o.warp).index < 32 → c.lane < 32 → o.strm < 8 → c.awCause = 0 → (s.block c.awBlock).standing = true →
    (s.block c.awBlock).imaged = false → (s.block c.awBlock).frozen = false →
    c.aw % 2 ^ 20 + 16 ≤ (s.block c.awBlock).alloc →
    (∃ i, i < 8 ∧ bit ((log.getD i {}).word0).toNat 63 = false) →
    ∃ t, exec (.copyFault k f e.addr 0 0 []) s = .next t ∧ t.op k = { o with st := .stuck, cause := f } ∧
      (t.aword c.awBlock (c.aw % 2 ^ 20)).err = true ∧ (t.warp o.warp).abandoned = (s.warp o.warp).abandoned ++ [k] ∧
      (t.warp o.warp).haltDue = some { cause := f, lane := c.lane, addr := e.addr, pc := some o.pc, late := true } ∧
      ∃ x ∈ t.copyLogs.get [] o.core, x.addr = e.addr ∧ x.record = c.rcd ∧ x.pc = o.pc ∧ bit x.word0.toNat 63 = true ∧
        bits x.word0.toNat 53 10 = f)

/-! ## Matrix (spec/14) -/

/-- A matrix control core stands past its instruction. -/
def Sys2Proof.Claims.mccPast (k : Nat) (s : State) : State :=
  s.setMcc k { s.mcc k with pc := (s.mcc k).npc, xfer := none }

/-- Its instruction's fault (R287). -/
def Sys2Proof.Claims.mccTrap (k : Nat) (s : State) (c : Nat) : State :=
  (Claims.mccPast k s).faultMcc k c (s.mcc k).cur

/-- An entry has joined the queues of array `n` that it needs, in issue order, and nothing else has changed (R285). -/
def Sys2Proof.Claims.Queued (k n : Nat) (e : MEntry) (load comp : Bool) (s t : State) : Prop :=
  let m := s.mcc k
  let c := k / 4 * 16 + 4 * (k % 4) + n
  let a := s.arr c
  let q : QEntry := { seq := m.seq, e := e }
  t.mcc k = { m with pc := m.npc, xfer := none, seq := m.seq + 1 } ∧ (∀ j, j ≠ k → t.mcc j = s.mcc j) ∧
  t.arr c = ({ a with
    loadQ := a.loadQ ++ (if load then [q] else []), compQ := a.compQ ++ (if comp then [q] else []) } : Arr).settle ∧
  (∀ j, j ≠ c → t.arr j = s.arr j) ∧ t = { s with mccs := t.mccs, arrs := t.arrs }

/-- R284, R285, R293–R302: with room in its queues and an array of the instance, each matrix instruction with legal
operands joins its queues; otherwise the MCC waits, or faults. MWAITG goes on when its generation is reached and
otherwise stands; MARRIVE enters the buffer; MSTAT reads the flags, the tag and the queues, and may clear the flags.
Rests on choices of the model: log entries 7, 45. -/
def Obligations.MatrixIssue : Prop :=
  (∀ (i : Instr) k s, IssuesMcc k s → s.mccRoom i k = false → exec i s = .next s) ∧
  (∀ k s, IssuesMcc k s →
    let m := s.mcc k
    let has := fun (n : Nat) => n < (s.mccBlocks k).length
    let sa := fun (x n : Nat) => ∃ p, s.resolveSa (s.member0 k) x n = .ok p
    let traps := fun (i : Instr) (c : Nat) => exec i s = .next (Claims.mccTrap k s c)
    let queues := fun (i : Instr) (n : Nat) (e : MEntry) (load comp : Bool) =>
      ∃ t, exec i s = .next t ∧ Claims.Queued k n e load comp s t
    let arr := fun (n : Nat) => s.arr (k / 4 * 16 + 4 * (k % 4) + n)
    (∀ n w f rm, s.mccRoom (.mcfg n w f rm) k = true →
      (has n → queues (.mcfg n w f rm) n (.cfg w f rm) true true) ∧ (¬ has n → traps (.mcfg n w f rm) 0x022)) ∧
    (∀ x, s.mccRoom (.mscl x) k = true → has (x.c % 4) →
      let a := (m.rdS x.a).toNat
      let b := (m.rdS x.b).toNat
      let isSa := fun (v : Nat) => v < 2 ^ 20 ∨ v / 2 ^ 24 = 1
      (isSa a → isSa b → a % 4 = 0 → b % 16 = 0 → queues (.mscl x) (x.c % 4) (.scl a b) true true) ∧
      (¬ isSa a ∨ ¬ isSa b → traps (.mscl x) 0x022) ∧
      (isSa a → isSa b → a % 4 ≠ 0 ∨ b % 16 ≠ 0 → traps (.mscl x) 0x062)) ∧
    (∀ x, s.mccRoom (.mlds x) k = true → has (x.c % 4) →
      let a := (m.rdS x.a).toNat
      let p := (m.rdS x.b).toNat
      let q := arr (x.c % 4)
      let rb := 16 * matWidth q.lastWfmt
      (2 ^ 20 ≤ p → traps (.mlds x) 0x022) ∧
      (p < 2 ^ 20 → a % 16 ≠ 0 ∨ p % 16 ≠ 0 → traps (.mlds x) 0x062) ∧
      (p < 2 ^ 20 → a % 16 = 0 → p % 16 = 0 → rb ≤ p →
        (bit x.c 3 = true → (s.block (s.member0 k)).rcd.rl = false → traps (.mlds x) 0x091) ∧
        ((matScaled q.lastWfmt = true → sa q.lastWscale 512) → (bit x.c 3 = false → sa a (127 * p + rb)) →
          (bit x.c 3 = true → (s.block (s.member0 k)).rcd.rl = true) →
          queues (.mlds x) (x.c % 4) (.lds a p (bit x.c 2) (bit x.c 3)) true false))) ∧
    (∀ x, s.mccRoom (.mswap x) k = true → has (x.c % 4) → queues (.mswap x) (x.c % 4) .swap false true) ∧
    (∀ x, s.mccRoom (.mstrm x) k = true → has (x.c % 4) →
      let rows := (m.rdS x.d).toNat
      let r := bits rows 0 13
      let n := bits rows 16 14
      let f := (m.rdS x.a).toNat
      let p := (m.rdS x.b).toNat
      let q := arr (x.c % 4)
      let rb := 16 * matWidth q.lastAfmt
      let legal := bits rows 13 3 = 0 ∧ bits rows 30 34 = 0 ∧ 0 < n ∧ r + n ≤ 8192
      (¬ legal → traps (.mstrm x) 0x022) ∧
      (legal → p < 2 ^ 20 → f % 16 ≠ 0 ∨ p % 16 ≠ 0 → traps (.mstrm x) 0x062) ∧
      (legal → p < 2 ^ 20 → f % 16 = 0 → p % 16 = 0 → rb ≤ p → sa f ((n - 1) * p + rb) →
        (matScaled q.lastAfmt = true → sa q.lastAscale (4 * n)) →
        queues (.mstrm x) (x.c % 4) (.strm r n f p (bit x.c 2)) false true)) ∧
    (∀ x, s.mccRoom (.mclr x) k = true → has (x.c % 4) →
      let rows := (m.rdS x.d).toNat
      let r := bits rows 0 13
      let n := bits rows 16 14
      (bits rows 13 3 = 0 → bits rows 30 34 = 0 → 0 < n → r + n ≤ 8192 →
        queues (.mclr x) (x.c % 4) (.clr r n) false true)) ∧
    (∀ x b off, (m.rdS x.a).toNat % 16 = 0 → s.resolveSa (s.member0 k) (m.rdS x.a).toNat 16 = .ok (.scratch b off) →
      let g := (m.rdS x.b).toNat % 2 ^ 32
      let word := s.aword b off
      let reached := (word.gen + 2 ^ 32 - g) % 2 ^ 32 < 2 ^ 31
      (word.err = true → traps (.mwaitg x) 0x073) ∧
      (word.err = false → reached → exec (.mwaitg x) s = .next (Claims.mccPast k s)) ∧
      (word.err = false → ¬ reached → ∃ t, exec (.mwaitg x) s = .next t ∧ OnlyMcc k s t ∧
        t.mcc k = { m with pc := m.cur, xfer := none, inWait := some { block := b, off := off, gen := g, since := s.time } })) ∧
    (∀ x b off, s.mccRoom (.marrive x) k = true → (m.rdS x.a).toNat % 16 = 0 →
      s.resolveSa (s.member0 k) (m.rdS x.a).toNat 16 = .ok (.scratch b off) →
      (∀ n, n < 4 → bit (x.c % 256) n = true ∨ bit (x.c % 256) (4 + n) = true → has n) →
      ∃ t, exec (.marrive x) s = .next t ∧ OnlyMcc k s t ∧
        t.mcc k = { m with
          pc := m.npc, xfer := none, seq := m.seq + 1
          arrivals := m.arrivals ++
            [{ seq := m.seq, block := b, off := off, n := (m.rdS x.b).toNat % 2 ^ 32, mask := x.c % 256 }] }) ∧
    (∀ x, has (x.c % 4) →
      let q := arr (x.c % 4)
      let flag := fun (b : Bool) => if b then 1 else 0
      ∃ t, exec (.mstat x) s = .next t ∧ t = { s with mccs := t.mccs, arrs := t.arrs } ∧
        (∀ j, j ≠ k → t.mcc j = s.mcc j) ∧ (∀ j, j ≠ k / 4 * 16 + 4 * (k % 4) + x.c % 4 → t.arr j = s.arr j) ∧
        t.mcc k = { m with s := (t.mcc k).s, pc := m.npc, xfer := none } ∧
        (∀ n, (t.mcc k).rdS n = if n = x.d ∧ n ≠ 0 then BitVec.ofNat 64 (m.arrivals.length * 2 ^ 32 +
          q.compQ.length * 2 ^ 24 + q.loadQ.length * 2 ^ 16 + q.active.tag * 2 ^ 8 + flag q.inexact * 16 +
          flag q.underflow * 8 + flag q.overflow * 4 + flag q.invalid) else m.rdS n) ∧
        t.arr (k / 4 * 16 + 4 * (k % 4) + x.c % 4) = if bit x.c 2 then
          { q with invalid := false, overflow := false, underflow := false, inexact := false } else q))

/-- An array has an entry at the head of its compute queue that may run, with tokens for its work. -/
def Sys2Proof.Claims.runs (s : State) (core price : Nat) (e : MEntry) (prog : Nat) : Prop :=
  (∃ q, (s.arr core).compHead = some { seq := q, e := e, prog := prog }) ∧ (s.chargeArray core price).2 = true

/-- R285, R294, R296–R301, R305, R306: MCFG and MSCL take effect at the head of their queues. MLDS fills the shadow plane
from rows of bytes, transposed or not. MSWAP exchanges the planes. A row of MSTRM adds integer products modulo 2^32,
and in the other formats rounds four slices, into its 128 accumulators and no others; a row or an MCLR of which some
elements were done early does the rest. MCLR clears its rows. A MARRIVE is made once the entries before it in its masked
queues are done. An operand fault that a running entry meets clears the instance's planes, accumulators and queues; it
asks for the relaunch of a relaunchable instance below its limit, and otherwise halts the MCC and the warps for good. Rests
on choices of the model: log entries 47, 48. -/
def Obligations.MatrixWork : Prop :=
  (∀ (a : Arr) n w f rm p, ({ a with loadQ := [⟨n, .cfg w f rm, p⟩], compQ := [⟨n, .cfg w f rm, p⟩] } : Arr).settle =
    { a with loadQ := [], compQ := [], wfmt := w, afmt := f, rm := rm }) ∧
  (∀ (a : Arr) n x w p, ({ a with loadQ := [⟨n, .scl x w, p⟩], compQ := [⟨n, .scl x w, p⟩] } : Arr).settle =
    { a with loadQ := [], compQ := [], ascale := x, wscale := w }) ∧
  (∀ (s : State) core addr pitch tr ext seq prog,
    let a := s.arr core
    let k := arrMcc core
    let wd := matWidth a.wfmt
    let row := fun (q : Nat) => ofBytes (s.saBytes k (addr + q * pitch) (16 * wd))
    a.loadHead = some { seq := seq, e := .lds addr pitch tr false, prog := prog } →
    prog ≠ 0 ∨ (s.chargeArray core (mldsPrice a.wfmt false)).2 = true →
    ∃ t, exec (.mldsDone core ext) s = .next t ∧ (t.arr core).shadow.tag = a.wfmt ∧ (t.arr core).active = a.active ∧
      (t.arr core).loadQ.length < a.loadQ.length ∧
      ∀ q n, q < 128 → n < 128 → (t.arr core).shadow.w.get 0 (q * 128 + n) =
        if tr then bits (row n) (wd * q) wd else bits (row q) (wd * n) wd) ∧
  (∀ (s : State) core prog, Claims.runs s core 64 .swap prog →
    ∃ t, exec (.mswapDone core) s = .next t ∧ (t.arr core).active = (s.arr core).shadow ∧
      (t.arr core).shadow = (s.arr core).active ∧ (t.arr core).compQ.length < (s.arr core).compQ.length) ∧
  (∀ (s : State) core r rows feed pitch acc i,
    let a := s.arr core
    let k := arrMcc core
    let old := fun (n : Nat) => if acc then s.accAt core (r + i) n else 0
    let now := a.fed.getD (s.saBytes k (feed + i * pitch) (16 * matWidth a.afmt), s.saBytes k (a.ascale + 4 * i) 4)
    let bytes := ofBytes now.1
    let scales := now.2
    (∃ q, a.compHead = some { seq := q, e := .strm r rows feed pitch acc, prog := i }) →
    (a.fed = none → (s.chargeArray core (rowPrice a.afmt a.active.tag)).2 = true) → r + i < 8192 →
    ∃ t, exec (.mstrmRow core) s = .next t ∧
      (∀ n, n < 128 → bit a.part n = true → t.accAt core (r + i) n = s.accAt core (r + i) n) ∧
      (matInt a.afmt = true → matInt a.active.tag = true → ∀ n, n < 128 → bit a.part n = false →
        t.accAt core (r + i) n = old n +
        BitVec.ofInt 32 (((List.range 128).map (fun q => matInteger a.afmt (rowElem a.afmt bytes q) *
          matInteger a.active.tag (a.active.w.get 0 (q * 128 + n)))).sum)) ∧
      (matInt a.afmt = false ∨ matInt a.active.tag = false → ∀ n, n < 128 → bit a.part n = false →
        let term := fun (j q : Nat) =>
          (matVal a.afmt (rowElem a.afmt bytes q),
           if matScaled a.afmt then matScale a.afmt (scales.getD j 0).toNat else FVal.fin false 1 1,
           matVal a.active.tag (a.active.w.get 0 (q * 128 + n)),
           if matScaled a.active.tag then matScale a.active.tag (a.active.scales.get 0 (4 * n + j)).toNat
           else FVal.fin false 1 1)
        t.accAt core (r + i) n = BitVec.ofNat 32 (accFloat a.rm (old n) ((List.range 4).map (fun j =>
          (List.range 32).map (fun q => term j (32 * j + q))))).1) ∧
      (∀ c q n, q < 8192 → n < 128 → (c ≠ core ∨ q ≠ r + i) → t.accAt c q n = s.accAt c q n) ∧
      (t.arr core).fed = none ∧ (t.arr core).part = 0 ∧
      (i + 1 < rows → ∃ h, (t.arr core).compQ.head? = some { seq := h, e := .strm r rows feed pitch acc, prog := i + 1 }) ∧
      (rows ≤ i + 1 → (t.arr core).compQ.length < a.compQ.length)) ∧
  (∀ (s : State) core r rows prog,
    let a := s.arr core
    (∃ q, a.compHead = some { seq := q, e := .clr r rows, prog := prog }) →
    (a.fed = none → (s.chargeArray core (4 * rows)).2 = true) → r + rows ≤ 8192 →
    ∃ t, exec (.mclrDone core) s = .next t ∧ (t.arr core).compQ.length < a.compQ.length ∧
      (t.arr core).fed = none ∧ (t.arr core).part = 0 ∧
      ∀ c q n, q < 8192 → n < 128 →
        t.accAt c q n = if c = core ∧ r ≤ q ∧ q < r + rows ∧ bit a.part (128 * (q - r) + n) = false then 0
          else s.accAt c q n) ∧
  (∀ (s : State) k x rest, (s.mcc k).arrivals = x :: rest →
    (∀ i, i < 4 → (bit x.mask i = true → ∀ q ∈ (s.arr (k / 4 * 16 + 4 * (k % 4) + i)).compQ, x.seq < q.seq) ∧
      (bit x.mask (4 + i) = true → ∀ q ∈ (s.arr (k / 4 * 16 + 4 * (k % 4) + i)).loadQ, x.seq < q.seq)) →
    (s.block x.block).frozen = false → (s.block x.block).standing = true → (s.block x.block).imaged = false →
    (∀ c ∈ s.mccs.cells, c.2.inWait = none) →
    ∃ t, exec (.marriveMade k) s = .next t ∧ (t.mcc k).arrivals = rest ∧
      t.aword x.block x.off = (s.aword x.block x.off).increment x.n) ∧
  (∀ (s : State) core cause addr,
    let a := s.arr core
    let k := arrMcc core
    let b := s.member0 k
    let rl := (s.block b).rcd.rl
    let meets := (cause = 0x065 ∧ ((∃ q x p tr g n, a.loadHead = some { seq := q, e := .lds x p tr g, prog := n }) ∨
        ∃ q r m f p acc n, a.compHead = some { seq := q, e := .strm r m f p acc, prog := n })) ∨
      ∃ q x p tr n, a.loadHead = some { seq := q, e := .lds x p tr true, prog := n } ∧
        (s.planeBytes core x p (16 * matWidth a.wfmt) true []).1 = .bad cause addr
    meets →
    ∃ t, exec (.operandFault core cause addr) s = .next t ∧
      (∀ i, i < (s.mccBlocks k).length → ∀ c, c = k / 4 * 16 + 4 * (k % 4) + i →
        (t.arr c).active = {} ∧ (t.arr c).shadow = {} ∧ (t.arr c).loadQ = [] ∧ (t.arr c).compQ = [] ∧
        ∀ r n, r < 8192 → n < 128 → t.accAt c r n = 0) ∧
      (rl = false ∨ 2 ≤ (s.block b).relaunches →
        ((s.block b).gang = (s.mcc k).gang → (∀ n, (s.mcc k).gang = some n → (s.gang n).bay = k) →
          (s.mcc k).gang ≠ none → (t.mcc k).halted = true ∧ (t.mcc k).dead = true) ∧
        ∀ m ∈ s.instanceOf b, ∀ w ∈ (s.block m).warps, (s.warp w).live = true → (s.warp w).allExited = false →
          (t.warp w).halted = true ∧ (t.warp w).dead = true ∧
          ((s.warp w).halted = false → (t.warp w).cause = if rl then 0x0B0 else cause)) ∧
      (rl = true → (s.block b).relaunches < 2 → ∀ m ∈ s.instanceOf b,
        (t.block m).again = true ∧ (t.block m).killed = true ∧
        ∀ w ∈ (s.block m).warps, (s.warp w).live = true → (t.warp w).allExited = true))

/-- R303–R305, R307: ACCRD, ACCWR and ACCRDC wait for the earlier operations of their threads and while their MCC stops;
then they complete in a gang's block, on rows inside the store: what each reads or writes for its Active threads, and no
other accumulator. What a move has read or written early stands. A row outside raises 0x022, and a block of no gang 0x090,
also where no thread is Active. Rests on choices of the model: log entry 44. -/
def Obligations.AccumulatorMoves : Prop :=
  (∀ w s (x : R3) i, i ∈ [Instr.accrd x, .accwr x, .accrdc x] → s.issuer = .warp w → s.accWaits w x.g = true →
    exec i s = .next s) ∧
  ∀ w s (x : R3), s.accWaits w x.g = false →
    let part := (s.warp w).part
    let row := fun (i : Instr) => ((s.atIssue i w).rdS x.a).toNat
    let core := (s.block (s.warp w).block).core
    let inside := fun (i : Instr) => row i < 2 ^ 13 ∧ row i + 2 ^ (x.c % 4) ≤ 8192
    let gang := (s.block (s.warp w).block).gang ≠ none
    let seen := fun (i : Instr) (e : Nat) => (part.get none e).getD (s.accAt core (row i + e / 128) (e % 128))
    (Issues w (.accrd x) s → inside (.accrd x) → gang →
      let a := s.atIssue (.accrd x) w
      ∃ t, exec (.accrd x) s = .next t ∧ OnlyWarp w s t ∧ t.warp w = { a with v := (t.warp w).v, part := {} } ∧
        KeepsRegs (RegKind.span .v x.d (2 * 2 ^ (x.c % 4))) a (t.warp w) ∧
        ∀ i l, i < 2 * 2 ^ (x.c % 4) → l < 32 → (t.warp w).rdV (x.d + i) l = if bit (a.active x.g) l then
          seen (.accrd x) (64 * i + 2 * l + 1) ++ seen (.accrd x) (64 * i + 2 * l)
          else a.rdV (x.d + i) l) ∧
    (Issues w (.accwr x) s → inside (.accwr x) → gang →
      let a := s.atIssue (.accwr x) w
      ∃ t, exec (.accwr x) s = .next t ∧ t = { s with warps := t.warps, acc := t.acc } ∧
        t.warp w = { a with part := {} } ∧
        (∀ u, u ≠ w → t.warp u = s.warp u) ∧
        ∀ c q n, q < 8192 → n < 128 → t.accAt c q n =
          if c = core ∧ row (.accwr x) ≤ q ∧ q < row (.accwr x) + 2 ^ (x.c % 4) ∧
              bit (a.activeReal x.g) (n % 64 / 2) = true ∧ part.get none (128 * (q - row (.accwr x)) + n) = none then
            (a.rdV (x.d + 2 * (q - row (.accwr x)) + n / 64) (n % 64 / 2)).extractLsb' (32 * (n % 2)) 32
          else s.accAt c q n) ∧
    (Issues w (.accrdc x) s → inside (.accrdc x) → gang →
      (Instr.accrdc x).fieldsOk = true →
      let a := s.atIssue (.accrdc x) w
      let wd := cvtWidth (bits x.c 5 5)
      let nd := 64 / wd
      let out := fun (e : Nat) => accrdcElem x (seen (.accrdc x) e)
        ((a.rdS x.b).toNat % 2 ^ 32)
      (s.defers w = true ∨ ∀ e, e < 128 * 2 ^ (x.c % 4) →
        (out e).2.idz = false ∧ (out e).2.invalid = false ∧ (out e).2.dz = false ∧ (out e).2.overflow = false) →
      ∃ t, exec (.accrdc x) s = .next t ∧ OnlyWarp w s t ∧
        t.warp w = { a with v := (t.warp w).v, lanes := (t.warp w).lanes, part := {} } ∧
        KeepsRegs (RegKind.span .v x.d x.accrdcRegs) a (t.warp w) ∧
        (∀ e, e < 128 * 2 ^ (x.c % 4) → bit (a.active x.g) (e % (32 * nd) / nd) = true →
          subOf ((t.warp w).rdV (x.d + e / (32 * nd)) (e % (32 * nd) / nd)) wd (e % nd) = (out e).1 % 2 ^ wd) ∧
        (∀ n l, l < 32 → bit (a.active x.g) l = false → (t.warp w).rdV n l = a.rdV n l) ∧
        ∀ l, l < 32 → Raised true true (a.lane l).fflags ((t.warp w).lane l).fflags) ∧
    (∀ i, i ∈ [Instr.accrd x, .accwr x, .accrdc x] → Issues w i s →
      (¬ inside i → exec i s = .next ((s.issued i w).faultWarp w { cause := 0x022 })) ∧
      (inside i → ¬ gang → exec i s = .next ((s.issued i w).faultWarp w { cause := 0x090 })))

/-! ## Work (spec/13) -/

/-- Nothing of a warp is in flight, and none of its threads waits: what it issues performs at once. -/
def Sys2Proof.Claims.Unflown (w : Nat) (s : State) : Prop :=
  (∀ c ∈ s.ops.cells, c.2.st = .none ∨ c.2.warp ≠ w) ∧ (s.warp w).halted = false ∧ (s.warp w).yielded = .no ∧
    (s.block (s.warp w).block).st = .placed ∧ ∀ l, l < 32 → ((s.warp w).lane l).st.isParked = false

/-- The task unit's load of `n` bytes at an address finds them at their home, or in the RDC of its die, with nothing that
holds the home up. -/
def Sys2Proof.Claims.UnitReads (i : Instr) (w : Nat) (s : State) (va n : Nat) (bs : List Byte) : Prop :=
  ∃ pa nc ms s1, (s.issued i w).checkElem ((s.issued i w).ctx w) { read := true } va n n = (.ok (.home pa nc ms), s1) ∧
    s.homeHeld pa ms = false ∧
    let near := s.rdcLine ((s.block (s.warp w).block).core / 16) (pa / 128)
    bs = if nc = false ∧ ms = false ∧ near ≠ [] then bytesOf n (ofBytes ((near.drop (pa % 128)).take n))
      else Claims.homeBytes s ms n pa

/-- R272: the status word in s[d], and the predicate bits of the Active threads; other registers are as before. -/
def Sys2Proof.Claims.Answers (x : R3) (act aux code : Nat) (a b : Warp) : Prop :=
  b = { a with s := b.s, p := b.p, replays := b.replays } ∧ KeepsRegs [⟨.s, x.d⟩, ⟨.p, x.c % 16⟩] a b ∧
  (x.d ≠ 0 → b.rdS x.d = BitVec.ofNat 64 (aux * 2 ^ 8 + code)) ∧
  (x.c % 16 ≠ 0 → ∀ l, l < 32 → (b.rdP (x.c % 16)).getLsbD l =
    if bit act l then code == 0 else (a.rdP (x.c % 16)).getLsbD l)

/-- What an instruction of the task unit may change beside its warp: the loft, the bins, caches of memory and of
translations, the queues of slice cores, and the model's counters. No byte of memory, and no operation that stays in
flight. -/
def Sys2Proof.Claims.UnitFrame (w : Nat) (s t : State) : Prop :=
  (∀ u, u ≠ w → t.warp u = s.warp u) ∧ (∀ k, k ≠ s.nextOp → t.op k = s.op k) ∧
  t.mem = s.mem ∧ Claims.OnlyQueues s t ∧
  t = { Claims.homed s t with
    warps := t.warps, ops := t.ops, nextOp := t.nextOp, nextSeq := t.nextSeq, tlbs := t.tlbs
    entries := t.entries, nextGrid := t.nextGrid, bins := t.bins }

/-- R261, R272–R278: with nothing of the warp in flight LAUNCH and LAUNCHT take a free loft entry that holds the
record, its parameters replaced, and LAUNCHT's trigger with its first test; or they answer BAD_RECORD, CANCELLED or
LOFT_FULL and change nothing else. SPAWN appends its threads' records to the bin of its node in ascending lanes, or
answers NO_NODE, BAD_RECORD, CANCELLED or BIN_FULL. NODEQ reads the bin. CANCEL answers NO_JOB, or OK once every die
has passed its cancel point; otherwise the cancel begins and the warp waits. Rests on choices of the model: log entries
26, 31, 39, 50, 51. -/
def Obligations.TaskInstructions : Prop :=
  (∀ w s x (i : Instr) k trig,
    let a := s.atIssue i w
    let b := s.block a.block
    let die := b.core / 16
    let act := a.activeReal x.g
    let va := (a.rdS x.a).toNat
    Issues w i s → act ≠ 0 →
    (i = .launch x ∧ k = 0 ∧ trig = none) ∨ (i = .launcht x ∧ k = 2 ∧ ∃ tb off,
      (s.issued i w).placeSa w (a.rdS x.b).toNat 16 16 = .ok (.scratch tb off) ∧
      trig = some (tb, off, (a.rdS (x.b + 1)).toNat % 2 ^ 32)) →
    (∀ c s1, (s.issued i w).checkElem ((s.issued i w).ctx w) { read := true } va 128 128 = (.error c, s1) →
      exec i s = .next (s1.faultWarp w { cause := c, addr := va })) ∧
    (∀ bs, Claims.Unflown w s → Claims.UnitReads i w s va 128 bs →
      let code := if recordBad bs then 4 else if bit (s.job b.job).passed die then 2 else if s.loftFree die = 0 then 1 else 0
      ∃ t, exec i s = .next t ∧ Claims.UnitFrame w s t ∧ t.bins = s.bins ∧
        Claims.Answers x act (t.loftFree die) code a (t.warp w) ∧ (code ≠ 0 → t.entries = s.entries) ∧
        (code = 0 → t.loftFree die + 1 = s.loftFree die ∧ ∃ e, e / 4096 = die ∧ (s.entry e).live = false ∧
          (∀ f, f ≠ e → t.entry f = s.entry f) ∧
          t.entry e = { live := true, job := b.job, rcd := (t.entry e).rcd, grid := s.nextGrid, trigger := trig
                        hit := (match trig with
                          | some (tb, off, g) =>
                            if (s.aword tb off).err then some false
                            else if ((s.aword tb off).gen + 2 ^ 32 - g) % 2 ^ 32 < 2 ^ 31 then some true else none
                          | none => none)
                        publishers := [(b.core, w, act)], seq := (t.entry e).seq } ∧
          (t.entry e).rcd = { Launch.of bs with params := (t.entry e).rcd.params } ∧
          ∀ n, n < 6 → (t.entry e).rcd.params.getD n 0 =
            if n < x.launchN then a.rdS (x.b + k + n) else (Launch.of bs).params.getD n 0))) ∧
  (∀ w s x, Issues w (.spawn x) s →
    let a := s.atIssue (.spawn x) w
    let b := s.block a.block
    let die := b.core / 16
    let act := a.activeReal x.g
    let h := (a.rdS x.b).toNat
    let key := binKey die b.job b.rcd.graph h
    let bin := s.bin key
    act ≠ 0 →
    (64 ≤ h → exec (.spawn x) s = .next ((s.issued (.spawn x) w).faultWarp w { cause := 0x022 })) ∧
    (h < 64 → b.rcd.nodes ≤ h ∨ b.rcd.graph = 0 → ∃ t, exec (.spawn x) s = .next t ∧ OnlyWarp w s t ∧
      Claims.Answers x act 0 5 a (t.warp w)) ∧
    (h < 64 → h < b.rcd.nodes → b.rcd.graph ≠ 0 →
      (bin.live = false → ∀ bs, Claims.Unflown w s →
        Claims.UnitReads (.spawn x) w s (wrap64 ((b.rcd.graph + 64 * h : Nat) : Int)) 64 bs →
        descBad bs b.rcd.graph b.rcd.nodes die = true →
        ∃ t, exec (.spawn x) s = .next t ∧ Claims.UnitFrame w s t ∧ t.entries = s.entries ∧ t.bins = s.bins ∧
          Claims.Answers x act 0 4 a (t.warp w)) ∧
      (bin.live = false → ∀ c s1, (s.issued (.spawn x) w).checkElem ((s.issued (.spawn x) w).ctx w) { read := true }
          (wrap64 ((b.rcd.graph + 64 * h : Nat) : Int)) 64 64 = (.error c, s1) →
        ∃ t, exec (.spawn x) s = .next t ∧ Claims.UnitFrame w s t ∧ t.entries = s.entries ∧ t.bins = s.bins ∧
          Claims.Answers x act 0 4 a (t.warp w)) ∧
      (bin.live = true → a.vb ≤ x.a + bin.rsz - 1 →
        exec (.spawn x) s = .next ((s.issued (.spawn x) w).faultWarp w { cause := 0x022 })) ∧
      (bin.live = false → ∀ bs, Claims.Unflown w s →
        Claims.UnitReads (.spawn x) w s (wrap64 ((b.rcd.graph + 64 * h : Nat) : Int)) 64 bs →
        descBad bs b.rcd.graph b.rcd.nodes die = false →
        a.vb ≤ x.a + (NodeDesc.of bs b.rcd.graph b.rcd.nodes die).rsz - 1 →
        ∃ t, exec (.spawn x) s = .next t ∧ (t.warp w).halted = true ∧ (t.warp w).cause = 0x022 ∧ t.bins = s.bins ∧
          t.entries = s.entries) ∧
      (∀ d, (bin.live = true ∧ d = bin) ∨ (bin.live = false ∧ Claims.Unflown w s ∧ ∃ bs,
          Claims.UnitReads (.spawn x) w s (wrap64 ((b.rcd.graph + 64 * h : Nat) : Int)) 64 bs ∧
          descBad bs b.rcd.graph b.rcd.nodes die = false ∧
          d = (let n := NodeDesc.of bs b.rcd.graph b.rcd.nodes die
               { live := true, die := die, job := b.job, node := h, cap := n.cap, rsz := n.rsz, count := n.count
                 timer := n.timer, rcd := n.rcd })) →
        x.a + d.rsz - 1 < a.vb →
        let room := d.cap - d.records.length
        let n := (maskList act 32).length
        let full := bin.live = false ∧ 2 ^ 22 < s.binBytes die + d.cap * d.rsz * 8
        let code := if bit (s.job b.job).passed die then 2 else if full ∨ room < n then 3 else 0
        ∃ t, exec (.spawn x) s = .next t ∧ Claims.UnitFrame w s t ∧ t.entries = s.entries ∧
          Claims.Answers x act (if code = 0 then room - n else if code = 3 ∧ full then 0 else room) code a (t.warp w) ∧
          (∀ k, k ≠ key → t.bin k = s.bin k) ∧ (code ≠ 0 → t.bin key = bin ∨ t.bin key = d) ∧
          (code = 0 → t.bin key = { d with records := (t.bin key).records } ∧
            ((t.bin key).records.take d.records.length) = d.records ∧
            ((t.bin key).records.drop d.records.length).map (·.bytes) =
              (maskList act 32).map (fun l => (List.range d.rsz).flatMap (fun r => bytesOf 8 (a.rdV (x.a + r) l).toNat)))))) ∧
  (∀ w s x, Issues w (.nodeq x) s →
    let a := s.atIssue (.nodeq x) w
    let b := s.block a.block
    let die := b.core / 16
    let h := (a.rdS x.a).toNat
    let bin := s.bin (binKey die b.job b.rcd.graph h)
    let reads := fun (cap : Nat) => ∃ t, exec (.nodeq x) s = .next t ∧ Claims.UnitFrame w s t ∧ t.bins = s.bins ∧
      t.entries = s.entries ∧ t.warp w = { a with s := (t.warp w).s, replays := (t.warp w).replays } ∧
      KeepsRegs [⟨.s, x.d⟩] a (t.warp w) ∧ (x.d ≠ 0 → (t.warp w).rdS x.d = BitVec.ofNat 64 (
        (s.entries.cells.filter (fun c => c.2.live && c.1 / 4096 == die && c.2.job == b.job &&
          c.2.rcd.node == some h && c.2.rcd.graph == b.rcd.graph)).length % 2 ^ 12 * 2 ^ 48 + (cap - bin.records.length) % 2 ^ 24 * 2 ^ 24 +
          bin.records.length % 2 ^ 24))
    a.active x.g ≠ 0 →
    (64 ≤ h ∨ b.rcd.nodes ≤ h → ∃ t, exec (.nodeq x) s = .next t ∧ OnlyWarp w s t ∧
      t.warp w = { a with s := (t.warp w).s } ∧ KeepsRegs [⟨.s, x.d⟩] a (t.warp w) ∧
      (x.d ≠ 0 → (t.warp w).rdS x.d = BitVec.allOnes 64)) ∧
    (h < 64 → h < b.rcd.nodes → bin.live = true → reads bin.cap) ∧
    (h < 64 → h < b.rcd.nodes → bin.live = false → ∀ bs, Claims.Unflown w s →
      Claims.UnitReads (.nodeq x) w s (wrap64 ((b.rcd.graph + 64 * h : Nat) : Int)) 64 bs →
      reads (NodeDesc.of bs b.rcd.graph b.rcd.nodes die).cap) ∧
    (h < 64 → h < b.rcd.nodes → bin.live = false → ∀ c s1,
      (s.issued (.nodeq x) w).checkElem ((s.issued (.nodeq x) w).ctx w) { read := true }
        (wrap64 ((b.rcd.graph + 64 * h : Nat) : Int)) 64 64 = (.error c, s1) → ∃ cap, cap < 2 ^ 24 ∧ reads cap)) ∧
  (∀ w s x, Issues w (.cancel x) s →
    let a := s.atIssue (.cancel x) w
    let own := (s.block a.block).job
    let v := (a.rdS x.a).toNat
    let j := if v = 0 then own else v
    let act := a.activeReal x.g
    let none_ := (s.job j).live = false ∨ (s.job j).asid ≠ (s.job own).asid
    let done := fun (code : Nat) => ∃ t, exec (.cancel x) s = .next t ∧ OnlyWarp w s t ∧
      Claims.Answers x act 0 code a (t.warp w)
    act ≠ 0 →
    (2 ^ 16 ≤ v → exec (.cancel x) s = .next ((s.issued (.cancel x) w).faultWarp w { cause := 0x022 })) ∧
    (v < 2 ^ 16 → none_ → done 6) ∧
    (v < 2 ^ 16 → ¬ none_ → (s.job j).passed = allDies → done 0) ∧
    (v < 2 ^ 16 → ¬ none_ → (s.job j).passed ≠ allDies → ∃ t, exec (.cancel x) s = .next t ∧
      t.warp w = { a with blocking := .ops [s.nextOp] } ∧ (∀ u, u ≠ w → t.warp u = s.warp u) ∧
      t.job j = { s.job j with cancelled := true } ∧ (∀ k, k ≠ j → t.job k = s.job k) ∧
      (t.op s.nextOp).instr = some (.cancel x) ∧ (t.op s.nextOp).st = .flying ∧ (t.op s.nextOp).args = [j] ∧
      (∀ k, k ≠ s.nextOp → t.op k = s.op k) ∧ t.mem = s.mem ∧
      ∀ c, c ∈ t.entries.cells ↔ c ∈ s.entries.cells ∧ ¬ (c.2.live = true ∧ c.2.job = j ∧ 24 * 4096 ≤ c.1)))

/-- R264, R266: warp `n` of a block as it starts: its role's entry and budgets, s1–s6 from the record, every other register
zero, every thread live with its generator, no count and no latch. -/
def Sys2Proof.Claims.Begins (k : Nat) (b : BlockRec) (n : Nat) (a : Warp) : Prop :=
  let l := b.rcd
  let main := n < l.wl
  a.live = true ∧ a.block = k ∧ a.index = n ∧ a.mode = .normal ∧ a.halted = false ∧ a.latches = {} ∧ a.own = {} ∧
  a.hnd = {} ∧ a.storer = !decide main ∧ a.vb = ((if main then l.vl else l.vs) + 1) * 32 ∧
  a.sb = ((if main then l.sl else l.ss) + 1) * 16 ∧ a.slot = (b.base + n) % 4 ∧ a.resumePc = l.rentry ∧
  (∀ r q, a.rdV r q = 0) ∧ (∀ r, a.rdS r = if 1 ≤ r ∧ r ≤ 6 then l.params.getD (r - 1) 0 else 0) ∧
  (∀ r, r ≠ 0 → a.rdP r = 0 ∧ a.rdM r = 0) ∧
  ∀ q, q < 32 → (a.lane q).st = .live ∧ (a.lane q).pc = (if main then l.entry else l.sentry) ∧
    (a.lane q).yielded = false ∧ (a.lane q).fflags = 0 ∧
    (a.lane q).rng = startRng l.seed (b.b * (l.wl + l.ws) + n) q

/-- R263, R266, R422: a new block stands on a core at a place of its die's pool, with its warps; no other block or warp
differs, and of memory only its clear status record. -/
def Sys2Proof.Claims.Placed (s t : State) (k : Nat) (core base off : Nat) (b : BlockRec) : Prop :=
  let n := b.rcd.wl + b.rcd.ws
  let p := s.savePools.get {} (core / 16)
  let x := t.block k
  x = { b with
    st := .placed, core := core, base := base, alloc := 4096 * b.rcd.scr, resSlot := x.resSlot, handle := x.handle
    warps := (List.range n).map (fun w => s.nextWarp + w), savePa := p.pbase + off, saveVa := p.vbase + off
    scratch := x.scratch, tags := {} } ∧
  (∀ i, x.scratch.read i = b.rcd.records.getD i 0) ∧
  (∀ w, w < n → Claims.Begins k x w (t.warp (s.nextWarp + w))) ∧
  (∀ w, w < s.nextWarp ∨ s.nextWarp + n ≤ w → t.warp w = s.warp w) ∧
  ∀ a, t.mem.read a = if p.pbase + off ≤ a ∧ a < p.pbase + off + 64 then 0 else s.mem.read a

/-- No thread and no matrix control core waits for a word or a tag of a block. -/
def Sys2Proof.Claims.Unwatched (s : State) (b : Nat) : Prop :=
  (∀ c ∈ s.warps.cells, ∀ l, l < 32 → ∀ off, (c.2.lane l).wait.place ≠ .scratch b off) ∧
  ∀ c ∈ s.mccs.cells, ∀ x, c.2.inWait = some x → x.block ≠ b

/-- R10, R61, R81, R261–R263, R266–R270, R274, R277, R278, R281: a bind record is written with its reserved bits zero;
bind records are served by rank; a block goes to the lowest core that has room, and an instance to a bay; an instance
starts once it is placed; a bin forms a node block by count or by timer; a trigger fires or is dropped; a job's cancel
point drops its records and entries on the die and delivers CANCEL; a block retires when its warps have exited, from its
cluster as if by CLEAVE, an instance with its MCC; a relaunch places a block or an instance anew with its count raised, on
cores that its dies and bind records permit, unless a cancel came. Rests on choices of the model: log entries 26, 27, 30,
83, 112. -/
def Obligations.TaskEvents : Prop :=
  (∀ (s : State) die i rcd, die < 24 → i < 64 → ∃ t, exec (.bindRecordWrite die i rcd) s = .next t ∧
    t = { s with binds := t.binds } ∧ (∀ k, k ≠ die * 64 + i → t.binds.get 0 k = s.binds.get 0 k) ∧
    ∀ n, n < 64 → (t.binds.get 0 (die * 64 + i)).getLsbD n = (if 1 ≤ n ∧ n < 20 then false else bit rcd n)) ∧
  (∀ (s : State) die, (s.bindsOf die).Pairwise (fun x y => bits y.toNat 20 3 ≤ bits x.toNat 20 3) ∧
    ∀ x, x ∈ s.bindsOf die ↔ bit x.toNat 0 = true ∧ ∃ i, i < 64 ∧ s.binds.get 0 (die * 64 + i) = x) ∧
  (∀ (s : State) core (l : Launch) base, s.roomOn core l = some base →
    let on := (s.onCore core).map (·.2)
    s.mapped core = true ∧ on.length < 32 ∧ 4096 * l.scr + (on.map (·.alloc)).sum ≤ 2 ^ 20 ∧ base < 4 ∧
    ∀ q, q < 4 → (l.slotLoad base q).1 + (on.map (fun b => (b.rcd.slotLoad b.base q).1)).sum ≤ 8 ∧
      (l.slotLoad base q).2 + (on.map (fun b => (b.rcd.slotLoad b.base q).2)).sum ≤ 1024) ∧
  (∀ (s : State) die (x : BitVec 64) before after c base off,
    let k := bits x.toNat 47 5 * 4096 + bits x.toNat 52 12
    let e := s.entry k
    let maxb := bits x.toNat 23 8
    let here := (s.blocks.cells.filter (fun c => c.2.st == .placed && c.2.core / 16 == die && c.2.grid == e.grid)).length
    s.bindsOf die = before ++ x :: after → (∀ y ∈ before, s.serveBind die y = none) →
    e.live = true → e.trigger = none → e.nextB < e.rcd.grid → bit e.rcd.dies die = true → e.rcd.mentry = 0 →
    (maxb = 0 ∨ here + 1 ≤ maxb) → c < 16 → bit (bits x.toNat 31 16) c = true →
    s.roomOn (die * 16 + c) e.rcd = some base →
    (∀ d, d < c → bit (bits x.toNat 31 16) d = true → s.roomOn (die * 16 + d) e.rcd = none) →
    s.areaFor die (saveAreaSize (e.rcd.wl + e.rcd.ws)) = some off →
    ∃ t, exec (.dispatch die) s = .next t ∧ Claims.Placed s t s.nextBlock (die * 16 + c) base off
        { job := e.job, grid := e.grid, b := e.nextB, rcd := e.rcd, entry := k, publish := e.publish
          publishers := e.publishers } ∧
      (∀ b, b ≠ s.nextBlock → t.block b = s.block b) ∧ (∀ f, f ≠ k → t.entry f = s.entry f) ∧
      t.entry k = (if e.nextB + 1 < e.rcd.grid then { e with nextB := e.nextB + 1 } else {}) ∧
      t.job e.job = { s.job e.job with placed := true }) ∧
  (∀ (s t : State) die bay index (e : BlockRec), s.putInstance die bay index e = some t → e.rcd.mentry ≠ 0 →
    let g := t.gang s.nextGang
    let m := t.mcc (die * 4 + bay)
    g.live = true ∧ g.bay = die * 4 + bay ∧ g.started = false ∧ g.index = index ∧
    g.blocks = (List.range (e.rcd.gw + 1)).map (fun i => s.nextBlock + i) ∧
    m.gang = some s.nextGang ∧ m.pc = e.rcd.mentry ∧ m.exited = false ∧ m.halted = false ∧
    (∀ r, m.rdS r = if 1 ≤ r ∧ r ≤ 6 then e.rcd.params.getD (r - 1) 0 else if r = 7 then BitVec.ofNat 64 index else 0) ∧
    ∀ i, i < e.rcd.gw + 1 →
      (t.block (s.nextBlock + i)).st = .placed ∧ (t.block (s.nextBlock + i)).gang = some s.nextGang ∧
      (t.block (s.nextBlock + i)).core = die * 16 + 4 * bay + i ∧
      (t.block (s.nextBlock + i)).b = index * (e.rcd.gw + 1) + i ∧ (t.block (s.nextBlock + i)).member = i ∧
      t.arr (die * 16 + 4 * bay + i) = {} ∧ ∀ r n, r < 8192 → n < 128 → t.accAt (die * 16 + 4 * bay + i) r n = 0) ∧
  (∀ (s : State) g, (s.gang g).live = true → (∀ b ∈ (s.gang g).blocks, (s.block b).st = .placed) →
    ∃ t, exec (.gangStart g) s = .next t ∧ t = { s with gangs := t.gangs } ∧
      t.gang g = { s.gang g with started := true } ∧ ∀ f, f ≠ g → t.gang f = s.gang f) ∧
  (∀ (s : State) k,
    let b := s.bin k
    let n := Nat.min b.count b.records.length
    (b.live = true → 0 < n → b.count ≤ b.records.length ∨ b.due = true → s.loftFree b.die ≠ 0 →
      ∃ t e, exec (.nodeBlockFormation k) s = .next t ∧ t.bin k = { b with records := b.records.drop n, due := false } ∧
        (∀ f, f ≠ k → t.bin f = s.bin f) ∧ e / 4096 = b.die ∧ (s.entry e).live = false ∧
        (∀ f, f ≠ e → t.entry f = s.entry f) ∧ (t.entry e).live = true ∧ (t.entry e).job = b.job ∧
        (t.entry e).trigger = none ∧
        (t.entry e).rcd = { b.rcd with
          node := some b.node, records := (b.records.take n).flatMap (·.bytes)
          params := [BitVec.ofNat 64 n, BitVec.ofNat 64 b.node, 0, 0, 0, 0] }) ∧
    (b.records.length < b.count → b.due = false → exec (.nodeBlockFormation k) s = .next s)) ∧
  (∀ (s : State) k r rest, (s.bin k).live = true → (s.bin k).records = r :: rest → (s.bin k).timer ≠ 0 →
    (r.since + (s.bin k).timer ≤ s.time → ∃ t, exec (.coalesceTimer k) s = .next t ∧ t = { s with bins := t.bins } ∧
      t.bin k = { s.bin k with due := true } ∧ ∀ f, f ≠ k → t.bin f = s.bin f) ∧
    (s.time < r.since + (s.bin k).timer → exec (.coalesceTimer k) s = .next s)) ∧
  (∀ (s : State) k g, (s.entry k).live = true → (s.entry k).trigger = some g →
    ((s.entry k).hit = some true → ∃ t, exec (.triggerFire k) s = .next t ∧ t = { s with entries := t.entries } ∧
      t.entry k = { s.entry k with trigger := none, hit := none } ∧ ∀ f, f ≠ k → t.entry f = s.entry f) ∧
    ((s.entry k).hit = some false →
      (∃ c ∈ s.blocks.cells, c.2.job = (s.entry k).job ∧ c.2.st = .placed) →
      ∃ t, exec (.triggerFire k) s = .next t ∧ t = { s with entries := t.entries, jobs := t.jobs } ∧ t.entry k = {} ∧
        (∀ f, f ≠ k → t.entry f = s.entry f) ∧
        t.job (s.entry k).job = { s.job (s.entry k).job with dropped := (s.job (s.entry k).job).dropped + 1 }) ∧
    ((s.entry k).hit = none → exec (.triggerFire k) s = .next s)) ∧
  (∀ (s : State) die j, (s.job j).live = true → (s.job j).cancelled = true → bit (s.job j).passed die = false → die < 24 →
    (∀ c ∈ s.blocks.cells, c.2.job = j → c.2.core / 16 = die → c.2.st = .placed) →
    ((∃ d, d < 24 ∧ d ≠ die ∧ bit (s.job j).passed d = false) →
      ∃ t, exec (.cancelPoint die j) s = .next t ∧
        t.job j = { s.job j with passed := putBit (s.job j).passed die true } ∧
        (∀ c ∈ t.bins.cells, c.2.job = j → c.2.die = die → c.2.records = []) ∧
        (∀ c ∈ t.entries.cells, c.2.live = true → c.2.job = j → c.1 / 4096 ≠ die) ∧ t.mem = s.mem ∧
        ∀ c ∈ s.blocks.cells, c.2.job = j → c.2.core / 16 = die → s.block c.1 = c.2 → c.2.preempt = none →
          c.2.again = false → (t.block c.1).preempt = some .cancel ∧
          ∀ w ∈ c.2.warps, (s.warp w).live = true → (s.warp w).allExited = false → (s.warp w).halted = false →
            (s.warp w).block = c.1 → c.2.rcd.pentry ≠ 0 →
            (t.warp w).preempt = some .cancel ∧ (t.warp w).deadline = s.time + 100000) ∧
    (∀ k x w, (∀ d, d < 24 → d ≠ die → bit (s.job j).passed d = true) → (s.job j).passed < 2 ^ 24 →
      (∀ c ∈ s.blocks.cells, c.2.job = j → c.2.core / 16 ≠ die) → s.ops.wf {} = true →
      (s.op k).st = .flying → (s.op k).instr = some (.cancel x) → (s.op k).args = [j] → (s.op k).warp = w →
      (s.op k).orphan = false → (∀ f, f ≠ k → s.op f = {}) → (∀ l, l < 32 → ((s.warp w).lane l).st.isParked = false) →
      (s.warp w).halted = false →
      ∃ t, exec (.cancelPoint die j) s = .next t ∧ t.op k = {} ∧
        Claims.Answers x (s.op k).lanes 0 0 (s.warp w) (t.warp w))) ∧
  (∀ (s : State) k,
    let b := s.block k
    let j := s.job b.job
    b.st = .placed → b.again = false → b.gang = none → b.cluster = none →
    (∀ w ∈ b.warps, (s.warp w).live = false ∨ (s.warp w).allExited = true) →
    bits (ofBytes (s.mem.readBytes 8 b.savePa)) 32 32 = 0 → j.live = true → j.cancelled = false →
    (∀ c ∈ s.entries.cells, ∀ t, c.2.trigger = some t → t.1 ≠ k) → Claims.Unwatched s k →
    ∃ t, exec (.blockRetire k) s = .next t ∧ t.block k = {} ∧ (∀ f, f ≠ k → t.block f = s.block f) ∧
      (∀ w ∈ b.warps, t.warp w = {}) ∧ (∀ w, w ∉ b.warps → t.warp w = s.warp w) ∧
      ((∃ c ∈ s.blocks.cells, c.1 ≠ k ∧ c.2.job = b.job ∧ c.2.st = .placed) →
        t.job b.job = { j with retired := j.retired + 1 } ∧ t.completions = s.completions) ∧
      ((∀ c ∈ s.blocks.cells, c.1 ≠ k → c.2.job ≠ b.job) → (∀ c ∈ s.entries.cells, c.2.live = true → c.2.job ≠ b.job) →
        (∀ c ∈ s.bins.cells, c.2.job = b.job → c.2.records = []) →
        (∀ c ∈ s.ops.cells, c.2.job = b.job → c.2.st = .none ∨ c.2.i.asksUnit = false) →
        t.job b.job = {} ∧ t.completions = s.completions ++ [{
          port := j.port, w0 := 1 + 0xFF * 2 ^ 8 + b.job * 2 ^ 16 + Nat.min (j.retired + 1) (2 ^ 32 - 1) * 2 ^ 32
          w1 := j.dropped + j.reports * 2 ^ 16, w2 := s.time, w3 := 0 }])) ∧
  (∀ (s : State) k,
    let b := s.block k
    b.st = .placed → b.again = false → (∀ w ∈ b.warps, (s.warp w).live = false ∨ (s.warp w).allExited = true) →
    (∀ c, b.gang = none → b.cluster = some c →
      (b.leaving = false → exec (.blockRetire k) s = .next (s.revoke k)) ∧
      (b.leaving = true → s.cleaveFree k s.nextSeq = false → exec (.blockRetire k) s = .next s) ∧
      (b.leaving = true → s.cleaveFree k s.nextSeq = true →
        ∃ t, exec (.blockRetire k) s = .next t ∧ t.block k = {} ∧ ∀ w ∈ b.warps, (t.warp w).live = false)) ∧
    (∀ g, b.gang = some g →
      (∀ m ∈ (s.gang g).blocks, ∀ w ∈ (s.block m).warps, (s.warp w).live = false ∨ (s.warp w).allExited = true) →
      (s.mccDone g = false → exec (.blockRetire k) s = .next s) ∧
      (s.mccDone g = true → ∃ t, exec (.blockRetire k) s = .next t ∧ t.gang g = {} ∧
        t.mcc (s.gang g).bay = { failed := (s.mcc (s.gang g).bay).failed } ∧
        ∀ m ∈ (s.gang g).blocks, t.block m = {}))) ∧
  (∀ (s : State) (x : BlockRec) (dies : List Nat) (c : Nat),
    let names := fun (d : Nat) (r : BitVec 64) => r ∈ s.bindsOf d ∧ bits r.toNat 47 5 * 4096 + bits r.toNat 52 12 = x.entry ∧
      ((s.entry x.entry).live = true → (s.entry x.entry).grid = x.grid)
    c ∈ s.permitted x dies ↔ ∃ d ∈ dies, ∃ i, i < 16 ∧ c = d * 16 + i ∧ bit x.rcd.dies d = true ∧
      ((∀ r, ¬ names d r) ∨ ∃ r, names d r ∧ bit (bits r.toNat 31 16) i = true)) ∧
  (∀ (s : State) k,
    let b := s.block k
    b.again = true → (∀ m ∈ s.instanceOf k, ∀ o ∈ s.ops.cells, o.2.block = m → o.2.st = .none) →
    (∀ g, b.gang = some g → s.bayBusy (s.gang g).bay = false) →
    ((∃ m ∈ s.instanceOf k, (s.block m).cancelDue = true) → ∃ t, exec (.relaunch k) s = .next t ∧
      ∀ m ∈ s.instanceOf k, t.block m = {}) ∧
    ((∀ m ∈ s.instanceOf k, (s.block m).cancelDue = false) →
      (∀ before c after base off, b.gang = none → k < s.nextBlock →
        let s1 := (s.freeBlock k).draw
        s1.permitted b (List.range 24) = before ++ c :: after →
        (∀ d ∈ before, s1.roomOn d b.rcd = none ∨ s1.areaFor (d / 16) (saveAreaSize (b.rcd.wl + b.rcd.ws)) = none) →
        s1.roomOn c b.rcd = some base → s1.areaFor (c / 16) (saveAreaSize (b.rcd.wl + b.rcd.ws)) = some off →
        ∃ t, exec (.relaunch k) s = .next t ∧ t.block k = {} ∧ Claims.Placed s1 t s.nextBlock c base off
          { job := b.job, grid := b.grid, b := b.b, rcd := b.rcd, entry := b.entry, relaunches := b.relaunches + 1 }) ∧
      (∀ g before bay after u, b.gang = some g →
        let s1 := (((s.gang g).blocks.foldl State.freeBlock s).freeBay g).draw
        let anew : BlockRec :=
          { job := b.job, grid := b.grid, b := b.b, rcd := b.rcd, entry := b.entry, relaunches := b.relaunches + 1 }
        s1.permittedBays b (s.gang g).blocks.length (List.range 24) = before ++ bay :: after →
        (∀ d ∈ before, s1.putInstance (d / 4) (d % 4) (s.gang g).index anew = none) →
        s1.putInstance (bay / 4) (bay % 4) (s.gang g).index anew = some u → exec (.relaunch k) s = .next u)))

/-! ## Pre-emption and the logical core map (spec/22) -/

/-- The hardware finds nothing that keeps a warp from its next head. -/
def Sys2Proof.Claims.AtHead (s : State) (w : Nat) : Prop :=
  s.atHead w = true ∧ ∀ l, (s.warp w).blocking = .ops l → ∀ k ∈ l, (s.op k).st = .none

/-- Address of the register area of a warp (R422). -/
def Sys2Proof.Claims.areaOf (b : BlockRec) (a : Warp) : Nat :=
  b.savePa + 0x1000 + 0x4000 * b.warps.length + 0x41000 * a.index

/-- What a delivery makes of a block that stands on a core and is not under relaunch (R424, R428): the first is taken, a
second is held. -/
def Sys2Proof.Claims.delivered (b : BlockRec) (c : PreCause) : BlockRec :=
  if b.st = .placed ∧ b.again = false then
    (match b.preempt, b.held with
     | none, _ => { b with preempt := some c }
     | some _, none => { b with held := some c }
     | some _, some _ => b)
  else b

/-- The way back of a warp (R429) from memory `s` into `t`: what was saved by force gets its registers and its frame; what
had halted gets its registers, and stays halted; what yielded gets registers of zero, and its frame or its resume
routine. -/
def Sys2Proof.Claims.Returns (s : State) (b : BlockRec) (a x : Warp) (t : State) : Prop :=
  let fp := b.savePa + 0x1000 + 0x4000 * a.index
  let area := Claims.areaOf b a
  let word := fun (at_ : Nat) => ofBytes (s.mem.readBytes 8 at_)
  x.yielded = .no ∧ x.residence = s.time ∧ x.passed = 0 ∧
  (a.yielded = .forced ∨ a.yielded = .halted → ∀ n l, n < a.vb → l < 32 → (x.rdV n l).toNat = word (area + 256 * n + 8 * l)) ∧
  (a.yielded = .forced ∨ a.yielded = .halted → ∀ n, 16 ≤ n → n < a.sb → (x.rdS n).toNat = word (area + 0x40000 + 8 * n)) ∧
  (a.yielded = .halted → x.halted = a.halted ∧ x.preempt = none) ∧
  (a.yielded = .forced ∨ (a.yielded = .yielded ∧ a.resumePc = 0) → x.mode = .normal ∧ x.halted = false ∧ x.preempt = none ∧
    (∀ n, 1 ≤ n → n < 16 → (x.rdS n).toNat = word (fp + 0x380 + 8 * (n - 1))) ∧
    ∀ l, l < 32 → (x.lane l).pc = word (fp + 0x040 + 8 * l)) ∧
  (a.yielded = .yielded → (∀ n l, x.rdV n l = 0) ∧ (∀ n, 16 ≤ n → x.rdS n = 0) ∧
    (a.resumePc ≠ 0 → x.mode = .resume ∧ x.hnd = {} ∧ (∀ n, x.rdS n = 0) ∧
      (∀ l, l < 32 → (x.lane l).st = .live ∧ (x.lane l).pc = a.resumePc) ∧
      bits (ofBytes (t.mem.readBytes 8 fp)) 60 3 = 4))

/-- The warps of a block, each with a frame and a register area of its own in the block's save area. -/
def Sys2Proof.Claims.Areas (s : State) (k : Nat) : Prop :=
  let b := s.block k
  b.warps.Nodup ∧ b.warps.length ≤ 32 ∧
  (∀ w ∈ b.warps, (s.warp w).block = k ∧ (s.warp w).index < b.warps.length ∧ (s.warp w).vb ≤ 1024 ∧ (s.warp w).sb ≤ 512) ∧
  ∀ w ∈ b.warps, ∀ u ∈ b.warps, (s.warp w).index = (s.warp u).index → w = u

/-- R306–R309, R413, R416, R424, R427–R433: a delivery reaches the warps of a block, or of its instance, with their
deadline, and a second one is held; a warp enters its handler at a head; a forced save writes registers and frame, or in a
handler the kind of its frame, and waits for a halt that is due; a block that has yielded leaves for its image, is removed,
or is moved, an instance with its MCC; it comes back from its image, or where it was moved to, its warps by their ways; a
resume routine has 100 µs; a logical core moves, without clean copies; a machine check halts its warp and reports twice; a
core is tested, or fails, and so may a bay. Rests on choices of the model: log entries 26, 27, 29, 84, 112, 113. -/
def Obligations.PreemptionEvents : Prop :=
  (∀ (s : State) k, exec (.preemptionDelivery k .cancel) s = .next s) ∧
  (∀ (s : State) k c, c ≠ .cancel →
    let all := if c = .migrate then [k] else s.instanceOf k
    let fresh := fun (m : Nat) => m ∈ all ∧ (s.block m).st = .placed ∧ (s.block m).again = false ∧ (s.block m).preempt = none
    all.Nodup → ∃ t, exec (.preemptionDelivery k c) s = .next t ∧
      t = { s with blocks := t.blocks, warps := t.warps, mccs := t.mccs, pantries := t.pantries } ∧
      (∀ m, t.block m = if m ∈ all then Claims.delivered (s.block m) c else s.block m) ∧
      (∀ w, ((∃ m, fresh m ∧ w ∈ (s.block m).warps) ∧ (s.warp w).live = true ∧ (s.warp w).allExited = false →
          t.warp w = { s.warp w with preempt := some c, deadline := s.time + 100000 }) ∧
        ((∀ m, fresh m → w ∉ (s.block m).warps) ∨ (s.warp w).live = false ∨ (s.warp w).allExited = true →
          t.warp w = s.warp w)) ∧
      ∀ m g, fresh m → (s.block m).gang = some g → (t.mcc (s.gang g).bay).stopped = true ∧
        (t.mcc (s.gang g).bay).inWait = none ∧
        ((s.mcc (s.gang g).bay).inWait ≠ none → (t.mcc (s.gang g).bay).waited = true)) ∧
  (∀ (s : State) w c, (s.warp w).preempt = some c → (s.warp w).live = true → (s.warp w).mode = .normal →
    (s.warp w).halted = false → (s.warp w).yielded = .no → (s.warp w).haltDue = none →
    (s.block (s.warp w).block).rcd.pentry ≠ 0 → Claims.AtHead s w →
    ∃ t, exec (.handlerEntry w) s = .next t ∧ t = s.enterHandler w (match c with
      | .preempt => 1
      | .migrate => 2
      | .cancel => 3
      | .scantest => 4)) ∧
  (∀ (s : State) w c,
    let a := s.warp w
    let b := s.block a.block
    let fp := b.savePa + 0x1000 + 0x4000 * a.index
    let saved := fun (t : State) =>
      (∀ u, u ≠ w → t.warp u = s.warp u) ∧ KeepsRegs [] a (t.warp w) ∧
      t = { Claims.homed s t with warps := t.warps } ∧ Claims.OnlyQueues s t ∧
      (∀ n l, n < a.vb → l < 32 →
        ofBytes (t.mem.readBytes 8 (Claims.areaOf b a + 256 * n + 8 * l)) = (a.rdV n l).toNat) ∧
      ∀ n, n < a.sb → ofBytes (t.mem.readBytes 8 (Claims.areaOf b a + 0x40000 + 8 * n)) = (a.rdS n).toNat
    a.preempt = some c → a.live = true → a.yielded = .no →
    (a.haltDue ≠ none → exec (.forcedSave w) s = .next s) ∧
    (a.haltDue = none → s.handlerDone w = true → a.index < b.warps.length → a.vb ≤ 1024 → a.sb ≤ 512 →
      b.warps.length ≤ 32 →
      (a.mode = .normal → a.halted = false → a.deadline ≤ s.time ∨ b.rcd.pentry = 0 → Claims.AtHead s w →
        s.scalarsBound w = true →
        ∃ t, exec (.forcedSave w) s = .next t ∧ saved t ∧ (t.warp w).yielded = .forced ∧ (t.warp w).halted = false ∧
          ofBytes (t.mem.readBytes 8 fp) = (3 * 2 ^ 60 + a.index * 2 ^ 32 + c.code) % 2 ^ 64 ∧
          ∀ l, l < 32 → ofBytes (t.mem.readBytes 8 (fp + 0x040 + 8 * l)) = (a.lane (a.leader l)).pc % 2 ^ 64) ∧
      (a.mode = .normal → a.halted = true →
        ∃ t, exec (.forcedSave w) s = .next t ∧ saved t ∧ (t.warp w).yielded = .halted ∧
          (t.warp w).halted = true ∧ (t.warp w).word0 = a.word0) ∧
      (a.mode = .handler → a.deadline ≤ s.time → a.halted = true ∨ (Claims.AtHead s w ∧ s.scalarsBound w = true) →
        ∃ t, exec (.forcedSave w) s = .next t ∧ saved t ∧ (t.warp w).yielded = .forced ∧ (t.warp w).halted = false ∧
          ofBytes (t.mem.readBytes 8 fp) = (2 ^ 63 + 3 * 2 ^ 60 + a.index * 2 ^ 32 + c.code) % 2 ^ 64))) ∧
  (∀ (s : State) k c,
    let b := s.block k
    b.st = .placed → b.preempt = some c → b.frozen = false → b.moved = false → s.mccStopped k = true →
    (∀ w ∈ b.warps, (s.warp w).live = false ∨ (s.warp w).allExited = true ∨ (s.warp w).yielded ≠ .no) →
    ((∀ m ∈ s.instanceOf k, s.allYielded m = true) → b.cancelDue = true ∨ c = .cancel →
      ∃ t, exec (.blockLeave k) s = .next t ∧ ∀ m ∈ s.instanceOf k, t.block m = {}) ∧
    (b.gang = none → b.cancelDue = false → c = .preempt → b.alloc ≤ 2 ^ 20 → ∃ t, exec (.blockLeave k) s = .next t ∧
      t.block k = { b with st := .waiting, scratch := {}, tags := {} } ∧ (∀ f, f ≠ k → t.block f = s.block f) ∧
      t.warps = s.warps ∧ (∀ i, i < b.alloc → t.mem.read (b.imagePa + i) = b.scratch.read i) ∧
      ∀ i, i / 8 < b.alloc / 64 →
        bit (t.mem.read (b.imagePa + 0x100000 + i / 8)).toNat (i % 8) = b.tags.get false i) ∧
    (∀ g, b.gang = some g → b.cancelDue = false → c = .preempt → (s.gang g).blocks.Nodup →
      (∀ m ∈ (s.gang g).blocks, s.allYielded m = true ∧ (s.block m).preempt ≠ none) →
      ∃ t, exec (.blockLeave k) s = .next t ∧ t.warps = s.warps ∧ (t.gang g).blocks = (s.gang g).blocks ∧
        t.mcc (s.gang g).bay = { failed := (s.mcc (s.gang g).bay).failed } ∧
        ∀ m ∈ (s.gang g).blocks, t.block m = { s.block m with st := .waiting, scratch := {}, tags := {} }) ∧
    (b.cancelDue = false → c = .migrate ∨ c = .scantest → ∃ t, exec (.blockLeave k) s = .next t ∧
      t.block k = { b with frozen := true } ∧ (∀ f, f ≠ k → t.block f = s.block f) ∧ t.warps = s.warps)) ∧
  (∀ (s : State) k w,
    let b := s.block k
    b.gang = none → b.held = none → b.cancelDue = false → Claims.Areas s k → w ∈ b.warps → (s.warp w).live = true →
    (s.warp w).allExited = false →
    (∀ before c after base, b.st = .waiting → b.killed = false →
      s.permitted b [b.core / 16] = before ++ c :: after → (∀ d ∈ before, s.roomOn d b.rcd = none) →
      s.roomOn c b.rcd = some base →
      ∃ t, exec (.blockReplace k) s = .next t ∧ (t.block k).st = .placed ∧ (t.block k).core = c ∧
        (t.block k).base = base ∧ (∀ i, i < b.alloc → (t.block k).scratch.read i = s.mem.read (b.imagePa + i)) ∧
        (∀ i, i < b.alloc / 8 → (t.block k).tags.get false i =
          bit (s.mem.read (b.imagePa + 0x100000 + i / 8)).toNat (i % 8)) ∧
        (∀ u, u ∉ b.warps → t.warp u = s.warp u) ∧ (t.warp w).slot = (base + (s.warp w).index) % 4 ∧
        Claims.Returns s b (s.warp w) (t.warp w) t) ∧
    (b.st = .placed → b.moved = true → ∃ t, exec (.blockReplace k) s = .next t ∧
      (t.block k).st = .placed ∧ (t.block k).core = b.core ∧ (t.block k).moved = false ∧
      (∀ u, u ∉ b.warps → t.warp u = s.warp u) ∧ Claims.Returns s b (s.warp w) (t.warp w) t)) ∧
  (∀ (s : State) k g m rest before bay after,
    let b := s.block k
    let x := s.block m
    let n := (s.gang g).blocks.length
    let core := fun (c i : Nat) => c / 4 * 16 + 4 * (c % 4) + i
    let word := fun (off : Nat) => ofBytes (s.mem.readBytes 8 (x.savePa + mccRecordOff x.warps.length + off))
    b.st = .waiting → b.killed = false → b.gang = some g → (s.gang g).blocks = m :: rest → (s.gang g).blocks.Nodup → n ≤ 4 →
    s.permittedBays x n [x.core / 16] = before ++ bay :: after →
    (∀ c ∈ before, ∃ i, i < n ∧ s.roomOn (core c i) x.rcd = none) → (∀ i, i < n → s.roomOn (core bay i) x.rcd ≠ none) →
    ∃ t, exec (.blockReplace k) s = .next t ∧ (t.gang g).bay = bay ∧ (t.mcc bay).gang = some g ∧
      (t.mcc bay).pc = word 0 ∧ (t.mcc bay).exited = bit (word 8) 0 ∧
      (∀ r, 1 ≤ r → r < 128 → ((t.mcc bay).rdS r).toNat = word (16 + 8 * r)) ∧
      ∀ i, i < n → ∀ y, (s.gang g).blocks[i]? = some y → (t.block y).st = .placed ∧ (t.block y).core = core bay i) ∧
  (∀ (s : State) w, (s.warp w).live = true → (s.warp w).mode = .resume → (s.warp w).halted = false →
    (s.warp w).haltDue = none →
    ((s.warp w).placedAt + 100000 ≤ s.time → ∃ t, exec (.resumeTimeout w) s = .next t ∧ OnlyWarp w s t ∧
      t.warp w = { s.warp w with haltDue := some { cause := 0x009 } }) ∧
    (s.time < (s.warp w).placedAt + 100000 → exec (.resumeTimeout w) s = .next s)) ∧
  (∀ (s : State) core p, s.mapped core = true → s.physFree (core / 16) p = true →
    ((∃ c ∈ s.onCore core, c.2.frozen = false) → exec (.migration core p) s = .next s) ∧
    ((∀ c ∈ s.onCore core, c.2.frozen = true) → ∃ t, exec (.migration core p) s = .next t ∧
      t = { s with
        coreMap := t.coreMap, phys := t.phys, acc := t.acc, lastBusy := t.lastBusy, blocks := t.blocks, l1 := t.l1
        larders := t.larders } ∧
      t.coreMap.get 0 core = 128 + p ∧ (∀ c, c ≠ core → t.coreMap.get 0 c = s.coreMap.get 0 c) ∧
      t.phys.get 0 (core / 16 * 17 + p) = 0 ∧
      t.phys.get 0 (s.physOf core) = (if ∃ c ∈ s.onCore core, c.2.preempt = some .scantest then 2 else 1) ∧
      (∀ r n, r < 8192 → n < 128 → t.accAt core r n = 0) ∧
      (∀ line, line < 2 ^ 45 → (t.l1Line core line).pinned = false → t.l1Line core line = {}) ∧
      ∀ c ∈ s.onCore core, (t.block c.1).frozen = false ∧ (t.block c.1).moved = true)) ∧
  (∀ (s : State) w part pc u,
    let a := s.warp w
    let b := s.block a.block
    a.live = true → a.halted = false → a.yielded = .no → b.st = .placed → a.groupPc = some (pc, u) →
    ∃ t c3, exec (.machineCheck w part) s = .next t ∧ (t.warp w).halted = true ∧ (t.warp w).cause = 0x0F0 ∧
      (t.warp w).reportPc = pc ∧ KeepsRegs [] a (t.warp w) ∧ (∀ u, u ≠ w → t.warp u = s.warp u) ∧ c3.w0 % 256 = 3 ∧
      t.completions = s.completions ++ [c3, {
        port := (s.job b.job).port
        w0 := 2 + b.core / 16 * 2 ^ 8 + b.job * 2 ^ 16 + (s.physOf b.core % 17 + part % 4 * 2 ^ 8) * 2 ^ 32
        w1 := (t.warp w).word0.toNat, w2 := pc, w3 := s.time }]) ∧
  (∀ (s : State) p, ∃ t, exec (.scanTest p) s = .next t ∧ t = { s with phys := t.phys } ∧
    (∀ q, q ≠ p → t.phys.get 0 q = s.phys.get 0 q) ∧ t.phys.get 0 p =
      (if s.phys.get 0 p = 1 then 2 else if s.phys.get 0 p = 2 then 1 else s.phys.get 0 p)) ∧
  (∀ (s : State) p, p < 24 * 17 →
    let die := p / 17
    let names := fun (c : Nat) => s.mapped (die * 16 + c) = true ∧ s.physOf (die * 16 + c) = p
    ((∀ c, c < 16 → ¬ names c) → ∃ t, exec (.coreFailure p) s = .next t ∧ t = { s with phys := t.phys } ∧
      t.phys.get 0 p = 3 ∧ ∀ q, q ≠ p → t.phys.get 0 q = s.phys.get 0 q) ∧
    (∀ c, c < 16 → names c → (∀ d, d < c → ¬ names d) →
      (s.onCore (die * 16 + c) ≠ [] → exec (.coreFailure p) s = .next s) ∧
      (s.onCore (die * 16 + c) = [] →
        ∃ t, exec (.coreFailure p) s = .next t ∧ t.phys.get 0 p = 3 ∧
          t = { s with phys := t.phys, coreMap := t.coreMap } ∧
          (∀ d, d ≠ die * 16 + c → t.coreMap.get 0 d = s.coreMap.get 0 d) ∧
          (∀ q, s.physFree die q = true → die * 17 + q ≠ p → (∀ r, r < q → die * 17 + r ≠ p → s.physFree die r = false) →
            t.coreMap.get 0 (die * 16 + c) = 128 + q ∧ t.phys.get 0 (die * 17 + q) = 0) ∧
          ((∀ q, q < 17 → die * 17 + q ≠ p → s.physFree die q = false) → t.mapped (die * 16 + c) = false)))) ∧
  (∀ (s : State) k, k < 96 →
    ((s.mcc k).gang = none → ∃ t, exec (.coreFailure (408 + k)) s = .next t ∧ OnlyMcc k s t ∧
      t.mcc k = { s.mcc k with failed := true }) ∧
    ((s.mcc k).gang ≠ none → exec (.coreFailure (408 + k)) s = .next s))

/-! ## Slice cores (spec/16) -/

/-- A handler's instruction has made `d` of its slice core, with `n` slice cycles counted (R329). -/
def Sys2Proof.Claims.SliceStep (k n : Nat) (d : Slice) (s t : State) : Prop :=
  OnlySlice k { s with tlbs := t.tlbs, l2 := t.l2, free := t.free } t ∧
  t.slice k = { d with count := Nat.min ((s.slice k).count + n) (s.slice k).budget }

/-- R331: a handler has aborted: no buffered byte and no held increment is left, its tenant's counter and last cause say
so, and an SMSG that it served hears of it. -/
def Sys2Proof.Claims.Aborted (k cause used : Nat) (s t : State) : Prop :=
  let c := s.slice k
  ∀ e, c.event = some e →
    let x := c.tenant e.tenant
    let y := (t.slice k).tenant e.tenant
    (∀ j, j ≠ k → t.slice j = s.slice j) ∧ t = { s with slices := t.slices, ops := t.ops } ∧
    t.slice k = { c with
      st := .idle, event := none, buffer := {}, arrivals := [], count := 0, reply := 0, tenants := (t.slice k).tenants } ∧
    (∀ i, i ≠ e.tenant → (t.slice k).tenant i = c.tenant i) ∧
    y = { x with td4 := y.td4 } ∧ bits y.td4.toNat 16 16 = Nat.min (bits x.td4.toNat 16 16 + 1) 65535 ∧
    bits y.td4.toNat 8 8 = cause % 256 ∧ bits y.td4.toNat 0 8 = bits x.td4.toNat 0 8 ∧
    bits y.td4.toNat 32 32 = bits x.td4.toNat 32 32 ∧
    (∀ o, (∀ n, e.op = some n → o ≠ n) → t.op o = s.op o) ∧
    ∀ n, e.op = some n → (s.op n).st ≠ .none →
      t.op n = { s.op n with reply := some (Nat.min used 65535 * 2 ^ 16 + cause * 2 ^ 8 + 1) }

/-- R321, R329, R331–R342, R351: the eight instructions of a running handler and the base instructions complete within the
budget, each with its slice cycles, SLRD with the 380 of a fetch where its line is absent; while a line is pinned or being
filled SLRD stands for a cycle; an operand that the rules forbid aborts the handler with its cause. Rests on choices of the
model: log entries 7, 24, 49. -/
def Obligations.HandlerInstructions : Prop :=
  ∀ (s : State) k, Handles k s →
    let c := s.slice k
    let done := fun (i : Instr) (n : Nat) (d : Slice) =>
      ∃ t, exec i s = .next t ∧ t.mem = s.mem ∧ Claims.SliceStep k n d s t
    let next := (c.pc + 4) % 2 ^ 32
    let aborts := fun (i : Instr) (cause : Nat) => c.count + 1 < c.budget →
      ∃ t, exec i s = .next t ∧ Claims.Aborted k cause (c.count + 1) s t
    let good := fun (x : SlArgs) => x.rs1 % 2 = 0 ∧ x.rs1 ≠ 0
    let pa := fun (x : SlArgs) => (c.rd x.rs1).toNat + (c.rd (x.rs1 + 1)).toNat * 2 ^ 32
    let mine := fun (p : Nat) => p < 2 ^ 52 ∧ c.running.owns k p = true
    let line := fun (p : Nat) => s.l2.get {} (p / 128)
    let inBuffer := fun (p : Nat) => ∃ b ∈ c.buffer.cells, b.1 / 128 = p / 128
    (∀ x i, i ∈ [Instr.slrd x, .slwr x, .slpf x, .slmsg x, .slarr x, .slqry x] → ¬ good x → aborts i 0x02) ∧
    (∀ x, good x →
      (2 ^ 52 ≤ pa x ∨ pa x % 4 ≠ 0 → aborts (.slrd x) 0x05 ∧ (x.f7 % 16 ≠ 0 → aborts (.slwr x) 0x05)) ∧
      (pa x < 2 ^ 52 → pa x % 4 = 0 → c.running.owns k (pa x) = false →
        aborts (.slrd x) 0x06 ∧ (x.f7 % 16 ≠ 0 → aborts (.slwr x) 0x06)) ∧
      (mine (pa x) → pa x % 4 = 0 →
        let v := BitVec.ofNat 32 (ofBytes ((List.range 4).map (fun i =>
          (c.buffer.get none (pa x + i)).getD (s.mem.read (pa x + i)))))
        let held := s.homeHeld (pa x) false
        ((line (pa x)).present = true → held = false → done (.slrd x) 4 { c.wr x.rd v with pc := next }) ∧
        ((line (pa x)).present = true → held = true → done (.slrd x) 1 c) ∧
        ((line (pa x)).present = false → bit x.f7 0 = false → done (.slrd x) 4 { c.wr x.rd 0 with pc := next }) ∧
        ((line (pa x)).present = false → bit x.f7 0 = true → held = true ∨ (line (pa x)).pending = true →
          done (.slrd x) 1 c) ∧
        ((line (pa x)).present = false → bit x.f7 0 = true → held = false → (line (pa x)).pending = false →
          ∃ t, exec (.slrd x) s = .next t ∧ t.mem = s.mem ∧ t = Claims.homed s t ∧
            (∀ j, j ≠ k → t.slice j = { s.slice j with queue := (t.slice j).queue, tenants := (t.slice j).tenants }) ∧
            t.slice k = { c.wr x.rd v with
              pc := next, count := Nat.min (c.count + 380) c.budget, queue := (t.slice k).queue
              tenants := (t.slice k).tenants } ∧
            let y := t.l2.get {} (pa x / 128)
            y.present = true ∧ y.pending = false ∧ y.dirty = false ∧ y.asid = none)) ∧
      (x.f7 % 16 = 0 → aborts (.slwr x) 0x02) ∧
      (mine (pa x) → pa x % 4 = 0 → x.f7 % 16 ≠ 0 →
        (inBuffer (pa x) ∨ c.bufferLines.length < 8 → ∃ t d, exec (.slwr x) s = .next t ∧ t.mem = s.mem ∧
          Claims.SliceStep k 1 d s t ∧ d = { c with buffer := d.buffer, pc := next } ∧
          ∀ q, d.buffer.get none q = if pa x ≤ q ∧ q < pa x + 4 ∧ bit x.f7 (q - pa x) = true then
            some ((c.rd x.rs2).extractLsb' (8 * (q - pa x)) 8) else c.buffer.get none q) ∧
        (¬ inBuffer (pa x) → 8 ≤ c.bufferLines.length → aborts (.slwr x) 0x07)) ∧
      (pa x < 2 ^ 57 → done (.slpf x) (1 + Nat.min (c.rd x.rs2).toNat 512) { c with pc := next }) ∧
      (2 ^ 57 ≤ pa x → aborts (.slpf x) 0x05 ∧ aborts (.slmsg x) 0x05) ∧
      (pa x < 2 ^ 57 →
        let m := (c.rd x.rs2).toNat
        (m % 64 ≠ 0 → aborts (.slmsg x) 0x05) ∧
        (m % 64 = 0 → m < c.running.dlo ∨ c.running.dhi < m + 64 → aborts (.slmsg x) 0x04) ∧
        (m % 64 = 0 → c.running.dlo ≤ m → m + 64 ≤ c.running.dhi →
          (∀ p s1, s.sliceVa (k / 32) c.running.asid (pa x) = (some p, s1) →
            done (.slmsg x) 8 { c with
              outbox := c.outbox ++ [(p, c.running.asid, c.dmem.readBytes 64 (m - 0x10000))], pc := next }) ∧
          (∀ s1, s.sliceVa (k / 32) c.running.asid (pa x) = (none, s1) → ∃ t d, exec (.slmsg x) s = .next t ∧
            t.mem = s.mem ∧ Claims.SliceStep k 8 d s t ∧ d = { c with tenants := d.tenants, pc := next } ∧
            bits (d.running.td4).toNat 0 8 = Nat.min (bits (c.running.td4).toNat 0 8 + 1) 255))) ∧
      (let off := (c.rd (x.rs1 + 1)).toNat
       (off % 16 ≠ 0 ∨ 2 ^ 20 ≤ off → aborts (.slarr x) 0x05) ∧
       (off % 16 = 0 → off < 2 ^ 20 → c.arrivals.length < 16 → done (.slarr x) 2 { c with
         arrivals := c.arrivals ++ [((c.rd x.rs1).toNat, off, (c.rd x.rs2).toNat)], pc := next }) ∧
       (off % 16 = 0 → off < 2 ^ 20 → 16 ≤ c.arrivals.length → aborts (.slarr x) 0x09)) ∧
      (2 ^ 52 ≤ pa x → aborts (.slqry x) 0x05) ∧
      (pa x < 2 ^ 52 → c.running.owns k (pa x) = false → aborts (.slqry x) 0x06) ∧
      (mine (pa x) → ∃ t v, exec (.slqry x) s = .next t ∧ t.mem = s.mem ∧
        Claims.SliceStep k 4 { c.wr x.rd (BitVec.ofNat 32 v) with pc := next } s t ∧ v < 128 ∧
        bits v 0 3 = (if (line (pa x)).present then (if (line (pa x)).dirty then 3 else 2)
          else if (line (pa x)).pending then 1 else 0) ∧
        bit v 3 = s.pinned (pa x / 128) ∧ 
        (bit v 4 = true ↔ ∃ d, d < 24 ∧ d ≠ k / 32 ∧ s.rdcLine d (pa x / 128) ≠ []) ∧
        (bit v 5 = true ↔ inBuffer (pa x)) ∧
        (bit v 6 = true ↔ ((line (pa x)).present = true ∨ (line (pa x)).pending = true) ∧
          (line (pa x)).asid = some c.running.asid))) ∧
    (∀ x, done (.sldone x) 1 { c with st := .committing, reply := c.rd x.rs1 }) ∧
    (∀ x, done (.slbud x) 1 { c.wr x.rd (BitVec.ofNat 32 (c.budget - (c.count + 1))) with pc := next }) ∧
    (∀ n, aborts (.handlerBaseInstruction (.illegal n)) 0x02) ∧
    (∀ i n d, rvStep i 4 c.running.dlo c.running.dhi c = .ok n d → done (.handlerBaseInstruction (.base i)) n d) ∧
    (∀ i n d, rvStep i.expand 2 c.running.dlo c.running.dhi c = .ok n d → done (.handlerBaseInstruction (.comp i)) n d) ∧
    (∀ i e, rvStep i 4 c.running.dlo c.running.dhi c = .bad e → aborts (.handlerBaseInstruction (.base i)) e)

/-- R321, R322, R351: what the base instructions do, with their slice cycles. -/
def Obligations.BaseInstructions : Prop :=
  (∀ (a b : BitVec 32),
    rvAlu .add a b = a + b ∧ rvAlu .sub a b = a - b ∧ rvAlu .sll a b = a <<< (b.toNat % 32) ∧
    rvAlu .slt a b = (if a.slt b then 1 else 0) ∧ rvAlu .sltu a b = (if a.ult b then 1 else 0) ∧
    rvAlu .xor a b = a ^^^ b ∧ rvAlu .srl a b = a >>> (b.toNat % 32) ∧ rvAlu .sra a b = a.sshiftRight (b.toNat % 32) ∧
    rvAlu .or a b = a ||| b ∧ rvAlu .and a b = a &&& b ∧ rvAlu .mul a b = a * b ∧
    rvAlu .mulh a b = (a.signExtend 64 * b.signExtend 64).extractLsb' 32 32 ∧
    rvAlu .mulhsu a b = (a.signExtend 64 * b.zeroExtend 64).extractLsb' 32 32 ∧
    rvAlu .mulhu a b = (a.zeroExtend 64 * b.zeroExtend 64).extractLsb' 32 32 ∧
    rvAlu .div a b = (if b = 0 then BitVec.allOnes 32 else a.sdiv b) ∧
    rvAlu .divu a b = (if b = 0 then BitVec.allOnes 32 else a / b) ∧
    rvAlu .rem a b = (if b = 0 then a else a.srem b) ∧ rvAlu .remu a b = (if b = 0 then a else a % b)) ∧
  (∀ (c : Slice) len lo hi,
    let next := (c.pc + len) % 2 ^ 32
    let at_ := fun (a : Nat) (off : Int) => (((a : Int) + off) % 2 ^ 32).toNat
    let steps := fun (i : Rv) (n : Nat) (d : Slice) => rvStep i len lo hi c = .ok n d
    (∀ o rd rs1 rs2, steps (.op o rd rs1 rs2) (match o with
        | .mul | .mulh | .mulhsu | .mulhu => 3
        | .div | .divu | .rem | .remu => 34
        | _ => 1) { c.wr rd (rvAlu o (c.rd rs1) (c.rd rs2)) with pc := next }) ∧
    (∀ o rd rs1 imm, o ∈ [RvOp.add, .slt, .sltu, .xor, .or, .and, .sll, .srl, .sra] →
      steps (.opImm o rd rs1 imm) 1 { c.wr rd (rvAlu o (c.rd rs1) (BitVec.ofInt 32 imm)) with pc := next }) ∧
    (∀ rd imm, steps (.lui rd imm) 1 { c.wr rd (BitVec.ofNat 32 imm <<< 12) with pc := next } ∧
      steps (.auipc rd imm) 1 { c.wr rd (BitVec.ofNat 32 c.pc + BitVec.ofNat 32 imm <<< 12) with pc := next }) ∧
    (∀ rd off, steps (.jal rd off) 2 { c.wr rd (BitVec.ofNat 32 next) with pc := at_ c.pc off }) ∧
    (∀ rd rs1 off, steps (.jalr rd rs1 off) 2
      { c.wr rd (BitVec.ofNat 32 next) with pc := at_ (c.rd rs1).toNat off / 2 * 2 }) ∧
    (∀ q rs1 rs2 off,
      let a := c.rd rs1
      let b := c.rd rs2
      let taken := match q with
        | .eq => decide (a = b)
        | .ne => decide (a ≠ b)
        | .lt => a.slt b
        | .ge => b.sle a
        | .ltu => a.ult b
        | .geu => b.ule a
      steps (.branch q rs1 rs2 off) (if taken then 2 else 1) { c with pc := if taken then at_ c.pc off else next }) ∧
    (∀ n rs off, n ∈ [1, 2, 4] →
      let a := at_ (c.rd rs).toNat off
      (a % n ≠ 0 → (∀ sg rd, rvStep (.load ⟨n, sg⟩ rd rs off) len lo hi c = .bad 0x05) ∧
        ∀ r, rvStep (.store n rs r off) len lo hi c = .bad 0x05) ∧
      (a % n = 0 → a < lo ∨ hi < a + n → (∀ sg rd, rvStep (.load ⟨n, sg⟩ rd rs off) len lo hi c = .bad 0x04) ∧
        ∀ r, rvStep (.store n rs r off) len lo hi c = .bad 0x04) ∧
      (a % n = 0 → lo ≤ a → a + n ≤ hi →
        let m := BitVec.ofNat (8 * n) (ofBytes (c.dmem.readBytes n (a - 0x10000)))
        (∀ rd, steps (.load ⟨n, false⟩ rd rs off) 2 { c.wr rd (m.setWidth 32) with pc := next } ∧
          steps (.load ⟨n, true⟩ rd rs off) 2 { c.wr rd (m.signExtend 32) with pc := next }) ∧
        (∀ r, ∃ d, steps (.store n rs r off) 1 d ∧ d = { c with dmem := d.dmem, pc := next } ∧
          ∀ i, d.dmem.read i = if a - 0x10000 ≤ i ∧ i < a - 0x10000 + n then
            (c.rd r).extractLsb' (8 * (i - (a - 0x10000))) 8 else c.dmem.read i))))

/-- R325, R326: an event for tenant `t` has joined the queue of slice core `k`, or is dropped where the queue or the
tenant's part of it is full; a dropped SMSG hears of it. -/
def Sys2Proof.Claims.Offers (k t : Nat) (e : SliceEvent) (s u : State) : Prop :=
  let c := s.slice k
  let x := c.tenant t
  let full := 64 ≤ c.queue.length ∨ x.qmax ≤ (c.queue.filter (fun q => q.tenant == t)).length
  (∀ j, j ≠ k → u.slice j = s.slice j) ∧
  (¬ full → u.slice k = { c with queue := c.queue ++ [e] }) ∧
  (full → (u.slice k).queue = c.queue ∧
    bits ((u.slice k).tenant t).td4.toNat 32 32 = Nat.min (bits x.td4.toNat 32 32 + 1) (2 ^ 32 - 1) ∧
    ∀ n, e.op = some n → (u.op n).st ≠ .none → (u.op n).reply = some 2)

/-- The event reaches the tenant that it is bound to, if there is one (R324, R325). -/
def Sys2Proof.Claims.Delivers (k kind pa asid : Nat) (e : Nat → SliceEvent) (s u : State) : Prop :=
  (∀ t, s.boundTenant k kind pa asid = some t → Claims.Offers k t (e t) s u) ∧
  (s.boundTenant k kind pa asid = none → (∀ j, u.slice j = s.slice j) ∧
    ∀ n, (e 0).op = some n → (u.op n).st ≠ .none → (u.op n).reply = some 3)

/-- R323–R331, R344–R347: an event is bound to the lowest valid tenant of its ASID, if the line and the entry are the
tenant's; misses of requests in flight, fills, evictions and messages queue their events, or drop them; a handler starts as
R328 says; at its budget it aborts; a commit waits for a line that is held, writes every buffered byte, makes the increments
that reach a word of the tenant's ASID and answers, and an error of its data aborts the handler; SMSG faults or enters flight
with what it captured, and its reply performs it, written while its issuer's block stands. Rests on choices of the model: log
entries 86, 100. -/
def Obligations.HandlerEvents : Prop :=
  (∀ (s : State) k kind pa asid t, s.boundTenant k kind pa asid = some t →
    let x := (s.slice k).tenant t
    t < 8 ∧ x.valid = true ∧ x.asid = asid ∧ x.owns k pa = true ∧ x.entry kind ≠ 0xFFFF ∧
    ∀ u, u < t → ¬ (((s.slice k).tenant u).valid = true ∧ ((s.slice k).tenant u).asid = asid)) ∧
  (∀ (s : State) k pa,
    let x := s.l2.get {} (pa / 128)
    let line := pa / 128 * 128
    let only := fun (u : State) (y : L2Line) => u.mem = s.mem ∧ u.warps = s.warps ∧ u.blocks = s.blocks ∧
      u.l2.get {} (pa / 128) = y ∧ ∀ q, q ≠ pa / 128 → u.l2.get {} q = s.l2.get {} q
    ownerOf pa = k → isLocal pa = true → bits pa 50 2 = 0 →
    (∀ asid handle, x.present = false → x.pending = false →
      (∃ c ∈ s.ops.cells, c.2.asid = asid ∧ (s.block c.2.block).handle = handle ∧ s.readsHome c.2 pa = true) →
      ∃ u, exec (.sliceEvent k (.miss pa asid handle)) s = .next u ∧ only u { x with pending := true, asid := some asid } ∧
        Claims.Delivers k 0 pa asid (fun t => { kind := 0, tenant := t, handle := handle, pa := line }) s u) ∧
    (x.present = false → (s.l2.cells.filter (fun c => c.2.present && ownerOf (c.1 * 128) == k)).length < 24576 →
      ∃ u, exec (.sliceEvent k (.fill pa)) s = .next u ∧
        only u { x with
          present := true, pending := false, dirty := false, asid := if x.pending then x.asid else none } ∧
        (x.pending = false ∨ x.asid = none → ∀ j, u.slice j = s.slice j) ∧
        ∀ asid, x.pending = true → x.asid = some asid →
          Claims.Delivers k 1 pa asid (fun t => { kind := 1, tenant := t, handle := 0xFFFFFFFF, pa := line }) s u) ∧
    (x.present = true → ∃ u, exec (.sliceEvent k (.evict pa)) s = .next u ∧ only u { switch := x.switch } ∧
      (x.asid = none → ∀ j, u.slice j = s.slice j) ∧
      ∀ asid, x.asid = some asid → Claims.Delivers k 2 pa asid
        (fun t => { kind := 2, tenant := t, dirty := x.dirty, handle := 0xFFFFFFFF, pa := line }) s u)) ∧
  (∀ (s : State) k n y,
    let o := s.op n
    let a := SmsgArgs.of o.args
    let s1 := s.releaseFor (s.opCore o) o.warp o.hset o.after o.lanes
    o.st = .flying → o.instr = some (.smsg y) → o.sent = false → ownerOf a.pa = k →
    (s1.edgesMet o.warp o.hset o.after o.lanes o.seq = false → exec (.sliceEvent k (.smsg n)) s = .next s) ∧
    (s1.edgesMet o.warp o.hset o.after o.lanes o.seq = true →
      ∃ u, exec (.sliceEvent k (.smsg n)) s = .next u ∧ (u.op n).sent = true ∧ (u.op n).st = .flying ∧ u.mem = s1.mem ∧
        Claims.Delivers k 3 a.pa o.asid (fun t => { kind := 3, tenant := t, handle := (s.block o.block).handle, pa := a.pa
                                                    msg := bytesOf 64 a.msg, op := some n }) s1 u)) ∧
  (∀ (s : State) k src pa asid bytes rest, (s.slice src).outbox = (pa, asid, bytes) :: rest → ownerOf pa = k →
    ∃ u, exec (.sliceEvent k (.slmsg src)) s = .next u ∧ (u.slice src).outbox = rest ∧ u.mem = s.mem ∧
      Claims.Delivers k 3 pa asid
        (fun t => { kind := 3, tenant := t, fromSlice := true, handle := src, pa := pa, msg := bytes })
        (s.setSlice src { s.slice src with outbox := rest }) u) ∧
  (∀ (s : State) k e rest,
    let c := s.slice k
    let x := c.tenant e.tenant
    c.st = .idle → c.queue = e :: rest →
    (x.valid = true → x.entry e.kind ≠ 0xFFFF → e.kind < 4 → e.tenant < 8 → ∃ u, exec (.handlerStart k) s = .next u ∧
      OnlySlice k s u ∧ u.slice k = { c with
        queue := rest, st := .running, event := some e, pc := x.ibase + x.entry e.kind, x := (u.slice k).x, count := 0
        buffer := {}, arrivals := [], reply := 0, dmem := (u.slice k).dmem } ∧
      (∀ r, (u.slice k).rd r =
        if r = 10 then BitVec.ofNat 32 (e.kind + e.tenant * 4 + (if e.dirty then 32 else 0) + if e.fromSlice then 64 else 0)
        else if r = 11 then BitVec.ofNat 32 e.handle else if r = 12 then BitVec.ofNat 32 e.pa
        else if r = 13 then BitVec.ofNat 32 (bits e.pa 32 20) else if r = 3 then BitVec.ofNat 32 (0x10000 + x.dbase)
        else if r = 2 then BitVec.ofNat 32 (0x10000 + x.dbase + x.dsize) else 0) ∧
      ∀ i, (u.slice k).dmem.read i = if e.kind = 3 ∧ x.dbase ≤ i ∧ i < x.dbase + e.msg.length then
        e.msg.getD (i - x.dbase) 0 else c.dmem.read i) ∧
    (x.valid = false ∨ x.entry e.kind = 0xFFFF → ∃ u, exec (.handlerStart k) s = .next u ∧
      u.slice k = { c with queue := rest } ∧ ∀ n, e.op = some n → (s.op n).st ≠ .none → (u.op n).reply = some 3)) ∧
  (∀ (s : State) k, (s.slice k).st = .running → (s.slice k).budget ≤ (s.slice k).count →
    ∃ u, exec (.handlerBudgetOverrun k) s = .next u ∧ Claims.Aborted k 0x01 (s.slice k).budget s u) ∧
  (∀ (s : State) k e,
    let c := s.slice k
    c.st = .committing → c.event = some e →
    ((∃ b ∈ c.buffer.cells, s.homeHeld (b.1 / 128 * 128) false = true) → exec (.handlerCommit k false) s = .next s) ∧
    (c.buffer.cells ≠ [] → ∃ u, exec (.handlerCommit k true) s = .next u ∧ Claims.Aborted k 0x08 c.count s u) ∧
    ((∀ b ∈ c.buffer.cells, s.homeHeld (b.1 / 128 * 128) false = false) → c.buffer.wf none = true → c.arrivals = [] →
      ∃ u, exec (.handlerCommit k false) s = .next u ∧
      (∀ a, u.mem.read a = (c.buffer.get none a).getD (s.mem.read a)) ∧ u.warps = s.warps ∧ u.blocks = s.blocks ∧
      (∀ j, j ≠ k → u.slice j = { s.slice j with queue := (u.slice j).queue, tenants := (u.slice j).tenants }) ∧
      u.slice k = { c with
        st := .idle, event := none, buffer := {}, arrivals := [], count := 0, reply := 0, queue := (u.slice k).queue
        tenants := (u.slice k).tenants } ∧
      ((∀ b ∈ c.buffer.cells, (s.lineOf b.1).present = true) → ∀ j, (u.slice j).queue = (s.slice j).queue) ∧
      (s.l2.cells.length + c.bufferLines.length < 24576 → ∀ b ∈ c.buffer.cells, bits b.1 50 2 = 0 →
        (u.l2.get {} (b.1 / 128)).present = true ∧ (u.l2.get {} (b.1 / 128)).dirty = true) ∧
      ∀ n, e.op = some n → (s.op n).st ≠ .none →
        (u.op n).reply = some (c.reply.toNat * 2 ^ 32 + Nat.min c.count 65535 * 2 ^ 16)) ∧
    (∀ h off n, c.arrivals = [(h, off, n)] → c.buffer = {} →
      (∀ b, s.blockOfHandle h = some b → (s.job (s.block b).job).asid ≠ (c.tenant e.tenant).asid ∨
        (s.block b).alloc < off + 16) → (∀ b, s.blockOfHandle h = some b → (s.block b).frozen = false) →
      ∃ u, exec (.handlerCommit k false) s = .next u ∧ (u.slice k).st = .idle ∧ u.blocks = s.blocks ∧
        bits ((u.slice k).tenant e.tenant).td4.toNat 0 8 = Nat.min (bits (c.tenant e.tenant).td4.toNat 0 8 + 1) 255) ∧
    (∀ h off n b, c.arrivals = [(h, off, n)] → c.buffer = {} → s.blockOfHandle h = some b → (s.block b).frozen = false →
      (s.block b).standing = true → (s.block b).imaged = false →
      (s.job (s.block b).job).asid = (c.tenant e.tenant).asid → off + 16 ≤ (s.block b).alloc → Claims.NoWaiters s →
      ∃ u, exec (.handlerCommit k false) s = .next u ∧ (u.slice k).st = .idle ∧
        u.aword b off = (s.aword b off).increment n)) ∧
  (∀ (s : State) k n, (s.slice k).st = .running → s.readsLine k = some n →
    (s.slice k).count + n < (s.slice k).budget →
    ∃ u, exec (.handlerCommit k true) s = .next u ∧ Claims.Aborted k 0x08 ((s.slice k).count + n) s u) ∧
  (∀ w s x, Issues w (.smsg x) s → x.strm < 8 →
    let a := s.atIssue (.smsg x) w
    let sI := s.issued (.smsg x) w
    let va := a.memAddr x false 0
    let ctl := (a.rdS (x.d + 8)).toNat
    let sa := bits ctl 0 25
    let legal := bits ctl 25 7 = 0 ∧ bits ctl 33 31 = 0
    a.activeReal x.g ≠ 0 →
    (va % 8 ≠ 0 → exec (.smsg x) s = .next (sI.faultWarp w { cause := 0x062, addr := va })) ∧
    (va % 8 = 0 → isWindow va = true → exec (.smsg x) s = .next (sI.faultWarp w { cause := 0x063, addr := va })) ∧
    (∀ c s1, va % 8 = 0 → isWindow va = false → sI.checkElem (sI.ctx w) { read := true } va 1 8 = (.error c, s1) →
      exec (.smsg x) s = .next (s1.faultWarp w { cause := c, addr := va })) ∧
    (∀ p s1, va % 8 = 0 → isWindow va = false → sI.checkElem (sI.ctx w) { read := true } va 1 8 = (.ok p, s1) →
      (∀ pa nc, p = .home pa nc false → bits pa 50 2 ≠ 0) →
      exec (.smsg x) s = .next (s1.faultWarp w { cause := 0x063, addr := va })) ∧
    (∀ pa nc s1, va % 8 = 0 → isWindow va = false →
      sI.checkElem (sI.ctx w) { read := true } va 1 8 = (.ok (.home pa nc false), s1) → bits pa 50 2 = 0 →
      (¬ legal → exec (.smsg x) s = .next (s1.faultWarp w { cause := 0x022 })) ∧
      (legal → bit ctl 32 = true → sa % 8 ≠ 0 → exec (.smsg x) s = .next (s1.faultWarp w { cause := 0x062, addr := sa })) ∧
      (∀ p, legal → a.mustStall true x.strm (a.activeReal x.g) = 0 →
        (bit ctl 32 = true → sa % 8 = 0 ∧ s.resolveSa a.block sa 8 = .ok (.scratch p.1 p.2)) →
        ∃ t o, exec (.smsg x) s = .next t ∧ Claims.OpEnters w o a s t ∧ o.st = .flying ∧ o.instr = some (.smsg x) ∧
          o.sent = false ∧ o.reply = none ∧ o.strm = x.strm ∧ o.after = x.after ∧ o.lanes = a.activeReal x.g ∧
          (let g := SmsgArgs.of o.args
           g.pa = pa ∧ g.msg < 2 ^ 512 ∧ (∀ i, i < 8 → bits g.msg (64 * i) 64 = (a.rdS (x.d + i)).toNat) ∧
           g.reply = bit ctl 32 ∧ (bit ctl 32 = true → (g.block, g.off) = p))))) ∧
  (∀ (s : State) k y r,
    let o := s.op k
    let a := SmsgArgs.of o.args
    let writes := a.reply = true ∧ s.issuerStands o = true
    o.st = .flying → o.instr = some (.smsg y) → o.reply = some r →
    (a.reply = true → (s.block a.block).frozen = true → exec (.smsgReply k) s = .next s) ∧
    ((a.reply = true → (s.block a.block).frozen = false) → ¬ writes → o.orphan = true →
      ∃ u, exec (.smsgReply k) s = .next u ∧ u.op k = {} ∧ u.blocks = s.blocks ∧ u.warps = s.warps) ∧
    ((a.reply = true → (s.block a.block).frozen = false) → o.orphan = false → Claims.Calm (s.warp o.warp) →
      Claims.NoWaiters s → (writes → (s.block a.block).standing = true ∧ (s.block a.block).imaged = false) →
      ∃ u, exec (.smsgReply k) s = .next u ∧ u.op k = {} ∧ Claims.Completed o (s.warp o.warp) (u.warp o.warp) ∧
        (¬ writes → u.blocks = s.blocks) ∧
        (writes → ∀ i, (u.block a.block).scratch.read i =
          if a.off ≤ i ∧ i < a.off + 8 then BitVec.ofNat 8 (r / 2 ^ (8 * (i - a.off)))
          else (s.block a.block).scratch.read i)))

/-! ## Fabric (spec/19) -/

/-- R254, R370: an operation is abandoned: it stays until its warp returns, which halts at its next head. -/
def Sys2Proof.Claims.Abandoned (k cause lane addr : Nat) (s t : State) : Prop :=
  let o := s.op k
  (s.warp o.warp).halted = false → (s.warp o.warp).haltDue = none → o.orphan = false →
  t.op k = { o with st := .stuck, cause := cause } ∧
  (t.warp o.warp).abandoned = (s.warp o.warp).abandoned ++ [k] ∧
  (t.warp o.warp).haltDue = some { cause := cause, lane := lane, addr := addr, pc := some o.pc, late := true } ∧
  KeepsRegs [] (s.warp o.warp) (t.warp o.warp)

/-- A word that increments may be seen to reach: its block stands on its core and nobody waits. -/
def Sys2Proof.Claims.Countable (s : State) (b : Nat) : Prop :=
  (s.block b).standing = true ∧ (s.block b).imaged = false ∧ (s.block b).frozen = false ∧ Claims.NoWaiters s

/-- The places of a fabric range share no byte with an arrival word. -/
def Sys2Proof.Claims.Off (l : List (Place × Nat)) (b off : Nat) : Prop :=
  ∀ p ∈ l, overlaps p.1 p.2 (.scratch b off) 16 = false

/-- Bytes have landed at the places of a range, where these are apart and stand, and memory beside them is as it was. Of a
range that is memory-side, the places are one. -/
def Sys2Proof.Claims.Lands (s : State) (l : List (Place × Nat)) (bs : List Byte) (t : State) : Prop :=
  l.Pairwise (fun p q => overlaps p.1 p.2 q.1 q.2 = false) →
  (∀ p ∈ l, ∀ b off, p.1 = .scratch b off → (s.block b).standing = true ∧ (s.block b).imaged = false) →
  ((∀ p ∈ l, ∀ pa nc, p.1 ≠ .home pa nc true) ∨ l.length = 1) →
  t.fabricRead l = bs ∧
  ∀ a, (∀ p ∈ l, ∀ pa nc ms, p.1 = .home pa nc ms → a < pa ∨ pa + p.2 ≤ a) → t.mem.read a = s.mem.read a

/-- R365, R367–R370, R372–R377: FXFER, FGET and COLL enter the fabric engine, or fault in the order of R368; FLINKQ reads a
port; an acknowledged FXFER and an FGET whose bytes have arrived perform, the latter with its increment, and to the module's
own rank the bytes land here first; a refusal, a timeout, which the widths and retrains of the ports set, or a local fault
abandons; a peer's bytes are written, and its last ones counted, or its transfer is rejected; a collective writes its result,
or is abandoned; links lose lanes and retrain; a peer's requests are served at the home. Rests on choices of the model: log
entries 58, 59, 60, 61, 107. -/
def Obligations.Fabric : Prop :=
  (∀ w s x (i : Instr), i = .fxfer x ∨ i = .fget x → Issues w i s → x.strm < 8 →
    let a := s.atIssue i w
    let d := fun (k : Nat) => (a.rdS (x.d + k)).toNat
    let lva := a.memAddr x false 0
    let kind := bit (d 0) 63
    let nw := bit (d 1) 63
    let len := bits (d 2) 32 32
    let g := s.groups.get {} (s.block a.block).job
    let legal := bits (d 0) 57 6 = 0 ∧ (kind = true → bits (d 0) 20 37 = 0) ∧ bits (d 1) 40 23 = 0 ∧
      bits (d 1) 25 7 = 0 ∧ (nw = false → i = .fxfer x → bits (d 1) 20 5 = 0) ∧ 16 ≤ len ∧ len ≤ 2 ^ 24 ∧ len % 16 = 0 ∧
      (nw = false → bits (d 1) 0 25 % 16 = 0)
    let faults := fun (f : Trap) => exec i s = .next ((s.issued i w).faultWarp w f)
    let even_ := kind = true ∨ bits (d 0) 0 57 % 16 = 0
    a.activeReal x.g ≠ 0 →
    (¬ legal → faults { cause := 0x022 }) ∧ (legal → lva % 16 ≠ 0 → faults { cause := 0x062, addr := lva }) ∧
    (legal → lva % 16 = 0 → ¬ even_ → faults { cause := 0x062, addr := bits (d 0) 0 57 }) ∧
    (legal → lva % 16 = 0 → even_ → g.live = false ∨ g.n ≤ bits (d 1) 32 8 → faults { cause := 0x0C4 }) ∧
    (legal → lva % 16 = 0 → even_ → g.live = true → bits (d 1) 32 8 < g.n →
      a.mustStall true x.strm (a.activeReal x.g) = 0 →
      ∃ t o, exec i s = .next t ∧ Claims.OpEnters w o a s t ∧ o.st = .flying ∧ o.instr = some i ∧ o.strm = x.strm ∧
        o.after = x.after ∧ o.lanes = a.activeReal x.g ∧ o.pc = a.pc ∧
        (let c := XferArgs.of o.args
         c.lva = lva ∧ c.nw = nw ∧ c.aw = bits (d 1) 0 25 ∧ c.len = len))) ∧
  (∀ w s x, Issues w (.coll x) s → x.strm < 8 →
    let a := s.atIssue (.coll x) w
    a.activeReal x.g ≠ 0 → a.mustStall true x.strm (a.activeReal x.g) = 0 →
    ∃ t o, exec (.coll x) s = .next t ∧ Claims.OpEnters w o a s t ∧ o.st = .flying ∧ o.instr = some (.coll x) ∧
      o.strm = x.strm ∧ o.after = x.after ∧ o.lanes = a.activeReal x.g ∧ o.args.head? = some (a.memAddr x false 0)) ∧
  (∀ w s x, Issues w (.flinkq x) s →
    let a := s.atIssue (.flinkq x) w
    let n := (a.rdS x.a).toNat
    let p := s.ports.get {} n
    a.active x.g ≠ 0 →
    (36 ≤ n → exec (.flinkq x) s = .next ((s.issued (.flinkq x) w).faultWarp w { cause := 0x022 })) ∧
    (n < 36 → ∃ t, exec (.flinkq x) s = .next t ∧ OnlyWarp w s t ∧
      t.warp w = { a with s := (t.warp w).s } ∧ ∀ m, (t.warp w).rdS m = if m = x.d ∧ m ≠ 0 then
        BitVec.ofNat 64 (p.retrains * 2 ^ 48 + p.credits * 2 ^ 32 +
          Nat.min 255 ((p.replayed.filter (fun y => s.time < y.1 + 1000000)).map (·.2)).sum * 2 ^ 16 + p.lanes * 2 ^ 8 +
          p.width * 4 + p.state)
        else a.rdS m)) ∧
  (∀ (s : State) since, s.timedOut since = true ↔ (∀ k, k < 36 → 2 ≤ (s.ports.get {} k).state) ∨
    ∃ k, k < 36 ∧ (s.ports.get {} k).state = 0 ∧
      since + (s.ports.get {} k).paused since s.time + (match (s.ports.get {} k).width with
        | 0 => 40000
        | 1 => 80000
        | _ => 160000) ≤ s.time) ∧
  (∀ (s : State) k x bytes,
    let o := s.op k
    let c := XferArgs.of o.args
    let s0 := s.opRelease o
    let range := fun (need : Need) => s0.fabricRange (o.ctx s) (some (s.asIssued o)) need c.lva c.len
    let done := fun (l : Landing) (q : List (Place × Nat)) (bs : List Byte) (word : Option (Nat × Nat)) =>
      ∃ t, exec (.fabricLanding l) s = .next t ∧ t.op k = {} ∧ Claims.Completed o (s.warp o.warp) (t.warp o.warp) ∧
        Claims.Lands s0 q bs t ∧ ∀ b off, word = some (b, off) → t.aword b off = (s.aword b off).increment c.len
    let counts := fun (q : List (Place × Nat)) (word : Option (Nat × Nat)) =>
      ∃ b off, word = some (b, off) ∧ Claims.Countable s b ∧ Claims.Off q b off ∧ off + 16 ≤ (s.block b).alloc
    let ends := o.orphan = false ∧ Claims.Calm (s.warp o.warp) ∧ Claims.NoWaiters s
    o.st = .flying → s.copyEdges o = true →
    (o.instr = some (.fxfer x) →
      (∀ l s1, range { read := true } = (.ok l, s1) → s1.fabricFree o l = true → ends →
        (s1.ownRank o = false → ∃ t, exec (.fabricLanding (.ack k)) s = .next t ∧ t.op k = {} ∧ t.mem = s0.mem ∧
          Claims.Completed o (s.warp o.warp) (t.warp o.warp)) ∧
        (∀ q s2, s1.ownRank o = true → s1.ownPlaces o { write := true } = (some q, s2) → s2.fabricFree o q = true →
          (c.nw = true → done (.ack k) q (s2.fabricRead l) none) ∧
          (c.nw = false → counts q (s2.ownWord o) → done (.ack k) q (s2.fabricRead l) (s2.ownWord o)))) ∧
      (∀ f va s1, range { read := true } = (.error (f, va), s1) →
        ∃ t, exec (.fabricLanding (.ack k)) s = .next t ∧ Claims.Abandoned k f c.lane va s t)) ∧
    (o.instr = some (.fget x) → ends →
      ∀ l s1 src s2, range { write := true } = (.ok l, s1) →
        (s1.ownRank o = false ∧ src = [] ∧ s2 = s1) ∨
          (s1.ownRank o = true ∧ s1.ownPlaces o { read := true } = (some src, s2)) →
        s2.fabricFree o (l ++ src) = true →
        let bs := if s1.ownRank o then s2.fabricRead src
          else (List.range c.len).map (fun i => BitVec.ofNat 8 (bytes.getD i 0))
        (c.nw = true → done (.data k bytes) l bs none) ∧
        (c.nw = false → counts l (s2.localWord o c.aw) → done (.data k bytes) l bs (s2.localWord o c.aw)) ∧
        (c.nw = false → s2.localWord o c.aw = none →
          ∃ t, exec (.fabricLanding (.data k bytes)) s = .next t ∧ Claims.Abandoned k 0x0C2 c.lane c.aw s t)) ∧
    (o.instr = some (.fxfer x) ∨ o.instr = some (.fget x) → s.ownRank o = false → Claims.NoWaiters s →
      (∀ b off, s.xferWord o = some (b, off) → (s.block b).frozen = false) →
      let abandons := fun (i : Instr) (cause : Nat) => ∃ t, exec i s = .next t ∧ Claims.Abandoned k cause c.lane c.lva s t ∧
        ∀ b off, s.xferWord o = some (b, off) → Claims.Countable s b → off + 16 ≤ (s.block b).alloc →
          (t.aword b off).err = true
      abandons (.fabricLanding (.rejected k)) 0x066 ∧
      (s.timedOut o.issuedAt = true → abandons (.fabricTimeout k) 0x067)) ∧
    (s.timedOut o.issuedAt = false → exec (.fabricTimeout k) s = .next s)) ∧
  (∀ (s : State) job toScratch addr blk aw last bytes id n,
    let st := s.xfers.get .none id
    let before := match st with
      | .started m => m
      | _ => 0
    let word := match aw with
      | some off => s.peerWord job blk (off % 2 ^ 20)
      | none => none
    let land := Instr.fabricLanding (.inbound job toScratch addr blk aw last bytes id)
    let places := s.peerPlaces job toScratch addr blk bytes.length { write := true } (st == .none)
    (s.groups.get {} job).live = true → st = .none ∨ st = .started n → Claims.NoWaiters s →
    (∀ b off, word = some (b, off) → Claims.Countable s b ∧ off + 16 ≤ (s.block b).alloc) →
    (∀ l s1, places = (some l, s1) → s1.peerFree l = true → last = false ∨ aw = none ∨ word ≠ none →
      (last = true → ∀ b off, word = some (b, off) → Claims.Off l b off) →
      ∃ t, exec land s = .next t ∧ Claims.Lands s l (bytes.map (BitVec.ofNat 8)) t ∧
        t.xfers.get .none id = (if last then .incremented else .started (before + bytes.length)) ∧
        ∀ b off, last = true → word = some (b, off) → t.aword b off = (s.aword b off).increment (before + bytes.length)) ∧
    (∀ s1, places = (none, s1) ∨ (∃ l, places = (some l, s1) ∧ s1.peerFree l = true ∧ last = true ∧ aw ≠ none ∧ word = none) →
      ∃ t, exec land s = .next t ∧ t.mem = s.mem ∧ t.xfers.get .none id = .aborted ∧
        ∀ b off, word = some (b, off) → (s.block b).st = .placed → (t.aword b off).err = true)) ∧
  (∀ (s : State) (m : AbortMsg), s.xfers.get .none m.xfer ≠ .incremented → s.xfers.get .none m.xfer ≠ .aborted →
    (∀ b off aw, m.aw = some aw → s.peerWord m.job m.blk (aw % 2 ^ 20) = some (b, off) → Claims.Countable s b →
      ∃ t, exec (.transferAbortArrival m) s = .next t ∧ t.xfers.get .none m.xfer = .aborted ∧
        t.mem = s.mem ∧ (t.aword b off).err = true ∧ (t.aword b off).count = (s.aword b off).count) ∧
    (m.aw = none → ∃ t, exec (.transferAbortArrival m) s = .next t ∧ t = { s with xfers := t.xfers } ∧
      t.xfers.get .none m.xfer = .aborted)) ∧
  (∀ (s : State) (m : AbortMsg), s.xfers.get .none m.xfer = .incremented ∨ s.xfers.get .none m.xfer = .aborted →
    exec (.transferAbortArrival m) s = .next s) ∧
  (∀ (s : State) k x others,
    let o := s.op k
    let at_ := o.args.headD 0
    let c := o.ctx s
    let g := s.groups.get {} o.job
    let lane := o.args.getD 1 0
    let abandons := fun (cause addr : Nat) =>
      ∃ t, exec (.collComplete k (.done others)) s = .next t ∧ Claims.Abandoned k cause lane addr s t
    o.st = .flying → o.instr = some (.coll x) → s.copyEdges o = true → Claims.NoWaiters s →
    (at_ % 128 ≠ 0 → abandons 0x0C0 at_) ∧
    (∀ e s1, at_ % 128 = 0 → (s.opRelease o).fabricPlace c none { read := true } at_ 128 = (.error e, s1) → abandons e at_) ∧
    (∀ pa nc ms s1, at_ % 128 = 0 →
      (s.opRelease o).fabricPlace c none { read := true } at_ 128 = (.ok (.home pa nc ms), s1) →
      s1.fabricFree o [(.home pa nc ms, 128)] = true →
      let p := CollBlock.of (Claims.homeBytes s1 ms 128 pa)
      let word := s1.localWord o p.aw
      let src := s1.fabricRange c none { read := true } p.src (p.srcLen g.n)
      let dst := fun (s2 : State) => s2.fabricRange c none { write := true } p.dst (p.dstLen g.n)
      (∀ b off, word = some (b, off) → (s.block b).frozen = false) →
      (p.malformed g = true → abandons 0x0C0 at_) ∧
      (p.malformed g = false → 2 ^ 36 < p.srcLen g.n → abandons 0x0C2 p.src) ∧
      (p.malformed g = false → p.srcLen g.n ≤ 2 ^ 36 → 2 ^ 36 < p.dstLen g.n → abandons 0x0C2 p.dst) ∧
      (p.malformed g = false → p.srcLen g.n ≤ 2 ^ 36 → p.dstLen g.n ≤ 2 ^ 36 →
        (∀ e va s2, src = (.error (e, va), s2) → abandons e va) ∧
        ∀ ls s2, src = (.ok ls, s2) → (∀ e va s3, dst s2 = (.error (e, va), s3) → abandons e va) ∧
          ∀ ld s3, dst s2 = (.ok ld, s3) → (word = none → abandons 0x0C2 p.aw) ∧
            ∀ b off, word = some (b, off) → (s3.tagInUse o p.tag = true → abandons 0x0C5 at_) ∧
              (s3.tagInUse o p.tag = false →
                (∃ t, exec (.collComplete k .mismatch) s = .next t ∧ Claims.Abandoned k 0x0C5 lane at_ s t) ∧
                (s3.fabricFree o (ls ++ ld) = true → Claims.Countable s b → Claims.Off ld b off → o.orphan = false →
                  Claims.Calm (s.warp o.warp) →
                  let mine := if p.kind = 3 ∧ g.rank ≠ p.root then [] else s3.fabricRead ls
                  let srcs := (List.range g.n).map (fun i => if i = g.rank then mine
                    else (others.getD i []).map (fun x => BitVec.ofNat 8 x))
                  (p.result g.rank srcs).length = p.dstLen g.n →
                  ∃ t, exec (.collComplete k (.done others)) s = .next t ∧ t.op k = {} ∧
                    Claims.Completed o (s.warp o.warp) (t.warp o.warp) ∧
                    t.aword b off = (s.aword b off).increment (p.dstLen g.n) ∧
                    Claims.Lands (s.opRelease o) ld (p.result g.rank srcs) t))))) ∧
  (∀ (l : List Nat), l ≠ [] → (∀ v ∈ l, v < 2 ^ 32) →
    collElem 5 0 l = l.sum % 2 ^ 32 ∧ (∀ v ∈ l, collElem 5 1 l ≤ v ∧ v ≤ collElem 5 2 l) ∧ collElem 5 1 l ∈ l ∧
      collElem 5 2 l ∈ l) ∧
  (∀ (s : State) port lane, port < 36 → lane < 8 →
    let p := s.ports.get {} port
    ∃ t, exec (.laneFailure port lane) s = .next t ∧ t = { s with ports := t.ports } ∧
      (∀ q, q ≠ port → t.ports.get {} q = s.ports.get {} q) ∧
      (bit p.lanes lane = true → p.state = 0 → t.ports.get {} port =
        { p with
          failed := p.failed ||| 2 ^ lane, state := 1, since := s.time, retrains := Nat.min 255 (p.retrains + 1) }) ∧
      (bit p.lanes lane = false ∨ p.state ≠ 0 → t.ports.get {} port = { p with failed := p.failed ||| 2 ^ lane })) ∧
  (∀ (s : State) port, port < 36 → (s.ports.get {} port).state = 1 →
    let p := s.ports.get {} port
    let first := if p.widen then 0 else p.width
    ∃ t n, exec (.retrainComplete port) s = .next t ∧ t = { s with ports := t.ports, free := t.free } ∧ n < 256 ∧
      (∀ q, q ≠ port → t.ports.get {} q = s.ports.get {} q) ∧
      (let q := t.ports.get {} port
       q = { p with
         width := q.width, lanes := q.lanes, credits := q.credits, state := q.state, widen := false
         spans := (p.since, s.time) :: p.spans
         replayed := (s.time, n) :: p.replayed.filter (fun x => s.time < x.1 + 1000000) } ∧
       (∀ w l, first ≤ w → w < q.width → w < 3 → l ∈ laneSets w → l &&& p.failed ≠ 0) ∧
       ((first ≤ q.width ∧ q.width < 3 ∧ q.state = 0 ∧ q.credits = 128 / 2 ^ q.width ∧ q.lanes ∈ laneSets q.width ∧
         q.lanes &&& p.failed = 0) ∨ (q.width = 3 ∧ q.state = 2 ∧ q.lanes = 0)))) ∧
  (∀ (s : State) pa bytes job addr n r,
    let within := isLocal pa = true ∧ bits pa 50 2 = 0
    exec (.peerRequest (.fget job addr n)) s = .next s ∧
    (r = .load pa n ∨ r = .fetch pa → within → s.homeHeld pa false = false → ∃ t, exec (.peerRequest r) s = .next t ∧
      t = Claims.homed s t ∧ t.mem = s.mem ∧ Claims.OnlyQueues s t ∧ (t.lineOf pa).switch = true) ∧
    (r = .load pa n ∨ r = .fetch pa ∨ r = .store pa bytes → s.homeHeld pa false = true →
      exec (.peerRequest r) s = .next s) ∧
    (within → pa % 128 + bytes.length ≤ 128 → s.homeHeld pa false = false →
      ∃ t, exec (.peerRequest (.store pa bytes)) s = .next t ∧ t = Claims.homed s t ∧ Claims.OnlyQueues s t ∧
        ∀ q, t.mem.read q = if pa ≤ q ∧ q < pa + bytes.length then BitVec.ofNat 8 (bytes.getD (q - pa) 0)
          else s.mem.read q))

/-! ## Power (spec/20) -/

/-- R397–R406: the queries write what they report; TOKPR writes the prices of a word; INTENT posts, replaces or
withdraws its warp's intent, or finds the table full; BALLAST enters flight with what it captured, or faults in the
order of R402, and when its edges are met, its warp killed or not, it takes the lowest free entry of its die, or cancels
one, or answers why not. Rests on choices of the model: log entries 7, 62, 68, 70, 87, 108. -/
def Obligations.PowerInstructions : Prop :=
  (∀ w s x, Issues w (.tokq x) s →
    let a := s.atIssue (.tokq x) w
    let core := (s.block a.block).core
    let die := core / 16
    let p := s.pantry core
    let writes := fun (v : Word) => ∃ t, exec (.tokq x) s = .next t ∧ OnlyWarp w s t ∧
      ScalarDone x.d false false v a (t.warp w)
    let drawn := fun (f : Larder → Word) => ∃ t n, exec (.tokq x) s = .next t ∧ (∀ u, u ≠ w → t.warp u = s.warp u) ∧
      t = { s with warps := t.warps, larders := t.larders, gov := t.gov, free := t.free } ∧
      (∀ d, d ≠ die → t.larder d = s.larder d) ∧ (t.larder die).drawn = (s.larder die).drawn + BitVec.ofNat 64 n ∧
      (t.larder die).level = (s.larder die).level - n ∧ ScalarDone x.d false false (f (t.larder die)) a (t.warp w)
    a.active x.g ≠ 0 →
    (x.c = 0 → writes (BitVec.ofNat 64 p.level)) ∧ (x.c = 1 → drawn (fun l => BitVec.ofNat 64 l.level)) ∧
    (x.c = 2 → writes (BitVec.ofNat 64 (if s.time < p.halfUntil then p.quota / 2 else p.quota))) ∧
    (x.c = 3 → writes p.waited) ∧ (x.c = 4 → writes p.charged) ∧ (x.c = 5 → drawn (fun l => l.drawn))) ∧
  (∀ w s x, Issues w (.tokpr x) s →
    let a := s.atIssue (.tokpr x) w
    let v := (a.rdS x.a).toNat
    let f := (a.rdS x.b).toNat
    let side : Side := if bits v 59 5 = 0xA ∧ bits v 52 7 ≤ 8 then .mcc else .vector
    let writes := fun (r : Word) => ∃ t, exec (.tokpr x) s = .next t ∧ OnlyWarp w s t ∧
      ScalarDone x.d false false r a (t.warp w)
    a.active x.g ≠ 0 →
    (bits v 62 2 = 3 → writes (BitVec.allOnes 64)) ∧
    (bits v 62 2 ≠ 3 →
      (∀ e, decodeWord side none none v = .error e → writes (BitVec.allOnes 64)) ∧
      (∀ i, decodeWord side none none v = .ok i →
        (execPrice i (bits f 0 5) (bits f 8 5) = none → writes (BitVec.allOnes 64)) ∧
        ∀ e, execPrice i (bits f 0 5) (bits f 8 5) = some e → writes (BitVec.ofNat 64 (e * 2 ^ 32 + i.price))))) ∧
  (∀ (x y : R3) af wf,
    (wf ∈ List.range 21 → wf ≠ 0 → af ∈ List.range 21 → af ≠ 0 →
      execPrice (.mstrm x) af wf = some (rowPrice af wf)) ∧
    (wf = 0 ∨ 20 < wf → execPrice (.mlds x) af wf = none ∧ execPrice (.mstrm x) af wf = none) ∧
    (af = 0 ∨ 20 < af → execPrice (.mstrm x) af wf = none) ∧ execPrice (.mswap y) af wf = some 64) ∧
  (∀ w s x, Issues w (.intent x) s →
    let a := s.atIssue (.intent x) w
    let die := (s.block a.block).core / 16
    let p := (a.rdS x.a).toNat
    let q := (a.rdS x.b).toNat
    let delta := sext 32 p
    let eta := q % 2 ^ 32
    let dur := q / 2 ^ 32
    let legal := p < 2 ^ 32 ∧ -12000 ≤ delta ∧ delta ≤ 12000 ∧ eta ≤ 1000000 ∧ dur ≤ 60000000
    let mine := ∃ c ∈ s.intents.cells, c.1 / 64 = die ∧ c.2.warp = w ∧ s.intentLive c.2 = true
    let full := ∀ e, e < 64 → ∃ c ∈ s.intents.cells, c.1 = die * 64 + e ∧ s.intentLive c.2 = true
    let others := fun (c : Nat × Intent) => c ∈ s.intents.cells ∧ ¬ (c.1 / 64 = die ∧ c.2.warp = w)
    let frame := fun (t : State) => exec (.intent x) s = .next t ∧ t = { s with warps := t.warps, intents := t.intents } ∧
      ∀ u, u ≠ w → t.warp u = s.warp u
    a.activeReal x.g ≠ 0 →
    (¬ legal → exec (.intent x) s = .next ((s.issued (.intent x) w).faultWarp w { cause := 0x022 })) ∧
    (legal → delta = 0 → ∃ t, frame t ∧ ScalarDone x.d false false 0 a (t.warp w) ∧ ∀ c, c ∈ t.intents.cells ↔ others c) ∧
    (legal → delta ≠ 0 → ¬ mine → full → ∃ t, frame t ∧ t.intents = s.intents ∧
      ScalarDone x.d false false 1 a (t.warp w)) ∧
    (legal → delta ≠ 0 → mine ∨ ¬ full → ∃ t k n, frame t ∧ ScalarDone x.d false false 0 a (t.warp w) ∧ k / 64 = die ∧
      ((∃ c ∈ s.intents.cells, c.1 = k ∧ c.2.warp = w) ∨ ∀ c ∈ s.intents.cells, c.1 = k → s.intentLive c.2 = false) ∧
      (∀ c, c ∈ t.intents.cells ↔ c = (k, n) ∨ (others c ∧ c.1 ≠ k)) ∧ n.warp = w ∧ n.delta = delta ∧
      n.start % 10000 = 0 ∧ s.time + 1000 * eta ≤ n.start ∧ n.start < s.time + 1000 * eta + 10000 ∧
      (dur = 0 → n.stop = none) ∧ (dur ≠ 0 → ∃ e, n.stop = some e ∧ e % 10000 = 0 ∧ n.start + 1000 * dur ≤ e ∧
        e < n.start + 1000 * dur + 10000))) ∧
  (∀ w s x (i : Instr), i = .ballastPf x ∨ i = .ballastStage x → Issues w i s →
    let a := s.atIssue i w
    let r := fun (k : Nat) => (a.rdS (x.a + k)).toNat
    let len := r 2 % 2 ^ 40
    let nw := bit (r 3) 39
    let aw := bits (r 3) 0 25
    let strm := bits (r 3) 36 3
    let legal := bits (r 0) 57 7 = 0 ∧ (i = .ballastPf x → r 1 = 0) ∧ bits (r 3) 40 24 = 0 ∧ bits (r 3) 25 3 = 0 ∧
      len ≠ 0 ∧ len % 128 = 0
    let faults := fun (f : Trap) => exec i s = .next ((s.issued i w).faultWarp w f)
    a.activeReal x.g ≠ 0 →
    (¬ legal → faults { cause := 0x022 }) ∧ (legal → r 0 % 128 ≠ 0 → faults { cause := 0x062, addr := r 0 }) ∧
    (legal → r 0 % 128 = 0 → r 1 % 128 ≠ 0 → faults { cause := 0x062, addr := r 1 }) ∧
    (legal → r 0 % 128 = 0 → r 1 % 128 = 0 → nw = false → aw % 16 ≠ 0 → faults { cause := 0x062, addr := aw }) ∧
    (legal → r 0 % 128 = 0 → r 1 % 128 = 0 → (nw = true ∨ aw % 16 = 0) → a.mustStall true strm (a.activeReal x.g) = 0 →
      ∃ t o, exec i s = .next t ∧ Claims.OpEnters w o a s t ∧ o.st = .flying ∧ o.instr = some i ∧ o.strm = strm ∧
        o.after = bits (r 3) 28 8 ∧ o.scope = .dev ∧ o.lanes = a.activeReal x.g ∧ o.pc = a.pc ∧
        o.args.take 6 = [r 0, r 1, len, r 2 / 2 ^ 40, b2n nw, aw])) ∧
  (∀ w s x, Issues w (.ballastCancel x) s →
    let a := s.atIssue (.ballastCancel x) w
    let v := (a.rdS x.a).toNat
    let ctl := (a.rdS (x.a + 3)).toNat
    a.activeReal x.g ≠ 0 →
    (2 ^ 16 ≤ v → exec (.ballastCancel x) s = .next ((s.issued (.ballastCancel x) w).faultWarp w { cause := 0x022 })) ∧
    (v < 2 ^ 16 → a.mustStall true (bits ctl 36 3) (a.activeReal x.g) = 0 →
      ∃ t o, exec (.ballastCancel x) s = .next t ∧ Claims.OpEnters w o a s t ∧ o.st = .flying ∧
        o.instr = some (.ballastCancel x) ∧ o.strm = bits ctl 36 3 ∧ o.after = bits ctl 28 8 ∧ o.args = [v] ∧
        o.lanes = a.activeReal x.g)) ∧
  (∀ (s : State) k lanes ext x (i : Instr),
    let o := s.op k
    let die := s.opCore o / 16
    let arg := fun (n : Nat) => o.args.getD n 0
    let past := s.pastCancel o.job die
    let entries := (List.range 16).map (die * 16 + ·)
    let answers := fun (v : Nat) (table : State → Prop) => ∃ t, exec (.memoryOpPerformed k lanes ext) s = .next t ∧
      t.op k = {} ∧ t.mem = s.mem ∧ table t ∧ Claims.Completed o ((s.warp o.warp).wrS x.d (BitVec.ofNat 64 v)) (t.warp o.warp)
    i ∈ [Instr.ballastPf x, .ballastStage x, .ballastCancel x] → o.instr = some i → o.st = .flying → o.orphan = false →
    s.copyEdges o = true → Claims.Calm (s.warp o.warp) → Claims.NoWaiters s →
    (past = true → answers 2 (fun t => t.ballast = s.ballast)) ∧
    (past = false → i = .ballastCancel x →
      (s.itemLive (arg 0) = true → answers (arg 0 * 2 ^ 8) (fun t => t.ballast.get {} (arg 0) = {} ∧
        ∀ j, j ≠ arg 0 → t.ballast.get {} j = s.ballast.get {} j)) ∧
      (s.itemLive (arg 0) = false → answers 4 (fun t => t.ballast = s.ballast))) ∧
    (past = false → i ≠ .ballastCancel x →
      ((∀ e ∈ entries, s.itemLive e = true) → answers 1 (fun t => t.ballast = s.ballast)) ∧
      (∀ e ∈ entries, s.itemLive e = false → (∀ f ∈ entries, f < e → s.itemLive f = true) →
        answers (e * 2 ^ 8) (fun t => (∀ j, j ≠ e → t.ballast.get {} j = s.ballast.get {} j) ∧
          (let n := t.ballast.get {} e
           n.live = true ∧ (n.stage = true ↔ i = .ballastStage x) ∧ n.job = o.job ∧ n.block = o.block ∧ n.va = arg 0 ∧
           n.dst = arg 1 ∧ n.len = arg 2 ∧ n.done = 0 ∧ n.late = false ∧ n.asid = o.asid ∧ n.registered = s.time ∧
           n.core = s.opCore o ∧ n.warpIdx = (s.warp o.warp).index ∧ n.pc = o.pc ∧ n.strm = o.strm ∧ n.lane = arg 6 ∧
           n.deadline = (if arg 3 = 0 then none else some (s.time + 1000 * arg 3)) ∧
           n.aw = if arg 4 = 1 then none else some (arg 5)))))) ∧
  (∀ (s : State) k lanes ext x (i : Instr),
    let o := s.op k
    i ∈ [Instr.ballastPf x, .ballastStage x, .ballastCancel x] → o.instr = some i → o.st = .flying → o.orphan = true →
    s.copyEdges o = true → ∃ t, exec (.memoryOpPerformed k lanes ext) s = .next t ∧
      t = { s with ops := t.ops, ballast := t.ballast } ∧ t.op k = {} ∧ t.ballast = (s.ballastAnswer o).2.ballast) ∧
  (∀ w s x, Issues w (.vminq x) s →
    let a := s.atIssue (.vminq x) w
    let v := (a.rdS x.a).toNat
    let r := bits v 0 8
    let die := bits v 8 5
    let y := s.regionOf die r
    a.active x.g ≠ 0 →
    (2 ^ 13 ≤ v ∨ 95 < r ∨ 23 < die →
      exec (.vminq x) s = .next ((s.issued (.vminq x) w).faultWarp w { cause := 0x022 })) ∧
    (v < 2 ^ 13 → r ≤ 95 → die ≤ 23 → ∃ t, exec (.vminq x) s = .next t ∧
      t = { s with warps := t.warps, regions := t.regions } ∧ (∀ u, u ≠ w → t.warp u = s.warp u) ∧
      t.warp w = { a with s := (t.warp w).s } ∧ KeepsRegs [⟨.s, x.d⟩, ⟨.s, x.d + 1⟩] a (t.warp w) ∧
      (x.d ≠ 0 → (t.warp w).rdS x.d = BitVec.ofNat 64 (y.droops * 2 ^ 32 +
        (if s.regionOn die r then 0x0546 else 0) * 2 ^ 16 + y.vmin)) ∧
      (t.warp w).rdS (x.d + 1) = BitVec.ofNat 64 y.vtime ∧
      t.regionOf die r = { y with droops := 0, vmin := 0xFFFF, vtime := 0 } ∧
      ∀ k, k ≠ die * 96 + r → t.regions.get {} k = s.regions.get {} k)) ∧
  (∀ w s x, Issues w (.capq x) s →
    let a := s.atIssue (.capq x) w
    let die := (a.rdS x.a).toNat
    let y := s.bank die
    a.active x.g ≠ 0 →
    (24 ≤ die → exec (.capq x) s = .next ((s.issued (.capq x) w).faultWarp w { cause := 0x022 })) ∧
    (die < 24 → ∃ t, exec (.capq x) s = .next t ∧ t = { s with warps := t.warps, capBanks := t.capBanks } ∧
      (∀ u, u ≠ w → t.warp u = s.warp u) ∧
      ScalarDone x.d false false (BitVec.ofNat 64 (y.qmin * 2 ^ 48 + y.vbank * 2 ^ 16 + y.charge)) a (t.warp w) ∧
      t.bank die = (if bit x.c 0 then { y with qmin := y.charge } else y) ∧ ∀ d, d ≠ die → t.bank d = s.bank d)) ∧
  (∀ w s x, Issues w (.rampq x) s →
    let a := s.atIssue (.rampq x) w
    let r := s.gov.prev
    a.active x.g ≠ 0 → ∃ t v, exec (.rampq x) s = .next t ∧ OnlyWarp w s t ∧
      ScalarDone x.d false false (BitVec.ofNat 64 v) a (t.warp w) ∧ v < 2 ^ 64 ∧
      (x.c = 0 → bits v 0 16 = r.rate % 2 ^ 16 ∧ bits v 16 16 = r.target % 2 ^ 16 ∧ bits v 32 16 = r.ballast % 2 ^ 16 ∧
        bits v 48 16 = r.slew % 2 ^ 16) ∧
      (x.c = 1 → bits v 0 48 = r.interval % 2 ^ 48 ∧ bits v 48 8 = r.state % 2 ^ 8 ∧
        bits v 56 8 = s.gov.emerg % 2 ^ 8) ∧
      (x.c = 2 → bits v 0 16 = r.demand % 2 ^ 16 ∧ bits v 16 16 = r.need % 2 ^ 16 ∧ bits v 32 6 = 0 ∧
        bits v 38 8 = s.gov.lost % 2 ^ 8 ∧ bits v 46 9 = r.theta % 2 ^ 9 ∧ bits v 55 9 = r.members % 2 ^ 9))

/-- An emergency `cond` of a die is counted, and reported with its value in an entry of kind 4 (R392, R451); nothing else
of the completions and of the count changes. -/
def Sys2Proof.Claims.Emergency (s t : State) (die cond val : Nat) : Prop :=
  t.gov.emerg = Nat.min 255 (s.gov.emerg + 1) ∧ ∃ port, port < 2 ∧
    t.completions = s.completions ++ [⟨port, 4 + die * 2 ^ 8 + 0xFFFF * 2 ^ 16 + cond * 2 ^ 32, s.time, val, 0⟩]

/-- Nothing of emergencies. -/
def Sys2Proof.Claims.NoEmergency (s t : State) : Prop := t.gov.emerg = s.gov.emerg ∧ t.completions = s.completions

/-- R382–R396, R403–R405, R408, R457, R458: a tick grants from the larder; a refill sets tokens aside, fixes the quotas
and overflows as ballast; an interval begins, the aggregate arrives and the rate follows it no faster than the slew,
with the cap binding at once; samples raise and end emergencies, each counted and reported once, and a hot core asks for a
migration; regions of a feed group switch on for work in order, after a soft start where the group is loaded, and off after
50 µs without it; an item runs on ballast in its turn, or past its deadline on die draws, and its word is counted; what
items leave of it goes to the classes below. Rests on choices of the model: log entries 62, 63, 65, 66, 67, 70, 109. -/
def Obligations.PowerEvents : Prop :=
  (∀ (s : State) die, die < 24 →
    let l := s.larder die
    let due := s.powered = true ∧ 32 * (l.ticks + 1) ≤ s.cycles
    let pool := l.level + l.setAside
    (¬ due → exec (.pantryRefill die) s = .next s) ∧
    (due → ∃ t n, exec (.pantryRefill die) s = .next t ∧
      t = { s with warps := t.warps, pantries := t.pantries, larders := t.larders, gov := t.gov, free := t.free } ∧
      (∀ d, d ≠ die → t.larder d = s.larder d) ∧ (t.larder die).ticks = l.ticks + 1 ∧
      (t.larder die).drawn = l.drawn + BitVec.ofNat 64 n ∧ (t.larder die).level + (t.larder die).setAside ≤ pool ∧
      (∀ c, c / 16 ≠ die → t.pantry c = s.pantry c) ∧
      (∀ c, c / 16 = die → (s.pantry c).level ≤ (t.pantry c).level ∧
        (t.pantry c).level ≤ Nat.max (s.pantry c).level (Nat.min 262144 ((s.pantry c).level + s.quotaOf c)) ∧
        (s.mapped c = false ∨ s.holdsBlock c = false ∨ s.coreReady c = false ∨ l.hot = true ∨ l.capLow = true →
          (t.pantry c).level = (s.pantry c).level)) ∧
      (∀ c, c / 16 = die → (∀ d, d / 16 = die → d ≠ c → s.holdsBlock d = false) → s.mapped c = true →
        s.holdsBlock c = true → s.coreReady c = true → l.hot = false → l.capLow = false →
        (t.pantry c).level = (s.pantry c).level +
          Nat.min (262144 - (s.pantry c).level) (Nat.min (s.quotaOf c) (l.level - n + l.setAside)) ∧
        (t.larder die).level + (t.larder die).setAside + ((t.pantry c).level - (s.pantry c).level) =
          l.level - n + l.setAside) ∧
      (Table.wf {} s.warps = true → ∀ w x, (s.warp w).tokenWait = some x → (s.block (s.warp w).block).core / 16 = die →
        s.mapped (s.block (s.warp w).block).core = true → t.warp w = { s.warp w with
          tokenWait := some { x with reserved := true, due := true } }))) ∧
  (∀ (s : State) die, die < 24 →
    let l := s.larder die
    let due := s.powered = true ∧ 256 * (l.refills + 1) ≤ s.time
    let lin := s.refillTokens die
    let cores := ((List.range 16).filter (fun c => s.holdsBlock (die * 16 + c))).length
    (l.hot = true ∨ s.gov.dip = true ∨ s.gov.flowStop = true → lin = 0) ∧
    (l.hot = false → s.gov.dip = false → s.gov.flowStop = false → l.share = none → lin = s.gov.rate * 64000 / 24) ∧
    (¬ due → exec (.larderRefill die) s = .next s) ∧
    (due → ∃ t n, exec (.larderRefill die) s = .next t ∧
      t = { s with pantries := t.pantries, larders := t.larders, gov := t.gov, free := t.free } ∧
      (∀ d, d ≠ die → t.larder d = s.larder d) ∧
      (let m := t.larder die
       let debt := l.debt + (n - l.level)
       let avail := lin - debt
       let total := (l.level - n) + l.setAside + avail
       m.refills = l.refills + 1 ∧ m.draws = 0 ∧ m.debt = debt - lin ∧ m.setAside = Nat.min avail (15565 * cores) ∧
       m.level + m.setAside = Nat.min total 67108864 ∧ m.ballast = total - 67108864 ∧
       m.spent = l.spent + (total - 67108864) ∧ m.drawn = l.drawn + BitVec.ofNat 64 n ∧
       (let c2 := Nat.min l.ballast 512000
        let c3 := Nat.min (l.ballast - c2) 128000
        let c4 := 768000 * ((List.range 17).filter (bit m.tested)).length
        m.classes = [c2, c3, c4, Nat.min (l.ballast - c2 - c3 - c4) 32000000] ∧ c2 + c3 + c4 ≤ l.ballast) ∧
       (∀ p, bit m.tested p = true → p < 17 ∧ s.phys.get 0 (die * 17 + p) ≠ 3 ∧ (s.regionOf die (4 * p)).on = true ∧
         s.regionWanted die (4 * p) = false) ∧
       (∀ c, c / 16 = die → t.pantry c = { s.pantry c with
         quota := Nat.max 1024 ((lin - (l.draws + n)) * 10 / (152 * Nat.max cores 1)) })) ∧
      ∀ c, c / 16 ≠ die → t.pantry c = s.pantry c)) ∧
  (∀ q, (q ≤ 392 → thetaOf q = 256) ∧ (392 ≤ q → thetaOf q = Nat.max 166 (256 - (16 * (q - 392) + 4) / 5))) ∧
  (∀ (s : State) k x now step, s.intents.cells = [(k, x)] → 0 < x.delta → now < x.start → (s.warp x.warp).live = true →
    (s.block (s.warp x.warp).block).standing = true → (s.job (s.block (s.warp x.warp).block).job).cancelled = false →
    s.needAt now step = x.delta.natAbs - step * (x.start - now) / 10000) ∧
  (∀ (s : State),
    let g := s.gov
    let due := s.powered = true ∧ 10000 * (g.interval + 1) ≤ s.time
    (¬ due → exec .governorInterval s = .next s) ∧
    (due → ∃ u t, exec .rateUpdate s = .next u ∧ exec .governorInterval s = .next t ∧
      (let g := u.gov
       let own := t.gov.own
       let hottest := fun (d : Nat) => if (u.larder d).tjMax = 0 then (u.larder d).tj else (u.larder d).tjMax
       t = { u with gov := t.gov, larders := t.larders, intents := t.intents } ∧
       t.gov = { g with
         interval := g.interval + 1, due := true, slew := g.slewDue, demand := 0, inputMin := g.input, own := own
         need := u.needAt (10000 * (g.interval + 1)) (g.slewDue / 100), limit := t.gov.limit
         prev := { g.cur with ballast := t.gov.prev.ballast }
         aggregate := if g.group.isSome then none else some own } ∧
       t.gov.limit = Nat.min (if 96000 ≤ g.inputMin then 12000 else (g.inputMin - 88000) * 3 / 2)
         (if g.flow < 900 then 12000 * g.flow / 900 else 12000) ∧
       own.demand = g.demand * 4 / 10 ^ 7 ∧ own.need = g.need ∧ own.members = 1 ∧ own.slew = g.slewDue ∧
       (∀ d, d < 24 → own.theta ≤ thetaOf (hottest d)) ∧ (∃ d, d < 24 ∧ own.theta = thetaOf (hottest d)) ∧
       ((∀ d, d < 24 → (u.larder d).spent = 0) → t.gov.prev.ballast = 0) ∧
       ((∃ d, d < 24 ∧ (u.larder d).spent ≠ 0) → t.gov.prev.ballast = g.cur.rate - own.demand) ∧
       (∀ d, d < 24 → t.larder d = { u.larder d with spent := 0, tjMax := 0 }) ∧
       ∀ c ∈ t.intents.cells, c ∈ u.intents.cells))) ∧
  (∀ (s : State) d n th sl m,
    let a : Aggregate := { demand := d, need := n, theta := th, slew := sl, members := m }
    let own := s.gov.own
    let fits := s.gov.due = true ∧ s.time < 10000 * s.gov.interval + 2000 ∧ own.demand ≤ d ∧ own.need ≤ n ∧ 166 ≤ th ∧
      th ≤ own.theta ∧ 100 ≤ sl ∧ sl ≤ own.slew ∧ 1 ≤ m ∧ m ≤ 256 ∧
      ∃ id, s.gov.group = some id ∧ ∀ k, s.groupSize id = some k → m = k
    (fits → exec (.powerAggregate d n th sl m) s = .next { s with gov := { s.gov with aggregate := some a } }) ∧
    (¬ fits → exec (.powerAggregate d n th sl m) s = .next s)) ∧
  (∀ (s : State),
    let g := s.gov
    let due := s.powered = true ∧ g.due = true ∧ 10000 * g.interval + 2000 ≤ s.time
    (¬ due → exec .rateUpdate s = .next s) ∧
    (due → ∃ t, exec .rateUpdate s = .next t ∧ t = { s with gov := t.gov, larders := t.larders } ∧ t.gov.due = false ∧
      t.gov.prev = g.prev ∧ t.gov.emerg = g.emerg ∧
      (g.aggregate = none → t.gov.rate = g.rate ∧ t.gov.lost = Nat.min 255 (g.lost + 1) ∧
        t.gov.cur = { g.cur with interval := g.interval }) ∧
      (∀ a, g.aggregate = some a →
        let dn := a.demand / a.members + a.need / a.members
        let cap := Nat.min (12000 * a.theta / 256) g.limit
        let target := Nat.min cap (Nat.max 2400 dn)
        let r := if g.rate < target then Nat.min target (g.rate + a.slew / 100)
          else Nat.max target (g.rate - a.slew / 100)
        t.gov.rate = Nat.min r cap ∧ t.gov.rate ≤ cap ∧ t.gov.rate ≤ g.rate + a.slew / 100 ∧ t.gov.lost = g.lost ∧
        t.gov.cur.rate = t.gov.rate ∧ t.gov.cur.target = target ∧ t.gov.cur.interval = g.interval ∧
        t.gov.cur.demand = a.demand / a.members ∧ t.gov.cur.need = a.need / a.members ∧ t.gov.cur.theta = a.theta ∧
        t.gov.cur.members = a.members ∧ t.gov.cur.slew = a.slew) ∧
      (∀ d, (s.larder d).share = none → t.larder d = s.larder d) ∧
      (∀ d x, d < 24 → (s.larder d).share = some x → s.withheld d = false → t.larder d = { s.larder d with
        share := if t.gov.rate ≤ 24 * (x + t.gov.cur.slew / 100) then none else some (x + t.gov.cur.slew / 100) }))) ∧
  (∀ (s : State) die tj hot, die < 24 →
    let l := s.larder die
    let spare := (List.range 17).any (fun p => s.phys.get 0 (die * 17 + p) == 1)
    let m := { l with
      tj := tj, tjMax := Nat.max l.tjMax tj
      hotCore := match hot with
        | some c => if spare && l.hotCore.isNone then some (c % 16, s.time) else l.hotCore
        | none => l.hotCore }
    ∃ t, exec (.tjSample die tj hot) s = .next t ∧
      t = { s with larders := t.larders, gov := t.gov, completions := t.completions, free := t.free } ∧
      (∀ d, d ≠ die → t.larder d = s.larder d) ∧
      (420 ≤ tj → l.hot = false → t.larder die = { m with hot := true, share := none } ∧
        Claims.Emergency s t die 0 tj) ∧
      (tj ≤ 408 → l.hot = true → Claims.NoEmergency s t ∧ t.larder die = { m with
        hot := false, share := if s.gov.dip = true ∨ s.gov.flowStop = true then l.share else some 0 }) ∧
      (¬ (420 ≤ tj ∧ l.hot = false) → ¬ (tj ≤ 408 ∧ l.hot = true) → t.larder die = m ∧ Claims.NoEmergency s t)) ∧
  (∀ (s : State) die charge v, die < 24 →
    let l := s.larder die
    let y := s.bank die
    let sampled := fun (t : State) => t.bank die =
      { qmin := Nat.min y.qmin (charge % 2 ^ 16), vbank := v % 2 ^ 16, charge := charge % 2 ^ 16 }
    (v < 3400 → ∃ t, exec (.capBankLow die charge v) s = .next t ∧ sampled t ∧ t.larder die = { l with capLow := true } ∧
      (l.capLow = false → Claims.Emergency s t die 1 v) ∧ (l.capLow = true → Claims.NoEmergency s t)) ∧
    (3400 ≤ v → ∃ t, exec (.capacitorBankRecovery die charge v) s = .next t ∧ sampled t ∧
      t.larder die = { l with capLow := if 3500 ≤ v then false else l.capLow } ∧ Claims.NoEmergency s t)) ∧
  (∀ (s : State) die q, die < 24 → (s.hbms.get {} die).refresh ≤ 2 →
    let h := s.hbms.get {} die
    let class_ := if 380 < q then 2 else if 340 < q then 1 else 0
    ∃ t, exec (.hbmCaseSample die q) s = .next t ∧
      t = { s with hbms := t.hbms, gov := t.gov, completions := t.completions, free := t.free } ∧
      (t.hbms.get {} die).hot = (if 420 ≤ q then true else if q ≤ 400 then false else h.hot) ∧
      (420 ≤ q ∧ h.hot = false → Claims.Emergency s t die 2 q) ∧
      (¬ (420 ≤ q ∧ h.hot = false) → Claims.NoEmergency s t) ∧
      class_ ≤ (t.hbms.get {} die).refresh ∧ (h.refresh ≤ class_ → (t.hbms.get {} die).refresh = class_) ∧
      (q ≤ 332 → (t.hbms.get {} die).refresh = 0) ∧ (h.refresh = 2 → 372 < q → (t.hbms.get {} die).refresh = 2) ∧
      (h.refresh = 1 → 332 < q → q ≤ 340 → (t.hbms.get {} die).refresh = 1)) ∧
  (∀ (s : State) region v,
    let y := s.regions.get {} region
    let x := Nat.min v 0xFFFE
    (s.regionOn (region / 96) (region % 96) = false → exec (.ivrSample region v) s = .next s) ∧
    (s.regionOn (region / 96) (region % 96) = true → ∃ t, exec (.ivrSample region v) s = .next t ∧
      t = { s with regions := t.regions } ∧ (∀ k, k ≠ region → t.regions.get {} k = s.regions.get {} k) ∧
      t.regions.get {} region = { y with
        droops := if x + 50 < 0x0546 then Nat.min 0xFFFF (y.droops + 1) else y.droops, vmin := Nat.min y.vmin x
        vtime := if x < y.vmin then s.time else y.vtime })) ∧
  (∀ (s : State) v,
    let g := s.gov
    let new := (if 120000 < v ∧ g.over60 = false then 1 else 0) + (if v < 96000 ∧ g.under48 = false then 1 else 0) +
      (if v < 88000 ∧ g.dip = false then 1 else 0)
    ∃ t, exec (.inputVoltageSample v) s = .next t ∧
      t = { s with larders := t.larders, gov := t.gov, completions := t.completions, free := t.free } ∧
      t.gov = { g with
        input := v, inputMin := Nat.min g.inputMin v, under48 := decide (v < 96000), dip := decide (v < 88000)
        over60 := decide (120000 < v), dipSince := if g.dip then g.dipSince else s.time, emerg := t.gov.emerg } ∧
      (g.emerg ≤ 255 → t.gov.emerg = Nat.min 255 (g.emerg + new)) ∧
      t.completions.length = s.completions.length + new ∧
      (∀ d, d < 24 → t.larder d = if g.dip = true ∧ 88000 ≤ v ∧ (s.larder d).hot = false ∧ g.flowStop = false then
        { s.larder d with share := some 0 } else s.larder d)) ∧
  (∀ (s : State),
    let lost := s.powered = true ∧ ((s.gov.dip = true ∧ s.gov.dipSince + 1000000 ≤ s.time) ∨ 124000 < s.gov.input)
    (lost → ∃ t, exec .supplyLost s = .next t ∧ t.powered = false ∧ t.ready = false ∧ t.mem = {} ∧ t.warps = {} ∧
      t.blocks = {} ∧ t.jobs = {} ∧ t.gov = { supplyLost := true }) ∧
    (¬ lost → exec .supplyLost s = .next s)) ∧
  (∀ (s : State) f,
    let g := s.gov
    ∃ t, exec (.flowSample f) s = .next t ∧
      t = { s with larders := t.larders, gov := t.gov, completions := t.completions, free := t.free } ∧
      t.gov = { g with flow := f, flowLow := decide (f < 900), flowStop := decide (f < 600), emerg := t.gov.emerg } ∧
      (f < 900 ∧ g.flowLow = false → Claims.Emergency s t 0xFF 6 f) ∧
      (¬ (f < 900 ∧ g.flowLow = false) → Claims.NoEmergency s t) ∧
      (∀ d, d < 24 → t.larder d = if g.flowStop = true ∧ 600 ≤ f ∧ (s.larder d).hot = false ∧ g.dip = false then
        { s.larder d with share := some 0 } else s.larder d)) ∧
  (∀ (s : State) die r, die < 24 → r < 96 →
    let y := s.regionOf die r
    let region := die * 96 + r
    let switches := fun (q : Nat) => q < 68 ∨ (84 ≤ q ∧ q < 88)
    let on := s.powered = true ∧ switches r ∧ y.on = false ∧ s.regionWanted die r = true
    let behind := ∃ q, q / 8 = r / 8 ∧ q ≠ r ∧ switches q ∧ (s.regionOf die q).on = false ∧
      ((s.regionOf die q).grantAt ≠ none ∨ (q < r ∧ s.regionWanted die q = true))
    let becomes := fun (t : State) (n : Region) => t = { s with
        regions := t.regions, pantries := t.pantries, free := t.free } ∧
      (∀ k, k ≠ region → t.regions.get {} k = s.regions.get {} k) ∧ t.regionOf die r = n ∧
      ∀ c, t.pantry c = { s.pantry c with level := (t.pantry c).level, halfUntil := (t.pantry c).halfUntil }
    let granted := fun (t : State) => becomes t { y with on := true, since := s.time, grantAt := none } ∧
      (∀ c, c < 16 → r < 68 → s.mapped (die * 16 + c) = true → s.physOf (die * 16 + c) % 17 = r / 4 →
        (t.pantry (die * 16 + c)).level = 0) ∧
      ∀ c, ((t.pantry c).level = (s.pantry c).level ∨ (t.pantry c).level = 0) ∧
        (t.pantry c).halfUntil = (s.pantry c).halfUntil
    let soft := fun (t : State) => becomes t { y with grantAt := some (s.time + 10000) } ∧
      (∀ c, c < 16 → s.mapped (die * 16 + c) = true → 4 * (s.physOf (die * 16 + c) % 17) / 8 = r / 8 →
        (t.pantry (die * 16 + c)).halfUntil = s.time + 10000) ∧
      ∀ c, (t.pantry c).level = (s.pantry c).level ∧
        ((t.pantry c).halfUntil = (s.pantry c).halfUntil ∨ (t.pantry c).halfUntil = s.time + 10000)
    let last := if r < 68 then s.lastBusy.get 0 (die * 17 + r / 4) else s.lastBusy.get 0 (24 * 17 + die * 4 + (r - 84))
    let off := switches r ∧ y.on = true ∧ s.regionWanted die r = false ∧ last + 50000 ≤ s.time ∧
      ¬ (r < 68 ∧ bit (s.larder die).tested (r / 4) = true)
    (¬ on → exec (.regionPowerOn region) s = .next s) ∧ (¬ off → exec (.regionPowerOff region) s = .next s) ∧
    (∀ g, on → y.grantAt = some g → s.time < g → exec (.regionPowerOn region) s = .next s) ∧
    (∀ g, on → y.grantAt = some g → g ≤ s.time → ∃ t, exec (.regionPowerOn region) s = .next t ∧ granted t) ∧
    (on → y.grantAt = none → behind → exec (.regionPowerOn region) s = .next s) ∧
    (on → y.grantAt = none → ¬ behind → ∃ t, exec (.regionPowerOn region) s = .next t ∧ (granted t ∨ soft t)) ∧
    (off → ∃ t, exec (.regionPowerOff region) s = .next t ∧ t = { s with regions := t.regions } ∧
      (∀ k, k ≠ region → t.regions.get {} k = s.regions.get {} k) ∧ t.regionOf die r = { y with on := false })) ∧
  (∀ (s : State) k, s.itemLive k = true →
    let x := s.ballast.get {} k
    let late := x.late = true ∨ ∃ d, x.deadline = some d ∧ d ≤ s.time
    let price := if x.stage then 2560 else 1280
    let pace := 2 * (x.done + 1) ≤ 25 * (s.time - x.registered)
    (∀ d, x.deadline = some d → d ≤ s.time →
      exec (.ballastDeadline k) s = .next { s with ballast := s.ballast.set {} k { x with late := true } }) ∧
    (∀ d, x.deadline = some d → s.time < d → exec (.ballastDeadline k) s = .next s) ∧
    (x.deadline = none → exec (.ballastDeadline k) s = .next s) ∧
    (∀ fault, x.len ≤ 128 * x.done →
      (s.itemWord x = none → exec (.ballastItemComplete k 0 fault) s = .next (s.dropItem k)) ∧
      (∀ b off, s.itemWord x = some (b, off) → Claims.Countable s b → ∃ aw, x.aw = some aw ∧ off = aw % 2 ^ 20 ∧
        ∃ t, exec (.ballastItemComplete k 0 fault) s = .next t ∧ t.ballast.get {} k = {} ∧ t.mem = s.mem ∧
          t.aword b off = (s.aword b off).increment x.len)) ∧
    (128 * x.done < x.len → ¬ pace ∨ (¬ late ∧ (s.itemTurn k = false ∨ s.spendBallast price = none)) →
      ∀ lines fault, exec (.ballastItemComplete k lines fault) s = .next s) ∧
    (∀ s1, 128 * x.done < x.len → pace →
      (late ∧ s1 = s.dieDraw (k / 16) price) ∨ (¬ late ∧ s.itemTurn k = true ∧ s.spendBallast price = some s1) →
      let c : Ctx := { core := x.core, block := x.block, asid := x.asid }
      let va := x.va + 128 * x.done
      let dst := x.dst + 128 * x.done
      (x.stage = false → ∃ t, exec (.ballastItemComplete k 0 none) s = .next t ∧ t.mem = s.mem ∧
        t.ballast.get {} k = { x with done := x.done + 1 }) ∧
      (∀ pa nc ms pb nc' ms' s2 s3, x.stage = true →
        s1.engineCheck c { read := true } va 128 = (.ok (.home pa nc ms), s2) →
        s2.engineCheck c { write := true } dst 128 = (.ok (.home pb nc' ms'), s3) → bits pa 50 2 + bits pb 50 2 = 1 →
        pb % 128 = 0 → s3.homeHeld pa ms = false →
        (if ms then s3 else s3.noteRdc (x.core / 16) pa nc ms).homeHeld pb ms' = false →
        ∃ t, exec (.ballastItemComplete k 0 none) s = .next t ∧ t.ballast.get {} k = { x with done := x.done + 1 } ∧
          Claims.homeBytes t ms' 128 pb = Claims.homeBytes s3 ms 128 pa ∧
          ∀ q, q < pb ∨ pb + 128 ≤ q → t.mem.read q = s.mem.read q) ∧
      (∀ f s2, x.stage = true → s1.engineCheck c { read := true } va 128 = (.error f, s2) → x.aw = none →
        ∃ t, exec (.ballastItemComplete k 0 none) s = .next t ∧ t.ballast.get {} k = {} ∧ t.mem = s.mem ∧
          t.warps = s.warps))) ∧
  (∀ (s : State) k lines fault, s.itemLive k = false →
    exec (.ballastItemComplete k lines fault) s = .next s ∧ exec (.ballastDeadline k) s = .next s)

/-! ## The platform (spec/24) -/

/-- A ring has an entry to execute, and its turn. -/
def Sys2Proof.Claims.Turn (k : Nat) (s : State) : Prop := s.ringPending k = true ∧ s.ringTurn k = true

/-- A command leaves its ring as `r`, and the turn passes to the ring after; nothing else of rings, memory, warps and
blocks. -/
def Sys2Proof.Claims.Moves (k : Nat) (r : Ring) (s t : State) : Prop :=
  t.ring k = r ∧ (∀ j, j ≠ k → t.ring j = s.ring j) ∧ t.nextRing.get 0 (k / 16) = (k % 16 + 1) % 16 ∧
  t.mem = s.mem ∧ t.warps = s.warps ∧ t.blocks = s.blocks

/-- R449, R451: a ring stops at its entry with a reason, and the host gets a command error. -/
def Sys2Proof.Claims.RingStops (k opcode reason : Nat) (s t : State) : Prop :=
  let r := s.ring k
  ∃ e : Word, Claims.Moves k { r with error := e } s t ∧ bit e.toNat 63 = true ∧ bits e.toNat 16 16 = r.head % 2 ^ 16 ∧
    bits e.toNat 8 8 = reason % 2 ^ 8 ∧ bits e.toNat 0 8 = opcode % 2 ^ 8 ∧ bits e.toNat 32 31 = 0 ∧
    t.completions = s.completions ++
      [⟨k / 16, 5 + 0xFF * 2 ^ 8 + 0xFFFF * 2 ^ 16 + k * 2 ^ 32, e.toNat, r.head, 0⟩] ∧ t.ringPending k = false

/-- R259, R260, R453: a host launch has made a job with one grid in its processor's queue, and the binding held for its
entry is attached. -/
def Sys2Proof.Claims.HostLaunches (k : Nat) (l : Launch) (s t : State) : Prop :=
  let r := s.ring k
  Claims.Moves k { r with head := (r.head + 1) % 2 ^ r.size } s t ∧ t.completions = s.completions ∧
  ∃ j e, 1 ≤ j ∧ j ≤ 0xFFFE ∧ (s.job j).live = false ∧ t.job j = { live := true, asid := r.asid, port := k / 16 } ∧
    (∀ i, i ≠ j → t.job i = s.job i) ∧ e / 4096 = 24 + k / 16 ∧ (s.entry e).live = false ∧
    (∀ i, i ≠ e → t.entry i = s.entry i) ∧
    t.entry e = { live := true, job := j, rcd := l, grid := s.nextGrid, seq := s.nextSeq } ∧
    t.ringJobs.get 0 (k * 65536 + r.head) = j ∧
    (∀ h, s.held.find? (fun h => h.ring == k && h.entry == r.head) = some h → t.groups.get {} j = h.group)

/-- R259, R260, R277, R449–R451: the rings of a processor take one entry each in turn; each command does what R450
says; an unknown opcode and a LOOP with a count of 0 stop the ring; a write of size lets a stopped ring go on. Rests
on choices of the model: log entries 26, 72, 73. -/
def Obligations.RingCommands : Prop :=
  (∀ (s : State) k (i : Instr), ¬ Claims.Turn k s →
    i ∈ ([.cmdNop k, .cmdWaitj k 1, .commandError k 8] : List Instr) ∨
      (∃ va m v e, i = .cmdWaitv k va m v e ∨ i = .cmdLoop k va m ∨ i = .cmdJumpv k va m e ∨ i = .cmdCancel k va) ∨
      (∃ va sz ext, i = .cmdLaunch k va ext ∨ i = .cmdLaunchi k va sz ext) → exec i s = .next s) ∧
  (∀ (s : State) k, s.ringTurn k = true → ∀ j, j / 16 = k / 16 → s.ringTurn j = true → j = k) ∧
  (∀ (s : State) port asid va n ext b s1, va % n = 0 → isWindow va = false → va < 2 ^ 57 →
    s.translate (24 + port) asid va = (some b, s1) → bit b.pte 1 = true → bits (b.pa va) 50 2 ≠ 3 →
    ∀ pa nc ms, s1.placeOf b.pte (b.pa va) n { read := true } = .ok (.home pa nc ms) ∨
        (ms = false ∧ s1.placeOf b.pte (b.pa va) n { read := true } = .ok (.self pa)) →
      s.cpRead port asid va n ext = (if s1.homeHeld pa ms then CpRead.wait else .bytes (Claims.homeBytes s1 ms n pa), s1)) ∧
  (∀ (s : State) k, Claims.Turn k s →
    let r := s.ring k
    let next : Ring := { r with head := (r.head + 1) % 2 ^ r.size }
    let jump := fun (n : Nat) => { r with head := n % 2 ^ r.size }
    let moves := fun (i : Instr) (x : Ring) => ∃ t, exec i s = .next t ∧ Claims.Moves k x s t ∧
      t.completions = s.completions ∧ t.jobs = s.jobs ∧ t.entries = s.entries
    let reads := fun (va n : Nat) (ext : List Nat) => s.cpRead (k / 16) r.asid va n ext
    moves (.cmdNop k) next ∧
    (∀ j, moves (.cmdWaitj k j) (if (s.job j).live then r else next)) ∧
    (∀ va mask value x,
      (∀ bs s1, reads va 8 ((bytesOf 8 x).map BitVec.toNat) = (.bytes bs, s1) → moves (.cmdWaitv k va mask value x)
        (if ofBytes bs &&& mask % 2 ^ 64 = value % 2 ^ 64 then next else r)) ∧
      (∀ s1, reads va 8 ((bytesOf 8 x).map BitVec.toNat) = (.wait, s1) → moves (.cmdWaitv k va mask value x) r)) ∧
    (∀ va target x,
      (∀ bs s1, reads va 8 ((bytesOf 8 x).map BitVec.toNat) = (.bytes bs, s1) → moves (.cmdJumpv k va target x)
        (if ofBytes bs = 0 then next else jump target)) ∧
      (∀ s1, reads va 8 ((bytesOf 8 x).map BitVec.toNat) = (.wait, s1) → moves (.cmdJumpv k va target x) r)) ∧
    (∀ target count, count < 2 ^ 64 →
      (count = 0 → ∃ t, exec (.cmdLoop k target count) s = .next t ∧ Claims.RingStops k 0x05 0x02 s t) ∧
      (count ≠ 0 →
        let n := if r.loop = 0 then count - 1 else r.loop.toNat - 1
        (n = 0 → moves (.cmdLoop k target count) { next with loop := 0 }) ∧
        (n ≠ 0 → moves (.cmdLoop k target count) { jump target with loop := BitVec.ofNat 64 n }))) ∧
    (∀ op, 8 ≤ op → op < 256 → ∃ t, exec (.commandError k op) s = .next t ∧ Claims.RingStops k op 0x01 s t) ∧
    (∀ j, r.cancelling = none →
      ((s.job j).live = false ∨ (s.job j).asid ≠ r.asid → moves (.cmdCancel k j) next) ∧
      ((s.job j).live = true → (s.job j).asid = r.asid → (s.job j).cancelled = false →
        ∃ t, exec (.cmdCancel k j) s = .next t ∧ Claims.Moves k { r with cancelling := some j } s t ∧
          t.job j = { s.job j with cancelled := true } ∧ (∀ i, i ≠ j → t.job i = s.job i) ∧
          ∀ c, c ∈ t.entries.cells ↔ c ∈ s.entries.cells ∧ ¬ (c.2.live = true ∧ c.2.job = j ∧ 24 * 4096 ≤ c.1))) ∧
    (∀ j c, r.cancelling = some c →
      ((s.job c).live = false ∨ (s.job c).passed = allDies → moves (.cmdCancel k j) { next with cancelling := none }) ∧
      ((s.job c).live = true → (s.job c).cancelled = true → (s.job c).passed ≠ allDies → moves (.cmdCancel k j) r)) ∧
    (∀ va ext bs s1, reads va 128 ext = (.bytes bs, s1) →
      (recordBad bs = false → (s.loftUsed (24 + k / 16)).length < 4096 →
        (s.jobs.cells.filter (fun c => c.2.live)).length < 65534 →
        ∃ t, exec (.cmdLaunch k va ext) s = .next t ∧ Claims.HostLaunches k (Launch.of bs) s t) ∧
      (recordBad bs = true → ∃ t, exec (.cmdLaunch k va ext) s = .next t ∧ t.jobs = s.jobs ∧ t.entries = s.entries ∧
        ((Claims.Moves k next s t ∧ t.completions = s.completions) ∨ ∃ w, Claims.RingStops k 0x01 w s t)) ∧
      ∀ at_ n s2, s1.cpRead (k / 16) r.asid at_ 4 (ext.drop 128) = (.bytes n, s2) →
        let bs1 := bs.take 0x28 ++ n ++ bs.drop 0x2C
        (ofBytes n = 0 → moves (.cmdLaunchi k va at_ ext) next) ∧
        (ofBytes n ≠ 0 → recordBad bs1 = false → (s.loftUsed (24 + k / 16)).length < 4096 →
          (s.jobs.cells.filter (fun c => c.2.live)).length < 65534 →
          ∃ t, exec (.cmdLaunchi k va at_ ext) s = .next t ∧ Claims.HostLaunches k (Launch.of bs1) s t))) ∧
  (∀ (s : State) k size, s.ready = true → k < 32 →
    let r := s.ring k
    ∃ t, exec (.ringSizeWrite k size) s = .next t ∧ t = { s with rings := t.rings } ∧ (∀ j, j ≠ k → t.ring j = s.ring j) ∧
      (size = 0 ∨ (6 ≤ size ∧ size ≤ 16) → (t.ring k).size = size) ∧
      t.ring k = { r with size := (t.ring k).size, error := (t.ring k).error } ∧
      bit (t.ring k).error.toNat 63 = false ∧ bits (t.ring k).error.toNat 0 63 = bits r.error.toNat 0 63)

/-- R452: the request has ended with a status and a response; the rest of the mailbox is as before. -/
def Sys2Proof.Claims.Replies (status : Nat) (resp : List Byte) (s t : State) : Prop :=
  t.mailbox = { s.mailbox with status := status, respLen := resp.length, response := t.mailbox.response } ∧
  ∀ i, t.mailbox.response.read i = resp.getD i 0

/-- A request for command `c` runs: its word holds just the command, and the module is not in recovery (R452, R454). -/
def Sys2Proof.Claims.Requests (c : Nat) (s : State) : Prop :=
  s.mailbox.status = 3 ∧ s.reqNat 0x100 8 = c ∧ s.recovery = false

/-- R446–R448, R452–R454, R456: the lock is taken, and released by its owner; a request runs from its doorbell to its
status; in recovery, and for a command or an operand that the rules do not allow, it is BAD, and BUSY for a job whose
first block is placed; each command does what R452 and R453 say; a register write reaches what it names; the sensor
read returns the words of R406. Rests on choices of the model: log entries 6, 75. -/
def Obligations.Mailbox : Prop :=
  (∀ (s : State) n,
    (s.mailbox.owner = 0 → 1 ≤ n → n ≤ 3 →
      exec (.mailboxLockRead n) s = .next { s with mailbox := { s.mailbox with owner := n } }) ∧
    (s.mailbox.owner ≠ 0 → exec (.mailboxLockRead n) s = .next s) ∧
    (s.mailbox.owner = n → exec (.mailboxLockRelease n) s = .next { s with mailbox := { s.mailbox with owner := 0 } }) ∧
    (s.mailbox.owner ≠ n → exec (.mailboxLockRelease n) s = .next s)) ∧
  (∀ (s : State) c (i : Instr) image,
    (c, i) ∈ ([(1, .setroot), (2, .reghandler image), (3, .bindgroup), (4, .bindpower), (5, .setslew), (6, .savepool),
      (7, .retrain), (8, .attest), (9, .certs)] : List (Nat × Instr)) →
    (s.mailbox.status ≠ 3 ∨ s.reqNat 0x100 8 % 256 ≠ c → exec i s = .next s) ∧
    (s.mailbox.status = 3 → s.reqNat 0x100 8 % 256 = c → s.recovery = true ∧ c ≤ 7 ∨ 256 ≤ s.reqNat 0x100 8 →
      ∃ t, exec i s = .next t ∧ t = { s with mailbox := t.mailbox } ∧ Claims.Replies 1 [] s t)) ∧
  (∀ (s : State), s.mailbox.status = 3 → s.reqNat 0x100 8 % 256 = 0 ∨ 9 < s.reqNat 0x100 8 % 256 →
    ∃ t, exec .unlistedMailboxCommand s = .next t ∧ t = { s with mailbox := t.mailbox } ∧ Claims.Replies 1 [] s t) ∧
  (∀ (s : State),
    let arg := fun (n : Nat) => s.reqNat (0x108 + 8 * n) 8
    let bad := fun (i : Instr) => ∃ t, exec i s = .next t ∧ t = { s with mailbox := t.mailbox } ∧ Claims.Replies 1 [] s t
    let busy := fun (i : Instr) => ∃ t, exec i s = .next t ∧ t = { s with mailbox := t.mailbox } ∧ Claims.Replies 2 [] s t
    let ok := fun (i : Instr) (f : State → State) => ∃ t, exec i s = .next t ∧
      t = { f s with mailbox := t.mailbox } ∧ Claims.Replies 0 [] s t
    (Claims.Requests 1 s →
      let good := arg 0 < 2 ^ 16 ∧ arg 1 < 2 ^ 50 ∧ arg 1 % 8192 = 0 ∧ isLocal (arg 1) = true
      (¬ good → bad .setroot) ∧
      (good → ∃ t, exec .setroot s = .next t ∧ t = { s with mailbox := t.mailbox, roots := t.roots, oldRoots := t.oldRoots } ∧
        Claims.Replies 0 [] s t ∧ t.roots.get 0 (arg 0) = arg 1 ∧
        (∀ a, a ≠ arg 0 → t.roots.get 0 a = s.roots.get 0 a ∧ t.oldRoots.get [] a = s.oldRoots.get [] a) ∧
        t.oldRoots.get [] (arg 0) = s.roots.get 0 (arg 0) :: s.oldRoots.get [] (arg 0))) ∧
    (Claims.Requests 5 s →
      (arg 0 < 100 ∨ 5000 < arg 0 → bad .setslew) ∧
      (100 ≤ arg 0 → arg 0 ≤ 5000 → ok .setslew (fun s => { s with gov := { s.gov with slewDue := arg 0 } }))) ∧
    (Claims.Requests 6 s →
      let last := arg 2 + (arg 1 - 1)
      let good := arg 0 < 24 ∧ arg 1 % 65536 = 0 ∧ arg 2 % 65536 = 0 ∧ arg 3 % 65536 = 0 ∧ arg 2 < 2 ^ 50 ∧
        isLocal (arg 2) = true ∧ isLocal last = true ∧ bits (arg 2) 36 6 = arg 0 ∧ bits last 36 6 = arg 0 ∧
        arg 3 < windowBase ∧ arg 3 + arg 1 ≤ windowBase
      (¬ good → bad .savepool) ∧
      (good → ∃ t, exec .savepool s = .next t ∧ t = { s with mailbox := t.mailbox, savePools := t.savePools } ∧
        Claims.Replies 0 [] s t ∧ (∀ d, d ≠ arg 0 → t.savePools.get {} d = s.savePools.get {} d) ∧
        t.savePools.get {} (arg 0) = { bytes := arg 1, pbase := arg 2, vbase := arg 3 })) ∧
    (Claims.Requests 7 s →
      (36 ≤ arg 0 → bad .retrain) ∧
      (arg 0 < 36 → ∃ t, exec .retrain s = .next t ∧ t = { s with mailbox := t.mailbox, ports := t.ports } ∧
        Claims.Replies 0 [] s t ∧ (∀ p, p ≠ arg 0 → t.ports.get {} p = s.ports.get {} p) ∧
        (let p := s.ports.get {} (arg 0)
         t.ports.get {} (arg 0) = { p with
           state := 1, widen := true, since := if p.state = 1 then p.since else s.time
           retrains := Nat.min 255 (p.retrains + 1) }))) ∧
    (s.mailbox.status = 3 → s.reqNat 0x100 8 = 8 →
      let nonce := s.mailbox.request.readBytes 32 0x108
      ∃ t r, exec .attest s = .next t ∧ t = { s with mailbox := t.mailbox } ∧ Claims.Replies 0 r s t ∧
        r.take 32 = nonce ∧ (s.measurements.length ≤ 16 →
          (r.drop 64).take 8 = bytesOf 8 s.measurements.length ∧
          r.length = 72 + 64 * s.measurements.length + 24 * 17 + 29792 ∧
          ∀ p, p < 408 → r.getD (72 + 64 * s.measurements.length + p) 0 = BitVec.ofNat 8 (s.phys.get 0 p))) ∧
    (s.mailbox.status = 3 → s.reqNat 0x100 8 = 9 →
      ∃ t r, exec .certs s = .next t ∧ t = { s with mailbox := t.mailbox } ∧ Claims.Replies 0 r s t ∧ r.length ≤ 32768 ∧
        (Config.certLength ≤ arg 0 → r = []) ∧ (∀ i, i < r.length → r.getD i 0 = Config.certByte (arg 0 + i))) ∧
    (∀ i c, (c = 3 ∧ i = .bindgroup) ∨ (c = 4 ∧ i = .bindpower) → Claims.Requests c s →
      let fits := i = .bindpower ∨ (arg 1 < 2 ^ 32 ∧ bits (arg 1) 16 8 ≤ bits (arg 1) 24 8)
      let job := fun (j : Nat) => fits → ((s.job j).live = false → bad i) ∧
        ((s.job j).live = true → (s.job j).placed = true → busy i) ∧
        ((s.job j).live = true → (s.job j).placed = false →
          (i = .bindgroup → ∃ t, exec i s = .next t ∧ t = { s with mailbox := t.mailbox, groups := t.groups } ∧
            Claims.Replies 0 [] s t ∧ (∀ k, k ≠ j → t.groups.get {} k = s.groups.get {} k) ∧
            (let g := t.groups.get {} j
             g.live = true ∧ g.id = bits (arg 1) 0 16 ∧ g.rank = bits (arg 1) 16 8 ∧ g.n = bits (arg 1) 24 8 + 1 ∧
             g.ids.length = g.n ∧ g.asids.length = g.n ∧ ∀ k, k < g.n → g.ids.getD k 0 = s.reqNat (0x118 + k) 1 ∧
               g.asids.getD k 0 = s.reqNat (0x218 + 2 * k) 2)) ∧
          (i = .bindpower → (s.groupOf j).live = true → (s.groupOf j).id = arg 1 →
            ok i (fun s => { s with gov := { s.gov with group := some (arg 1) } })) ∧
          (i = .bindpower → (s.groupOf j).live = false ∨ (s.groupOf j).id ≠ arg 1 → bad i))
      let ring := bits (arg 0) 20 1 * 16 + bits (arg 0) 16 4
      let made := s.ringJobs.get 0 (ring * 65536 + bits (arg 0) 0 16)
      (¬ fits → bad i) ∧ (arg 0 < 2 ^ 16 → job (arg 0)) ∧ (2 ^ 16 ≤ arg 0 → arg 0 < 2 ^ 63 → bad i) ∧
      (2 ^ 63 ≤ arg 0 → bits (arg 0) 21 42 ≠ 0 → bad i) ∧
      (2 ^ 63 ≤ arg 0 → bits (arg 0) 21 42 = 0 → made ≠ 0 → job made) ∧
      (2 ^ 63 ≤ arg 0 → bits (arg 0) 21 42 = 0 → made = 0 → fits → i = .bindgroup →
        ∃ t, exec i s = .next t ∧ t = { s with mailbox := t.mailbox, held := t.held } ∧ Claims.Replies 0 [] s t ∧
          ∃ h, t.held.find? (fun h => h.ring == ring && h.entry == bits (arg 0) 0 16) = some h ∧ h.power = false ∧
            h.group.id = bits (arg 1) 0 16 ∧ h.group.rank = bits (arg 1) 16 8))) ∧
  (∀ (s : State) image, Claims.Requests 2 s →
    let w := s.reqNat 0x108 8
    let die := bits w 0 5
    let tn := bits w 8 3
    let td := fun (i : Nat) => s.reqNat (0x110 + 8 * i) 8
    let len := s.reqNat 0x138 8
    let names := w / 2 ^ 11 = 0 ∧ bits w 5 3 = 0 ∧ die < 24 ∧ s.mailbox.owner ≠ 3
    let fits := tenantBad (td 0) (td 1) (td 2) (td 3) = false ∧ len % 2 = 0 ∧ len ≤ bits (td 0) 19 7 * 1024
    let words : Tenant := { td0 := BitVec.ofNat 64 (td 0), td1 := BitVec.ofNat 64 (td 1), td2 := BitVec.ofNat 64 (td 2),
                            td3 := BitVec.ofNat 64 (td 3), td4 := 0 }
    let others := fun (t : State) => ∀ k, k / 32 ≠ die → t.slice k = s.slice k
    (¬ names ∨ (bit (td 0) 63 = true ∧ ¬ fits) → ∃ t, exec (.reghandler image) s = .next t ∧
      t = { s with mailbox := t.mailbox } ∧ Claims.Replies 1 [] s t) ∧
    (names → bit (td 0) 63 = true → fits → ∃ t, exec (.reghandler image) s = .next t ∧
      t = { s with mailbox := t.mailbox, slices := t.slices } ∧ Claims.Replies 0 [] s t ∧ others t ∧
      ∀ k, k / 32 = die → (t.slice k).tenant tn = words ∧ (∀ i, i ≠ tn → (t.slice k).tenant i = (s.slice k).tenant i) ∧
        t.slice k = { s.slice k with tenants := (t.slice k).tenants, imem := (t.slice k).imem, dmem := (t.slice k).dmem } ∧
        ∀ i, (t.slice k).imem.read i = if bits (td 0) 26 6 * 1024 ≤ i ∧ i < bits (td 0) 26 6 * 1024 + len then
          BitVec.ofNat 8 (image.getD (i - bits (td 0) 26 6 * 1024) 0) else (s.slice k).imem.read i) ∧
    (names → bit (td 0) 63 = false → ∃ t, exec (.reghandler image) s = .next t ∧ Claims.Replies 0 [] s t ∧ others t ∧
      t.mem = s.mem ∧ ∀ k, k / 32 = die → ((t.slice k).tenant tn).valid = false ∧
        (let x := (t.slice k).tenant tn
         bits x.td0.toNat 56 7 = 0 ∧ bits x.td0.toNat 39 1 = 0 ∧ bits x.td0.toNat 0 6 = 0 ∧ bits x.td2.toNat 52 12 = 0 ∧
         bits x.td3.toNat 52 12 = 0 ∧ bits x.td3.toNat 20 12 = 0) ∧
        (∀ e ∈ (t.slice k).queue, e.tenant ≠ tn) ∧
        ((s.slice k).st = .running → ∀ e, (s.slice k).event = some e → e.tenant = tn → (t.slice k).st = .idle))) ∧
  (∀ (s : State) port off size data,
    (size ≠ 4 ∧ size ≠ 8) ∨ off % size ≠ 0 → exec (.registerWrite port off size data) s = .next s) ∧
  (∀ (s : State) port data, port < 3 → data < 2 ^ 64 →
    let m := s.mailbox
    let w := fun (off : Nat) => exec (.registerWrite port (0x100000 + off) 8 data) s
    (m.owner ≠ port + 1 → ∀ off, off % 8 = 0 → off < 0x10000 → w off = .next s) ∧
    (m.owner = port + 1 →
      (data = 0 → w 0 = .next { s with mailbox := { m with owner := 0 } }) ∧
      (data = 1 → m.status ≠ 3 → w 8 = .next { s with mailbox := { m with status := 3 } }) ∧
      (∀ off, off % 8 = 0 → 0x100 ≤ off → off < 0x8000 → ∃ t, w off = .next t ∧
        t = { s with mailbox := { m with request := t.mailbox.request } } ∧
        ∀ i, t.mailbox.request.read i = if off ≤ i ∧ i < off + 8 then BitVec.ofNat 8 (data / 2 ^ (8 * (i - off)))
          else m.request.read i))) ∧
  (∀ (s : State) port n data, port < 2 → n < 16 → data < 2 ^ 64 → s.ready = true →
    let k := port * 16 + n
    let r := s.ring k
    let w := fun (off : Nat) (x : Ring) => ∃ t, exec (.registerWrite port (0x200000 + n * 4096 + off) 8 data) s = .next t ∧
      t = { s with rings := t.rings } ∧ t.ring k = x ∧ ∀ j, j ≠ k → t.ring j = s.ring j
    (r.base < 2 ^ 64 → w 0x00 { r with base := data }) ∧ w 0x10 r ∧ w 0x18 { r with tail := data % 2 ^ 16 } ∧
    w 0x20 { r with asid := data % 2 ^ 16 } ∧ w 0x28 r ∧ w 0x30 r) ∧
  (∀ (s : State) port data, port < 2 → data < 2 ^ 64 → s.ready = true →
    ∃ t, exec (.registerWrite port 0x1000000 8 data) s = .next t ∧ t = { s with selectors := t.selectors } ∧
      (∀ p, p ≠ port → t.selector p = s.selector p) ∧ bits (t.selector port) 27 21 = 0 ∧ bits (t.selector port) 5 1 = 0 ∧
      bits (t.selector port) 0 5 = bits data 0 5 ∧ bits (t.selector port) 6 21 = bits data 6 21 ∧
      bits (t.selector port) 48 16 = bits data 48 16) ∧
  (∀ (s : State) port i data, port < 2 → i < 8 → data < 2 ^ 64 → s.ready = true →
    let x := s.selector port
    let core := bits x 0 5 * 16 + bits x 6 4
    let log := s.copyLogs.get [] core
    i < log.length → ∃ t, exec (.registerWrite port (0x1013000 + 32 * i) 8 data) s = .next t ∧
      t = { s with copyLogs := t.copyLogs } ∧ (∀ c, c ≠ core → t.copyLogs.get [] c = s.copyLogs.get [] c) ∧
      (∀ j, j ≠ i → (t.copyLogs.get [] core)[j]? = log[j]?) ∧
      ∃ e, (t.copyLogs.get [] core)[i]? = some e ∧ e = { log.getD i {} with word0 := e.word0 } ∧
        ∀ b, b < 64 → e.word0.getLsbD b = ((log.getD i {}).word0.getLsbD b && !(bit data b && (b == 63 || b == 24)))) ∧
  (∀ (s : State) sel current coolant, sel < 3 → exec (.mctpSensorRead sel current coolant) s =
    .next { s with i3c := [s.gov.word sel, s.gov.input, current, coolant] }) ∧
  (∀ (s : State) msg, ∃ t, exec (.mctpControlMessage msg) s = .next t ∧ t = { s with i3c := t.i3c })

/-- A command to a warp view is refused: nothing changes but the view's result (R415). -/
def Sys2Proof.Claims.ViewRefuses (port : Nat) (i : Instr) (s : State) : Prop :=
  ∃ t, exec i s = .next t ∧ t = { s with views := t.views } ∧ (t.views.get {} port).warp = 1 ∧
    ∀ p, p ≠ port → t.views.get {} p = s.views.get {} p

/-- R415, R421, R430, R448, R454, R457: at power-good verified firmware makes the module ready with its cores mapped
past the spare, and a failure leaves it in recovery; the commands of the debug window halt, resume, kill and relaunch a
warp or an instance, or are refused, and a write of a command word is that command; a core or an MCC that the image names
as failed is marked so; the host's invalidation removes what the rule names. Rests on choices of the model: log
entries 77, 79. -/
def Obligations.DebugAndBoot : Prop :=
  (∀ (s : State) b,
    (s.ready = true ∨ s.recovery = true → exec (.powerGood b) s = .next s) ∧
    (s.ready = false → s.recovery = false → s.gov.supplyLost = false →
      (b.verified = false → exec (.powerGood b) s = .next
        { s with powered := true, recovery := true, measurements := b.measurements, moduleId := b.moduleId % 256 }) ∧
      (b.verified = true → ∃ t, exec (.powerGood b) s = .next t ∧ t = { s with
          powered := true, ready := true, measurements := b.measurements, moduleId := b.moduleId % 256
          coreMap := t.coreMap, phys := t.phys, mccs := t.mccs } ∧
        (∀ p, p < 408 → p ∈ b.failed → t.phys.get 0 p = 3) ∧
        (∀ k, t.mcc k = { s.mcc k with failed := (s.mcc k).failed || decide (k < 96 ∧ 408 + k ∈ b.failed) }) ∧
        ∀ die, die < 24 →
          let spare := Nat.min 16 (b.spares.getD die 16)
          (∀ p, p < 17 → die * 17 + p ∉ b.failed) →
            (∀ c, c < 16 → t.mapped (die * 16 + c) = true ∧
              t.physOf (die * 16 + c) = die * 17 + (if c < spare then c else c + 1)) ∧
            ∀ p, p < 17 → t.phys.get 0 (die * 17 + p) = if p = spare then 1 else 0)) ∧
    (s.ready = false → s.recovery = false → s.gov.supplyLost = true → ∃ t, exec (.powerGood b) s = .next t ∧
      Claims.Emergency s t 0xFF 7 s.gov.input ∧ t.gov.supplyLost = false)) ∧
  (∀ (s : State) port w, s.viewWarp port = some w → (s.warp w).live = true ∧ (s.warp w).yielded = .no ∧
    ∃ b, b ∈ s.blocks.cells ∧ b.2.st = .placed ∧ b.2.core = bits (s.selector port) 0 5 * 16 + bits (s.selector port) 6 4 ∧
      b.2.resSlot = bits (s.selector port) 10 5 ∧ b.2.warps[bits (s.selector port) 15 5]? = some w) ∧
  (∀ (s : State) port, s.ready = false → ∀ i ∈ [Instr.debugHalt port, .debugResume port, .debugKill port,
    .debugRelaunch port, .mccResume port, .mccKill port, .debugTlbInvalidation port 0], exec i s = .next s) ∧
  (∀ (s : State) port, s.ready = true → s.viewWarp port = none →
    ∀ i ∈ [Instr.debugHalt port, .debugResume port, .debugKill port, .debugRelaunch port],
      Claims.ViewRefuses port i s) ∧
  (∀ (s : State) port w, s.ready = true → s.viewWarp port = some w →
    let a := s.warp w
    let b := s.block a.block
    let result := fun (t : State) (r : Nat) => t.views.get {} port = { s.views.get {} port with warp := r } ∧
      ∀ p, p ≠ port → t.views.get {} p = s.views.get {} p
    (a.halted = true ∨ a.allExited = true → Claims.ViewRefuses port (.debugHalt port) s) ∧
    (a.halted = false → a.allExited = false → ∃ t, exec (.debugHalt port) s = .next t ∧
      t = { s with warps := t.warps, views := t.views } ∧ (∀ u, u ≠ w → t.warp u = s.warp u) ∧ result t 2 ∧
      t.warp w = { a with haltDue := if a.haltDue.isSome then a.haltDue else some { cause := 0x008 } }) ∧
    (a.halted = false ∨ a.dead = true ∨ a.reportDue = true → Claims.ViewRefuses port (.debugResume port) s) ∧
    (a.halted = true → a.dead = false → a.reportDue = false → a.replays = [] → a.abandoned = [] →
      ∃ t, exec (.debugResume port) s = .next t ∧ t = { s with warps := t.warps, views := t.views } ∧
        (∀ u, u ≠ w → t.warp u = s.warp u) ∧ result t 0 ∧ (t.warp w).halted = false ∧
        (a.mode ≠ .normal → t.warp w = { a with
            lanes := (t.warp w).lanes, halted := false, cause := 0, selDue := true } ∧
          ∀ l, l < 32 → (t.warp w).lane l = { a.lane l with st := (a.lane l).st.restored, wait := {} }) ∧
        (a.mode = .normal →
          let field := fun (n off : Nat) =>
            ofBytes (s.mem.readBytes n (b.savePa + 0x1000 + 0x4000 * a.index + off))
          (t.warp w).preempt = a.preempt ∧ (t.warp w).deadline = a.deadline ∧ (t.warp w).mode = .normal ∧
          (∀ n l, l < 32 → (t.warp w).rdV n l = a.rdV n l) ∧ (∀ n, 16 ≤ n → (t.warp w).rdS n = a.rdS n) ∧
          (∀ n, 0 < n → n < 16 → ((t.warp w).rdS n).toNat = field 8 (0x380 + 8 * (n - 1))) ∧
          ∀ l, l < 32 → ((t.warp w).lane l).pc = field 8 (0x040 + 8 * l) ∧
            ((t.warp w).lane l).st = (a.saved.get {} l).st.restored)) ∧
    (∃ t, exec (.debugKill port) s = .next t ∧
      t = { s with warps := t.warps, ops := t.ops, past := t.past, views := t.views } ∧
      (∀ u, u ≠ w → t.warp u = s.warp u) ∧ result t 0 ∧ KeepsRegs [] a (t.warp w) ∧ (t.warp w).halted = false ∧
      (∀ l, l < 32 → ((t.warp w).lane l).st = .exited) ∧ (∀ c ∈ t.ops.cells, c.2.warp = w → c.2.orphan = true)) ∧
    (b.rcd.rl = false ∨ b.again = true → Claims.ViewRefuses port (.debugRelaunch port) s) ∧
    (b.rcd.rl = true → b.again = false → b.gang = none → b.relaunches < 2 → Claims.NoWaiters s → ∃ t, exec (.debugRelaunch port) s = .next t ∧
      result t 0 ∧ t.block a.block = { b with again := true, killed := true } ∧
      (∀ k, k ≠ a.block → t.block k = s.block k) ∧ (∀ u, u ∉ b.warps → t.warp u = s.warp u) ∧
      ∀ u ∈ b.warps, (s.warp u).live = true → ∀ l, l < 32 → ((t.warp u).lane l).st = .exited)) ∧
  (∀ (s : State) port, s.ready = true →
    let k := bits (s.selector port) 0 5 * 4 + bits (s.selector port) 25 2
    let m := s.mcc k
    let result := fun (t : State) (r : Nat) => t.views.get {} port = { s.views.get {} port with mcc := r } ∧
      ∀ p, p ≠ port → t.views.get {} p = s.views.get {} p
    (∀ i ∈ [Instr.mccResume port, .mccKill port], m.gang = none → ∃ t, exec i s = .next t ∧
      t = { s with views := t.views } ∧ result t 1) ∧
    (∀ g, m.gang = some g →
      (m.halted = false ∨ m.dead = true → ∃ t, exec (.mccResume port) s = .next t ∧ t = { s with views := t.views } ∧ result t 1) ∧
      (m.halted = true → m.dead = false → (∀ b ∈ (s.gang g).blocks, ∀ w ∈ (s.block b).warps, (s.warp w).dead = false) →
        ∃ t, exec (.mccResume port) s = .next t ∧ t = { s with mccs := t.mccs, views := t.views } ∧ result t 0 ∧
          (∀ j, j ≠ k → t.mcc j = s.mcc j) ∧ t.mcc k = { m with halted := false, cause := 0, xfer := none }) ∧
      (∃ t, exec (.mccKill port) s = .next t ∧
        t = { s with
          mccs := t.mccs, warps := t.warps, ops := t.ops, past := t.past, intents := t.intents, pantries := t.pantries
          views := t.views } ∧
        (∀ c, t.pantry c = { s.pantry c with mccWait := (t.pantry c).mccWait }) ∧
        (∀ c, c ∈ t.intents.cells ↔ c ∈ s.intents.cells ∧ ∀ b ∈ (s.gang g).blocks, c.2.warp ∉ (s.block b).warps) ∧
        result t 0 ∧ t.mcc k = { m with exited := true, halted := false, inWait := none } ∧
        ∀ b ∈ (s.gang g).blocks, ∀ w ∈ (s.block b).warps, (s.warp w).live = true → ∀ l, l < 32 →
          ((t.warp w).lane l).st = .exited))) ∧
  (∀ (s : State) port x, s.ready = true → x < 2 ^ 64 → Table.wf [] s.tlbs = true →
    let asid := bits (s.selector port) 48 16
    let kind := bits x 62 2
    let legal := kind < 2 ∧ bits x 57 5 = 0 ∧ bits x 0 16 = 0
    (¬ legal → exec (.debugTlbInvalidation port x) s = .next s) ∧
    (legal → ∃ t, exec (.debugTlbInvalidation port x) s = .next t ∧ t = { s with tlbs := t.tlbs, oldRoots := t.oldRoots } ∧
      (∀ d e, e ∈ t.tlbs.get [] d ↔ e ∈ s.tlbs.get [] d ∧
        ¬ (kind = 0 ∧ (e.asid = asid ∨ bit e.pte 7 = true) ∧ bits x 16 41 * 2 ^ 16 / 2 ^ e.size = e.va) ∧
        ¬ (kind = 1 ∧ e.asid = asid ∧ bit e.pte 7 = false)) ∧
      (kind = 1 → t.oldRoots.get [] asid = []) ∧ (∀ a, a ≠ asid → t.oldRoots.get [] a = s.oldRoots.get [] a))) ∧
  (∀ (s : State) port, port < 2 →
    let w := fun (off data : Nat) => exec (.registerWrite port (0x1000000 + off) 8 data) s
    w 0x100000 1 = exec (.debugHalt port) s ∧ w 0x100000 2 = exec (.debugResume port) s ∧
    w 0x100000 3 = exec (.debugKill port) s ∧ w 0x100000 4 = exec (.debugRelaunch port) s ∧
    w 0x200000 2 = exec (.mccResume port) s ∧ w 0x200000 3 = exec (.mccKill port) s ∧
    ∀ x, x < 2 ^ 64 → w 0x8 x = exec (.debugTlbInvalidation port x) s)

/-! ## Encodings, reset and memory -/

/-- Decoding and encoding agree: every well-formed instruction of a stream, in every operand, is what its parcels
decode to on its side; and every instruction of a handler is what its word decodes to. -/
def Obligations.EncodingRoundTrip : Prop :=
  (∀ (sd : Side) (i : Instr), i.wf sd = true → i.form.isSome = true →
    ∃ ps, encode i = some ps ∧ (∀ p ∈ ps, p < 2 ^ 32) ∧ ps.length ≤ 4 ∧ decodeParcels sd ps = .ok i) ∧
  (∀ (i : Instr) w, i.fieldsOk = true → encodeSlice i = some w → w < 2 ^ 32 ∧ decodeSlice w = i)

/-- Examples after R52, R70, R77, R92, R96, R161, R186, R219, R225, R243, R272, R305, R343, R351, R380, R397 and R434:
words that the spec writes out decode to the instructions that it gives them to. -/
def Obligations.SpecWordsDecode : Prop :=
  (∀ e ∈ ([
    ([0x08001002, 0x80C00004], .add true { d := 4, a := .reg 5, b := .opnd (.reg 6), fmt := 4 }),
    ([0xD0012345, 0x07602400, 0x33C4D006], .movi false { d := 9, b := .imm (.long 0x123456789A), fmt := 6 }),
    ([0x80020482, 0x12050184], .pWord { op := .add, mod := false, d := 4, a := .reg 9, nowb := false, g := {}, fmt := 4 }
      { op := .max, mod := false, d := 5, a := .latch 1, nowb := false, g := {}, fmt := 4 }),
    ([0x28200A00, 0x1FFFFF40], .brp { a := 2, cneg := true, off := 0xFFFFFA }),
    ([0x28A00C00, 0x82174000], .plop 3 1 2 4 0xE8 {}),
    ([0x0F200805, 0x80000006], .cmp true { d := 2, a := .reg 11, b := .imm (.short 0), fmt := 6 }),
    ([0xC0000100, 0x08302004, 0x80600002],
      .sub true { vx := { sat := true }, d := 8, a := .reg 9, b := .bcast (.reg 3), fmt := 2 }),
    ([0x20A01C01, 0x80401800], .xalign { d := 7, a := .reg 3, b := .opnd (.reg 2), c := .reg 3 }),
    ([0x30200405, 0x004426B0], .st { d := 1, a := 10, off := .reg 2 none, strm := 1, after := 9, scope := .dev, sz := 3 }),
    ([0x38F02400, 0x20040500], .arrive { d := 9, off := .imm 0x100 none, strm := 1, after := 1, scope := .block }),
    ([0x44001404, 0x004406A0],
      .fatomnr .add { d := 5, a := 8, off := .reg 2 none, strm := 1, after := 1, scope := .dev, sz := 2 }),
    ([0x48004006, 0x00880580], .cpy { d := 16, a := 12, off := .reg 4 none, strm := 2, after := 1, scope := .cluster }),
    ([0x58001C06, 0x02811000], .launch { d := 7, a := 12, b := 20, c := 0x22 }),
    ([0x6000A006, 0x01A80B00], .fxfer { d := 40, a := 12, off := .reg 13 none, strm := 2, after := 2, scope := .sys }),
    ([0x6820240A, 0x02A00000], .intent { d := 9, a := 20, b := 21 }),
    ([0x70201C00, 0x00030000], .srd { d := 7, sys := 3 })] : List (List Nat × Instr)),
    decodeParcels .vector e.1 = .ok e.2) ∧
  decodeParcels .mcc [0x50302004, 0x81400000] = .ok (.mstrm { d := 8, a := 9, b := 10 }) ∧
  decodeSlice 0x0206028B = .slrd { rd := 5, rs1 := 12, f7 := 1 } ∧
  decodeSlice 0x1E66100B = .slwr { rs1 := 12, rs2 := 6, f7 := 15 } ∧
  decodeSlice 0x00128313 = .handlerBaseInstruction (.base (.opImm .add 6 5 1))

/-- R256, R262, R323, R377, R387, R404–R406, R448, R449, R454: the module right after power-good, before its ROM has
verified the firmware: every register whose reset value the spec gives holds it, no work stands, and memory lists
nothing. That an unlisted byte reads as zero is the model's choice (log entry 3). -/
def Obligations.ResetState : Prop :=
  let s := State.reset
  s.mem.cells = [] ∧ s.ready = false ∧ s.recovery = false ∧ s.warps.cells = [] ∧ s.blocks.cells = [] ∧
  s.jobs.cells = [] ∧ s.completions = [] ∧ s.ops.cells = [] ∧ s.l1.cells = [] ∧ s.l2.cells = [] ∧ s.rdc.cells = [] ∧
  (∀ k, let r := s.ring k
    r.base = 0 ∧ r.size = 0 ∧ r.head = 0 ∧ r.tail = 0 ∧ r.asid = 0 ∧ r.loop = 0 ∧ r.error = 0) ∧
  (∀ p, s.selector p = 0) ∧ (∀ c, s.copyLogs.get [] c = []) ∧ (∀ k, s.binds.get 0 k = 0) ∧
  (∀ k t, let x := (s.slice k).tenant t
    x.td0 = 0 ∧ x.td1 = 0xFFFFFFFFFFFFFFFF ∧ x.td2 = 0 ∧ x.td3 = 0 ∧ x.td4 = 0) ∧
  (∀ p, let x := s.ports.get {} p
    x.retrains = 0 ∧ x.credits = 128 ∧ x.lanes = 0xFF ∧ x.width = 0 ∧ x.state = 0) ∧
  (∀ d, let x := s.bank d
    x.qmin = 0x1C20 ∧ x.vbank = 0x0E10 ∧ x.charge = 0x1C20) ∧
  (∀ d r, let x := s.regionOf d r
    x.droops = 0 ∧ x.vmin = 0xFFFF ∧ x.vtime = 0) ∧
  s.gov.rate = 2400 ∧ s.gov.slew = 2000 ∧
  (let w := s.gov.word 0
   bits w 48 16 = 2000 ∧ bits w 32 16 = 0 ∧ bits w 16 16 = 2400 ∧ bits w 0 16 = 2400) ∧
  s.gov.word 1 = 0 ∧
  (let w := s.gov.word 2
   bits w 55 9 = 1 ∧ bits w 46 9 = 256 ∧ bits w 38 8 = 0 ∧ bits w 16 16 = 0 ∧ bits w 0 16 = 0) ∧
  Memory.wf s.mem = true

/-- From every state whose memory lists each address once, in rising order, and no byte that reads as unlisted bytes
do, a step leads to such a state: equal memories are equal data, whatever has been stored. -/
def Obligations.MemoryCanonicalKept : Prop :=
  ∀ s t, Memory.wf s.mem = true → step s = .next t → Memory.wf t.mem = true
end

