-- ==== Sys2Proof/Laws/Bits.lean ====
section
/-!
SUPPORT. The laws of bit fields and masks: which bits a mask that is made has, and what a field reads as after it is put.
-/
namespace Sys2Proof

theorem bit_eq_testBit (w i : Nat) : bit w i = w.testBit i := by
  rw [Nat.testBit_eq_decide_div_mod_eq]
  unfold bit
  by_cases h : w / 2 ^ i % 2 = 1 <;> simp [h]

@[simp] theorem bit_zero (i : Nat) : bit 0 i = false := by simp [bit_eq_testBit]

theorem maskWhere_succ (n : Nat) (f : Nat → Bool) : maskWhere (n + 1) f = maskWhere n f + b2n (f n) * 2 ^ n := by
  simp [maskWhere, List.range_succ]

theorem maskWhere_lt (n : Nat) (f : Nat → Bool) : maskWhere n f < 2 ^ n := by
  induction n with
  | zero => simp [maskWhere]
  | succ n ih =>
    rw [maskWhere_succ, Nat.pow_succ]
    cases f n <;> simp [b2n] <;> omega

/-- The bits of a mask that is made. -/
@[simp] theorem bit_maskWhere (n : Nat) (f : Nat → Bool) (i : Nat) : bit (maskWhere n f) i = (decide (i < n) && f i) := by
  rw [bit_eq_testBit]
  induction n with
  | zero => simp [maskWhere]
  | succ n ih =>
    rw [maskWhere_succ]
    have hlt := maskWhere_lt n f
    by_cases hi : i = n
    · subst hi
      cases hf : f i
      · simp [b2n, Nat.testBit_lt_two_pow hlt]
      · simp only [b2n, if_true, Nat.one_mul, Nat.add_comm (maskWhere i f), Nat.testBit_two_pow_add_eq,
          Nat.testBit_lt_two_pow hlt]
        simp
    · cases hf : f n
      · simp only [b2n, Bool.false_eq_true, if_false, Nat.zero_mul, Nat.add_zero, ih]
        have : decide (i < n + 1) = decide (i < n) := by simp only [decide_eq_decide]; omega
        rw [this]
      · simp only [b2n, if_true, Nat.one_mul]
        by_cases h : i < n
        · rw [Nat.add_comm, Nat.testBit_two_pow_add_gt h, ih]
          simp [h, show i < n + 1 by omega]
        · have h2 : n < i := by omega
          have : maskWhere n f + 2 ^ n < 2 ^ i := by
            have : 2 ^ (n + 1) ≤ 2 ^ i := Nat.pow_le_pow_right (by omega) (by omega)
            rw [Nat.pow_succ] at this; omega
          rw [Nat.testBit_lt_two_pow this]
          simp [show ¬ i < n + 1 by omega]

theorem mem_maskList (m n i : Nat) : i ∈ maskList m n ↔ i < n ∧ bit m i = true := by
  simp [maskList]

theorem nodup_maskList (m n : Nat) : (maskList m n).Nodup := List.Nodup.filter _ List.nodup_range

theorem bits_lt (w lo len : Nat) : bits w lo len < 2 ^ len := Nat.mod_lt _ (Nat.two_pow_pos _)

/-- Bits of a field. -/
theorem testBit_bits (w lo len i : Nat) : (bits w lo len).testBit i = (decide (i < len) && w.testBit (lo + i)) := by
  simp [bits, Nat.testBit_mod_two_pow, Nat.testBit_div_two_pow, Nat.add_comm]

theorem testBit_putBits (w lo len x i : Nat) :
    (putBits w lo len x).testBit i = if lo ≤ i ∧ i < lo + len then x.testBit (i - lo) else w.testBit i := by
  have hw : w = w % 2 ^ lo + 2 ^ lo * (bits w lo len + 2 ^ len * (w / 2 ^ (lo + len))) := by
    have h1 := Nat.div_add_mod w (2 ^ lo)
    have h2 := Nat.div_add_mod (w / 2 ^ lo) (2 ^ len)
    have h3 : w / 2 ^ (lo + len) = w / 2 ^ lo / 2 ^ len := by rw [Nat.pow_add, Nat.div_div_eq_div_mul]
    unfold bits
    rw [h3, Nat.add_comm (w / 2 ^ lo % 2 ^ len), h2, Nat.add_comm, h1]
  have hp : putBits w lo len x = w % 2 ^ lo + 2 ^ lo * (x % 2 ^ len + 2 ^ len * (w / 2 ^ (lo + len))) := by
    unfold putBits
    conv => lhs; lhs; lhs; rw [hw]
    have e1 : 2 ^ lo * (bits w lo len + 2 ^ len * (w / 2 ^ (lo + len))) =
        bits w lo len * 2 ^ lo + 2 ^ lo * (2 ^ len * (w / 2 ^ (lo + len))) := by ring
    have e2 : 2 ^ lo * (x % 2 ^ len + 2 ^ len * (w / 2 ^ (lo + len))) =
        x % 2 ^ len * 2 ^ lo + 2 ^ lo * (2 ^ len * (w / 2 ^ (lo + len))) := by ring
    rw [e1, e2]; omega
  have hlow : w % 2 ^ lo < 2 ^ lo := Nat.mod_lt _ (Nat.two_pow_pos _)
  have hmid : x % 2 ^ len < 2 ^ len := Nat.mod_lt _ (Nat.two_pow_pos _)
  rw [hp, Nat.add_comm, Nat.testBit_two_pow_mul_add _ hlow]
  by_cases h : i < lo
  · rw [if_pos h, if_neg (by omega), Nat.testBit_mod_two_pow]; simp [h]
  · rw [if_neg h, Nat.add_comm (x % 2 ^ len), Nat.testBit_two_pow_mul_add _ hmid]
    by_cases h2 : i - lo < len
    · rw [if_pos h2, if_pos (by omega), Nat.testBit_mod_two_pow]; simp [h2]
    · rw [if_neg h2, if_neg (by omega), Nat.testBit_div_two_pow]
      congr 1; omega

/-- A field reads as it was put. -/
@[simp] theorem bits_putBits_same (w lo len x : Nat) : bits (putBits w lo len x) lo len = x % 2 ^ len := by
  apply Nat.eq_of_testBit_eq
  intro i
  rw [testBit_bits, testBit_putBits, Nat.testBit_mod_two_pow]
  by_cases h : i < len
  · simp [h]
  · simp [h]

/-- A field that another put does not touch reads as before. -/
theorem bits_putBits_ne (w lo len x lo' len' : Nat) (h : lo' + len' ≤ lo ∨ lo + len ≤ lo') :
    bits (putBits w lo len x) lo' len' = bits w lo' len' := by
  apply Nat.eq_of_testBit_eq
  intro i
  rw [testBit_bits, testBit_bits, testBit_putBits]
  by_cases hi : i < len'
  · rw [if_neg (by omega)]
  · simp [hi]

theorem putBits_lt (w lo len x n : Nat) (hw : w < 2 ^ n) (h : lo + len ≤ n) : putBits w lo len x < 2 ^ n := by
  apply Nat.lt_pow_two_of_testBit
  intro i hi
  rw [testBit_putBits, if_neg (by omega)]
  exact Nat.testBit_lt_two_pow (Nat.lt_of_lt_of_le hw (Nat.pow_le_pow_right (by omega) hi))

end Sys2Proof
end

