-- ==== Sys2Proof/Laws/Table.lean ====
section
/-!
SUPPORT. The laws of tables and memories: what a read finds after a write, and that every operation keeps the canonical
form.
-/
namespace Sys2Proof
namespace Table
variable {α : Type}

theorem find_erase_same (l : List (Nat × α)) (k : Nat) : find (erase l k) k = none := by
  induction l with
  | nil => rfl
  | cons c r ih =>
    obtain ⟨a, v⟩ := c
    by_cases h : a = k <;> simp [erase, find, h, ih]

theorem find_cons (a : Nat) (v : α) (r : List (Nat × α)) (j : Nat) :
    find ((a, v) :: r) j = if a = j then some v else find r j := rfl

theorem erase_cons (a : Nat) (v : α) (r : List (Nat × α)) (j : Nat) :
    erase ((a, v) :: r) j = if a = j then erase r j else (a, v) :: erase r j := rfl

theorem insert_cons (a : Nat) (v : α) (r : List (Nat × α)) (j : Nat) (x : α) :
    insert ((a, v) :: r) j x = if j < a then (j, x) :: (a, v) :: r else (a, v) :: insert r j x := rfl

theorem find_erase_ne (l : List (Nat × α)) (k j : Nat) (h : j ≠ k) : find (erase l k) j = find l j := by
  induction l with
  | nil => rfl
  | cons c r ih =>
    obtain ⟨a, v⟩ := c
    rw [erase_cons]
    split
    · rename_i hk
      rw [ih, find_cons, if_neg (fun e : a = j => h (e.symm.trans hk))]
    · rw [find_cons, find_cons, ih]

theorem find_insert_ne (l : List (Nat × α)) (k j : Nat) (v : α) (h : j ≠ k) : find (insert l k v) j = find l j := by
  induction l with
  | nil => exact if_neg (fun e : k = j => h e.symm)
  | cons c r ih =>
    obtain ⟨a, w⟩ := c
    rw [insert_cons]
    split
    · rw [find_cons, if_neg (fun e : k = j => h e.symm)]
    · rw [find_cons, find_cons, ih]

theorem find_insert_same (l : List (Nat × α)) (k : Nat) (v : α) (h : find l k = none) : find (insert l k v) k = some v := by
  induction l with
  | nil => exact if_pos rfl
  | cons c r ih =>
    obtain ⟨a, w⟩ := c
    rw [find_cons] at h
    split at h
    · cases h
    · rename_i ha
      rw [insert_cons]
      split
      · rw [find_cons, if_pos rfl]
      · rw [find_cons, if_neg ha, ih h]

/-- A read finds what was written. -/
@[simp] theorem get_set_same [DecidableEq α] (d : α) (m : Table α) (k : Nat) (v : α) : (m.set d k v).get d k = v := by
  unfold set get
  by_cases h : v = d
  · simp [h, find_erase_same]
  · simp [h, find_insert_same _ _ _ (find_erase_same m.cells k)]

/-- A write leaves every other key alone. -/
theorem get_set_ne [DecidableEq α] (d : α) (m : Table α) (k j : Nat) (v : α) (h : j ≠ k) :
    (m.set d k v).get d j = m.get d j := by
  unfold set get
  by_cases hv : v = d <;> simp [hv, find_erase_ne _ _ _ h, find_insert_ne _ _ _ _ h]

/-- A read after a write, at any key. -/
theorem get_set [DecidableEq α] (d : α) (m : Table α) (k j : Nat) (v : α) :
    (m.set d k v).get d j = if j = k then v else m.get d j := by
  by_cases h : j = k
  · subst h; simp
  · simp [h, get_set_ne d m k j v h]

@[simp] theorem get_empty (d : α) (k : Nat) : (⟨[]⟩ : Table α).get d k = d := rfl

theorem rising_mono (l : List (Nat × α)) (a b : Nat) (h : rising b l = true) (hab : a ≤ b) : rising a l = true := by
  cases l with
  | nil => rfl
  | cons c r =>
    obtain ⟨k, v⟩ := c
    simp only [rising, Bool.and_eq_true, decide_eq_true_eq] at h ⊢
    exact ⟨by omega, h.2⟩

theorem rising_erase (l : List (Nat × α)) (k b : Nat) (h : rising b l = true) : rising b (erase l k) = true := by
  induction l generalizing b with
  | nil => rfl
  | cons c r ih =>
    obtain ⟨a, v⟩ := c
    simp only [rising, Bool.and_eq_true, decide_eq_true_eq] at h
    by_cases hk : a = k
    · simp only [erase, hk, if_true]
      exact ih b (rising_mono r b (a + 1) h.2 (by omega))
    · simp only [erase, hk, if_false, rising, Bool.and_eq_true, decide_eq_true_eq]
      exact ⟨h.1, ih (a + 1) h.2⟩

theorem rising_insert (l : List (Nat × α)) (k b : Nat) (v : α) (h : rising b l = true) (hb : b ≤ k)
    (hf : find l k = none) : rising b (insert l k v) = true := by
  induction l generalizing b with
  | nil => simp only [insert, rising, Bool.and_eq_true, decide_eq_true_eq]; exact ⟨by omega, trivial⟩
  | cons c r ih =>
    obtain ⟨a, w⟩ := c
    simp only [rising, Bool.and_eq_true, decide_eq_true_eq] at h
    by_cases hk : k < a
    · simp only [insert, hk, if_true, rising, Bool.and_eq_true, decide_eq_true_eq]
      exact ⟨by omega, by omega, h.2⟩
    · have ha : ¬ a = k := by
        intro e; simp [find, e] at hf
      have hr : find r k = none := by simpa [find, ha] using hf
      simp only [insert, hk, if_false, rising, Bool.and_eq_true, decide_eq_true_eq]
      exact ⟨h.1, ih (a + 1) h.2 (by omega) hr⟩

theorem mem_erase (l : List (Nat × α)) (k : Nat) (c : Nat × α) (h : c ∈ erase l k) : c ∈ l := by
  induction l with
  | nil => exact h
  | cons a r ih =>
    obtain ⟨j, v⟩ := a
    by_cases hj : j = k
    · simp only [erase, hj, if_true] at h
      exact List.mem_cons_of_mem _ (ih h)
    · simp only [erase, hj, if_false, List.mem_cons] at h
      rcases h with h | h
      · simp [h]
      · exact List.mem_cons_of_mem _ (ih h)

theorem mem_insert (l : List (Nat × α)) (k : Nat) (v : α) (c : Nat × α) (h : c ∈ insert l k v) : c = (k, v) ∨ c ∈ l := by
  induction l with
  | nil => simp [insert] at h; exact Or.inl h
  | cons a r ih =>
    obtain ⟨j, w⟩ := a
    by_cases hj : k < j
    · simp only [insert, hj, if_true, List.mem_cons] at h
      simpa using h
    · simp only [insert, hj, if_false, List.mem_cons] at h
      rcases h with h | h
      · simp [h]
      · rcases ih h with e | e <;> simp [e]

/-- A write keeps the canonical form. -/
theorem wf_set [DecidableEq α] (d : α) (m : Table α) (k : Nat) (v : α) (h : m.wf d = true) : (m.set d k v).wf d = true := by
  simp only [wf, Bool.and_eq_true, List.all_eq_true] at h ⊢
  unfold set
  by_cases hv : v = d
  · simp only [hv, if_true]
    exact ⟨rising_erase _ _ _ h.1, fun c hc => h.2 c (mem_erase _ _ _ hc)⟩
  · simp only [hv, if_false]
    refine ⟨rising_insert _ _ _ _ (rising_erase _ _ _ h.1) (Nat.zero_le _) (find_erase_same _ _), fun c hc => ?_⟩
    rcases mem_insert _ _ _ _ hc with e | e
    · simp [e, hv]
    · exact h.2 c (mem_erase _ _ _ e)

theorem rising_filter (l : List (Nat × α)) (p : Nat × α → Bool) (b : Nat) (h : rising b l = true) :
    rising b (l.filter p) = true := by
  induction l generalizing b with
  | nil => rfl
  | cons c r ih =>
    obtain ⟨k, v⟩ := c
    simp only [rising, Bool.and_eq_true, decide_eq_true_eq] at h
    by_cases hp : p (k, v)
    · simp only [List.filter, hp, rising, Bool.and_eq_true, decide_eq_true_eq]
      exact ⟨h.1, ih (k + 1) h.2⟩
    · simp only [List.filter, hp]
      exact ih b (rising_mono r b (k + 1) h.2 (by omega))

/-- Entries taken out keep the canonical form. -/
theorem wf_keep [DecidableEq α] (d : α) (m : Table α) (f : Nat → α → Bool) (h : m.wf d = true) : (m.keep f).wf d = true := by
  simp only [wf, Bool.and_eq_true, List.all_eq_true] at h ⊢
  exact ⟨rising_filter _ _ _ h.1, fun c hc => h.2 c (List.mem_filter.mp hc).1⟩

end Table

namespace Memory

@[simp] theorem read_write_same (m : Memory) (a : Nat) (b : Byte) : (m.write a b).read a = b := Table.get_set_same 0 m a b

theorem read_write_ne (m : Memory) (a j : Nat) (b : Byte) (h : j ≠ a) : (m.write a b).read j = m.read j :=
  Table.get_set_ne 0 m a j b h

@[simp] theorem readBytes_length (m : Memory) (n a : Nat) : (m.readBytes n a).length = n := by
  induction n generalizing a with
  | zero => rfl
  | succ n ih => simp [readBytes, ih]

theorem readBytes_getElem (m : Memory) (n a i : Nat) (h : i < n) : (m.readBytes n a)[i]? = some (m.read (a + i)) := by
  induction n generalizing a i with
  | zero => omega
  | succ n ih =>
    cases i with
    | zero => rfl
    | succ i =>
      have := ih (a + 1) i (by omega)
      simp only [readBytes, List.getElem?_cons_succ, this]
      congr 2; omega

theorem listed_cons (b : Byte) (r : List Byte) (a : Nat) :
    listed a (b :: r) = if b = 0 then listed (a + 1) r else (a, b) :: listed (a + 1) r := rfl

theorem find_listed_lt (bs : List Byte) (a j : Nat) (h : j < a) : Table.find (listed a bs) j = none := by
  induction bs generalizing a with
  | nil => rfl
  | cons b r ih =>
    rw [listed_cons]
    split
    · exact ih (a + 1) (by omega)
    · rw [Table.find_cons, if_neg (by omega), ih (a + 1) (by omega)]

theorem find_listed_ge (bs : List Byte) (a j : Nat) (h : a + bs.length ≤ j) : Table.find (listed a bs) j = none := by
  induction bs generalizing a with
  | nil => rfl
  | cons b r ih =>
    rw [List.length_cons] at h
    rw [listed_cons]
    split
    · exact ih (a + 1) (by omega)
    · rw [Table.find_cons, if_neg (by omega), ih (a + 1) (by omega)]

theorem find_listed (bs : List Byte) (a i : Nat) (h : i < bs.length) :
    (Table.find (listed a bs) (a + i)).getD 0 = bs.getD i 0 := by
  induction bs generalizing a i with
  | nil => simp at h
  | cons b r ih =>
    rw [listed_cons]
    cases i with
    | zero =>
      split
      · rename_i hb
        rw [find_listed_lt r (a + 1) (a + 0) (by omega)]
        simp [hb]
      · rw [Table.find_cons, if_pos (by omega)]; rfl
    | succ i =>
      rw [List.length_cons] at h
      have e : a + (i + 1) = a + 1 + i := by omega
      rw [List.getD_cons_succ, ← ih (a + 1) i (by omega), ← e]
      split
      · rfl
      · rw [Table.find_cons, if_neg (by omega)]

theorem find_append (l r : List (Nat × Byte)) (j : Nat) :
    Table.find (l ++ r) j = (match Table.find l j with
      | some v => some v
      | none => Table.find r j) := by
  induction l with
  | nil => rfl
  | cons c t ih =>
    obtain ⟨k, v⟩ := c
    by_cases h : k = j <;> simp [Table.find, h, ih]

theorem find_filter (l : List (Nat × Byte)) (p : Nat → Bool) (j : Nat) :
    Table.find (l.filter (fun c => p c.1)) j = if p j then Table.find l j else none := by
  induction l with
  | nil => simp [Table.find]
  | cons c t ih =>
    obtain ⟨k, v⟩ := c
    by_cases h : p k
    · by_cases hj : k = j
      · subst hj; simp [List.filter, h, Table.find]
      · simp [List.filter, h, Table.find, hj, ih]
    · by_cases hj : k = j
      · subst hj; simp [List.filter, h, ih]
      · simp [List.filter, h, Table.find, hj, ih]

theorem read_eq (m : Memory) (j : Nat) : m.read j = (Table.find m.cells j).getD 0 := by
  unfold read Table.get
  cases Table.find m.cells j <;> rfl

/-- Bytes that were written read back. -/
theorem read_writeBytes (m : Memory) (a : Nat) (bs : List Byte) (j : Nat) :
    (m.writeBytes a bs).read j = if a ≤ j ∧ j < a + bs.length then bs.getD (j - a) 0 else m.read j := by
  rw [read_eq, read_eq]
  simp only [writeBytes, find_append]
  rw [find_filter m.cells (fun k => decide (k < a)), find_filter m.cells (fun k => decide (a + bs.length ≤ k))]
  by_cases h1 : j < a
  · have : ¬ (a + bs.length ≤ j) := by omega
    have h3 : ¬ (a ≤ j ∧ j < a + bs.length) := by omega
    simp only [h1, decide_true, if_true, find_listed_lt bs a j h1, this, decide_false, Bool.false_eq_true, if_false, h3]
    cases Table.find m.cells j <;> rfl
  · by_cases h2 : a + bs.length ≤ j
    · have h3 : ¬ (a ≤ j ∧ j < a + bs.length) := by omega
      simp [h1, h2, h3, find_listed_ge bs a j h2]
    · have h3 : a ≤ j ∧ j < a + bs.length := by omega
      have := find_listed bs a (j - a) (by omega)
      have e : a + (j - a) = j := by omega
      rw [e] at this
      simp only [h1, decide_false, Bool.false_eq_true, if_false, h2, h3, and_self, if_true]
      rw [← this]
      cases Table.find (listed a bs) j <;> rfl

/-- A write leaves every other address alone. -/
theorem read_writeBytes_out (m : Memory) (a : Nat) (bs : List Byte) (j : Nat) (h : j < a ∨ a + bs.length ≤ j) :
    (m.writeBytes a bs).read j = m.read j := by
  rw [read_writeBytes]; simp only [show ¬ (a ≤ j ∧ j < a + bs.length) by omega, if_false]

theorem wf_empty : Memory.wf ⟨[]⟩ = true := rfl

theorem wf_write (m : Memory) (a : Nat) (b : Byte) (h : Memory.wf m = true) : Memory.wf (m.write a b) = true := Table.wf_set 0 m a b h

theorem rising_append (l r : List (Nat × Byte)) (b c : Nat) (h1 : Table.rising b l = true) (h2 : Table.rising c r = true)
    (hlt : ∀ x ∈ l, x.1 < c) (hb : b ≤ c) : Table.rising b (l ++ r) = true := by
  induction l generalizing b with
  | nil => exact Table.rising_mono r b c h2 hb
  | cons x t ih =>
    obtain ⟨k, v⟩ := x
    simp only [List.cons_append, Table.rising, Bool.and_eq_true, decide_eq_true_eq] at h1 ⊢
    have hk : k < c := hlt (k, v) (by simp)
    exact ⟨h1.1, ih (k + 1) h1.2 (fun x hx => hlt x (by simp [hx])) (by omega)⟩

theorem rising_listed (bs : List Byte) (a b : Nat) (h : b ≤ a) : Table.rising b (listed a bs) = true := by
  induction bs generalizing a b with
  | nil => rfl
  | cons x r ih =>
    rw [listed_cons]
    split
    · exact ih (a + 1) b (by omega)
    · simp only [Table.rising, Bool.and_eq_true, decide_eq_true_eq]
      exact ⟨by omega, ih (a + 1) (a + 1) (by omega)⟩

theorem listed_bounds (bs : List Byte) (a : Nat) (c : Nat × Byte) (h : c ∈ listed a bs) :
    a ≤ c.1 ∧ c.1 < a + bs.length ∧ c.2 ≠ 0 := by
  induction bs generalizing a with
  | nil => simp [listed] at h
  | cons x r ih =>
    rw [listed_cons] at h
    rw [List.length_cons]
    split at h
    · have := ih (a + 1) h
      exact ⟨by omega, by omega, this.2.2⟩
    · rename_i hx
      rcases List.mem_cons.mp h with h | h
      · subst h; exact ⟨Nat.le_refl _, by omega, hx⟩
      · have := ih (a + 1) h
        exact ⟨by omega, by omega, this.2.2⟩

theorem rising_from (l : List (Nat × Byte)) (b c : Nat) (h : Table.rising b l = true) (hall : ∀ x ∈ l, c ≤ x.1) :
    Table.rising c l = true := by
  cases l with
  | nil => rfl
  | cons x r =>
    obtain ⟨k, v⟩ := x
    simp only [Table.rising, Bool.and_eq_true, decide_eq_true_eq] at h ⊢
    have : c ≤ k := hall (k, v) (by simp)
    exact ⟨by omega, h.2⟩

/-- A write of bytes keeps the canonical form. -/
theorem wf_writeBytes (m : Memory) (a : Nat) (bs : List Byte) (h : Memory.wf m = true) :
    Memory.wf (m.writeBytes a bs) = true := by
  simp only [wf, Table.wf, Bool.and_eq_true, List.all_eq_true] at h ⊢
  constructor
  · have h1 : Table.rising 0 (m.cells.filter (fun c => decide (c.1 < a))) = true := Table.rising_filter _ _ _ h.1
    have h2 : Table.rising (a + bs.length) (m.cells.filter (fun c => decide (a + bs.length ≤ c.1))) = true :=
      rising_from _ 0 _ (Table.rising_filter _ _ _ h.1) (fun x hx => by simpa using (List.mem_filter.mp hx).2)
    have h3 : Table.rising a (listed a bs ++ m.cells.filter (fun c => decide (a + bs.length ≤ c.1))) = true :=
      rising_append _ _ a (a + bs.length) (rising_listed bs a a (Nat.le_refl _)) h2
        (fun x hx => (listed_bounds bs a x hx).2.1) (by omega)
    simp only [writeBytes, List.append_assoc]
    exact rising_append _ _ 0 a h1 h3 (fun x hx => by simpa using (List.mem_filter.mp hx).2) (Nat.zero_le _)
  · intro c hc
    simp only [writeBytes, List.mem_append] at hc
    rcases hc with (hc | hc) | hc
    · exact h.2 c (List.mem_filter.mp hc).1
    · simpa using (listed_bounds bs a c hc).2.2
    · exact h.2 c (List.mem_filter.mp hc).1

end Memory
end Sys2Proof
end

