-- ==== Sys2Proof/Laws/State.lean ====
section
/-!
SUPPORT. What each named update of the state leaves alone, field by field and record by record, and what a record reads
as after it is written.
-/
namespace Sys2Proof.Machine
variable (s : State)

/-! ## setWarp -/

@[simp] theorem State.setWarp_turn (w : Nat) (x : Warp) : (s.setWarp w x).turn = s.turn := rfl
@[simp] theorem State.setWarp_issuer (w : Nat) (x : Warp) : (s.setWarp w x).issuer = s.issuer := rfl
@[simp] theorem State.setWarp_free (w : Nat) (x : Warp) : (s.setWarp w x).free = s.free := rfl
@[simp] theorem State.setWarp_time (w : Nat) (x : Warp) : (s.setWarp w x).time = s.time := rfl
@[simp] theorem State.setWarp_cycles (w : Nat) (x : Warp) : (s.setWarp w x).cycles = s.cycles := rfl
@[simp] theorem State.setWarp_powered (w : Nat) (x : Warp) : (s.setWarp w x).powered = s.powered := rfl
@[simp] theorem State.setWarp_recovery (w : Nat) (x : Warp) : (s.setWarp w x).recovery = s.recovery := rfl
@[simp] theorem State.setWarp_ready (w : Nat) (x : Warp) : (s.setWarp w x).ready = s.ready := rfl
@[simp] theorem State.setWarp_moduleId (w : Nat) (x : Warp) : (s.setWarp w x).moduleId = s.moduleId := rfl
@[simp] theorem State.setWarp_measurements (w : Nat) (x : Warp) : (s.setWarp w x).measurements = s.measurements := rfl
@[simp] theorem State.setWarp_rings (w : Nat) (x : Warp) : (s.setWarp w x).rings = s.rings := rfl
@[simp] theorem State.setWarp_completions (w : Nat) (x : Warp) : (s.setWarp w x).completions = s.completions := rfl
@[simp] theorem State.setWarp_mailbox (w : Nat) (x : Warp) : (s.setWarp w x).mailbox = s.mailbox := rfl
@[simp] theorem State.setWarp_selectors (w : Nat) (x : Warp) : (s.setWarp w x).selectors = s.selectors := rfl
@[simp] theorem State.setWarp_views (w : Nat) (x : Warp) : (s.setWarp w x).views = s.views := rfl
@[simp] theorem State.setWarp_i3c (w : Nat) (x : Warp) : (s.setWarp w x).i3c = s.i3c := rfl
@[simp] theorem State.setWarp_nextRing (w : Nat) (x : Warp) : (s.setWarp w x).nextRing = s.nextRing := rfl
@[simp] theorem State.setWarp_mem (w : Nat) (x : Warp) : (s.setWarp w x).mem = s.mem := rfl
@[simp] theorem State.setWarp_l1 (w : Nat) (x : Warp) : (s.setWarp w x).l1 = s.l1 := rfl
@[simp] theorem State.setWarp_l2 (w : Nat) (x : Warp) : (s.setWarp w x).l2 = s.l2 := rfl
@[simp] theorem State.setWarp_rdc (w : Nat) (x : Warp) : (s.setWarp w x).rdc = s.rdc := rfl
@[simp] theorem State.setWarp_shadow (w : Nat) (x : Warp) : (s.setWarp w x).shadow = s.shadow := rfl
@[simp] theorem State.setWarp_past (w : Nat) (x : Warp) : (s.setWarp w x).past = s.past := rfl
@[simp] theorem State.setWarp_roots (w : Nat) (x : Warp) : (s.setWarp w x).roots = s.roots := rfl
@[simp] theorem State.setWarp_oldRoots (w : Nat) (x : Warp) : (s.setWarp w x).oldRoots = s.oldRoots := rfl
@[simp] theorem State.setWarp_tlbs (w : Nat) (x : Warp) : (s.setWarp w x).tlbs = s.tlbs := rfl
@[simp] theorem State.setWarp_icaches (w : Nat) (x : Warp) : (s.setWarp w x).icaches = s.icaches := rfl
@[simp] theorem State.setWarp_ops (w : Nat) (x : Warp) : (s.setWarp w x).ops = s.ops := rfl
@[simp] theorem State.setWarp_nextOp (w : Nat) (x : Warp) : (s.setWarp w x).nextOp = s.nextOp := rfl
@[simp] theorem State.setWarp_nextSeq (w : Nat) (x : Warp) : (s.setWarp w x).nextSeq = s.nextSeq := rfl
@[simp] theorem State.setWarp_jobs (w : Nat) (x : Warp) : (s.setWarp w x).jobs = s.jobs := rfl
@[simp] theorem State.setWarp_nextGrid (w : Nat) (x : Warp) : (s.setWarp w x).nextGrid = s.nextGrid := rfl
@[simp] theorem State.setWarp_blocks (w : Nat) (x : Warp) : (s.setWarp w x).blocks = s.blocks := rfl
@[simp] theorem State.setWarp_nextBlock (w : Nat) (x : Warp) : (s.setWarp w x).nextBlock = s.nextBlock := rfl
@[simp] theorem State.setWarp_nextWarp (w : Nat) (x : Warp) : (s.setWarp w x).nextWarp = s.nextWarp := rfl
@[simp] theorem State.setWarp_entries (w : Nat) (x : Warp) : (s.setWarp w x).entries = s.entries := rfl
@[simp] theorem State.setWarp_binds (w : Nat) (x : Warp) : (s.setWarp w x).binds = s.binds := rfl
@[simp] theorem State.setWarp_bins (w : Nat) (x : Warp) : (s.setWarp w x).bins = s.bins := rfl
@[simp] theorem State.setWarp_clusters (w : Nat) (x : Warp) : (s.setWarp w x).clusters = s.clusters := rfl
@[simp] theorem State.setWarp_gangs (w : Nat) (x : Warp) : (s.setWarp w x).gangs = s.gangs := rfl
@[simp] theorem State.setWarp_nextGang (w : Nat) (x : Warp) : (s.setWarp w x).nextGang = s.nextGang := rfl
@[simp] theorem State.setWarp_savePools (w : Nat) (x : Warp) : (s.setWarp w x).savePools = s.savePools := rfl
@[simp] theorem State.setWarp_slots (w : Nat) (x : Warp) : (s.setWarp w x).slots = s.slots := rfl
@[simp] theorem State.setWarp_coreMap (w : Nat) (x : Warp) : (s.setWarp w x).coreMap = s.coreMap := rfl
@[simp] theorem State.setWarp_phys (w : Nat) (x : Warp) : (s.setWarp w x).phys = s.phys := rfl
@[simp] theorem State.setWarp_placeCounts (w : Nat) (x : Warp) : (s.setWarp w x).placeCounts = s.placeCounts := rfl
@[simp] theorem State.setWarp_lastBusy (w : Nat) (x : Warp) : (s.setWarp w x).lastBusy = s.lastBusy := rfl
@[simp] theorem State.setWarp_copyLogs (w : Nat) (x : Warp) : (s.setWarp w x).copyLogs = s.copyLogs := rfl
@[simp] theorem State.setWarp_mccs (w : Nat) (x : Warp) : (s.setWarp w x).mccs = s.mccs := rfl
@[simp] theorem State.setWarp_arrs (w : Nat) (x : Warp) : (s.setWarp w x).arrs = s.arrs := rfl
@[simp] theorem State.setWarp_acc (w : Nat) (x : Warp) : (s.setWarp w x).acc = s.acc := rfl
@[simp] theorem State.setWarp_slices (w : Nat) (x : Warp) : (s.setWarp w x).slices = s.slices := rfl
@[simp] theorem State.setWarp_groups (w : Nat) (x : Warp) : (s.setWarp w x).groups = s.groups := rfl
@[simp] theorem State.setWarp_held (w : Nat) (x : Warp) : (s.setWarp w x).held = s.held := rfl
@[simp] theorem State.setWarp_ringJobs (w : Nat) (x : Warp) : (s.setWarp w x).ringJobs = s.ringJobs := rfl
@[simp] theorem State.setWarp_ports (w : Nat) (x : Warp) : (s.setWarp w x).ports = s.ports := rfl
@[simp] theorem State.setWarp_xfers (w : Nat) (x : Warp) : (s.setWarp w x).xfers = s.xfers := rfl
@[simp] theorem State.setWarp_pantries (w : Nat) (x : Warp) : (s.setWarp w x).pantries = s.pantries := rfl
@[simp] theorem State.setWarp_larders (w : Nat) (x : Warp) : (s.setWarp w x).larders = s.larders := rfl
@[simp] theorem State.setWarp_capBanks (w : Nat) (x : Warp) : (s.setWarp w x).capBanks = s.capBanks := rfl
@[simp] theorem State.setWarp_regions (w : Nat) (x : Warp) : (s.setWarp w x).regions = s.regions := rfl
@[simp] theorem State.setWarp_hbms (w : Nat) (x : Warp) : (s.setWarp w x).hbms = s.hbms := rfl
@[simp] theorem State.setWarp_intents (w : Nat) (x : Warp) : (s.setWarp w x).intents = s.intents := rfl
@[simp] theorem State.setWarp_ballast (w : Nat) (x : Warp) : (s.setWarp w x).ballast = s.ballast := rfl
@[simp] theorem State.setWarp_gov (w : Nat) (x : Warp) : (s.setWarp w x).gov = s.gov := rfl
@[simp] theorem State.block_setWarp (w : Nat) (x : Warp) (k : Nat) : (s.setWarp w x).block k = s.block k := rfl
@[simp] theorem State.job_setWarp (w : Nat) (x : Warp) (k : Nat) : (s.setWarp w x).job k = s.job k := rfl
@[simp] theorem State.op_setWarp (w : Nat) (x : Warp) (k : Nat) : (s.setWarp w x).op k = s.op k := rfl
@[simp] theorem State.mcc_setWarp (w : Nat) (x : Warp) (k : Nat) : (s.setWarp w x).mcc k = s.mcc k := rfl
@[simp] theorem State.arr_setWarp (w : Nat) (x : Warp) (k : Nat) : (s.setWarp w x).arr k = s.arr k := rfl
@[simp] theorem State.slice_setWarp (w : Nat) (x : Warp) (k : Nat) : (s.setWarp w x).slice k = s.slice k := rfl
@[simp] theorem State.gang_setWarp (w : Nat) (x : Warp) (k : Nat) : (s.setWarp w x).gang k = s.gang k := rfl
@[simp] theorem State.pantry_setWarp (w : Nat) (x : Warp) (k : Nat) : (s.setWarp w x).pantry k = s.pantry k := rfl
@[simp] theorem State.larder_setWarp (w : Nat) (x : Warp) (k : Nat) : (s.setWarp w x).larder k = s.larder k := rfl
@[simp] theorem State.entry_setWarp (w : Nat) (x : Warp) (k : Nat) : (s.setWarp w x).entry k = s.entry k := rfl
@[simp] theorem State.bin_setWarp (w : Nat) (x : Warp) (k : Nat) : (s.setWarp w x).bin k = s.bin k := rfl
@[simp] theorem State.ring_setWarp (w : Nat) (x : Warp) (k : Nat) : (s.setWarp w x).ring k = s.ring k := rfl

/-! ## setBlock -/

@[simp] theorem State.setBlock_turn (w : Nat) (x : BlockRec) : (s.setBlock w x).turn = s.turn := rfl
@[simp] theorem State.setBlock_issuer (w : Nat) (x : BlockRec) : (s.setBlock w x).issuer = s.issuer := rfl
@[simp] theorem State.setBlock_free (w : Nat) (x : BlockRec) : (s.setBlock w x).free = s.free := rfl
@[simp] theorem State.setBlock_time (w : Nat) (x : BlockRec) : (s.setBlock w x).time = s.time := rfl
@[simp] theorem State.setBlock_cycles (w : Nat) (x : BlockRec) : (s.setBlock w x).cycles = s.cycles := rfl
@[simp] theorem State.setBlock_powered (w : Nat) (x : BlockRec) : (s.setBlock w x).powered = s.powered := rfl
@[simp] theorem State.setBlock_recovery (w : Nat) (x : BlockRec) : (s.setBlock w x).recovery = s.recovery := rfl
@[simp] theorem State.setBlock_ready (w : Nat) (x : BlockRec) : (s.setBlock w x).ready = s.ready := rfl
@[simp] theorem State.setBlock_moduleId (w : Nat) (x : BlockRec) : (s.setBlock w x).moduleId = s.moduleId := rfl
@[simp] theorem State.setBlock_measurements (w : Nat) (x : BlockRec) : (s.setBlock w x).measurements = s.measurements := rfl
@[simp] theorem State.setBlock_rings (w : Nat) (x : BlockRec) : (s.setBlock w x).rings = s.rings := rfl
@[simp] theorem State.setBlock_completions (w : Nat) (x : BlockRec) : (s.setBlock w x).completions = s.completions := rfl
@[simp] theorem State.setBlock_mailbox (w : Nat) (x : BlockRec) : (s.setBlock w x).mailbox = s.mailbox := rfl
@[simp] theorem State.setBlock_selectors (w : Nat) (x : BlockRec) : (s.setBlock w x).selectors = s.selectors := rfl
@[simp] theorem State.setBlock_views (w : Nat) (x : BlockRec) : (s.setBlock w x).views = s.views := rfl
@[simp] theorem State.setBlock_i3c (w : Nat) (x : BlockRec) : (s.setBlock w x).i3c = s.i3c := rfl
@[simp] theorem State.setBlock_nextRing (w : Nat) (x : BlockRec) : (s.setBlock w x).nextRing = s.nextRing := rfl
@[simp] theorem State.setBlock_mem (w : Nat) (x : BlockRec) : (s.setBlock w x).mem = s.mem := rfl
@[simp] theorem State.setBlock_l1 (w : Nat) (x : BlockRec) : (s.setBlock w x).l1 = s.l1 := rfl
@[simp] theorem State.setBlock_l2 (w : Nat) (x : BlockRec) : (s.setBlock w x).l2 = s.l2 := rfl
@[simp] theorem State.setBlock_rdc (w : Nat) (x : BlockRec) : (s.setBlock w x).rdc = s.rdc := rfl
@[simp] theorem State.setBlock_shadow (w : Nat) (x : BlockRec) : (s.setBlock w x).shadow = s.shadow := rfl
@[simp] theorem State.setBlock_past (w : Nat) (x : BlockRec) : (s.setBlock w x).past = s.past := rfl
@[simp] theorem State.setBlock_roots (w : Nat) (x : BlockRec) : (s.setBlock w x).roots = s.roots := rfl
@[simp] theorem State.setBlock_oldRoots (w : Nat) (x : BlockRec) : (s.setBlock w x).oldRoots = s.oldRoots := rfl
@[simp] theorem State.setBlock_tlbs (w : Nat) (x : BlockRec) : (s.setBlock w x).tlbs = s.tlbs := rfl
@[simp] theorem State.setBlock_icaches (w : Nat) (x : BlockRec) : (s.setBlock w x).icaches = s.icaches := rfl
@[simp] theorem State.setBlock_ops (w : Nat) (x : BlockRec) : (s.setBlock w x).ops = s.ops := rfl
@[simp] theorem State.setBlock_nextOp (w : Nat) (x : BlockRec) : (s.setBlock w x).nextOp = s.nextOp := rfl
@[simp] theorem State.setBlock_nextSeq (w : Nat) (x : BlockRec) : (s.setBlock w x).nextSeq = s.nextSeq := rfl
@[simp] theorem State.setBlock_jobs (w : Nat) (x : BlockRec) : (s.setBlock w x).jobs = s.jobs := rfl
@[simp] theorem State.setBlock_nextGrid (w : Nat) (x : BlockRec) : (s.setBlock w x).nextGrid = s.nextGrid := rfl
@[simp] theorem State.setBlock_nextBlock (w : Nat) (x : BlockRec) : (s.setBlock w x).nextBlock = s.nextBlock := rfl
@[simp] theorem State.setBlock_warps (w : Nat) (x : BlockRec) : (s.setBlock w x).warps = s.warps := rfl
@[simp] theorem State.setBlock_nextWarp (w : Nat) (x : BlockRec) : (s.setBlock w x).nextWarp = s.nextWarp := rfl
@[simp] theorem State.setBlock_entries (w : Nat) (x : BlockRec) : (s.setBlock w x).entries = s.entries := rfl
@[simp] theorem State.setBlock_binds (w : Nat) (x : BlockRec) : (s.setBlock w x).binds = s.binds := rfl
@[simp] theorem State.setBlock_bins (w : Nat) (x : BlockRec) : (s.setBlock w x).bins = s.bins := rfl
@[simp] theorem State.setBlock_clusters (w : Nat) (x : BlockRec) : (s.setBlock w x).clusters = s.clusters := rfl
@[simp] theorem State.setBlock_gangs (w : Nat) (x : BlockRec) : (s.setBlock w x).gangs = s.gangs := rfl
@[simp] theorem State.setBlock_nextGang (w : Nat) (x : BlockRec) : (s.setBlock w x).nextGang = s.nextGang := rfl
@[simp] theorem State.setBlock_savePools (w : Nat) (x : BlockRec) : (s.setBlock w x).savePools = s.savePools := rfl
@[simp] theorem State.setBlock_slots (w : Nat) (x : BlockRec) : (s.setBlock w x).slots = s.slots := rfl
@[simp] theorem State.setBlock_coreMap (w : Nat) (x : BlockRec) : (s.setBlock w x).coreMap = s.coreMap := rfl
@[simp] theorem State.setBlock_phys (w : Nat) (x : BlockRec) : (s.setBlock w x).phys = s.phys := rfl
@[simp] theorem State.setBlock_placeCounts (w : Nat) (x : BlockRec) : (s.setBlock w x).placeCounts = s.placeCounts := rfl
@[simp] theorem State.setBlock_lastBusy (w : Nat) (x : BlockRec) : (s.setBlock w x).lastBusy = s.lastBusy := rfl
@[simp] theorem State.setBlock_copyLogs (w : Nat) (x : BlockRec) : (s.setBlock w x).copyLogs = s.copyLogs := rfl
@[simp] theorem State.setBlock_mccs (w : Nat) (x : BlockRec) : (s.setBlock w x).mccs = s.mccs := rfl
@[simp] theorem State.setBlock_arrs (w : Nat) (x : BlockRec) : (s.setBlock w x).arrs = s.arrs := rfl
@[simp] theorem State.setBlock_acc (w : Nat) (x : BlockRec) : (s.setBlock w x).acc = s.acc := rfl
@[simp] theorem State.setBlock_slices (w : Nat) (x : BlockRec) : (s.setBlock w x).slices = s.slices := rfl
@[simp] theorem State.setBlock_groups (w : Nat) (x : BlockRec) : (s.setBlock w x).groups = s.groups := rfl
@[simp] theorem State.setBlock_held (w : Nat) (x : BlockRec) : (s.setBlock w x).held = s.held := rfl
@[simp] theorem State.setBlock_ringJobs (w : Nat) (x : BlockRec) : (s.setBlock w x).ringJobs = s.ringJobs := rfl
@[simp] theorem State.setBlock_ports (w : Nat) (x : BlockRec) : (s.setBlock w x).ports = s.ports := rfl
@[simp] theorem State.setBlock_xfers (w : Nat) (x : BlockRec) : (s.setBlock w x).xfers = s.xfers := rfl
@[simp] theorem State.setBlock_pantries (w : Nat) (x : BlockRec) : (s.setBlock w x).pantries = s.pantries := rfl
@[simp] theorem State.setBlock_larders (w : Nat) (x : BlockRec) : (s.setBlock w x).larders = s.larders := rfl
@[simp] theorem State.setBlock_capBanks (w : Nat) (x : BlockRec) : (s.setBlock w x).capBanks = s.capBanks := rfl
@[simp] theorem State.setBlock_regions (w : Nat) (x : BlockRec) : (s.setBlock w x).regions = s.regions := rfl
@[simp] theorem State.setBlock_hbms (w : Nat) (x : BlockRec) : (s.setBlock w x).hbms = s.hbms := rfl
@[simp] theorem State.setBlock_intents (w : Nat) (x : BlockRec) : (s.setBlock w x).intents = s.intents := rfl
@[simp] theorem State.setBlock_ballast (w : Nat) (x : BlockRec) : (s.setBlock w x).ballast = s.ballast := rfl
@[simp] theorem State.setBlock_gov (w : Nat) (x : BlockRec) : (s.setBlock w x).gov = s.gov := rfl
@[simp] theorem State.warp_setBlock (w : Nat) (x : BlockRec) (k : Nat) : (s.setBlock w x).warp k = s.warp k := rfl
@[simp] theorem State.job_setBlock (w : Nat) (x : BlockRec) (k : Nat) : (s.setBlock w x).job k = s.job k := rfl
@[simp] theorem State.op_setBlock (w : Nat) (x : BlockRec) (k : Nat) : (s.setBlock w x).op k = s.op k := rfl
@[simp] theorem State.mcc_setBlock (w : Nat) (x : BlockRec) (k : Nat) : (s.setBlock w x).mcc k = s.mcc k := rfl
@[simp] theorem State.arr_setBlock (w : Nat) (x : BlockRec) (k : Nat) : (s.setBlock w x).arr k = s.arr k := rfl
@[simp] theorem State.slice_setBlock (w : Nat) (x : BlockRec) (k : Nat) : (s.setBlock w x).slice k = s.slice k := rfl
@[simp] theorem State.gang_setBlock (w : Nat) (x : BlockRec) (k : Nat) : (s.setBlock w x).gang k = s.gang k := rfl
@[simp] theorem State.pantry_setBlock (w : Nat) (x : BlockRec) (k : Nat) : (s.setBlock w x).pantry k = s.pantry k := rfl
@[simp] theorem State.larder_setBlock (w : Nat) (x : BlockRec) (k : Nat) : (s.setBlock w x).larder k = s.larder k := rfl
@[simp] theorem State.entry_setBlock (w : Nat) (x : BlockRec) (k : Nat) : (s.setBlock w x).entry k = s.entry k := rfl
@[simp] theorem State.bin_setBlock (w : Nat) (x : BlockRec) (k : Nat) : (s.setBlock w x).bin k = s.bin k := rfl
@[simp] theorem State.ring_setBlock (w : Nat) (x : BlockRec) (k : Nat) : (s.setBlock w x).ring k = s.ring k := rfl

/-! ## setJob -/

@[simp] theorem State.setJob_turn (w : Nat) (x : Job) : (s.setJob w x).turn = s.turn := rfl
@[simp] theorem State.setJob_issuer (w : Nat) (x : Job) : (s.setJob w x).issuer = s.issuer := rfl
@[simp] theorem State.setJob_free (w : Nat) (x : Job) : (s.setJob w x).free = s.free := rfl
@[simp] theorem State.setJob_time (w : Nat) (x : Job) : (s.setJob w x).time = s.time := rfl
@[simp] theorem State.setJob_cycles (w : Nat) (x : Job) : (s.setJob w x).cycles = s.cycles := rfl
@[simp] theorem State.setJob_powered (w : Nat) (x : Job) : (s.setJob w x).powered = s.powered := rfl
@[simp] theorem State.setJob_recovery (w : Nat) (x : Job) : (s.setJob w x).recovery = s.recovery := rfl
@[simp] theorem State.setJob_ready (w : Nat) (x : Job) : (s.setJob w x).ready = s.ready := rfl
@[simp] theorem State.setJob_moduleId (w : Nat) (x : Job) : (s.setJob w x).moduleId = s.moduleId := rfl
@[simp] theorem State.setJob_measurements (w : Nat) (x : Job) : (s.setJob w x).measurements = s.measurements := rfl
@[simp] theorem State.setJob_rings (w : Nat) (x : Job) : (s.setJob w x).rings = s.rings := rfl
@[simp] theorem State.setJob_completions (w : Nat) (x : Job) : (s.setJob w x).completions = s.completions := rfl
@[simp] theorem State.setJob_mailbox (w : Nat) (x : Job) : (s.setJob w x).mailbox = s.mailbox := rfl
@[simp] theorem State.setJob_selectors (w : Nat) (x : Job) : (s.setJob w x).selectors = s.selectors := rfl
@[simp] theorem State.setJob_views (w : Nat) (x : Job) : (s.setJob w x).views = s.views := rfl
@[simp] theorem State.setJob_i3c (w : Nat) (x : Job) : (s.setJob w x).i3c = s.i3c := rfl
@[simp] theorem State.setJob_nextRing (w : Nat) (x : Job) : (s.setJob w x).nextRing = s.nextRing := rfl
@[simp] theorem State.setJob_mem (w : Nat) (x : Job) : (s.setJob w x).mem = s.mem := rfl
@[simp] theorem State.setJob_l1 (w : Nat) (x : Job) : (s.setJob w x).l1 = s.l1 := rfl
@[simp] theorem State.setJob_l2 (w : Nat) (x : Job) : (s.setJob w x).l2 = s.l2 := rfl
@[simp] theorem State.setJob_rdc (w : Nat) (x : Job) : (s.setJob w x).rdc = s.rdc := rfl
@[simp] theorem State.setJob_shadow (w : Nat) (x : Job) : (s.setJob w x).shadow = s.shadow := rfl
@[simp] theorem State.setJob_past (w : Nat) (x : Job) : (s.setJob w x).past = s.past := rfl
@[simp] theorem State.setJob_roots (w : Nat) (x : Job) : (s.setJob w x).roots = s.roots := rfl
@[simp] theorem State.setJob_oldRoots (w : Nat) (x : Job) : (s.setJob w x).oldRoots = s.oldRoots := rfl
@[simp] theorem State.setJob_tlbs (w : Nat) (x : Job) : (s.setJob w x).tlbs = s.tlbs := rfl
@[simp] theorem State.setJob_icaches (w : Nat) (x : Job) : (s.setJob w x).icaches = s.icaches := rfl
@[simp] theorem State.setJob_ops (w : Nat) (x : Job) : (s.setJob w x).ops = s.ops := rfl
@[simp] theorem State.setJob_nextOp (w : Nat) (x : Job) : (s.setJob w x).nextOp = s.nextOp := rfl
@[simp] theorem State.setJob_nextSeq (w : Nat) (x : Job) : (s.setJob w x).nextSeq = s.nextSeq := rfl
@[simp] theorem State.setJob_nextGrid (w : Nat) (x : Job) : (s.setJob w x).nextGrid = s.nextGrid := rfl
@[simp] theorem State.setJob_blocks (w : Nat) (x : Job) : (s.setJob w x).blocks = s.blocks := rfl
@[simp] theorem State.setJob_nextBlock (w : Nat) (x : Job) : (s.setJob w x).nextBlock = s.nextBlock := rfl
@[simp] theorem State.setJob_warps (w : Nat) (x : Job) : (s.setJob w x).warps = s.warps := rfl
@[simp] theorem State.setJob_nextWarp (w : Nat) (x : Job) : (s.setJob w x).nextWarp = s.nextWarp := rfl
@[simp] theorem State.setJob_entries (w : Nat) (x : Job) : (s.setJob w x).entries = s.entries := rfl
@[simp] theorem State.setJob_binds (w : Nat) (x : Job) : (s.setJob w x).binds = s.binds := rfl
@[simp] theorem State.setJob_bins (w : Nat) (x : Job) : (s.setJob w x).bins = s.bins := rfl
@[simp] theorem State.setJob_clusters (w : Nat) (x : Job) : (s.setJob w x).clusters = s.clusters := rfl
@[simp] theorem State.setJob_gangs (w : Nat) (x : Job) : (s.setJob w x).gangs = s.gangs := rfl
@[simp] theorem State.setJob_nextGang (w : Nat) (x : Job) : (s.setJob w x).nextGang = s.nextGang := rfl
@[simp] theorem State.setJob_savePools (w : Nat) (x : Job) : (s.setJob w x).savePools = s.savePools := rfl
@[simp] theorem State.setJob_slots (w : Nat) (x : Job) : (s.setJob w x).slots = s.slots := rfl
@[simp] theorem State.setJob_coreMap (w : Nat) (x : Job) : (s.setJob w x).coreMap = s.coreMap := rfl
@[simp] theorem State.setJob_phys (w : Nat) (x : Job) : (s.setJob w x).phys = s.phys := rfl
@[simp] theorem State.setJob_placeCounts (w : Nat) (x : Job) : (s.setJob w x).placeCounts = s.placeCounts := rfl
@[simp] theorem State.setJob_lastBusy (w : Nat) (x : Job) : (s.setJob w x).lastBusy = s.lastBusy := rfl
@[simp] theorem State.setJob_copyLogs (w : Nat) (x : Job) : (s.setJob w x).copyLogs = s.copyLogs := rfl
@[simp] theorem State.setJob_mccs (w : Nat) (x : Job) : (s.setJob w x).mccs = s.mccs := rfl
@[simp] theorem State.setJob_arrs (w : Nat) (x : Job) : (s.setJob w x).arrs = s.arrs := rfl
@[simp] theorem State.setJob_acc (w : Nat) (x : Job) : (s.setJob w x).acc = s.acc := rfl
@[simp] theorem State.setJob_slices (w : Nat) (x : Job) : (s.setJob w x).slices = s.slices := rfl
@[simp] theorem State.setJob_groups (w : Nat) (x : Job) : (s.setJob w x).groups = s.groups := rfl
@[simp] theorem State.setJob_held (w : Nat) (x : Job) : (s.setJob w x).held = s.held := rfl
@[simp] theorem State.setJob_ringJobs (w : Nat) (x : Job) : (s.setJob w x).ringJobs = s.ringJobs := rfl
@[simp] theorem State.setJob_ports (w : Nat) (x : Job) : (s.setJob w x).ports = s.ports := rfl
@[simp] theorem State.setJob_xfers (w : Nat) (x : Job) : (s.setJob w x).xfers = s.xfers := rfl
@[simp] theorem State.setJob_pantries (w : Nat) (x : Job) : (s.setJob w x).pantries = s.pantries := rfl
@[simp] theorem State.setJob_larders (w : Nat) (x : Job) : (s.setJob w x).larders = s.larders := rfl
@[simp] theorem State.setJob_capBanks (w : Nat) (x : Job) : (s.setJob w x).capBanks = s.capBanks := rfl
@[simp] theorem State.setJob_regions (w : Nat) (x : Job) : (s.setJob w x).regions = s.regions := rfl
@[simp] theorem State.setJob_hbms (w : Nat) (x : Job) : (s.setJob w x).hbms = s.hbms := rfl
@[simp] theorem State.setJob_intents (w : Nat) (x : Job) : (s.setJob w x).intents = s.intents := rfl
@[simp] theorem State.setJob_ballast (w : Nat) (x : Job) : (s.setJob w x).ballast = s.ballast := rfl
@[simp] theorem State.setJob_gov (w : Nat) (x : Job) : (s.setJob w x).gov = s.gov := rfl
@[simp] theorem State.warp_setJob (w : Nat) (x : Job) (k : Nat) : (s.setJob w x).warp k = s.warp k := rfl
@[simp] theorem State.block_setJob (w : Nat) (x : Job) (k : Nat) : (s.setJob w x).block k = s.block k := rfl
@[simp] theorem State.op_setJob (w : Nat) (x : Job) (k : Nat) : (s.setJob w x).op k = s.op k := rfl
@[simp] theorem State.mcc_setJob (w : Nat) (x : Job) (k : Nat) : (s.setJob w x).mcc k = s.mcc k := rfl
@[simp] theorem State.arr_setJob (w : Nat) (x : Job) (k : Nat) : (s.setJob w x).arr k = s.arr k := rfl
@[simp] theorem State.slice_setJob (w : Nat) (x : Job) (k : Nat) : (s.setJob w x).slice k = s.slice k := rfl
@[simp] theorem State.gang_setJob (w : Nat) (x : Job) (k : Nat) : (s.setJob w x).gang k = s.gang k := rfl
@[simp] theorem State.pantry_setJob (w : Nat) (x : Job) (k : Nat) : (s.setJob w x).pantry k = s.pantry k := rfl
@[simp] theorem State.larder_setJob (w : Nat) (x : Job) (k : Nat) : (s.setJob w x).larder k = s.larder k := rfl
@[simp] theorem State.entry_setJob (w : Nat) (x : Job) (k : Nat) : (s.setJob w x).entry k = s.entry k := rfl
@[simp] theorem State.bin_setJob (w : Nat) (x : Job) (k : Nat) : (s.setJob w x).bin k = s.bin k := rfl
@[simp] theorem State.ring_setJob (w : Nat) (x : Job) (k : Nat) : (s.setJob w x).ring k = s.ring k := rfl

/-! ## setOp -/

@[simp] theorem State.setOp_turn (w : Nat) (x : Op) : (s.setOp w x).turn = s.turn := rfl
@[simp] theorem State.setOp_issuer (w : Nat) (x : Op) : (s.setOp w x).issuer = s.issuer := rfl
@[simp] theorem State.setOp_free (w : Nat) (x : Op) : (s.setOp w x).free = s.free := rfl
@[simp] theorem State.setOp_time (w : Nat) (x : Op) : (s.setOp w x).time = s.time := rfl
@[simp] theorem State.setOp_cycles (w : Nat) (x : Op) : (s.setOp w x).cycles = s.cycles := rfl
@[simp] theorem State.setOp_powered (w : Nat) (x : Op) : (s.setOp w x).powered = s.powered := rfl
@[simp] theorem State.setOp_recovery (w : Nat) (x : Op) : (s.setOp w x).recovery = s.recovery := rfl
@[simp] theorem State.setOp_ready (w : Nat) (x : Op) : (s.setOp w x).ready = s.ready := rfl
@[simp] theorem State.setOp_moduleId (w : Nat) (x : Op) : (s.setOp w x).moduleId = s.moduleId := rfl
@[simp] theorem State.setOp_measurements (w : Nat) (x : Op) : (s.setOp w x).measurements = s.measurements := rfl
@[simp] theorem State.setOp_rings (w : Nat) (x : Op) : (s.setOp w x).rings = s.rings := rfl
@[simp] theorem State.setOp_completions (w : Nat) (x : Op) : (s.setOp w x).completions = s.completions := rfl
@[simp] theorem State.setOp_mailbox (w : Nat) (x : Op) : (s.setOp w x).mailbox = s.mailbox := rfl
@[simp] theorem State.setOp_selectors (w : Nat) (x : Op) : (s.setOp w x).selectors = s.selectors := rfl
@[simp] theorem State.setOp_views (w : Nat) (x : Op) : (s.setOp w x).views = s.views := rfl
@[simp] theorem State.setOp_i3c (w : Nat) (x : Op) : (s.setOp w x).i3c = s.i3c := rfl
@[simp] theorem State.setOp_nextRing (w : Nat) (x : Op) : (s.setOp w x).nextRing = s.nextRing := rfl
@[simp] theorem State.setOp_mem (w : Nat) (x : Op) : (s.setOp w x).mem = s.mem := rfl
@[simp] theorem State.setOp_l1 (w : Nat) (x : Op) : (s.setOp w x).l1 = s.l1 := rfl
@[simp] theorem State.setOp_l2 (w : Nat) (x : Op) : (s.setOp w x).l2 = s.l2 := rfl
@[simp] theorem State.setOp_rdc (w : Nat) (x : Op) : (s.setOp w x).rdc = s.rdc := rfl
@[simp] theorem State.setOp_shadow (w : Nat) (x : Op) : (s.setOp w x).shadow = s.shadow := rfl
@[simp] theorem State.setOp_past (w : Nat) (x : Op) : (s.setOp w x).past = s.past := rfl
@[simp] theorem State.setOp_roots (w : Nat) (x : Op) : (s.setOp w x).roots = s.roots := rfl
@[simp] theorem State.setOp_oldRoots (w : Nat) (x : Op) : (s.setOp w x).oldRoots = s.oldRoots := rfl
@[simp] theorem State.setOp_tlbs (w : Nat) (x : Op) : (s.setOp w x).tlbs = s.tlbs := rfl
@[simp] theorem State.setOp_icaches (w : Nat) (x : Op) : (s.setOp w x).icaches = s.icaches := rfl
@[simp] theorem State.setOp_nextOp (w : Nat) (x : Op) : (s.setOp w x).nextOp = s.nextOp := rfl
@[simp] theorem State.setOp_nextSeq (w : Nat) (x : Op) : (s.setOp w x).nextSeq = s.nextSeq := rfl
@[simp] theorem State.setOp_jobs (w : Nat) (x : Op) : (s.setOp w x).jobs = s.jobs := rfl
@[simp] theorem State.setOp_nextGrid (w : Nat) (x : Op) : (s.setOp w x).nextGrid = s.nextGrid := rfl
@[simp] theorem State.setOp_blocks (w : Nat) (x : Op) : (s.setOp w x).blocks = s.blocks := rfl
@[simp] theorem State.setOp_nextBlock (w : Nat) (x : Op) : (s.setOp w x).nextBlock = s.nextBlock := rfl
@[simp] theorem State.setOp_warps (w : Nat) (x : Op) : (s.setOp w x).warps = s.warps := rfl
@[simp] theorem State.setOp_nextWarp (w : Nat) (x : Op) : (s.setOp w x).nextWarp = s.nextWarp := rfl
@[simp] theorem State.setOp_entries (w : Nat) (x : Op) : (s.setOp w x).entries = s.entries := rfl
@[simp] theorem State.setOp_binds (w : Nat) (x : Op) : (s.setOp w x).binds = s.binds := rfl
@[simp] theorem State.setOp_bins (w : Nat) (x : Op) : (s.setOp w x).bins = s.bins := rfl
@[simp] theorem State.setOp_clusters (w : Nat) (x : Op) : (s.setOp w x).clusters = s.clusters := rfl
@[simp] theorem State.setOp_gangs (w : Nat) (x : Op) : (s.setOp w x).gangs = s.gangs := rfl
@[simp] theorem State.setOp_nextGang (w : Nat) (x : Op) : (s.setOp w x).nextGang = s.nextGang := rfl
@[simp] theorem State.setOp_savePools (w : Nat) (x : Op) : (s.setOp w x).savePools = s.savePools := rfl
@[simp] theorem State.setOp_slots (w : Nat) (x : Op) : (s.setOp w x).slots = s.slots := rfl
@[simp] theorem State.setOp_coreMap (w : Nat) (x : Op) : (s.setOp w x).coreMap = s.coreMap := rfl
@[simp] theorem State.setOp_phys (w : Nat) (x : Op) : (s.setOp w x).phys = s.phys := rfl
@[simp] theorem State.setOp_placeCounts (w : Nat) (x : Op) : (s.setOp w x).placeCounts = s.placeCounts := rfl
@[simp] theorem State.setOp_lastBusy (w : Nat) (x : Op) : (s.setOp w x).lastBusy = s.lastBusy := rfl
@[simp] theorem State.setOp_copyLogs (w : Nat) (x : Op) : (s.setOp w x).copyLogs = s.copyLogs := rfl
@[simp] theorem State.setOp_mccs (w : Nat) (x : Op) : (s.setOp w x).mccs = s.mccs := rfl
@[simp] theorem State.setOp_arrs (w : Nat) (x : Op) : (s.setOp w x).arrs = s.arrs := rfl
@[simp] theorem State.setOp_acc (w : Nat) (x : Op) : (s.setOp w x).acc = s.acc := rfl
@[simp] theorem State.setOp_slices (w : Nat) (x : Op) : (s.setOp w x).slices = s.slices := rfl
@[simp] theorem State.setOp_groups (w : Nat) (x : Op) : (s.setOp w x).groups = s.groups := rfl
@[simp] theorem State.setOp_held (w : Nat) (x : Op) : (s.setOp w x).held = s.held := rfl
@[simp] theorem State.setOp_ringJobs (w : Nat) (x : Op) : (s.setOp w x).ringJobs = s.ringJobs := rfl
@[simp] theorem State.setOp_ports (w : Nat) (x : Op) : (s.setOp w x).ports = s.ports := rfl
@[simp] theorem State.setOp_xfers (w : Nat) (x : Op) : (s.setOp w x).xfers = s.xfers := rfl
@[simp] theorem State.setOp_pantries (w : Nat) (x : Op) : (s.setOp w x).pantries = s.pantries := rfl
@[simp] theorem State.setOp_larders (w : Nat) (x : Op) : (s.setOp w x).larders = s.larders := rfl
@[simp] theorem State.setOp_capBanks (w : Nat) (x : Op) : (s.setOp w x).capBanks = s.capBanks := rfl
@[simp] theorem State.setOp_regions (w : Nat) (x : Op) : (s.setOp w x).regions = s.regions := rfl
@[simp] theorem State.setOp_hbms (w : Nat) (x : Op) : (s.setOp w x).hbms = s.hbms := rfl
@[simp] theorem State.setOp_intents (w : Nat) (x : Op) : (s.setOp w x).intents = s.intents := rfl
@[simp] theorem State.setOp_ballast (w : Nat) (x : Op) : (s.setOp w x).ballast = s.ballast := rfl
@[simp] theorem State.setOp_gov (w : Nat) (x : Op) : (s.setOp w x).gov = s.gov := rfl
@[simp] theorem State.warp_setOp (w : Nat) (x : Op) (k : Nat) : (s.setOp w x).warp k = s.warp k := rfl
@[simp] theorem State.block_setOp (w : Nat) (x : Op) (k : Nat) : (s.setOp w x).block k = s.block k := rfl
@[simp] theorem State.job_setOp (w : Nat) (x : Op) (k : Nat) : (s.setOp w x).job k = s.job k := rfl
@[simp] theorem State.mcc_setOp (w : Nat) (x : Op) (k : Nat) : (s.setOp w x).mcc k = s.mcc k := rfl
@[simp] theorem State.arr_setOp (w : Nat) (x : Op) (k : Nat) : (s.setOp w x).arr k = s.arr k := rfl
@[simp] theorem State.slice_setOp (w : Nat) (x : Op) (k : Nat) : (s.setOp w x).slice k = s.slice k := rfl
@[simp] theorem State.gang_setOp (w : Nat) (x : Op) (k : Nat) : (s.setOp w x).gang k = s.gang k := rfl
@[simp] theorem State.pantry_setOp (w : Nat) (x : Op) (k : Nat) : (s.setOp w x).pantry k = s.pantry k := rfl
@[simp] theorem State.larder_setOp (w : Nat) (x : Op) (k : Nat) : (s.setOp w x).larder k = s.larder k := rfl
@[simp] theorem State.entry_setOp (w : Nat) (x : Op) (k : Nat) : (s.setOp w x).entry k = s.entry k := rfl
@[simp] theorem State.bin_setOp (w : Nat) (x : Op) (k : Nat) : (s.setOp w x).bin k = s.bin k := rfl
@[simp] theorem State.ring_setOp (w : Nat) (x : Op) (k : Nat) : (s.setOp w x).ring k = s.ring k := rfl

/-! ## setMcc -/

@[simp] theorem State.setMcc_turn (w : Nat) (x : Mcc) : (s.setMcc w x).turn = s.turn := rfl
@[simp] theorem State.setMcc_issuer (w : Nat) (x : Mcc) : (s.setMcc w x).issuer = s.issuer := rfl
@[simp] theorem State.setMcc_free (w : Nat) (x : Mcc) : (s.setMcc w x).free = s.free := rfl
@[simp] theorem State.setMcc_time (w : Nat) (x : Mcc) : (s.setMcc w x).time = s.time := rfl
@[simp] theorem State.setMcc_cycles (w : Nat) (x : Mcc) : (s.setMcc w x).cycles = s.cycles := rfl
@[simp] theorem State.setMcc_powered (w : Nat) (x : Mcc) : (s.setMcc w x).powered = s.powered := rfl
@[simp] theorem State.setMcc_recovery (w : Nat) (x : Mcc) : (s.setMcc w x).recovery = s.recovery := rfl
@[simp] theorem State.setMcc_ready (w : Nat) (x : Mcc) : (s.setMcc w x).ready = s.ready := rfl
@[simp] theorem State.setMcc_moduleId (w : Nat) (x : Mcc) : (s.setMcc w x).moduleId = s.moduleId := rfl
@[simp] theorem State.setMcc_measurements (w : Nat) (x : Mcc) : (s.setMcc w x).measurements = s.measurements := rfl
@[simp] theorem State.setMcc_rings (w : Nat) (x : Mcc) : (s.setMcc w x).rings = s.rings := rfl
@[simp] theorem State.setMcc_completions (w : Nat) (x : Mcc) : (s.setMcc w x).completions = s.completions := rfl
@[simp] theorem State.setMcc_mailbox (w : Nat) (x : Mcc) : (s.setMcc w x).mailbox = s.mailbox := rfl
@[simp] theorem State.setMcc_selectors (w : Nat) (x : Mcc) : (s.setMcc w x).selectors = s.selectors := rfl
@[simp] theorem State.setMcc_views (w : Nat) (x : Mcc) : (s.setMcc w x).views = s.views := rfl
@[simp] theorem State.setMcc_i3c (w : Nat) (x : Mcc) : (s.setMcc w x).i3c = s.i3c := rfl
@[simp] theorem State.setMcc_nextRing (w : Nat) (x : Mcc) : (s.setMcc w x).nextRing = s.nextRing := rfl
@[simp] theorem State.setMcc_mem (w : Nat) (x : Mcc) : (s.setMcc w x).mem = s.mem := rfl
@[simp] theorem State.setMcc_l1 (w : Nat) (x : Mcc) : (s.setMcc w x).l1 = s.l1 := rfl
@[simp] theorem State.setMcc_l2 (w : Nat) (x : Mcc) : (s.setMcc w x).l2 = s.l2 := rfl
@[simp] theorem State.setMcc_rdc (w : Nat) (x : Mcc) : (s.setMcc w x).rdc = s.rdc := rfl
@[simp] theorem State.setMcc_shadow (w : Nat) (x : Mcc) : (s.setMcc w x).shadow = s.shadow := rfl
@[simp] theorem State.setMcc_past (w : Nat) (x : Mcc) : (s.setMcc w x).past = s.past := rfl
@[simp] theorem State.setMcc_roots (w : Nat) (x : Mcc) : (s.setMcc w x).roots = s.roots := rfl
@[simp] theorem State.setMcc_oldRoots (w : Nat) (x : Mcc) : (s.setMcc w x).oldRoots = s.oldRoots := rfl
@[simp] theorem State.setMcc_tlbs (w : Nat) (x : Mcc) : (s.setMcc w x).tlbs = s.tlbs := rfl
@[simp] theorem State.setMcc_icaches (w : Nat) (x : Mcc) : (s.setMcc w x).icaches = s.icaches := rfl
@[simp] theorem State.setMcc_ops (w : Nat) (x : Mcc) : (s.setMcc w x).ops = s.ops := rfl
@[simp] theorem State.setMcc_nextOp (w : Nat) (x : Mcc) : (s.setMcc w x).nextOp = s.nextOp := rfl
@[simp] theorem State.setMcc_nextSeq (w : Nat) (x : Mcc) : (s.setMcc w x).nextSeq = s.nextSeq := rfl
@[simp] theorem State.setMcc_jobs (w : Nat) (x : Mcc) : (s.setMcc w x).jobs = s.jobs := rfl
@[simp] theorem State.setMcc_nextGrid (w : Nat) (x : Mcc) : (s.setMcc w x).nextGrid = s.nextGrid := rfl
@[simp] theorem State.setMcc_blocks (w : Nat) (x : Mcc) : (s.setMcc w x).blocks = s.blocks := rfl
@[simp] theorem State.setMcc_nextBlock (w : Nat) (x : Mcc) : (s.setMcc w x).nextBlock = s.nextBlock := rfl
@[simp] theorem State.setMcc_warps (w : Nat) (x : Mcc) : (s.setMcc w x).warps = s.warps := rfl
@[simp] theorem State.setMcc_nextWarp (w : Nat) (x : Mcc) : (s.setMcc w x).nextWarp = s.nextWarp := rfl
@[simp] theorem State.setMcc_entries (w : Nat) (x : Mcc) : (s.setMcc w x).entries = s.entries := rfl
@[simp] theorem State.setMcc_binds (w : Nat) (x : Mcc) : (s.setMcc w x).binds = s.binds := rfl
@[simp] theorem State.setMcc_bins (w : Nat) (x : Mcc) : (s.setMcc w x).bins = s.bins := rfl
@[simp] theorem State.setMcc_clusters (w : Nat) (x : Mcc) : (s.setMcc w x).clusters = s.clusters := rfl
@[simp] theorem State.setMcc_gangs (w : Nat) (x : Mcc) : (s.setMcc w x).gangs = s.gangs := rfl
@[simp] theorem State.setMcc_nextGang (w : Nat) (x : Mcc) : (s.setMcc w x).nextGang = s.nextGang := rfl
@[simp] theorem State.setMcc_savePools (w : Nat) (x : Mcc) : (s.setMcc w x).savePools = s.savePools := rfl
@[simp] theorem State.setMcc_slots (w : Nat) (x : Mcc) : (s.setMcc w x).slots = s.slots := rfl
@[simp] theorem State.setMcc_coreMap (w : Nat) (x : Mcc) : (s.setMcc w x).coreMap = s.coreMap := rfl
@[simp] theorem State.setMcc_phys (w : Nat) (x : Mcc) : (s.setMcc w x).phys = s.phys := rfl
@[simp] theorem State.setMcc_placeCounts (w : Nat) (x : Mcc) : (s.setMcc w x).placeCounts = s.placeCounts := rfl
@[simp] theorem State.setMcc_lastBusy (w : Nat) (x : Mcc) : (s.setMcc w x).lastBusy = s.lastBusy := rfl
@[simp] theorem State.setMcc_copyLogs (w : Nat) (x : Mcc) : (s.setMcc w x).copyLogs = s.copyLogs := rfl
@[simp] theorem State.setMcc_arrs (w : Nat) (x : Mcc) : (s.setMcc w x).arrs = s.arrs := rfl
@[simp] theorem State.setMcc_acc (w : Nat) (x : Mcc) : (s.setMcc w x).acc = s.acc := rfl
@[simp] theorem State.setMcc_slices (w : Nat) (x : Mcc) : (s.setMcc w x).slices = s.slices := rfl
@[simp] theorem State.setMcc_groups (w : Nat) (x : Mcc) : (s.setMcc w x).groups = s.groups := rfl
@[simp] theorem State.setMcc_held (w : Nat) (x : Mcc) : (s.setMcc w x).held = s.held := rfl
@[simp] theorem State.setMcc_ringJobs (w : Nat) (x : Mcc) : (s.setMcc w x).ringJobs = s.ringJobs := rfl
@[simp] theorem State.setMcc_ports (w : Nat) (x : Mcc) : (s.setMcc w x).ports = s.ports := rfl
@[simp] theorem State.setMcc_xfers (w : Nat) (x : Mcc) : (s.setMcc w x).xfers = s.xfers := rfl
@[simp] theorem State.setMcc_pantries (w : Nat) (x : Mcc) : (s.setMcc w x).pantries = s.pantries := rfl
@[simp] theorem State.setMcc_larders (w : Nat) (x : Mcc) : (s.setMcc w x).larders = s.larders := rfl
@[simp] theorem State.setMcc_capBanks (w : Nat) (x : Mcc) : (s.setMcc w x).capBanks = s.capBanks := rfl
@[simp] theorem State.setMcc_regions (w : Nat) (x : Mcc) : (s.setMcc w x).regions = s.regions := rfl
@[simp] theorem State.setMcc_hbms (w : Nat) (x : Mcc) : (s.setMcc w x).hbms = s.hbms := rfl
@[simp] theorem State.setMcc_intents (w : Nat) (x : Mcc) : (s.setMcc w x).intents = s.intents := rfl
@[simp] theorem State.setMcc_ballast (w : Nat) (x : Mcc) : (s.setMcc w x).ballast = s.ballast := rfl
@[simp] theorem State.setMcc_gov (w : Nat) (x : Mcc) : (s.setMcc w x).gov = s.gov := rfl
@[simp] theorem State.warp_setMcc (w : Nat) (x : Mcc) (k : Nat) : (s.setMcc w x).warp k = s.warp k := rfl
@[simp] theorem State.block_setMcc (w : Nat) (x : Mcc) (k : Nat) : (s.setMcc w x).block k = s.block k := rfl
@[simp] theorem State.job_setMcc (w : Nat) (x : Mcc) (k : Nat) : (s.setMcc w x).job k = s.job k := rfl
@[simp] theorem State.op_setMcc (w : Nat) (x : Mcc) (k : Nat) : (s.setMcc w x).op k = s.op k := rfl
@[simp] theorem State.arr_setMcc (w : Nat) (x : Mcc) (k : Nat) : (s.setMcc w x).arr k = s.arr k := rfl
@[simp] theorem State.slice_setMcc (w : Nat) (x : Mcc) (k : Nat) : (s.setMcc w x).slice k = s.slice k := rfl
@[simp] theorem State.gang_setMcc (w : Nat) (x : Mcc) (k : Nat) : (s.setMcc w x).gang k = s.gang k := rfl
@[simp] theorem State.pantry_setMcc (w : Nat) (x : Mcc) (k : Nat) : (s.setMcc w x).pantry k = s.pantry k := rfl
@[simp] theorem State.larder_setMcc (w : Nat) (x : Mcc) (k : Nat) : (s.setMcc w x).larder k = s.larder k := rfl
@[simp] theorem State.entry_setMcc (w : Nat) (x : Mcc) (k : Nat) : (s.setMcc w x).entry k = s.entry k := rfl
@[simp] theorem State.bin_setMcc (w : Nat) (x : Mcc) (k : Nat) : (s.setMcc w x).bin k = s.bin k := rfl
@[simp] theorem State.ring_setMcc (w : Nat) (x : Mcc) (k : Nat) : (s.setMcc w x).ring k = s.ring k := rfl

/-! ## setArr -/

@[simp] theorem State.setArr_turn (w : Nat) (x : Arr) : (s.setArr w x).turn = s.turn := rfl
@[simp] theorem State.setArr_issuer (w : Nat) (x : Arr) : (s.setArr w x).issuer = s.issuer := rfl
@[simp] theorem State.setArr_free (w : Nat) (x : Arr) : (s.setArr w x).free = s.free := rfl
@[simp] theorem State.setArr_time (w : Nat) (x : Arr) : (s.setArr w x).time = s.time := rfl
@[simp] theorem State.setArr_cycles (w : Nat) (x : Arr) : (s.setArr w x).cycles = s.cycles := rfl
@[simp] theorem State.setArr_powered (w : Nat) (x : Arr) : (s.setArr w x).powered = s.powered := rfl
@[simp] theorem State.setArr_recovery (w : Nat) (x : Arr) : (s.setArr w x).recovery = s.recovery := rfl
@[simp] theorem State.setArr_ready (w : Nat) (x : Arr) : (s.setArr w x).ready = s.ready := rfl
@[simp] theorem State.setArr_moduleId (w : Nat) (x : Arr) : (s.setArr w x).moduleId = s.moduleId := rfl
@[simp] theorem State.setArr_measurements (w : Nat) (x : Arr) : (s.setArr w x).measurements = s.measurements := rfl
@[simp] theorem State.setArr_rings (w : Nat) (x : Arr) : (s.setArr w x).rings = s.rings := rfl
@[simp] theorem State.setArr_completions (w : Nat) (x : Arr) : (s.setArr w x).completions = s.completions := rfl
@[simp] theorem State.setArr_mailbox (w : Nat) (x : Arr) : (s.setArr w x).mailbox = s.mailbox := rfl
@[simp] theorem State.setArr_selectors (w : Nat) (x : Arr) : (s.setArr w x).selectors = s.selectors := rfl
@[simp] theorem State.setArr_views (w : Nat) (x : Arr) : (s.setArr w x).views = s.views := rfl
@[simp] theorem State.setArr_i3c (w : Nat) (x : Arr) : (s.setArr w x).i3c = s.i3c := rfl
@[simp] theorem State.setArr_nextRing (w : Nat) (x : Arr) : (s.setArr w x).nextRing = s.nextRing := rfl
@[simp] theorem State.setArr_mem (w : Nat) (x : Arr) : (s.setArr w x).mem = s.mem := rfl
@[simp] theorem State.setArr_l1 (w : Nat) (x : Arr) : (s.setArr w x).l1 = s.l1 := rfl
@[simp] theorem State.setArr_l2 (w : Nat) (x : Arr) : (s.setArr w x).l2 = s.l2 := rfl
@[simp] theorem State.setArr_rdc (w : Nat) (x : Arr) : (s.setArr w x).rdc = s.rdc := rfl
@[simp] theorem State.setArr_shadow (w : Nat) (x : Arr) : (s.setArr w x).shadow = s.shadow := rfl
@[simp] theorem State.setArr_past (w : Nat) (x : Arr) : (s.setArr w x).past = s.past := rfl
@[simp] theorem State.setArr_roots (w : Nat) (x : Arr) : (s.setArr w x).roots = s.roots := rfl
@[simp] theorem State.setArr_oldRoots (w : Nat) (x : Arr) : (s.setArr w x).oldRoots = s.oldRoots := rfl
@[simp] theorem State.setArr_tlbs (w : Nat) (x : Arr) : (s.setArr w x).tlbs = s.tlbs := rfl
@[simp] theorem State.setArr_icaches (w : Nat) (x : Arr) : (s.setArr w x).icaches = s.icaches := rfl
@[simp] theorem State.setArr_ops (w : Nat) (x : Arr) : (s.setArr w x).ops = s.ops := rfl
@[simp] theorem State.setArr_nextOp (w : Nat) (x : Arr) : (s.setArr w x).nextOp = s.nextOp := rfl
@[simp] theorem State.setArr_nextSeq (w : Nat) (x : Arr) : (s.setArr w x).nextSeq = s.nextSeq := rfl
@[simp] theorem State.setArr_jobs (w : Nat) (x : Arr) : (s.setArr w x).jobs = s.jobs := rfl
@[simp] theorem State.setArr_nextGrid (w : Nat) (x : Arr) : (s.setArr w x).nextGrid = s.nextGrid := rfl
@[simp] theorem State.setArr_blocks (w : Nat) (x : Arr) : (s.setArr w x).blocks = s.blocks := rfl
@[simp] theorem State.setArr_nextBlock (w : Nat) (x : Arr) : (s.setArr w x).nextBlock = s.nextBlock := rfl
@[simp] theorem State.setArr_warps (w : Nat) (x : Arr) : (s.setArr w x).warps = s.warps := rfl
@[simp] theorem State.setArr_nextWarp (w : Nat) (x : Arr) : (s.setArr w x).nextWarp = s.nextWarp := rfl
@[simp] theorem State.setArr_entries (w : Nat) (x : Arr) : (s.setArr w x).entries = s.entries := rfl
@[simp] theorem State.setArr_binds (w : Nat) (x : Arr) : (s.setArr w x).binds = s.binds := rfl
@[simp] theorem State.setArr_bins (w : Nat) (x : Arr) : (s.setArr w x).bins = s.bins := rfl
@[simp] theorem State.setArr_clusters (w : Nat) (x : Arr) : (s.setArr w x).clusters = s.clusters := rfl
@[simp] theorem State.setArr_gangs (w : Nat) (x : Arr) : (s.setArr w x).gangs = s.gangs := rfl
@[simp] theorem State.setArr_nextGang (w : Nat) (x : Arr) : (s.setArr w x).nextGang = s.nextGang := rfl
@[simp] theorem State.setArr_savePools (w : Nat) (x : Arr) : (s.setArr w x).savePools = s.savePools := rfl
@[simp] theorem State.setArr_slots (w : Nat) (x : Arr) : (s.setArr w x).slots = s.slots := rfl
@[simp] theorem State.setArr_coreMap (w : Nat) (x : Arr) : (s.setArr w x).coreMap = s.coreMap := rfl
@[simp] theorem State.setArr_phys (w : Nat) (x : Arr) : (s.setArr w x).phys = s.phys := rfl
@[simp] theorem State.setArr_placeCounts (w : Nat) (x : Arr) : (s.setArr w x).placeCounts = s.placeCounts := rfl
@[simp] theorem State.setArr_lastBusy (w : Nat) (x : Arr) : (s.setArr w x).lastBusy = s.lastBusy := rfl
@[simp] theorem State.setArr_copyLogs (w : Nat) (x : Arr) : (s.setArr w x).copyLogs = s.copyLogs := rfl
@[simp] theorem State.setArr_mccs (w : Nat) (x : Arr) : (s.setArr w x).mccs = s.mccs := rfl
@[simp] theorem State.setArr_acc (w : Nat) (x : Arr) : (s.setArr w x).acc = s.acc := rfl
@[simp] theorem State.setArr_slices (w : Nat) (x : Arr) : (s.setArr w x).slices = s.slices := rfl
@[simp] theorem State.setArr_groups (w : Nat) (x : Arr) : (s.setArr w x).groups = s.groups := rfl
@[simp] theorem State.setArr_held (w : Nat) (x : Arr) : (s.setArr w x).held = s.held := rfl
@[simp] theorem State.setArr_ringJobs (w : Nat) (x : Arr) : (s.setArr w x).ringJobs = s.ringJobs := rfl
@[simp] theorem State.setArr_ports (w : Nat) (x : Arr) : (s.setArr w x).ports = s.ports := rfl
@[simp] theorem State.setArr_xfers (w : Nat) (x : Arr) : (s.setArr w x).xfers = s.xfers := rfl
@[simp] theorem State.setArr_pantries (w : Nat) (x : Arr) : (s.setArr w x).pantries = s.pantries := rfl
@[simp] theorem State.setArr_larders (w : Nat) (x : Arr) : (s.setArr w x).larders = s.larders := rfl
@[simp] theorem State.setArr_capBanks (w : Nat) (x : Arr) : (s.setArr w x).capBanks = s.capBanks := rfl
@[simp] theorem State.setArr_regions (w : Nat) (x : Arr) : (s.setArr w x).regions = s.regions := rfl
@[simp] theorem State.setArr_hbms (w : Nat) (x : Arr) : (s.setArr w x).hbms = s.hbms := rfl
@[simp] theorem State.setArr_intents (w : Nat) (x : Arr) : (s.setArr w x).intents = s.intents := rfl
@[simp] theorem State.setArr_ballast (w : Nat) (x : Arr) : (s.setArr w x).ballast = s.ballast := rfl
@[simp] theorem State.setArr_gov (w : Nat) (x : Arr) : (s.setArr w x).gov = s.gov := rfl
@[simp] theorem State.warp_setArr (w : Nat) (x : Arr) (k : Nat) : (s.setArr w x).warp k = s.warp k := rfl
@[simp] theorem State.block_setArr (w : Nat) (x : Arr) (k : Nat) : (s.setArr w x).block k = s.block k := rfl
@[simp] theorem State.job_setArr (w : Nat) (x : Arr) (k : Nat) : (s.setArr w x).job k = s.job k := rfl
@[simp] theorem State.op_setArr (w : Nat) (x : Arr) (k : Nat) : (s.setArr w x).op k = s.op k := rfl
@[simp] theorem State.mcc_setArr (w : Nat) (x : Arr) (k : Nat) : (s.setArr w x).mcc k = s.mcc k := rfl
@[simp] theorem State.slice_setArr (w : Nat) (x : Arr) (k : Nat) : (s.setArr w x).slice k = s.slice k := rfl
@[simp] theorem State.gang_setArr (w : Nat) (x : Arr) (k : Nat) : (s.setArr w x).gang k = s.gang k := rfl
@[simp] theorem State.pantry_setArr (w : Nat) (x : Arr) (k : Nat) : (s.setArr w x).pantry k = s.pantry k := rfl
@[simp] theorem State.larder_setArr (w : Nat) (x : Arr) (k : Nat) : (s.setArr w x).larder k = s.larder k := rfl
@[simp] theorem State.entry_setArr (w : Nat) (x : Arr) (k : Nat) : (s.setArr w x).entry k = s.entry k := rfl
@[simp] theorem State.bin_setArr (w : Nat) (x : Arr) (k : Nat) : (s.setArr w x).bin k = s.bin k := rfl
@[simp] theorem State.ring_setArr (w : Nat) (x : Arr) (k : Nat) : (s.setArr w x).ring k = s.ring k := rfl

/-! ## setSlice -/

@[simp] theorem State.setSlice_turn (w : Nat) (x : Slice) : (s.setSlice w x).turn = s.turn := rfl
@[simp] theorem State.setSlice_issuer (w : Nat) (x : Slice) : (s.setSlice w x).issuer = s.issuer := rfl
@[simp] theorem State.setSlice_free (w : Nat) (x : Slice) : (s.setSlice w x).free = s.free := rfl
@[simp] theorem State.setSlice_time (w : Nat) (x : Slice) : (s.setSlice w x).time = s.time := rfl
@[simp] theorem State.setSlice_cycles (w : Nat) (x : Slice) : (s.setSlice w x).cycles = s.cycles := rfl
@[simp] theorem State.setSlice_powered (w : Nat) (x : Slice) : (s.setSlice w x).powered = s.powered := rfl
@[simp] theorem State.setSlice_recovery (w : Nat) (x : Slice) : (s.setSlice w x).recovery = s.recovery := rfl
@[simp] theorem State.setSlice_ready (w : Nat) (x : Slice) : (s.setSlice w x).ready = s.ready := rfl
@[simp] theorem State.setSlice_moduleId (w : Nat) (x : Slice) : (s.setSlice w x).moduleId = s.moduleId := rfl
@[simp] theorem State.setSlice_measurements (w : Nat) (x : Slice) : (s.setSlice w x).measurements = s.measurements := rfl
@[simp] theorem State.setSlice_rings (w : Nat) (x : Slice) : (s.setSlice w x).rings = s.rings := rfl
@[simp] theorem State.setSlice_completions (w : Nat) (x : Slice) : (s.setSlice w x).completions = s.completions := rfl
@[simp] theorem State.setSlice_mailbox (w : Nat) (x : Slice) : (s.setSlice w x).mailbox = s.mailbox := rfl
@[simp] theorem State.setSlice_selectors (w : Nat) (x : Slice) : (s.setSlice w x).selectors = s.selectors := rfl
@[simp] theorem State.setSlice_views (w : Nat) (x : Slice) : (s.setSlice w x).views = s.views := rfl
@[simp] theorem State.setSlice_i3c (w : Nat) (x : Slice) : (s.setSlice w x).i3c = s.i3c := rfl
@[simp] theorem State.setSlice_nextRing (w : Nat) (x : Slice) : (s.setSlice w x).nextRing = s.nextRing := rfl
@[simp] theorem State.setSlice_mem (w : Nat) (x : Slice) : (s.setSlice w x).mem = s.mem := rfl
@[simp] theorem State.setSlice_l1 (w : Nat) (x : Slice) : (s.setSlice w x).l1 = s.l1 := rfl
@[simp] theorem State.setSlice_l2 (w : Nat) (x : Slice) : (s.setSlice w x).l2 = s.l2 := rfl
@[simp] theorem State.setSlice_rdc (w : Nat) (x : Slice) : (s.setSlice w x).rdc = s.rdc := rfl
@[simp] theorem State.setSlice_shadow (w : Nat) (x : Slice) : (s.setSlice w x).shadow = s.shadow := rfl
@[simp] theorem State.setSlice_past (w : Nat) (x : Slice) : (s.setSlice w x).past = s.past := rfl
@[simp] theorem State.setSlice_roots (w : Nat) (x : Slice) : (s.setSlice w x).roots = s.roots := rfl
@[simp] theorem State.setSlice_oldRoots (w : Nat) (x : Slice) : (s.setSlice w x).oldRoots = s.oldRoots := rfl
@[simp] theorem State.setSlice_tlbs (w : Nat) (x : Slice) : (s.setSlice w x).tlbs = s.tlbs := rfl
@[simp] theorem State.setSlice_icaches (w : Nat) (x : Slice) : (s.setSlice w x).icaches = s.icaches := rfl
@[simp] theorem State.setSlice_ops (w : Nat) (x : Slice) : (s.setSlice w x).ops = s.ops := rfl
@[simp] theorem State.setSlice_nextOp (w : Nat) (x : Slice) : (s.setSlice w x).nextOp = s.nextOp := rfl
@[simp] theorem State.setSlice_nextSeq (w : Nat) (x : Slice) : (s.setSlice w x).nextSeq = s.nextSeq := rfl
@[simp] theorem State.setSlice_jobs (w : Nat) (x : Slice) : (s.setSlice w x).jobs = s.jobs := rfl
@[simp] theorem State.setSlice_nextGrid (w : Nat) (x : Slice) : (s.setSlice w x).nextGrid = s.nextGrid := rfl
@[simp] theorem State.setSlice_blocks (w : Nat) (x : Slice) : (s.setSlice w x).blocks = s.blocks := rfl
@[simp] theorem State.setSlice_nextBlock (w : Nat) (x : Slice) : (s.setSlice w x).nextBlock = s.nextBlock := rfl
@[simp] theorem State.setSlice_warps (w : Nat) (x : Slice) : (s.setSlice w x).warps = s.warps := rfl
@[simp] theorem State.setSlice_nextWarp (w : Nat) (x : Slice) : (s.setSlice w x).nextWarp = s.nextWarp := rfl
@[simp] theorem State.setSlice_entries (w : Nat) (x : Slice) : (s.setSlice w x).entries = s.entries := rfl
@[simp] theorem State.setSlice_binds (w : Nat) (x : Slice) : (s.setSlice w x).binds = s.binds := rfl
@[simp] theorem State.setSlice_bins (w : Nat) (x : Slice) : (s.setSlice w x).bins = s.bins := rfl
@[simp] theorem State.setSlice_clusters (w : Nat) (x : Slice) : (s.setSlice w x).clusters = s.clusters := rfl
@[simp] theorem State.setSlice_gangs (w : Nat) (x : Slice) : (s.setSlice w x).gangs = s.gangs := rfl
@[simp] theorem State.setSlice_nextGang (w : Nat) (x : Slice) : (s.setSlice w x).nextGang = s.nextGang := rfl
@[simp] theorem State.setSlice_savePools (w : Nat) (x : Slice) : (s.setSlice w x).savePools = s.savePools := rfl
@[simp] theorem State.setSlice_slots (w : Nat) (x : Slice) : (s.setSlice w x).slots = s.slots := rfl
@[simp] theorem State.setSlice_coreMap (w : Nat) (x : Slice) : (s.setSlice w x).coreMap = s.coreMap := rfl
@[simp] theorem State.setSlice_phys (w : Nat) (x : Slice) : (s.setSlice w x).phys = s.phys := rfl
@[simp] theorem State.setSlice_placeCounts (w : Nat) (x : Slice) : (s.setSlice w x).placeCounts = s.placeCounts := rfl
@[simp] theorem State.setSlice_lastBusy (w : Nat) (x : Slice) : (s.setSlice w x).lastBusy = s.lastBusy := rfl
@[simp] theorem State.setSlice_copyLogs (w : Nat) (x : Slice) : (s.setSlice w x).copyLogs = s.copyLogs := rfl
@[simp] theorem State.setSlice_mccs (w : Nat) (x : Slice) : (s.setSlice w x).mccs = s.mccs := rfl
@[simp] theorem State.setSlice_arrs (w : Nat) (x : Slice) : (s.setSlice w x).arrs = s.arrs := rfl
@[simp] theorem State.setSlice_acc (w : Nat) (x : Slice) : (s.setSlice w x).acc = s.acc := rfl
@[simp] theorem State.setSlice_groups (w : Nat) (x : Slice) : (s.setSlice w x).groups = s.groups := rfl
@[simp] theorem State.setSlice_held (w : Nat) (x : Slice) : (s.setSlice w x).held = s.held := rfl
@[simp] theorem State.setSlice_ringJobs (w : Nat) (x : Slice) : (s.setSlice w x).ringJobs = s.ringJobs := rfl
@[simp] theorem State.setSlice_ports (w : Nat) (x : Slice) : (s.setSlice w x).ports = s.ports := rfl
@[simp] theorem State.setSlice_xfers (w : Nat) (x : Slice) : (s.setSlice w x).xfers = s.xfers := rfl
@[simp] theorem State.setSlice_pantries (w : Nat) (x : Slice) : (s.setSlice w x).pantries = s.pantries := rfl
@[simp] theorem State.setSlice_larders (w : Nat) (x : Slice) : (s.setSlice w x).larders = s.larders := rfl
@[simp] theorem State.setSlice_capBanks (w : Nat) (x : Slice) : (s.setSlice w x).capBanks = s.capBanks := rfl
@[simp] theorem State.setSlice_regions (w : Nat) (x : Slice) : (s.setSlice w x).regions = s.regions := rfl
@[simp] theorem State.setSlice_hbms (w : Nat) (x : Slice) : (s.setSlice w x).hbms = s.hbms := rfl
@[simp] theorem State.setSlice_intents (w : Nat) (x : Slice) : (s.setSlice w x).intents = s.intents := rfl
@[simp] theorem State.setSlice_ballast (w : Nat) (x : Slice) : (s.setSlice w x).ballast = s.ballast := rfl
@[simp] theorem State.setSlice_gov (w : Nat) (x : Slice) : (s.setSlice w x).gov = s.gov := rfl
@[simp] theorem State.warp_setSlice (w : Nat) (x : Slice) (k : Nat) : (s.setSlice w x).warp k = s.warp k := rfl
@[simp] theorem State.block_setSlice (w : Nat) (x : Slice) (k : Nat) : (s.setSlice w x).block k = s.block k := rfl
@[simp] theorem State.job_setSlice (w : Nat) (x : Slice) (k : Nat) : (s.setSlice w x).job k = s.job k := rfl
@[simp] theorem State.op_setSlice (w : Nat) (x : Slice) (k : Nat) : (s.setSlice w x).op k = s.op k := rfl
@[simp] theorem State.mcc_setSlice (w : Nat) (x : Slice) (k : Nat) : (s.setSlice w x).mcc k = s.mcc k := rfl
@[simp] theorem State.arr_setSlice (w : Nat) (x : Slice) (k : Nat) : (s.setSlice w x).arr k = s.arr k := rfl
@[simp] theorem State.gang_setSlice (w : Nat) (x : Slice) (k : Nat) : (s.setSlice w x).gang k = s.gang k := rfl
@[simp] theorem State.pantry_setSlice (w : Nat) (x : Slice) (k : Nat) : (s.setSlice w x).pantry k = s.pantry k := rfl
@[simp] theorem State.larder_setSlice (w : Nat) (x : Slice) (k : Nat) : (s.setSlice w x).larder k = s.larder k := rfl
@[simp] theorem State.entry_setSlice (w : Nat) (x : Slice) (k : Nat) : (s.setSlice w x).entry k = s.entry k := rfl
@[simp] theorem State.bin_setSlice (w : Nat) (x : Slice) (k : Nat) : (s.setSlice w x).bin k = s.bin k := rfl
@[simp] theorem State.ring_setSlice (w : Nat) (x : Slice) (k : Nat) : (s.setSlice w x).ring k = s.ring k := rfl

/-! ## setGang -/

@[simp] theorem State.setGang_turn (w : Nat) (x : Gang) : (s.setGang w x).turn = s.turn := rfl
@[simp] theorem State.setGang_issuer (w : Nat) (x : Gang) : (s.setGang w x).issuer = s.issuer := rfl
@[simp] theorem State.setGang_free (w : Nat) (x : Gang) : (s.setGang w x).free = s.free := rfl
@[simp] theorem State.setGang_time (w : Nat) (x : Gang) : (s.setGang w x).time = s.time := rfl
@[simp] theorem State.setGang_cycles (w : Nat) (x : Gang) : (s.setGang w x).cycles = s.cycles := rfl
@[simp] theorem State.setGang_powered (w : Nat) (x : Gang) : (s.setGang w x).powered = s.powered := rfl
@[simp] theorem State.setGang_recovery (w : Nat) (x : Gang) : (s.setGang w x).recovery = s.recovery := rfl
@[simp] theorem State.setGang_ready (w : Nat) (x : Gang) : (s.setGang w x).ready = s.ready := rfl
@[simp] theorem State.setGang_moduleId (w : Nat) (x : Gang) : (s.setGang w x).moduleId = s.moduleId := rfl
@[simp] theorem State.setGang_measurements (w : Nat) (x : Gang) : (s.setGang w x).measurements = s.measurements := rfl
@[simp] theorem State.setGang_rings (w : Nat) (x : Gang) : (s.setGang w x).rings = s.rings := rfl
@[simp] theorem State.setGang_completions (w : Nat) (x : Gang) : (s.setGang w x).completions = s.completions := rfl
@[simp] theorem State.setGang_mailbox (w : Nat) (x : Gang) : (s.setGang w x).mailbox = s.mailbox := rfl
@[simp] theorem State.setGang_selectors (w : Nat) (x : Gang) : (s.setGang w x).selectors = s.selectors := rfl
@[simp] theorem State.setGang_views (w : Nat) (x : Gang) : (s.setGang w x).views = s.views := rfl
@[simp] theorem State.setGang_i3c (w : Nat) (x : Gang) : (s.setGang w x).i3c = s.i3c := rfl
@[simp] theorem State.setGang_nextRing (w : Nat) (x : Gang) : (s.setGang w x).nextRing = s.nextRing := rfl
@[simp] theorem State.setGang_mem (w : Nat) (x : Gang) : (s.setGang w x).mem = s.mem := rfl
@[simp] theorem State.setGang_l1 (w : Nat) (x : Gang) : (s.setGang w x).l1 = s.l1 := rfl
@[simp] theorem State.setGang_l2 (w : Nat) (x : Gang) : (s.setGang w x).l2 = s.l2 := rfl
@[simp] theorem State.setGang_rdc (w : Nat) (x : Gang) : (s.setGang w x).rdc = s.rdc := rfl
@[simp] theorem State.setGang_shadow (w : Nat) (x : Gang) : (s.setGang w x).shadow = s.shadow := rfl
@[simp] theorem State.setGang_past (w : Nat) (x : Gang) : (s.setGang w x).past = s.past := rfl
@[simp] theorem State.setGang_roots (w : Nat) (x : Gang) : (s.setGang w x).roots = s.roots := rfl
@[simp] theorem State.setGang_oldRoots (w : Nat) (x : Gang) : (s.setGang w x).oldRoots = s.oldRoots := rfl
@[simp] theorem State.setGang_tlbs (w : Nat) (x : Gang) : (s.setGang w x).tlbs = s.tlbs := rfl
@[simp] theorem State.setGang_icaches (w : Nat) (x : Gang) : (s.setGang w x).icaches = s.icaches := rfl
@[simp] theorem State.setGang_ops (w : Nat) (x : Gang) : (s.setGang w x).ops = s.ops := rfl
@[simp] theorem State.setGang_nextOp (w : Nat) (x : Gang) : (s.setGang w x).nextOp = s.nextOp := rfl
@[simp] theorem State.setGang_nextSeq (w : Nat) (x : Gang) : (s.setGang w x).nextSeq = s.nextSeq := rfl
@[simp] theorem State.setGang_jobs (w : Nat) (x : Gang) : (s.setGang w x).jobs = s.jobs := rfl
@[simp] theorem State.setGang_nextGrid (w : Nat) (x : Gang) : (s.setGang w x).nextGrid = s.nextGrid := rfl
@[simp] theorem State.setGang_blocks (w : Nat) (x : Gang) : (s.setGang w x).blocks = s.blocks := rfl
@[simp] theorem State.setGang_nextBlock (w : Nat) (x : Gang) : (s.setGang w x).nextBlock = s.nextBlock := rfl
@[simp] theorem State.setGang_warps (w : Nat) (x : Gang) : (s.setGang w x).warps = s.warps := rfl
@[simp] theorem State.setGang_nextWarp (w : Nat) (x : Gang) : (s.setGang w x).nextWarp = s.nextWarp := rfl
@[simp] theorem State.setGang_entries (w : Nat) (x : Gang) : (s.setGang w x).entries = s.entries := rfl
@[simp] theorem State.setGang_binds (w : Nat) (x : Gang) : (s.setGang w x).binds = s.binds := rfl
@[simp] theorem State.setGang_bins (w : Nat) (x : Gang) : (s.setGang w x).bins = s.bins := rfl
@[simp] theorem State.setGang_clusters (w : Nat) (x : Gang) : (s.setGang w x).clusters = s.clusters := rfl
@[simp] theorem State.setGang_nextGang (w : Nat) (x : Gang) : (s.setGang w x).nextGang = s.nextGang := rfl
@[simp] theorem State.setGang_savePools (w : Nat) (x : Gang) : (s.setGang w x).savePools = s.savePools := rfl
@[simp] theorem State.setGang_slots (w : Nat) (x : Gang) : (s.setGang w x).slots = s.slots := rfl
@[simp] theorem State.setGang_coreMap (w : Nat) (x : Gang) : (s.setGang w x).coreMap = s.coreMap := rfl
@[simp] theorem State.setGang_phys (w : Nat) (x : Gang) : (s.setGang w x).phys = s.phys := rfl
@[simp] theorem State.setGang_placeCounts (w : Nat) (x : Gang) : (s.setGang w x).placeCounts = s.placeCounts := rfl
@[simp] theorem State.setGang_lastBusy (w : Nat) (x : Gang) : (s.setGang w x).lastBusy = s.lastBusy := rfl
@[simp] theorem State.setGang_copyLogs (w : Nat) (x : Gang) : (s.setGang w x).copyLogs = s.copyLogs := rfl
@[simp] theorem State.setGang_mccs (w : Nat) (x : Gang) : (s.setGang w x).mccs = s.mccs := rfl
@[simp] theorem State.setGang_arrs (w : Nat) (x : Gang) : (s.setGang w x).arrs = s.arrs := rfl
@[simp] theorem State.setGang_acc (w : Nat) (x : Gang) : (s.setGang w x).acc = s.acc := rfl
@[simp] theorem State.setGang_slices (w : Nat) (x : Gang) : (s.setGang w x).slices = s.slices := rfl
@[simp] theorem State.setGang_groups (w : Nat) (x : Gang) : (s.setGang w x).groups = s.groups := rfl
@[simp] theorem State.setGang_held (w : Nat) (x : Gang) : (s.setGang w x).held = s.held := rfl
@[simp] theorem State.setGang_ringJobs (w : Nat) (x : Gang) : (s.setGang w x).ringJobs = s.ringJobs := rfl
@[simp] theorem State.setGang_ports (w : Nat) (x : Gang) : (s.setGang w x).ports = s.ports := rfl
@[simp] theorem State.setGang_xfers (w : Nat) (x : Gang) : (s.setGang w x).xfers = s.xfers := rfl
@[simp] theorem State.setGang_pantries (w : Nat) (x : Gang) : (s.setGang w x).pantries = s.pantries := rfl
@[simp] theorem State.setGang_larders (w : Nat) (x : Gang) : (s.setGang w x).larders = s.larders := rfl
@[simp] theorem State.setGang_capBanks (w : Nat) (x : Gang) : (s.setGang w x).capBanks = s.capBanks := rfl
@[simp] theorem State.setGang_regions (w : Nat) (x : Gang) : (s.setGang w x).regions = s.regions := rfl
@[simp] theorem State.setGang_hbms (w : Nat) (x : Gang) : (s.setGang w x).hbms = s.hbms := rfl
@[simp] theorem State.setGang_intents (w : Nat) (x : Gang) : (s.setGang w x).intents = s.intents := rfl
@[simp] theorem State.setGang_ballast (w : Nat) (x : Gang) : (s.setGang w x).ballast = s.ballast := rfl
@[simp] theorem State.setGang_gov (w : Nat) (x : Gang) : (s.setGang w x).gov = s.gov := rfl
@[simp] theorem State.warp_setGang (w : Nat) (x : Gang) (k : Nat) : (s.setGang w x).warp k = s.warp k := rfl
@[simp] theorem State.block_setGang (w : Nat) (x : Gang) (k : Nat) : (s.setGang w x).block k = s.block k := rfl
@[simp] theorem State.job_setGang (w : Nat) (x : Gang) (k : Nat) : (s.setGang w x).job k = s.job k := rfl
@[simp] theorem State.op_setGang (w : Nat) (x : Gang) (k : Nat) : (s.setGang w x).op k = s.op k := rfl
@[simp] theorem State.mcc_setGang (w : Nat) (x : Gang) (k : Nat) : (s.setGang w x).mcc k = s.mcc k := rfl
@[simp] theorem State.arr_setGang (w : Nat) (x : Gang) (k : Nat) : (s.setGang w x).arr k = s.arr k := rfl
@[simp] theorem State.slice_setGang (w : Nat) (x : Gang) (k : Nat) : (s.setGang w x).slice k = s.slice k := rfl
@[simp] theorem State.pantry_setGang (w : Nat) (x : Gang) (k : Nat) : (s.setGang w x).pantry k = s.pantry k := rfl
@[simp] theorem State.larder_setGang (w : Nat) (x : Gang) (k : Nat) : (s.setGang w x).larder k = s.larder k := rfl
@[simp] theorem State.entry_setGang (w : Nat) (x : Gang) (k : Nat) : (s.setGang w x).entry k = s.entry k := rfl
@[simp] theorem State.bin_setGang (w : Nat) (x : Gang) (k : Nat) : (s.setGang w x).bin k = s.bin k := rfl
@[simp] theorem State.ring_setGang (w : Nat) (x : Gang) (k : Nat) : (s.setGang w x).ring k = s.ring k := rfl

/-! ## setPantry -/

@[simp] theorem State.setPantry_turn (w : Nat) (x : Pantry) : (s.setPantry w x).turn = s.turn := rfl
@[simp] theorem State.setPantry_issuer (w : Nat) (x : Pantry) : (s.setPantry w x).issuer = s.issuer := rfl
@[simp] theorem State.setPantry_free (w : Nat) (x : Pantry) : (s.setPantry w x).free = s.free := rfl
@[simp] theorem State.setPantry_time (w : Nat) (x : Pantry) : (s.setPantry w x).time = s.time := rfl
@[simp] theorem State.setPantry_cycles (w : Nat) (x : Pantry) : (s.setPantry w x).cycles = s.cycles := rfl
@[simp] theorem State.setPantry_powered (w : Nat) (x : Pantry) : (s.setPantry w x).powered = s.powered := rfl
@[simp] theorem State.setPantry_recovery (w : Nat) (x : Pantry) : (s.setPantry w x).recovery = s.recovery := rfl
@[simp] theorem State.setPantry_ready (w : Nat) (x : Pantry) : (s.setPantry w x).ready = s.ready := rfl
@[simp] theorem State.setPantry_moduleId (w : Nat) (x : Pantry) : (s.setPantry w x).moduleId = s.moduleId := rfl
@[simp] theorem State.setPantry_measurements (w : Nat) (x : Pantry) : (s.setPantry w x).measurements = s.measurements := rfl
@[simp] theorem State.setPantry_rings (w : Nat) (x : Pantry) : (s.setPantry w x).rings = s.rings := rfl
@[simp] theorem State.setPantry_completions (w : Nat) (x : Pantry) : (s.setPantry w x).completions = s.completions := rfl
@[simp] theorem State.setPantry_mailbox (w : Nat) (x : Pantry) : (s.setPantry w x).mailbox = s.mailbox := rfl
@[simp] theorem State.setPantry_selectors (w : Nat) (x : Pantry) : (s.setPantry w x).selectors = s.selectors := rfl
@[simp] theorem State.setPantry_views (w : Nat) (x : Pantry) : (s.setPantry w x).views = s.views := rfl
@[simp] theorem State.setPantry_i3c (w : Nat) (x : Pantry) : (s.setPantry w x).i3c = s.i3c := rfl
@[simp] theorem State.setPantry_nextRing (w : Nat) (x : Pantry) : (s.setPantry w x).nextRing = s.nextRing := rfl
@[simp] theorem State.setPantry_mem (w : Nat) (x : Pantry) : (s.setPantry w x).mem = s.mem := rfl
@[simp] theorem State.setPantry_l1 (w : Nat) (x : Pantry) : (s.setPantry w x).l1 = s.l1 := rfl
@[simp] theorem State.setPantry_l2 (w : Nat) (x : Pantry) : (s.setPantry w x).l2 = s.l2 := rfl
@[simp] theorem State.setPantry_rdc (w : Nat) (x : Pantry) : (s.setPantry w x).rdc = s.rdc := rfl
@[simp] theorem State.setPantry_shadow (w : Nat) (x : Pantry) : (s.setPantry w x).shadow = s.shadow := rfl
@[simp] theorem State.setPantry_past (w : Nat) (x : Pantry) : (s.setPantry w x).past = s.past := rfl
@[simp] theorem State.setPantry_roots (w : Nat) (x : Pantry) : (s.setPantry w x).roots = s.roots := rfl
@[simp] theorem State.setPantry_oldRoots (w : Nat) (x : Pantry) : (s.setPantry w x).oldRoots = s.oldRoots := rfl
@[simp] theorem State.setPantry_tlbs (w : Nat) (x : Pantry) : (s.setPantry w x).tlbs = s.tlbs := rfl
@[simp] theorem State.setPantry_icaches (w : Nat) (x : Pantry) : (s.setPantry w x).icaches = s.icaches := rfl
@[simp] theorem State.setPantry_ops (w : Nat) (x : Pantry) : (s.setPantry w x).ops = s.ops := rfl
@[simp] theorem State.setPantry_nextOp (w : Nat) (x : Pantry) : (s.setPantry w x).nextOp = s.nextOp := rfl
@[simp] theorem State.setPantry_nextSeq (w : Nat) (x : Pantry) : (s.setPantry w x).nextSeq = s.nextSeq := rfl
@[simp] theorem State.setPantry_jobs (w : Nat) (x : Pantry) : (s.setPantry w x).jobs = s.jobs := rfl
@[simp] theorem State.setPantry_nextGrid (w : Nat) (x : Pantry) : (s.setPantry w x).nextGrid = s.nextGrid := rfl
@[simp] theorem State.setPantry_blocks (w : Nat) (x : Pantry) : (s.setPantry w x).blocks = s.blocks := rfl
@[simp] theorem State.setPantry_nextBlock (w : Nat) (x : Pantry) : (s.setPantry w x).nextBlock = s.nextBlock := rfl
@[simp] theorem State.setPantry_warps (w : Nat) (x : Pantry) : (s.setPantry w x).warps = s.warps := rfl
@[simp] theorem State.setPantry_nextWarp (w : Nat) (x : Pantry) : (s.setPantry w x).nextWarp = s.nextWarp := rfl
@[simp] theorem State.setPantry_entries (w : Nat) (x : Pantry) : (s.setPantry w x).entries = s.entries := rfl
@[simp] theorem State.setPantry_binds (w : Nat) (x : Pantry) : (s.setPantry w x).binds = s.binds := rfl
@[simp] theorem State.setPantry_bins (w : Nat) (x : Pantry) : (s.setPantry w x).bins = s.bins := rfl
@[simp] theorem State.setPantry_clusters (w : Nat) (x : Pantry) : (s.setPantry w x).clusters = s.clusters := rfl
@[simp] theorem State.setPantry_gangs (w : Nat) (x : Pantry) : (s.setPantry w x).gangs = s.gangs := rfl
@[simp] theorem State.setPantry_nextGang (w : Nat) (x : Pantry) : (s.setPantry w x).nextGang = s.nextGang := rfl
@[simp] theorem State.setPantry_savePools (w : Nat) (x : Pantry) : (s.setPantry w x).savePools = s.savePools := rfl
@[simp] theorem State.setPantry_slots (w : Nat) (x : Pantry) : (s.setPantry w x).slots = s.slots := rfl
@[simp] theorem State.setPantry_coreMap (w : Nat) (x : Pantry) : (s.setPantry w x).coreMap = s.coreMap := rfl
@[simp] theorem State.setPantry_phys (w : Nat) (x : Pantry) : (s.setPantry w x).phys = s.phys := rfl
@[simp] theorem State.setPantry_placeCounts (w : Nat) (x : Pantry) : (s.setPantry w x).placeCounts = s.placeCounts := rfl
@[simp] theorem State.setPantry_lastBusy (w : Nat) (x : Pantry) : (s.setPantry w x).lastBusy = s.lastBusy := rfl
@[simp] theorem State.setPantry_copyLogs (w : Nat) (x : Pantry) : (s.setPantry w x).copyLogs = s.copyLogs := rfl
@[simp] theorem State.setPantry_mccs (w : Nat) (x : Pantry) : (s.setPantry w x).mccs = s.mccs := rfl
@[simp] theorem State.setPantry_arrs (w : Nat) (x : Pantry) : (s.setPantry w x).arrs = s.arrs := rfl
@[simp] theorem State.setPantry_acc (w : Nat) (x : Pantry) : (s.setPantry w x).acc = s.acc := rfl
@[simp] theorem State.setPantry_slices (w : Nat) (x : Pantry) : (s.setPantry w x).slices = s.slices := rfl
@[simp] theorem State.setPantry_groups (w : Nat) (x : Pantry) : (s.setPantry w x).groups = s.groups := rfl
@[simp] theorem State.setPantry_held (w : Nat) (x : Pantry) : (s.setPantry w x).held = s.held := rfl
@[simp] theorem State.setPantry_ringJobs (w : Nat) (x : Pantry) : (s.setPantry w x).ringJobs = s.ringJobs := rfl
@[simp] theorem State.setPantry_ports (w : Nat) (x : Pantry) : (s.setPantry w x).ports = s.ports := rfl
@[simp] theorem State.setPantry_xfers (w : Nat) (x : Pantry) : (s.setPantry w x).xfers = s.xfers := rfl
@[simp] theorem State.setPantry_larders (w : Nat) (x : Pantry) : (s.setPantry w x).larders = s.larders := rfl
@[simp] theorem State.setPantry_capBanks (w : Nat) (x : Pantry) : (s.setPantry w x).capBanks = s.capBanks := rfl
@[simp] theorem State.setPantry_regions (w : Nat) (x : Pantry) : (s.setPantry w x).regions = s.regions := rfl
@[simp] theorem State.setPantry_hbms (w : Nat) (x : Pantry) : (s.setPantry w x).hbms = s.hbms := rfl
@[simp] theorem State.setPantry_intents (w : Nat) (x : Pantry) : (s.setPantry w x).intents = s.intents := rfl
@[simp] theorem State.setPantry_ballast (w : Nat) (x : Pantry) : (s.setPantry w x).ballast = s.ballast := rfl
@[simp] theorem State.setPantry_gov (w : Nat) (x : Pantry) : (s.setPantry w x).gov = s.gov := rfl
@[simp] theorem State.warp_setPantry (w : Nat) (x : Pantry) (k : Nat) : (s.setPantry w x).warp k = s.warp k := rfl
@[simp] theorem State.block_setPantry (w : Nat) (x : Pantry) (k : Nat) : (s.setPantry w x).block k = s.block k := rfl
@[simp] theorem State.job_setPantry (w : Nat) (x : Pantry) (k : Nat) : (s.setPantry w x).job k = s.job k := rfl
@[simp] theorem State.op_setPantry (w : Nat) (x : Pantry) (k : Nat) : (s.setPantry w x).op k = s.op k := rfl
@[simp] theorem State.mcc_setPantry (w : Nat) (x : Pantry) (k : Nat) : (s.setPantry w x).mcc k = s.mcc k := rfl
@[simp] theorem State.arr_setPantry (w : Nat) (x : Pantry) (k : Nat) : (s.setPantry w x).arr k = s.arr k := rfl
@[simp] theorem State.slice_setPantry (w : Nat) (x : Pantry) (k : Nat) : (s.setPantry w x).slice k = s.slice k := rfl
@[simp] theorem State.gang_setPantry (w : Nat) (x : Pantry) (k : Nat) : (s.setPantry w x).gang k = s.gang k := rfl
@[simp] theorem State.larder_setPantry (w : Nat) (x : Pantry) (k : Nat) : (s.setPantry w x).larder k = s.larder k := rfl
@[simp] theorem State.entry_setPantry (w : Nat) (x : Pantry) (k : Nat) : (s.setPantry w x).entry k = s.entry k := rfl
@[simp] theorem State.bin_setPantry (w : Nat) (x : Pantry) (k : Nat) : (s.setPantry w x).bin k = s.bin k := rfl
@[simp] theorem State.ring_setPantry (w : Nat) (x : Pantry) (k : Nat) : (s.setPantry w x).ring k = s.ring k := rfl

/-! ## setLarder -/

@[simp] theorem State.setLarder_turn (w : Nat) (x : Larder) : (s.setLarder w x).turn = s.turn := rfl
@[simp] theorem State.setLarder_issuer (w : Nat) (x : Larder) : (s.setLarder w x).issuer = s.issuer := rfl
@[simp] theorem State.setLarder_free (w : Nat) (x : Larder) : (s.setLarder w x).free = s.free := rfl
@[simp] theorem State.setLarder_time (w : Nat) (x : Larder) : (s.setLarder w x).time = s.time := rfl
@[simp] theorem State.setLarder_cycles (w : Nat) (x : Larder) : (s.setLarder w x).cycles = s.cycles := rfl
@[simp] theorem State.setLarder_powered (w : Nat) (x : Larder) : (s.setLarder w x).powered = s.powered := rfl
@[simp] theorem State.setLarder_recovery (w : Nat) (x : Larder) : (s.setLarder w x).recovery = s.recovery := rfl
@[simp] theorem State.setLarder_ready (w : Nat) (x : Larder) : (s.setLarder w x).ready = s.ready := rfl
@[simp] theorem State.setLarder_moduleId (w : Nat) (x : Larder) : (s.setLarder w x).moduleId = s.moduleId := rfl
@[simp] theorem State.setLarder_measurements (w : Nat) (x : Larder) : (s.setLarder w x).measurements = s.measurements := rfl
@[simp] theorem State.setLarder_rings (w : Nat) (x : Larder) : (s.setLarder w x).rings = s.rings := rfl
@[simp] theorem State.setLarder_completions (w : Nat) (x : Larder) : (s.setLarder w x).completions = s.completions := rfl
@[simp] theorem State.setLarder_mailbox (w : Nat) (x : Larder) : (s.setLarder w x).mailbox = s.mailbox := rfl
@[simp] theorem State.setLarder_selectors (w : Nat) (x : Larder) : (s.setLarder w x).selectors = s.selectors := rfl
@[simp] theorem State.setLarder_views (w : Nat) (x : Larder) : (s.setLarder w x).views = s.views := rfl
@[simp] theorem State.setLarder_i3c (w : Nat) (x : Larder) : (s.setLarder w x).i3c = s.i3c := rfl
@[simp] theorem State.setLarder_nextRing (w : Nat) (x : Larder) : (s.setLarder w x).nextRing = s.nextRing := rfl
@[simp] theorem State.setLarder_mem (w : Nat) (x : Larder) : (s.setLarder w x).mem = s.mem := rfl
@[simp] theorem State.setLarder_l1 (w : Nat) (x : Larder) : (s.setLarder w x).l1 = s.l1 := rfl
@[simp] theorem State.setLarder_l2 (w : Nat) (x : Larder) : (s.setLarder w x).l2 = s.l2 := rfl
@[simp] theorem State.setLarder_rdc (w : Nat) (x : Larder) : (s.setLarder w x).rdc = s.rdc := rfl
@[simp] theorem State.setLarder_shadow (w : Nat) (x : Larder) : (s.setLarder w x).shadow = s.shadow := rfl
@[simp] theorem State.setLarder_past (w : Nat) (x : Larder) : (s.setLarder w x).past = s.past := rfl
@[simp] theorem State.setLarder_roots (w : Nat) (x : Larder) : (s.setLarder w x).roots = s.roots := rfl
@[simp] theorem State.setLarder_oldRoots (w : Nat) (x : Larder) : (s.setLarder w x).oldRoots = s.oldRoots := rfl
@[simp] theorem State.setLarder_tlbs (w : Nat) (x : Larder) : (s.setLarder w x).tlbs = s.tlbs := rfl
@[simp] theorem State.setLarder_icaches (w : Nat) (x : Larder) : (s.setLarder w x).icaches = s.icaches := rfl
@[simp] theorem State.setLarder_ops (w : Nat) (x : Larder) : (s.setLarder w x).ops = s.ops := rfl
@[simp] theorem State.setLarder_nextOp (w : Nat) (x : Larder) : (s.setLarder w x).nextOp = s.nextOp := rfl
@[simp] theorem State.setLarder_nextSeq (w : Nat) (x : Larder) : (s.setLarder w x).nextSeq = s.nextSeq := rfl
@[simp] theorem State.setLarder_jobs (w : Nat) (x : Larder) : (s.setLarder w x).jobs = s.jobs := rfl
@[simp] theorem State.setLarder_nextGrid (w : Nat) (x : Larder) : (s.setLarder w x).nextGrid = s.nextGrid := rfl
@[simp] theorem State.setLarder_blocks (w : Nat) (x : Larder) : (s.setLarder w x).blocks = s.blocks := rfl
@[simp] theorem State.setLarder_nextBlock (w : Nat) (x : Larder) : (s.setLarder w x).nextBlock = s.nextBlock := rfl
@[simp] theorem State.setLarder_warps (w : Nat) (x : Larder) : (s.setLarder w x).warps = s.warps := rfl
@[simp] theorem State.setLarder_nextWarp (w : Nat) (x : Larder) : (s.setLarder w x).nextWarp = s.nextWarp := rfl
@[simp] theorem State.setLarder_entries (w : Nat) (x : Larder) : (s.setLarder w x).entries = s.entries := rfl
@[simp] theorem State.setLarder_binds (w : Nat) (x : Larder) : (s.setLarder w x).binds = s.binds := rfl
@[simp] theorem State.setLarder_bins (w : Nat) (x : Larder) : (s.setLarder w x).bins = s.bins := rfl
@[simp] theorem State.setLarder_clusters (w : Nat) (x : Larder) : (s.setLarder w x).clusters = s.clusters := rfl
@[simp] theorem State.setLarder_gangs (w : Nat) (x : Larder) : (s.setLarder w x).gangs = s.gangs := rfl
@[simp] theorem State.setLarder_nextGang (w : Nat) (x : Larder) : (s.setLarder w x).nextGang = s.nextGang := rfl
@[simp] theorem State.setLarder_savePools (w : Nat) (x : Larder) : (s.setLarder w x).savePools = s.savePools := rfl
@[simp] theorem State.setLarder_slots (w : Nat) (x : Larder) : (s.setLarder w x).slots = s.slots := rfl
@[simp] theorem State.setLarder_coreMap (w : Nat) (x : Larder) : (s.setLarder w x).coreMap = s.coreMap := rfl
@[simp] theorem State.setLarder_phys (w : Nat) (x : Larder) : (s.setLarder w x).phys = s.phys := rfl
@[simp] theorem State.setLarder_placeCounts (w : Nat) (x : Larder) : (s.setLarder w x).placeCounts = s.placeCounts := rfl
@[simp] theorem State.setLarder_lastBusy (w : Nat) (x : Larder) : (s.setLarder w x).lastBusy = s.lastBusy := rfl
@[simp] theorem State.setLarder_copyLogs (w : Nat) (x : Larder) : (s.setLarder w x).copyLogs = s.copyLogs := rfl
@[simp] theorem State.setLarder_mccs (w : Nat) (x : Larder) : (s.setLarder w x).mccs = s.mccs := rfl
@[simp] theorem State.setLarder_arrs (w : Nat) (x : Larder) : (s.setLarder w x).arrs = s.arrs := rfl
@[simp] theorem State.setLarder_acc (w : Nat) (x : Larder) : (s.setLarder w x).acc = s.acc := rfl
@[simp] theorem State.setLarder_slices (w : Nat) (x : Larder) : (s.setLarder w x).slices = s.slices := rfl
@[simp] theorem State.setLarder_groups (w : Nat) (x : Larder) : (s.setLarder w x).groups = s.groups := rfl
@[simp] theorem State.setLarder_held (w : Nat) (x : Larder) : (s.setLarder w x).held = s.held := rfl
@[simp] theorem State.setLarder_ringJobs (w : Nat) (x : Larder) : (s.setLarder w x).ringJobs = s.ringJobs := rfl
@[simp] theorem State.setLarder_ports (w : Nat) (x : Larder) : (s.setLarder w x).ports = s.ports := rfl
@[simp] theorem State.setLarder_xfers (w : Nat) (x : Larder) : (s.setLarder w x).xfers = s.xfers := rfl
@[simp] theorem State.setLarder_pantries (w : Nat) (x : Larder) : (s.setLarder w x).pantries = s.pantries := rfl
@[simp] theorem State.setLarder_capBanks (w : Nat) (x : Larder) : (s.setLarder w x).capBanks = s.capBanks := rfl
@[simp] theorem State.setLarder_regions (w : Nat) (x : Larder) : (s.setLarder w x).regions = s.regions := rfl
@[simp] theorem State.setLarder_hbms (w : Nat) (x : Larder) : (s.setLarder w x).hbms = s.hbms := rfl
@[simp] theorem State.setLarder_intents (w : Nat) (x : Larder) : (s.setLarder w x).intents = s.intents := rfl
@[simp] theorem State.setLarder_ballast (w : Nat) (x : Larder) : (s.setLarder w x).ballast = s.ballast := rfl
@[simp] theorem State.setLarder_gov (w : Nat) (x : Larder) : (s.setLarder w x).gov = s.gov := rfl
@[simp] theorem State.warp_setLarder (w : Nat) (x : Larder) (k : Nat) : (s.setLarder w x).warp k = s.warp k := rfl
@[simp] theorem State.block_setLarder (w : Nat) (x : Larder) (k : Nat) : (s.setLarder w x).block k = s.block k := rfl
@[simp] theorem State.job_setLarder (w : Nat) (x : Larder) (k : Nat) : (s.setLarder w x).job k = s.job k := rfl
@[simp] theorem State.op_setLarder (w : Nat) (x : Larder) (k : Nat) : (s.setLarder w x).op k = s.op k := rfl
@[simp] theorem State.mcc_setLarder (w : Nat) (x : Larder) (k : Nat) : (s.setLarder w x).mcc k = s.mcc k := rfl
@[simp] theorem State.arr_setLarder (w : Nat) (x : Larder) (k : Nat) : (s.setLarder w x).arr k = s.arr k := rfl
@[simp] theorem State.slice_setLarder (w : Nat) (x : Larder) (k : Nat) : (s.setLarder w x).slice k = s.slice k := rfl
@[simp] theorem State.gang_setLarder (w : Nat) (x : Larder) (k : Nat) : (s.setLarder w x).gang k = s.gang k := rfl
@[simp] theorem State.pantry_setLarder (w : Nat) (x : Larder) (k : Nat) : (s.setLarder w x).pantry k = s.pantry k := rfl
@[simp] theorem State.entry_setLarder (w : Nat) (x : Larder) (k : Nat) : (s.setLarder w x).entry k = s.entry k := rfl
@[simp] theorem State.bin_setLarder (w : Nat) (x : Larder) (k : Nat) : (s.setLarder w x).bin k = s.bin k := rfl
@[simp] theorem State.ring_setLarder (w : Nat) (x : Larder) (k : Nat) : (s.setLarder w x).ring k = s.ring k := rfl

/-! ## setEntry -/

@[simp] theorem State.setEntry_turn (w : Nat) (x : Entry) : (s.setEntry w x).turn = s.turn := rfl
@[simp] theorem State.setEntry_issuer (w : Nat) (x : Entry) : (s.setEntry w x).issuer = s.issuer := rfl
@[simp] theorem State.setEntry_free (w : Nat) (x : Entry) : (s.setEntry w x).free = s.free := rfl
@[simp] theorem State.setEntry_time (w : Nat) (x : Entry) : (s.setEntry w x).time = s.time := rfl
@[simp] theorem State.setEntry_cycles (w : Nat) (x : Entry) : (s.setEntry w x).cycles = s.cycles := rfl
@[simp] theorem State.setEntry_powered (w : Nat) (x : Entry) : (s.setEntry w x).powered = s.powered := rfl
@[simp] theorem State.setEntry_recovery (w : Nat) (x : Entry) : (s.setEntry w x).recovery = s.recovery := rfl
@[simp] theorem State.setEntry_ready (w : Nat) (x : Entry) : (s.setEntry w x).ready = s.ready := rfl
@[simp] theorem State.setEntry_moduleId (w : Nat) (x : Entry) : (s.setEntry w x).moduleId = s.moduleId := rfl
@[simp] theorem State.setEntry_measurements (w : Nat) (x : Entry) : (s.setEntry w x).measurements = s.measurements := rfl
@[simp] theorem State.setEntry_rings (w : Nat) (x : Entry) : (s.setEntry w x).rings = s.rings := rfl
@[simp] theorem State.setEntry_completions (w : Nat) (x : Entry) : (s.setEntry w x).completions = s.completions := rfl
@[simp] theorem State.setEntry_mailbox (w : Nat) (x : Entry) : (s.setEntry w x).mailbox = s.mailbox := rfl
@[simp] theorem State.setEntry_selectors (w : Nat) (x : Entry) : (s.setEntry w x).selectors = s.selectors := rfl
@[simp] theorem State.setEntry_views (w : Nat) (x : Entry) : (s.setEntry w x).views = s.views := rfl
@[simp] theorem State.setEntry_i3c (w : Nat) (x : Entry) : (s.setEntry w x).i3c = s.i3c := rfl
@[simp] theorem State.setEntry_nextRing (w : Nat) (x : Entry) : (s.setEntry w x).nextRing = s.nextRing := rfl
@[simp] theorem State.setEntry_mem (w : Nat) (x : Entry) : (s.setEntry w x).mem = s.mem := rfl
@[simp] theorem State.setEntry_l1 (w : Nat) (x : Entry) : (s.setEntry w x).l1 = s.l1 := rfl
@[simp] theorem State.setEntry_l2 (w : Nat) (x : Entry) : (s.setEntry w x).l2 = s.l2 := rfl
@[simp] theorem State.setEntry_rdc (w : Nat) (x : Entry) : (s.setEntry w x).rdc = s.rdc := rfl
@[simp] theorem State.setEntry_shadow (w : Nat) (x : Entry) : (s.setEntry w x).shadow = s.shadow := rfl
@[simp] theorem State.setEntry_past (w : Nat) (x : Entry) : (s.setEntry w x).past = s.past := rfl
@[simp] theorem State.setEntry_roots (w : Nat) (x : Entry) : (s.setEntry w x).roots = s.roots := rfl
@[simp] theorem State.setEntry_oldRoots (w : Nat) (x : Entry) : (s.setEntry w x).oldRoots = s.oldRoots := rfl
@[simp] theorem State.setEntry_tlbs (w : Nat) (x : Entry) : (s.setEntry w x).tlbs = s.tlbs := rfl
@[simp] theorem State.setEntry_icaches (w : Nat) (x : Entry) : (s.setEntry w x).icaches = s.icaches := rfl
@[simp] theorem State.setEntry_ops (w : Nat) (x : Entry) : (s.setEntry w x).ops = s.ops := rfl
@[simp] theorem State.setEntry_nextOp (w : Nat) (x : Entry) : (s.setEntry w x).nextOp = s.nextOp := rfl
@[simp] theorem State.setEntry_nextSeq (w : Nat) (x : Entry) : (s.setEntry w x).nextSeq = s.nextSeq := rfl
@[simp] theorem State.setEntry_jobs (w : Nat) (x : Entry) : (s.setEntry w x).jobs = s.jobs := rfl
@[simp] theorem State.setEntry_nextGrid (w : Nat) (x : Entry) : (s.setEntry w x).nextGrid = s.nextGrid := rfl
@[simp] theorem State.setEntry_blocks (w : Nat) (x : Entry) : (s.setEntry w x).blocks = s.blocks := rfl
@[simp] theorem State.setEntry_nextBlock (w : Nat) (x : Entry) : (s.setEntry w x).nextBlock = s.nextBlock := rfl
@[simp] theorem State.setEntry_warps (w : Nat) (x : Entry) : (s.setEntry w x).warps = s.warps := rfl
@[simp] theorem State.setEntry_nextWarp (w : Nat) (x : Entry) : (s.setEntry w x).nextWarp = s.nextWarp := rfl
@[simp] theorem State.setEntry_binds (w : Nat) (x : Entry) : (s.setEntry w x).binds = s.binds := rfl
@[simp] theorem State.setEntry_bins (w : Nat) (x : Entry) : (s.setEntry w x).bins = s.bins := rfl
@[simp] theorem State.setEntry_clusters (w : Nat) (x : Entry) : (s.setEntry w x).clusters = s.clusters := rfl
@[simp] theorem State.setEntry_gangs (w : Nat) (x : Entry) : (s.setEntry w x).gangs = s.gangs := rfl
@[simp] theorem State.setEntry_nextGang (w : Nat) (x : Entry) : (s.setEntry w x).nextGang = s.nextGang := rfl
@[simp] theorem State.setEntry_savePools (w : Nat) (x : Entry) : (s.setEntry w x).savePools = s.savePools := rfl
@[simp] theorem State.setEntry_slots (w : Nat) (x : Entry) : (s.setEntry w x).slots = s.slots := rfl
@[simp] theorem State.setEntry_coreMap (w : Nat) (x : Entry) : (s.setEntry w x).coreMap = s.coreMap := rfl
@[simp] theorem State.setEntry_phys (w : Nat) (x : Entry) : (s.setEntry w x).phys = s.phys := rfl
@[simp] theorem State.setEntry_placeCounts (w : Nat) (x : Entry) : (s.setEntry w x).placeCounts = s.placeCounts := rfl
@[simp] theorem State.setEntry_lastBusy (w : Nat) (x : Entry) : (s.setEntry w x).lastBusy = s.lastBusy := rfl
@[simp] theorem State.setEntry_copyLogs (w : Nat) (x : Entry) : (s.setEntry w x).copyLogs = s.copyLogs := rfl
@[simp] theorem State.setEntry_mccs (w : Nat) (x : Entry) : (s.setEntry w x).mccs = s.mccs := rfl
@[simp] theorem State.setEntry_arrs (w : Nat) (x : Entry) : (s.setEntry w x).arrs = s.arrs := rfl
@[simp] theorem State.setEntry_acc (w : Nat) (x : Entry) : (s.setEntry w x).acc = s.acc := rfl
@[simp] theorem State.setEntry_slices (w : Nat) (x : Entry) : (s.setEntry w x).slices = s.slices := rfl
@[simp] theorem State.setEntry_groups (w : Nat) (x : Entry) : (s.setEntry w x).groups = s.groups := rfl
@[simp] theorem State.setEntry_held (w : Nat) (x : Entry) : (s.setEntry w x).held = s.held := rfl
@[simp] theorem State.setEntry_ringJobs (w : Nat) (x : Entry) : (s.setEntry w x).ringJobs = s.ringJobs := rfl
@[simp] theorem State.setEntry_ports (w : Nat) (x : Entry) : (s.setEntry w x).ports = s.ports := rfl
@[simp] theorem State.setEntry_xfers (w : Nat) (x : Entry) : (s.setEntry w x).xfers = s.xfers := rfl
@[simp] theorem State.setEntry_pantries (w : Nat) (x : Entry) : (s.setEntry w x).pantries = s.pantries := rfl
@[simp] theorem State.setEntry_larders (w : Nat) (x : Entry) : (s.setEntry w x).larders = s.larders := rfl
@[simp] theorem State.setEntry_capBanks (w : Nat) (x : Entry) : (s.setEntry w x).capBanks = s.capBanks := rfl
@[simp] theorem State.setEntry_regions (w : Nat) (x : Entry) : (s.setEntry w x).regions = s.regions := rfl
@[simp] theorem State.setEntry_hbms (w : Nat) (x : Entry) : (s.setEntry w x).hbms = s.hbms := rfl
@[simp] theorem State.setEntry_intents (w : Nat) (x : Entry) : (s.setEntry w x).intents = s.intents := rfl
@[simp] theorem State.setEntry_ballast (w : Nat) (x : Entry) : (s.setEntry w x).ballast = s.ballast := rfl
@[simp] theorem State.setEntry_gov (w : Nat) (x : Entry) : (s.setEntry w x).gov = s.gov := rfl
@[simp] theorem State.warp_setEntry (w : Nat) (x : Entry) (k : Nat) : (s.setEntry w x).warp k = s.warp k := rfl
@[simp] theorem State.block_setEntry (w : Nat) (x : Entry) (k : Nat) : (s.setEntry w x).block k = s.block k := rfl
@[simp] theorem State.job_setEntry (w : Nat) (x : Entry) (k : Nat) : (s.setEntry w x).job k = s.job k := rfl
@[simp] theorem State.op_setEntry (w : Nat) (x : Entry) (k : Nat) : (s.setEntry w x).op k = s.op k := rfl
@[simp] theorem State.mcc_setEntry (w : Nat) (x : Entry) (k : Nat) : (s.setEntry w x).mcc k = s.mcc k := rfl
@[simp] theorem State.arr_setEntry (w : Nat) (x : Entry) (k : Nat) : (s.setEntry w x).arr k = s.arr k := rfl
@[simp] theorem State.slice_setEntry (w : Nat) (x : Entry) (k : Nat) : (s.setEntry w x).slice k = s.slice k := rfl
@[simp] theorem State.gang_setEntry (w : Nat) (x : Entry) (k : Nat) : (s.setEntry w x).gang k = s.gang k := rfl
@[simp] theorem State.pantry_setEntry (w : Nat) (x : Entry) (k : Nat) : (s.setEntry w x).pantry k = s.pantry k := rfl
@[simp] theorem State.larder_setEntry (w : Nat) (x : Entry) (k : Nat) : (s.setEntry w x).larder k = s.larder k := rfl
@[simp] theorem State.bin_setEntry (w : Nat) (x : Entry) (k : Nat) : (s.setEntry w x).bin k = s.bin k := rfl
@[simp] theorem State.ring_setEntry (w : Nat) (x : Entry) (k : Nat) : (s.setEntry w x).ring k = s.ring k := rfl

/-! ## setBin -/

@[simp] theorem State.setBin_turn (w : Nat) (x : Bin) : (s.setBin w x).turn = s.turn := rfl
@[simp] theorem State.setBin_issuer (w : Nat) (x : Bin) : (s.setBin w x).issuer = s.issuer := rfl
@[simp] theorem State.setBin_free (w : Nat) (x : Bin) : (s.setBin w x).free = s.free := rfl
@[simp] theorem State.setBin_time (w : Nat) (x : Bin) : (s.setBin w x).time = s.time := rfl
@[simp] theorem State.setBin_cycles (w : Nat) (x : Bin) : (s.setBin w x).cycles = s.cycles := rfl
@[simp] theorem State.setBin_powered (w : Nat) (x : Bin) : (s.setBin w x).powered = s.powered := rfl
@[simp] theorem State.setBin_recovery (w : Nat) (x : Bin) : (s.setBin w x).recovery = s.recovery := rfl
@[simp] theorem State.setBin_ready (w : Nat) (x : Bin) : (s.setBin w x).ready = s.ready := rfl
@[simp] theorem State.setBin_moduleId (w : Nat) (x : Bin) : (s.setBin w x).moduleId = s.moduleId := rfl
@[simp] theorem State.setBin_measurements (w : Nat) (x : Bin) : (s.setBin w x).measurements = s.measurements := rfl
@[simp] theorem State.setBin_rings (w : Nat) (x : Bin) : (s.setBin w x).rings = s.rings := rfl
@[simp] theorem State.setBin_completions (w : Nat) (x : Bin) : (s.setBin w x).completions = s.completions := rfl
@[simp] theorem State.setBin_mailbox (w : Nat) (x : Bin) : (s.setBin w x).mailbox = s.mailbox := rfl
@[simp] theorem State.setBin_selectors (w : Nat) (x : Bin) : (s.setBin w x).selectors = s.selectors := rfl
@[simp] theorem State.setBin_views (w : Nat) (x : Bin) : (s.setBin w x).views = s.views := rfl
@[simp] theorem State.setBin_i3c (w : Nat) (x : Bin) : (s.setBin w x).i3c = s.i3c := rfl
@[simp] theorem State.setBin_nextRing (w : Nat) (x : Bin) : (s.setBin w x).nextRing = s.nextRing := rfl
@[simp] theorem State.setBin_mem (w : Nat) (x : Bin) : (s.setBin w x).mem = s.mem := rfl
@[simp] theorem State.setBin_l1 (w : Nat) (x : Bin) : (s.setBin w x).l1 = s.l1 := rfl
@[simp] theorem State.setBin_l2 (w : Nat) (x : Bin) : (s.setBin w x).l2 = s.l2 := rfl
@[simp] theorem State.setBin_rdc (w : Nat) (x : Bin) : (s.setBin w x).rdc = s.rdc := rfl
@[simp] theorem State.setBin_shadow (w : Nat) (x : Bin) : (s.setBin w x).shadow = s.shadow := rfl
@[simp] theorem State.setBin_past (w : Nat) (x : Bin) : (s.setBin w x).past = s.past := rfl
@[simp] theorem State.setBin_roots (w : Nat) (x : Bin) : (s.setBin w x).roots = s.roots := rfl
@[simp] theorem State.setBin_oldRoots (w : Nat) (x : Bin) : (s.setBin w x).oldRoots = s.oldRoots := rfl
@[simp] theorem State.setBin_tlbs (w : Nat) (x : Bin) : (s.setBin w x).tlbs = s.tlbs := rfl
@[simp] theorem State.setBin_icaches (w : Nat) (x : Bin) : (s.setBin w x).icaches = s.icaches := rfl
@[simp] theorem State.setBin_ops (w : Nat) (x : Bin) : (s.setBin w x).ops = s.ops := rfl
@[simp] theorem State.setBin_nextOp (w : Nat) (x : Bin) : (s.setBin w x).nextOp = s.nextOp := rfl
@[simp] theorem State.setBin_nextSeq (w : Nat) (x : Bin) : (s.setBin w x).nextSeq = s.nextSeq := rfl
@[simp] theorem State.setBin_jobs (w : Nat) (x : Bin) : (s.setBin w x).jobs = s.jobs := rfl
@[simp] theorem State.setBin_nextGrid (w : Nat) (x : Bin) : (s.setBin w x).nextGrid = s.nextGrid := rfl
@[simp] theorem State.setBin_blocks (w : Nat) (x : Bin) : (s.setBin w x).blocks = s.blocks := rfl
@[simp] theorem State.setBin_nextBlock (w : Nat) (x : Bin) : (s.setBin w x).nextBlock = s.nextBlock := rfl
@[simp] theorem State.setBin_warps (w : Nat) (x : Bin) : (s.setBin w x).warps = s.warps := rfl
@[simp] theorem State.setBin_nextWarp (w : Nat) (x : Bin) : (s.setBin w x).nextWarp = s.nextWarp := rfl
@[simp] theorem State.setBin_entries (w : Nat) (x : Bin) : (s.setBin w x).entries = s.entries := rfl
@[simp] theorem State.setBin_binds (w : Nat) (x : Bin) : (s.setBin w x).binds = s.binds := rfl
@[simp] theorem State.setBin_clusters (w : Nat) (x : Bin) : (s.setBin w x).clusters = s.clusters := rfl
@[simp] theorem State.setBin_gangs (w : Nat) (x : Bin) : (s.setBin w x).gangs = s.gangs := rfl
@[simp] theorem State.setBin_nextGang (w : Nat) (x : Bin) : (s.setBin w x).nextGang = s.nextGang := rfl
@[simp] theorem State.setBin_savePools (w : Nat) (x : Bin) : (s.setBin w x).savePools = s.savePools := rfl
@[simp] theorem State.setBin_slots (w : Nat) (x : Bin) : (s.setBin w x).slots = s.slots := rfl
@[simp] theorem State.setBin_coreMap (w : Nat) (x : Bin) : (s.setBin w x).coreMap = s.coreMap := rfl
@[simp] theorem State.setBin_phys (w : Nat) (x : Bin) : (s.setBin w x).phys = s.phys := rfl
@[simp] theorem State.setBin_placeCounts (w : Nat) (x : Bin) : (s.setBin w x).placeCounts = s.placeCounts := rfl
@[simp] theorem State.setBin_lastBusy (w : Nat) (x : Bin) : (s.setBin w x).lastBusy = s.lastBusy := rfl
@[simp] theorem State.setBin_copyLogs (w : Nat) (x : Bin) : (s.setBin w x).copyLogs = s.copyLogs := rfl
@[simp] theorem State.setBin_mccs (w : Nat) (x : Bin) : (s.setBin w x).mccs = s.mccs := rfl
@[simp] theorem State.setBin_arrs (w : Nat) (x : Bin) : (s.setBin w x).arrs = s.arrs := rfl
@[simp] theorem State.setBin_acc (w : Nat) (x : Bin) : (s.setBin w x).acc = s.acc := rfl
@[simp] theorem State.setBin_slices (w : Nat) (x : Bin) : (s.setBin w x).slices = s.slices := rfl
@[simp] theorem State.setBin_groups (w : Nat) (x : Bin) : (s.setBin w x).groups = s.groups := rfl
@[simp] theorem State.setBin_held (w : Nat) (x : Bin) : (s.setBin w x).held = s.held := rfl
@[simp] theorem State.setBin_ringJobs (w : Nat) (x : Bin) : (s.setBin w x).ringJobs = s.ringJobs := rfl
@[simp] theorem State.setBin_ports (w : Nat) (x : Bin) : (s.setBin w x).ports = s.ports := rfl
@[simp] theorem State.setBin_xfers (w : Nat) (x : Bin) : (s.setBin w x).xfers = s.xfers := rfl
@[simp] theorem State.setBin_pantries (w : Nat) (x : Bin) : (s.setBin w x).pantries = s.pantries := rfl
@[simp] theorem State.setBin_larders (w : Nat) (x : Bin) : (s.setBin w x).larders = s.larders := rfl
@[simp] theorem State.setBin_capBanks (w : Nat) (x : Bin) : (s.setBin w x).capBanks = s.capBanks := rfl
@[simp] theorem State.setBin_regions (w : Nat) (x : Bin) : (s.setBin w x).regions = s.regions := rfl
@[simp] theorem State.setBin_hbms (w : Nat) (x : Bin) : (s.setBin w x).hbms = s.hbms := rfl
@[simp] theorem State.setBin_intents (w : Nat) (x : Bin) : (s.setBin w x).intents = s.intents := rfl
@[simp] theorem State.setBin_ballast (w : Nat) (x : Bin) : (s.setBin w x).ballast = s.ballast := rfl
@[simp] theorem State.setBin_gov (w : Nat) (x : Bin) : (s.setBin w x).gov = s.gov := rfl
@[simp] theorem State.warp_setBin (w : Nat) (x : Bin) (k : Nat) : (s.setBin w x).warp k = s.warp k := rfl
@[simp] theorem State.block_setBin (w : Nat) (x : Bin) (k : Nat) : (s.setBin w x).block k = s.block k := rfl
@[simp] theorem State.job_setBin (w : Nat) (x : Bin) (k : Nat) : (s.setBin w x).job k = s.job k := rfl
@[simp] theorem State.op_setBin (w : Nat) (x : Bin) (k : Nat) : (s.setBin w x).op k = s.op k := rfl
@[simp] theorem State.mcc_setBin (w : Nat) (x : Bin) (k : Nat) : (s.setBin w x).mcc k = s.mcc k := rfl
@[simp] theorem State.arr_setBin (w : Nat) (x : Bin) (k : Nat) : (s.setBin w x).arr k = s.arr k := rfl
@[simp] theorem State.slice_setBin (w : Nat) (x : Bin) (k : Nat) : (s.setBin w x).slice k = s.slice k := rfl
@[simp] theorem State.gang_setBin (w : Nat) (x : Bin) (k : Nat) : (s.setBin w x).gang k = s.gang k := rfl
@[simp] theorem State.pantry_setBin (w : Nat) (x : Bin) (k : Nat) : (s.setBin w x).pantry k = s.pantry k := rfl
@[simp] theorem State.larder_setBin (w : Nat) (x : Bin) (k : Nat) : (s.setBin w x).larder k = s.larder k := rfl
@[simp] theorem State.entry_setBin (w : Nat) (x : Bin) (k : Nat) : (s.setBin w x).entry k = s.entry k := rfl
@[simp] theorem State.ring_setBin (w : Nat) (x : Bin) (k : Nat) : (s.setBin w x).ring k = s.ring k := rfl

/-! ## setRing -/

@[simp] theorem State.setRing_turn (w : Nat) (x : Ring) : (s.setRing w x).turn = s.turn := rfl
@[simp] theorem State.setRing_issuer (w : Nat) (x : Ring) : (s.setRing w x).issuer = s.issuer := rfl
@[simp] theorem State.setRing_free (w : Nat) (x : Ring) : (s.setRing w x).free = s.free := rfl
@[simp] theorem State.setRing_time (w : Nat) (x : Ring) : (s.setRing w x).time = s.time := rfl
@[simp] theorem State.setRing_cycles (w : Nat) (x : Ring) : (s.setRing w x).cycles = s.cycles := rfl
@[simp] theorem State.setRing_powered (w : Nat) (x : Ring) : (s.setRing w x).powered = s.powered := rfl
@[simp] theorem State.setRing_recovery (w : Nat) (x : Ring) : (s.setRing w x).recovery = s.recovery := rfl
@[simp] theorem State.setRing_ready (w : Nat) (x : Ring) : (s.setRing w x).ready = s.ready := rfl
@[simp] theorem State.setRing_moduleId (w : Nat) (x : Ring) : (s.setRing w x).moduleId = s.moduleId := rfl
@[simp] theorem State.setRing_measurements (w : Nat) (x : Ring) : (s.setRing w x).measurements = s.measurements := rfl
@[simp] theorem State.setRing_completions (w : Nat) (x : Ring) : (s.setRing w x).completions = s.completions := rfl
@[simp] theorem State.setRing_mailbox (w : Nat) (x : Ring) : (s.setRing w x).mailbox = s.mailbox := rfl
@[simp] theorem State.setRing_selectors (w : Nat) (x : Ring) : (s.setRing w x).selectors = s.selectors := rfl
@[simp] theorem State.setRing_views (w : Nat) (x : Ring) : (s.setRing w x).views = s.views := rfl
@[simp] theorem State.setRing_i3c (w : Nat) (x : Ring) : (s.setRing w x).i3c = s.i3c := rfl
@[simp] theorem State.setRing_nextRing (w : Nat) (x : Ring) : (s.setRing w x).nextRing = s.nextRing := rfl
@[simp] theorem State.setRing_mem (w : Nat) (x : Ring) : (s.setRing w x).mem = s.mem := rfl
@[simp] theorem State.setRing_l1 (w : Nat) (x : Ring) : (s.setRing w x).l1 = s.l1 := rfl
@[simp] theorem State.setRing_l2 (w : Nat) (x : Ring) : (s.setRing w x).l2 = s.l2 := rfl
@[simp] theorem State.setRing_rdc (w : Nat) (x : Ring) : (s.setRing w x).rdc = s.rdc := rfl
@[simp] theorem State.setRing_shadow (w : Nat) (x : Ring) : (s.setRing w x).shadow = s.shadow := rfl
@[simp] theorem State.setRing_past (w : Nat) (x : Ring) : (s.setRing w x).past = s.past := rfl
@[simp] theorem State.setRing_roots (w : Nat) (x : Ring) : (s.setRing w x).roots = s.roots := rfl
@[simp] theorem State.setRing_oldRoots (w : Nat) (x : Ring) : (s.setRing w x).oldRoots = s.oldRoots := rfl
@[simp] theorem State.setRing_tlbs (w : Nat) (x : Ring) : (s.setRing w x).tlbs = s.tlbs := rfl
@[simp] theorem State.setRing_icaches (w : Nat) (x : Ring) : (s.setRing w x).icaches = s.icaches := rfl
@[simp] theorem State.setRing_ops (w : Nat) (x : Ring) : (s.setRing w x).ops = s.ops := rfl
@[simp] theorem State.setRing_nextOp (w : Nat) (x : Ring) : (s.setRing w x).nextOp = s.nextOp := rfl
@[simp] theorem State.setRing_nextSeq (w : Nat) (x : Ring) : (s.setRing w x).nextSeq = s.nextSeq := rfl
@[simp] theorem State.setRing_jobs (w : Nat) (x : Ring) : (s.setRing w x).jobs = s.jobs := rfl
@[simp] theorem State.setRing_nextGrid (w : Nat) (x : Ring) : (s.setRing w x).nextGrid = s.nextGrid := rfl
@[simp] theorem State.setRing_blocks (w : Nat) (x : Ring) : (s.setRing w x).blocks = s.blocks := rfl
@[simp] theorem State.setRing_nextBlock (w : Nat) (x : Ring) : (s.setRing w x).nextBlock = s.nextBlock := rfl
@[simp] theorem State.setRing_warps (w : Nat) (x : Ring) : (s.setRing w x).warps = s.warps := rfl
@[simp] theorem State.setRing_nextWarp (w : Nat) (x : Ring) : (s.setRing w x).nextWarp = s.nextWarp := rfl
@[simp] theorem State.setRing_entries (w : Nat) (x : Ring) : (s.setRing w x).entries = s.entries := rfl
@[simp] theorem State.setRing_binds (w : Nat) (x : Ring) : (s.setRing w x).binds = s.binds := rfl
@[simp] theorem State.setRing_bins (w : Nat) (x : Ring) : (s.setRing w x).bins = s.bins := rfl
@[simp] theorem State.setRing_clusters (w : Nat) (x : Ring) : (s.setRing w x).clusters = s.clusters := rfl
@[simp] theorem State.setRing_gangs (w : Nat) (x : Ring) : (s.setRing w x).gangs = s.gangs := rfl
@[simp] theorem State.setRing_nextGang (w : Nat) (x : Ring) : (s.setRing w x).nextGang = s.nextGang := rfl
@[simp] theorem State.setRing_savePools (w : Nat) (x : Ring) : (s.setRing w x).savePools = s.savePools := rfl
@[simp] theorem State.setRing_slots (w : Nat) (x : Ring) : (s.setRing w x).slots = s.slots := rfl
@[simp] theorem State.setRing_coreMap (w : Nat) (x : Ring) : (s.setRing w x).coreMap = s.coreMap := rfl
@[simp] theorem State.setRing_phys (w : Nat) (x : Ring) : (s.setRing w x).phys = s.phys := rfl
@[simp] theorem State.setRing_placeCounts (w : Nat) (x : Ring) : (s.setRing w x).placeCounts = s.placeCounts := rfl
@[simp] theorem State.setRing_lastBusy (w : Nat) (x : Ring) : (s.setRing w x).lastBusy = s.lastBusy := rfl
@[simp] theorem State.setRing_copyLogs (w : Nat) (x : Ring) : (s.setRing w x).copyLogs = s.copyLogs := rfl
@[simp] theorem State.setRing_mccs (w : Nat) (x : Ring) : (s.setRing w x).mccs = s.mccs := rfl
@[simp] theorem State.setRing_arrs (w : Nat) (x : Ring) : (s.setRing w x).arrs = s.arrs := rfl
@[simp] theorem State.setRing_acc (w : Nat) (x : Ring) : (s.setRing w x).acc = s.acc := rfl
@[simp] theorem State.setRing_slices (w : Nat) (x : Ring) : (s.setRing w x).slices = s.slices := rfl
@[simp] theorem State.setRing_groups (w : Nat) (x : Ring) : (s.setRing w x).groups = s.groups := rfl
@[simp] theorem State.setRing_held (w : Nat) (x : Ring) : (s.setRing w x).held = s.held := rfl
@[simp] theorem State.setRing_ringJobs (w : Nat) (x : Ring) : (s.setRing w x).ringJobs = s.ringJobs := rfl
@[simp] theorem State.setRing_ports (w : Nat) (x : Ring) : (s.setRing w x).ports = s.ports := rfl
@[simp] theorem State.setRing_xfers (w : Nat) (x : Ring) : (s.setRing w x).xfers = s.xfers := rfl
@[simp] theorem State.setRing_pantries (w : Nat) (x : Ring) : (s.setRing w x).pantries = s.pantries := rfl
@[simp] theorem State.setRing_larders (w : Nat) (x : Ring) : (s.setRing w x).larders = s.larders := rfl
@[simp] theorem State.setRing_capBanks (w : Nat) (x : Ring) : (s.setRing w x).capBanks = s.capBanks := rfl
@[simp] theorem State.setRing_regions (w : Nat) (x : Ring) : (s.setRing w x).regions = s.regions := rfl
@[simp] theorem State.setRing_hbms (w : Nat) (x : Ring) : (s.setRing w x).hbms = s.hbms := rfl
@[simp] theorem State.setRing_intents (w : Nat) (x : Ring) : (s.setRing w x).intents = s.intents := rfl
@[simp] theorem State.setRing_ballast (w : Nat) (x : Ring) : (s.setRing w x).ballast = s.ballast := rfl
@[simp] theorem State.setRing_gov (w : Nat) (x : Ring) : (s.setRing w x).gov = s.gov := rfl
@[simp] theorem State.warp_setRing (w : Nat) (x : Ring) (k : Nat) : (s.setRing w x).warp k = s.warp k := rfl
@[simp] theorem State.block_setRing (w : Nat) (x : Ring) (k : Nat) : (s.setRing w x).block k = s.block k := rfl
@[simp] theorem State.job_setRing (w : Nat) (x : Ring) (k : Nat) : (s.setRing w x).job k = s.job k := rfl
@[simp] theorem State.op_setRing (w : Nat) (x : Ring) (k : Nat) : (s.setRing w x).op k = s.op k := rfl
@[simp] theorem State.mcc_setRing (w : Nat) (x : Ring) (k : Nat) : (s.setRing w x).mcc k = s.mcc k := rfl
@[simp] theorem State.arr_setRing (w : Nat) (x : Ring) (k : Nat) : (s.setRing w x).arr k = s.arr k := rfl
@[simp] theorem State.slice_setRing (w : Nat) (x : Ring) (k : Nat) : (s.setRing w x).slice k = s.slice k := rfl
@[simp] theorem State.gang_setRing (w : Nat) (x : Ring) (k : Nat) : (s.setRing w x).gang k = s.gang k := rfl
@[simp] theorem State.pantry_setRing (w : Nat) (x : Ring) (k : Nat) : (s.setRing w x).pantry k = s.pantry k := rfl
@[simp] theorem State.larder_setRing (w : Nat) (x : Ring) (k : Nat) : (s.setRing w x).larder k = s.larder k := rfl
@[simp] theorem State.entry_setRing (w : Nat) (x : Ring) (k : Nat) : (s.setRing w x).entry k = s.entry k := rfl
@[simp] theorem State.bin_setRing (w : Nat) (x : Ring) (k : Nat) : (s.setRing w x).bin k = s.bin k := rfl

/-! ## setRegion -/

@[simp] theorem State.setRegion_turn (d r : Nat) (x : Region) : (s.setRegion d r x).turn = s.turn := rfl
@[simp] theorem State.setRegion_issuer (d r : Nat) (x : Region) : (s.setRegion d r x).issuer = s.issuer := rfl
@[simp] theorem State.setRegion_free (d r : Nat) (x : Region) : (s.setRegion d r x).free = s.free := rfl
@[simp] theorem State.setRegion_time (d r : Nat) (x : Region) : (s.setRegion d r x).time = s.time := rfl
@[simp] theorem State.setRegion_cycles (d r : Nat) (x : Region) : (s.setRegion d r x).cycles = s.cycles := rfl
@[simp] theorem State.setRegion_powered (d r : Nat) (x : Region) : (s.setRegion d r x).powered = s.powered := rfl
@[simp] theorem State.setRegion_recovery (d r : Nat) (x : Region) : (s.setRegion d r x).recovery = s.recovery := rfl
@[simp] theorem State.setRegion_ready (d r : Nat) (x : Region) : (s.setRegion d r x).ready = s.ready := rfl
@[simp] theorem State.setRegion_moduleId (d r : Nat) (x : Region) : (s.setRegion d r x).moduleId = s.moduleId := rfl
@[simp] theorem State.setRegion_measurements (d r : Nat) (x : Region) : (s.setRegion d r x).measurements = s.measurements := rfl
@[simp] theorem State.setRegion_rings (d r : Nat) (x : Region) : (s.setRegion d r x).rings = s.rings := rfl
@[simp] theorem State.setRegion_completions (d r : Nat) (x : Region) : (s.setRegion d r x).completions = s.completions := rfl
@[simp] theorem State.setRegion_mailbox (d r : Nat) (x : Region) : (s.setRegion d r x).mailbox = s.mailbox := rfl
@[simp] theorem State.setRegion_selectors (d r : Nat) (x : Region) : (s.setRegion d r x).selectors = s.selectors := rfl
@[simp] theorem State.setRegion_views (d r : Nat) (x : Region) : (s.setRegion d r x).views = s.views := rfl
@[simp] theorem State.setRegion_i3c (d r : Nat) (x : Region) : (s.setRegion d r x).i3c = s.i3c := rfl
@[simp] theorem State.setRegion_nextRing (d r : Nat) (x : Region) : (s.setRegion d r x).nextRing = s.nextRing := rfl
@[simp] theorem State.setRegion_mem (d r : Nat) (x : Region) : (s.setRegion d r x).mem = s.mem := rfl
@[simp] theorem State.setRegion_l1 (d r : Nat) (x : Region) : (s.setRegion d r x).l1 = s.l1 := rfl
@[simp] theorem State.setRegion_l2 (d r : Nat) (x : Region) : (s.setRegion d r x).l2 = s.l2 := rfl
@[simp] theorem State.setRegion_rdc (d r : Nat) (x : Region) : (s.setRegion d r x).rdc = s.rdc := rfl
@[simp] theorem State.setRegion_shadow (d r : Nat) (x : Region) : (s.setRegion d r x).shadow = s.shadow := rfl
@[simp] theorem State.setRegion_past (d r : Nat) (x : Region) : (s.setRegion d r x).past = s.past := rfl
@[simp] theorem State.setRegion_roots (d r : Nat) (x : Region) : (s.setRegion d r x).roots = s.roots := rfl
@[simp] theorem State.setRegion_oldRoots (d r : Nat) (x : Region) : (s.setRegion d r x).oldRoots = s.oldRoots := rfl
@[simp] theorem State.setRegion_tlbs (d r : Nat) (x : Region) : (s.setRegion d r x).tlbs = s.tlbs := rfl
@[simp] theorem State.setRegion_icaches (d r : Nat) (x : Region) : (s.setRegion d r x).icaches = s.icaches := rfl
@[simp] theorem State.setRegion_ops (d r : Nat) (x : Region) : (s.setRegion d r x).ops = s.ops := rfl
@[simp] theorem State.setRegion_nextOp (d r : Nat) (x : Region) : (s.setRegion d r x).nextOp = s.nextOp := rfl
@[simp] theorem State.setRegion_nextSeq (d r : Nat) (x : Region) : (s.setRegion d r x).nextSeq = s.nextSeq := rfl
@[simp] theorem State.setRegion_jobs (d r : Nat) (x : Region) : (s.setRegion d r x).jobs = s.jobs := rfl
@[simp] theorem State.setRegion_nextGrid (d r : Nat) (x : Region) : (s.setRegion d r x).nextGrid = s.nextGrid := rfl
@[simp] theorem State.setRegion_blocks (d r : Nat) (x : Region) : (s.setRegion d r x).blocks = s.blocks := rfl
@[simp] theorem State.setRegion_nextBlock (d r : Nat) (x : Region) : (s.setRegion d r x).nextBlock = s.nextBlock := rfl
@[simp] theorem State.setRegion_warps (d r : Nat) (x : Region) : (s.setRegion d r x).warps = s.warps := rfl
@[simp] theorem State.setRegion_nextWarp (d r : Nat) (x : Region) : (s.setRegion d r x).nextWarp = s.nextWarp := rfl
@[simp] theorem State.setRegion_entries (d r : Nat) (x : Region) : (s.setRegion d r x).entries = s.entries := rfl
@[simp] theorem State.setRegion_binds (d r : Nat) (x : Region) : (s.setRegion d r x).binds = s.binds := rfl
@[simp] theorem State.setRegion_bins (d r : Nat) (x : Region) : (s.setRegion d r x).bins = s.bins := rfl
@[simp] theorem State.setRegion_clusters (d r : Nat) (x : Region) : (s.setRegion d r x).clusters = s.clusters := rfl
@[simp] theorem State.setRegion_gangs (d r : Nat) (x : Region) : (s.setRegion d r x).gangs = s.gangs := rfl
@[simp] theorem State.setRegion_nextGang (d r : Nat) (x : Region) : (s.setRegion d r x).nextGang = s.nextGang := rfl
@[simp] theorem State.setRegion_savePools (d r : Nat) (x : Region) : (s.setRegion d r x).savePools = s.savePools := rfl
@[simp] theorem State.setRegion_slots (d r : Nat) (x : Region) : (s.setRegion d r x).slots = s.slots := rfl
@[simp] theorem State.setRegion_coreMap (d r : Nat) (x : Region) : (s.setRegion d r x).coreMap = s.coreMap := rfl
@[simp] theorem State.setRegion_phys (d r : Nat) (x : Region) : (s.setRegion d r x).phys = s.phys := rfl
@[simp] theorem State.setRegion_placeCounts (d r : Nat) (x : Region) : (s.setRegion d r x).placeCounts = s.placeCounts := rfl
@[simp] theorem State.setRegion_lastBusy (d r : Nat) (x : Region) : (s.setRegion d r x).lastBusy = s.lastBusy := rfl
@[simp] theorem State.setRegion_copyLogs (d r : Nat) (x : Region) : (s.setRegion d r x).copyLogs = s.copyLogs := rfl
@[simp] theorem State.setRegion_mccs (d r : Nat) (x : Region) : (s.setRegion d r x).mccs = s.mccs := rfl
@[simp] theorem State.setRegion_arrs (d r : Nat) (x : Region) : (s.setRegion d r x).arrs = s.arrs := rfl
@[simp] theorem State.setRegion_acc (d r : Nat) (x : Region) : (s.setRegion d r x).acc = s.acc := rfl
@[simp] theorem State.setRegion_slices (d r : Nat) (x : Region) : (s.setRegion d r x).slices = s.slices := rfl
@[simp] theorem State.setRegion_groups (d r : Nat) (x : Region) : (s.setRegion d r x).groups = s.groups := rfl
@[simp] theorem State.setRegion_held (d r : Nat) (x : Region) : (s.setRegion d r x).held = s.held := rfl
@[simp] theorem State.setRegion_ringJobs (d r : Nat) (x : Region) : (s.setRegion d r x).ringJobs = s.ringJobs := rfl
@[simp] theorem State.setRegion_ports (d r : Nat) (x : Region) : (s.setRegion d r x).ports = s.ports := rfl
@[simp] theorem State.setRegion_xfers (d r : Nat) (x : Region) : (s.setRegion d r x).xfers = s.xfers := rfl
@[simp] theorem State.setRegion_pantries (d r : Nat) (x : Region) : (s.setRegion d r x).pantries = s.pantries := rfl
@[simp] theorem State.setRegion_larders (d r : Nat) (x : Region) : (s.setRegion d r x).larders = s.larders := rfl
@[simp] theorem State.setRegion_capBanks (d r : Nat) (x : Region) : (s.setRegion d r x).capBanks = s.capBanks := rfl
@[simp] theorem State.setRegion_hbms (d r : Nat) (x : Region) : (s.setRegion d r x).hbms = s.hbms := rfl
@[simp] theorem State.setRegion_intents (d r : Nat) (x : Region) : (s.setRegion d r x).intents = s.intents := rfl
@[simp] theorem State.setRegion_ballast (d r : Nat) (x : Region) : (s.setRegion d r x).ballast = s.ballast := rfl
@[simp] theorem State.setRegion_gov (d r : Nat) (x : Region) : (s.setRegion d r x).gov = s.gov := rfl
@[simp] theorem State.warp_setRegion (d r : Nat) (x : Region) (k : Nat) : (s.setRegion d r x).warp k = s.warp k := rfl
@[simp] theorem State.block_setRegion (d r : Nat) (x : Region) (k : Nat) : (s.setRegion d r x).block k = s.block k := rfl
@[simp] theorem State.job_setRegion (d r : Nat) (x : Region) (k : Nat) : (s.setRegion d r x).job k = s.job k := rfl
@[simp] theorem State.op_setRegion (d r : Nat) (x : Region) (k : Nat) : (s.setRegion d r x).op k = s.op k := rfl
@[simp] theorem State.mcc_setRegion (d r : Nat) (x : Region) (k : Nat) : (s.setRegion d r x).mcc k = s.mcc k := rfl
@[simp] theorem State.arr_setRegion (d r : Nat) (x : Region) (k : Nat) : (s.setRegion d r x).arr k = s.arr k := rfl
@[simp] theorem State.slice_setRegion (d r : Nat) (x : Region) (k : Nat) : (s.setRegion d r x).slice k = s.slice k := rfl
@[simp] theorem State.gang_setRegion (d r : Nat) (x : Region) (k : Nat) : (s.setRegion d r x).gang k = s.gang k := rfl
@[simp] theorem State.pantry_setRegion (d r : Nat) (x : Region) (k : Nat) : (s.setRegion d r x).pantry k = s.pantry k := rfl
@[simp] theorem State.larder_setRegion (d r : Nat) (x : Region) (k : Nat) : (s.setRegion d r x).larder k = s.larder k := rfl
@[simp] theorem State.entry_setRegion (d r : Nat) (x : Region) (k : Nat) : (s.setRegion d r x).entry k = s.entry k := rfl
@[simp] theorem State.bin_setRegion (d r : Nat) (x : Region) (k : Nat) : (s.setRegion d r x).bin k = s.bin k := rfl
@[simp] theorem State.ring_setRegion (d r : Nat) (x : Region) (k : Nat) : (s.setRegion d r x).ring k = s.ring k := rfl

/-! ## setLine -/

@[simp] theorem State.setLine_turn (w : Nat) (x : L2Line) : (s.setLine w x).turn = s.turn := rfl
@[simp] theorem State.setLine_issuer (w : Nat) (x : L2Line) : (s.setLine w x).issuer = s.issuer := rfl
@[simp] theorem State.setLine_free (w : Nat) (x : L2Line) : (s.setLine w x).free = s.free := rfl
@[simp] theorem State.setLine_time (w : Nat) (x : L2Line) : (s.setLine w x).time = s.time := rfl
@[simp] theorem State.setLine_cycles (w : Nat) (x : L2Line) : (s.setLine w x).cycles = s.cycles := rfl
@[simp] theorem State.setLine_powered (w : Nat) (x : L2Line) : (s.setLine w x).powered = s.powered := rfl
@[simp] theorem State.setLine_recovery (w : Nat) (x : L2Line) : (s.setLine w x).recovery = s.recovery := rfl
@[simp] theorem State.setLine_ready (w : Nat) (x : L2Line) : (s.setLine w x).ready = s.ready := rfl
@[simp] theorem State.setLine_moduleId (w : Nat) (x : L2Line) : (s.setLine w x).moduleId = s.moduleId := rfl
@[simp] theorem State.setLine_measurements (w : Nat) (x : L2Line) : (s.setLine w x).measurements = s.measurements := rfl
@[simp] theorem State.setLine_rings (w : Nat) (x : L2Line) : (s.setLine w x).rings = s.rings := rfl
@[simp] theorem State.setLine_completions (w : Nat) (x : L2Line) : (s.setLine w x).completions = s.completions := rfl
@[simp] theorem State.setLine_mailbox (w : Nat) (x : L2Line) : (s.setLine w x).mailbox = s.mailbox := rfl
@[simp] theorem State.setLine_selectors (w : Nat) (x : L2Line) : (s.setLine w x).selectors = s.selectors := rfl
@[simp] theorem State.setLine_views (w : Nat) (x : L2Line) : (s.setLine w x).views = s.views := rfl
@[simp] theorem State.setLine_i3c (w : Nat) (x : L2Line) : (s.setLine w x).i3c = s.i3c := rfl
@[simp] theorem State.setLine_nextRing (w : Nat) (x : L2Line) : (s.setLine w x).nextRing = s.nextRing := rfl
@[simp] theorem State.setLine_mem (w : Nat) (x : L2Line) : (s.setLine w x).mem = s.mem := rfl
@[simp] theorem State.setLine_l1 (w : Nat) (x : L2Line) : (s.setLine w x).l1 = s.l1 := rfl
@[simp] theorem State.setLine_rdc (w : Nat) (x : L2Line) : (s.setLine w x).rdc = s.rdc := rfl
@[simp] theorem State.setLine_shadow (w : Nat) (x : L2Line) : (s.setLine w x).shadow = s.shadow := rfl
@[simp] theorem State.setLine_past (w : Nat) (x : L2Line) : (s.setLine w x).past = s.past := rfl
@[simp] theorem State.setLine_roots (w : Nat) (x : L2Line) : (s.setLine w x).roots = s.roots := rfl
@[simp] theorem State.setLine_oldRoots (w : Nat) (x : L2Line) : (s.setLine w x).oldRoots = s.oldRoots := rfl
@[simp] theorem State.setLine_tlbs (w : Nat) (x : L2Line) : (s.setLine w x).tlbs = s.tlbs := rfl
@[simp] theorem State.setLine_icaches (w : Nat) (x : L2Line) : (s.setLine w x).icaches = s.icaches := rfl
@[simp] theorem State.setLine_ops (w : Nat) (x : L2Line) : (s.setLine w x).ops = s.ops := rfl
@[simp] theorem State.setLine_nextOp (w : Nat) (x : L2Line) : (s.setLine w x).nextOp = s.nextOp := rfl
@[simp] theorem State.setLine_nextSeq (w : Nat) (x : L2Line) : (s.setLine w x).nextSeq = s.nextSeq := rfl
@[simp] theorem State.setLine_jobs (w : Nat) (x : L2Line) : (s.setLine w x).jobs = s.jobs := rfl
@[simp] theorem State.setLine_nextGrid (w : Nat) (x : L2Line) : (s.setLine w x).nextGrid = s.nextGrid := rfl
@[simp] theorem State.setLine_blocks (w : Nat) (x : L2Line) : (s.setLine w x).blocks = s.blocks := rfl
@[simp] theorem State.setLine_nextBlock (w : Nat) (x : L2Line) : (s.setLine w x).nextBlock = s.nextBlock := rfl
@[simp] theorem State.setLine_warps (w : Nat) (x : L2Line) : (s.setLine w x).warps = s.warps := rfl
@[simp] theorem State.setLine_nextWarp (w : Nat) (x : L2Line) : (s.setLine w x).nextWarp = s.nextWarp := rfl
@[simp] theorem State.setLine_entries (w : Nat) (x : L2Line) : (s.setLine w x).entries = s.entries := rfl
@[simp] theorem State.setLine_binds (w : Nat) (x : L2Line) : (s.setLine w x).binds = s.binds := rfl
@[simp] theorem State.setLine_bins (w : Nat) (x : L2Line) : (s.setLine w x).bins = s.bins := rfl
@[simp] theorem State.setLine_clusters (w : Nat) (x : L2Line) : (s.setLine w x).clusters = s.clusters := rfl
@[simp] theorem State.setLine_gangs (w : Nat) (x : L2Line) : (s.setLine w x).gangs = s.gangs := rfl
@[simp] theorem State.setLine_nextGang (w : Nat) (x : L2Line) : (s.setLine w x).nextGang = s.nextGang := rfl
@[simp] theorem State.setLine_savePools (w : Nat) (x : L2Line) : (s.setLine w x).savePools = s.savePools := rfl
@[simp] theorem State.setLine_slots (w : Nat) (x : L2Line) : (s.setLine w x).slots = s.slots := rfl
@[simp] theorem State.setLine_coreMap (w : Nat) (x : L2Line) : (s.setLine w x).coreMap = s.coreMap := rfl
@[simp] theorem State.setLine_phys (w : Nat) (x : L2Line) : (s.setLine w x).phys = s.phys := rfl
@[simp] theorem State.setLine_placeCounts (w : Nat) (x : L2Line) : (s.setLine w x).placeCounts = s.placeCounts := rfl
@[simp] theorem State.setLine_lastBusy (w : Nat) (x : L2Line) : (s.setLine w x).lastBusy = s.lastBusy := rfl
@[simp] theorem State.setLine_copyLogs (w : Nat) (x : L2Line) : (s.setLine w x).copyLogs = s.copyLogs := rfl
@[simp] theorem State.setLine_mccs (w : Nat) (x : L2Line) : (s.setLine w x).mccs = s.mccs := rfl
@[simp] theorem State.setLine_arrs (w : Nat) (x : L2Line) : (s.setLine w x).arrs = s.arrs := rfl
@[simp] theorem State.setLine_acc (w : Nat) (x : L2Line) : (s.setLine w x).acc = s.acc := rfl
@[simp] theorem State.setLine_slices (w : Nat) (x : L2Line) : (s.setLine w x).slices = s.slices := rfl
@[simp] theorem State.setLine_groups (w : Nat) (x : L2Line) : (s.setLine w x).groups = s.groups := rfl
@[simp] theorem State.setLine_held (w : Nat) (x : L2Line) : (s.setLine w x).held = s.held := rfl
@[simp] theorem State.setLine_ringJobs (w : Nat) (x : L2Line) : (s.setLine w x).ringJobs = s.ringJobs := rfl
@[simp] theorem State.setLine_ports (w : Nat) (x : L2Line) : (s.setLine w x).ports = s.ports := rfl
@[simp] theorem State.setLine_xfers (w : Nat) (x : L2Line) : (s.setLine w x).xfers = s.xfers := rfl
@[simp] theorem State.setLine_pantries (w : Nat) (x : L2Line) : (s.setLine w x).pantries = s.pantries := rfl
@[simp] theorem State.setLine_larders (w : Nat) (x : L2Line) : (s.setLine w x).larders = s.larders := rfl
@[simp] theorem State.setLine_capBanks (w : Nat) (x : L2Line) : (s.setLine w x).capBanks = s.capBanks := rfl
@[simp] theorem State.setLine_regions (w : Nat) (x : L2Line) : (s.setLine w x).regions = s.regions := rfl
@[simp] theorem State.setLine_hbms (w : Nat) (x : L2Line) : (s.setLine w x).hbms = s.hbms := rfl
@[simp] theorem State.setLine_intents (w : Nat) (x : L2Line) : (s.setLine w x).intents = s.intents := rfl
@[simp] theorem State.setLine_ballast (w : Nat) (x : L2Line) : (s.setLine w x).ballast = s.ballast := rfl
@[simp] theorem State.setLine_gov (w : Nat) (x : L2Line) : (s.setLine w x).gov = s.gov := rfl
@[simp] theorem State.warp_setLine (w : Nat) (x : L2Line) (k : Nat) : (s.setLine w x).warp k = s.warp k := rfl
@[simp] theorem State.block_setLine (w : Nat) (x : L2Line) (k : Nat) : (s.setLine w x).block k = s.block k := rfl
@[simp] theorem State.job_setLine (w : Nat) (x : L2Line) (k : Nat) : (s.setLine w x).job k = s.job k := rfl
@[simp] theorem State.op_setLine (w : Nat) (x : L2Line) (k : Nat) : (s.setLine w x).op k = s.op k := rfl
@[simp] theorem State.mcc_setLine (w : Nat) (x : L2Line) (k : Nat) : (s.setLine w x).mcc k = s.mcc k := rfl
@[simp] theorem State.arr_setLine (w : Nat) (x : L2Line) (k : Nat) : (s.setLine w x).arr k = s.arr k := rfl
@[simp] theorem State.slice_setLine (w : Nat) (x : L2Line) (k : Nat) : (s.setLine w x).slice k = s.slice k := rfl
@[simp] theorem State.gang_setLine (w : Nat) (x : L2Line) (k : Nat) : (s.setLine w x).gang k = s.gang k := rfl
@[simp] theorem State.pantry_setLine (w : Nat) (x : L2Line) (k : Nat) : (s.setLine w x).pantry k = s.pantry k := rfl
@[simp] theorem State.larder_setLine (w : Nat) (x : L2Line) (k : Nat) : (s.setLine w x).larder k = s.larder k := rfl
@[simp] theorem State.entry_setLine (w : Nat) (x : L2Line) (k : Nat) : (s.setLine w x).entry k = s.entry k := rfl
@[simp] theorem State.bin_setLine (w : Nat) (x : L2Line) (k : Nat) : (s.setLine w x).bin k = s.bin k := rfl
@[simp] theorem State.ring_setLine (w : Nat) (x : L2Line) (k : Nat) : (s.setLine w x).ring k = s.ring k := rfl

/-! ## draw -/

@[simp] theorem State.draw_turn : s.draw.turn = s.turn := rfl
@[simp] theorem State.draw_issuer : s.draw.issuer = s.issuer := rfl
@[simp] theorem State.draw_time : s.draw.time = s.time := rfl
@[simp] theorem State.draw_cycles : s.draw.cycles = s.cycles := rfl
@[simp] theorem State.draw_powered : s.draw.powered = s.powered := rfl
@[simp] theorem State.draw_recovery : s.draw.recovery = s.recovery := rfl
@[simp] theorem State.draw_ready : s.draw.ready = s.ready := rfl
@[simp] theorem State.draw_moduleId : s.draw.moduleId = s.moduleId := rfl
@[simp] theorem State.draw_measurements : s.draw.measurements = s.measurements := rfl
@[simp] theorem State.draw_rings : s.draw.rings = s.rings := rfl
@[simp] theorem State.draw_completions : s.draw.completions = s.completions := rfl
@[simp] theorem State.draw_mailbox : s.draw.mailbox = s.mailbox := rfl
@[simp] theorem State.draw_selectors : s.draw.selectors = s.selectors := rfl
@[simp] theorem State.draw_views : s.draw.views = s.views := rfl
@[simp] theorem State.draw_i3c : s.draw.i3c = s.i3c := rfl
@[simp] theorem State.draw_nextRing : s.draw.nextRing = s.nextRing := rfl
@[simp] theorem State.draw_mem : s.draw.mem = s.mem := rfl
@[simp] theorem State.draw_l1 : s.draw.l1 = s.l1 := rfl
@[simp] theorem State.draw_l2 : s.draw.l2 = s.l2 := rfl
@[simp] theorem State.draw_rdc : s.draw.rdc = s.rdc := rfl
@[simp] theorem State.draw_shadow : s.draw.shadow = s.shadow := rfl
@[simp] theorem State.draw_past : s.draw.past = s.past := rfl
@[simp] theorem State.draw_roots : s.draw.roots = s.roots := rfl
@[simp] theorem State.draw_oldRoots : s.draw.oldRoots = s.oldRoots := rfl
@[simp] theorem State.draw_tlbs : s.draw.tlbs = s.tlbs := rfl
@[simp] theorem State.draw_icaches : s.draw.icaches = s.icaches := rfl
@[simp] theorem State.draw_ops : s.draw.ops = s.ops := rfl
@[simp] theorem State.draw_nextOp : s.draw.nextOp = s.nextOp := rfl
@[simp] theorem State.draw_nextSeq : s.draw.nextSeq = s.nextSeq := rfl
@[simp] theorem State.draw_jobs : s.draw.jobs = s.jobs := rfl
@[simp] theorem State.draw_nextGrid : s.draw.nextGrid = s.nextGrid := rfl
@[simp] theorem State.draw_blocks : s.draw.blocks = s.blocks := rfl
@[simp] theorem State.draw_nextBlock : s.draw.nextBlock = s.nextBlock := rfl
@[simp] theorem State.draw_warps : s.draw.warps = s.warps := rfl
@[simp] theorem State.draw_nextWarp : s.draw.nextWarp = s.nextWarp := rfl
@[simp] theorem State.draw_entries : s.draw.entries = s.entries := rfl
@[simp] theorem State.draw_binds : s.draw.binds = s.binds := rfl
@[simp] theorem State.draw_bins : s.draw.bins = s.bins := rfl
@[simp] theorem State.draw_clusters : s.draw.clusters = s.clusters := rfl
@[simp] theorem State.draw_gangs : s.draw.gangs = s.gangs := rfl
@[simp] theorem State.draw_nextGang : s.draw.nextGang = s.nextGang := rfl
@[simp] theorem State.draw_savePools : s.draw.savePools = s.savePools := rfl
@[simp] theorem State.draw_slots : s.draw.slots = s.slots := rfl
@[simp] theorem State.draw_coreMap : s.draw.coreMap = s.coreMap := rfl
@[simp] theorem State.draw_phys : s.draw.phys = s.phys := rfl
@[simp] theorem State.draw_placeCounts : s.draw.placeCounts = s.placeCounts := rfl
@[simp] theorem State.draw_lastBusy : s.draw.lastBusy = s.lastBusy := rfl
@[simp] theorem State.draw_copyLogs : s.draw.copyLogs = s.copyLogs := rfl
@[simp] theorem State.draw_mccs : s.draw.mccs = s.mccs := rfl
@[simp] theorem State.draw_arrs : s.draw.arrs = s.arrs := rfl
@[simp] theorem State.draw_acc : s.draw.acc = s.acc := rfl
@[simp] theorem State.draw_slices : s.draw.slices = s.slices := rfl
@[simp] theorem State.draw_groups : s.draw.groups = s.groups := rfl
@[simp] theorem State.draw_held : s.draw.held = s.held := rfl
@[simp] theorem State.draw_ringJobs : s.draw.ringJobs = s.ringJobs := rfl
@[simp] theorem State.draw_ports : s.draw.ports = s.ports := rfl
@[simp] theorem State.draw_xfers : s.draw.xfers = s.xfers := rfl
@[simp] theorem State.draw_pantries : s.draw.pantries = s.pantries := rfl
@[simp] theorem State.draw_larders : s.draw.larders = s.larders := rfl
@[simp] theorem State.draw_capBanks : s.draw.capBanks = s.capBanks := rfl
@[simp] theorem State.draw_regions : s.draw.regions = s.regions := rfl
@[simp] theorem State.draw_hbms : s.draw.hbms = s.hbms := rfl
@[simp] theorem State.draw_intents : s.draw.intents = s.intents := rfl
@[simp] theorem State.draw_ballast : s.draw.ballast = s.ballast := rfl
@[simp] theorem State.draw_gov : s.draw.gov = s.gov := rfl
@[simp] theorem State.warp_draw (k : Nat) : (s.draw).warp k = s.warp k := rfl
@[simp] theorem State.block_draw (k : Nat) : (s.draw).block k = s.block k := rfl
@[simp] theorem State.job_draw (k : Nat) : (s.draw).job k = s.job k := rfl
@[simp] theorem State.op_draw (k : Nat) : (s.draw).op k = s.op k := rfl
@[simp] theorem State.mcc_draw (k : Nat) : (s.draw).mcc k = s.mcc k := rfl
@[simp] theorem State.arr_draw (k : Nat) : (s.draw).arr k = s.arr k := rfl
@[simp] theorem State.slice_draw (k : Nat) : (s.draw).slice k = s.slice k := rfl
@[simp] theorem State.gang_draw (k : Nat) : (s.draw).gang k = s.gang k := rfl
@[simp] theorem State.pantry_draw (k : Nat) : (s.draw).pantry k = s.pantry k := rfl
@[simp] theorem State.larder_draw (k : Nat) : (s.draw).larder k = s.larder k := rfl
@[simp] theorem State.entry_draw (k : Nat) : (s.draw).entry k = s.entry k := rfl
@[simp] theorem State.bin_draw (k : Nat) : (s.draw).bin k = s.bin k := rfl
@[simp] theorem State.ring_draw (k : Nat) : (s.draw).ring k = s.ring k := rfl

/-! ## post -/

@[simp] theorem State.post_turn (a b c d e f g h : Nat) : (s.post a b c d e f g h).turn = s.turn := rfl
@[simp] theorem State.post_issuer (a b c d e f g h : Nat) : (s.post a b c d e f g h).issuer = s.issuer := rfl
@[simp] theorem State.post_free (a b c d e f g h : Nat) : (s.post a b c d e f g h).free = s.free := rfl
@[simp] theorem State.post_time (a b c d e f g h : Nat) : (s.post a b c d e f g h).time = s.time := rfl
@[simp] theorem State.post_cycles (a b c d e f g h : Nat) : (s.post a b c d e f g h).cycles = s.cycles := rfl
@[simp] theorem State.post_powered (a b c d e f g h : Nat) : (s.post a b c d e f g h).powered = s.powered := rfl
@[simp] theorem State.post_recovery (a b c d e f g h : Nat) : (s.post a b c d e f g h).recovery = s.recovery := rfl
@[simp] theorem State.post_ready (a b c d e f g h : Nat) : (s.post a b c d e f g h).ready = s.ready := rfl
@[simp] theorem State.post_moduleId (a b c d e f g h : Nat) : (s.post a b c d e f g h).moduleId = s.moduleId := rfl
@[simp] theorem State.post_measurements (a b c d e f g h : Nat) : (s.post a b c d e f g h).measurements = s.measurements := rfl
@[simp] theorem State.post_rings (a b c d e f g h : Nat) : (s.post a b c d e f g h).rings = s.rings := rfl
@[simp] theorem State.post_mailbox (a b c d e f g h : Nat) : (s.post a b c d e f g h).mailbox = s.mailbox := rfl
@[simp] theorem State.post_selectors (a b c d e f g h : Nat) : (s.post a b c d e f g h).selectors = s.selectors := rfl
@[simp] theorem State.post_views (a b c d e f g h : Nat) : (s.post a b c d e f g h).views = s.views := rfl
@[simp] theorem State.post_i3c (a b c d e f g h : Nat) : (s.post a b c d e f g h).i3c = s.i3c := rfl
@[simp] theorem State.post_nextRing (a b c d e f g h : Nat) : (s.post a b c d e f g h).nextRing = s.nextRing := rfl
@[simp] theorem State.post_mem (a b c d e f g h : Nat) : (s.post a b c d e f g h).mem = s.mem := rfl
@[simp] theorem State.post_l1 (a b c d e f g h : Nat) : (s.post a b c d e f g h).l1 = s.l1 := rfl
@[simp] theorem State.post_l2 (a b c d e f g h : Nat) : (s.post a b c d e f g h).l2 = s.l2 := rfl
@[simp] theorem State.post_rdc (a b c d e f g h : Nat) : (s.post a b c d e f g h).rdc = s.rdc := rfl
@[simp] theorem State.post_shadow (a b c d e f g h : Nat) : (s.post a b c d e f g h).shadow = s.shadow := rfl
@[simp] theorem State.post_past (a b c d e f g h : Nat) : (s.post a b c d e f g h).past = s.past := rfl
@[simp] theorem State.post_roots (a b c d e f g h : Nat) : (s.post a b c d e f g h).roots = s.roots := rfl
@[simp] theorem State.post_oldRoots (a b c d e f g h : Nat) : (s.post a b c d e f g h).oldRoots = s.oldRoots := rfl
@[simp] theorem State.post_tlbs (a b c d e f g h : Nat) : (s.post a b c d e f g h).tlbs = s.tlbs := rfl
@[simp] theorem State.post_icaches (a b c d e f g h : Nat) : (s.post a b c d e f g h).icaches = s.icaches := rfl
@[simp] theorem State.post_ops (a b c d e f g h : Nat) : (s.post a b c d e f g h).ops = s.ops := rfl
@[simp] theorem State.post_nextOp (a b c d e f g h : Nat) : (s.post a b c d e f g h).nextOp = s.nextOp := rfl
@[simp] theorem State.post_nextSeq (a b c d e f g h : Nat) : (s.post a b c d e f g h).nextSeq = s.nextSeq := rfl
@[simp] theorem State.post_jobs (a b c d e f g h : Nat) : (s.post a b c d e f g h).jobs = s.jobs := rfl
@[simp] theorem State.post_nextGrid (a b c d e f g h : Nat) : (s.post a b c d e f g h).nextGrid = s.nextGrid := rfl
@[simp] theorem State.post_blocks (a b c d e f g h : Nat) : (s.post a b c d e f g h).blocks = s.blocks := rfl
@[simp] theorem State.post_nextBlock (a b c d e f g h : Nat) : (s.post a b c d e f g h).nextBlock = s.nextBlock := rfl
@[simp] theorem State.post_warps (a b c d e f g h : Nat) : (s.post a b c d e f g h).warps = s.warps := rfl
@[simp] theorem State.post_nextWarp (a b c d e f g h : Nat) : (s.post a b c d e f g h).nextWarp = s.nextWarp := rfl
@[simp] theorem State.post_entries (a b c d e f g h : Nat) : (s.post a b c d e f g h).entries = s.entries := rfl
@[simp] theorem State.post_binds (a b c d e f g h : Nat) : (s.post a b c d e f g h).binds = s.binds := rfl
@[simp] theorem State.post_bins (a b c d e f g h : Nat) : (s.post a b c d e f g h).bins = s.bins := rfl
@[simp] theorem State.post_clusters (a b c d e f g h : Nat) : (s.post a b c d e f g h).clusters = s.clusters := rfl
@[simp] theorem State.post_gangs (a b c d e f g h : Nat) : (s.post a b c d e f g h).gangs = s.gangs := rfl
@[simp] theorem State.post_nextGang (a b c d e f g h : Nat) : (s.post a b c d e f g h).nextGang = s.nextGang := rfl
@[simp] theorem State.post_savePools (a b c d e f g h : Nat) : (s.post a b c d e f g h).savePools = s.savePools := rfl
@[simp] theorem State.post_slots (a b c d e f g h : Nat) : (s.post a b c d e f g h).slots = s.slots := rfl
@[simp] theorem State.post_coreMap (a b c d e f g h : Nat) : (s.post a b c d e f g h).coreMap = s.coreMap := rfl
@[simp] theorem State.post_phys (a b c d e f g h : Nat) : (s.post a b c d e f g h).phys = s.phys := rfl
@[simp] theorem State.post_placeCounts (a b c d e f g h : Nat) : (s.post a b c d e f g h).placeCounts = s.placeCounts := rfl
@[simp] theorem State.post_lastBusy (a b c d e f g h : Nat) : (s.post a b c d e f g h).lastBusy = s.lastBusy := rfl
@[simp] theorem State.post_copyLogs (a b c d e f g h : Nat) : (s.post a b c d e f g h).copyLogs = s.copyLogs := rfl
@[simp] theorem State.post_mccs (a b c d e f g h : Nat) : (s.post a b c d e f g h).mccs = s.mccs := rfl
@[simp] theorem State.post_arrs (a b c d e f g h : Nat) : (s.post a b c d e f g h).arrs = s.arrs := rfl
@[simp] theorem State.post_acc (a b c d e f g h : Nat) : (s.post a b c d e f g h).acc = s.acc := rfl
@[simp] theorem State.post_slices (a b c d e f g h : Nat) : (s.post a b c d e f g h).slices = s.slices := rfl
@[simp] theorem State.post_groups (a b c d e f g h : Nat) : (s.post a b c d e f g h).groups = s.groups := rfl
@[simp] theorem State.post_held (a b c d e f g h : Nat) : (s.post a b c d e f g h).held = s.held := rfl
@[simp] theorem State.post_ringJobs (a b c d e f g h : Nat) : (s.post a b c d e f g h).ringJobs = s.ringJobs := rfl
@[simp] theorem State.post_ports (a b c d e f g h : Nat) : (s.post a b c d e f g h).ports = s.ports := rfl
@[simp] theorem State.post_xfers (a b c d e f g h : Nat) : (s.post a b c d e f g h).xfers = s.xfers := rfl
@[simp] theorem State.post_pantries (a b c d e f g h : Nat) : (s.post a b c d e f g h).pantries = s.pantries := rfl
@[simp] theorem State.post_larders (a b c d e f g h : Nat) : (s.post a b c d e f g h).larders = s.larders := rfl
@[simp] theorem State.post_capBanks (a b c d e f g h : Nat) : (s.post a b c d e f g h).capBanks = s.capBanks := rfl
@[simp] theorem State.post_regions (a b c d e f g h : Nat) : (s.post a b c d e f g h).regions = s.regions := rfl
@[simp] theorem State.post_hbms (a b c d e f g h : Nat) : (s.post a b c d e f g h).hbms = s.hbms := rfl
@[simp] theorem State.post_intents (a b c d e f g h : Nat) : (s.post a b c d e f g h).intents = s.intents := rfl
@[simp] theorem State.post_ballast (a b c d e f g h : Nat) : (s.post a b c d e f g h).ballast = s.ballast := rfl
@[simp] theorem State.post_gov (a b c d e f g h : Nat) : (s.post a b c d e f g h).gov = s.gov := rfl
@[simp] theorem State.warp_post (a b c d e f g h : Nat) (k : Nat) : (s.post a b c d e f g h).warp k = s.warp k := rfl
@[simp] theorem State.block_post (a b c d e f g h : Nat) (k : Nat) : (s.post a b c d e f g h).block k = s.block k := rfl
@[simp] theorem State.job_post (a b c d e f g h : Nat) (k : Nat) : (s.post a b c d e f g h).job k = s.job k := rfl
@[simp] theorem State.op_post (a b c d e f g h : Nat) (k : Nat) : (s.post a b c d e f g h).op k = s.op k := rfl
@[simp] theorem State.mcc_post (a b c d e f g h : Nat) (k : Nat) : (s.post a b c d e f g h).mcc k = s.mcc k := rfl
@[simp] theorem State.arr_post (a b c d e f g h : Nat) (k : Nat) : (s.post a b c d e f g h).arr k = s.arr k := rfl
@[simp] theorem State.slice_post (a b c d e f g h : Nat) (k : Nat) : (s.post a b c d e f g h).slice k = s.slice k := rfl
@[simp] theorem State.gang_post (a b c d e f g h : Nat) (k : Nat) : (s.post a b c d e f g h).gang k = s.gang k := rfl
@[simp] theorem State.pantry_post (a b c d e f g h : Nat) (k : Nat) : (s.post a b c d e f g h).pantry k = s.pantry k := rfl
@[simp] theorem State.larder_post (a b c d e f g h : Nat) (k : Nat) : (s.post a b c d e f g h).larder k = s.larder k := rfl
@[simp] theorem State.entry_post (a b c d e f g h : Nat) (k : Nat) : (s.post a b c d e f g h).entry k = s.entry k := rfl
@[simp] theorem State.bin_post (a b c d e f g h : Nat) (k : Nat) : (s.post a b c d e f g h).bin k = s.bin k := rfl
@[simp] theorem State.ring_post (a b c d e f g h : Nat) (k : Nat) : (s.post a b c d e f g h).ring k = s.ring k := rfl

/-! ## hardWrite -/

@[simp] theorem State.hardWrite_turn (c a : Nat) (bs : List Byte) : (s.hardWrite c a bs).turn = s.turn := rfl
@[simp] theorem State.hardWrite_issuer (c a : Nat) (bs : List Byte) : (s.hardWrite c a bs).issuer = s.issuer := rfl
@[simp] theorem State.hardWrite_free (c a : Nat) (bs : List Byte) : (s.hardWrite c a bs).free = s.free := rfl
@[simp] theorem State.hardWrite_time (c a : Nat) (bs : List Byte) : (s.hardWrite c a bs).time = s.time := rfl
@[simp] theorem State.hardWrite_cycles (c a : Nat) (bs : List Byte) : (s.hardWrite c a bs).cycles = s.cycles := rfl
@[simp] theorem State.hardWrite_powered (c a : Nat) (bs : List Byte) : (s.hardWrite c a bs).powered = s.powered := rfl
@[simp] theorem State.hardWrite_recovery (c a : Nat) (bs : List Byte) : (s.hardWrite c a bs).recovery = s.recovery := rfl
@[simp] theorem State.hardWrite_ready (c a : Nat) (bs : List Byte) : (s.hardWrite c a bs).ready = s.ready := rfl
@[simp] theorem State.hardWrite_moduleId (c a : Nat) (bs : List Byte) : (s.hardWrite c a bs).moduleId = s.moduleId := rfl
@[simp] theorem State.hardWrite_measurements (c a : Nat) (bs : List Byte) : (s.hardWrite c a bs).measurements = s.measurements := rfl
@[simp] theorem State.hardWrite_rings (c a : Nat) (bs : List Byte) : (s.hardWrite c a bs).rings = s.rings := rfl
@[simp] theorem State.hardWrite_completions (c a : Nat) (bs : List Byte) : (s.hardWrite c a bs).completions = s.completions := rfl
@[simp] theorem State.hardWrite_mailbox (c a : Nat) (bs : List Byte) : (s.hardWrite c a bs).mailbox = s.mailbox := rfl
@[simp] theorem State.hardWrite_selectors (c a : Nat) (bs : List Byte) : (s.hardWrite c a bs).selectors = s.selectors := rfl
@[simp] theorem State.hardWrite_views (c a : Nat) (bs : List Byte) : (s.hardWrite c a bs).views = s.views := rfl
@[simp] theorem State.hardWrite_i3c (c a : Nat) (bs : List Byte) : (s.hardWrite c a bs).i3c = s.i3c := rfl
@[simp] theorem State.hardWrite_nextRing (c a : Nat) (bs : List Byte) : (s.hardWrite c a bs).nextRing = s.nextRing := rfl
@[simp] theorem State.hardWrite_l2 (c a : Nat) (bs : List Byte) : (s.hardWrite c a bs).l2 = s.l2 := rfl
@[simp] theorem State.hardWrite_shadow (c a : Nat) (bs : List Byte) : (s.hardWrite c a bs).shadow = s.shadow := rfl
@[simp] theorem State.hardWrite_past (c a : Nat) (bs : List Byte) : (s.hardWrite c a bs).past = s.past := rfl
@[simp] theorem State.hardWrite_roots (c a : Nat) (bs : List Byte) : (s.hardWrite c a bs).roots = s.roots := rfl
@[simp] theorem State.hardWrite_oldRoots (c a : Nat) (bs : List Byte) : (s.hardWrite c a bs).oldRoots = s.oldRoots := rfl
@[simp] theorem State.hardWrite_tlbs (c a : Nat) (bs : List Byte) : (s.hardWrite c a bs).tlbs = s.tlbs := rfl
@[simp] theorem State.hardWrite_icaches (c a : Nat) (bs : List Byte) : (s.hardWrite c a bs).icaches = s.icaches := rfl
@[simp] theorem State.hardWrite_ops (c a : Nat) (bs : List Byte) : (s.hardWrite c a bs).ops = s.ops := rfl
@[simp] theorem State.hardWrite_nextOp (c a : Nat) (bs : List Byte) : (s.hardWrite c a bs).nextOp = s.nextOp := rfl
@[simp] theorem State.hardWrite_nextSeq (c a : Nat) (bs : List Byte) : (s.hardWrite c a bs).nextSeq = s.nextSeq := rfl
@[simp] theorem State.hardWrite_jobs (c a : Nat) (bs : List Byte) : (s.hardWrite c a bs).jobs = s.jobs := rfl
@[simp] theorem State.hardWrite_nextGrid (c a : Nat) (bs : List Byte) : (s.hardWrite c a bs).nextGrid = s.nextGrid := rfl
@[simp] theorem State.hardWrite_blocks (c a : Nat) (bs : List Byte) : (s.hardWrite c a bs).blocks = s.blocks := rfl
@[simp] theorem State.hardWrite_nextBlock (c a : Nat) (bs : List Byte) : (s.hardWrite c a bs).nextBlock = s.nextBlock := rfl
@[simp] theorem State.hardWrite_warps (c a : Nat) (bs : List Byte) : (s.hardWrite c a bs).warps = s.warps := rfl
@[simp] theorem State.hardWrite_nextWarp (c a : Nat) (bs : List Byte) : (s.hardWrite c a bs).nextWarp = s.nextWarp := rfl
@[simp] theorem State.hardWrite_entries (c a : Nat) (bs : List Byte) : (s.hardWrite c a bs).entries = s.entries := rfl
@[simp] theorem State.hardWrite_binds (c a : Nat) (bs : List Byte) : (s.hardWrite c a bs).binds = s.binds := rfl
@[simp] theorem State.hardWrite_bins (c a : Nat) (bs : List Byte) : (s.hardWrite c a bs).bins = s.bins := rfl
@[simp] theorem State.hardWrite_clusters (c a : Nat) (bs : List Byte) : (s.hardWrite c a bs).clusters = s.clusters := rfl
@[simp] theorem State.hardWrite_gangs (c a : Nat) (bs : List Byte) : (s.hardWrite c a bs).gangs = s.gangs := rfl
@[simp] theorem State.hardWrite_nextGang (c a : Nat) (bs : List Byte) : (s.hardWrite c a bs).nextGang = s.nextGang := rfl
@[simp] theorem State.hardWrite_savePools (c a : Nat) (bs : List Byte) : (s.hardWrite c a bs).savePools = s.savePools := rfl
@[simp] theorem State.hardWrite_slots (c a : Nat) (bs : List Byte) : (s.hardWrite c a bs).slots = s.slots := rfl
@[simp] theorem State.hardWrite_coreMap (c a : Nat) (bs : List Byte) : (s.hardWrite c a bs).coreMap = s.coreMap := rfl
@[simp] theorem State.hardWrite_phys (c a : Nat) (bs : List Byte) : (s.hardWrite c a bs).phys = s.phys := rfl
@[simp] theorem State.hardWrite_placeCounts (c a : Nat) (bs : List Byte) : (s.hardWrite c a bs).placeCounts = s.placeCounts := rfl
@[simp] theorem State.hardWrite_lastBusy (c a : Nat) (bs : List Byte) : (s.hardWrite c a bs).lastBusy = s.lastBusy := rfl
@[simp] theorem State.hardWrite_copyLogs (c a : Nat) (bs : List Byte) : (s.hardWrite c a bs).copyLogs = s.copyLogs := rfl
@[simp] theorem State.hardWrite_mccs (c a : Nat) (bs : List Byte) : (s.hardWrite c a bs).mccs = s.mccs := rfl
@[simp] theorem State.hardWrite_arrs (c a : Nat) (bs : List Byte) : (s.hardWrite c a bs).arrs = s.arrs := rfl
@[simp] theorem State.hardWrite_acc (c a : Nat) (bs : List Byte) : (s.hardWrite c a bs).acc = s.acc := rfl
@[simp] theorem State.hardWrite_slices (c a : Nat) (bs : List Byte) : (s.hardWrite c a bs).slices = s.slices := rfl
@[simp] theorem State.hardWrite_groups (c a : Nat) (bs : List Byte) : (s.hardWrite c a bs).groups = s.groups := rfl
@[simp] theorem State.hardWrite_held (c a : Nat) (bs : List Byte) : (s.hardWrite c a bs).held = s.held := rfl
@[simp] theorem State.hardWrite_ringJobs (c a : Nat) (bs : List Byte) : (s.hardWrite c a bs).ringJobs = s.ringJobs := rfl
@[simp] theorem State.hardWrite_ports (c a : Nat) (bs : List Byte) : (s.hardWrite c a bs).ports = s.ports := rfl
@[simp] theorem State.hardWrite_xfers (c a : Nat) (bs : List Byte) : (s.hardWrite c a bs).xfers = s.xfers := rfl
@[simp] theorem State.hardWrite_pantries (c a : Nat) (bs : List Byte) : (s.hardWrite c a bs).pantries = s.pantries := rfl
@[simp] theorem State.hardWrite_larders (c a : Nat) (bs : List Byte) : (s.hardWrite c a bs).larders = s.larders := rfl
@[simp] theorem State.hardWrite_capBanks (c a : Nat) (bs : List Byte) : (s.hardWrite c a bs).capBanks = s.capBanks := rfl
@[simp] theorem State.hardWrite_regions (c a : Nat) (bs : List Byte) : (s.hardWrite c a bs).regions = s.regions := rfl
@[simp] theorem State.hardWrite_hbms (c a : Nat) (bs : List Byte) : (s.hardWrite c a bs).hbms = s.hbms := rfl
@[simp] theorem State.hardWrite_intents (c a : Nat) (bs : List Byte) : (s.hardWrite c a bs).intents = s.intents := rfl
@[simp] theorem State.hardWrite_ballast (c a : Nat) (bs : List Byte) : (s.hardWrite c a bs).ballast = s.ballast := rfl
@[simp] theorem State.hardWrite_gov (c a : Nat) (bs : List Byte) : (s.hardWrite c a bs).gov = s.gov := rfl
@[simp] theorem State.warp_hardWrite (c a : Nat) (bs : List Byte) (k : Nat) : (s.hardWrite c a bs).warp k = s.warp k := rfl
@[simp] theorem State.block_hardWrite (c a : Nat) (bs : List Byte) (k : Nat) : (s.hardWrite c a bs).block k = s.block k := rfl
@[simp] theorem State.job_hardWrite (c a : Nat) (bs : List Byte) (k : Nat) : (s.hardWrite c a bs).job k = s.job k := rfl
@[simp] theorem State.op_hardWrite (c a : Nat) (bs : List Byte) (k : Nat) : (s.hardWrite c a bs).op k = s.op k := rfl
@[simp] theorem State.mcc_hardWrite (c a : Nat) (bs : List Byte) (k : Nat) : (s.hardWrite c a bs).mcc k = s.mcc k := rfl
@[simp] theorem State.arr_hardWrite (c a : Nat) (bs : List Byte) (k : Nat) : (s.hardWrite c a bs).arr k = s.arr k := rfl
@[simp] theorem State.slice_hardWrite (c a : Nat) (bs : List Byte) (k : Nat) : (s.hardWrite c a bs).slice k = s.slice k := rfl
@[simp] theorem State.gang_hardWrite (c a : Nat) (bs : List Byte) (k : Nat) : (s.hardWrite c a bs).gang k = s.gang k := rfl
@[simp] theorem State.pantry_hardWrite (c a : Nat) (bs : List Byte) (k : Nat) : (s.hardWrite c a bs).pantry k = s.pantry k := rfl
@[simp] theorem State.larder_hardWrite (c a : Nat) (bs : List Byte) (k : Nat) : (s.hardWrite c a bs).larder k = s.larder k := rfl
@[simp] theorem State.entry_hardWrite (c a : Nat) (bs : List Byte) (k : Nat) : (s.hardWrite c a bs).entry k = s.entry k := rfl
@[simp] theorem State.bin_hardWrite (c a : Nat) (bs : List Byte) (k : Nat) : (s.hardWrite c a bs).bin k = s.bin k := rfl
@[simp] theorem State.ring_hardWrite (c a : Nat) (bs : List Byte) (k : Nat) : (s.hardWrite c a bs).ring k = s.ring k := rfl

/-! ## putFill -/

@[simp] theorem State.putFill_turn (w : Nat) (x : FillBlock) : (s.putFill w x).turn = s.turn := rfl
@[simp] theorem State.putFill_issuer (w : Nat) (x : FillBlock) : (s.putFill w x).issuer = s.issuer := rfl
@[simp] theorem State.putFill_free (w : Nat) (x : FillBlock) : (s.putFill w x).free = s.free := rfl
@[simp] theorem State.putFill_time (w : Nat) (x : FillBlock) : (s.putFill w x).time = s.time := rfl
@[simp] theorem State.putFill_cycles (w : Nat) (x : FillBlock) : (s.putFill w x).cycles = s.cycles := rfl
@[simp] theorem State.putFill_powered (w : Nat) (x : FillBlock) : (s.putFill w x).powered = s.powered := rfl
@[simp] theorem State.putFill_recovery (w : Nat) (x : FillBlock) : (s.putFill w x).recovery = s.recovery := rfl
@[simp] theorem State.putFill_ready (w : Nat) (x : FillBlock) : (s.putFill w x).ready = s.ready := rfl
@[simp] theorem State.putFill_moduleId (w : Nat) (x : FillBlock) : (s.putFill w x).moduleId = s.moduleId := rfl
@[simp] theorem State.putFill_measurements (w : Nat) (x : FillBlock) : (s.putFill w x).measurements = s.measurements := rfl
@[simp] theorem State.putFill_rings (w : Nat) (x : FillBlock) : (s.putFill w x).rings = s.rings := rfl
@[simp] theorem State.putFill_completions (w : Nat) (x : FillBlock) : (s.putFill w x).completions = s.completions := rfl
@[simp] theorem State.putFill_mailbox (w : Nat) (x : FillBlock) : (s.putFill w x).mailbox = s.mailbox := rfl
@[simp] theorem State.putFill_selectors (w : Nat) (x : FillBlock) : (s.putFill w x).selectors = s.selectors := rfl
@[simp] theorem State.putFill_views (w : Nat) (x : FillBlock) : (s.putFill w x).views = s.views := rfl
@[simp] theorem State.putFill_i3c (w : Nat) (x : FillBlock) : (s.putFill w x).i3c = s.i3c := rfl
@[simp] theorem State.putFill_nextRing (w : Nat) (x : FillBlock) : (s.putFill w x).nextRing = s.nextRing := rfl
@[simp] theorem State.putFill_mem (w : Nat) (x : FillBlock) : (s.putFill w x).mem = s.mem := rfl
@[simp] theorem State.putFill_l1 (w : Nat) (x : FillBlock) : (s.putFill w x).l1 = s.l1 := rfl
@[simp] theorem State.putFill_l2 (w : Nat) (x : FillBlock) : (s.putFill w x).l2 = s.l2 := rfl
@[simp] theorem State.putFill_rdc (w : Nat) (x : FillBlock) : (s.putFill w x).rdc = s.rdc := rfl
@[simp] theorem State.putFill_shadow (w : Nat) (x : FillBlock) : (s.putFill w x).shadow = s.shadow := rfl
@[simp] theorem State.putFill_past (w : Nat) (x : FillBlock) : (s.putFill w x).past = s.past := rfl
@[simp] theorem State.putFill_roots (w : Nat) (x : FillBlock) : (s.putFill w x).roots = s.roots := rfl
@[simp] theorem State.putFill_oldRoots (w : Nat) (x : FillBlock) : (s.putFill w x).oldRoots = s.oldRoots := rfl
@[simp] theorem State.putFill_tlbs (w : Nat) (x : FillBlock) : (s.putFill w x).tlbs = s.tlbs := rfl
@[simp] theorem State.putFill_ops (w : Nat) (x : FillBlock) : (s.putFill w x).ops = s.ops := rfl
@[simp] theorem State.putFill_nextOp (w : Nat) (x : FillBlock) : (s.putFill w x).nextOp = s.nextOp := rfl
@[simp] theorem State.putFill_nextSeq (w : Nat) (x : FillBlock) : (s.putFill w x).nextSeq = s.nextSeq := rfl
@[simp] theorem State.putFill_jobs (w : Nat) (x : FillBlock) : (s.putFill w x).jobs = s.jobs := rfl
@[simp] theorem State.putFill_nextGrid (w : Nat) (x : FillBlock) : (s.putFill w x).nextGrid = s.nextGrid := rfl
@[simp] theorem State.putFill_blocks (w : Nat) (x : FillBlock) : (s.putFill w x).blocks = s.blocks := rfl
@[simp] theorem State.putFill_nextBlock (w : Nat) (x : FillBlock) : (s.putFill w x).nextBlock = s.nextBlock := rfl
@[simp] theorem State.putFill_warps (w : Nat) (x : FillBlock) : (s.putFill w x).warps = s.warps := rfl
@[simp] theorem State.putFill_nextWarp (w : Nat) (x : FillBlock) : (s.putFill w x).nextWarp = s.nextWarp := rfl
@[simp] theorem State.putFill_entries (w : Nat) (x : FillBlock) : (s.putFill w x).entries = s.entries := rfl
@[simp] theorem State.putFill_binds (w : Nat) (x : FillBlock) : (s.putFill w x).binds = s.binds := rfl
@[simp] theorem State.putFill_bins (w : Nat) (x : FillBlock) : (s.putFill w x).bins = s.bins := rfl
@[simp] theorem State.putFill_clusters (w : Nat) (x : FillBlock) : (s.putFill w x).clusters = s.clusters := rfl
@[simp] theorem State.putFill_gangs (w : Nat) (x : FillBlock) : (s.putFill w x).gangs = s.gangs := rfl
@[simp] theorem State.putFill_nextGang (w : Nat) (x : FillBlock) : (s.putFill w x).nextGang = s.nextGang := rfl
@[simp] theorem State.putFill_savePools (w : Nat) (x : FillBlock) : (s.putFill w x).savePools = s.savePools := rfl
@[simp] theorem State.putFill_slots (w : Nat) (x : FillBlock) : (s.putFill w x).slots = s.slots := rfl
@[simp] theorem State.putFill_coreMap (w : Nat) (x : FillBlock) : (s.putFill w x).coreMap = s.coreMap := rfl
@[simp] theorem State.putFill_phys (w : Nat) (x : FillBlock) : (s.putFill w x).phys = s.phys := rfl
@[simp] theorem State.putFill_placeCounts (w : Nat) (x : FillBlock) : (s.putFill w x).placeCounts = s.placeCounts := rfl
@[simp] theorem State.putFill_lastBusy (w : Nat) (x : FillBlock) : (s.putFill w x).lastBusy = s.lastBusy := rfl
@[simp] theorem State.putFill_copyLogs (w : Nat) (x : FillBlock) : (s.putFill w x).copyLogs = s.copyLogs := rfl
@[simp] theorem State.putFill_mccs (w : Nat) (x : FillBlock) : (s.putFill w x).mccs = s.mccs := rfl
@[simp] theorem State.putFill_arrs (w : Nat) (x : FillBlock) : (s.putFill w x).arrs = s.arrs := rfl
@[simp] theorem State.putFill_acc (w : Nat) (x : FillBlock) : (s.putFill w x).acc = s.acc := rfl
@[simp] theorem State.putFill_slices (w : Nat) (x : FillBlock) : (s.putFill w x).slices = s.slices := rfl
@[simp] theorem State.putFill_groups (w : Nat) (x : FillBlock) : (s.putFill w x).groups = s.groups := rfl
@[simp] theorem State.putFill_held (w : Nat) (x : FillBlock) : (s.putFill w x).held = s.held := rfl
@[simp] theorem State.putFill_ringJobs (w : Nat) (x : FillBlock) : (s.putFill w x).ringJobs = s.ringJobs := rfl
@[simp] theorem State.putFill_ports (w : Nat) (x : FillBlock) : (s.putFill w x).ports = s.ports := rfl
@[simp] theorem State.putFill_xfers (w : Nat) (x : FillBlock) : (s.putFill w x).xfers = s.xfers := rfl
@[simp] theorem State.putFill_pantries (w : Nat) (x : FillBlock) : (s.putFill w x).pantries = s.pantries := rfl
@[simp] theorem State.putFill_larders (w : Nat) (x : FillBlock) : (s.putFill w x).larders = s.larders := rfl
@[simp] theorem State.putFill_capBanks (w : Nat) (x : FillBlock) : (s.putFill w x).capBanks = s.capBanks := rfl
@[simp] theorem State.putFill_regions (w : Nat) (x : FillBlock) : (s.putFill w x).regions = s.regions := rfl
@[simp] theorem State.putFill_hbms (w : Nat) (x : FillBlock) : (s.putFill w x).hbms = s.hbms := rfl
@[simp] theorem State.putFill_intents (w : Nat) (x : FillBlock) : (s.putFill w x).intents = s.intents := rfl
@[simp] theorem State.putFill_ballast (w : Nat) (x : FillBlock) : (s.putFill w x).ballast = s.ballast := rfl
@[simp] theorem State.putFill_gov (w : Nat) (x : FillBlock) : (s.putFill w x).gov = s.gov := rfl
@[simp] theorem State.warp_putFill (w : Nat) (x : FillBlock) (k : Nat) : (s.putFill w x).warp k = s.warp k := rfl
@[simp] theorem State.block_putFill (w : Nat) (x : FillBlock) (k : Nat) : (s.putFill w x).block k = s.block k := rfl
@[simp] theorem State.job_putFill (w : Nat) (x : FillBlock) (k : Nat) : (s.putFill w x).job k = s.job k := rfl
@[simp] theorem State.op_putFill (w : Nat) (x : FillBlock) (k : Nat) : (s.putFill w x).op k = s.op k := rfl
@[simp] theorem State.mcc_putFill (w : Nat) (x : FillBlock) (k : Nat) : (s.putFill w x).mcc k = s.mcc k := rfl
@[simp] theorem State.arr_putFill (w : Nat) (x : FillBlock) (k : Nat) : (s.putFill w x).arr k = s.arr k := rfl
@[simp] theorem State.slice_putFill (w : Nat) (x : FillBlock) (k : Nat) : (s.putFill w x).slice k = s.slice k := rfl
@[simp] theorem State.gang_putFill (w : Nat) (x : FillBlock) (k : Nat) : (s.putFill w x).gang k = s.gang k := rfl
@[simp] theorem State.pantry_putFill (w : Nat) (x : FillBlock) (k : Nat) : (s.putFill w x).pantry k = s.pantry k := rfl
@[simp] theorem State.larder_putFill (w : Nat) (x : FillBlock) (k : Nat) : (s.putFill w x).larder k = s.larder k := rfl
@[simp] theorem State.entry_putFill (w : Nat) (x : FillBlock) (k : Nat) : (s.putFill w x).entry k = s.entry k := rfl
@[simp] theorem State.bin_putFill (w : Nat) (x : FillBlock) (k : Nat) : (s.putFill w x).bin k = s.bin k := rfl
@[simp] theorem State.ring_putFill (w : Nat) (x : FillBlock) (k : Nat) : (s.putFill w x).ring k = s.ring k := rfl

/-! ## dropFill -/

@[simp] theorem State.dropFill_turn (a b c : Nat) : (s.dropFill a b c).turn = s.turn := rfl
@[simp] theorem State.dropFill_issuer (a b c : Nat) : (s.dropFill a b c).issuer = s.issuer := rfl
@[simp] theorem State.dropFill_free (a b c : Nat) : (s.dropFill a b c).free = s.free := rfl
@[simp] theorem State.dropFill_time (a b c : Nat) : (s.dropFill a b c).time = s.time := rfl
@[simp] theorem State.dropFill_cycles (a b c : Nat) : (s.dropFill a b c).cycles = s.cycles := rfl
@[simp] theorem State.dropFill_powered (a b c : Nat) : (s.dropFill a b c).powered = s.powered := rfl
@[simp] theorem State.dropFill_recovery (a b c : Nat) : (s.dropFill a b c).recovery = s.recovery := rfl
@[simp] theorem State.dropFill_ready (a b c : Nat) : (s.dropFill a b c).ready = s.ready := rfl
@[simp] theorem State.dropFill_moduleId (a b c : Nat) : (s.dropFill a b c).moduleId = s.moduleId := rfl
@[simp] theorem State.dropFill_measurements (a b c : Nat) : (s.dropFill a b c).measurements = s.measurements := rfl
@[simp] theorem State.dropFill_rings (a b c : Nat) : (s.dropFill a b c).rings = s.rings := rfl
@[simp] theorem State.dropFill_completions (a b c : Nat) : (s.dropFill a b c).completions = s.completions := rfl
@[simp] theorem State.dropFill_mailbox (a b c : Nat) : (s.dropFill a b c).mailbox = s.mailbox := rfl
@[simp] theorem State.dropFill_selectors (a b c : Nat) : (s.dropFill a b c).selectors = s.selectors := rfl
@[simp] theorem State.dropFill_views (a b c : Nat) : (s.dropFill a b c).views = s.views := rfl
@[simp] theorem State.dropFill_i3c (a b c : Nat) : (s.dropFill a b c).i3c = s.i3c := rfl
@[simp] theorem State.dropFill_nextRing (a b c : Nat) : (s.dropFill a b c).nextRing = s.nextRing := rfl
@[simp] theorem State.dropFill_mem (a b c : Nat) : (s.dropFill a b c).mem = s.mem := rfl
@[simp] theorem State.dropFill_l1 (a b c : Nat) : (s.dropFill a b c).l1 = s.l1 := rfl
@[simp] theorem State.dropFill_l2 (a b c : Nat) : (s.dropFill a b c).l2 = s.l2 := rfl
@[simp] theorem State.dropFill_rdc (a b c : Nat) : (s.dropFill a b c).rdc = s.rdc := rfl
@[simp] theorem State.dropFill_shadow (a b c : Nat) : (s.dropFill a b c).shadow = s.shadow := rfl
@[simp] theorem State.dropFill_past (a b c : Nat) : (s.dropFill a b c).past = s.past := rfl
@[simp] theorem State.dropFill_roots (a b c : Nat) : (s.dropFill a b c).roots = s.roots := rfl
@[simp] theorem State.dropFill_oldRoots (a b c : Nat) : (s.dropFill a b c).oldRoots = s.oldRoots := rfl
@[simp] theorem State.dropFill_tlbs (a b c : Nat) : (s.dropFill a b c).tlbs = s.tlbs := rfl
@[simp] theorem State.dropFill_ops (a b c : Nat) : (s.dropFill a b c).ops = s.ops := rfl
@[simp] theorem State.dropFill_nextOp (a b c : Nat) : (s.dropFill a b c).nextOp = s.nextOp := rfl
@[simp] theorem State.dropFill_nextSeq (a b c : Nat) : (s.dropFill a b c).nextSeq = s.nextSeq := rfl
@[simp] theorem State.dropFill_jobs (a b c : Nat) : (s.dropFill a b c).jobs = s.jobs := rfl
@[simp] theorem State.dropFill_nextGrid (a b c : Nat) : (s.dropFill a b c).nextGrid = s.nextGrid := rfl
@[simp] theorem State.dropFill_blocks (a b c : Nat) : (s.dropFill a b c).blocks = s.blocks := rfl
@[simp] theorem State.dropFill_nextBlock (a b c : Nat) : (s.dropFill a b c).nextBlock = s.nextBlock := rfl
@[simp] theorem State.dropFill_warps (a b c : Nat) : (s.dropFill a b c).warps = s.warps := rfl
@[simp] theorem State.dropFill_nextWarp (a b c : Nat) : (s.dropFill a b c).nextWarp = s.nextWarp := rfl
@[simp] theorem State.dropFill_entries (a b c : Nat) : (s.dropFill a b c).entries = s.entries := rfl
@[simp] theorem State.dropFill_binds (a b c : Nat) : (s.dropFill a b c).binds = s.binds := rfl
@[simp] theorem State.dropFill_bins (a b c : Nat) : (s.dropFill a b c).bins = s.bins := rfl
@[simp] theorem State.dropFill_clusters (a b c : Nat) : (s.dropFill a b c).clusters = s.clusters := rfl
@[simp] theorem State.dropFill_gangs (a b c : Nat) : (s.dropFill a b c).gangs = s.gangs := rfl
@[simp] theorem State.dropFill_nextGang (a b c : Nat) : (s.dropFill a b c).nextGang = s.nextGang := rfl
@[simp] theorem State.dropFill_savePools (a b c : Nat) : (s.dropFill a b c).savePools = s.savePools := rfl
@[simp] theorem State.dropFill_slots (a b c : Nat) : (s.dropFill a b c).slots = s.slots := rfl
@[simp] theorem State.dropFill_coreMap (a b c : Nat) : (s.dropFill a b c).coreMap = s.coreMap := rfl
@[simp] theorem State.dropFill_phys (a b c : Nat) : (s.dropFill a b c).phys = s.phys := rfl
@[simp] theorem State.dropFill_placeCounts (a b c : Nat) : (s.dropFill a b c).placeCounts = s.placeCounts := rfl
@[simp] theorem State.dropFill_lastBusy (a b c : Nat) : (s.dropFill a b c).lastBusy = s.lastBusy := rfl
@[simp] theorem State.dropFill_copyLogs (a b c : Nat) : (s.dropFill a b c).copyLogs = s.copyLogs := rfl
@[simp] theorem State.dropFill_mccs (a b c : Nat) : (s.dropFill a b c).mccs = s.mccs := rfl
@[simp] theorem State.dropFill_arrs (a b c : Nat) : (s.dropFill a b c).arrs = s.arrs := rfl
@[simp] theorem State.dropFill_acc (a b c : Nat) : (s.dropFill a b c).acc = s.acc := rfl
@[simp] theorem State.dropFill_slices (a b c : Nat) : (s.dropFill a b c).slices = s.slices := rfl
@[simp] theorem State.dropFill_groups (a b c : Nat) : (s.dropFill a b c).groups = s.groups := rfl
@[simp] theorem State.dropFill_held (a b c : Nat) : (s.dropFill a b c).held = s.held := rfl
@[simp] theorem State.dropFill_ringJobs (a b c : Nat) : (s.dropFill a b c).ringJobs = s.ringJobs := rfl
@[simp] theorem State.dropFill_ports (a b c : Nat) : (s.dropFill a b c).ports = s.ports := rfl
@[simp] theorem State.dropFill_xfers (a b c : Nat) : (s.dropFill a b c).xfers = s.xfers := rfl
@[simp] theorem State.dropFill_pantries (a b c : Nat) : (s.dropFill a b c).pantries = s.pantries := rfl
@[simp] theorem State.dropFill_larders (a b c : Nat) : (s.dropFill a b c).larders = s.larders := rfl
@[simp] theorem State.dropFill_capBanks (a b c : Nat) : (s.dropFill a b c).capBanks = s.capBanks := rfl
@[simp] theorem State.dropFill_regions (a b c : Nat) : (s.dropFill a b c).regions = s.regions := rfl
@[simp] theorem State.dropFill_hbms (a b c : Nat) : (s.dropFill a b c).hbms = s.hbms := rfl
@[simp] theorem State.dropFill_intents (a b c : Nat) : (s.dropFill a b c).intents = s.intents := rfl
@[simp] theorem State.dropFill_ballast (a b c : Nat) : (s.dropFill a b c).ballast = s.ballast := rfl
@[simp] theorem State.dropFill_gov (a b c : Nat) : (s.dropFill a b c).gov = s.gov := rfl
@[simp] theorem State.warp_dropFill (a b c : Nat) (k : Nat) : (s.dropFill a b c).warp k = s.warp k := rfl
@[simp] theorem State.block_dropFill (a b c : Nat) (k : Nat) : (s.dropFill a b c).block k = s.block k := rfl
@[simp] theorem State.job_dropFill (a b c : Nat) (k : Nat) : (s.dropFill a b c).job k = s.job k := rfl
@[simp] theorem State.op_dropFill (a b c : Nat) (k : Nat) : (s.dropFill a b c).op k = s.op k := rfl
@[simp] theorem State.mcc_dropFill (a b c : Nat) (k : Nat) : (s.dropFill a b c).mcc k = s.mcc k := rfl
@[simp] theorem State.arr_dropFill (a b c : Nat) (k : Nat) : (s.dropFill a b c).arr k = s.arr k := rfl
@[simp] theorem State.slice_dropFill (a b c : Nat) (k : Nat) : (s.dropFill a b c).slice k = s.slice k := rfl
@[simp] theorem State.gang_dropFill (a b c : Nat) (k : Nat) : (s.dropFill a b c).gang k = s.gang k := rfl
@[simp] theorem State.pantry_dropFill (a b c : Nat) (k : Nat) : (s.dropFill a b c).pantry k = s.pantry k := rfl
@[simp] theorem State.larder_dropFill (a b c : Nat) (k : Nat) : (s.dropFill a b c).larder k = s.larder k := rfl
@[simp] theorem State.entry_dropFill (a b c : Nat) (k : Nat) : (s.dropFill a b c).entry k = s.entry k := rfl
@[simp] theorem State.bin_dropFill (a b c : Nat) (k : Nat) : (s.dropFill a b c).bin k = s.bin k := rfl
@[simp] theorem State.ring_dropFill (a b c : Nat) (k : Nat) : (s.dropFill a b c).ring k = s.ring k := rfl

/-! ## writeAcc -/

@[simp] theorem State.writeAcc_turn (a b : Nat) (f : Nat → BitVec 32) : (s.writeAcc a b f).turn = s.turn := rfl
@[simp] theorem State.writeAcc_issuer (a b : Nat) (f : Nat → BitVec 32) : (s.writeAcc a b f).issuer = s.issuer := rfl
@[simp] theorem State.writeAcc_free (a b : Nat) (f : Nat → BitVec 32) : (s.writeAcc a b f).free = s.free := rfl
@[simp] theorem State.writeAcc_time (a b : Nat) (f : Nat → BitVec 32) : (s.writeAcc a b f).time = s.time := rfl
@[simp] theorem State.writeAcc_cycles (a b : Nat) (f : Nat → BitVec 32) : (s.writeAcc a b f).cycles = s.cycles := rfl
@[simp] theorem State.writeAcc_powered (a b : Nat) (f : Nat → BitVec 32) : (s.writeAcc a b f).powered = s.powered := rfl
@[simp] theorem State.writeAcc_recovery (a b : Nat) (f : Nat → BitVec 32) : (s.writeAcc a b f).recovery = s.recovery := rfl
@[simp] theorem State.writeAcc_ready (a b : Nat) (f : Nat → BitVec 32) : (s.writeAcc a b f).ready = s.ready := rfl
@[simp] theorem State.writeAcc_moduleId (a b : Nat) (f : Nat → BitVec 32) : (s.writeAcc a b f).moduleId = s.moduleId := rfl
@[simp] theorem State.writeAcc_measurements (a b : Nat) (f : Nat → BitVec 32) : (s.writeAcc a b f).measurements = s.measurements := rfl
@[simp] theorem State.writeAcc_rings (a b : Nat) (f : Nat → BitVec 32) : (s.writeAcc a b f).rings = s.rings := rfl
@[simp] theorem State.writeAcc_completions (a b : Nat) (f : Nat → BitVec 32) : (s.writeAcc a b f).completions = s.completions := rfl
@[simp] theorem State.writeAcc_mailbox (a b : Nat) (f : Nat → BitVec 32) : (s.writeAcc a b f).mailbox = s.mailbox := rfl
@[simp] theorem State.writeAcc_selectors (a b : Nat) (f : Nat → BitVec 32) : (s.writeAcc a b f).selectors = s.selectors := rfl
@[simp] theorem State.writeAcc_views (a b : Nat) (f : Nat → BitVec 32) : (s.writeAcc a b f).views = s.views := rfl
@[simp] theorem State.writeAcc_i3c (a b : Nat) (f : Nat → BitVec 32) : (s.writeAcc a b f).i3c = s.i3c := rfl
@[simp] theorem State.writeAcc_nextRing (a b : Nat) (f : Nat → BitVec 32) : (s.writeAcc a b f).nextRing = s.nextRing := rfl
@[simp] theorem State.writeAcc_mem (a b : Nat) (f : Nat → BitVec 32) : (s.writeAcc a b f).mem = s.mem := rfl
@[simp] theorem State.writeAcc_l1 (a b : Nat) (f : Nat → BitVec 32) : (s.writeAcc a b f).l1 = s.l1 := rfl
@[simp] theorem State.writeAcc_l2 (a b : Nat) (f : Nat → BitVec 32) : (s.writeAcc a b f).l2 = s.l2 := rfl
@[simp] theorem State.writeAcc_rdc (a b : Nat) (f : Nat → BitVec 32) : (s.writeAcc a b f).rdc = s.rdc := rfl
@[simp] theorem State.writeAcc_shadow (a b : Nat) (f : Nat → BitVec 32) : (s.writeAcc a b f).shadow = s.shadow := rfl
@[simp] theorem State.writeAcc_past (a b : Nat) (f : Nat → BitVec 32) : (s.writeAcc a b f).past = s.past := rfl
@[simp] theorem State.writeAcc_roots (a b : Nat) (f : Nat → BitVec 32) : (s.writeAcc a b f).roots = s.roots := rfl
@[simp] theorem State.writeAcc_oldRoots (a b : Nat) (f : Nat → BitVec 32) : (s.writeAcc a b f).oldRoots = s.oldRoots := rfl
@[simp] theorem State.writeAcc_tlbs (a b : Nat) (f : Nat → BitVec 32) : (s.writeAcc a b f).tlbs = s.tlbs := rfl
@[simp] theorem State.writeAcc_icaches (a b : Nat) (f : Nat → BitVec 32) : (s.writeAcc a b f).icaches = s.icaches := rfl
@[simp] theorem State.writeAcc_ops (a b : Nat) (f : Nat → BitVec 32) : (s.writeAcc a b f).ops = s.ops := rfl
@[simp] theorem State.writeAcc_nextOp (a b : Nat) (f : Nat → BitVec 32) : (s.writeAcc a b f).nextOp = s.nextOp := rfl
@[simp] theorem State.writeAcc_nextSeq (a b : Nat) (f : Nat → BitVec 32) : (s.writeAcc a b f).nextSeq = s.nextSeq := rfl
@[simp] theorem State.writeAcc_jobs (a b : Nat) (f : Nat → BitVec 32) : (s.writeAcc a b f).jobs = s.jobs := rfl
@[simp] theorem State.writeAcc_nextGrid (a b : Nat) (f : Nat → BitVec 32) : (s.writeAcc a b f).nextGrid = s.nextGrid := rfl
@[simp] theorem State.writeAcc_blocks (a b : Nat) (f : Nat → BitVec 32) : (s.writeAcc a b f).blocks = s.blocks := rfl
@[simp] theorem State.writeAcc_nextBlock (a b : Nat) (f : Nat → BitVec 32) : (s.writeAcc a b f).nextBlock = s.nextBlock := rfl
@[simp] theorem State.writeAcc_warps (a b : Nat) (f : Nat → BitVec 32) : (s.writeAcc a b f).warps = s.warps := rfl
@[simp] theorem State.writeAcc_nextWarp (a b : Nat) (f : Nat → BitVec 32) : (s.writeAcc a b f).nextWarp = s.nextWarp := rfl
@[simp] theorem State.writeAcc_entries (a b : Nat) (f : Nat → BitVec 32) : (s.writeAcc a b f).entries = s.entries := rfl
@[simp] theorem State.writeAcc_binds (a b : Nat) (f : Nat → BitVec 32) : (s.writeAcc a b f).binds = s.binds := rfl
@[simp] theorem State.writeAcc_bins (a b : Nat) (f : Nat → BitVec 32) : (s.writeAcc a b f).bins = s.bins := rfl
@[simp] theorem State.writeAcc_clusters (a b : Nat) (f : Nat → BitVec 32) : (s.writeAcc a b f).clusters = s.clusters := rfl
@[simp] theorem State.writeAcc_gangs (a b : Nat) (f : Nat → BitVec 32) : (s.writeAcc a b f).gangs = s.gangs := rfl
@[simp] theorem State.writeAcc_nextGang (a b : Nat) (f : Nat → BitVec 32) : (s.writeAcc a b f).nextGang = s.nextGang := rfl
@[simp] theorem State.writeAcc_savePools (a b : Nat) (f : Nat → BitVec 32) : (s.writeAcc a b f).savePools = s.savePools := rfl
@[simp] theorem State.writeAcc_slots (a b : Nat) (f : Nat → BitVec 32) : (s.writeAcc a b f).slots = s.slots := rfl
@[simp] theorem State.writeAcc_coreMap (a b : Nat) (f : Nat → BitVec 32) : (s.writeAcc a b f).coreMap = s.coreMap := rfl
@[simp] theorem State.writeAcc_phys (a b : Nat) (f : Nat → BitVec 32) : (s.writeAcc a b f).phys = s.phys := rfl
@[simp] theorem State.writeAcc_placeCounts (a b : Nat) (f : Nat → BitVec 32) : (s.writeAcc a b f).placeCounts = s.placeCounts := rfl
@[simp] theorem State.writeAcc_lastBusy (a b : Nat) (f : Nat → BitVec 32) : (s.writeAcc a b f).lastBusy = s.lastBusy := rfl
@[simp] theorem State.writeAcc_copyLogs (a b : Nat) (f : Nat → BitVec 32) : (s.writeAcc a b f).copyLogs = s.copyLogs := rfl
@[simp] theorem State.writeAcc_mccs (a b : Nat) (f : Nat → BitVec 32) : (s.writeAcc a b f).mccs = s.mccs := rfl
@[simp] theorem State.writeAcc_arrs (a b : Nat) (f : Nat → BitVec 32) : (s.writeAcc a b f).arrs = s.arrs := rfl
@[simp] theorem State.writeAcc_slices (a b : Nat) (f : Nat → BitVec 32) : (s.writeAcc a b f).slices = s.slices := rfl
@[simp] theorem State.writeAcc_groups (a b : Nat) (f : Nat → BitVec 32) : (s.writeAcc a b f).groups = s.groups := rfl
@[simp] theorem State.writeAcc_held (a b : Nat) (f : Nat → BitVec 32) : (s.writeAcc a b f).held = s.held := rfl
@[simp] theorem State.writeAcc_ringJobs (a b : Nat) (f : Nat → BitVec 32) : (s.writeAcc a b f).ringJobs = s.ringJobs := rfl
@[simp] theorem State.writeAcc_ports (a b : Nat) (f : Nat → BitVec 32) : (s.writeAcc a b f).ports = s.ports := rfl
@[simp] theorem State.writeAcc_xfers (a b : Nat) (f : Nat → BitVec 32) : (s.writeAcc a b f).xfers = s.xfers := rfl
@[simp] theorem State.writeAcc_pantries (a b : Nat) (f : Nat → BitVec 32) : (s.writeAcc a b f).pantries = s.pantries := rfl
@[simp] theorem State.writeAcc_larders (a b : Nat) (f : Nat → BitVec 32) : (s.writeAcc a b f).larders = s.larders := rfl
@[simp] theorem State.writeAcc_capBanks (a b : Nat) (f : Nat → BitVec 32) : (s.writeAcc a b f).capBanks = s.capBanks := rfl
@[simp] theorem State.writeAcc_regions (a b : Nat) (f : Nat → BitVec 32) : (s.writeAcc a b f).regions = s.regions := rfl
@[simp] theorem State.writeAcc_hbms (a b : Nat) (f : Nat → BitVec 32) : (s.writeAcc a b f).hbms = s.hbms := rfl
@[simp] theorem State.writeAcc_intents (a b : Nat) (f : Nat → BitVec 32) : (s.writeAcc a b f).intents = s.intents := rfl
@[simp] theorem State.writeAcc_ballast (a b : Nat) (f : Nat → BitVec 32) : (s.writeAcc a b f).ballast = s.ballast := rfl
@[simp] theorem State.writeAcc_gov (a b : Nat) (f : Nat → BitVec 32) : (s.writeAcc a b f).gov = s.gov := rfl
@[simp] theorem State.warp_writeAcc (a b : Nat) (f : Nat → BitVec 32) (k : Nat) : (s.writeAcc a b f).warp k = s.warp k := rfl
@[simp] theorem State.block_writeAcc (a b : Nat) (f : Nat → BitVec 32) (k : Nat) : (s.writeAcc a b f).block k = s.block k := rfl
@[simp] theorem State.job_writeAcc (a b : Nat) (f : Nat → BitVec 32) (k : Nat) : (s.writeAcc a b f).job k = s.job k := rfl
@[simp] theorem State.op_writeAcc (a b : Nat) (f : Nat → BitVec 32) (k : Nat) : (s.writeAcc a b f).op k = s.op k := rfl
@[simp] theorem State.mcc_writeAcc (a b : Nat) (f : Nat → BitVec 32) (k : Nat) : (s.writeAcc a b f).mcc k = s.mcc k := rfl
@[simp] theorem State.arr_writeAcc (a b : Nat) (f : Nat → BitVec 32) (k : Nat) : (s.writeAcc a b f).arr k = s.arr k := rfl
@[simp] theorem State.slice_writeAcc (a b : Nat) (f : Nat → BitVec 32) (k : Nat) : (s.writeAcc a b f).slice k = s.slice k := rfl
@[simp] theorem State.gang_writeAcc (a b : Nat) (f : Nat → BitVec 32) (k : Nat) : (s.writeAcc a b f).gang k = s.gang k := rfl
@[simp] theorem State.pantry_writeAcc (a b : Nat) (f : Nat → BitVec 32) (k : Nat) : (s.writeAcc a b f).pantry k = s.pantry k := rfl
@[simp] theorem State.larder_writeAcc (a b : Nat) (f : Nat → BitVec 32) (k : Nat) : (s.writeAcc a b f).larder k = s.larder k := rfl
@[simp] theorem State.entry_writeAcc (a b : Nat) (f : Nat → BitVec 32) (k : Nat) : (s.writeAcc a b f).entry k = s.entry k := rfl
@[simp] theorem State.bin_writeAcc (a b : Nat) (f : Nat → BitVec 32) (k : Nat) : (s.writeAcc a b f).bin k = s.bin k := rfl
@[simp] theorem State.ring_writeAcc (a b : Nat) (f : Nat → BitVec 32) (k : Nat) : (s.writeAcc a b f).ring k = s.ring k := rfl

/-! ## dropClean -/

@[simp] theorem State.dropClean_turn (a b : Nat) : (s.dropClean a b).turn = s.turn := rfl
@[simp] theorem State.dropClean_issuer (a b : Nat) : (s.dropClean a b).issuer = s.issuer := rfl
@[simp] theorem State.dropClean_free (a b : Nat) : (s.dropClean a b).free = s.free := rfl
@[simp] theorem State.dropClean_time (a b : Nat) : (s.dropClean a b).time = s.time := rfl
@[simp] theorem State.dropClean_cycles (a b : Nat) : (s.dropClean a b).cycles = s.cycles := rfl
@[simp] theorem State.dropClean_powered (a b : Nat) : (s.dropClean a b).powered = s.powered := rfl
@[simp] theorem State.dropClean_recovery (a b : Nat) : (s.dropClean a b).recovery = s.recovery := rfl
@[simp] theorem State.dropClean_ready (a b : Nat) : (s.dropClean a b).ready = s.ready := rfl
@[simp] theorem State.dropClean_moduleId (a b : Nat) : (s.dropClean a b).moduleId = s.moduleId := rfl
@[simp] theorem State.dropClean_measurements (a b : Nat) : (s.dropClean a b).measurements = s.measurements := rfl
@[simp] theorem State.dropClean_rings (a b : Nat) : (s.dropClean a b).rings = s.rings := rfl
@[simp] theorem State.dropClean_completions (a b : Nat) : (s.dropClean a b).completions = s.completions := rfl
@[simp] theorem State.dropClean_mailbox (a b : Nat) : (s.dropClean a b).mailbox = s.mailbox := rfl
@[simp] theorem State.dropClean_selectors (a b : Nat) : (s.dropClean a b).selectors = s.selectors := rfl
@[simp] theorem State.dropClean_views (a b : Nat) : (s.dropClean a b).views = s.views := rfl
@[simp] theorem State.dropClean_i3c (a b : Nat) : (s.dropClean a b).i3c = s.i3c := rfl
@[simp] theorem State.dropClean_nextRing (a b : Nat) : (s.dropClean a b).nextRing = s.nextRing := rfl
@[simp] theorem State.dropClean_mem (a b : Nat) : (s.dropClean a b).mem = s.mem := rfl
@[simp] theorem State.dropClean_l2 (a b : Nat) : (s.dropClean a b).l2 = s.l2 := rfl
@[simp] theorem State.dropClean_rdc (a b : Nat) : (s.dropClean a b).rdc = s.rdc := rfl
@[simp] theorem State.dropClean_shadow (a b : Nat) : (s.dropClean a b).shadow = s.shadow := rfl
@[simp] theorem State.dropClean_past (a b : Nat) : (s.dropClean a b).past = s.past := rfl
@[simp] theorem State.dropClean_roots (a b : Nat) : (s.dropClean a b).roots = s.roots := rfl
@[simp] theorem State.dropClean_oldRoots (a b : Nat) : (s.dropClean a b).oldRoots = s.oldRoots := rfl
@[simp] theorem State.dropClean_tlbs (a b : Nat) : (s.dropClean a b).tlbs = s.tlbs := rfl
@[simp] theorem State.dropClean_icaches (a b : Nat) : (s.dropClean a b).icaches = s.icaches := rfl
@[simp] theorem State.dropClean_ops (a b : Nat) : (s.dropClean a b).ops = s.ops := rfl
@[simp] theorem State.dropClean_nextOp (a b : Nat) : (s.dropClean a b).nextOp = s.nextOp := rfl
@[simp] theorem State.dropClean_nextSeq (a b : Nat) : (s.dropClean a b).nextSeq = s.nextSeq := rfl
@[simp] theorem State.dropClean_jobs (a b : Nat) : (s.dropClean a b).jobs = s.jobs := rfl
@[simp] theorem State.dropClean_nextGrid (a b : Nat) : (s.dropClean a b).nextGrid = s.nextGrid := rfl
@[simp] theorem State.dropClean_blocks (a b : Nat) : (s.dropClean a b).blocks = s.blocks := rfl
@[simp] theorem State.dropClean_nextBlock (a b : Nat) : (s.dropClean a b).nextBlock = s.nextBlock := rfl
@[simp] theorem State.dropClean_warps (a b : Nat) : (s.dropClean a b).warps = s.warps := rfl
@[simp] theorem State.dropClean_nextWarp (a b : Nat) : (s.dropClean a b).nextWarp = s.nextWarp := rfl
@[simp] theorem State.dropClean_entries (a b : Nat) : (s.dropClean a b).entries = s.entries := rfl
@[simp] theorem State.dropClean_binds (a b : Nat) : (s.dropClean a b).binds = s.binds := rfl
@[simp] theorem State.dropClean_bins (a b : Nat) : (s.dropClean a b).bins = s.bins := rfl
@[simp] theorem State.dropClean_clusters (a b : Nat) : (s.dropClean a b).clusters = s.clusters := rfl
@[simp] theorem State.dropClean_gangs (a b : Nat) : (s.dropClean a b).gangs = s.gangs := rfl
@[simp] theorem State.dropClean_nextGang (a b : Nat) : (s.dropClean a b).nextGang = s.nextGang := rfl
@[simp] theorem State.dropClean_savePools (a b : Nat) : (s.dropClean a b).savePools = s.savePools := rfl
@[simp] theorem State.dropClean_slots (a b : Nat) : (s.dropClean a b).slots = s.slots := rfl
@[simp] theorem State.dropClean_coreMap (a b : Nat) : (s.dropClean a b).coreMap = s.coreMap := rfl
@[simp] theorem State.dropClean_phys (a b : Nat) : (s.dropClean a b).phys = s.phys := rfl
@[simp] theorem State.dropClean_placeCounts (a b : Nat) : (s.dropClean a b).placeCounts = s.placeCounts := rfl
@[simp] theorem State.dropClean_lastBusy (a b : Nat) : (s.dropClean a b).lastBusy = s.lastBusy := rfl
@[simp] theorem State.dropClean_copyLogs (a b : Nat) : (s.dropClean a b).copyLogs = s.copyLogs := rfl
@[simp] theorem State.dropClean_mccs (a b : Nat) : (s.dropClean a b).mccs = s.mccs := rfl
@[simp] theorem State.dropClean_arrs (a b : Nat) : (s.dropClean a b).arrs = s.arrs := rfl
@[simp] theorem State.dropClean_acc (a b : Nat) : (s.dropClean a b).acc = s.acc := rfl
@[simp] theorem State.dropClean_slices (a b : Nat) : (s.dropClean a b).slices = s.slices := rfl
@[simp] theorem State.dropClean_groups (a b : Nat) : (s.dropClean a b).groups = s.groups := rfl
@[simp] theorem State.dropClean_held (a b : Nat) : (s.dropClean a b).held = s.held := rfl
@[simp] theorem State.dropClean_ringJobs (a b : Nat) : (s.dropClean a b).ringJobs = s.ringJobs := rfl
@[simp] theorem State.dropClean_ports (a b : Nat) : (s.dropClean a b).ports = s.ports := rfl
@[simp] theorem State.dropClean_xfers (a b : Nat) : (s.dropClean a b).xfers = s.xfers := rfl
@[simp] theorem State.dropClean_pantries (a b : Nat) : (s.dropClean a b).pantries = s.pantries := rfl
@[simp] theorem State.dropClean_larders (a b : Nat) : (s.dropClean a b).larders = s.larders := rfl
@[simp] theorem State.dropClean_capBanks (a b : Nat) : (s.dropClean a b).capBanks = s.capBanks := rfl
@[simp] theorem State.dropClean_regions (a b : Nat) : (s.dropClean a b).regions = s.regions := rfl
@[simp] theorem State.dropClean_hbms (a b : Nat) : (s.dropClean a b).hbms = s.hbms := rfl
@[simp] theorem State.dropClean_intents (a b : Nat) : (s.dropClean a b).intents = s.intents := rfl
@[simp] theorem State.dropClean_ballast (a b : Nat) : (s.dropClean a b).ballast = s.ballast := rfl
@[simp] theorem State.dropClean_gov (a b : Nat) : (s.dropClean a b).gov = s.gov := rfl
@[simp] theorem State.warp_dropClean (a b : Nat) (k : Nat) : (s.dropClean a b).warp k = s.warp k := rfl
@[simp] theorem State.block_dropClean (a b : Nat) (k : Nat) : (s.dropClean a b).block k = s.block k := rfl
@[simp] theorem State.job_dropClean (a b : Nat) (k : Nat) : (s.dropClean a b).job k = s.job k := rfl
@[simp] theorem State.op_dropClean (a b : Nat) (k : Nat) : (s.dropClean a b).op k = s.op k := rfl
@[simp] theorem State.mcc_dropClean (a b : Nat) (k : Nat) : (s.dropClean a b).mcc k = s.mcc k := rfl
@[simp] theorem State.arr_dropClean (a b : Nat) (k : Nat) : (s.dropClean a b).arr k = s.arr k := rfl
@[simp] theorem State.slice_dropClean (a b : Nat) (k : Nat) : (s.dropClean a b).slice k = s.slice k := rfl
@[simp] theorem State.gang_dropClean (a b : Nat) (k : Nat) : (s.dropClean a b).gang k = s.gang k := rfl
@[simp] theorem State.pantry_dropClean (a b : Nat) (k : Nat) : (s.dropClean a b).pantry k = s.pantry k := rfl
@[simp] theorem State.larder_dropClean (a b : Nat) (k : Nat) : (s.dropClean a b).larder k = s.larder k := rfl
@[simp] theorem State.entry_dropClean (a b : Nat) (k : Nat) : (s.dropClean a b).entry k = s.entry k := rfl
@[simp] theorem State.bin_dropClean (a b : Nat) (k : Nat) : (s.dropClean a b).bin k = s.bin k := rfl
@[simp] theorem State.ring_dropClean (a b : Nat) (k : Nat) : (s.dropClean a b).ring k = s.ring k := rfl

/-! ## warpResult -/

@[simp] theorem State.warpResult_turn (a b : Nat) : (s.warpResult a b).turn = s.turn := rfl
@[simp] theorem State.warpResult_issuer (a b : Nat) : (s.warpResult a b).issuer = s.issuer := rfl
@[simp] theorem State.warpResult_free (a b : Nat) : (s.warpResult a b).free = s.free := rfl
@[simp] theorem State.warpResult_time (a b : Nat) : (s.warpResult a b).time = s.time := rfl
@[simp] theorem State.warpResult_cycles (a b : Nat) : (s.warpResult a b).cycles = s.cycles := rfl
@[simp] theorem State.warpResult_powered (a b : Nat) : (s.warpResult a b).powered = s.powered := rfl
@[simp] theorem State.warpResult_recovery (a b : Nat) : (s.warpResult a b).recovery = s.recovery := rfl
@[simp] theorem State.warpResult_ready (a b : Nat) : (s.warpResult a b).ready = s.ready := rfl
@[simp] theorem State.warpResult_moduleId (a b : Nat) : (s.warpResult a b).moduleId = s.moduleId := rfl
@[simp] theorem State.warpResult_measurements (a b : Nat) : (s.warpResult a b).measurements = s.measurements := rfl
@[simp] theorem State.warpResult_rings (a b : Nat) : (s.warpResult a b).rings = s.rings := rfl
@[simp] theorem State.warpResult_completions (a b : Nat) : (s.warpResult a b).completions = s.completions := rfl
@[simp] theorem State.warpResult_mailbox (a b : Nat) : (s.warpResult a b).mailbox = s.mailbox := rfl
@[simp] theorem State.warpResult_selectors (a b : Nat) : (s.warpResult a b).selectors = s.selectors := rfl
@[simp] theorem State.warpResult_i3c (a b : Nat) : (s.warpResult a b).i3c = s.i3c := rfl
@[simp] theorem State.warpResult_nextRing (a b : Nat) : (s.warpResult a b).nextRing = s.nextRing := rfl
@[simp] theorem State.warpResult_mem (a b : Nat) : (s.warpResult a b).mem = s.mem := rfl
@[simp] theorem State.warpResult_l1 (a b : Nat) : (s.warpResult a b).l1 = s.l1 := rfl
@[simp] theorem State.warpResult_l2 (a b : Nat) : (s.warpResult a b).l2 = s.l2 := rfl
@[simp] theorem State.warpResult_rdc (a b : Nat) : (s.warpResult a b).rdc = s.rdc := rfl
@[simp] theorem State.warpResult_shadow (a b : Nat) : (s.warpResult a b).shadow = s.shadow := rfl
@[simp] theorem State.warpResult_past (a b : Nat) : (s.warpResult a b).past = s.past := rfl
@[simp] theorem State.warpResult_roots (a b : Nat) : (s.warpResult a b).roots = s.roots := rfl
@[simp] theorem State.warpResult_oldRoots (a b : Nat) : (s.warpResult a b).oldRoots = s.oldRoots := rfl
@[simp] theorem State.warpResult_tlbs (a b : Nat) : (s.warpResult a b).tlbs = s.tlbs := rfl
@[simp] theorem State.warpResult_icaches (a b : Nat) : (s.warpResult a b).icaches = s.icaches := rfl
@[simp] theorem State.warpResult_ops (a b : Nat) : (s.warpResult a b).ops = s.ops := rfl
@[simp] theorem State.warpResult_nextOp (a b : Nat) : (s.warpResult a b).nextOp = s.nextOp := rfl
@[simp] theorem State.warpResult_nextSeq (a b : Nat) : (s.warpResult a b).nextSeq = s.nextSeq := rfl
@[simp] theorem State.warpResult_jobs (a b : Nat) : (s.warpResult a b).jobs = s.jobs := rfl
@[simp] theorem State.warpResult_nextGrid (a b : Nat) : (s.warpResult a b).nextGrid = s.nextGrid := rfl
@[simp] theorem State.warpResult_blocks (a b : Nat) : (s.warpResult a b).blocks = s.blocks := rfl
@[simp] theorem State.warpResult_nextBlock (a b : Nat) : (s.warpResult a b).nextBlock = s.nextBlock := rfl
@[simp] theorem State.warpResult_warps (a b : Nat) : (s.warpResult a b).warps = s.warps := rfl
@[simp] theorem State.warpResult_nextWarp (a b : Nat) : (s.warpResult a b).nextWarp = s.nextWarp := rfl
@[simp] theorem State.warpResult_entries (a b : Nat) : (s.warpResult a b).entries = s.entries := rfl
@[simp] theorem State.warpResult_binds (a b : Nat) : (s.warpResult a b).binds = s.binds := rfl
@[simp] theorem State.warpResult_bins (a b : Nat) : (s.warpResult a b).bins = s.bins := rfl
@[simp] theorem State.warpResult_clusters (a b : Nat) : (s.warpResult a b).clusters = s.clusters := rfl
@[simp] theorem State.warpResult_gangs (a b : Nat) : (s.warpResult a b).gangs = s.gangs := rfl
@[simp] theorem State.warpResult_nextGang (a b : Nat) : (s.warpResult a b).nextGang = s.nextGang := rfl
@[simp] theorem State.warpResult_savePools (a b : Nat) : (s.warpResult a b).savePools = s.savePools := rfl
@[simp] theorem State.warpResult_slots (a b : Nat) : (s.warpResult a b).slots = s.slots := rfl
@[simp] theorem State.warpResult_coreMap (a b : Nat) : (s.warpResult a b).coreMap = s.coreMap := rfl
@[simp] theorem State.warpResult_phys (a b : Nat) : (s.warpResult a b).phys = s.phys := rfl
@[simp] theorem State.warpResult_placeCounts (a b : Nat) : (s.warpResult a b).placeCounts = s.placeCounts := rfl
@[simp] theorem State.warpResult_lastBusy (a b : Nat) : (s.warpResult a b).lastBusy = s.lastBusy := rfl
@[simp] theorem State.warpResult_copyLogs (a b : Nat) : (s.warpResult a b).copyLogs = s.copyLogs := rfl
@[simp] theorem State.warpResult_mccs (a b : Nat) : (s.warpResult a b).mccs = s.mccs := rfl
@[simp] theorem State.warpResult_arrs (a b : Nat) : (s.warpResult a b).arrs = s.arrs := rfl
@[simp] theorem State.warpResult_acc (a b : Nat) : (s.warpResult a b).acc = s.acc := rfl
@[simp] theorem State.warpResult_slices (a b : Nat) : (s.warpResult a b).slices = s.slices := rfl
@[simp] theorem State.warpResult_groups (a b : Nat) : (s.warpResult a b).groups = s.groups := rfl
@[simp] theorem State.warpResult_held (a b : Nat) : (s.warpResult a b).held = s.held := rfl
@[simp] theorem State.warpResult_ringJobs (a b : Nat) : (s.warpResult a b).ringJobs = s.ringJobs := rfl
@[simp] theorem State.warpResult_ports (a b : Nat) : (s.warpResult a b).ports = s.ports := rfl
@[simp] theorem State.warpResult_xfers (a b : Nat) : (s.warpResult a b).xfers = s.xfers := rfl
@[simp] theorem State.warpResult_pantries (a b : Nat) : (s.warpResult a b).pantries = s.pantries := rfl
@[simp] theorem State.warpResult_larders (a b : Nat) : (s.warpResult a b).larders = s.larders := rfl
@[simp] theorem State.warpResult_capBanks (a b : Nat) : (s.warpResult a b).capBanks = s.capBanks := rfl
@[simp] theorem State.warpResult_regions (a b : Nat) : (s.warpResult a b).regions = s.regions := rfl
@[simp] theorem State.warpResult_hbms (a b : Nat) : (s.warpResult a b).hbms = s.hbms := rfl
@[simp] theorem State.warpResult_intents (a b : Nat) : (s.warpResult a b).intents = s.intents := rfl
@[simp] theorem State.warpResult_ballast (a b : Nat) : (s.warpResult a b).ballast = s.ballast := rfl
@[simp] theorem State.warpResult_gov (a b : Nat) : (s.warpResult a b).gov = s.gov := rfl
@[simp] theorem State.warp_warpResult (a b : Nat) (k : Nat) : (s.warpResult a b).warp k = s.warp k := rfl
@[simp] theorem State.block_warpResult (a b : Nat) (k : Nat) : (s.warpResult a b).block k = s.block k := rfl
@[simp] theorem State.job_warpResult (a b : Nat) (k : Nat) : (s.warpResult a b).job k = s.job k := rfl
@[simp] theorem State.op_warpResult (a b : Nat) (k : Nat) : (s.warpResult a b).op k = s.op k := rfl
@[simp] theorem State.mcc_warpResult (a b : Nat) (k : Nat) : (s.warpResult a b).mcc k = s.mcc k := rfl
@[simp] theorem State.arr_warpResult (a b : Nat) (k : Nat) : (s.warpResult a b).arr k = s.arr k := rfl
@[simp] theorem State.slice_warpResult (a b : Nat) (k : Nat) : (s.warpResult a b).slice k = s.slice k := rfl
@[simp] theorem State.gang_warpResult (a b : Nat) (k : Nat) : (s.warpResult a b).gang k = s.gang k := rfl
@[simp] theorem State.pantry_warpResult (a b : Nat) (k : Nat) : (s.warpResult a b).pantry k = s.pantry k := rfl
@[simp] theorem State.larder_warpResult (a b : Nat) (k : Nat) : (s.warpResult a b).larder k = s.larder k := rfl
@[simp] theorem State.entry_warpResult (a b : Nat) (k : Nat) : (s.warpResult a b).entry k = s.entry k := rfl
@[simp] theorem State.bin_warpResult (a b : Nat) (k : Nat) : (s.warpResult a b).bin k = s.bin k := rfl
@[simp] theorem State.ring_warpResult (a b : Nat) (k : Nat) : (s.warpResult a b).ring k = s.ring k := rfl

/-! ## mccResult -/

@[simp] theorem State.mccResult_turn (a b : Nat) : (s.mccResult a b).turn = s.turn := rfl
@[simp] theorem State.mccResult_issuer (a b : Nat) : (s.mccResult a b).issuer = s.issuer := rfl
@[simp] theorem State.mccResult_free (a b : Nat) : (s.mccResult a b).free = s.free := rfl
@[simp] theorem State.mccResult_time (a b : Nat) : (s.mccResult a b).time = s.time := rfl
@[simp] theorem State.mccResult_cycles (a b : Nat) : (s.mccResult a b).cycles = s.cycles := rfl
@[simp] theorem State.mccResult_powered (a b : Nat) : (s.mccResult a b).powered = s.powered := rfl
@[simp] theorem State.mccResult_recovery (a b : Nat) : (s.mccResult a b).recovery = s.recovery := rfl
@[simp] theorem State.mccResult_ready (a b : Nat) : (s.mccResult a b).ready = s.ready := rfl
@[simp] theorem State.mccResult_moduleId (a b : Nat) : (s.mccResult a b).moduleId = s.moduleId := rfl
@[simp] theorem State.mccResult_measurements (a b : Nat) : (s.mccResult a b).measurements = s.measurements := rfl
@[simp] theorem State.mccResult_rings (a b : Nat) : (s.mccResult a b).rings = s.rings := rfl
@[simp] theorem State.mccResult_completions (a b : Nat) : (s.mccResult a b).completions = s.completions := rfl
@[simp] theorem State.mccResult_mailbox (a b : Nat) : (s.mccResult a b).mailbox = s.mailbox := rfl
@[simp] theorem State.mccResult_selectors (a b : Nat) : (s.mccResult a b).selectors = s.selectors := rfl
@[simp] theorem State.mccResult_i3c (a b : Nat) : (s.mccResult a b).i3c = s.i3c := rfl
@[simp] theorem State.mccResult_nextRing (a b : Nat) : (s.mccResult a b).nextRing = s.nextRing := rfl
@[simp] theorem State.mccResult_mem (a b : Nat) : (s.mccResult a b).mem = s.mem := rfl
@[simp] theorem State.mccResult_l1 (a b : Nat) : (s.mccResult a b).l1 = s.l1 := rfl
@[simp] theorem State.mccResult_l2 (a b : Nat) : (s.mccResult a b).l2 = s.l2 := rfl
@[simp] theorem State.mccResult_rdc (a b : Nat) : (s.mccResult a b).rdc = s.rdc := rfl
@[simp] theorem State.mccResult_shadow (a b : Nat) : (s.mccResult a b).shadow = s.shadow := rfl
@[simp] theorem State.mccResult_past (a b : Nat) : (s.mccResult a b).past = s.past := rfl
@[simp] theorem State.mccResult_roots (a b : Nat) : (s.mccResult a b).roots = s.roots := rfl
@[simp] theorem State.mccResult_oldRoots (a b : Nat) : (s.mccResult a b).oldRoots = s.oldRoots := rfl
@[simp] theorem State.mccResult_tlbs (a b : Nat) : (s.mccResult a b).tlbs = s.tlbs := rfl
@[simp] theorem State.mccResult_icaches (a b : Nat) : (s.mccResult a b).icaches = s.icaches := rfl
@[simp] theorem State.mccResult_ops (a b : Nat) : (s.mccResult a b).ops = s.ops := rfl
@[simp] theorem State.mccResult_nextOp (a b : Nat) : (s.mccResult a b).nextOp = s.nextOp := rfl
@[simp] theorem State.mccResult_nextSeq (a b : Nat) : (s.mccResult a b).nextSeq = s.nextSeq := rfl
@[simp] theorem State.mccResult_jobs (a b : Nat) : (s.mccResult a b).jobs = s.jobs := rfl
@[simp] theorem State.mccResult_nextGrid (a b : Nat) : (s.mccResult a b).nextGrid = s.nextGrid := rfl
@[simp] theorem State.mccResult_blocks (a b : Nat) : (s.mccResult a b).blocks = s.blocks := rfl
@[simp] theorem State.mccResult_nextBlock (a b : Nat) : (s.mccResult a b).nextBlock = s.nextBlock := rfl
@[simp] theorem State.mccResult_warps (a b : Nat) : (s.mccResult a b).warps = s.warps := rfl
@[simp] theorem State.mccResult_nextWarp (a b : Nat) : (s.mccResult a b).nextWarp = s.nextWarp := rfl
@[simp] theorem State.mccResult_entries (a b : Nat) : (s.mccResult a b).entries = s.entries := rfl
@[simp] theorem State.mccResult_binds (a b : Nat) : (s.mccResult a b).binds = s.binds := rfl
@[simp] theorem State.mccResult_bins (a b : Nat) : (s.mccResult a b).bins = s.bins := rfl
@[simp] theorem State.mccResult_clusters (a b : Nat) : (s.mccResult a b).clusters = s.clusters := rfl
@[simp] theorem State.mccResult_gangs (a b : Nat) : (s.mccResult a b).gangs = s.gangs := rfl
@[simp] theorem State.mccResult_nextGang (a b : Nat) : (s.mccResult a b).nextGang = s.nextGang := rfl
@[simp] theorem State.mccResult_savePools (a b : Nat) : (s.mccResult a b).savePools = s.savePools := rfl
@[simp] theorem State.mccResult_slots (a b : Nat) : (s.mccResult a b).slots = s.slots := rfl
@[simp] theorem State.mccResult_coreMap (a b : Nat) : (s.mccResult a b).coreMap = s.coreMap := rfl
@[simp] theorem State.mccResult_phys (a b : Nat) : (s.mccResult a b).phys = s.phys := rfl
@[simp] theorem State.mccResult_placeCounts (a b : Nat) : (s.mccResult a b).placeCounts = s.placeCounts := rfl
@[simp] theorem State.mccResult_lastBusy (a b : Nat) : (s.mccResult a b).lastBusy = s.lastBusy := rfl
@[simp] theorem State.mccResult_copyLogs (a b : Nat) : (s.mccResult a b).copyLogs = s.copyLogs := rfl
@[simp] theorem State.mccResult_mccs (a b : Nat) : (s.mccResult a b).mccs = s.mccs := rfl
@[simp] theorem State.mccResult_arrs (a b : Nat) : (s.mccResult a b).arrs = s.arrs := rfl
@[simp] theorem State.mccResult_acc (a b : Nat) : (s.mccResult a b).acc = s.acc := rfl
@[simp] theorem State.mccResult_slices (a b : Nat) : (s.mccResult a b).slices = s.slices := rfl
@[simp] theorem State.mccResult_groups (a b : Nat) : (s.mccResult a b).groups = s.groups := rfl
@[simp] theorem State.mccResult_held (a b : Nat) : (s.mccResult a b).held = s.held := rfl
@[simp] theorem State.mccResult_ringJobs (a b : Nat) : (s.mccResult a b).ringJobs = s.ringJobs := rfl
@[simp] theorem State.mccResult_ports (a b : Nat) : (s.mccResult a b).ports = s.ports := rfl
@[simp] theorem State.mccResult_xfers (a b : Nat) : (s.mccResult a b).xfers = s.xfers := rfl
@[simp] theorem State.mccResult_pantries (a b : Nat) : (s.mccResult a b).pantries = s.pantries := rfl
@[simp] theorem State.mccResult_larders (a b : Nat) : (s.mccResult a b).larders = s.larders := rfl
@[simp] theorem State.mccResult_capBanks (a b : Nat) : (s.mccResult a b).capBanks = s.capBanks := rfl
@[simp] theorem State.mccResult_regions (a b : Nat) : (s.mccResult a b).regions = s.regions := rfl
@[simp] theorem State.mccResult_hbms (a b : Nat) : (s.mccResult a b).hbms = s.hbms := rfl
@[simp] theorem State.mccResult_intents (a b : Nat) : (s.mccResult a b).intents = s.intents := rfl
@[simp] theorem State.mccResult_ballast (a b : Nat) : (s.mccResult a b).ballast = s.ballast := rfl
@[simp] theorem State.mccResult_gov (a b : Nat) : (s.mccResult a b).gov = s.gov := rfl
@[simp] theorem State.warp_mccResult (a b : Nat) (k : Nat) : (s.mccResult a b).warp k = s.warp k := rfl
@[simp] theorem State.block_mccResult (a b : Nat) (k : Nat) : (s.mccResult a b).block k = s.block k := rfl
@[simp] theorem State.job_mccResult (a b : Nat) (k : Nat) : (s.mccResult a b).job k = s.job k := rfl
@[simp] theorem State.op_mccResult (a b : Nat) (k : Nat) : (s.mccResult a b).op k = s.op k := rfl
@[simp] theorem State.mcc_mccResult (a b : Nat) (k : Nat) : (s.mccResult a b).mcc k = s.mcc k := rfl
@[simp] theorem State.arr_mccResult (a b : Nat) (k : Nat) : (s.mccResult a b).arr k = s.arr k := rfl
@[simp] theorem State.slice_mccResult (a b : Nat) (k : Nat) : (s.mccResult a b).slice k = s.slice k := rfl
@[simp] theorem State.gang_mccResult (a b : Nat) (k : Nat) : (s.mccResult a b).gang k = s.gang k := rfl
@[simp] theorem State.pantry_mccResult (a b : Nat) (k : Nat) : (s.mccResult a b).pantry k = s.pantry k := rfl
@[simp] theorem State.larder_mccResult (a b : Nat) (k : Nat) : (s.mccResult a b).larder k = s.larder k := rfl
@[simp] theorem State.entry_mccResult (a b : Nat) (k : Nat) : (s.mccResult a b).entry k = s.entry k := rfl
@[simp] theorem State.bin_mccResult (a b : Nat) (k : Nat) : (s.mccResult a b).bin k = s.bin k := rfl
@[simp] theorem State.ring_mccResult (a b : Nat) (k : Nat) : (s.mccResult a b).ring k = s.ring k := rfl

/-! ## Records after their own update -/

@[simp] theorem State.warp_setWarp_same (w : Nat) (x : Warp) : (s.setWarp w x).warp w = x := Table.get_set_same _ _ _ _
theorem State.warp_setWarp_ne (w k : Nat) (x : Warp) (h : k ≠ w) : (s.setWarp w x).warp k = s.warp k :=
  Table.get_set_ne _ _ _ _ _ h
@[simp] theorem State.block_setBlock_same (w : Nat) (x : BlockRec) : (s.setBlock w x).block w = x := Table.get_set_same _ _ _ _
theorem State.block_setBlock_ne (w k : Nat) (x : BlockRec) (h : k ≠ w) : (s.setBlock w x).block k = s.block k :=
  Table.get_set_ne _ _ _ _ _ h
@[simp] theorem State.job_setJob_same (w : Nat) (x : Job) : (s.setJob w x).job w = x := Table.get_set_same _ _ _ _
theorem State.job_setJob_ne (w k : Nat) (x : Job) (h : k ≠ w) : (s.setJob w x).job k = s.job k :=
  Table.get_set_ne _ _ _ _ _ h
@[simp] theorem State.op_setOp_same (w : Nat) (x : Op) : (s.setOp w x).op w = x := Table.get_set_same _ _ _ _
theorem State.op_setOp_ne (w k : Nat) (x : Op) (h : k ≠ w) : (s.setOp w x).op k = s.op k :=
  Table.get_set_ne _ _ _ _ _ h
@[simp] theorem State.mcc_setMcc_same (w : Nat) (x : Mcc) : (s.setMcc w x).mcc w = x := Table.get_set_same _ _ _ _
theorem State.mcc_setMcc_ne (w k : Nat) (x : Mcc) (h : k ≠ w) : (s.setMcc w x).mcc k = s.mcc k :=
  Table.get_set_ne _ _ _ _ _ h
@[simp] theorem State.arr_setArr_same (w : Nat) (x : Arr) : (s.setArr w x).arr w = x := Table.get_set_same _ _ _ _
theorem State.arr_setArr_ne (w k : Nat) (x : Arr) (h : k ≠ w) : (s.setArr w x).arr k = s.arr k :=
  Table.get_set_ne _ _ _ _ _ h
@[simp] theorem State.slice_setSlice_same (w : Nat) (x : Slice) : (s.setSlice w x).slice w = x := Table.get_set_same _ _ _ _
theorem State.slice_setSlice_ne (w k : Nat) (x : Slice) (h : k ≠ w) : (s.setSlice w x).slice k = s.slice k :=
  Table.get_set_ne _ _ _ _ _ h
@[simp] theorem State.gang_setGang_same (w : Nat) (x : Gang) : (s.setGang w x).gang w = x := Table.get_set_same _ _ _ _
theorem State.gang_setGang_ne (w k : Nat) (x : Gang) (h : k ≠ w) : (s.setGang w x).gang k = s.gang k :=
  Table.get_set_ne _ _ _ _ _ h
@[simp] theorem State.pantry_setPantry_same (w : Nat) (x : Pantry) : (s.setPantry w x).pantry w = x := Table.get_set_same _ _ _ _
theorem State.pantry_setPantry_ne (w k : Nat) (x : Pantry) (h : k ≠ w) : (s.setPantry w x).pantry k = s.pantry k :=
  Table.get_set_ne _ _ _ _ _ h
@[simp] theorem State.larder_setLarder_same (w : Nat) (x : Larder) : (s.setLarder w x).larder w = x := Table.get_set_same _ _ _ _
theorem State.larder_setLarder_ne (w k : Nat) (x : Larder) (h : k ≠ w) : (s.setLarder w x).larder k = s.larder k :=
  Table.get_set_ne _ _ _ _ _ h
@[simp] theorem State.entry_setEntry_same (w : Nat) (x : Entry) : (s.setEntry w x).entry w = x := Table.get_set_same _ _ _ _
theorem State.entry_setEntry_ne (w k : Nat) (x : Entry) (h : k ≠ w) : (s.setEntry w x).entry k = s.entry k :=
  Table.get_set_ne _ _ _ _ _ h
@[simp] theorem State.bin_setBin_same (w : Nat) (x : Bin) : (s.setBin w x).bin w = x := Table.get_set_same _ _ _ _
theorem State.bin_setBin_ne (w k : Nat) (x : Bin) (h : k ≠ w) : (s.setBin w x).bin k = s.bin k :=
  Table.get_set_ne _ _ _ _ _ h
@[simp] theorem State.ring_setRing_same (w : Nat) (x : Ring) : (s.setRing w x).ring w = x := Table.get_set_same _ _ _ _
theorem State.ring_setRing_ne (w k : Nat) (x : Ring) (h : k ≠ w) : (s.setRing w x).ring k = s.ring k :=
  Table.get_set_ne _ _ _ _ _ h

end Sys2Proof.Machine
end

