-- ==== Sys2Proof/Laws/Warp.lean ====
section
/-!
SUPPORT. The laws of a warp's registers and lanes: what each reads as after a write, and what the operations over lanes
leave alone.
-/
namespace Sys2Proof.Machine

/-! ## Scalar, predicate and mask registers -/

theorem rdS_wrS (a : Warp) (n k : Nat) (x : Word) : (a.wrS n x).rdS k = if k = n ∧ n ≠ 0 then x else a.rdS k := by
  unfold Warp.wrS Warp.rdS
  by_cases hn : n = 0
  · simp [hn]
  · by_cases hk : k = n
    · subst hk; simp [hn]
    · by_cases h0 : k = 0
      · simp [hn, h0, Ne.symm hn]
      · simp [hn, h0, hk, Table.get_set_ne _ _ _ _ _ hk]

theorem rdP_wrP (a : Warp) (n k : Nat) (x : BitVec 32) : (a.wrP n x).rdP k = if k = n ∧ n ≠ 0 then x else a.rdP k := by
  unfold Warp.wrP Warp.rdP
  by_cases hn : n = 0
  · simp [hn]
  · by_cases hk : k = n
    · subst hk; simp [hn]
    · by_cases h0 : k = 0
      · simp [hn, h0, Ne.symm hn]
      · simp [hn, h0, hk, Table.get_set_ne _ _ _ _ _ hk]

theorem rdM_wrM (a : Warp) (n k : Nat) (x : BitVec 256) : (a.wrM n x).rdM k = if k = n ∧ n ≠ 0 then x else a.rdM k := by
  unfold Warp.wrM Warp.rdM
  by_cases hn : n = 0
  · simp [hn]
  · by_cases hk : k = n
    · subst hk; simp [hn]
    · by_cases h0 : k = 0
      · simp [hn, h0, Ne.symm hn]
      · simp [hn, h0, hk, Table.get_set_ne _ _ _ _ _ hk]

theorem Mcc.rdS_wrS (a : Mcc) (n k : Nat) (x : Word) : (a.wrS n x).rdS k = if k = n ∧ n ≠ 0 then x else a.rdS k := by
  unfold Mcc.wrS Mcc.rdS
  by_cases hn : n = 0
  · simp [hn]
  · by_cases hk : k = n
    · subst hk; simp [hn]
    · by_cases h0 : k = 0
      · simp [hn, h0, Ne.symm hn]
      · simp [hn, h0, hk, Table.get_set_ne _ _ _ _ _ hk]

theorem Slice.rd_wr (a : Slice) (n k : Nat) (x : BitVec 32) : (a.wr n x).rd k = if k = n ∧ n ≠ 0 then x else a.rd k := by
  unfold Slice.wr Slice.rd
  by_cases hn : n = 0
  · simp [hn]
  · by_cases hk : k = n
    · subst hk; simp [hn]
    · by_cases h0 : k = 0
      · simp [hn, h0, Ne.symm hn]
      · simp [hn, h0, hk, Table.get_set_ne _ _ _ _ _ hk]

/-- The fixed registers (R80). -/
@[simp] theorem rdS_zero (a : Warp) : a.rdS 0 = 0 := rfl
@[simp] theorem rdP_zero (a : Warp) : a.rdP 0 = BitVec.allOnes 32 := rfl
@[simp] theorem rdM_zero (a : Warp) : a.rdM 0 = BitVec.allOnes 256 := rfl

theorem wrS_eq (a : Warp) (n : Nat) (x : Word) : a.wrS n x = { a with s := (a.wrS n x).s } := by
  unfold Warp.wrS; split <;> rfl
theorem wrP_eq (a : Warp) (n : Nat) (x : BitVec 32) : a.wrP n x = { a with p := (a.wrP n x).p } := by
  unfold Warp.wrP; split <;> rfl
theorem wrM_eq (a : Warp) (n : Nat) (x : BitVec 256) : a.wrM n x = { a with m := (a.wrM n x).m } := by
  unfold Warp.wrM; split <;> rfl

/-! ## Vector registers -/

theorem rdV_wrV (a : Warp) (n l k j : Nat) (x : Word) (hl : l < 32) (hj : j < 32) :
    (a.wrV n l x).rdV k j = if k = n ∧ j = l then x else a.rdV k j := by
  unfold Warp.wrV Warp.rdV
  by_cases h : k = n ∧ j = l
  · obtain ⟨rfl, rfl⟩ := h; simp
  · have : k * 32 + j ≠ n * 32 + l := by omega
    simp [h, Table.get_set_ne _ _ _ _ _ this]

/-! ## Lanes -/

theorem lane_setLane (a : Warp) (l k : Nat) (x : Lane) : (a.setLane l x).lane k = if k = l then x else a.lane k := by
  unfold Warp.setLane Warp.lane
  by_cases h : k = l
  · subst h; simp
  · simp [h, Table.get_set_ne _ _ _ _ _ h]

/-- A fold over lanes that changes lane after lane. -/
theorem foldl_setLane (ls : List Nat) (f : Nat → Lane → Lane) (a : Warp) (hn : ls.Nodup) :
    (∀ k, (ls.foldl (fun (a : Warp) l => a.setLane l (f l (a.lane l))) a).lane k =
      if k ∈ ls then f k (a.lane k) else a.lane k) ∧
    ls.foldl (fun (a : Warp) l => a.setLane l (f l (a.lane l))) a =
      { a with lanes := (ls.foldl (fun (a : Warp) l => a.setLane l (f l (a.lane l))) a).lanes } := by
  induction ls generalizing a with
  | nil => exact ⟨fun k => by simp, rfl⟩
  | cons l r ih =>
    obtain ⟨hl, hr⟩ := List.nodup_cons.mp hn
    have h := ih (a.setLane l (f l (a.lane l))) hr
    refine ⟨fun k => ?_, ?_⟩
    · rw [List.foldl_cons, h.1 k, lane_setLane]
      by_cases hk : k = l
      · subst hk; simp [hl]
      · simp [hk]
    · rw [List.foldl_cons]; exact h.2

/-- What `mapLanes` does. -/
theorem lane_mapLanes (a : Warp) (mask : Nat) (f : Nat → Lane → Lane) (k : Nat) :
    (a.mapLanes mask f).lane k = if k < 32 ∧ bit mask k = true then f k (a.lane k) else a.lane k := by
  unfold Warp.mapLanes
  rw [(foldl_setLane _ f a (nodup_maskList mask 32)).1 k]
  simp only [mem_maskList]

theorem mapLanes_eq (a : Warp) (mask : Nat) (f : Nat → Lane → Lane) :
    a.mapLanes mask f = { a with lanes := (a.mapLanes mask f).lanes } := by
  unfold Warp.mapLanes
  exact (foldl_setLane _ f a (nodup_maskList mask 32)).2

theorem lane_moveGroup (a : Warp) (pc k : Nat) :
    (a.moveGroup pc).lane k = if k < 32 ∧ bit a.group k = true then { a.lane k with pc := pc } else a.lane k :=
  lane_mapLanes _ _ _ _

theorem moveGroup_eq (a : Warp) (pc : Nat) : a.moveGroup pc = { a with lanes := (a.moveGroup pc).lanes } := mapLanes_eq _ _ _

/-- A fold that writes one vector register in lane after lane. -/
theorem foldl_wrV (ls : List Nat) (n : Nat) (f : Nat → Word) (a : Warp) (hl : ∀ l ∈ ls, l < 32) :
    (∀ k j, j < 32 → (ls.foldl (fun (a : Warp) l => a.wrV n l (f l)) a).rdV k j =
      if k = n ∧ j ∈ ls then f j else a.rdV k j) ∧
    ls.foldl (fun (a : Warp) l => a.wrV n l (f l)) a =
      { a with v := (ls.foldl (fun (a : Warp) l => a.wrV n l (f l)) a).v } := by
  induction ls generalizing a with
  | nil => exact ⟨fun k j _ => by simp, rfl⟩
  | cons l r ih =>
    have h := ih (a.wrV n l (f l)) (fun x hx => hl x (List.mem_cons_of_mem _ hx))
    have h32 : l < 32 := hl l (by simp)
    refine ⟨fun k j hj => ?_, ?_⟩
    · rw [List.foldl_cons, h.1 k j hj, rdV_wrV _ _ _ _ _ _ h32 hj]
      by_cases hk : k = n
      · by_cases hjl : j = l
        · subst hjl; simp [hk]
        · simp [hk, hjl]
      · simp [hk]
    · rw [List.foldl_cons]; exact h.2

/-- What `wrVs` does. -/
theorem rdV_wrVs (a : Warp) (n mask k j : Nat) (f : Nat → Word) (hj : j < 32) :
    (a.wrVs n mask f).rdV k j = if k = n ∧ bit mask j = true then f j else a.rdV k j := by
  unfold Warp.wrVs
  rw [(foldl_wrV _ n f a (fun l h => ((mem_maskList _ _ _).mp h).1)).1 k j hj]
  simp only [mem_maskList, hj, true_and]

theorem wrVs_eq (a : Warp) (n mask : Nat) (f : Nat → Word) : a.wrVs n mask f = { a with v := (a.wrVs n mask f).v } := by
  unfold Warp.wrVs
  exact (foldl_wrV _ n f a (fun l h => ((mem_maskList _ _ _).mp h).1)).2

/-! ## Issue -/

/-- The warp at issue: its registers, and everything but its chain and its threads' places, are as before. -/
theorem atIssue_eq (s : State) (i : Instr) (w : Nat) :
    s.atIssue i w = { s.warp w with
      lanes := (s.atIssue i w).lanes, latches := (s.atIssue i w).latches, chainHead := (s.atIssue i w).chainHead
      chainLen := (s.atIssue i w).chainLen, inRun := (s.atIssue i w).inRun } := by
  unfold State.atIssue State.issued
  simp only [State.warp_setWarp_same]
  rw [moveGroup_eq]
  unfold Warp.beginIssue
  split <;> rfl

theorem lane_atIssue (s : State) (i : Instr) (w k : Nat) :
    (s.atIssue i w).lane k = if k < 32 ∧ bit (s.warp w).group k = true then { (s.warp w).lane k with pc := (s.warp w).npc }
      else (s.warp w).lane k := by
  unfold State.atIssue State.issued
  simp only [State.warp_setWarp_same]
  rw [lane_moveGroup]
  unfold Warp.beginIssue
  split <;> rfl

theorem issued_eq (s : State) (i : Instr) (w : Nat) : s.issued i w = s.setWarp w (s.atIssue i w) := by
  unfold State.atIssue State.issued; simp

end Sys2Proof.Machine
end

