-- ==== Sys2Proof/Laws/Elementwise.lean ====
section
/-!
SUPPORT. What the shared element-wise operation does (R27, R83, R102, R103): which elements it writes through Merge,
what it leaves alone, and when it faults.
-/
namespace Sys2Proof.Machine

/-! ## One lane -/

theorem foldl_range_succ {α : Type} (f : α → Nat → α) (z : α) (n : Nat) :
    (List.range (n + 1)).foldl f z = f ((List.range n).foldl f z) n := by
  simp only [List.range_succ, List.foldl_append, List.foldl_cons, List.foldl_nil]

/-- A lane after its first `n` elements. -/
def laneAcc (wp : Warp) (g : Guard) (vx : Vx) (w : Nat) (at_ : Nat → Nat) (f : ElemFn) (old : Word) (l n : Nat) :
    Nat × Nat × Flags × BitVec 32 :=
  (List.range n).foldl (laneStep wp g vx w at_ f l) (old.toNat, 0, {}, (wp.lane l).rng)

variable {wp : Warp} {g : Guard} {vx : Vx} {w : Nat} {at_ : Nat → Nat} {f : ElemFn} {old : Word} {l : Nat}

theorem laneAcc_zero : laneAcc wp g vx w at_ f old l 0 = (old.toNat, 0, {}, (wp.lane l).rng) := by
  simp only [laneAcc, List.range_zero, List.foldl_nil]

theorem laneAcc_succ (n : Nat) :
    laneAcc wp g vx w at_ f old l (n + 1) = laneStep wp g vx w at_ f l (laneAcc wp g vx w at_ f old l n) n :=
  foldl_range_succ _ _ _

theorem laneRun_eq (wp : Warp) (g : Guard) (vx : Vx) (w : Nat) (at_ : Nat → Nat) (n : Nat) (f : ElemFn) (old : Word)
    (l : Nat) : laneRun wp g vx w at_ n f old l =
      { val := BitVec.ofNat 64 (laneAcc wp g vx w at_ f old l n).1
        latch := BitVec.ofNat 64 (laneAcc wp g vx w at_ f old l n).2.1
        fl := (laneAcc wp g vx w at_ f old l n).2.2.1, rng := (laneAcc wp g vx w at_ f old l n).2.2.2 } := by
  simp only [laneRun, laneAcc]

theorem laneAcc_lt (n : Nat) (h : ∀ j, j < n → w * at_ j + w ≤ 64) : (laneAcc wp g vx w at_ f old l n).1 < 2 ^ 64 := by
  induction n with
  | zero => exact old.isLt
  | succ n ih =>
    have h1 := ih (fun j hj => h j (by omega))
    have h2 := h n (by omega)
    simp only [laneAcc_succ, laneStep]
    split
    · exact putBits_lt _ _ _ _ _ h1 h2
    · split
      · exact putBits_lt _ _ _ _ _ h1 h2
      · exact h1

theorem fields_apart (w a b : Nat) (h : a ≠ b) : w * a + w ≤ w * b ∨ w * b + w ≤ w * a := by
  rcases Nat.lt_or_gt_of_ne h with h | h
  · left; calc w * a + w = w * (a + 1) := by ring
      _ ≤ w * b := Nat.mul_le_mul_left _ h
  · right; calc w * b + w = w * (b + 1) := by ring
      _ ≤ w * a := Nat.mul_le_mul_left _ h

/-- A field that none of the first `n` elements has is as before. -/
theorem laneAcc_other (n k : Nat) (h : ∀ j, j < n → at_ j ≠ k) :
    bits (laneAcc wp g vx w at_ f old l n).1 (w * k) w = bits old.toNat (w * k) w := by
  induction n with
  | zero => rw [laneAcc_zero]
  | succ n ih =>
    have h1 := ih (fun j hj => h j (by omega))
    have h2 := fields_apart w (at_ n) k (h n (by omega))
    simp only [laneAcc_succ, laneStep]
    split
    · rw [bits_putBits_ne _ _ _ _ _ _ h2.symm, h1]
    · split
      · rw [bits_putBits_ne _ _ _ _ _ _ h2.symm, h1]
      · exact h1

/-- Each element is written through Merge. -/
theorem laneAcc_elem (n j : Nat) (hj : j < n) (hinj : ∀ i j, i < n → j < n → at_ i = at_ j → i = j) :
    bits (laneAcc wp g vx w at_ f old l n).1 (w * at_ j) w =
      if wp.enabled g vx.m l (at_ j) then
        (f l j (wp.lane l).fflags (laneAcc wp g vx w at_ f old l j).2.2.2).val % 2 ^ w
      else if vx.z then 0 else bits old.toNat (w * at_ j) w := by
  induction n with
  | zero => omega
  | succ n ih =>
    by_cases hn : j = n
    · subst hn
      have h1 := laneAcc_other (wp := wp) (g := g) (vx := vx) (w := w) (at_ := at_) (f := f) (old := old) (l := l) j (at_ j)
        (fun i hi e => by have := hinj i j (by omega) (by omega) e; omega)
      simp only [laneAcc_succ, laneStep]
      split
      · rw [bits_putBits_same]
      · split
        · rw [bits_putBits_same]; simp
        · exact h1
    · have h1 := ih (by omega) (fun a b ha hb e => hinj a b (by omega) (by omega) e)
      have h2 := fields_apart w (at_ n) (at_ j) (fun e => hn (hinj n j (by omega) (by omega) e).symm)
      rw [← h1]
      simp only [laneAcc_succ, laneStep]
      split
      · rw [bits_putBits_ne _ _ _ _ _ _ h2.symm]
      · split
        · rw [bits_putBits_ne _ _ _ _ _ _ h2.symm]
        · rfl

/-- What holds of no flags, of two sets of flags together, and of every element's flags holds of the lane's. -/
theorem laneAcc_flags (p : Flags → Prop) (h0 : p {}) (hor : ∀ a b, p a → p b → p (a.or b)) (n : Nat)
    (h : ∀ j, j < n → wp.enabled g vx.m l (at_ j) = true → ∀ rg, p (f l j (wp.lane l).fflags rg).fl) :
    p (laneAcc wp g vx w at_ f old l n).2.2.1 := by
  induction n with
  | zero => exact h0
  | succ n ih =>
    have h1 := ih (fun j hj => h j (by omega))
    simp only [laneAcc_succ, laneStep]
    split
    · rename_i he; exact hor _ _ h1 (h n (by omega) he _)
    · split <;> exact h1

/-! ## All lanes -/

theorem vecRun_length (a : Warp) (x : Alu) (w : Nat) (at_ : Nat → Nat) (n : Nat) (f : ElemFn) :
    (vecRun a x w at_ n f).length = 32 := by simp [vecRun, lanes32]

theorem vecRun_get (a : Warp) (x : Alu) (w : Nat) (at_ : Nat → Nat) (n : Nat) (f : ElemFn) (l : Nat) (h : l < 32) :
    (vecRun a x w at_ n f)[l]? = some (laneRun a x.g x.vx w at_ n f (a.rdV x.d l) l) := by
  simp [vecRun, lanes32, h]

/-- A lane as `takeFlags` leaves it. -/
def flaggedLane (o : LaneOut) (steps : Bool) (x : Lane) : Lane :=
  { x with
    fflags := raiseFlags x.fflags o.fl
    reported := if x.st == .helper then x.reported ||| (reportBits (raiseFlags x.fflags o.fl) &&& ~~~ reportBits x.fflags)
      else x.reported
    rng := if steps then o.rng else x.rng }

theorem takeFlags_fold (a : Warp) (outs : List LaneOut) (steps : Bool) (h : outs.length = 32) :
    a.takeFlags outs steps =
      lanes32.foldl (fun (b : Warp) l => b.setLane l (flaggedLane (outs.getD l { val := 0, rng := 0 }) steps (b.lane l))) a := by
  unfold Warp.takeFlags
  apply List.foldl_ext
  intro b l hl
  have hl : l < outs.length := by have : l < 32 := by simpa [lanes32] using hl
                                  omega
  simp only [List.getElem?_eq_getElem hl, List.getD_eq_getElem?_getD, Option.getD_some]
  rfl

/-- Flags and generators after an instruction. -/
theorem lane_takeFlags (a : Warp) (outs : List LaneOut) (steps : Bool) (h : outs.length = 32) (k : Nat) :
    (a.takeFlags outs steps).lane k =
      if k < 32 then flaggedLane (outs.getD k { val := 0, rng := 0 }) steps (a.lane k) else a.lane k := by
  rw [takeFlags_fold a outs steps h, (foldl_setLane lanes32 _ a List.nodup_range).1 k]
  simp [lanes32]

theorem takeFlags_eq (a : Warp) (outs : List LaneOut) (steps : Bool) (h : outs.length = 32) :
    a.takeFlags outs steps = { a with lanes := (a.takeFlags outs steps).lanes } := by
  rw [takeFlags_fold a outs steps h]
  exact (foldl_setLane lanes32 _ a List.nodup_range).2

theorem writeOuts_fold (a : Warp) (d : Nat) (outs : List LaneOut) (h : outs.length = 32) :
    a.writeOuts d outs = lanes32.foldl (fun (b : Warp) l => b.wrV d l (outs.getD l { val := 0, rng := 0 }).val) a := by
  unfold Warp.writeOuts
  apply List.foldl_ext
  intro b l hl
  have hl : l < outs.length := by have : l < 32 := by simpa [lanes32] using hl
                                  omega
  simp only [List.getElem?_eq_getElem hl, List.getD_eq_getElem?_getD, Option.getD_some]

theorem rdV_writeOuts (a : Warp) (d : Nat) (outs : List LaneOut) (h : outs.length = 32) (n l : Nat) (hl : l < 32) :
    (a.writeOuts d outs).rdV n l = if n = d then (outs.getD l { val := 0, rng := 0 }).val else a.rdV n l := by
  rw [writeOuts_fold a d outs h,
    (foldl_wrV lanes32 d (fun l => (outs.getD l { val := 0, rng := 0 }).val) a (fun l hl => by simpa [lanes32] using hl)).1 n l hl]
  simp [lanes32, hl]

theorem writeOuts_eq (a : Warp) (d : Nat) (outs : List LaneOut) (h : outs.length = 32) :
    a.writeOuts d outs = { a with v := (a.writeOuts d outs).v } := by
  rw [writeOuts_fold a d outs h]
  exact (foldl_wrV lanes32 d (fun l => (outs.getD l { val := 0, rng := 0 }).val) a (fun l hl => by simpa [lanes32] using hl)).2

/-- Flags that raise no arithmetic fault (R89, R105). -/
def Flags.calm (f : Flags) : Prop := f.idz = false ∧ f.invalid = false ∧ f.dz = false ∧ f.overflow = false

theorem Flags.calm_or (a b : Flags) (ha : a.calm) (hb : b.calm) : (a.or b).calm := by
  obtain ⟨h1, h2, h3, h4⟩ := ha
  obtain ⟨k1, k2, k3, k4⟩ := hb
  simp [Flags.calm, Flags.or, h1, h2, h3, h4, k1, k2, k3, k4]

/-- No lane of a thread that is no helper raises a fault. -/
theorem vecFault_none (a : Warp) (outs : List LaneOut)
    (h : ∀ l, l < 32 → a.isHelper l = false → ∀ o, outs[l]? = some o → o.fl.calm) : vecFault a outs = none := by
  have hp : ∀ p : Flags → Bool, (∀ fl : Flags, fl.calm → p fl = false) → faultyLane a outs p = none := by
    intro p hp
    unfold faultyLane
    rw [List.find?_eq_none]
    intro l hl
    have hl : l < 32 := by simpa [lanes32] using hl
    cases hh : a.isHelper l
    · cases ho : outs[l]? with
      | none => simp
      | some o => simp [hp o.fl (h l hl hh o ho)]
    · simp
  unfold vecFault
  rw [hp (·.idz) (fun _ c => c.1), hp (·.invalid) (fun _ c => c.2.1), hp (·.dz) (fun _ c => c.2.2.1),
    hp (·.overflow) (fun _ c => c.2.2.2)]

/-- The end of an element-wise instruction that raises no fault. -/
theorem finishVec_ok (x : Alu) (elig : Bool) (outs : List LaneOut) (w : Nat) (s : State) (hlen : outs.length = 32)
    (hf : s.defers w = true ∨ vecFault (s.warp w) outs = none) :
    ∃ b, finishVec x elig outs w s = .ok (s.setWarp w b) ∧
      b = { s.warp w with v := b.v, lanes := b.lanes, latches := b.latches } ∧
      (∀ n l, l < 32 → b.rdV n l = if n = x.d ∧ x.nowb = false then (outs.getD l { val := 0, rng := 0 }).val
        else (s.warp w).rdV n l) ∧
      (∀ l, b.lane l = if l < 32 then flaggedLane (outs.getD l { val := 0, rng := 0 }) true ((s.warp w).lane l)
        else (s.warp w).lane l) ∧
      b.latches = if elig then (s.warp w).latches.push (latchOfOuts outs) else (s.warp w).latches := by
  have hn : (if s.defers w then none else vecFault (s.warp w) outs) = none := by
    rcases hf with h | h <;> simp [h]
  have hL := lane_takeFlags (s.warp w) outs true hlen
  have hE := takeFlags_eq (s.warp w) outs true hlen
  have hR := rdV_writeOuts ((s.warp w).takeFlags outs true) x.d outs hlen
  have hW := writeOuts_eq ((s.warp w).takeFlags outs true) x.d outs hlen
  have hlat : ((s.warp w).takeFlags outs true).latches = (s.warp w).latches := by rw [hE]
  have hv : ∀ n l, ((s.warp w).takeFlags outs true).rdV n l = (s.warp w).rdV n l := by rw [hE]; intros; rfl
  have hln : ∀ l, (((s.warp w).takeFlags outs true).writeOuts x.d outs).lane l = ((s.warp w).takeFlags outs true).lane l := by
    rw [hW]; intros; rfl
  unfold finishVec
  simp only [hn]
  cases hb : x.nowb <;> cases elig <;> simp only [Bool.false_eq_true, if_false, if_true]
  · refine ⟨_, rfl, ?_, ?_, fun l => by rw [hln, hL], ?_⟩
    · rw [hW, hE]
    · intro n l hl; rw [hR n l hl, hv]; simp
    · rw [hW]; exact hlat
  · refine ⟨_, rfl, ?_, ?_, fun l => ?_, ?_⟩
    · rw [hW, hE]
    · intro n l hl; exact (hR n l hl).trans (by rw [hv]; simp)
    · exact (hln l).trans (hL l)
    · show (_ : Latches).push _ = _; rw [hW]; simp only [hlat]
  · refine ⟨_, rfl, by rw [hE], ?_, hL, hlat⟩
    intro n l hl; rw [hv]; simp
  · refine ⟨_, rfl, ?_, ?_, hL, ?_⟩
    · rw [hE]
    · intro n l hl; exact (hv n l).trans (by simp)
    · show (_ : Latches).push _ = _; rw [hlat]

/-- An element-wise instruction that raises no fault: every element of its destination through Merge, and nothing else
of the warp but flags, generators and latches. -/
theorem vecOp_ok (x : Alu) (elig : Bool) (wd : Nat) (f : Warp → ElemFn) (w : Nat) (s : State)
    (hf : s.defers w = true ∨ ∀ l k, l < 32 → k < 64 / wd → (s.warp w).isHelper l = false →
      (s.warp w).enabled x.g x.vx.m l k = true → ∀ rg, (f (s.warp w) l k ((s.warp w).lane l).fflags rg).fl.calm) :
    ∃ b, vecOp x elig wd f w s = .ok (s.setWarp w b) ∧
      b = { s.warp w with v := b.v, lanes := b.lanes, latches := b.latches } ∧
      (∀ n l, l < 32 → n ≠ x.d ∨ x.nowb = true → b.rdV n l = (s.warp w).rdV n l) ∧
      (x.nowb = false → ∀ l k, l < 32 → k < 64 / wd → ∃ rg, subOf (b.rdV x.d l) wd k =
        if (s.warp w).enabled x.g x.vx.m l k then (f (s.warp w) l k ((s.warp w).lane l).fflags rg).val % 2 ^ wd
        else if x.vx.z then 0 else subOf ((s.warp w).rdV x.d l) wd k) ∧
      (∀ l, ∃ o, b.lane l = if l < 32 then flaggedLane o true ((s.warp w).lane l) else (s.warp w).lane l) := by
  set outs := vecRun (s.warp w) x wd id (64 / wd) (f (s.warp w)) with ho
  have hfit : ∀ j, j < 64 / wd → wd * id j + wd ≤ 64 := by
    intro j hj
    calc wd * id j + wd = wd * (j + 1) := by simp only [id]; ring
      _ ≤ wd * (64 / wd) := Nat.mul_le_mul_left _ hj
      _ ≤ 64 := Nat.mul_div_le 64 wd
  have hget : ∀ l, l < 32 → outs.getD l { val := 0, rng := 0 } =
      laneRun (s.warp w) x.g x.vx wd id (64 / wd) (f (s.warp w)) ((s.warp w).rdV x.d l) l := by
    intro l hl
    rw [List.getD_eq_getElem?_getD, ho, vecRun_get _ _ _ _ _ _ _ hl]; rfl
  have hfault : s.defers w = true ∨ vecFault (s.warp w) outs = none := by
    rcases hf with h | h
    · exact Or.inl h
    · right
      apply vecFault_none
      intro l hl hh o hout
      rw [ho, vecRun_get _ _ _ _ _ _ _ hl] at hout
      have : o = _ := (Option.some.inj hout).symm
      rw [this, laneRun_eq]
      exact laneAcc_flags Flags.calm ⟨rfl, rfl, rfl, rfl⟩ Flags.calm_or _ (fun j hj he rg => h l j hl hj hh he rg)
  obtain ⟨b, h1, h2, h3, h4, _⟩ := finishVec_ok x elig outs w s (vecRun_length _ _ _ _ _ _) hfault
  refine ⟨b, h1, h2, ?_, ?_, fun l => ⟨_, h4 l⟩⟩
  · intro n l hl hn
    rw [h3 n l hl, if_neg]
    rintro ⟨e1, e2⟩
    rcases hn with h | h
    · exact h e1
    · simp [e2] at h
  · intro hnw l k hl hk
    refine ⟨(laneAcc (s.warp w) x.g x.vx wd id (f (s.warp w)) ((s.warp w).rdV x.d l) l k).2.2.2, ?_⟩
    rw [h3 x.d l hl, if_pos ⟨rfl, hnw⟩, hget l hl, laneRun_eq]
    have hlt := laneAcc_lt (wp := s.warp w) (g := x.g) (vx := x.vx) (at_ := id) (f := f (s.warp w))
      (old := (s.warp w).rdV x.d l) (l := l) (64 / wd) hfit
    unfold subOf
    rw [BitVec.toNat_ofNat, Nat.mod_eq_of_lt hlt]
    exact laneAcc_elem (64 / wd) k hk (fun i j _ _ e => e)

end Sys2Proof.Machine
end

