-- ==== Sys2Proof/Laws/Home.lean ====
section
/-!
SUPPORT. What a visit to the home of a line can do: the fields that each operation over homes, L1 copies and RDCs leaves
other than it found them. Every other field is as it was.
-/
namespace Sys2Proof.Machine

/-- A fold whose every step leaves all but `f` of a state alone leaves all but `f` alone. -/
theorem foldl_frame {α β : Type} (f : β → β → β) (g : β → α → β) (refl : ∀ s, s = f s s)
    (trans : ∀ s t u, t = f s t → u = f t u → u = f s u) (step : ∀ s x, g s x = f s (g s x)) (l : List α) :
    ∀ s, l.foldl g s = f s (l.foldl g s) := by
  induction l with
  | nil => exact refl
  | cons x r ih => exact fun s => trans s (g s x) _ (step s x) (ih (g s x))

/-- What is remembered of a write is kept beside the machine, and touches nothing of it. -/
theorem State.remember_frame (s : State) (x : Past) : s.remember x = { s with past := (s.remember x).past } :=
  foldl_frame (fun (a b : State) => { a with past := b.past }) _ (fun _ => rfl)
    (fun _ _ _ h g => by rw [g, h]) (fun _ _ => rfl) _ s

/-- A write at the home: memory takes the bytes; RDC copies, the state of lines in their slices, and what is kept of older
bytes follow. -/
theorem State.writeHome_frame (s : State) (pa : Nat) (bs : List Byte) :
    s.writeHome pa bs = { s with
      mem := s.mem.writeBytes pa bs, l2 := (s.writeHome pa bs).l2, rdc := (s.writeHome pa bs).rdc
      past := (s.writeHome pa bs).past } := by
  unfold writeHome unshare
  rw [remember_frame]

@[simp] theorem State.writeHome_mem (s : State) (pa : Nat) (bs : List Byte) :
    (s.writeHome pa bs).mem = s.mem.writeBytes pa bs := by rw [writeHome_frame]

@[simp] theorem State.writeHome_l1 (s : State) (pa : Nat) (bs : List Byte) : (s.writeHome pa bs).l1 = s.l1 := by
  rw [writeHome_frame]

@[simp] theorem State.writeHome_warps (s : State) (pa : Nat) (bs : List Byte) : (s.writeHome pa bs).warps = s.warps := by
  rw [writeHome_frame]

@[simp] theorem State.writeHome_blocks (s : State) (pa : Nat) (bs : List Byte) : (s.writeHome pa bs).blocks = s.blocks := by
  rw [writeHome_frame]

@[simp] theorem State.writeHome_ops (s : State) (pa : Nat) (bs : List Byte) : (s.writeHome pa bs).ops = s.ops := by
  rw [writeHome_frame]

/-- An event that answers no SMSG enters a queue, or is counted as dropped. -/
theorem State.queueEvent_frame (s : State) (k t : Nat) (e : SliceEvent) (h : e.op = none) :
    s.queueEvent k t e = { s with slices := (s.queueEvent k t e).slices } := by
  simp only [queueEvent, h, answerSmsg]
  split <;> rfl

/-- An event of kinds 0 to 2 answers no SMSG. -/
theorem State.lineEvent_frame (s : State) (k kind pa : Nat) (asid : Option Nat) (dirty : Bool) (handle : Nat) :
    s.lineEvent k kind pa asid dirty handle = { s with slices := (s.lineEvent k kind pa asid dirty handle).slices } := by
  unfold lineEvent
  repeat' split
  all_goals first | rfl | exact queueEvent_frame _ _ _ _ rfl

/-- A line leaves its slice: memory has held its bytes already. -/
theorem State.dropLine_frame (s : State) (pa : Nat) :
    s.dropLine pa = { s with
      l2 := (s.dropLine pa).l2, shadow := (s.dropLine pa).shadow, slices := (s.dropLine pa).slices } := by
  unfold dropLine
  rw [lineEvent_frame]
  rfl

theorem State.makeLine_frame (s : State) (pa : Nat) :
    s.makeLine pa = { s with
      l2 := (s.makeLine pa).l2, shadow := (s.makeLine pa).shadow, slices := (s.makeLine pa).slices
      free := (s.makeLine pa).free } := by
  unfold makeLine
  dsimp only
  repeat' split
  all_goals first | rfl | (rw [dropLine_frame]; rfl)

theorem State.fillLine_frame (s : State) (pa : Nat) (asid : Option Nat) :
    s.fillLine pa asid = { s with
      l2 := (s.fillLine pa asid).l2, shadow := (s.fillLine pa asid).shadow, slices := (s.fillLine pa asid).slices
      free := (s.fillLine pa asid).free } := by
  unfold fillLine
  dsimp only
  rw [lineEvent_frame, makeLine_frame]
  rfl

/-- A request at its home slice: lines of slices, their events, and the free choice of the line that makes way. -/
theorem State.atSlice_frame (s : State) (pa : Nat) (asid handle : Option Nat) :
    s.atSlice pa asid handle = { s with
      l2 := (s.atSlice pa asid handle).l2, shadow := (s.atSlice pa asid handle).shadow
      slices := (s.atSlice pa asid handle).slices, free := (s.atSlice pa asid handle).free } := by
  unfold atSlice
  dsimp only
  repeat' split
  · rfl
  · rw [fillLine_frame]
  · rw [fillLine_frame, lineEvent_frame]
  · rw [fillLine_frame]

@[simp] theorem State.atSlice_mem (s : State) (pa : Nat) (asid handle : Option Nat) :
    (s.atSlice pa asid handle).mem = s.mem := by rw [atSlice_frame]

@[simp] theorem State.atSlice_l1 (s : State) (pa : Nat) (asid handle : Option Nat) :
    (s.atSlice pa asid handle).l1 = s.l1 := by rw [atSlice_frame]

@[simp] theorem State.atSlice_rdc (s : State) (pa : Nat) (asid handle : Option Nat) :
    (s.atSlice pa asid handle).rdc = s.rdc := by rw [atSlice_frame]

/-- A released line is written at its home: no warp, block or operation changes. -/
theorem State.release_frame (s : State) (core line : Nat) :
    s.release core line = { s with
      mem := (s.release core line).mem, l1 := (s.release core line).l1, l2 := (s.release core line).l2
      rdc := (s.release core line).rdc, shadow := (s.release core line).shadow, past := (s.release core line).past
      slices := (s.release core line).slices, free := (s.release core line).free } := by
  unfold release
  dsimp only
  split
  · rfl
  · rw [writeHome_frame, atSlice_frame]
    rfl

theorem State.releaseWhere_frame (s : State) (core : Nat) (f : Nat → L1Line → Bool) :
    s.releaseWhere core f = { s with
      mem := (s.releaseWhere core f).mem, l1 := (s.releaseWhere core f).l1, l2 := (s.releaseWhere core f).l2
      rdc := (s.releaseWhere core f).rdc, shadow := (s.releaseWhere core f).shadow
      past := (s.releaseWhere core f).past, slices := (s.releaseWhere core f).slices
      free := (s.releaseWhere core f).free } :=
  foldl_frame (fun (a b : State) => { a with
      mem := b.mem, l1 := b.l1, l2 := b.l2, rdc := b.rdc, shadow := b.shadow, past := b.past, slices := b.slices
      free := b.free }) _ (fun _ => rfl) (fun _ _ _ h g => by rw [g, h]) (fun a c => release_frame a core _) _ s

/-- A copy that enters an RDC touches RDCs alone. -/
theorem State.fillRdc_frame (s : State) (die pa : Nat) :
    s.fillRdc die pa = { s with rdc := (s.fillRdc die pa).rdc, free := (s.fillRdc die pa).free } := by
  unfold fillRdc
  dsimp only
  repeat' split
  all_goals rfl

theorem State.noteRdc_frame (s : State) (die pa : Nat) (nc ms : Bool) :
    s.noteRdc die pa nc ms = { s with
      rdc := (s.noteRdc die pa nc ms).rdc, free := (s.noteRdc die pa nc ms).free } := by
  unfold noteRdc
  repeat' split
  · rfl
  · rw [fillRdc_frame]; rfl
  · rfl

/-- A clean copy that enters an L1 touches L1s alone. -/
theorem State.fillL1_frame (s : State) (core line : Nat) :
    s.fillL1 core line = { s with l1 := (s.fillL1 core line).l1, free := (s.fillL1 core line).free } := by
  unfold fillL1 makeWay
  dsimp only
  repeat' split
  all_goals rfl

/-- A narrow store pins its line: what it drives out of the set goes home. -/
theorem State.makePinRoom_frame (s : State) (core line : Nat) :
    s.makePinRoom core line = { s with
      mem := (s.makePinRoom core line).mem, l1 := (s.makePinRoom core line).l1, l2 := (s.makePinRoom core line).l2
      rdc := (s.makePinRoom core line).rdc, shadow := (s.makePinRoom core line).shadow
      past := (s.makePinRoom core line).past, slices := (s.makePinRoom core line).slices
      free := (s.makePinRoom core line).free } := by
  unfold makePinRoom
  dsimp only
  repeat' split
  · rfl
  · rfl
  · exact release_frame _ _ _

end Sys2Proof.Machine
end

