-- ==== Sys2Proof/Laws/Issue.lean ====
section
/-!
SUPPORT. What an issue does around an instruction's own effect (R40, R283), and element-wise instructions as `exec`
runs them.
-/
namespace Sys2Proof.Machine

/-! ## Issue -/

theorem issued_warp (s : State) (i : Instr) (w : Nat) : (s.issued i w).warp w = s.atIssue i w := rfl

/-- A warp's issue whose effect is done. -/
theorem onWarp_ok {i : Instr} {body : Nat → State → Res} {w : Nat} {s t : State} (h : Issues w i s)
    (hb : body w (s.issued i w) = .ok t) : onWarp i body s = .next t := by
  obtain ⟨h1, h2⟩ := h
  unfold onWarp
  rw [h1]
  simp only [runIssue, h2, hb]

/-- A warp's issue whose effect is a fault. -/
theorem onWarp_trap {i : Instr} {body : Nat → State → Res} {w : Nat} {s t : State} {f : Trap} (h : Issues w i s)
    (hb : body w (s.issued i w) = .trap f t) : onWarp i body s = .next (t.faultWarp w f) := by
  obtain ⟨h1, h2⟩ := h
  unfold onWarp
  rw [h1]
  simp only [runIssue, h2, hb]

/-- An instruction of both streams, in a warp. -/
theorem onEither_warp {i : Instr} {body mbody : Nat → State → Res} {w : Nat} {s : State} (h : s.issuer = .warp w) :
    onEither i body mbody s = onWarp i body s := by
  unfold onEither onWarp; rw [h]

/-- An instruction of both streams, in a matrix control core. -/
theorem onEither_mcc {i : Instr} {body mbody : Nat → State → Res} {k : Nat} {s : State} (h : s.issuer = .mcc k) :
    onEither i body mbody s = onMcc mbody s := by
  unfold onEither onMcc; rw [h]

/-- A matrix control core's issue whose effect is done. -/
theorem onMcc_ok {body : Nat → State → Res} {k : Nat} {s t : State} (h : IssuesMcc k s)
    (hb : body k (s.setMcc k { s.mcc k with pc := (s.mcc k).npc, xfer := none }) = .ok t) : onMcc body s = .next t := by
  unfold onMcc
  rw [h]
  simp only [runMcc, hb]

/-- Whether a warp defers is as before its issue. -/
theorem defers_issued (s : State) (i : Instr) (w : Nat) : (s.issued i w).defers w = s.defers w := by
  have hb : (s.atIssue i w).block = (s.warp w).block := by rw [atIssue_eq]
  unfold State.defers
  rw [issued_warp, hb, issued_eq]
  simp

/-- A warp changed after its issue: nothing else is. -/
theorem onlyWarp_issued (s : State) (i : Instr) (w : Nat) (b : Warp) : OnlyWarp w s ((s.issued i w).setWarp w b) := by
  refine ⟨rfl, fun u hu => ?_⟩
  rw [State.warp_setWarp_ne _ _ _ _ hu, issued_eq, State.warp_setWarp_ne _ _ _ _ hu]

/-! ## Element-wise instructions -/

variable {wp : Warp} {x : Alu} {wd : Nat} {at_ : Nat → Nat} {f : ElemFn} {old : Word} {l : Nat}

theorem elemsDone_succ (n : Nat) : elemsDone wp x at_ f l (n + 1) =
    if wp.enabled x.g x.vx.m l (at_ n) then
      ((elemsDone wp x at_ f l n).1.or (f l n (wp.lane l).fflags (elemsDone wp x at_ f l n).2).fl,
        (f l n (wp.lane l).fflags (elemsDone wp x at_ f l n).2).rng)
    else elemsDone wp x at_ f l n := foldl_range_succ _ _ _

/-- The flags and the generator of a lane's run. -/
theorem laneAcc_done (n : Nat) :
    (laneAcc wp x.g x.vx wd at_ f old l n).2.2 = elemsDone wp x at_ f l n := by
  induction n with
  | zero => rw [laneAcc_zero]; rfl
  | succ n ih =>
    rw [elemsDone_succ, laneAcc_succ, ← ih]
    unfold laneStep
    split
    · rfl
    · split <;> rfl

/-- The bits that enter a latch fit. -/
theorem laneAcc_latch_lt (n : Nat) (h : ∀ j, j < n → wd * at_ j + wd ≤ 64) :
    (laneAcc wp x.g x.vx wd at_ f old l n).2.1 < 2 ^ 64 := by
  induction n with
  | zero => rw [laneAcc_zero]; exact Nat.two_pow_pos 64
  | succ n ih =>
    have h1 := ih (fun j hj => h j (by omega))
    have h2 := h n (by omega)
    simp only [laneAcc_succ, laneStep]
    split
    · exact putBits_lt _ _ _ _ _ h1 h2
    · split <;> exact h1

theorem laneAcc_latch_other (n k : Nat) (h : ∀ j, j < n → at_ j ≠ k) :
    bits (laneAcc wp x.g x.vx wd at_ f old l n).2.1 (wd * k) wd = 0 := by
  induction n with
  | zero => rw [laneAcc_zero]; simp [bits]
  | succ n ih =>
    have h1 := ih (fun j hj => h j (by omega))
    have h2 := fields_apart wd (at_ n) k (h n (by omega))
    simp only [laneAcc_succ, laneStep]
    split
    · rw [bits_putBits_ne _ _ _ _ _ _ h2.symm, h1]
    · split <;> exact h1

/-- Each element as it enters a latch: zero where Merge would leave the register. -/
theorem laneAcc_latch (n j : Nat) (hj : j < n) (hinj : ∀ i j, i < n → j < n → at_ i = at_ j → i = j) :
    bits (laneAcc wp x.g x.vx wd at_ f old l n).2.1 (wd * at_ j) wd =
      if wp.enabled x.g x.vx.m l (at_ j) then elemVal wp x at_ f l j % 2 ^ wd else 0 := by
  induction n with
  | zero => omega
  | succ n ih =>
    by_cases hn : j = n
    · subst hn
      have h1 := laneAcc_latch_other (wp := wp) (x := x) (wd := wd) (f := f) (old := old) (l := l) j (at_ j)
        (fun i hi e => by have := hinj i j (by omega) (by omega) e; omega)
      simp only [laneAcc_succ, laneStep]
      split
      · rw [bits_putBits_same]; unfold elemVal; rw [← laneAcc_done (wd := wd) (old := old)]
      · split <;> exact h1
    · have h1 := ih (by omega) (fun a b ha hb e => hinj a b (by omega) (by omega) e)
      have h2 := fields_apart wd (at_ n) (at_ j) (fun e => hn (hinj n j (by omega) (by omega) e).symm)
      rw [← h1]
      simp only [laneAcc_succ, laneStep]
      split
      · rw [bits_putBits_ne _ _ _ _ _ _ h2.symm]
      · split <;> rfl

theorem laneOf_latchOfOuts (outs : List LaneOut) (h : outs.length = 32) (hl : l < 32) :
    (latchOfOuts outs).laneOf l = (outs.getD l { val := 0, rng := 0 }).latch := by
  have gen : ∀ (ls : List Nat) (t : Table Word), (∀ k ∈ ls, k < 32) → (ls.foldl (fun (t : Table Word) l =>
      match outs[l]? with
      | none => t
      | some o => t.set 0 l o.latch) t).get 0 l =
        if l ∈ ls then (outs.getD l { val := 0, rng := 0 }).latch else t.get 0 l := by
    intro ls
    induction ls with
    | nil => intro t _; simp
    | cons k r ih =>
      intro t hk
      have hk32 : k < outs.length := by rw [h]; exact hk k (by simp)
      rw [List.foldl_cons, ih _ (fun j hj => hk j (List.mem_cons_of_mem _ hj))]
      simp only [List.getElem?_eq_getElem hk32]
      by_cases hkl : l = k
      · subst hkl; simp [hk32]
      · simp [hkl, Table.get_set_ne _ _ _ _ _ hkl]
  unfold latchOfOuts Latch.laneOf
  refine (gen lanes32 {} (fun k hk => by simpa [lanes32] using hk)).trans ?_
  simp [lanes32, hl]

/-- An element-wise instruction that raises no fault. -/
theorem finishVec_done (x : Alu) (elig : Bool) (wd : Nat) (at_ : Nat → Nat) (n : Nat) (f : ElemFn) (w : Nat) (s : State)
    (hfit : ∀ j, j < n → wd * at_ j + wd ≤ 64) (hinj : ∀ i j, i < n → j < n → at_ i = at_ j → i = j)
    (hf : NoArithFault s w (s.warp w) x at_ n f) :
    ∃ b, finishVec x elig (vecRun (s.warp w) x wd at_ n f) w s = .ok (s.setWarp w b) ∧
      VecDone x elig wd at_ n f (s.warp w) b := by
  have hget : ∀ l, l < 32 → (vecRun (s.warp w) x wd at_ n f).getD l { val := 0, rng := 0 } =
      laneRun (s.warp w) x.g x.vx wd at_ n f ((s.warp w).rdV x.d l) l := by
    intro l hl
    rw [List.getD_eq_getElem?_getD, vecRun_get _ _ _ _ _ _ _ hl]; rfl
  have hfault : s.defers w = true ∨ vecFault (s.warp w) (vecRun (s.warp w) x wd at_ n f) = none := by
    rcases hf with h | h
    · exact Or.inl h
    · right
      apply vecFault_none
      intro l hl hh o hout
      rw [vecRun_get _ _ _ _ _ _ _ hl] at hout
      have : o = _ := (Option.some.inj hout).symm
      rw [this, laneRun_eq]
      exact laneAcc_flags Flags.calm ⟨rfl, rfl, rfl, rfl⟩ Flags.calm_or _ (fun j hj he rg => h l j hl hj hh he rg)
  obtain ⟨b, h1, h2, h3, h4, h5⟩ := finishVec_ok x elig _ w s (vecRun_length _ _ _ _ _ _) hfault
  refine ⟨b, h1, h2, ?_, ?_, ?_, ?_, ?_, ?_, ?_⟩
  · intro m l hl hn
    rw [h3 m l hl, if_neg]
    rintro ⟨e1, e2⟩
    rcases hn with h | h
    · exact h e1
    · simp [e2] at h
  · intro hnw l j hl hj
    rw [h3 x.d l hl, if_pos ⟨rfl, hnw⟩, hget l hl, laneRun_eq]
    have hlt := laneAcc_lt (wp := s.warp w) (g := x.g) (vx := x.vx) (at_ := at_) (f := f)
      (old := (s.warp w).rdV x.d l) (l := l) n hfit
    unfold subOf
    rw [BitVec.toNat_ofNat, Nat.mod_eq_of_lt hlt, laneAcc_elem n j hj hinj]
    unfold elemVal
    rw [← laneAcc_done (wd := wd) (old := (s.warp w).rdV x.d l)]
  · intro hnw l k hl hk
    rw [h3 x.d l hl, if_pos ⟨rfl, hnw⟩, hget l hl, laneRun_eq]
    have hlt := laneAcc_lt (wp := s.warp w) (g := x.g) (vx := x.vx) (at_ := at_) (f := f)
      (old := (s.warp w).rdV x.d l) (l := l) n hfit
    unfold subOf
    rw [BitVec.toNat_ofNat, Nat.mod_eq_of_lt hlt]
    exact laneAcc_other n k hk
  · intro he; rw [h5, he]; rfl
  · intro he
    refine ⟨_, by rw [h5, he]; rfl, rfl, ?_⟩
    intro l j hl hj
    rw [laneOf_latchOfOuts _ (vecRun_length _ _ _ _ _ _) hl, hget l hl, laneRun_eq]
    have hlt := laneAcc_latch_lt (wp := s.warp w) (x := x) (wd := wd) (at_ := at_) (f := f)
      (old := (s.warp w).rdV x.d l) (l := l) n hfit
    unfold subOf
    rw [BitVec.toNat_ofNat, Nat.mod_eq_of_lt hlt]
    exact laneAcc_latch n j hj hinj
  · intro l hl
    rw [h4 l, if_neg (by omega)]
  · intro l hl
    have e := h4 l
    rw [if_pos hl, hget l hl, laneRun_eq, laneAcc_done] at e
    refine ⟨?_, ?_⟩
    · rw [e]; rfl
    · intro hh
      have hh : ((s.warp w).lane l).st ≠ .helper := by
        intro c; simp [Warp.isHelper, c] at hh
      rw [e]; simp [flaggedLane, hh]

theorem fits_id (wd : Nat) (j : Nat) (hj : j < 64 / wd) : wd * id j + wd ≤ 64 := by
  calc wd * id j + wd = wd * (j + 1) := by simp only [id]; ring
    _ ≤ wd * (64 / wd) := Nat.mul_le_mul_left _ hj
    _ ≤ 64 := Nat.mul_div_le 64 wd

/-- A vector instruction that runs element by element. -/
theorem vec_completes {i : Instr} {x : Alu} {elig : Bool} {wd : Nat} {at_ : Nat → Nat} {n : Nat} {f : Warp → ElemFn}
    (hfit : ∀ j, j < n → wd * at_ j + wd ≤ 64) (hinj : ∀ i j, i < n → j < n → at_ i = at_ j → i = j)
    (h : ∀ s, exec i s = onWarp i (fun w s =>
      finishVec x elig (vecRun (s.warp w) x wd at_ n (f (s.warp w))) w s) s) :
    VecCompletes i x elig wd at_ n f := by
  intro w s hi hf
  have hf' : NoArithFault (s.issued i w) w ((s.issued i w).warp w) x at_ n (f ((s.issued i w).warp w)) := by
    unfold NoArithFault at hf ⊢
    rw [defers_issued]
    exact hf
  obtain ⟨b, h1, h2⟩ := finishVec_done x elig wd at_ n (f ((s.issued i w).warp w)) w (s.issued i w) hfit hinj hf'
  refine ⟨_, ?_, onlyWarp_issued s i w b, ?_⟩
  · rw [h]; exact onWarp_ok hi h1
  · rw [State.warp_setWarp_same]; exact h2

/-- One with as many elements as its width gives. -/
theorem vecOp_completes {i : Instr} {x : Alu} {elig : Bool} {wd : Nat} {f : Warp → ElemFn}
    (h : ∀ s, exec i s = onWarp i (vecOp x elig wd f) s) : VecCompletes i x elig wd id (64 / wd) f :=
  vec_completes (fits_id wd) (fun _ _ _ _ e => e) h

/-! ## Scalar instructions -/

theorem finishScalar_done (x : Alu) (elig : Bool) (r : Word) (a : Warp) :
    ScalarDone x.d x.nowb elig r a (a.finishScalar x elig r) := by
  have h1 := fun k => rdS_wrS a x.d k r
  have h2 : (a.wrS x.d r).latches = a.latches := by rw [wrS_eq]
  unfold ScalarDone Warp.finishScalar
  have h3 := wrS_eq a x.d r
  generalize a.wrS x.d r = q at *
  cases x.nowb <;> cases elig <;> simp only [Bool.false_eq_true, if_false, if_true, and_true]
  · refine ⟨by rw [h3], fun n => ?_, h2⟩
    rw [h1]; by_cases h : n = x.d <;> simp [h]
  · refine ⟨by rw [h3], fun n => ?_, by rw [h2]⟩
    show q.rdS n = _
    rw [h1]; by_cases h : n = x.d <;> simp [h]
  · exact ⟨trivial, fun n => by simp⟩
  · exact ⟨trivial, fun n => by simp; rfl⟩

theorem scalar_completes {i : Instr} {x y : Alu} {elig : Bool} {r : (Opnd → Word) → Word} {g : Guard} {m} (hg : g = x.g)
    (hy : y.nowb = x.nowb)
    (h : ∀ s, exec i s = onEither i (uniform g (fun w s => finishScalarOp y elig (r (s.warp w).opndS, {}) w s)) m s) :
    ScalarCompletes i x y.d elig r := by
  intro w s hi ha
  subst hg
  rw [h, onEither_warp hi.1]
  refine ⟨(s.issued i w).setWarp w ((s.atIssue i w).finishScalar y elig (r (s.atIssue i w).opndS)), ?_, onlyWarp_issued s i w _, ?_⟩
  · apply onWarp_ok hi
    simp only [uniform, Warp.anyActive, issued_warp, finishScalarOp]
    simp [ha]
  · rw [State.warp_setWarp_same, ← hy]; exact finishScalar_done y elig _ _

theorem scalar_completes' {i : Instr} {x : Alu} {elig full : Bool} {f : IntFn}  {m}
    (hz : ∀ rd, (scalarCompute rd x full f).2.idz = false)
    (h : ∀ s, exec i s = onEither i (intScalar x elig full f) m s) :
    ScalarCompletes i x x.d elig (fun rd => (scalarCompute rd x full f).1) := by
  intro w s hi ha
  rw [h, onEither_warp hi.1]
  refine ⟨(s.issued i w).setWarp w ((s.atIssue i w).finishScalar x elig ((scalarCompute (s.atIssue i w).opndS x full f).1)), ?_, onlyWarp_issued s i w _, ?_⟩
  · apply onWarp_ok hi
    simp only [intScalar, uniform, Warp.anyActive, issued_warp, finishScalarOp]
    simp [ha, hz]
  · rw [State.warp_setWarp_same]; exact finishScalar_done x elig _ _

theorem mcc_completes {i : Instr} {d : Nat} {r : (Opnd → Word) → Word} {b}
    (h : ∀ s, exec i s = onEither i b (fun k s => .ok (s.setMcc k ((s.mcc k).wrS d (r (s.mcc k).opnd)))) s) :
    MccCompletes i d r := by
  intro k s hi
  rw [h, onEither_mcc hi]
  refine ⟨_, onMcc_ok hi rfl, ⟨rfl, ?_⟩, ?_, ?_⟩
  · intro j hj
    rw [State.mcc_setMcc_ne _ _ _ _ hj, State.mcc_setMcc_ne _ _ _ _ hj]
  · simp only [State.mcc_setMcc_same]
    unfold Mcc.wrS; split <;> rfl
  · intro n
    simp only [State.mcc_setMcc_same]
    rw [Mcc.rdS_wrS]
    by_cases hn : n = d <;> simp [hn] <;> rfl

theorem mcc_completes' {i : Instr} {x : Alu} {full : Bool} {f : IntFn} {b}
    (hz : ∀ rd, (scalarCompute rd x full f).2.idz = false)
    (h : ∀ s, exec i s = onEither i b (intMcc x full f) s) :
    MccCompletes i x.d (fun rd => (scalarCompute rd x full f).1) := by
  intro k s hi
  rw [h, onEither_mcc hi]
  refine ⟨(s.setMcc k { s.mcc k with pc := (s.mcc k).npc, xfer := none }).setMcc k (({ s.mcc k with pc := (s.mcc k).npc, xfer := none } : Mcc).wrS x.d (scalarCompute (s.mcc k).opnd x full f).1), onMcc_ok hi ?_, ⟨rfl, ?_⟩, ?_, ?_⟩
  · unfold intMcc
    simp only [State.mcc_setMcc_same]
    have := hz ({ s.mcc k with pc := (s.mcc k).npc, xfer := none } : Mcc).opnd
    rw [this]; rfl
  · intro j hj
    rw [State.mcc_setMcc_ne _ _ _ _ hj, State.mcc_setMcc_ne _ _ _ _ hj]
  · simp only [State.mcc_setMcc_same]
    unfold Mcc.wrS; split <;> rfl
  · intro n
    simp only [State.mcc_setMcc_same]
    rw [Mcc.rdS_wrS]
    by_cases hn : n = x.d <;> simp [hn] <;> rfl

end Sys2Proof.Machine
end

