-- ==== Sys2Proof/Tests/Slice0.lean ====
section
/-!
SUPPORT. Tests of the model on the spec's own examples, ill-formed terms that the field checks refuse, and states that
meet the hypotheses of the statements.
-/
set_option Elab.async false

namespace Sys2Proof.Tests
open Sys2Proof Sys2Proof.Machine

/-! ## Small states -/

/-- Warp 1 of block 1 on core 0, its 32 threads in one group, about to issue; whole budgets. -/
def warpAt (f : Warp → Warp) : State :=
  let s := State.reset.placeWarp []
  { s.setWarp 1 (f { s.warp 1 with group := ones 32 }) with issuer := .warp 1 }

/-- The same under the fault mode defer. -/
def deferAt (f : Warp → Warp) : State :=
  let s := warpAt f
  s.setBlock 1 { s.block 1 with rcd := { (s.block 1).rcd with df := true } }

/-- Matrix control core 0 with its instance of one block, about to issue. -/
def mccAt (f : Mcc → Mcc) : State :=
  let s := State.reset.placeMcc []
  { s.setMcc 0 (f { s.mcc 0 with npc := 0x1008 }) with issuer := .mcc 0 }

/-- Slice core 0 with a running handler of tenant 0, whose window is the first 64 KiB. -/
def handlerAt (f : Slice → Slice) : State :=
  let s := State.reset.placeHandler 0
  let c := s.slice 0
  { s.setSlice 0 (f (c.setTenant 0 { c.tenant 0 with td3 := BitVec.ofNat 64 (2 ^ 32) })) with issuer := .slice 0 }

/-- The next state of an answer. -/
def out (a : Answer) : State :=
  match a with
  | .next t => t
  | _ => State.reset

/-- Warp 1 after an instruction. -/
def after (i : Instr) (f : Warp → Warp) : Warp := (out (exec i (warpAt f))).warp 1

/-- Words of a stream as parcels. -/
def word (w : Nat) : List Nat := [w / 2 ^ 32, w % 2 ^ 32]

/-! ## Ill-formed terms (R3, R16, R17, R20–R25, R31, R40 and the field tables of each class) -/

/-- Every term of a list fails a check. -/
def refused (sd : Side) (l : List Instr) : Bool := l.all (fun i => !i.wf sd)

theorem test_illFormed_fields : refused .vector
    [.add true { d := 1024 }, .add true { a := .latch 4 }, .add true { b := .imm (.short (2 ^ 20)) },
     .add true { b := .imm (.long (2 ^ 48)) }, .add true { b := .bcast (.reg 1024) }, .add true { g := { p := 16 } },
     .add true { fmt := 8 }, .add true { vx := { m := 16 } }, .add true { b := .imm (.short 0), c := .reg 1 },
     .nop { d := 1024 }, .br { off := 2 ^ 24 }, .strq { b := 1024 }, .ld { strm := 8 }, .ld { after := 256 }, .ld { sz := 8 },
     .ld { off := .imm 1024 none }, .ld { off := .reg 0 (some (2 ^ 28)) }, .srd { sys := 65536 }] = true := by decide

theorem test_illFormed_uses : refused .vector
    [.movi true { a := .reg 1 }, .abs true { b := .opnd (.reg 1) }, .add true { c := .reg 1 }, .movi true { a := .latch 0 },
     .add true { c := .latch 0 }, .div true { nowb := true }, .add true { vx := { rm := .rtz } }, .fadd { vx := { sat := true } },
     .add false { vx := { z := true } }, .madw true { fmt := 6 }, .fadd { fmt := 4 }, .fdot2 { fmt := 1 }, .fdot4 { fmt := 0 },
     .cmp true { c := .reg 6 }, .cmp true { c := .reg 24 }, .cmp true { d := 16, b := .imm (.short 0) },
     .cmp false { c := .reg 8 }, .fcmp { c := .reg 32 }] = true := by decide

theorem test_illFormed_functions : refused .vector
    [.cvt { c := .reg 9 }, .cvt { c := .reg 0x120 }, .cvt { fmt := 1 }, .cvt { vx := { sat := true } },
     .cvtbPack { c := .reg 7 }, .cvtbUnpack { fmt := 1 }, .mov true { c := .reg 2 }, .mov false { c := .reg 1 },
     .lea true { c := .reg 8 }, .lea true { b := .imm (.short 0), fmt := 4 }, .xbcast { b := .imm (.short 256) },
     .xalign { c := .reg 257 }, .xrev { c := .reg 9 }, .xzip { c := .reg 2 }, .xunzip { c := .reg 2 }, .qswap { c := .reg 0 },
     .qbcast { c := .reg 4 }, .permt { fmt := 1 }, .permb { fmt := 1 }, .scan { c := .reg 64 }, .reduce { c := .reg 32 },
     .scan { c := .reg 22 }, .scan { c := .reg 16, fmt := 4 }, .scan { vx := { rm := .rtz } },
     .scan { c := .reg 1, vx := { sat := true } }, .ballot { fmt := 1 }, .vote { c := .reg 3 }, .first { c := .reg 2 },
     .popcp { c := .reg 2 }] = true := by decide

theorem test_illFormed_control : refused .vector
    [.br { a := 1 }, .br { cneg := true }, .call { cneg := true }, .brx { d := 1 }, .ret { d := 1 }, .join { sys := 1 },
     .exit { a := 1 }, .yield { d := 1 }, .nop { sys := 1 }, .plop 0 0 16 0 0 {}, .plop 0 0 0 0 256 {}, .pmov { b := 5 },
     .pmov { d := 16 }, .rett { g := { p := 1 } }, .yieldp { g := { neg := true } }, .trap { sys := 256 }, .trap { d := 1 }] =
    true := by decide

/-- Two slots on bank 1; three reads of bank 1; slot B reads what A writes; a latch that the P-word itself makes; and
slots that are ill-formed alone. -/
theorem test_illFormed_pairs : refused .vector
    [.pWord { op := .add, d := 1, a := .reg 2 } { op := .add, d := 5, a := .reg 3 },
     .pWord { op := .add, d := 1, a := .reg 5 } { op := .add, d := 2, a := .reg 9 },
     .pWord { op := .add, d := 1, a := .reg 2 } { op := .add, d := 2, a := .reg 1 },
     .pWord { op := .add, d := 1, a := .reg 2 } { op := .add, d := 2, a := .latch 0 },
     .pWord { op := .add, d := 256, a := .reg 2 } { op := .add, d := 3, a := .reg 4 },
     .pWord { op := .and, mod := true, d := 1, a := .reg 2 } { op := .add, d := 4, a := .reg 7 },
     .pWord { op := .fadd, fmt := 4, d := 1, a := .reg 2 } { op := .add, d := 4, a := .reg 7 },
     .pWord { op := .add, d := 1, a := .reg 2, nowb := true } { op := .add, d := 4, a := .reg 7 }] = true := by decide

theorem test_illFormed_memory : refused .vector
    [.ld { vx := { rm := .rtz } }, .ldu { vx := { z := true } }, .pf { strm := 1 }, .pf { d := 3 }, .icinv { sz := 4 },
     .icinv { scope := .sys }, .strq { c := 8 }, .smsg { sz := 1 }, .ldf { sz := 2 }, .awarm { sz := 2 }, .waitg { sz := 1 },
     .feset { c := 2 }, .feq { c := 1 }, .cjoin { b := 1 }, .cleave { a := 1 }, .atom .add { sz := 2 },
     .atom .add { vx := { z := true } }, .atom .add { off := .imm 0 none }, .atomnr .exch {}, .atomcas { vx := { m := 1 } },
     .fatom .min { sz := 3 }, .redv (.int .exch) {}, .redv (.float .add) { sz := 1 }, .cpy { sz := 1 }, .cpy { off := .imm 0 none },
     .cpyc { vx := { m := 1 } }, .fxfer { sz := 1 }, .coll { d := 1 }] = true := by decide

theorem test_illFormed_units : refused .vector
    [.accrd { c := 3 }, .accrdc { fmt := 1 }, .accrdc { c := 0x120 }, .launch { c := 0x70 }, .launch { c := 128 },
     .spawn { c := 16 }, .nodeq { b := 1 }, .flinkq { c := 1 }, .tokq { c := 6 }, .tokpr { c := 1 }, .ballastPf { b := 1 },
     .vminq { c := 1 }, .capq { c := 2 }, .rampq { c := 3 }, .sysrd { sys := 10 }, .sysrd { sys := 6 }, .syswrRng { sys := 6 },
     .syswrFflags { sys := 7, a := 1 }, .syswrTlbinv { sys := 0 }, .syswrResumepc { sys := 0 }, .srd { sys := 13 },
     .add false { d := 128 }, .plop 16 0 0 0 0 {}, .mswap {}] = true := by decide

theorem test_illFormed_mcc : refused .mcc
    [.mcfg 4 1 1 .rne, .mcfg 0 0 1 .rne, .mcfg 0 1 21 .rne, .mcfg 0 1 1 .dyn, .mlds { c := 16, d := 0 }, .mlds { d := 1 },
     .mstrm { c := 8 }, .mclr { a := 1 }, .mscl { c := 4 }, .mwaitg { c := 1 }, .marrive { c := 256 }, .mstat { c := 8 },
     .add true {}, .add false { nowb := true }, .add false { g := { p := 1 } }, .add false { a := .latch 0 },
     .br { g := { p := 1 } }, .ld {}, .mswap { g := { neg := true } }] = true := by decide

theorem test_illFormed_handler :
    ([.slrd { rs2 := 1 }, .slrd { f7 := 2 }, .slwr { rd := 1 }, .slwr { f7 := 16 }, .slpf { f7 := 1 }, .sldone { rs2 := 1 },
      .slqry { f7 := 1 }, .slbud { rs1 := 1 }, .handlerBaseInstruction (.base (.lui 0 (2 ^ 20))),
      .handlerBaseInstruction (.base (.opImm .add 1 1 2048)), .handlerBaseInstruction (.base (.load ⟨4, false⟩ 1 1 0)),
      .handlerBaseInstruction (.base (.branch .eq 1 1 1)), .handlerBaseInstruction (.comp (.lui 2 1)),
      .handlerBaseInstruction (.comp (.addi4spn 8 0)), .handlerBaseInstruction (.comp (.jr 0))] : List Instr).all
      (fun i => !i.fieldsOk) = true := by decide

/-- The checks refuse no more than they should: neighbours of the terms above. -/
theorem test_wellFormed : ([.add true { d := 1023, a := .latch 3 }, .add true { b := .imm (.long (2 ^ 48 - 1)) },
    .cmp true { c := .reg 21 }, .fdot4 { fmt := 2 }, .scan { c := .reg 50, fmt := 3 }, .xalign { c := .reg 256 },
    .pWord { op := .add, d := 1, a := .reg 2 } { op := .fadd, d := 4, a := .reg 7 }, .plop 15 15 15 15 255 {},
    .atom .exch { sz := 1 }, .launch { c := 0x6F }, .trap { sys := 255 }, .accrdc { c := 0x280, fmt := 4 }] : List Instr).all
      (fun i => i.wf .vector) = true := by decide

/-! ## Decoding: words that the spec writes out -/

/-- R70, R58: brp p1, low and br merge of the example. -/
theorem test_decode_brp : decodeParcels .vector (word 0x28200400000000C0) = .ok (.brp { a := 1, off := 6 }) := rfl
theorem test_decode_br : decodeParcels .vector (word 0x2800000000000080) = .ok (.br { off := 4 }) := rfl
theorem test_decode_join : decodeParcels .vector (word 0x2860000000000000) = .ok (.join {}) := rfl
theorem test_decode_exit : decodeParcels .vector (word 0x2870000000000000) = .ok (.exit {}) := rfl
/-- R96: the compare of the clamp example, cond lt. -/
theorem test_decode_cmp : decodeParcels .vector (word 0x0B20080200A01004) =
    .ok (.cmp true { d := 2, a := .reg 4, b := .opnd (.reg 5), c := .reg 2, fmt := 4 }) := rfl
/-- After R116, R119, R121. -/
theorem test_decode_cvt : decodeParcels .vector (word 0x1A00200200040003) =
    .ok (.cvt { d := 8, a := .reg 4, c := .reg 0x80, fmt := 3 }) := rfl
theorem test_decode_pack : decodeParcels .vector (word 0x1A20500300003000) =
    .ok (.cvtbPack { d := 20, a := .reg 6, c := .reg 6 }) := rfl
theorem test_decode_ffma : decodeParcels .vector [0xC0500000, 0x10702805, 0x80806003] =
    .ok (.ffma { vx := { rm := .stoch }, d := 10, a := .reg 11, b := .bcast (.reg 4), c := .reg 12, fmt := 3 }) := rfl
/-- R186: permt. -/
theorem test_decode_permt : decodeParcels .vector (word 0x2160240A00EC0000) =
    .ok (.permt { d := 9, a := .reg 20, b := .opnd (.reg 7), c := .reg 0x180 }) := rfl
/-- R219: waitg. -/
theorem test_decode_waitg : decodeParcels .vector (word 0x3910280020080100) =
    .ok (.waitg { d := 10, off := .imm 0x100 none, strm := 2, scope := .block }) := rfl
/-- R294: mcfg 0, bf16, bf16, which no warp decodes. -/
theorem test_decode_mcfg : decodeParcels .mcc (word 0x5000000000C60000) = .ok (.mcfg 0 3 3 .rne) := rfl
theorem test_decode_mcfg_side : (match decodeParcels .vector (word 0x5000000000C60000) with
    | .ok _ => false
    | .error e => e.cause == 0x020) = true := rfl
/-- R272: spawn s9, p3, v40, s14. -/
theorem test_decode_spawn : decodeParcels .vector (word 0x5820241401C01800) = .ok (.spawn { d := 9, a := 40, b := 14, c := 3 }) :=
  rfl
/-- After R376: coll. -/
theorem test_decode_coll : decodeParcels .vector (word 0x6040000A000C0700) =
    .ok (.coll { a := 20, strm := 3, after := 1, scope := .sys }) := rfl
/-- R397, R412: tokq s6, 3 and ballast.stage s15, s40. -/
theorem test_decode_tokq : decodeParcels .vector (word 0x6800180000001800) = .ok (.tokq { d := 6, c := 3 }) := rfl
theorem test_decode_ballast : decodeParcels .vector (word 0x68303C1400000800) = .ok (.ballastStage { d := 15, a := 40 }) := rfl
/-- R434: sysrd s30, SYS_CAUSE; syswr SYS_FFLAGS, v4; trap 5. -/
theorem test_decode_sysrd : decodeParcels .vector (word 0x7000780000000000) = .ok (.sysrd { d := 30 }) := rfl
theorem test_decode_syswr : decodeParcels .vector (word 0x7010000400060000) = .ok (.syswrFflags { a := 4, sys := 6 }) := rfl
theorem test_decode_trap : decodeParcels .vector (word 0x7050000000050000) = .ok (.trap { sys := 5 }) := rfl
/-- R343: slarr a4, t1 and sldone t0. -/
theorem test_decode_slarr : decodeSlice 0x0067400B = .slarr { rs1 := 14, rs2 := 6 } := rfl
theorem test_decode_sldone : decodeSlice 0x0002D00B = .sldone { rs1 := 5 } := rfl

/-! ## Results: the spec's worked examples, and corners computed by hand from its rules -/

/-- R96: sub.s16.sat v8, v9, s3. -/
theorem test_sub : (after (.sub true { vx := { sat := true }, d := 8, a := .reg 9, b := .bcast (.reg 3), fmt := 2 })
    (fun a => (a.wrS 3 0x9000).wrV 9 0 0xF0001000)).rdV 8 0 = 0x7000700060007FFF := by decide +kernel

/-- R6: 0x7FF0 + 0x0020 in s16, wrapped. -/
theorem test_add : (after (.add true { d := 1, a := .reg 2, b := .opnd (.reg 3), fmt := 2 })
    (fun a => (a.wrV 2 31 0x7FF0).wrV 3 31 0x20)).rdV 1 31 = 0x8010 := by decide +kernel

/-- R89: the most negative value by −1, and a zero divisor under defer. -/
theorem test_div : (after (.div true { d := 1, a := .reg 2, b := .opnd (.reg 3), fmt := 6 })
    (fun a => (a.wrV 2 0 (2 ^ 63)).wrVs 3 (ones 32) (fun _ => BitVec.allOnes 64))).rdV 1 0 = 2 ^ 63 := by
  decide +kernel
theorem test_rem : ((out (exec (.rem true { d := 1, a := .reg 2, b := .opnd (.reg 3), fmt := 7 })
    (deferAt (fun a => a.wrV 2 4 77)))).warp 1).rdV 1 4 = 77 := by decide +kernel

/-- A halt for a division by zero (R89, R414): the warp stops with cause 0x040. -/
theorem test_div_halts : (after (.div true { d := 1, a := .reg 2, b := .opnd (.reg 3), fmt := 7 }) id).cause = 0x040 := by
  decide +kernel

/-- After R116: 500.0 becomes 0x7E in sub-element 6, with overflow and inexact set, and the rest stays. -/
theorem test_cvt :
    let w := (out (exec (.cvt { d := 8, a := .reg 4, c := .reg 0x80, fmt := 3 })
      (deferAt (fun a => (a.wrV 4 0 0x43FA0000).wrV 8 0 0x1122334455667788)))).warp 1
    w.rdV 8 0 = 0x007E334455667788 ∧ (w.lane 0).fflags &&& 0x1F = 0x14 := by decide +kernel

/-- After R119: cvtb.pack.pb4 of 3.0, 1.25 and −0.2. -/
theorem test_pack :
    let w := after (.cvtbPack { d := 20, a := .reg 6, c := .reg 6 })
        (fun a => (a.wrV 6 0 0x3FA0000040400000).wrV 6 1 0xBE4CCCCD)
    w.rdV 20 0 = 0x947 ∧ w.rdV 20 31 = 0x70 := by decide +kernel

/-- After R121: ffma.bf16.stoch of 1.0 × 1.0 + 2^−9 with generator 1. -/
theorem test_ffma :
    let i := Instr.ffma { vx := { rm := .stoch }, d := 10, a := .reg 11, b := .bcast (.reg 4), c := .reg 12, fmt := 3 }
    let w := after i
        (fun a => (((a.wrS 4 0x3F80).wrV 11 0 0x3F80).wrV 12 0 0x3B00).mapLanes 1 (fun _ x => { x with rng := 1 }))
    subOf (w.rdV 10 0) 16 0 = 0x3F81 := by decide +kernel

/-- After R186: the validator's xalign and permt. -/
theorem test_xalign : (after (.xalign { d := 7, a := .reg 3, b := .opnd (.reg 2), c := .reg 3 })
    (fun a => (a.wrV 3 0 0x0706050403020100).wrVs 2 (ones 32) (fun _ => 0xEEEEEEEEEEEEEEEE))).rdV 7 0 =
    0x0403020100EEEEEE := by decide +kernel
theorem test_permt : (after (.permt { d := 9, a := .reg 20, b := .opnd (.reg 7), c := .reg 0x180 })
    (fun a => ((a.wrVs 20 (ones 32) (fun _ => 0x7060504030201000)).wrVs 21 (ones 32) (fun _ => 0xF0E0D0C0B0A09080)).wrV 7 1
      0x0C0B0A0908070605)).rdV 9 1 = 0xC0B0A09080706050 := by decide +kernel

/-- R188: 1.0 and then 2^−11: every prefix is 1.0. -/
theorem test_scan : (after (.scan { d := 1, a := .reg 2, c := .reg 16, fmt := 2 })
    (fun a => (a.wrVs 2 (ones 32) (fun _ => 0x1000100010001000)).wrV 2 0 0x1000100010003C00)).rdV 1 31 =
    0x3C003C003C003C00 := by decide +kernel

/-- R189: the lowest byte that differs, and the majority of three predicates (R77). -/
theorem test_first : (after (.first { d := 5, a := .reg 1, c := .reg 1 }) (fun a => a.wrM 1 (2 ^ 200 + 2 ^ 77))).rdS 5 = 77 := by
  decide +kernel
theorem test_plop : (after (.plop 3 1 2 4 0xE8 {})
    (fun a => ((a.wrP 1 0xFF).wrP 2 0xF0F).wrP 4 0xFF000F0)).rdP 3 = 0xFF := by decide +kernel

/-- R70: brp.not p2 with offset −6: threads whose bit is 0 go back 24 bytes. -/
theorem test_brp :
    let w := after (.brp { a := 2, cneg := true, off := 0xFFFFFA })
        (fun a => { a.wrP 2 1 with pc := 0x1018, npc := 0x1020 })
    (w.lane 0).pc = 0x1020 ∧ (w.lane 1).pc = 0x1000 ∧ w.selDue = true := by decide +kernel

/-- R439: trap 5. -/
theorem test_trap : (after (.trap { sys := 5 }) id).cause = 0x105 := by decide +kernel

/-- R398: 80 tokens for the P-word; 16 at issue and 2,460 a row for the MSTRM. -/
theorem test_tokpr : (after (.tokpr { d := 1, a := 2 }) (fun a => a.wrS 2 0x8002048212050184)).rdS 1 = 80 := by decide +kernel
theorem test_tokpr_row : (after (.tokpr { d := 1, a := 2, b := 3 })
    (fun a => (a.wrS 2 0x5030200481400000).wrS 3 0x0303)).rdS 1 = 0x0000099C00000010 := by decide +kernel

/-- R228: 2^24, 1.0 and 1.0 on one word combine to 2^24. -/
theorem test_redv : (combine (redFn (.float .add) 2)
    [{ lane := 0, addr := 64, data := 0x4B800000 }, { lane := 1, addr := 64, data := 0x3F800000 },
     { lane := 2, addr := 64, data := 0x3F800000 }] []).map (fun e => (e.lane, e.data)) = [(0, 0x4B800000)] := by
  decide +kernel

/-- After R299: 2^24 and 31 ones in one slice give 2^24 + 31, rounded to nearest even 0x4B80_0010. -/
theorem test_mstrm : (accFloat .rne 0 ((List.range 4).map (fun j => (List.range 32).map (fun q =>
    (matVal 3 (if j = 0 then (if q = 0 then 0x4B80 else 0x3F80) else 0), .fin false 1 1, matVal 3 0x3F80, .fin false 1 1))))).1 =
    0x4B800010 := by decide +kernel

/-- After R374: a bf16 add of 256.0, 1.0, 1.0 and +0 gives 0x4381. -/
theorem test_coll : collElem 1 0 [0x4380, 0x3F80, 0x3F80, 0] = 0x4381 := by decide +kernel

/-- R208: a word with target 4 and ar set takes 6 arrivals: it crosses once and 2 remain. -/
theorem test_arrive :
    let a := ({ count := 0, target := 4, gen := 7, ar := true, err := false, scope := 0, high := 0 } : AWord).increment 6
    a.count = 2 ∧ a.gen = 8 ∧ a.target = 4 := by decide +kernel

/-- R123, R131: a bad alignment comes first, then an untranslated page. -/
theorem test_ld_misaligned : (after (.ld { d := 1, a := 2, off := .reg 3 none, sz := 3 }) (fun a => a.wrS 2 4)).cause = 0x062 := by
  decide +kernel
theorem test_ld_untranslated : (after (.ld { d := 1, a := 2, off := .reg 3 none, sz := 3 }) id).cause = 0x060 := by
  decide +kernel

/-- R199: LDFE of a full scratchpad word returns it and leaves the tag empty. -/
theorem test_ldfe :
    let s := warpAt (fun a => { a.wrV 3 0 8 with group := 1 })
    let b := s.block 1
    let t := out (exec (.ldfe { d := 1, off := .reg 3 none, sz := 3, strm := 1 })
      ((s.setBlock 1 { b with scratch := b.scratch.writeBytes 8 (bytesOf 8 0xABCD), tags := b.tags.set false 1 true })))
    (t.warp 1).rdV 1 0 = 0xABCD ∧ t.tagAt 1 8 = false := by decide +kernel

/-- R435: sr.lane in each lane. -/
theorem test_srd : (after (.srd { d := 1, sys := 0 }) id).rdV 1 17 = 17 := by decide +kernel

/-- R338: a byte store below a word of the handler's buffer; R351: addi t1, t0, 1 counts one slice cycle. -/
theorem test_slwr :
    let c := (out (exec (.slwr { rs1 := 12, rs2 := 6, f7 := 4 })
      (handlerAt (fun c => (c.wr 12 0).wr 6 0x00AB0000)))).slice 0
    c.buffer.get none 2 = some 0xAB ∧ c.buffer.get none 0 = none ∧ c.count = 1 := by decide +kernel
theorem test_addi :
    let c := (out (exec (.handlerBaseInstruction (.base (.opImm .add 6 5 1)))
      (handlerAt (fun c => c.wr 5 0xFFFFFFFF)))).slice 0
    c.rd 6 = 0 ∧ c.count = 1 ∧ c.pc = 4 := by decide +kernel

/-- R300: an MWAITG on generation 0 goes on at once. -/
theorem test_mwaitg : (out (exec (.mwaitg {}) (mccAt id))).mcc 0 =
    { (mccAt id).mcc 0 with pc := 0x1008, xfer := none } := by decide +kernel

/-- The very next step runs an instruction that is placed: exit ends the warp's threads. -/
theorem test_step : ((out (step (State.reset.withFetchWord 64 0x28700000))).warp 1).allExited = true := by decide +kernel

/-! ## Witnesses: for each statement that has hypotheses, states and operands that meet them together -/

/-- Three operands in registers of their own. -/
def abc : Alu := { d := 1, a := .reg 2, b := .opnd (.reg 3), c := .reg 4 }

/-- Instructions issue for warp 1. -/
def allIssue (s : State) (l : List Instr) : Prop := ∀ i ∈ l, Issues 1 i s

/-- The form of `Issues` that evaluates. -/
theorem allIssue_of {s : State} {l : List Instr} (h : s.issuer = .warp 1)
    (k : (l.all fun i => (issueFault i ((s.warp 1).beginIssue i)).isNone) = true) : allIssue s l := by
  intro i hi
  exact ⟨h, Option.isNone_iff_eq_none.mp (List.all_eq_true.mp k i hi)⟩

theorem witness_VectorIntegerResult : (deferAt id).defers 1 = true ∧
    allIssue (deferAt id) (Claims.intOps.map (fun e => e.instr true abc) ++
      [.sel true abc, .mov true abc, .madw true abc, .lea true abc]) :=
  ⟨by decide +kernel, allIssue_of rfl (by decide +kernel)⟩

/-- Under halt: no element of an ADD raises a flag that faults, whatever the generators. -/
theorem witness_NoArithFault : (warpAt id).defers 1 = false ∧
    NoArithFault (warpAt id) 1 ((warpAt id).atIssue (.and true abc) 1) abc id 2
      (intElem abc false (wrapFn patAnd) ((warpAt id).atIssue (.and true abc) 1)) := by
  refine ⟨by decide +kernel, .inr ?_⟩
  intro l j _ _ _ _ rg
  exact ⟨rfl, rfl, rfl, rfl⟩

theorem witness_ScalarIntegerResult : ((warpAt id).atIssue (.add false abc) 1).active {} ≠ 0 ∧
    IssuesMcc 0 (mccAt id) ∧ (∀ y, Instr.add false abc ≠ .div false y) ∧ (∀ y, Instr.add false abc ≠ .rem false y) ∧
    allIssue (warpAt id) (Claims.intOps.map (fun e => e.instr false abc) ++
      [.sel false abc, .mov false abc, .madw false abc, .lea false abc, .cmp false abc]) :=
  ⟨by decide +kernel, by unfold IssuesMcc; decide +kernel, by simp, by simp, allIssue_of rfl (by decide +kernel)⟩

/-- A divisor of 1, and of 0 under either fault mode; in a warp and in a matrix control core. -/
theorem witness_ScalarDivision :
    let one := warpAt (fun a => a.wrS 3 1)
    allIssue one [.div false abc, .rem false abc] ∧ allIssue (deferAt id) [.div false abc, .rem false abc] ∧
    allIssue (warpAt id) [.div false abc, .rem false abc] ∧
    (one.atIssue (.div false abc) 1).active {} ≠ 0 ∧
    valOf 0 (scalarB (one.atIssue (.div false abc) 1).opndS abc.b) ≠ 0 ∧
    valOf 0 (scalarB ((deferAt id).atIssue (.div false abc) 1).opndS abc.b) = 0 ∧ (deferAt id).defers 1 = true ∧
    valOf 0 (scalarB ((warpAt id).atIssue (.rem false abc) 1).opndS abc.b) = 0 ∧ (warpAt id).defers 1 = false ∧
    valOf 0 (scalarB ((mccAt (fun m => m.wrS 3 1)).mcc 0).opnd abc.b) ≠ 0 ∧
    valOf 0 (scalarB ((mccAt id).mcc 0).opnd abc.b) = 0 :=
  ⟨allIssue_of rfl (by decide +kernel), allIssue_of rfl (by decide +kernel), allIssue_of rfl (by decide +kernel),
   by decide +kernel⟩

theorem witness_IntegerFunctions : (7 : Nat) < 8 ∧ 2 ^ 64 - 1 < 2 ^ intWidth 7 ∧ 0 < intWidth 7 := by decide

/-- At both limits and one beyond each, in int8 and uint64. -/
theorem witness_SaturationLimits :
    (intMin 0 ≤ -128 ∧ (-128 : Int) ≤ intMax 0) ∧ (-129 : Int) < intMin 0 ∧ intMax 0 < 128 ∧
    (intMin 7 ≤ 0 ∧ (2 ^ 64 - 1 : Int) ≤ intMax 7) ∧ (-1 : Int) < intMin 7 ∧ intMax 7 < 2 ^ 64 := by decide +kernel

/-- A predicate of the lane's all, of its any, and a mask; the fixed p0. -/
theorem witness_CompareResult :
    let x (c d : Nat) : Alu := { d := d, a := .reg 2, b := .opnd (.reg 3), c := .reg c }
    allIssue (warpAt id) [.cmp true (x 0 15), .cmp true (x 16 15), .cmp true (x 8 15), .cmp true (x 0 0)] ∧
    (x 0 15).cmpDest true = ⟨.p, 15⟩ ∧ (x 8 15).cmpDest true = ⟨.m, 15⟩ ∧ (x 0 0).cmpDest true = ⟨.p, 0⟩ :=
  ⟨allIssue_of rfl (by decide +kernel), by decide +kernel⟩

theorem witness_VectorFloatResult : (deferAt id).defers 1 = true ∧
    allIssue (deferAt id) (([.fadd, .fsub, .fmul, .ffma, .frnd, .fscale, .fdot2, .fdot4, .fdiv, .fsqrt, .frcp, .frsq, .fexp2,
      .flog2, .fsin, .fcos, .ftanh, .fmin, .fmax, .fabs, .fneg, .fclass] : List (Alu → Instr)).map (fun i => i abc)) :=
  ⟨by decide +kernel, allIssue_of rfl (by decide +kernel)⟩

/-- The largest finite value of each format is in the range of the last clause. -/
theorem witness_Rounding : (∀ f ∈ [f32, f16, bf16], f.maxPat < 2 ^ (f.e + f.m + 1) ∧ (f.decode f.maxPat).isNan = false) ∧
    lessVal (f16.decode f16.maxPat) (.fin false 65504 1) = false ∧
    lessVal (f32.decode f32.maxPat) (.fin false ((2 ^ 24 - 1) * 2 ^ 104) 1) = false ∧
    lessVal (bf16.decode bf16.maxPat) (.fin false ((2 ^ 8 - 1) * 2 ^ 120) 1) = false := by decide +kernel

/-- What an element-wise instruction raises in each lane of a warp. -/
def raised (i : Instr) (x : Alu) (n : Nat) (f : Warp → ElemFn) (g : Warp → Warp) (k : Nat) : Flags :=
  let a := (warpAt g).atIssue i 1
  (elemsDone a x id (f a) k n).1

/-- Division by zero in lane 31 alone; invalid there and no division by zero; a pole there; an overflow there. -/
theorem witness_ArithmeticFaults :
    let z := fun (a : Warp) => a.wrVs 3 (ones 31) (fun _ => BitVec.allOnes 64)
    let q := fun (a : Warp) => a.wrV 2 31 0xBF800000
    let p := fun (a : Warp) => (a.wrVs 3 (ones 31) (fun _ => 0x3F8000003F800000)).wrV 2 31 0x3F8000003F800000
    let o := fun (a : Warp) => (a.wrV 2 31 0x7F7FFFFF).wrV 3 31 0x7F7FFFFF
    let x : Alu := { abc with fmt := 6 }
    let y : Alu := { abc with fmt := 0 }
    let D := raised (.div true x) x (64 / intWidth x.fmt) (intElem x false divFn) z
    let S := raised (.fsqrt y) y (64 / floatWidth y.fmt) (floatOpElem y (opUn sqrtVal) 1) q
    let P := raised (.fdiv y) y (64 / floatWidth y.fmt) (floatOpElem y opDiv 2) p
    let O := raised (.fadd y) y (64 / floatWidth y.fmt) (floatOpElem y opAdd 2) o
    allIssue (warpAt z) [.div true x] ∧ allIssue (warpAt q) [.fsqrt y] ∧ allIssue (warpAt p) [.fdiv y] ∧
    allIssue (warpAt o) [.fadd y] ∧
    ((∀ k, k < 31 → (D k).idz = false) ∧ (D 31).idz = true) ∧
    ((∀ k, k < 32 → (S k).idz = false) ∧ (∀ k, k < 31 → (S k).invalid = false) ∧ (S 31).invalid = true) ∧
    ((∀ k, k < 32 → (P k).idz = false ∧ (P k).invalid = false) ∧ (∀ k, k < 31 → (P k).dz = false) ∧ (P 31).dz = true) ∧
    (∀ k, k < 32 → (O k).idz = false ∧ (O k).invalid = false ∧ (O k).dz = false) ∧
    (∀ k, k < 31 → (O k).overflow = false) ∧ (O 31).overflow = true :=
  ⟨allIssue_of rfl (by decide +kernel), allIssue_of rfl (by decide +kernel), allIssue_of rfl (by decide +kernel),
   allIssue_of rfl (by decide +kernel), by decide +kernel⟩

theorem witness_FloatCompareResult :
    let x (c : Nat) : Alu := { d := 15, a := .reg 2, b := .opnd (.reg 3), c := .reg c }
    allIssue (deferAt id) [.fcmp (x 0), .fcmp (x 8)] ∧ (deferAt id).defers 1 = true ∧
    (x 0).cmpDest true = ⟨.p, 15⟩ ∧ (x 8).cmpDest true = ⟨.m, 15⟩ :=
  ⟨allIssue_of rfl (by decide +kernel), by decide +kernel⟩

theorem witness_ConversionResult :
    let x : Alu := { d := 1, a := .reg 2, c := .reg 0x80, fmt := 3 }
    let u : Alu := { d := 1, a := .reg 2 }
    (Instr.cvt x).fieldsOk = true ∧ allIssue (deferAt id) [.cvt x, .cvtbUnpack u] ∧ (deferAt id).defers 1 = true :=
  ⟨by decide +kernel, allIssue_of rfl (by decide +kernel), by decide +kernel⟩

/-- No thread Active (under p1 = 0); some Active, under defer, and with nothing that faults under halt. -/
theorem witness_PackResult :
    let x : Alu := { d := 1, a := .reg 2, c := .reg 6 }
    let g : Alu := { x with g := { p := 1 } }
    let fl := fun (l : Nat) => (Claims.packElemOf ((warpAt id).atIssue (.cvtbPack x) 1) x (2 * l)).2.1.or
      (Claims.packElemOf ((warpAt id).atIssue (.cvtbPack x) 1) x (2 * l + 1)).2.1
    allIssue (warpAt id) [.cvtbPack x, .cvtbPack g] ∧ (Instr.cvtbPack x).fieldsOk = true ∧
    (Instr.cvtbPack g).fieldsOk = true ∧ ((warpAt id).atIssue (.cvtbPack g) 1).active g.g = 0 ∧
    ((warpAt id).atIssue (.cvtbPack x) 1).active x.g ≠ 0 ∧
    ∀ l, l < 32 → (fl l).invalid = false ∧ (fl l).dz = false ∧ (fl l).overflow = false :=
  ⟨allIssue_of rfl (by decide +kernel), by decide +kernel⟩

/-- XPUT with every index 0: the element of lane 0 is hit, last by that of lane 31, and lane 1's by none. -/
theorem witness_RearrangementResult :
    let x : Alu := { abc with fmt := 6 }
    let a := (deferAt id).atIssue (.xput x) 1
    let hits := fun (l k i : Nat) => i < 256 ∧ i % 8 < 64 / 64 ∧ a.enabled x.g x.vx.m (i / 8) (i % 8) = true ∧
      a.srcB x.b (fun _ => 0) 64 (i / 8) (i % 8) % 256 = 8 * l + k
    allIssue (deferAt id) ((([.xrot, .xshift, .xalign, .xrev, .xzip, .xunzip, .xbcast, .qswap, .qbcast, .xget, .permt, .permb,
      .xput] : List (Alu → Instr)).map (fun i => i x))) ∧ (deferAt id).defers 1 = true ∧ x.nowb = false ∧
    hits 0 0 248 ∧ (∀ i, i < 256 → hits 0 0 i → i ≤ 248) ∧ ∀ i, i < 256 → ¬ hits 1 0 i :=
  ⟨allIssue_of rfl (by decide +kernel), by decide +kernel⟩

theorem witness_ScanReduceResult :
    let x : Alu := { d := 1, a := .reg 2, fmt := 7 }
    allIssue (deferAt id) [.scan x, .reduce x] ∧ x.nowb = false ∧ x.fmt < 8 ∧ (deferAt id).defers 1 = true ∧
    ((deferAt id).atIssue (.reduce x) 1).active x.g ≠ 0 :=
  ⟨allIssue_of rfl (by decide +kernel), by decide +kernel⟩

/-- A bit counted, the last of a mask; and none, for p1 = 0. -/
theorem witness_VoteResult :
    let x : Alu := { d := 1, a := .reg 1, c := .reg 1 }
    let z : Alu := { x with c := .reg 0 }
    let s := warpAt (fun a => a.wrM 1 (2 ^ 255))
    let a := s.atIssue (.first x) 1
    allIssue s [.ballot z, .first x, .first z, .popcp x, .popcp z, .vote z, .vote x, .vote { x with c := .reg 2 }] ∧
    a.active x.g ≠ 0 ∧ x.d ≠ 0 ∧ (a.enabled x.g x.vx.m 31 7 = true ∧ a.isHelper 31 = false ∧ (a.rdM 1).getLsbD 255 = true) ∧
    (∀ j, j < 255 → (a.rdM 1).getLsbD j = false) ∧ (∀ l, l < 32 → (a.rdP 1).getLsbD l = false) ∧ x.cNum < 3 :=
  ⟨allIssue_of rfl (by decide +kernel), by decide +kernel⟩

theorem witness_PairResult :
    let A : Slot := { op := .add, d := 1, a := .reg 2 }
    let B : Slot := { op := .fadd, d := 4, a := .reg 7 }
    allIssue (deferAt id) [.pWord A B] ∧ pairOk A B = true ∧ (deferAt id).defers 1 = true ∧
    A.nowb = false ∧ ∀ l, l < 32 →
      (Claims.slotFlags A ((warpAt id).atIssue (.pWord A B) 1) l).idz = false ∧
      (Claims.slotFlags B ((warpAt id).atIssue (.pWord A B) 1) l).invalid = false :=
  ⟨allIssue_of rfl (by decide +kernel), by decide, by decide +kernel, rfl, by decide +kernel⟩

theorem witness_BranchResult :
    let x : Br := { a := 1, off := 0xFFFFFF }
    allIssue (warpAt id) [.br x, .bru x, .brp x, .brx { a := 1 }, .ret { a := 1 }, .call x] := allIssue_of rfl (by decide +kernel)

theorem witness_MccControlResult : IssuesMcc 0 (mccAt id) := by unfold IssuesMcc; decide +kernel

/-- A state with one operation in flight of warp 1, as number 1. -/
def flyingAt (s : State) (o : Op) : State :=
  { s.setOp 1 { o with st := .flying, warp := 1, block := 1 } with nextOp := 2, nextSeq := 9 }

/-- JOIN with a store in flight waits for it. -/
theorem witness_JoinYieldNopResult :
    let s := flyingAt (warpAt id) { instr := some (.st {}), lanes := 1 }
    allIssue s [.join {}, .yield {}, .nop {}] ∧ ((out (exec (.join {}) s)).warp 1).blocking = .ops [1] :=
  ⟨allIssue_of rfl (by decide +kernel), by decide +kernel⟩

/-- Idle threads, one whose stream is not idle, and a quad that QHELP keeps because only lane 0 exits. -/
theorem witness_ExitResult :
    let s := warpAt id
    let busy := warpAt (fun a => { a with own := { a.own with issued := a.own.issued.set 0 (31 * 8) 1 } })
    let x : Sys := { g := { p := 1 } }
    let q := (warpAt (fun a => a.wrP 1 1)).setBlock 1 { (warpAt id).block 1 with rcd := { ((warpAt id).block 1).rcd with qh := true } }
    let a := q.atIssue (.exit x) 1
    allIssue s [.exit {}] ∧ allIssue busy [.exit {}] ∧ allIssue q [.exit x] ∧
    (s.warp 1).mode = .normal ∧ (s.atIssue (.exit {}) 1).idle 0 = true ∧ (busy.atIssue (.exit {}) 1).idle 31 = false ∧
    (q.warp 1).mode = .normal ∧ bit (a.active x.g) 0 = true ∧ a.isHelper 0 = false ∧
    (q.block a.block).rcd.qh = true ∧ a.standing 3 = true ∧ bit (a.active x.g) 3 = false ∧
    (a.lane 3).st ≠ .draining ∧ a.isHelper 3 = false :=
  ⟨allIssue_of rfl (by decide +kernel), allIssue_of rfl (by decide +kernel), allIssue_of rfl (by decide +kernel),
   by decide +kernel⟩

theorem witness_PredicateLogic : allIssue (warpAt id) [.plop 15 1 2 3 0xE8 {}, .plop 0 1 2 3 0xE8 { p := 1 }] :=
  allIssue_of rfl (by decide +kernel)

theorem witness_PredicateMoves :
    allIssue (warpAt id) ([0, 1, 2, 3, 4].map (fun k => .pmov { d := 1, a := 2, b := k })) ∧
    allIssue (warpAt id) [.plop 1 2 3 4 0 { p := 1 }] ∧
    bit (((warpAt id).atIssue (.plop 1 2 3 4 0 { p := 1 }) 1).active { p := 1 }) 31 = false :=
  ⟨allIssue_of rfl (by decide +kernel), allIssue_of rfl (by decide +kernel), by decide +kernel⟩

/-- A register just beyond the budget; a latch that holds nothing; the seventeenth of a chain; and none of these. -/
theorem witness_IssueRules :
    let s := warpAt (fun a => { a with vb := 64 })
    let beyond : Instr := .add true { d := 64 }
    let latch : Instr := .add true { d := 1, a := .latch 3 }
    let chain := warpAt (fun a => { a with chainLen := 16, inRun := true, latches := { l0 := .vector {} } })
    let reads : Instr := .add true { d := 1, a := .latch 0 }
    s.issuer = .warp 1 ∧ beyond.form.isSome = true ∧ beyond.mccOnly = false ∧ Claims.ready s beyond 1 = true ∧
    (∃ r ∈ beyond.budgeted .vector, r.kind = .v ∧ ((s.warp 1).beginIssue beyond).vb ≤ r.n) ∧
    Claims.ready s latch 1 = true ∧
    (∀ r ∈ latch.budgeted .vector, r.kind = .v → r.n < ((s.warp 1).beginIssue latch).vb) ∧
    (∃ r ∈ latch.latchReads, (((s.warp 1).beginIssue latch).latches.get r.2).serves r.1 = false) ∧
    Claims.ready chain reads 1 = true ∧
    (∀ r ∈ reads.latchReads, (((chain.warp 1).beginIssue reads).latches.get r.2).serves r.1 = true) ∧
    16 < ((chain.warp 1).beginIssue reads).chainLen := by decide +kernel

/-- A check has answered a value. -/
def okay {ε α σ : Type} (r : Except ε α × σ) : Bool :=
  match r.1 with
  | .ok _ => true
  | .error _ => false

theorem okay_of {ε α σ : Type} {r : Except ε α × σ} (h : okay r = true) : ∃ l s1, r = (.ok l, s1) := by
  obtain ⟨_ | l, s1⟩ := r
  · cases h
  · exact ⟨l, s1, rfl⟩

theorem fault_of {ε α σ : Type} {r : Except ε α × σ} (h : okay r = false) : ∃ f s1, r = (.error f, s1) := by
  obtain ⟨f | _, s1⟩ := r
  · exact ⟨f, s1, rfl⟩
  · cases h

/-- A check has answered just that value. -/
def okIs {ε α σ : Type} [DecidableEq α] (r : Except ε α × σ) (x : α) : Bool :=
  match r.1 with
  | .ok y => decide (y = x)
  | .error _ => false

theorem okIs_of {ε α σ : Type} [DecidableEq α] {r : Except ε α × σ} {x : α} (h : okIs r x = true) : ∃ s1, r = (.ok x, s1) := by
  obtain ⟨_ | y, s1⟩ := r
  · cases h
  · obtain rfl : y = x := of_decide_eq_true h
    exact ⟨s1, rfl⟩

def okFst {ε α : Type} [DecidableEq α] (r : Except ε α) (x : α) : Bool :=
  match r with
  | .ok y => decide (y = x)
  | .error _ => false

theorem okFst_of {ε α : Type} [DecidableEq α] {r : Except ε α} {x : α} (h : okFst r x = true) : r = .ok x := by
  cases r with
  | error _ => cases h
  | ok y => exact congrArg _ (of_decide_eq_true h)

/-- Page tables of ASID 0 that map the first 64 GiB by one leaf. -/
def mappedTo (leaf : Nat) (s : State) : State :=
  { s with
    roots := s.roots.set 0 0 0x4000
    mem := (s.mem.writeBytes 0x4000 (bytesOf 8 0x8001)).writeBytes 0x8000 (bytesOf 8 leaf) }

/-- The same, to themselves, readable, writable and executable. -/
def mapped (s : State) : State := mappedTo 0xF s

/-- An EXIT, an EXIT of a matrix control core and ADDI a4, t0, 1 where the next step finds them; and an event. -/
theorem witness_StepRunsDecoded :
    let s := State.reset.withFetchWord 64 0x28700000
    let t := (s.ticked 0).prepareSlot 0
    let m := State.reset.withFetchWord 64 0x50300000
    let n := (m.gang 1).blocks.foldl State.openBlock (m.ticked 0)
    let h := State.reset.withFetchWord 32 0x00128313
    (s.powered = true ∧ s.turn = .slot 0 ∧ Claims.Chosen t 0 1 ∧ (t.warp 1).groupPc = some (0x1000, true) ∧
      Claims.HoldsAt t (t.block (t.warp 1).block).core (t.asidOf 1) .vector 0x1000 (.exit {}) 0x1008 ∧
      t.mayIssue 1 (.exit {}) = true ∧ t.engineFull 1 (.exit {}) = false ∧ (t.chargeWarp 1 (Instr.exit {}).price).2 = true) ∧
    (m.powered = true ∧ m.turn = .mcc 0 ∧ m.mccRuns 0 = true ∧ (m.mcc 0).gang = some 1 ∧
      Claims.HoldsAt n 384 (n.job (n.block (n.member0 0)).job).asid .mcc (n.mcc 0).pc (.mstrm {}) 0x1008 ∧
      n.mccRoom (.mstrm {}) 0 = true ∧ (n.chargeMcc 0 (Instr.mstrm {}).price).2 = true) ∧
    (h.powered = true ∧ h.turn = .slice 0 ∧ (h.slice 0).st = .running ∧ (h.slice 0).count < (h.slice 0).budget ∧
      (h.slice 0).pc % 2 = 0 ∧ (h.slice 0).running.ibase ≤ (h.slice 0).pc ∧
      (h.slice 0).pc + sliceLen (ofBytes ((h.slice 0).imem.readBytes 4 (h.slice 0).pc)) ≤ (h.slice 0).running.ihi) ∧
    (∃ e, State.reset.turn = .event e ∧ e.isEvent = true ∧ State.reset.powered = true) := by
  refine ⟨⟨rfl, by decide +kernel, ?_, by decide +kernel, ?_, by decide +kernel⟩,
    ⟨rfl, by decide +kernel, by decide +kernel, by decide +kernel, ?_, by decide +kernel⟩, by decide +kernel,
    ⟨_, rfl, rfl, rfl⟩⟩
  · unfold Claims.Chosen
    decide +kernel
  · exact ⟨placedBlock [0x28700000, 0, 0, 0], ⟨0, 2, [], some 0x2870000000000000⟩, ⟨2, 2, [], some 0⟩, by decide,
      by decide +kernel, rfl, by decide +kernel, by decide +kernel, by decide, by decide, by decide +kernel, by decide, rfl⟩
  · exact ⟨placedBlock [0x50300000, 0, 0, 0], ⟨0, 2, [], some 0x5030000000000000⟩, ⟨2, 2, [], some 0⟩, by decide +kernel,
      by decide +kernel, rfl, by decide +kernel, by decide +kernel, by decide +kernel, by decide, by decide +kernel,
      by decide +kernel, rfl⟩

theorem witness_HaltTaken : ((warpAt id).warp 1).mode = .normal ∧
    ((warpAt (fun a => { a with mode := .handler })).warp 1).mode ≠ .normal := by decide +kernel

/-- In a handler whose operations have performed, and with one in flight; outside a handler; TRAP with and without an
Active thread. -/
theorem witness_HandlerEntryAndReturn :
    let h := warpAt (fun a => { a with mode := .handler })
    let r := warpAt (fun a => { a with mode := .resume })
    let n := warpAt id
    let b := flyingAt h { instr := some (.st {}), hset := true, lanes := 1, elems := [{}] }
    allIssue h [.rett {}, .yieldp {}] ∧ allIssue r [.rett {}] ∧ allIssue b [.rett {}, .yieldp {}] ∧
    allIssue n [.rett {}, .yieldp {}, .trap { sys := 255 }, .trap { g := { p := 1 } }] ∧
    (h.warp 1).mayReturn = true ∧ h.handlerDone 1 = true ∧ (h.block (h.warp 1).block).held = none ∧
    (h.block (h.warp 1).block).cancelDue = false ∧ (h.warp 1).mode = .handler ∧
    (r.warp 1).mayReturn = true ∧ r.handlerDone 1 = true ∧ (b.warp 1).mayReturn = true ∧ b.handlerDone 1 = false ∧
    (n.warp 1).mayReturn = false ∧ (n.warp 1).mode ≠ .handler ∧ (n.atIssue (.trap {}) 1).activeReal {} ≠ 0 ∧
    (n.atIssue (.trap {}) 1).activeReal { p := 1 } = 0 :=
  ⟨allIssue_of rfl (by decide +kernel), allIssue_of rfl (by decide +kernel), allIssue_of rfl (by decide +kernel),
   allIssue_of rfl (by decide +kernel), by decide +kernel⟩

/-- The highest legal resume PC and one that is no parcel's; TLBINV operands of both kinds, and one wrong in each way. -/
theorem witness_SystemRegisters :
    let n := warpAt id
    let h := fun (v : Nat) => warpAt (fun a => { a.wrS 2 (BitVec.ofNat 64 v) with mode := .handler })
    let x : Sys := { d := 1, a := 2 }
    let v := fun (s : State) => ((s.atIssue (.syswrResumepc x) 1).rdS 2).toNat
    allIssue n [.sysrd x, .srd { x with sys := 0x0C }, .srd { x with sys := 0x0A }, .syswrFflags x, .syswrRng x, .syswrResumepc x,
      .syswrTlbinv x] ∧ allIssue (h (2 ^ 57 - 4)) [.syswrResumepc x] ∧
    (n.atIssue (.sysrd x) 1).active {} ≠ 0 ∧ (n.atIssue (.sysrd x) 1).activeReal {} ≠ 0 ∧
    0x0C ∈ [0, 1, 0x0B, 0x0C] ∧ 0x0A ∉ [0, 1, 0x0B, 0x0C] ∧
    (n.atIssue (.syswrResumepc x) 1).mode = .normal ∧ ((h (2 ^ 57 - 4)).atIssue (.syswrResumepc x) 1).mode ≠ .normal ∧
    v (h (2 ^ 57 - 4)) % 4 = 0 ∧ v (h (2 ^ 57 - 4)) < 2 ^ 57 ∧ v (h 2) % 4 ≠ 0 ∧
    (∀ k ∈ [0, 2 ^ 62, 2 ^ 62 + 2 ^ 57 - 2 ^ 16], bits (v (h k)) 62 2 < 2 ∧ bits (v (h k)) 57 5 = 0 ∧ bits (v (h k)) 0 16 = 0) ∧
    (∀ c ∈ (h 0).ops.cells, c.2.st = .none ∨ c.2.warp ≠ 1) ∧
    2 ≤ bits (v (h (2 ^ 63))) 62 2 ∧ bits (v (h (2 ^ 57))) 57 5 ≠ 0 ∧ bits (v (h 1)) 0 16 ≠ 0 :=
  ⟨allIssue_of rfl (by decide +kernel), allIssue_of rfl (by decide +kernel), by decide +kernel⟩

/-- A warp whose pages map to themselves, s2 an address there, under p1 = lane 31 alone. -/
def memAt (va : Nat) (f : Warp → Warp) : State :=
  mapped (warpAt (fun a => f ((a.wrS 2 (BitVec.ofNat 64 va)).wrP 1 (2 ^ 31))))

def memX : Mem := { d := 4, a := 2, off := .reg 6 none, sz := 3, strm := 7, g := { p := 1 } }

/-- What the checks of an access find. -/
def checked (s : State) (i : Instr) (need : Need) (align : Nat) (elems : Warp → List Elem) : Except Trap (List Elem) × State :=
  (s.issued i 1).checkAll ((s.issued i 1).ctx 1) need align (s.atIssue i 1).isHelper (elems (s.atIssue i 1))

/-- The hypotheses of `AccessIssues` and of `AccessFaults`, but for issue; no thread drains. -/
def accessMeets (s : State) (i : Instr) (x : Mem) (need : Need) (align : Nat) (elems : Warp → List Elem) : Bool :=
  decide ((s.atIssue i 1).activeReal x.g ≠ 0) && decide (elems (s.atIssue i 1) ≠ []) &&
  decide ((s.atIssue i 1).mustStall i.uniformOp x.strm ((s.atIssue i 1).activeReal x.g) = 0) &&
  okay (checked s i need align elems) &&
  (List.range 32).all (fun l => ((s.atIssue i 1).lane l).st != .draining && !((s.atIssue i 1).lane l).st.isParked) &&
  decide ((s.warp 1).mode = .normal ∧ (s.warp 1).halted = false ∧ (s.warp 1).yielded = .no)

/-- Elements that pass and that fail; none, for an empty mask; and no Active thread, for p0 negated. -/
theorem witness_LaneAccessIssue :
    let s := memAt 0x20000 id
    let bad := memAt 0x20001 id
    let l := Claims.laneOps.take 4
    let none_ := { memX with vx := { m := 1 } }
    let idle := { memX with g := { p := 2 } }
    allIssue s (l.map (fun e => e.instr memX) ++ l.map (fun e => e.instr none_) ++ l.map (fun e => e.instr idle)) ∧
    allIssue bad (l.map (fun e => e.instr memX)) ∧ memX.strm < 8 ∧
    (∀ e ∈ l, accessMeets s (e.instr memX) memX e.need (e.bytes memX)
      (Claims.laneElems memX e.helpers (e.bytes memX) (e.cap memX)) = true) ∧
    (∀ e ∈ l, ∃ f s1, checked bad (e.instr memX) e.need (e.bytes memX)
      (Claims.laneElems memX e.helpers (e.bytes memX) (e.cap memX)) = (.error f, s1)) ∧
    (∀ e ∈ l, Claims.laneElems none_ e.helpers (e.bytes none_) (e.cap none_) (s.atIssue (e.instr none_) 1) = [] ∧
      (s.atIssue (e.instr none_) 1).activeReal none_.g ≠ 0 ∧ (s.atIssue (e.instr idle) 1).active idle.g = 0) :=
  ⟨allIssue_of rfl (by decide +kernel), allIssue_of rfl (by decide +kernel), by decide, by decide +kernel,
   fun e h => fault_of ((show ∀ e ∈ Claims.laneOps.take 4, okay (checked (memAt 0x20001 id) (e.instr memX) e.need (e.bytes memX)
      (Claims.laneElems memX e.helpers (e.bytes memX) (e.cap memX))) = false by decide +kernel) e h), by decide +kernel⟩

/-- The four accesses issue; the address of an element fails; the base of a block transfer is off its boundary; a stream
is full; no thread is Active; and no lane of a block transfer takes part. -/
theorem witness_UniformAccessIssue :
    let s := memAt 0x20000 id
    let bad := memAt (2 ^ 36) id
    let off := memAt 0x20001 id
    let full := memAt 0x20000 (fun a => { a with own := { a.own with issued := a.own.issued.set 0 (31 * 8 + 7) 1023 } })
    let idle := { memX with g := { p := 2 } }
    let none_ := { memX with vx := { m := 1 } }
    let align := fun (e : Claims.UniOp) => if e.block then 8 else 8
    allIssue s (Claims.uniOps.map (fun e => e.instr memX) ++ Claims.uniOps.map (fun e => e.instr idle) ++
      Claims.uniOps.map (fun e => e.instr none_)) ∧ allIssue bad (Claims.uniOps.map (fun e => e.instr memX)) ∧
    allIssue off (Claims.uniOps.map (fun e => e.instr memX)) ∧ allIssue full (Claims.uniOps.map (fun e => e.instr memX)) ∧
    (∀ e ∈ Claims.uniOps, e.goes memX (s.atIssue (e.instr memX) 1) ∧
      accessMeets s (e.instr memX) memX e.need (align e) (e.elems memX) = true) ∧
    (∀ e ∈ Claims.uniOps, e.goes memX (bad.atIssue (e.instr memX) 1) ∧
      okay (checked bad (e.instr memX) e.need (align e) (e.elems memX)) = false) ∧
    (∀ e ∈ Claims.uniOps, e.act idle (s.atIssue (e.instr idle) 1) = 0 ∧
      (e.block = true → e.goes none_ (s.atIssue (e.instr none_) 1) ∧ e.elems none_ (s.atIssue (e.instr none_) 1) = [])) ∧
    (∀ e ∈ Claims.uniOps, e.block = true → (off.atIssue (e.instr memX) 1).memAddr memX false 0 % 256 ≠ 0 ∧
      bit (e.part memX (off.atIssue (e.instr memX) 1)) 31 = true ∧ (off.atIssue (e.instr memX) 1).isHelper 31 = false ∧
      ∀ k, k < 31 → bit (e.part memX (off.atIssue (e.instr memX) 1)) k = false) ∧
    (∀ e ∈ Claims.uniOps, e.goes memX (full.atIssue (e.instr memX) 1) ∧
      (full.atIssue (e.instr memX) 1).mustStall true memX.strm ((full.atIssue (e.instr memX) 1).activeReal memX.g) ≠ 0 ∧
      okay (checked full (e.instr memX) e.need (align e) (e.elems memX)) = true) := by
  refine ⟨allIssue_of rfl (by decide +kernel), allIssue_of rfl (by decide +kernel), allIssue_of rfl (by decide +kernel),
    allIssue_of rfl (by decide +kernel), ?_⟩
  unfold Claims.UniOp.goes
  decide +kernel

/-- REDV in one lane, with a failing address, and with no Active thread; patterns that are and are not NaN. -/
theorem witness_AtomicFunctions :
    let s := memAt 0x20000 id
    let bad := memAt (2 ^ 36) id
    let idle := { memX with g := { p := 2 } }
    let i : Instr := .redv (.int .add) memX
    let elems := Claims.laneElems memX false 8 (fun a l => ((a.rdV memX.d l).toNat % 2 ^ 64, 0))
    allIssue s [i, .redv (.int .add) idle] ∧ allIssue bad [i] ∧
    accessMeets s i memX { read := true, write := true } 8 elems = true ∧
    okay (checked bad i { read := true, write := true } 8 elems) = false ∧
    (s.atIssue (.redv (.int .add) idle) 1).activeReal idle.g = 0 ∧
    (0 < 1 ∧ 1 < 2 ^ 1 ∧ 2 ^ 64 - 1 < 2 ^ 64) ∧ (∀ p ∈ [0, 2 ^ 31], (f32.decode p).isNan = false ∧ p < 2 ^ 32) ∧
    (f32.decode (2 ^ 32 - 1)).isNan = true :=
  ⟨allIssue_of rfl (by decide +kernel), allIssue_of rfl (by decide +kernel), by decide +kernel⟩

/-- Each fault's address, where the checks before it pass: misaligned, a window, beyond 2^57, untranslated, not
writable, not local, no MMIO; and the last bytes of a scratchpad and of the page. -/
theorem witness_AddressFaultOrder :
    let s := mapped (warpAt id)
    let ro := mappedTo 0x3 (warpAt id)
    let far := mappedTo (2 ^ 42 + 0xF) (warpAt id)
    let io := mappedTo (3 * 2 ^ 50 + 0xF) (warpAt id)
    let walk := fun (s : State) (va : Nat) => s.translate 0 0 va
    let pte := fun (s : State) => ((walk s 8).1.map (·.pte)).getD 0
    (9 % 8 ≠ 0) ∧ (windowBase % 8 = 0 ∧ isWindow windowBase = true) ∧ (2 ^ 57 % 8 = 0 ∧ isWindow (2 ^ 57) = false) ∧
    ((walk s (2 ^ 36)).1 = none ∧ isWindow (2 ^ 36) = false) ∧
    ((walk ro 8).1 ≠ none ∧ bit (pte ro) 1 = true ∧ bit (pte ro) 2 = false) ∧
    ((walk far 8).1 ≠ none ∧ ((walk far 8).1.map (fun e => (e.pa 8 / 2 ^ 50 % 4, isLocal (e.pa 8)))) = some (0, false)) ∧
    ((walk s 8).1.map (fun e => (e.pa 8 / 2 ^ 50 % 4, isLocal (e.pa 8)))) = some (0, true) ∧
    ((walk io 8).1.map (fun e => e.pa 8 / 2 ^ 50 % 4)) = some 3 ∧
    (4088 < 2 ^ 20 ∧ 4088 + 8 ≤ (s.block 1).alloc ∧ ¬ 4096 + 1 ≤ (s.block 1).alloc ∧ (s.block 1).cluster = none) ∧
    (let c := (s.setBlock 1 { s.block 1 with cluster := some 0, member := 15 })
     let d := { c with clusters := c.clusters.set {} 0 { live := true, members := ⟨[(15, some 1)]⟩ } }
     (d.block 1).cluster = some 0 ∧ (d.cluster 0).members.get none 15 = some 1 ∧ (d.block 1).leaving = false) := by
  decide +kernel

/-- Page tables with leaves of every level, an entry that is not present, and roots that R127 does not permit. -/
theorem witness_TableWalk :
    let e := fun (s : State) (table level va : Nat) =>
      ofBytes (s.mem.readBytes 8 (table + 8 * (va / 2 ^ levelShift level % levelEntries level)))
    let ptr := fun p => bits p 13 39 * 2 ^ 13
    let goes := fun e level => bit e 0 = true ∧ bits e 1 3 = 0 ∧ pointerOk level e = true
    let leaf := fun e level => bit e 0 = true ∧ bits e 1 3 ≠ 0 ∧ leafOk level e = true
    let s := mapped (warpAt id)
    let s2 := { s with mem := (s.mem.writeBytes 0x8000 (bytesOf 8 0xA001)).writeBytes 0xA000 (bytesOf 8 0xF) }
    let s1 := { s2 with mem := (s2.mem.writeBytes 0xA000 (bytesOf 8 0xC001)).writeBytes 0xC000 (bytesOf 8 0xF) }
    (s.roots.get 0 0 = 0x4000 ∧ isLocal 0x4000 = true ∧ goes (e s 0x4000 4 0) 4 ∧ ptr (e s 0x4000 4 0) = 0x8000) ∧
    leaf (e s 0x8000 3 0) 3 ∧ (goes (e s2 0x8000 3 0) 3 ∧ ptr (e s2 0x8000 3 0) = 0xA000 ∧ leaf (e s2 0xA000 2 0) 2) ∧
    (goes (e s1 0xA000 2 0) 2 ∧ ptr (e s1 0xA000 2 0) = 0xC000 ∧ leaf (e s1 0xC000 1 0) 1) ∧
    (¬ goes (e s 0x8000 3 (2 ^ 36)) 3 ∧ ¬ leaf (e s 0x8000 3 (2 ^ 36)) 3) ∧
    (¬ goes (e s2 0xA000 2 (2 ^ 26)) 2 ∧ ¬ leaf (e s2 0xA000 2 (2 ^ 26)) 2) ∧
    bit (e s 0x4000 4 (2 ^ 47)) 0 = false ∧ (0x5000 % 8192 ≠ 0 ∧ isLocal (2 ^ 42) = false) := by decide +kernel

/-- Lane 31's stream 7 holds 1,023 operations; no other stream is full. -/
theorem witness_StreamExhaustion :
    let x : Mem := { memX with g := {} }
    let s := memAt 0x20000 (fun a => { a with own := { a.own with issued := a.own.issued.set 0 (31 * 8 + 7) 1023 } })
    let a := s.atIssue (.ld x) 1
    let full := fun k => bit (a.activeReal x.g) k = true ∧ 1023 ≤ (a.streams (a.mode != .normal)).outstanding k x.strm
    allIssue s [.ld x] ∧ (∃ l s1, checked s (.ld x) { read := true, mmio := true } (2 ^ (x.sz % 4))
      (Claims.laneElems x true (2 ^ (x.sz % 4)) (fun _ _ => (0, 0))) = (.ok l, s1)) ∧
    (∀ k, k < 32 → (a.lane k).st.isParked = false) ∧
    full 31 ∧ ¬ full 30 ∧ (a.lane 30).st = .live ∧ bit (a.activeReal x.g) 30 = true :=
  ⟨allIssue_of rfl (by decide +kernel), okay_of (by decide +kernel), by decide +kernel⟩

/-- The elements of a list but its first. -/
theorem only_first {l : List Elem} {e : Elem} (h : l = [e]) {P : Elem → Prop} :
    ∀ n x, n ≠ 0 → l[n]? = some x → P x := by
  subst h
  intro n x hn hx
  cases n with
  | zero => exact absurd rfl hn
  | succ n => simp at hx

/-- The hypotheses of ElementPerforms for operation 1, its only element and lane 0. -/
def performs (s : State) (remote : Bool) (e : Elem) : Prop :=
  let o := s.op 1
  (o.st = .flying ∧ o.orphan = false ∧ o.i.slotted = true ∧ Claims.Calm (s.warp o.warp) ∧ o.elems[0]? = some e ∧
    e.done = false ∧ bit 1 e.lane = true ∧ e.place.remote = remote ∧ (s.elemRelease o).elemReady o (o.elems.take 0) e = true) ∧
  (∀ pa, e.place = .peer pa → s.strays pa = false ∧ s.reaches = true) ∧
  (∀ n x, n ≠ 0 → o.elems[n]? = some x → bit 1 x.lane = true → x.place.remote = remote → x.done = true)

/-- One element of each kind: a load at the home, a store to scratchpad, an STU, an atomic, loads of a peer and of the
module's own fabric address. -/
theorem witness_ElementPerforms :
    let op := fun (i : Instr) (e : Elem) => flyingAt (warpAt id) { instr := some i, lanes := 1, enabled := 1, elems := [e] }
    let h : Elem := { addr := 0x20000, place := .home 0x20000 false false, size := 8, data := 7 }
    let c : Elem := { h with place := .scratch 1 4088 }
    let p : Elem := { h with place := .peer (2 ^ 51 + 2 ^ 42) }
    let u : Elem := { h with place := .self 0x20000 }
    performs (op (.ld {}) h) false h ∧ performs (op (.st {}) c) false c ∧ performs (op (.stu {}) h) false h ∧
    performs (op (.atom .add {}) c) false c ∧ performs (op (.ldu {}) p) true p ∧ performs (op (.ld {}) u) u.place.remote u := by
  and_intros <;> first
    | decide +kernel
    | exact fun n x hn hx _ _ => only_first rfl (P := fun x => x.done = true) n x hn hx
    | (rintro pa ⟨⟩; decide +kernel)
    | nofun

/-- The pin's last moment, a first and a fifth late fault and a timeout of a peer, a wait that is over, and watchdogs at
their last moment. -/
theorem witness_LateFaultsAndWaits :
    let pin := { warpAt id with time := 20000, l1 := ⟨[(l1Key 0 5, { valid := true, pinned := true })]⟩ }
    let e : Elem := { addr := 0x20000, place := .home 0x20000 false false, size := 8 }
    let p : Elem := { e with place := .peer (2 ^ 51 + 2 ^ 42) }
    let late := fun (l : List Nat) (e : Elem) => { flyingAt (warpAt (fun a => { a with replays := l }))
      { instr := some (.ld {}), lanes := 1, enabled := 1, elems := [e] } with time := 40000 }
    let park := fun (l : Nat) (x : Wait) (t : Nat) =>
      { warpAt (fun a => a.setLane l { a.lane l with st := .parked, wait := x }) with time := t }
    let done := park 31 { kind := .tag, ended := true } 10000
    let stall := park 0 { kind := .exhaustion, data := 7, lanes := 1 } 10000
    let tag := park 31 { kind := .tag, since := 5 } (5 + 1000000000)
    let wait := { mccAt (fun m => { m with inWait := some ⟨1, 0, 1, 5⟩ }) with time := 5 + ((mccAt id).block 1).watchdog }
    ((pin.l1Line 0 5).pinned = true ∧ (pin.l1Line 0 5).since + 20000 ≤ pin.time) ∧
    (∀ q ∈ [([], e, 0x065), ([2, 3, 4, 5], e, 0x065), ([], p, 0x067)],
      let s := late q.1 q.2.1
      let o := s.op 1
      let a := s.warp o.warp
      o.st = .flying ∧ o.orphan = false ∧ o.i.slotted = true ∧ o.elems[0]? = some q.2.1 ∧ q.2.1.done = false ∧
        bit 1 q.2.1.lane = true ∧ bit o.lanes q.2.1.lane = true ∧ s.lateCauseOk q.2.1.place q.2.2 = true ∧
        (q.2.2 = 0x067 → s.timedOut o.issuedAt = true) ∧ s.elemReady o (o.elems.take 0) q.2.1 = true ∧
        (∀ l, l < 32 → Claims.partDone o l = false) ∧ a.halted = false ∧ a.haltDue = none ∧ 1 ∉ a.replays ∧ a.replays = q.1) ∧
    ((done.warp 1).live = true ∧ (done.warp 1).halted = false ∧ bit (2 ^ 31) 31 = true ∧
      ((done.warp 1).lane 31).st = .parked ∧ ((done.warp 1).lane 31).wait.ended = true) ∧
    (((stall.warp 1).lane 0).wait.kind = .exhaustion ∧
      (stall.warp 1).full ((stall.warp 1).lane 0).wait.data ((stall.warp 1).lane 0).wait.lanes = 0) ∧
    (let a : Warp := tag.warp 1
     let b : BlockRec := tag.block a.block
     let late := fun (n : Nat) => (a.lane n).st = .parked ∧ (a.lane n).wait.ended = false ∧
       ((a.lane n).wait.kind = .tag ∨ (a.lane n).wait.kind = .arrival) ∧
       (a.lane n).wait.since + (if b.rcd.wdog = 0 then 1000000000 else b.rcd.wdog * 1000000) ≤ tag.time
     late 31 ∧ (∀ n, n < 31 → ¬ late n) ∧ a.live = true ∧ a.halted = false ∧ b.st = .placed ∧ a.haltDue = none) ∧
    ((wait.mcc 0).inWait = some ⟨1, 0, 1, 5⟩ ∧ 5 + (wait.block (wait.member0 0)).watchdog ≤ wait.time) := by
  decide +kernel

/-- A fill of each outcome: beyond the address space, untranslated, not executable, an error at the home, bytes, and a peer's. -/
theorem witness_CacheControl :
    let s := memAt 0x20000 id
    let x : Mem := memX
    let o := flyingAt (warpAt id) { instr := some (.icinv {}), lanes := 1, elems := [{ addr := 0x1000 }] }
    let w := mappedTo 0x7 (warpAt id)
    let peer := mappedTo (0xF + 2 ^ 51 + 2 ^ 42) (warpAt id)
    allIssue s [.pf x, .icinv x, .strq {}] ∧
    ((∃ e s1, s.translate 0 0 0x20000 = (some e, s1) ∧ bit e.pte 3 = true ∧
        s1.placeOf e.pte (e.pa 0x20000) 64 {} = .ok (.home 0x20000 false false) ∧ s1.pinned (0x20000 / 128) = false ∧
        s1.stackWaits 0x20000 false = false) ∧
      ∃ e s1, peer.translate 0 0 0 = (some e, s1) ∧ bit e.pte 3 = true ∧
        s1.placeOf e.pte (e.pa 0) 64 {} = .ok (.peer (2 ^ 51 + 2 ^ 42)) ∧ peer.strays (2 ^ 51 + 2 ^ 42) = false ∧
        peer.reaches = true) ∧
    (s.atIssue (.icinv x) 1).activeReal x.g ≠ 0 ∧
    (s.atIssue (.icinv x) 1).mustStall true x.strm ((s.atIssue (.icinv x) 1).activeReal x.g) = 0 ∧
    ((o.op 1).st = .flying ∧ (o.op 1).instr = some (.icinv {}) ∧ (o.op 1).elems = [{ addr := 0x1000 }] ∧
      (o.elemRelease (o.op 1)).elemReady (o.op 1) [] { addr := 0x1000 } = true) ∧
    2 ^ 57 ≤ 2 ^ 57 / 64 * 64 ∧ isWindow (windowBase / 64 * 64) = true ∧
    (isWindow (2 ^ 36) = false ∧ (s.translate 0 0 (2 ^ 36)).1 = none) ∧
    ((w.translate 0 0 0x20000).1.map (fun e => bit e.pte 3)) = some false :=
  ⟨allIssue_of rfl (by decide +kernel),
   ⟨⟨_, _, Prod.ext (show _ = some ⟨0, 0, 36, 0xF⟩ by decide +kernel) rfl, by decide, okFst_of (by decide +kernel), by decide +kernel⟩,
    _, _, Prod.ext (show _ = some ⟨0, 0, 36, 0xF + 2 ^ 51 + 2 ^ 42⟩ by decide +kernel) rfl, by decide, okFst_of (by decide +kernel),
    by decide +kernel⟩,
   by decide +kernel⟩

/-- What `Alone` asks beside issue. -/
def alone (s : State) : Bool :=
  s.warps.cells.all (fun c => (List.range 32).all (fun l => (c.2.lane l).st != .parked)) &&
  s.mccs.cells.all (fun c => c.2.inWait.isNone) && s.ops.cells.all (fun c => c.2.st == .none || c.2.warp != 1) &&
  (s.block 1).standing && !(s.block 1).imaged && !(s.block 1).frozen

theorem noWaiters_of {s : State} (h : s.warps.cells.all (fun c => (List.range 32).all (fun l => (c.2.lane l).st != .parked)) = true)
    (k : s.mccs.cells.all (fun c => c.2.inWait.isNone) = true) : Claims.NoWaiters s := by
  refine ⟨fun c hc l hl => ?_, fun c hc => Option.isNone_iff_eq_none.mp (List.all_eq_true.mp k c hc)⟩
  have := List.all_eq_true.mp (List.all_eq_true.mp h c hc) l (List.mem_range.mpr hl)
  simpa using this

theorem alone_of {s : State} {i : Instr} (hi : Issues 1 i s) (h : alone s = true) : Claims.Alone 1 i s 1 := by
  simp only [alone, Bool.and_eq_true] at h
  obtain ⟨⟨⟨⟨⟨h1, h2⟩, h3⟩, h4⟩, h5⟩, h6⟩ := h
  refine ⟨hi, noWaiters_of h1 h2, fun c hc => ?_, h4, by simpa using h5, by simpa using h6⟩
  simpa using List.all_eq_true.mp h3 c hc

/-- The last word of the scratchpad, its tag empty or full; a misaligned SA; FESET of one word and of all; FEQ. -/
theorem witness_TagInstructions :
    let at_ := fun (sa : Nat) (full : Bool) =>
      let s := memAt sa (fun a => a.wrS 3 512)
      s.setBlock 1 { s.block 1 with tags := if full then ⟨[(511, true)]⟩ else {} }
    let x := memX
    let r : R3 := { d := 5, a := 2, b := 3, c := 1 }
    let meets := fun (s : State) (i : Instr) =>
      (s.atIssue i 1).activeReal x.g = 2 ^ 31 ∧ (s.atIssue i 1).mustStall false x.strm (2 ^ 31) = 0 ∧
      (s.atIssue i 1).memAddr x true 31 % 8 = 0 ∧
      okFst (s.resolveSa (s.atIssue i 1).block ((s.atIssue i 1).memAddr x true 31) 8) (.scratch 1 4088) = true
    (∀ b ∈ [true, false], ∀ i ∈ [Instr.ldf x, .ldfe x, .ste x, .stf x], Claims.Alone 1 i (at_ 4088 b) 1 ∧ meets (at_ 4088 b) i) ∧
    (at_ 4088 true).tagAt 1 4088 = true ∧ (at_ 4088 false).tagAt 1 4088 = false ∧
    allIssue (at_ 4 true) [.ldf x, .ldfe x, .ste x, .stf x] ∧ ((at_ 4 true).atIssue (.ldf x) 1).memAddr x true 31 % 8 ≠ 0 ∧
    Claims.Alone 1 (.feset r) (at_ 0 true) 1 ∧ ((at_ 0 true).atIssue (.feset r) 1).activeReal r.g ≠ 0 ∧
    (((at_ 0 true).atIssue (.feset r) 1).rdS r.b).toNat = 512 ∧ okFst ((at_ 0 true).resolveSa 1 0 (8 * 512)) (.scratch 1 0) = true ∧
    allIssue (at_ 4088 true) [.feq r] ∧ okFst ((at_ 4088 true).resolveSa 1 4088 1) (.scratch 1 4088) = true := by
  intro at_ x r meets
  have hi : ∀ b ∈ [true, false], allIssue (at_ 4088 b) [.ldf x, .ldfe x, .ste x, .stf x] := by
    intro b _
    cases b
    · exact allIssue_of rfl (by decide +kernel)
    · exact allIssue_of rfl (by decide +kernel)
  refine ⟨fun b hb i h => ⟨alone_of (hi b hb i h) ?_, ?_⟩, by decide +kernel, by decide +kernel,
    allIssue_of rfl (by decide +kernel), by decide +kernel,
    alone_of (allIssue_of (l := [.feset r]) rfl (by decide +kernel) _ (List.mem_singleton.mpr rfl)) (by decide +kernel),
    by decide +kernel, by decide +kernel, by decide +kernel, allIssue_of rfl (by decide +kernel), by decide +kernel⟩
  · exact (show ∀ b ∈ [true, false], alone (at_ 4088 b) = true by decide +kernel) b hb
  · exact (show ∀ b ∈ [true, false], ∀ i ∈ [Instr.ldf x, .ldfe x, .ste x, .stf x], meets (at_ 4088 b) i by decide +kernel) b hb i h

/-- Words that do and do not cross; legal operands of AWARM and ARRIVE, and reserved bits; a word reached, one not
reached by the smallest generation, and one with err. -/
theorem witness_ArrivalWords :
    let w : AWord := { target := 4, count := 3, gen := 2 ^ 32 - 1, ar := true, scope := 0, err := false, high := 0 }
    let x : Mem := { memX with g := {} }
    let at_ := fun (v : Nat) (word : AWord) =>
      (memAt 4080 (fun a => a.wrS 4 (BitVec.ofNat 64 v))).setWord 1 4080 word
    let s := at_ (2 ^ 33 - 1) w
    let op := fun (i : Instr) => (flyingAt (warpAt id)
      { instr := some i, lanes := 1, elems := [{ addr := 4080, place := .scratch 1 4080, size := 16, data := 1 }] }).setWord 1 4080 w
    (3 + (2 ^ 32 - 4) < 2 ^ 32 ∧ 0 < w.target ∧ w.ar = true ∧ w.gen < 2 ^ 32 ∧ w.count + 0 < w.target ∧ w.target ≤ w.count + 1) ∧
    (allIssue s [.awarm x, .arrive x] ∧ x.strm < 8 ∧ (s.atIssue (.awarm x) 1).activeReal x.g ≠ 0 ∧
      bits ((s.atIssue (.awarm x) 1).rdS x.d).toNat 36 28 = 0 ∧ bits ((s.atIssue (.awarm x) 1).rdS x.d).toNat 33 3 ≠ 7 ∧
      (s.atIssue (.awarm x) 1).mustStall true x.strm ((s.atIssue (.awarm x) 1).activeReal x.g) = 0 ∧
      (s.atIssue (.awarm x) 1).memAddr x false 0 = 4080 ∧ okFst (s.resolveSa 1 4080 16) (.scratch 1 4080) = true) ∧
    (∀ v ∈ [2 ^ 36, 7 * 2 ^ 33], bits ((at_ v w).atIssue (.awarm x) 1 |>.rdS x.d).toNat 36 28 ≠ 0 ∨
      bits ((at_ v w).atIssue (.awarm x) 1 |>.rdS x.d).toNat 33 3 = 7) ∧
    (∀ i ∈ [Instr.arrive x, .awarm x],
      ((op i).op 1).st = .flying ∧ ((op i).op 1).instr = some i ∧ ((op i).block 1).standing = true ∧
      ((op i).block 1).imaged = false ∧
      ((op i).elemRelease ((op i).op 1)).elemReady ((op i).op 1) [] (((op i).op 1).elems.headD {}) = true) ∧
    Claims.NoWaiters (op (.arrive x)) ∧
    Claims.Alone 1 (.waitg x) s 1 ∧
    (let reached := fun (v : Nat) => ((s.aword 1 4080).gen + 2 ^ 32 - v % 2 ^ 32) % 2 ^ 32 < 2 ^ 31
     (s.aword 1 4080).err = false ∧ reached (2 ^ 33 - 1) ∧ reached (2 ^ 31) ∧ ¬ reached (2 ^ 31 - 1) ∧ ¬ reached 0 ∧
     ((at_ 0 { w with err := true }).aword 1 4080).err = true) :=
  ⟨by decide, ⟨allIssue_of rfl (by decide +kernel), by decide +kernel⟩, by decide +kernel, by decide +kernel,
   noWaiters_of (by decide +kernel) (by decide +kernel),
   alone_of (allIssue_of (l := [.waitg _]) rfl (by decide +kernel) _ (List.mem_singleton.mpr rfl)) (by decide +kernel),
   by decide +kernel⟩

/-- A block of no cluster, with none of its key, and with one that it may join at index 1; a block in a cluster, alone
and with another; and CLEAVE in flight. -/
theorem witness_Clusters :
    let x : R3 := { d := 1, a := 2 }
    let s := warpAt id
    let with_ := fun (m : List (Nat × Option Nat)) (s : State) =>
      { s with clusters := ⟨[(0, { live := true, members := ⟨m⟩, cgen := 1 })]⟩ }
    let free := with_ [(0, some 7)] s
    let join := fun (m : List (Nat × Option Nat)) => with_ m (s.setBlock 1 { s.block 1 with cluster := some 0, member := 15 })
    let one := join [(15, some 1)]
    let two := join [(0, some 7), (15, some 1)]
    let o := flyingAt two { instr := some (.cleave x) }
    (∀ t ∈ [s, free, one, two], allIssue t [.cjoin x, .cleave x]) ∧ (s.atIssue (.cjoin x) 1).activeReal {} ≠ 0 ∧
    ((s.block 1).cluster = none ∧ s.clusters.cells = []) ∧
    ((free.block 1).cluster = none ∧ (free.cluster 0).live = true ∧ 0 / 65536 = (free.block 1).core / 16 ∧
      (free.cluster 0).grid = (free.block 1).grid ∧ (free.cluster 0).key = ((free.atIssue (.cjoin x) 1).rdS 2).toNat ∧
      (∀ d ∈ free.clusters.cells, d.1 = 0) ∧ (free.cluster 0).members.get none 1 = none ∧
      ∀ j, j < 1 → (free.cluster 0).members.get none j ≠ none) ∧
    ((one.block 1).cluster = some 0 ∧ (one.block 1).gang = none ∧ (∀ o ∈ one.ops.cells, o.2.st = .none) ∧
      ∀ i, i < 16 → i ≠ (one.block 1).member → (one.cluster 0).members.get none i = none) ∧
    ((two.block 1).cluster = some 0 ∧ (two.cluster 0).members.get none 0 ≠ none) ∧ Claims.NoWaiters two ∧
    ((o.op 1).st = .flying ∧ (o.op 1).instr = some (.cleave x) ∧ o.cleaveFree (o.op 1).block (o.op 1).seq = true) := by
  intro x s with_ free join one two o
  refine ⟨fun t h => ?_, by decide +kernel, by decide +kernel, by decide +kernel, by decide +kernel, by decide +kernel,
    noWaiters_of (by decide +kernel) (by decide +kernel), by decide +kernel⟩
  refine allIssue_of ?_ ?_
  · exact (show ∀ t ∈ [s, free, one, two], t.issuer = .warp 1 by decide +kernel) t h
  · exact (show ∀ t ∈ [s, free, one, two], ([Instr.cjoin x, .cleave x].all fun i =>
      (issueFault i ((t.warp 1).beginIssue i)).isNone) = true by decide +kernel) t h

/-- Operands of a copy in s4 (targets), s2 (the record's address), s6 and s7 (coordinate and list). -/
def copyAt (d rcd r0 r1 : Nat) : State :=
  memAt rcd (fun a => ((a.wrS 4 (BitVec.ofNat 64 d)).wrS 6 (BitVec.ofNat 64 r0)).wrS 7 (BitVec.ofNat 64 r1))

/-- Legal operands, each kind of illegal ones, and a record off its boundary; CPYC of no line, of one and of too much. -/
theorem witness_CopyIssue :
    let x := memX
    let s := copyAt (4080 * 2 ^ 32) 0x20000 0 4
    let bad := copyAt (2 ^ 25) 0x20000 0 (2 ^ 25)
    let d := fun (s : State) => ((s.atIssue (.cpy x) 1).rdS x.d).toNat
    let r1 := fun (s : State) => ((s.atIssue (.cpy x) 1).rdS (Mem.offReg x + 1)).toNat
    let c := fun (n : Nat) => copyAt n 0x20000 0x20080 0
    (∀ t ∈ [s, bad, c 0, c 128], ∀ i ∈ [Instr.cpy x, .cpys x, .cpyg x, .cpym x, .cpyc x], Issues 1 i t) ∧ x.strm < 8 ∧
    (s.atIssue (.cpy x) 1).activeReal x.g ≠ 0 ∧ (s.atIssue (.cpy x) 1).mustStall true x.strm ((s.atIssue (.cpy x) 1).activeReal x.g) = 0 ∧
    (bits (d s) 57 7 = 0 ∧ bits (d s) 25 7 = 0 ∧ bit (bits (d s) 0 25) 24 = false ∧ bit (bits (d s) 32 25) 24 = false ∧
      bits (d s) 0 25 % 16 = 0 ∧ bits (d s) 32 25 % 16 = 0 ∧ r1 s < 2 ^ 25 ∧ r1 s % 4 = 0 ∧
      ((s.atIssue (.cpy x) 1).rdS x.a).toNat % 64 = 0 ∧ bits (d s) 0 25 < 2 ^ 20) ∧
    bits (d (c 0)) 32 25 = 0 ∧ bits (d bad) 25 7 ≠ 0 ∧ ¬ r1 bad < 2 ^ 25 ∧ bits (d s) 32 25 ≠ 0 ∧
    (((copyAt 0 0x20020 0 0).atIssue (.cpy x) 1).rdS x.a).toNat % 64 ≠ 0 ∧
    (d (c 0) = 0 ∧ d (c 128) = 128 ∧ d (c 127) % 128 ≠ 0 ∧ 2 ^ 32 ≤ d (c (2 ^ 32))) ∧
    (∀ l, l < 32 → (((c 0).atIssue (.cpyc x) 1).lane l).st.isParked = false) := by
  intro x s bad d r1 c
  refine ⟨fun t h i hi => allIssue_of (l := [Instr.cpy x, .cpys x, .cpyg x, .cpym x, .cpyc x]) ?_ ?_ i hi, by decide +kernel⟩
  · exact (show ∀ t ∈ [s, bad, c 0, c 128], t.issuer = .warp 1 by decide +kernel) t h
  · exact (show ∀ t ∈ [s, bad, c 0, c 128], ([Instr.cpy x, .cpys x, .cpyg x, .cpym x, .cpyc x].all fun i =>
      (issueFault i ((t.warp 1).beginIssue i)).isNone) = true by decide +kernel) t h

/-- A record of four words from 0x20000 in one dimension. -/
def recordBytes : List Byte :=
  bytesOf 8 0x20000 ++ bytesOf 4 4 ++ List.replicate 44 0 ++ bytesOf 8 (1 + 2 * 2 ^ 3 + 3 * 2 ^ 8 + 31 * 2 ^ 48)

/-- A copy in flight to offset 16 of the block's scratchpad, its word at 4080. -/
def copying (i : Instr) (sent : Bool) (elems : List Elem) : State :=
  let s := flyingAt (mapped (warpAt id)) { instr := some i, lanes := 1, sent := sent, elems := elems, members := [1]
                                           args := [0x30000, 16, 1, 0, 4080, 1, 0, 0, 1, 0, 31, 0] }
  { s with mem := s.mem.writeBytes 0x30000 recordBytes }

/-- A piece of 4 bytes in lane 3. -/
def pieceAt (addr : Nat) (fill : Bool) : Elem :=
  { lane := 3, addr := addr, place := .scratch 1 16, size := 4, data := 9, data2 := if fill then 1 else 0 }

/-- What `NextPiece` asks, for the only piece. -/
theorem nextPiece_of {s : State} {e : Elem} (h1 : isCopy (s.op 1).i = true) (h2 : (s.op 1).st = .flying)
    (h3 : (s.op 1).sent = true) (h4 : s.copyEdges (s.op 1) = true) (h5 : (s.op 1).elems = [e]) (h6 : e.done = false)
    (h7 : bit 8 e.lane = true) : Claims.NextPiece s 1 8 0 e :=
  ⟨h1, h2, h3, h4, by rw [h5]; rfl, h6, h7, fun n x hn hx _ => only_first h5 (P := fun x => x.done = true) n x hn hx⟩

/-- What `PieceFree` asks, evaluated. -/
def pieceFree (s s1 : State) (o : Op) (e : Elem) : Bool :=
  (copyTargets o e).all (fun p => s1.copySame o p e.size) && (copyTargets o e).all (fun p => match p with
    | .scratch b _ => !(s.block b).frozen
    | _ => true)

theorem pieceFree_of {s s1 : State} {o : Op} {e : Elem} (h : pieceFree s s1 o e = true) : Claims.PieceFree s s1 o e := by
  simp only [pieceFree, Bool.and_eq_true] at h
  refine ⟨fun p hp => List.all_eq_true.mp h.1 p hp, fun b off hp => ?_⟩
  simpa using List.all_eq_true.mp h.2 _ hp

/-- What a copy finds at home, evaluated: its bytes are free of other operations, and nothing holds the line. -/
def homeFree (s : State) (o : Op) (pa n : Nat) (reads : Bool) : Bool :=
  s.copySame o (.home pa false false) n && !((s.copyAt o (.home pa false false) reads).homeHeld pa false)

/-- No earlier operation holds an access back. -/
theorem sameMet_of {s : State} {w lanes seq n : Nat} {p : Place} (h : s.earlier w seq = []) : s.sameMet w lanes seq p n = true := by
  unfold State.sameMet
  rw [h]
  rfl

/-- A copy that starts, pieces of a CPY, a CPYM and a CPYS, one completed and one that meets a fault. -/
theorem witness_CopyMoves :
    let r := TRec.of (bytesOf 8 0x20000 ++ bytesOf 4 4 ++ bytesOf 4 2 ++ List.replicate 12 0 ++ bytesOf 5 16 ++ List.replicate 23 0 ++
      bytesOf 8 (2 + 2 * 2 ^ 3 + 3 * 2 ^ 8 + 1 * 2 ^ 16 + 31 * 2 ^ 48))
    let e := pieceAt 0x20000 false
    let f := pieceAt 0x20000 true
    let bad := pieceAt (2 ^ 36) false
    let start := copying (.cpy {}) false []
    let s := fun (i : Instr) (e : Elem) => copying i true [e]
    let check := fun (s : State) (need : Need) (at_ n : Nat) => (s.opRelease (s.op 1)).engineCheck ((s.op 1).ctx (s.opRelease (s.op 1))) need at_ n
    let home := fun (p : Nat) (x : Except Nat Place × State) => ∃ s1, x = (.ok (.home p false false), s1)
    let cp := check (s (.cpy {}) e) { read := true } 0x20000 4
    let cs := check (s (.cpys {}) e) { write := true } 0x20000 4
    let rd := check start { read := true } 0x30000 64
    let done := copying (.cpy {}) true [{ e with done := true }]
    let faulty := s (.cpy {}) bad
    (Claims.NextPiece (s (.cpy {}) e) 1 8 0 e ∧ Claims.NextPiece (s (.cpym {}) f) 1 8 0 f ∧ Claims.NextPiece (s (.cpys {}) e) 1 8 0 e) ∧
    (home 0x30000 rd ∧ home 0x20000 cp ∧ home 0x20000 cs ∧ ∃ f s1, check faulty { read := true } bad.addr 4 = (.error f, s1)) ∧
    (Claims.PieceFree (s (.cpy {}) e) cp.2 ((s (.cpy {}) e).op 1) e ∧
      Claims.PieceFree (s (.cpym {}) f) (s (.cpym {}) f) ((s (.cpym {}) f).op 1) f ∧
      Claims.PieceFree (s (.cpys {}) e) cs.2 ((s (.cpys {}) e).op 1) e) ∧
    (∀ x, ((rd.2.copyAt (start.op 1) (.home 0x30000 false false) true).noteRdc 0 0x30000 false false).copySame
      (start.op 1) (.scratch 1 0) x = true) ∧
    (∃ l s1, ((start.copyPieces (.cpy {}) (start.copyArgs (start.op 1)) (start.mem.readBytes 64 0x30000)), start) = (.ok l, s1)) ∧
    (Claims.Calm (done.warp 1) ∧ Claims.NoWaiters done ∧ Claims.NoWaiters faulty) ∧
    (r.rank = 2 ∧ 3 < r.box 0 ∧ 1 < r.box 1) ∧
    ((start.op 1).st = .flying ∧ (start.op 1).sent = false ∧ start.copyEdges (start.op 1) = true ∧ isCopy (start.op 1).i = true ∧
      (start.opRelease (start.op 1)).copyEdges (start.op 1) = true ∧ (start.opRelease (start.op 1)).copyTurn (start.op 1) = true ∧
      homeFree rd.2 (start.op 1) 0x30000 64 true = true) ∧
    (homeFree cp.2 ((s (.cpy {}) e).op 1) 0x20000 4 true = true ∧ homeFree cs.2 ((s (.cpys {}) e).op 1) 0x20000 4 false = true ∧
      e.data2 ≠ 1 ∧ f.data2 = 1) ∧
    ((done.op 1).st = .flying ∧ (done.op 1).orphan = false ∧ (done.op 1).sent = true ∧ (done.copyArgs (done.op 1)).awCause = 0 ∧
      (∀ e ∈ (done.op 1).elems, e.done = true)) ∧
    ((done.block 1).standing = true ∧ (done.block 1).imaged = false ∧ (done.block 1).frozen = false ∧ 4080 + 16 ≤ (done.block 1).alloc) ∧
    ((faulty.op 1).sent = true ∧ faulty.copyEdges (faulty.op 1) = true ∧ (faulty.op 1).elems[0]? = some bad ∧
      (faulty.opRelease (faulty.op 1)).copyEdges (faulty.op 1) = true ∧ (faulty.copyArgs (faulty.op 1)).awCause = 0 ∧
      (faulty.warp 1).halted = false ∧ (faulty.warp 1).haltDue = none ∧ (faulty.warp 1).index < 32 ∧
      (faulty.copyArgs (faulty.op 1)).lane < 32 ∧ (faulty.op 1).strm < 8 ∧
      ∃ i, i < 8 ∧ bit (((faulty.copyLogs.get [] 0).getD i {}).word0).toNat 63 = false) := by
  intro r e f bad start s check home cp cs rd done faulty
  refine ⟨?_, ?_, ⟨?_, ?_, ?_⟩, fun x => sameMet_of (by decide +kernel), okay_of (by decide +kernel), ?_, by decide +kernel⟩
  · exact ⟨nextPiece_of (by decide +kernel) (by decide +kernel) (by decide +kernel) (by decide +kernel) rfl (by decide) (by decide),
      nextPiece_of (by decide +kernel) (by decide +kernel) (by decide +kernel) (by decide +kernel) rfl (by decide) (by decide),
      nextPiece_of (by decide +kernel) (by decide +kernel) (by decide +kernel) (by decide +kernel) rfl (by decide) (by decide)⟩
  · exact ⟨okIs_of (by decide +kernel), okIs_of (by decide +kernel), okIs_of (by decide +kernel), fault_of (by decide +kernel)⟩
  iterate 3 exact pieceFree_of (by decide +kernel)
  exact ⟨by unfold Claims.Calm; decide +kernel, noWaiters_of (by decide +kernel) (by decide +kernel),
    noWaiters_of (by decide +kernel) (by decide +kernel)⟩

/-- A CPYC line from region 00 to the cellar, each by a leaf of its own. -/
theorem witness_CopyMoves_line :
    let line : Elem := { lane := 3, addr := 0x20000, data := 2 ^ 36, size := 128 }
    let s0 := copying (.cpyc {}) true [line]
    let s := { s0 with mem := s0.mem.writeBytes 0x8008 (bytesOf 8 (2 ^ 50 + 0xF)) }
    let a := (s.opRelease (s.op 1)).engineCheck ((s.op 1).ctx (s.opRelease (s.op 1))) { read := true } 0x20000 128
    let b := a.2.engineCheck ((s.op 1).ctx (s.opRelease (s.op 1))) { write := true } (2 ^ 36) 128
    let s3 := b.2.copyAt (s.op 1) (.home 0x20000 false false) true
    Claims.NextPiece s 1 8 0 line ∧ (∃ s1, a = (.ok (.home 0x20000 false false), s1)) ∧
    (∃ s2, b = (.ok (.home (2 ^ 50) false false), s2)) ∧
    bits 0x20000 50 2 + bits (2 ^ 50) 50 2 = 1 ∧ (s.opRelease (s.op 1)).copyEdges (s.op 1) = true ∧ 2 ^ 50 % 128 = 0 ∧
    homeFree b.2 (s.op 1) 0x20000 128 true = true ∧ b.2.copySame (s.op 1) (.home (2 ^ 50) false false) 128 = true ∧
    ((s3.noteRdc 0 0x20000 false false).copyAt (s.op 1) (.home (2 ^ 50) false false) false).homeHeld (2 ^ 50) false = false :=
  ⟨nextPiece_of (by decide +kernel) (by decide +kernel) (by decide +kernel) (by decide +kernel) rfl (by decide) (by decide),
   okIs_of (by decide +kernel), okIs_of (by decide +kernel), by decide +kernel⟩

/-- A matrix control core with operands in s1 to s3. -/
def mccWith (a b d : Nat) (rl : Bool) : State :=
  let s := mccAt (fun m => ((m.wrS 1 (BitVec.ofNat 64 a)).wrS 2 (BitVec.ofNat 64 b)).wrS 3 (BitVec.ofNat 64 d))
  s.setBlock 1 { s.block 1 with alloc := 2 ^ 20, rcd := { (s.block 1).rcd with rl := rl } }

/-- Legal operands at their limits, illegal ones, a full buffer, an array that the instance lacks, and the three states
of a word that MWAITG waits on. -/
theorem witness_MatrixIssue :
    let s := mccWith 0 4080 (8191 + 2 ^ 16) false
    let x : R3 := { d := 3, a := 1, b := 2 }
    let full := { s with mccs := s.mccs.set {} 0 { s.mcc 0 with arrivals := List.replicate 64 ⟨0, 1, 0, 1, 0⟩ } }
    let g : R3 := { a := 2, b := 3 }
    let w := fun (gen : Nat) (err : Bool) =>
      s.setWord 1 4080 { target := 0, count := 0, gen := gen, ar := true, scope := 0, err := err, high := 0 }
    IssuesMcc 0 s ∧ full.mccRoom (.marrive x) 0 = false ∧ (0 < (s.mccBlocks 0).length ∧ ¬ 1 < (s.mccBlocks 0).length) ∧
    (∀ i ∈ [Instr.mcfg 0 3 3 .rne, .mscl x, .mlds x, .mswap x, .mstrm x, .mclr x, .marrive x], s.mccRoom i 0 = true) ∧
    (((s.mcc 0).rdS 1).toNat = 0 ∧ ((s.mcc 0).rdS 2).toNat = 4080 ∧ 16 * matWidth (s.arr 0).lastWfmt ≤ 4080 ∧
      bits (((s.mcc 0).rdS 3).toNat) 0 13 + bits (((s.mcc 0).rdS 3).toNat) 16 14 ≤ 8192 ∧
      0 < bits (((s.mcc 0).rdS 3).toNat) 16 14 ∧ bits (((s.mcc 0).rdS 3).toNat) 13 3 = 0 ∧
      bits (((s.mcc 0).rdS 3).toNat) 30 34 = 0) ∧
    okay (s.resolveSa 1 0 (127 * 4080 + 256), s) = true ∧
    (2 ^ 20 ≤ (((mccWith 0 (2 ^ 20) 0 false).mcc 0).rdS 2).toNat ∧ 8 % 16 ≠ 0 ∧ ¬ (2 ^ 20 < 2 ^ 20 ∨ 2 ^ 20 / 2 ^ 24 = 1)) ∧
    ((mccWith 0 4080 0 true).block 1).rcd.rl = true ∧ (s.block (s.member0 0)).rcd.rl = false ∧
    ((s.mcc 0).rdS g.a).toNat % 16 = 0 ∧ okFst (s.resolveSa (s.member0 0) 4080 16) (.scratch 1 4080) = true ∧
    ((w 0 true).aword 1 4080).err = true ∧
    (((w (8191 + 2 ^ 16) false).aword 1 4080).gen + 2 ^ 32 - (8191 + 2 ^ 16)) % 2 ^ 32 < 2 ^ 31 ∧
    ¬ (((w 0 false).aword 1 4080).gen + 2 ^ 32 - (8191 + 2 ^ 16)) % 2 ^ 32 < 2 ^ 31 :=
  ⟨rfl, by decide +kernel⟩

/-- An array with one entry in a queue, whose work is or is not charged. -/
def queuedAt (load : Bool) (e : MEntry) (prog : Nat) : State :=
  let s := mccAt id
  s.setArr 0 { s.arr 0 with
    loadQ := if load then [⟨1, e, prog⟩] else [], compQ := if load then [] else [⟨1, e, prog⟩] }

/-- The fault that a load of a plane meets. -/
def badIs (f : Fed) (c a : Nat) : Bool :=
  match f with
  | .bad c' a' => c' == c && a' == a
  | _ => false

theorem badIs_of {f : Fed} {c a : Nat} (h : badIs f c a = true) : f = .bad c a := by
  cases f <;> simp_all [badIs]

/-- Loads charged and uncharged, an exchange, the last row of the store, whole, half done and not charged, an MCLR of the
store, an arrival whose queues are empty, and a load of scales that meets a fault. -/
theorem witness_MatrixWork :
    let lds := fun (p : Nat) => queuedAt true (.lds 0 256 false false) p
    let scales := queuedAt true (.lds (2 ^ 20) 256 false true) 0
    let last := queuedAt false (.strm 8191 1 0 256 true) 0
    let half := last.setArr 0 { last.arr 0 with fed := some ([], []), part := 2 ^ 127 }
    let clr := queuedAt false (.clr 0 8192) 0
    let mv := { mccAt id with mccs := (mccAt id).mccs.set {} 0 { (mccAt id).mcc 0 with arrivals := [⟨1, 1, 4080, 5, 0xFF⟩] } }
    Claims.runs (queuedAt false .swap 0) 0 64 .swap 0 ∧
    (Claims.runs last 0 (rowPrice (last.arr 0).afmt (last.arr 0).active.tag) (.strm 8191 1 0 256 true) 0 ∧
      Claims.runs clr 0 (4 * 8192) (.clr 0 8192) 0 ∧
      ∃ q, (half.arr 0).compHead = some { seq := q, e := .strm 8191 1 0 256 true, prog := 0 }) ∧
    (∃ a, (scales.planeBytes 0 (2 ^ 20) 256 (16 * matWidth (scales.arr 0).wfmt) true []).1 = .bad 0x060 a) ∧
    ((∃ q x p tr g n, (scales.arr 0).loadHead = some { seq := q, e := .lds x p tr g, prog := n }) ∧
      (last.arr 0).fed = none ∧ (half.arr 0).fed ≠ none ∧ (half.arr 0).part = 2 ^ 127 ∧ 8191 + 0 < 8192 ∧ 0 + 8192 ≤ 8192) ∧
    (((lds 0).arr 0).loadHead = some { seq := 1, e := .lds 0 256 false false, prog := 0 } ∧
      ((lds 0).chargeArray 0 (mldsPrice ((lds 0).arr 0).wfmt false)).2 = true) ∧
    ((mv.mcc 0).arrivals = [⟨1, 1, 4080, 5, 0xFF⟩] ∧ (∀ i, i < 4 → (mv.arr i).compQ = [] ∧ (mv.arr i).loadQ = []) ∧
      (mv.block 1).frozen = false ∧ (mv.block 1).standing = true ∧ (mv.block 1).imaged = false ∧
      ∀ c ∈ mv.mccs.cells, c.2.inWait = none) ∧
    (((lds 0).block ((lds 0).member0 0)).rcd.rl = false ∧ ((lds 0).block ((lds 0).member0 0)).gang = ((lds 0).mcc 0).gang ∧
      ((lds 0).gang 1).bay = 0 ∧ ((lds 0).mcc 0).gang = some 1) :=
  ⟨⟨⟨1, by decide +kernel⟩, by decide +kernel⟩,
   ⟨⟨⟨1, by decide +kernel⟩, by decide +kernel⟩, ⟨⟨1, by decide +kernel⟩, by decide +kernel⟩, 1, by decide +kernel⟩,
   ⟨2 ^ 20, badIs_of (by decide +kernel)⟩, ⟨⟨1, 2 ^ 20, 256, false, true, 0, by decide +kernel⟩, by decide +kernel⟩, by decide +kernel⟩

/-- The last rows of the store, the first beyond it, a block of no gang, and a thread with an operation in flight. -/
theorem witness_AccumulatorMoves :
    let x : R3 := { d := 8, a := 2, b := 3, c := 1 }
    let gang := fun (row : Nat) => let s := warpAt (fun a => a.wrS 2 (BitVec.ofNat 64 row))
      s.setBlock 1 { s.block 1 with gang := some 1, rcd := { (s.block 1).rcd with df := true } }
    let s := gang 8190
    let busy := flyingAt s { lanes := 1, elems := [{}] }
    (∀ r ∈ [8190, 8191], (gang r).issuer = .warp 1 ∧ (gang r).accWaits 1 x.g = false ∧ ∀ i ∈ [Instr.accrd x, .accwr x, .accrdc x],
      issueFault i (((gang r).warp 1).beginIssue i) = none) ∧
    busy.accWaits 1 x.g = true ∧ busy.issuer = .warp 1 ∧
    ((s.atIssue (.accrd x) 1).rdS 2).toNat = 8190 ∧ 8190 + 2 ^ (1 % 4) ≤ 8192 ∧
    ¬ 8191 + 2 ^ (1 % 4) ≤ 8192 ∧ (s.block (s.warp 1).block).gang ≠ none ∧ ((warpAt id).block 1).gang = none ∧
    (s.atIssue (.accrd x) 1).active {} ≠ 0 ∧ (s.atIssue (.accwr x) 1).activeReal {} ≠ 0 ∧ s.defers 1 = true ∧
    (Instr.accrdc x).fieldsOk = true := by decide +kernel

/-- What `UnitReads` asks, where nothing stands in the way and no RDC holds the line. -/
theorem unitReads_of {i : Instr} {s : State} {va n pa : Nat}
    (h : okIs ((s.issued i 1).checkElem ((s.issued i 1).ctx 1) { read := true } va n n) (.home pa false false) = true)
    (k : (s.homeHeld pa false, s.rdcLine ((s.block (s.warp 1).block).core / 16) (pa / 128)) = (false, [])) :
    Claims.UnitReads i 1 s va n (s.mem.readBytes n pa) := by
  obtain ⟨s1, h1⟩ := okIs_of h
  obtain ⟨k1, k2⟩ := Prod.mk.inj k
  exact ⟨pa, false, false, s1, h1, k1, by simp [k2, Claims.homeBytes]⟩

/-- What `Unflown` asks, evaluated. -/
def unflown (s : State) : Bool :=
  s.ops.cells.all (fun c => c.2.st == .none || c.2.warp != 1) && !(s.warp 1).halted && (s.warp 1).yielded == .no &&
  (s.block (s.warp 1).block).st == .placed && (List.range 32).all (fun l => !((s.warp 1).lane l).st.isParked)

theorem unflown_of {s : State} (h : unflown s = true) : Claims.Unflown 1 s := by
  simp only [unflown, Bool.and_eq_true] at h
  obtain ⟨⟨⟨⟨h1, h2⟩, h3⟩, h4⟩, h5⟩ := h
  refine ⟨fun c hc => by simpa using List.all_eq_true.mp h1 c hc, by simpa using h2, by simpa using h3, by simpa using h4,
    fun l hl => ?_⟩
  simpa using List.all_eq_true.mp h5 l (List.mem_range.mpr hl)

/-- A record of one block of one warp on die 0, and a descriptor of node blocks of one record of eight bytes. -/
def launchBytes : List Byte :=
  bytesOf 8 0x1000 ++ List.replicate 32 0 ++ bytesOf 4 1 ++ bytesOf 4 0 ++ bytesOf 8 1 ++ bytesOf 4 1 ++ List.replicate 68 0
def nodeBytes : List Byte :=
  bytesOf 8 0x1000 ++ bytesOf 8 (1 + 2 ^ 28) ++ List.replicate 16 0 ++ bytesOf 2 1 ++ bytesOf 2 1 ++ bytesOf 4 0 ++ bytesOf 4 1 ++
    List.replicate 20 0

/-- Warp 1 before a task instruction: s2 and s3 its operands, `bs` at 0x30000, and the graph of 64 nodes at 0x2F040 whose
node 63 stands there. -/
def taskAt (a b : Nat) (bs : List Byte) : State :=
  let s := memAt a (fun w => w.wrS 3 (BitVec.ofNat 64 b))
  { s.setBlock 1 { s.block 1 with rcd := { (s.block 1).rcd with graph := 0x2F040, nodes := 64 } } with
    mem := s.mem.writeBytes 0x30000 bs }

def taskX : R3 := { d := 5, a := 2, b := 3, c := 1, g := { p := 1 } }

/-- LAUNCH and LAUNCHT of a good record, of a malformed one, past the cancel point, with a full loft, and of an address
that faults. -/
theorem witness_TaskInstructions_launch :
    let x := taskX
    let s := taskAt 0x30000 4080 launchBytes
    let fault := taskAt (2 ^ 36) 4080 launchBytes
    let full := { s with entries := ⟨(List.range 4096).map (fun i => (i, { live := true }))⟩ }
    Claims.Unflown 1 s ∧ Claims.UnitReads (.launch x) 1 s 0x30000 128 (s.mem.readBytes 128 0x30000) ∧
    (∃ c s1, (fault.issued (.launch x) 1).checkElem ((fault.issued (.launch x) 1).ctx 1) { read := true } (2 ^ 36) 128 128 =
      (.error c, s1)) ∧
    (∀ t ∈ [s, fault], t.issuer = .warp 1 ∧ ∀ i ∈ [Instr.launch x, .launcht x], issueFault i ((t.warp 1).beginIssue i) = none) ∧
    (s.atIssue (.launch x) 1).activeReal x.g ≠ 0 ∧
    okFst ((s.issued (.launcht x) 1).placeSa 1 4080 16 16) (.scratch 1 4080) = true ∧
    (recordBad (s.mem.readBytes 128 0x30000) = false ∧ recordBad (List.replicate 128 0) = true) ∧
    bit (s.job 0).passed 0 = false ∧ s.loftFree 0 = 4096 ∧ full.loftFree 0 = 0 :=
  ⟨unflown_of (by decide +kernel), unitReads_of (by decide +kernel) (by decide +kernel), fault_of (by decide +kernel),
   by decide +kernel⟩

/-- SPAWN and NODEQ of the last node, of the first number that no graph has, and of a node beyond the block's graph;
with a bin and without; CANCEL of each kind. -/
theorem witness_TaskInstructions_nodes :
    let x := taskX
    let s := taskAt 63 63 nodeBytes
    let key := binKey 0 0 0x2F040 63
    let none_ := s.setBlock 1 { s.block 1 with rcd := { (s.block 1).rcd with nodes := 63 } }
    let bin := s.setBin key { live := true, node := 63, cap := 1, rsz := 1, count := 1 }
    let far := s.setBlock 1 { s.block 1 with rcd := { (s.block 1).rcd with graph := 2 ^ 36 } }
    let wide := s.setBin key { live := true, node := 63, cap := 1, rsz := 32, count := 1 }
    let va := fun (s : State) => wrap64 (((s.block 1).rcd.graph + 64 * 63 : Nat) : Int)
    let c := fun (v : Nat) => taskAt v 0 []
    let passed := (c 0).setJob 0 { (c 0).job 0 with passed := allDies }
    let small := wide.setWarp 1 { wide.warp 1 with vb := 32 }
    let narrow := { s.setWarp 1 { s.warp 1 with vb := 8 } with mem := s.mem.writeBytes 0x30022 [7] }
    let bad := fun (i : Instr) => (far.issued i 1).checkElem ((far.issued i 1).ctx 1) { read := true } (va far) 64 64
    Claims.Unflown 1 s ∧ Claims.UnitReads (.spawn x) 1 s (va s) 64 (s.mem.readBytes 64 0x30000) ∧
    Claims.UnitReads (.nodeq x) 1 s (va s) 64 (s.mem.readBytes 64 0x30000) ∧
    (Claims.Unflown 1 narrow ∧ Claims.UnitReads (.spawn x) 1 narrow (va s) 64 (narrow.mem.readBytes 64 0x30000)) ∧
    ((∃ f s1, bad (.spawn x) = (.error f, s1)) ∧ ∃ f s1, bad (.nodeq x) = (.error f, s1)) ∧
    (∀ t ∈ [s, none_, bin, far, small, narrow, c 0, passed, c (2 ^ 16), c 1], t.issuer = .warp 1 ∧
      ∀ i ∈ [Instr.spawn x, .nodeq x, .cancel x], issueFault i ((t.warp 1).beginIssue i) = none) ∧
    (s.atIssue (.spawn x) 1).activeReal x.g ≠ 0 ∧ 64 ≤ (((taskAt 0 64 []).atIssue (.spawn x) 1).rdS 3).toNat ∧
    (none_.block 1).rcd.nodes ≤ 63 ∧ (63 < (s.block 1).rcd.nodes ∧ (s.block 1).rcd.graph ≠ 0) ∧
    (s.bin key).live = false ∧
    (descBad (s.mem.readBytes 64 0x30000) 0x2F040 64 0 = false ∧ descBad (List.replicate 64 0) 0x2F040 64 0 = true) ∧
    (descBad (narrow.mem.readBytes 64 0x30000) 0x2F040 64 0 = false ∧
      (narrow.warp 1).vb ≤ x.a + (NodeDesc.of (narrow.mem.readBytes 64 0x30000) 0x2F040 64 0).rsz - 1) ∧
    ((bin.bin key).live = true ∧ x.a + (bin.bin key).rsz - 1 < (bin.warp 1).vb) ∧
    ((small.bin key).live = true ∧ (small.warp 1).vb ≤ x.a + (small.bin key).rsz - 1) ∧
    (2 ^ 16 ≤ (((c (2 ^ 16)).atIssue (.cancel x) 1).rdS 2).toNat ∧ ((c 1).job 1).live = false ∧
      ((c 0).job 0).live = true ∧ ((c 0).job 0).passed ≠ allDies ∧ (passed.job 0).passed = allDies) :=
  ⟨unflown_of (by decide +kernel), unitReads_of (by decide +kernel) (by decide +kernel),
   unitReads_of (by decide +kernel) (by decide +kernel),
   ⟨unflown_of (by decide +kernel), unitReads_of (by decide +kernel) (by decide +kernel)⟩,
   ⟨fault_of (by decide +kernel), fault_of (by decide +kernel)⟩, by decide +kernel⟩

/-- A pool that holds just one area gives it, whichever place firmware prefers. -/
theorem areaFor_only {s : State} {die n : Nat} (h : (s.savePools.get {} die).bytes = n) (k : s.areasOf die = []) :
    s.areaFor die n = some 0 := by
  unfold State.areaFor
  simp only [h, k, List.all_nil, Bool.and_true, List.map_nil]
  split
  · rename_i hw
    have := of_decide_eq_true hw
    exact congrArg some (by omega)
  · simp

/-- A die with a pool for one area of one warp, core 0 mapped, and an entry of one block bound to it. -/
def dispatchAt : State :=
  let s := State.reset.placeGround
  { s with
    savePools := ⟨[(0, { bytes := saveAreaSize 1, pbase := 0x100000, vbase := 0x100000 })]⟩
    entries := ⟨[(0, { live := true, rcd := { entry := 0x1000, grid := 1, wl := 1, dies := 1 }, grid := 1 })]⟩
    binds := ⟨[(0, BitVec.ofNat 64 (1 + 2 ^ 31))]⟩ }

/-- Whichever of the places firmware tries first, the one that may be taken is found. -/
theorem anyCore_only {s : State} {l : List Nat} {p : Nat → Bool} {a : Nat} (h : l.filter p = [a]) :
    (s.anyCore l).filter p = [a] := by
  unfold State.anyCore
  generalize Config.freeValue s.free % (l.length + 1) = k
  rw [← List.take_append_drop k l, List.filter_append, List.append_eq_singleton_iff] at h
  rw [List.filter_append, List.append_eq_singleton_iff]
  exact h.symm.imp And.symm And.symm

theorem permitted_only {s : State} {x : BlockRec} {l : List Nat} {c : Nat}
    (h : l.flatMap (fun d => (maskList (s.permits x d) 16).map (d * 16 + ·)) = [c]) : s.permitted x l = [c] := by
  have := anyCore_only (s := s) (p := fun _ => true) (a := c) ((List.filter_eq_self.mpr (fun _ _ => rfl)).trans h)
  rwa [List.filter_eq_self.mpr (fun _ _ => rfl)] at this

/-- What `Unwatched` asks, evaluated. -/
theorem unwatched_of {s : State} {b : Nat} (h : s.warps.cells.all (fun c => (List.range 32).all (fun l =>
      match (c.2.lane l).wait.place with
      | .scratch b' _ => b' != b
      | _ => true)) = true)
    (k : s.mccs.cells.all (fun c => c.2.inWait.isNone) = true) : Claims.Unwatched s b := by
  refine ⟨fun c hc l hl off e => ?_, fun c hc x hx => ?_⟩
  · have := List.all_eq_true.mp (List.all_eq_true.mp h c hc) l (List.mem_range.mpr hl)
    rw [e] at this
    simp at this
  · have := List.all_eq_true.mp k c hc
    rw [hx] at this
    simp at this

/-- A bin whose count is reached, and one whose timer is at its last moment; triggers of each outcome; a cancel that
has and has not passed every other die; a block whose warp has exited, in a cluster or not; a block and an instance that are
due again, cancelled or not. -/
theorem witness_TaskEvents :
    let d := dispatchAt
    let b := BitVec.ofNat 64 (1 + 2 ^ 31)
    let e := d.entry 0
    let rcd : BinRecord := { bytes := [0, 0, 0, 0, 0, 0, 0, 0], since := 5, publish := [], publisher := (0, 1, 1) }
    let bin := (warpAt id).setBin 0 { live := true, cap := 2, rsz := 1, count := 1, timer := 9995, records := [rcd] }
    let few := (warpAt id).setBin 0 { live := true, cap := 2, rsz := 1, count := 2, timer := 9996, records := [rcd] }
    let trig := fun (h : Option Bool) => (warpAt id).setEntry 0 { live := true, trigger := some (1, 0, 1), hit := h }
    let can := (warpAt id).setJob 0 { (warpAt id).job 0 with cancelled := true }
    let lastOp := flyingAt (dispatchAt.setJob 0 { live := true, cancelled := true, passed := allDies - 2 ^ 23 })
      { instr := some (.cancel taskX), args := [0], lanes := 1 }
    let done := warpAt (fun a => a.mapLanes (ones 32) (fun _ x => { x with st := .exited }))
    let member := fun (leaving : Bool) => done.setBlock 1 { done.block 1 with cluster := some 1, leaving := leaving }
    let busy := { (member true).setOp 1 { instr := some (.st {}), st := .flying, warp := 2, block := 2, seq := 1
                                          elems := [{ place := .scratch 1 0, size := 8 }] } with nextSeq := 9 }
    let inst := fun (ex : Bool) => (mccAt (fun m => { m with exited := ex })).setBlock 1 { (mccAt id).block 1 with again := true }
    let again := fun (c : Bool) => { (warpAt id).setBlock 1 { (warpAt id).block 1 with again := true, cancelDue := c } with
      savePools := dispatchAt.savePools, binds := dispatchAt.binds }
    let s1 := ((again false).freeBlock 1).draw
    let b1 := (again false).block 1
    d.areaFor 0 (saveAreaSize (e.rcd.wl + e.rcd.ws)) = some 0 ∧ Claims.Unwatched done 1 ∧
    (s1.permitted b1 (List.range 24) = [0] ∧ s1.areaFor 0 (saveAreaSize (b1.rcd.wl + b1.rcd.ws)) = some 0) ∧
    (d.bindsOf 0 = [b] ∧ e.live = true ∧ e.trigger = none ∧ e.nextB < e.rcd.grid ∧ bit e.rcd.dies 0 = true ∧ e.rcd.mentry = 0 ∧
      bits b.toNat 23 8 = 0 ∧ bit (bits b.toNat 31 16) 0 = true ∧ d.roomOn 0 e.rcd = some 0) ∧
    (((mccAt id).gang 1).live = true ∧ ∀ b ∈ ((mccAt id).gang 1).blocks, ((mccAt id).block b).st = .placed) ∧
    ((bin.bin 0).live = true ∧ 0 < Nat.min 1 (bin.bin 0).records.length ∧ (bin.bin 0).count ≤ (bin.bin 0).records.length ∧
      bin.loftFree 0 ≠ 0 ∧ (few.bin 0).records.length < (few.bin 0).count ∧ (few.bin 0).due = false) ∧
    ((bin.bin 0).records = [rcd] ∧ (bin.bin 0).timer ≠ 0 ∧ rcd.since + (bin.bin 0).timer ≤ bin.time ∧
      few.time < rcd.since + (few.bin 0).timer) ∧
    (∀ h ∈ [some true, some false, none], ((trig h).entry 0).live = true ∧ ((trig h).entry 0).hit = h) ∧
    (∃ c ∈ (trig none).blocks.cells, c.2.job = 0 ∧ c.2.st = .placed) ∧
    ((can.job 0).live = true ∧ (can.job 0).cancelled = true ∧ bit (can.job 0).passed 0 = false ∧ bit (can.job 0).passed 23 = false ∧
      ∀ c ∈ can.blocks.cells, c.2.job = 0 → c.2.core / 16 = 0 → c.2.st = .placed) ∧
    ((∀ d, d < 24 → d ≠ 23 → bit (lastOp.job 0).passed d = true) ∧ (lastOp.job 0).passed < 2 ^ 24 ∧
      (∀ c ∈ lastOp.blocks.cells, c.2.job = 0 → c.2.core / 16 ≠ 23) ∧ lastOp.ops.wf {} = true ∧ (lastOp.op 1).st = .flying ∧
      (lastOp.op 1).args = [0] ∧ (lastOp.op 1).orphan = false ∧ (∀ c ∈ lastOp.ops.cells, c.1 = 1) ∧
      (lastOp.warp 1).halted = false ∧ ∀ l, l < 32 → ((lastOp.warp 1).lane l).st.isParked = false) ∧
    ((done.block 1).st = .placed ∧ (done.block 1).again = false ∧ (done.block 1).gang = none ∧ (done.block 1).cluster = none ∧
      (∀ w ∈ (done.block 1).warps, (done.warp w).live = false ∨ (done.warp w).allExited = true) ∧
      bits (ofBytes (done.mem.readBytes 8 (done.block 1).savePa)) 32 32 = 0 ∧ (done.job 0).live = true ∧
      (done.job 0).cancelled = false ∧ (∀ c ∈ done.entries.cells, c.2.trigger = none) ∧ done.ops.cells = [] ∧
      ∀ c ∈ done.blocks.cells, c.1 ≠ 1 → c.2.job ≠ 0) ∧
    (s1.roomOn 0 b1.rcd = some 0 ∧ (member true).cleaveFree 1 (member true).nextSeq = true ∧ busy.cleaveFree 1 busy.nextSeq = false ∧
      ((inst true).mccDone 1 = true ∧ (inst false).mccDone 1 = false ∧ ((inst true).block 1).gang = some 1 ∧
        ∀ m ∈ ((inst true).gang 1).blocks, ((inst true).block m).warps = [])) ∧
    (∀ c ∈ [true, false], ((again c).block 1).again = true ∧ ((again c).block 1).gang = none ∧ 1 < (again c).nextBlock ∧
      (again c).ops.cells = [] ∧ (∀ m ∈ (again c).instanceOf 1, ((again c).block m).cancelDue = c) ∧ (again c).instanceOf 1 ≠ []) :=
  ⟨areaFor_only (by decide +kernel) (by decide +kernel), unwatched_of (by decide +kernel) (by decide +kernel),
   ⟨permitted_only (by decide +kernel), areaFor_only (by decide +kernel) (by decide +kernel)⟩, by
     and_intros
     all_goals decide +kernel⟩

/-- An instance of one block goes where its core has room and the pool an area. -/
theorem putInstance_one {s : State} {e : BlockRec} {b off : Nat} (n : e.rcd.blocks = 1)
    (r : ({ s with nextGang := s.nextGang + 1 } : State).roomOn 0 e.rcd = some b)
    (h : ({ s with nextGang := s.nextGang + 1 } : State).areaFor 0 (saveAreaSize e.rcd.warps) = some off) :
    ∃ t, s.putInstance 0 0 0 e = some t := by
  unfold State.putInstance
  rw [n]
  simp only [State.putGang, State.putGangBlock, Nat.zero_mul, Nat.mul_zero, Nat.add_zero, List.length_nil, r, h]
  exact ⟨_, rfl⟩

/-- A bay of four free cores takes an instance; the one bay that a bind record permits takes it again. -/
theorem witness_TaskEvents_gang :
    let s := { dispatchAt with coreMap := ⟨(List.range 4).map (fun c => (c, 128 + c))⟩ }
    let e : BlockRec := { rcd := { entry := 0x1000, mentry := 0x1000, grid := 1, wl := 1, dies := 1 }, grid := 1 }
    let k := { (mccAt id).setBlock 1 { (mccAt id).block 1 with again := true } with
      savePools := dispatchAt.savePools, binds := dispatchAt.binds }
    let s1 := (((k.gang 1).blocks.foldl State.freeBlock k).freeBay 1).draw
    let x := k.block 1
    (e.rcd.mentry ≠ 0 ∧ ∃ t, s.putInstance 0 0 0 e = some t) ∧ s1.permittedBays x 1 (List.range 24) = [0] ∧
    (∃ t, s1.putInstance 0 0 0 { job := x.job, grid := x.grid, b := x.b, rcd := x.rcd, entry := x.entry, relaunches := 1 } = some t) ∧
    x.gang = some 1 ∧ k.bayBusy (k.gang 1).bay = false :=
  ⟨⟨by decide, putInstance_one (b := 0) rfl (by decide +kernel) (areaFor_only (by decide +kernel) (by decide +kernel))⟩,
   anyCore_only (by decide +kernel),
   putInstance_one (b := 0) (by decide +kernel) (by decide +kernel) (areaFor_only (by decide +kernel) (by decide +kernel)),
   by decide +kernel⟩

/-- Warp 1 with a handler in its record and a delivery pending. -/
def preAt (c : PreCause) (f : Warp → Warp) : State :=
  let s := warpAt (fun a => f { a with preempt := some c, deadline := 10000, inRun := false })
  { s.setBlock 1 { s.block 1 with preempt := some c, rcd := { (s.block 1).rcd with pentry := 0x2000, dies := 1 } } with
    binds := dispatchAt.binds }

theorem atHead_of {s : State} {w : Nat} (h : (s.atHead w, (s.warp w).blocking) = (true, .free)) : Claims.AtHead s w :=
  ⟨(Prod.mk.inj h).1, fun l hl => by rw [(Prod.mk.inj h).2] at hl; nomatch hl⟩

/-- A first delivery and one that is held; an entry; a save at the deadline, one of a halted warp, one that waits for a halt
that is due, and one in a handler; the ways of leaving a core, an instance among them; a resume routine at its last moment;
a spare core, a core that fails with and without a spare. -/
theorem witness_PreemptionEvents :
    let s := warpAt id
    let p := preAt .preempt id
    let halted := preAt .preempt (fun a => { a with halted := true })
    let due := preAt .preempt (fun a => { a with haltDue := some { cause := 1 } })
    let handler := preAt .preempt (fun a => { a with mode := .handler })
    let gone := fun (c : PreCause) => preAt c (fun a => { a with yielded := .yielded })
    let gang := mccAt id
    let left := { (mccAt (fun m => { m with stopped := true })) with
      blocks := ⟨[(1, { (mccAt id).block 1 with preempt := some .preempt })]⟩ }
    let res := fun (t : Nat) => warpAt (fun a => { a with mode := .resume, placedAt := t })
    let mig := { preAt .migrate id with blocks := {}, phys := ⟨[(1, 1)]⟩ }
    let early := { res 0 with time := 99999 }
    let late := { res 0 with time := 100000 }
    let good := fun (t : State) => (t.block 1).st = .placed ∧ (t.block 1).again = false
    (Claims.AtHead p 1 ∧ Claims.AtHead handler 1) ∧
    (good s ∧ (s.block 1).gang = none ∧ (s.block 1).preempt = none ∧ (s.instanceOf 1).Nodup) ∧
    (good gang ∧ (gang.block 1).gang = some 1 ∧ (gang.instanceOf 1).Nodup ∧ gang.instanceOf 1 = [1]) ∧
    (good p ∧ (p.block 1).preempt = some .preempt ∧ (p.block 1).held = none) ∧
    ((p.warp 1).preempt = some .preempt ∧ (p.warp 1).live = true ∧ (p.warp 1).mode = .normal ∧ (p.warp 1).halted = false ∧
      (p.warp 1).yielded = .no ∧ (p.warp 1).haltDue = none ∧ (p.block 1).rcd.pentry ≠ 0) ∧
    ((due.warp 1).haltDue ≠ none ∧ (due.warp 1).preempt = some .preempt ∧ (handler.warp 1).mode = .handler ∧
      (handler.warp 1).halted = false) ∧
    (∀ t ∈ [p, halted, handler], t.handlerDone 1 = true ∧ (t.warp 1).index < (t.block 1).warps.length ∧ (t.warp 1).vb ≤ 1024 ∧
      (t.warp 1).sb ≤ 512 ∧ (t.block 1).warps.length ≤ 32 ∧ (t.warp 1).deadline ≤ t.time ∧ t.scalarsBound 1 = true ∧
      (t.warp 1).haltDue = none) ∧
    (halted.warp 1).halted = true ∧
    (∀ c ∈ [PreCause.preempt, .migrate, .cancel, .scantest], good (gone c) ∧ ((gone c).block 1).preempt = some c ∧
      ((gone c).block 1).frozen = false ∧ ((gone c).block 1).moved = false ∧ ((gone c).block 1).cancelDue = false ∧
      ((gone c).block 1).alloc ≤ 2 ^ 20 ∧ (∀ w ∈ ((gone c).block 1).warps, ((gone c).warp w).yielded ≠ .no) ∧
      (gone c).mccStopped 1 = true ∧ ∀ m ∈ (gone c).instanceOf 1, (gone c).allYielded m = true) ∧
    (good left ∧ (left.block 1).gang = some 1 ∧ (left.block 1).preempt = some .preempt ∧ left.mccStopped 1 = true ∧
      (left.gang 1).blocks.Nodup ∧ (∀ w ∈ (left.block 1).warps, (left.warp w).live = false) ∧
      ∀ m ∈ (left.gang 1).blocks, left.allYielded m = true ∧ (left.block m).preempt ≠ none) ∧
    (∀ t ∈ [early, late], (t.warp 1).live = true ∧ (t.warp 1).mode = .resume ∧ (t.warp 1).halted = false ∧
      (t.warp 1).haltDue = none) ∧
    (late.warp 1).placedAt + 100000 ≤ late.time ∧ early.time < (early.warp 1).placedAt + 100000 ∧
    (mig.mapped 0 = true ∧ mig.physFree 0 1 = true ∧ ∀ c ∈ mig.onCore 0, c.2.frozen = true) ∧
    ((s.warp 1).live = true ∧ (s.warp 1).groupPc = some (0x1000, true) ∧ ∃ c ∈ s.onCore 0, c.2.frozen = false) ∧
    (∀ c, c < 16 → ¬ (mig.mapped (0 * 16 + c) = true ∧ mig.physOf (0 * 16 + c) = 16)) ∧
    (mig.mapped 0 = true ∧ mig.physOf 0 = 0 ∧ mig.onCore 0 = [] ∧ s.onCore 0 ≠ []) ∧
    (gang.mcc 0).gang ≠ none ∧ (s.mcc 0).gang = none :=
  ⟨⟨atHead_of (by decide +kernel), atHead_of (by decide +kernel)⟩, by
    and_intros
    all_goals decide +kernel⟩

/-- A block that comes back to the one core its bind record permits, by each of a warp's ways, or where it was moved to; and
an instance to the one bay. -/
theorem witness_PreemptionEvents_return :
    let at_ := fun (y : Yielded) (r : Nat) =>
      let s := preAt .preempt (fun a => { a with yielded := y, resumePc := r, halted := y == .halted })
      s.setBlock 1 { s.block 1 with st := .waiting }
    let s := at_ .forced 0
    let there := s.setBlock 1 { s.block 1 with st := .placed, moved := true }
    let gang := { mccAt id with
      blocks := ⟨[(1, { (mccAt id).block 1 with st := .waiting, preempt := some .preempt })]⟩, binds := dispatchAt.binds
      mccs := {} }
    (s.permitted (s.block 1) [0] = [0] ∧ gang.permittedBays (gang.block 1) 1 [0] = [0]) ∧
    (∀ y ∈ [Yielded.forced, .halted, .yielded], ∀ r ∈ [0, 0x3000], ((at_ y r).block 1).st = .waiting ∧
      ((at_ y r).block 1).killed = false ∧ ((at_ y r).block 1).gang = none ∧ ((at_ y r).block 1).held = none ∧
      ((at_ y r).block 1).warps = [1] ∧ ((at_ y r).warp 1).block = 1 ∧ ((at_ y r).warp 1).live = true ∧
      ((at_ y r).warp 1).allExited = false ∧ ((at_ y r).warp 1).yielded = y ∧ ((at_ y r).block 1).cancelDue = false) ∧
    ((s.block 1).core = 0 ∧ s.roomOn 0 (s.block 1).rcd = some 0 ∧ (there.block 1).st = .placed ∧ (there.block 1).moved = true ∧
      (s.warp 1).index < 1 ∧ (s.warp 1).vb ≤ 1024 ∧ (s.warp 1).sb ≤ 512) ∧
    ((gang.block 1).st = .waiting ∧ (gang.block 1).killed = false ∧ (gang.block 1).gang = some 1 ∧
      (gang.gang 1).blocks = [1] ∧ gang.roomOn 0 (gang.block 1).rcd ≠ none) :=
  ⟨⟨permitted_only (by decide +kernel), anyCore_only (by decide +kernel)⟩, by decide +kernel⟩

/-- A handler with operands in x12, x13 and x6. -/
def slAt (lo hi v : Nat) (f : Slice → Slice) : State :=
  handlerAt (fun c => f (((c.wr 12 (BitVec.ofNat 32 lo)).wr 13 (BitVec.ofNat 32 hi)).wr 6 (BitVec.ofNat 32 v)))

/-- Addresses that the tenant owns, that it does not, that are misaligned or too large; lines present, absent, pending and
pinned by a core; a message at the end of DMEM and one beyond; sixteen increments held. -/
theorem witness_HandlerInstructions :
    let x : SlArgs := { rd := 5, rs1 := 12, rs2 := 6, f7 := 1 }
    let pa := fun (s : State) => ((s.slice 0).rd 12).toNat + ((s.slice 0).rd 13).toNat * 2 ^ 32
    let s := slAt 0 0 0x1FFC0 id
    let p := mapped { s with l2 := ⟨[(0, { present := true })]⟩ }
    let pin := fun (t : State) => { t with l1 := ⟨[(l1Key 5 0, { valid := true, pinned := true })]⟩ }
    let coming := { s with l2 := ⟨[(0, { pending := true })]⟩ }
    let eight := slAt 0 0 0 (fun c => { c with buffer := ⟨(List.range 8).map (fun i => (128 * (i + 1), some 1))⟩ })
    let c := s.slice 0
    (∀ t ∈ [s, p, pin p, pin s, coming, eight], Handles 0 t ∧ pa t = 0) ∧ c.count + 1 < c.budget ∧ (x.rs1 % 2 = 0 ∧ x.rs1 ≠ 0) ∧
    (pa s < 2 ^ 52 ∧ pa s % 4 = 0 ∧ c.running.owns 0 (pa s) = true) ∧
    2 ^ 52 ≤ pa (slAt 0 (2 ^ 20) 0 id) ∧ pa (slAt 2 0 0 id) % 4 ≠ 0 ∧
    (slAt 128 0 0 id).issuer = .slice 0 ∧ ((slAt 128 0 0 id).slice 0).running.owns 0 128 = false ∧
    (∀ t ∈ [p, pin p], (t.l2.get {} 0).present = true) ∧ (∀ t ∈ [pin s, coming, s], (t.l2.get {} 0).present = false) ∧
    (∀ t ∈ [p, coming, s], t.homeHeld 0 false = false) ∧ (∀ t ∈ [pin p, pin s], t.homeHeld 0 false = true) ∧
    (coming.l2.get {} 0).pending = true ∧
    (c.bufferLines.length < 8 ∧ 8 ≤ (eight.slice 0).bufferLines.length ∧ ∀ b ∈ (eight.slice 0).buffer.cells, b.1 / 128 ≠ 0) ∧
    ((c.rd 6).toNat % 64 = 0 ∧ c.running.dlo ≤ (c.rd 6).toNat ∧ (c.rd 6).toNat + 64 ≤ c.running.dhi ∧
      c.running.dhi < 0x20000 + 64 ∧ 2 ^ 57 ≤ pa (slAt 0 (2 ^ 25) 0 id)) ∧
    (p.sliceVa 0 0 0).1 = some 0 ∧ (s.sliceVa 0 0 0).1 = none ∧
    (0xFFFF0 % 16 = 0 ∧ 0xFFFF0 < 2 ^ 20 ∧ c.arrivals.length < 16 ∧ 16 ≤ (List.replicate 16 (0, 0, 1)).length) ∧
    (match rvStep (.opImm .add 6 5 1) 4 c.running.dlo c.running.dhi c with
      | .ok n _ => n == 1
      | .bad _ => false) = true ∧
    (match rvStep (.load ⟨4, false⟩ 6 0 2) 4 c.running.dlo c.running.dhi c with
      | .ok _ _ => false
      | .bad e => e == 0x05) = true := by
  unfold Handles
  decide +kernel

theorem witness_BaseInstructions : (4 : Nat) ∈ [1, 2, 4] ∧ 0x1FFFD % 4 ≠ 0 ∧ 0x1FFFC % 4 = 0 ∧ 0x1FFFC + 4 ≤ 0x20000 ∧
    ¬ 0x20000 + 4 ≤ 0x20000 ∧ RvOp.sra ∈ [RvOp.add, .slt, .sltu, .xor, .or, .and, .sll, .srl, .sra] := by decide

/-- A warp of ASID 0 in a block with handle 7, and slice core 0 with a handler of the same ASID. -/
def placeBoth : State :=
  let s := warpAt id
  { s.setBlock 1 { s.block 1 with handle := 7 } with slices := (handlerAt id).slices }

/-- The handler's window and block 1 of ASID 0 with handle 7: a line absent, read by a load, pending and present; a queue
that is full and one that is not; a handler that starts, one whose tenant is gone, one at its budget, and one that commits,
whose line is free or pinned, whose increments reach a word or none; one that reads an absent line. -/
theorem witness_HandlerEvents :
    let s : State := { placeBoth with issuer := .none }
    let line := fun (x : L2Line) => ({ s with l2 := ⟨[(0, x)]⟩ } : State)
    let load := flyingAt s { instr := some (.ld {}), lanes := 1, elems := [{ place := .home 0 false false, size := 8 }] }
    let e : SliceEvent := { kind := 3, tenant := 0, msg := List.replicate 64 1 }
    let q := s.setSlice 0 { s.slice 0 with st := .idle, queue := [e] }
    let full := s.setSlice 0 { s.slice 0 with queue := List.replicate 64 e }
    let bad := q.setSlice 0 ({ s.slice 0 with st := .idle, queue := [e] }.setTenant 0 {})
    let spent := s.setSlice 0 { s.slice 0 with count := 512 }
    let com := fun (b : Table (Option Byte)) (l : List (Nat × Nat × Nat)) =>
      s.setSlice 0 { s.slice 0 with st := .committing, event := some e, buffer := b, arrivals := l }
    let buf := com ⟨[(0, some 1)]⟩ []
    let held := { buf with l1 := ⟨[(l1Key 5 0, { valid := true, pinned := true })]⟩ }
    let inc := com {} [(7, 4080, 5)]
    let lost := com {} [(8, 4080, 5)]
    let reads := slAt 0 0 0 (fun c => { c with imem := c.imem.writeBytes 0 (bytesOf 4 0x0206028B) })
    Claims.NoWaiters inc ∧
    s.boundTenant 0 0 0 0 = some 0 ∧ (ownerOf 0 = 0 ∧ isLocal 0 = true ∧ bits 0 50 2 = 0) ∧
    ((load.l2.get {} 0).present = false ∧ (load.l2.get {} 0).pending = false ∧
      ∃ c ∈ load.ops.cells, c.2.asid = 0 ∧ (load.block c.2.block).handle = 7 ∧ load.readsHome c.2 0 = true) ∧
    (((line { pending := true, asid := some 0 }).l2.get {} 0).pending = true ∧
      ((line { present := true, dirty := true, asid := some 0 }).l2.get {} 0).present = true ∧
      (s.l2.cells.filter (fun c => c.2.present && ownerOf (c.1 * 128) == 0)).length < 24576) ∧
    (¬ (64 ≤ (s.slice 0).queue.length) ∧ 64 ≤ (full.slice 0).queue.length) ∧
    ((q.slice 0).st = .idle ∧ (q.slice 0).queue = [e] ∧ ((q.slice 0).tenant 0).valid = true ∧
      ((q.slice 0).tenant 0).entry 3 ≠ 0xFFFF ∧ ((bad.slice 0).tenant 0).valid = false ∧ (bad.slice 0).queue = [e]) ∧
    ((spent.slice 0).st = .running ∧ (spent.slice 0).budget ≤ (spent.slice 0).count) ∧
    ((buf.slice 0).st = .committing ∧ (buf.slice 0).event = some e ∧ (buf.slice 0).buffer.wf none = true ∧
      (buf.slice 0).arrivals = [] ∧ (buf.slice 0).buffer.cells ≠ [] ∧
      ∀ b ∈ (buf.slice 0).buffer.cells, buf.homeHeld (b.1 / 128 * 128) false = false ∧
        held.homeHeld (b.1 / 128 * 128) false = true) ∧
    ((inc.slice 0).arrivals = [(7, 4080, 5)] ∧ (inc.slice 0).buffer = {} ∧ inc.blockOfHandle 7 = some 1 ∧
      (inc.block 1).frozen = false ∧ (inc.block 1).standing = true ∧ (inc.block 1).imaged = false ∧
      (inc.job (inc.block 1).job).asid = ((inc.slice 0).tenant 0).asid ∧ 4080 + 16 ≤ (inc.block 1).alloc) ∧
    (lost.blockOfHandle 8 = none ∧ (lost.slice 0).arrivals = [(8, 4080, 5)]) ∧
    ((reads.slice 0).st = .running ∧ reads.readsLine 0 = some 380 ∧ (reads.slice 0).count + 380 < (reads.slice 0).budget) := by
  refine ⟨noWaiters_of (by decide +kernel) (by decide +kernel), ?_⟩
  decide +kernel

/-- Messages on their way to slice 0, one whose edges are not met, an SMSG at issue with and without a reply, and one with
its reply known, whose block stands, is frozen or is gone. -/
theorem witness_HandlerEvents_messages :
    let s := mapped placeBoth
    let y : Mem := { d := 8, a := 2, off := .reg 6 none, strm := 7 }
    let ctl := fun (v : Nat) => memAt 0 (fun a => a.wrS 16 (BitVec.ofNat 64 v))
    let op := fun (r : Option Nat) => flyingAt s { instr := some (.smsg {}), lanes := 1, args := [0, 0, 1, 1, 4088], reply := r }
    let late := (flyingAt s { instr := some (.smsg {}), lanes := 1, args := [0, 0, 1, 1, 4088], after := 2, seq := 3 }).setOp 2
      { instr := some (.st {}), st := .flying, warp := 1, block := 1, strm := 1, lanes := 1, elems := [{}] }
    let told := op (some 5)
    let frozen := told.setBlock 1 { told.block 1 with frozen := true }
    let gone := { told.setOp 1 { told.op 1 with orphan := true } with blocks := {} }
    let out1 := s.setSlice 1 { s.slice 1 with outbox := [(0, 0, [])] }
    let t := ctl (2 ^ 32 + 4088)
    let edges := fun (s : State) => (s.releaseFor (s.opCore (s.op 1)) 1 false (s.op 1).after 1).edgesMet 1 false (s.op 1).after 1 (s.op 1).seq
    allIssue t [.smsg y] ∧
    (∃ s1, (t.issued (.smsg y) 1).checkElem ((t.issued (.smsg y) 1).ctx 1) { read := true } 0 1 8 = (.ok (.home 0 false false), s1)) ∧
    Claims.Calm (told.warp 1) ∧ Claims.NoWaiters told ∧
    ((op none).op 1 |>.st) = .flying ∧ ((op none).op 1).sent = false ∧ ownerOf (SmsgArgs.of ((op none).op 1).args).pa = 0 ∧
    (edges (op none) = true ∧ edges late = false) ∧ (out1.slice 1).outbox = [(0, 0, [])] ∧ ownerOf 0 = 0 ∧
    y.strm < 8 ∧ (t.atIssue (.smsg y) 1).activeReal {} ≠ 0 ∧ (t.atIssue (.smsg y) 1).memAddr y false 0 = 0 ∧
    (t.atIssue (.smsg y) 1).mustStall true y.strm ((t.atIssue (.smsg y) 1).activeReal {}) = 0 ∧
    (bits (2 ^ 32 + 4088) 25 7 = 0 ∧ bits (2 ^ 32 + 4088) 33 31 = 0 ∧ bit (2 ^ 32 + 4088) 32 = true ∧
      ((t.atIssue (.smsg y) 1).rdS 16).toNat = 2 ^ 32 + 4088) ∧
    okFst (t.resolveSa 1 4088 8) (.scratch 1 4088) = true ∧ bits (2 ^ 25) 25 7 ≠ 0 ∧ isWindow windowBase = true ∧
    ((told.op 1).reply = some 5 ∧ (told.op 1).orphan = false ∧ (SmsgArgs.of (told.op 1).args).reply = true ∧
      (told.block 1).frozen = false ∧ (told.block 1).standing = true ∧ (told.block 1).imaged = false) ∧
    ((frozen.block 1).frozen = true ∧ (frozen.op 1).reply = some 5) ∧
    ((gone.op 1).reply = some 5 ∧ (gone.op 1).orphan = true ∧ gone.issuerStands (gone.op 1) = false ∧
      (gone.block 1).frozen = false) := by
  refine ⟨allIssue_of rfl (by decide +kernel), okIs_of (by decide +kernel), by unfold Claims.Calm; decide +kernel,
    noWaiters_of (by decide +kernel) (by decide +kernel), ?_⟩
  and_intros
  all_goals decide +kernel

/-- Warp 1, whose job has a group of two ranks, before a transfer of 0x30000 with these operands. -/
def fabAt (d0 d1 d2 lva : Nat) : State :=
  let s := memAt lva (fun a => ((a.wrS 8 (BitVec.ofNat 64 d0)).wrS 9 (BitVec.ofNat 64 d1)).wrS 10 (BitVec.ofNat 64 d2))
  { s with groups := ⟨[(0, { live := true, id := 1, n := 2, ids := [0, 1], asids := [0, 0] })]⟩ }

def fabX : Mem := { d := 8, a := 2, off := .reg 6 none, strm := 7, g := { p := 1 } }

/-- R367's operands, as the statement takes them apart. -/
def legalXfer (get : Bool) (d0 d1 d2 : Nat) : Bool :=
  bits d0 57 6 == 0 && (!bit d0 63 || bits d0 20 37 == 0) && bits d1 40 23 == 0 && bits d1 25 7 == 0 &&
  (bit d1 63 || get || bits d1 20 5 == 0) && 16 ≤ bits d2 32 32 && bits d2 32 32 ≤ 2 ^ 24 && bits d2 32 32 % 16 == 0 &&
  (bit d1 63 || bits d1 0 25 % 16 == 0)

/-- The longest legal transfer, and operands that are illegal, misaligned, or name no rank of the group; a port and one
beyond the last. -/
theorem witness_Fabric :
    let s := fabAt 16 (2 ^ 32 + 4080) (2 ^ 56) 0x30000
    let a := s.atIssue (.fxfer fabX) 1
    let g := s.groups.get {} (s.block a.block).job
    let port := fun (n : Nat) => warpAt (fun a => a.wrS 2 (BitVec.ofNat 64 n))
    let q : R3 := { d := 5, a := 2 }
    allIssue s [.fxfer fabX, .fget fabX, .coll fabX] ∧ allIssue (port 35) [.flinkq q] ∧ fabX.strm < 8 ∧ a.activeReal fabX.g ≠ 0 ∧
    (a.memAddr fabX false 0 = 0x30000 ∧ (a.rdS 8).toNat = 16 ∧ (a.rdS 9).toNat = 2 ^ 32 + 4080 ∧ (a.rdS 10).toNat = 2 ^ 56) ∧
    (legalXfer false 16 (2 ^ 32 + 4080) (2 ^ 56) = true ∧ legalXfer true 16 (2 ^ 32 + 4080) (2 ^ 56) = true) ∧
    (∀ d ∈ [(2 ^ 57, 0, 2 ^ 36), (2 ^ 63 + 2 ^ 20, 0, 2 ^ 36), (0, 2 ^ 40, 2 ^ 36), (0, 2 ^ 25, 2 ^ 36), (0, 2 ^ 20, 2 ^ 36),
      (0, 8, 2 ^ 36), (0, 0, 0), (0, 0, 2 ^ 56 + 2 ^ 36), (0, 0, 17 * 2 ^ 32)], legalXfer false d.1 d.2.1 d.2.2 = false) ∧
    ((fabAt 0 0 0 0x30008).atIssue (.fget fabX) 1).memAddr fabX false 0 % 16 ≠ 0 ∧ ¬ (bit 8 63 = true ∨ bits 8 0 57 % 16 = 0) ∧
    (g.live = true ∧ bits (2 ^ 32 + 4080) 32 8 < g.n ∧ g.n ≤ bits (2 ^ 33) 32 8) ∧
    (a.mustStall true fabX.strm (a.activeReal fabX.g) = 0 ∧
      (s.atIssue (.coll fabX) 1).mustStall true fabX.strm ((s.atIssue (.coll fabX) 1).activeReal fabX.g) = 0) ∧
    ((port 35).atIssue (.flinkq q) 1).active q.g ≠ 0 ∧
    (((port 35).atIssue (.flinkq q) 1).rdS 2).toNat = 35 ∧ (((port 36).atIssue (.flinkq q) 1).rdS 2).toNat = 36 :=
  ⟨allIssue_of rfl (by decide +kernel), allIssue_of rfl (by decide +kernel), by decide +kernel⟩

/-- A transfer of 16 bytes at `lva` in flight, its word at `aw`, with a rank's bytes 16 up of a block's scratchpad. -/
def xferAt (i : Instr) (lva nw aw rank : Nat) : State :=
  let s := flyingAt (fabAt 0 0 0 0) { instr := some i, lanes := 2 ^ 31, args := [lva, nw, aw, 16, 31, 2 ^ 63 + 16, rank, 0] }
  s.setBlock 1 { s.block 1 with entry := 24 * 4096 }

/-- A collective in flight whose parameter block at 0x30000 holds these bytes. -/
def collAt (bs : List Byte) : State :=
  let s := flyingAt (fabAt 0 0 0 0) { instr := some (.coll fabX), lanes := 2 ^ 31, args := [0x30000, 31] }
  { s with mem := s.mem.writeBytes 0x30000 bs }

/-- An all-reduce of one u32 element from 0x40000 to 0x50000, tag 7. -/
def collBytes : List Byte :=
  bytesOf 8 0x40000 ++ bytesOf 8 0x50000 ++ bytesOf 8 1 ++ bytesOf 4 0x500 ++ bytesOf 4 0 ++ bytesOf 4 1 ++ bytesOf 4 4080 ++
    bytesOf 8 7 ++ List.replicate 80 0

/-- The places that a transfer of the first operation reaches here, after what its mask releases. -/
def xferPlaces (s : State) (need : Need) : Except (Nat × Nat) (List (Place × Nat)) × State :=
  (s.opRelease (s.op 1)).fabricRange ((s.op 1).ctx s) (some (s.asIssued (s.op 1))) need (XferArgs.of (s.op 1).args).lva
    (XferArgs.of (s.op 1).args).len

theorem fst_of {α β : Type} {x : α × β} {a : α} (h : x.1 = a) : ∃ b, x = (a, b) := ⟨x.2, Prod.ext h rfl⟩

/-- Transfers to another rank and to the module's own whose bytes may be read and written, one whose address is not
mapped, one whose word lies outside, and the last moment before and the first after a timeout. -/
theorem witness_Fabric_transfers :
    let s := fun (rank : Nat) => xferAt (.fxfer fabX) 0x30000 0 4080 rank
    let f := fun (rank : Nat) => xferAt (.fget fabX) 0x30000 0 4080 rank
    let bad := xferAt (.fxfer fabX) (2 ^ 40) 0 4080 1
    let out := xferAt (.fget fabX) 0x30000 0 4096 1
    let here : List (Place × Nat) := [(.home 0x30000 false false, 16)]
    let there : List (Place × Nat) := [(.scratch 1 16, 16)]
    let rd := xferPlaces (s 0) { read := true }
    let wr := xferPlaces (f 0) { write := true }
    (∃ e s1, xferPlaces bad { read := true } = (.error e, s1)) ∧
    ((∃ s1, xferPlaces (s 0) { read := true } = (.ok here, s1)) ∧ (∃ s1, xferPlaces (s 1) { read := true } = (.ok here, s1)) ∧
      (∃ s1, xferPlaces (f 0) { write := true } = (.ok here, s1)) ∧ ∃ s1, xferPlaces (f 1) { write := true } = (.ok here, s1)) ∧
    ((∃ s2, rd.2.ownPlaces ((s 0).op 1) { write := true } = (some there, s2)) ∧
      ∃ s2, wr.2.ownPlaces ((f 0).op 1) { read := true } = (some there, s2)) ∧
    Claims.Off there 1 4080 ∧ Claims.Off here 1 4080 ∧
    (Claims.NoWaiters (s 0) ∧ Claims.NoWaiters (f 1) ∧ Claims.Calm ((s 0).warp 1) ∧ Claims.Calm ((f 1).warp 1)) ∧
    (∀ t ∈ [s 0, s 1, f 0, f 1, bad, out], (t.op 1).st = .flying ∧ t.copyEdges (t.op 1) = true ∧ (t.op 1).orphan = false) ∧
    (((s 0).op 1).instr = some (.fxfer fabX) ∧ ((f 0).op 1).instr = some (.fget fabX) ∧ (out.op 1).instr = some (.fget fabX)) ∧
    (∀ t ∈ [s 0, f 0], t.ownRank (t.op 1) = true) ∧ (∀ t ∈ [s 1, f 1], t.ownRank (t.op 1) = false) ∧
    (rd.2.fabricFree ((s 0).op 1) here = true ∧ (rd.2.ownPlaces ((s 0).op 1) { write := true }).2.fabricFree ((s 0).op 1) there = true ∧
      wr.2.fabricFree ((f 0).op 1) (here ++ there) = true) ∧
    ((rd.2.ownPlaces ((s 0).op 1) { write := true }).2.ownWord ((s 0).op 1) = some (1, 4080) ∧
      wr.2.localWord ((f 0).op 1) 4080 = some (1, 4080) ∧ wr.2.localWord (out.op 1) 4096 = none ∧
      (f 1).xferWord ((f 1).op 1) = some (1, 4080)) ∧
    (4080 + 16 ≤ ((f 0).block 1).alloc ∧ ((f 0).block 1).standing = true ∧ ((f 0).block 1).imaged = false ∧
      ((f 0).block 1).frozen = false) ∧
    ({ f 1 with time := 40000 } : State).timedOut ((f 1).op 1).issuedAt = true ∧
    ({ f 1 with time := 39999 } : State).timedOut ((f 1).op 1).issuedAt = false := by
  refine ⟨fault_of (by decide +kernel), ⟨okIs_of ?_, okIs_of ?_, okIs_of ?_, okIs_of ?_⟩, ⟨fst_of ?_, fst_of ?_⟩, ?_, ?_,
    ⟨noWaiters_of ?_ ?_, noWaiters_of ?_ ?_, ?_, ?_⟩, ?_⟩
  any_goals unfold Claims.Calm
  any_goals unfold Claims.Off
  all_goals and_intros
  all_goals decide +kernel

/-- A peer's bytes for the block and for memory, before and after their first; a block that the job lacks; an abort. -/
theorem witness_Fabric_peers :
    let s := xferAt (.fget fabX) 0x30000 0 4080 1
    let later := { s with xfers := ⟨[(5, .started 16), (6, .incremented)]⟩ }
    let mem := s.peerPlaces 0 false 0x30000 0 16 { write := true } true
    ((∃ s1, mem = (some [(.home 0x30000 false false, 16)], s1)) ∧
      (∃ s1, s.peerPlaces 0 true 4064 0 16 { write := true } true = (some [(.scratch 1 4064, 16)], s1)) ∧
      ∃ s1, s.peerPlaces 0 true 0 1 16 { write := true } true = (none, s1)) ∧
    Claims.Off [(.scratch 1 4064, 16)] 1 4080 ∧ Claims.NoWaiters s ∧
    ((s.groups.get {} 0).live = true ∧ s.xfers.get .none 5 = .none ∧ later.xfers.get .none 5 = .started 16) ∧
    ((s.block 1).standing = true ∧ (s.block 1).imaged = false ∧ (s.block 1).frozen = false ∧ 4080 + 16 ≤ (s.block 1).alloc) ∧
    (mem.2.peerFree [(.home 0x30000 false false, 16)] = true ∧ s.peerFree [(.scratch 1 4064, 16)] = true) ∧
    (s.peerWord 0 0 4080 = some (1, 4080) ∧ s.peerWord 0 0 4096 = none ∧ later.xfers.get .none 6 = .incremented) ∧
    (isLocal 0x30000 = true ∧ bits 0x30000 50 2 = 0 ∧ 0x30000 % 128 + 128 ≤ 128 ∧ s.homeHeld 0x30000 false = false ∧
      ({ s with l1 := ⟨[(l1Key 5 (0x30000 / 128), { valid := true, pinned := true })]⟩ } : State).homeHeld 0x30000 false = true) := by
  refine ⟨⟨fst_of ?_, fst_of ?_, fst_of ?_⟩, ?_, noWaiters_of ?_ ?_, ?_⟩
  any_goals unfold Claims.Off
  all_goals and_intros
  all_goals decide +kernel

/-- A malformed collective and a good one with its peer's bytes; a combination; links that are up, retraining, and lose a
lane. -/
theorem witness_Fabric_collectives :
    let bad := collAt []
    let s := collAt collBytes
    let o := s.op 1
    let g := s.groups.get {} o.job
    let p := CollBlock.of (s.mem.readBytes 128 0x30000)
    let q := (s.opRelease o).fabricPlace (o.ctx s) none { read := true } 0x30000 128
    let ls := q.2.fabricRange (o.ctx s) none { read := true } p.src (p.srcLen g.n)
    let ld := ls.2.fabricRange (o.ctx s) none { write := true } p.dst (p.dstLen g.n)
    let src : List (Place × Nat) := [(.home 0x40000 false false, 4)]
    let dst : List (Place × Nat) := [(.home 0x50000 false false, 4)]
    let down : State := { s with ports := ⟨[(35, { state := 1, failed := 0xFF, width := 2 })]⟩ }
    ((∃ s1, q = (.ok (.home 0x30000 false false), s1)) ∧ (∃ s1, ls = (.ok src, s1)) ∧ ∃ s1, ld = (.ok dst, s1)) ∧
    Claims.Off dst 1 4080 ∧ Claims.Calm (s.warp o.warp) ∧ Claims.NoWaiters s ∧
    (o.st = .flying ∧ o.instr = some (.coll fabX) ∧ s.copyEdges o = true ∧ o.args.headD 0 = 0x30000 ∧ 0x30000 % 128 = 0 ∧
      o.orphan = false) ∧
    (CollBlock.of (bad.mem.readBytes 128 0x30000)).malformed g = true ∧
    (p.malformed g = false ∧ p.srcLen g.n ≤ 2 ^ 36 ∧ p.dstLen g.n = 4) ∧
    (q.2.fabricFree o [(.home 0x30000 false false, 128)] = true ∧ q.2.localWord o p.aw = some (1, 4080) ∧
      ld.2.tagInUse o p.tag = false ∧ ld.2.fabricFree o (src ++ dst) = true) ∧
    ((p.result g.rank [ld.2.fabricRead src, [1, 0, 0, 0]]).length = p.dstLen g.n ∧ g.n = 2) ∧
    ((s.block 1).standing = true ∧ (s.block 1).imaged = false ∧ (s.block 1).frozen = false) ∧
    ([7, 2 ^ 32 - 1] ≠ [] ∧ ∀ v ∈ [7, 2 ^ 32 - 1], v < 2 ^ 32) ∧
    (bit (s.ports.get {} 35).lanes 7 = true ∧ (s.ports.get {} 35).state = 0 ∧ (down.ports.get {} 35).state = 1 ∧ (35 : Nat) < 36) := by
  refine ⟨⟨okIs_of ?_, okIs_of ?_, okIs_of ?_⟩, ?_, ?_, noWaiters_of ?_ ?_, ?_⟩
  any_goals unfold Claims.Calm
  any_goals unfold Claims.Off
  all_goals and_intros
  all_goals decide +kernel

/-- Warp 1 with operands in s2 to s5. -/
def powAt (a b c d : Nat) : State :=
  warpAt (fun w => (((w.wrS 2 (BitVec.ofNat 64 a)).wrS 3 (BitVec.ofNat 64 b)).wrS 4 (BitVec.ofNat 64 c)).wrS 5 (BitVec.ofNat 64 d))

def powX : R3 := { d := 9, a := 2, b := 3 }

/-- What each query reads; a word that decodes on each side, one that does not, a matrix instruction with formats that
have a price and with some that have none; intents at their limits, and a full table. -/
theorem witness_PowerInstructions :
    let s := powAt 0 0 0 0
    let selectors := (List.range 6).map (fun n => Instr.tokq { powX with c := n })
    let words := [0x2870000000000000, 3 * 2 ^ 62, 0x5030000000000000, 0x5000000000000000]
    let legal := fun (p q : Nat) => decide (p < 2 ^ 32 ∧ -12000 ≤ sext 32 p ∧ sext 32 p ≤ 12000 ∧ q % 2 ^ 32 ≤ 1000000 ∧
      q / 2 ^ 32 ≤ 60000000)
    let top := powAt 12000 (1000000 + 60000000 * 2 ^ 32) 0 0
    let one : State := { top with intents := ⟨[(63, { warp := 1, delta := 5 })]⟩ }
    let all : State := { top.setWarp 2 (top.warp 1) with intents := ⟨(List.range 64).map (fun k => (k, ({ warp := 2, delta := 1 } : Intent)))⟩ }
    allIssue s selectors ∧ allIssue top [.intent powX] ∧
    (∀ v ∈ words, allIssue (powAt v 0x0101 0 0) [.tokpr powX] ∧
      (((powAt v 0x0101 0 0).atIssue (.tokpr powX) 1).rdS 2).toNat = v) ∧
    (s.atIssue (.tokq powX) 1).active {} ≠ 0 ∧
    (words.map (fun v => bits v 62 2 == 3) = [false, true, false, false] ∧
      bits 0x5030000000000000 59 5 = 0xA ∧ bits 0x5030000000000000 52 7 ≤ 8) ∧
    (match decodeWord .mcc none none 0x5030000000000000 with
      | .ok i => (execPrice i 1 1).isSome && (execPrice i 21 1).isNone
      | .error _ => false) = true ∧
    (match decodeWord .vector none none 0x2870000000000000 with
      | .ok _ => true
      | .error _ => false) = true ∧
    (match decodeWord .vector none none (31 * 2 ^ 59) with
      | .ok _ => false
      | .error _ => true) = true ∧
    ((1 : Nat) ∈ List.range 21 ∧ 20 ∈ List.range 21 ∧ ¬ 21 ∈ List.range 21) ∧
    ((top.atIssue (.intent powX) 1).activeReal {} ≠ 0 ∧ ((top.atIssue (.intent powX) 1).rdS 2).toNat = 12000 ∧
      ((top.atIssue (.intent powX) 1).rdS 3).toNat = 1000000 + 60000000 * 2 ^ 32) ∧
    (legal 12000 (1000000 + 60000000 * 2 ^ 32) = true ∧ legal (2 ^ 32 - 12000) 0 = true ∧ legal 0 0 = true ∧
      legal (2 ^ 32) 0 = false ∧ legal 12001 0 = false ∧ legal (2 ^ 32 - 12001) 0 = false ∧ legal 1 1000001 = false ∧
      legal 1 (60000001 * 2 ^ 32) = false) ∧
    (∃ c ∈ one.intents.cells, c.1 / 64 = 0 ∧ c.2.warp = 1 ∧ one.intentLive c.2 = true) ∧
    (∀ e, e < 64 → ∃ c ∈ all.intents.cells, c.1 = e ∧ all.intentLive c.2 = true) ∧
    (¬ ∃ c ∈ all.intents.cells, c.1 / 64 = 0 ∧ c.2.warp = 1 ∧ all.intentLive c.2 = true) :=
  ⟨allIssue_of rfl (by decide +kernel), allIssue_of rfl (by decide +kernel),
   fun v hv => ⟨allIssue_of rfl (by revert v; decide +kernel), by revert v; decide +kernel⟩, by decide +kernel⟩

/-- A state with a BALLAST in flight, and `n` entries of die 0 taken. -/
def itemsAt (i : Instr) (n : Nat) (args : List Nat) : State :=
  { flyingAt (mapped (warpAt id)) { instr := some i, lanes := 1, args := args } with
    ballast := ⟨(List.range n).map (fun k => (k, ({ live := true, len := 128 } : BallastItem)))⟩ }

/-- BALLAST legal, illegal in each way and off its boundaries; a full die, one with an entry free, an entry that is
free, and a job past its cancel point; VMINQ, CAPQ and RAMPQ. -/
theorem witness_PowerInstructions_items :
    let s := powAt 0x100 0x200 (3 * 2 ^ 40 + 256) (7 * 2 ^ 36 + 5 * 2 ^ 28 + 4080)
    let legal := fun (stage : Bool) (p q n c : Nat) => decide (bits p 57 7 = 0 ∧ (stage = false → q = 0) ∧ bits c 40 24 = 0 ∧
      bits c 25 3 = 0 ∧ n % 2 ^ 40 ≠ 0 ∧ n % 2 ^ 40 % 128 = 0)
    let full := itemsAt (.ballastPf powX) 16 [0x100, 0, 256, 0, 0, 4080]
    let room := itemsAt (.ballastStage powX) 15 [0x100, 0x200, 256, 3, 1, 0]
    let can := fun (n : Nat) => itemsAt (.ballastCancel powX) 16 [n]
    let past := full.setJob 0 { full.job 0 with cancelled := true, passed := 1 }
    let v := powAt (23 * 2 ^ 8 + 95) 0 0 0
    let d := powAt 23 0 0 0
    let ramps := (List.range 3).map (fun n => Instr.rampq { powX with c := n })
    let killed := full.setOp 1 { full.op 1 with orphan := true }
    (allIssue s [.ballastPf powX, .ballastStage powX] ∧ allIssue d [.ballastCancel powX] ∧ allIssue v [.vminq powX] ∧
      allIssue d [.capq powX, .capq { powX with c := 1 }] ∧ allIssue d ramps) ∧
    (Claims.Calm (full.warp (full.op 1).warp) ∧ Claims.Calm (room.warp (room.op 1).warp) ∧ Claims.NoWaiters full ∧
      Claims.NoWaiters room) ∧
    (s.atIssue (.ballastStage powX) 1).activeReal {} ≠ 0 ∧
    ((((s.atIssue (.ballastStage powX) 1).rdS 2).toNat, ((s.atIssue (.ballastStage powX) 1).rdS 3).toNat,
      ((s.atIssue (.ballastStage powX) 1).rdS 4).toNat, ((s.atIssue (.ballastStage powX) 1).rdS 5).toNat) =
      (0x100, 0x200, 3 * 2 ^ 40 + 256, 7 * 2 ^ 36 + 5 * 2 ^ 28 + 4080)) ∧
    (legal true 0x100 0x200 (3 * 2 ^ 40 + 256) (7 * 2 ^ 36 + 5 * 2 ^ 28 + 4080) = true ∧
      legal false 0x100 0 (2 ^ 40 - 128) (2 ^ 39) = true) ∧
    (∀ o ∈ [(2 ^ 57, 0, 128, 0), (0, 128, 128, 0), (0, 0, 128, 2 ^ 40), (0, 0, 128, 2 ^ 25), (0, 0, 2 ^ 40, 0), (0, 0, 64, 0)],
      legal false o.1 o.2.1 o.2.2.1 o.2.2.2 = false) ∧
    (0x140 % 128 ≠ 0 ∧ bit (4088 : Nat) 39 = false ∧ bits 4088 0 25 % 16 ≠ 0 ∧ bits 4080 0 25 % 16 = 0) ∧
    (s.atIssue (.ballastStage powX) 1).mustStall true 7 ((s.atIssue (.ballastStage powX) 1).activeReal {}) = 0 ∧
    (((d.atIssue (.ballastCancel powX) 1).rdS 2).toNat < 2 ^ 16 ∧
      ¬ (((powAt (2 ^ 16) 0 0 0).atIssue (.ballastCancel powX) 1).rdS 2).toNat < 2 ^ 16) ∧
    (∀ t ∈ [full, room, past, can 15, can 16], (t.op 1).st = .flying ∧ (t.op 1).orphan = false ∧ t.copyEdges (t.op 1) = true) ∧
    ((killed.op 1).st = .flying ∧ (killed.op 1).orphan = true ∧ killed.copyEdges (killed.op 1) = true) ∧
    (full.pastCancel (full.op 1).job 0 = false ∧ past.pastCancel (past.op 1).job 0 = true ∧
      (can 15).itemLive ((can 15).op 1 |>.args.getD 0 0) = true ∧ (can 16).itemLive ((can 16).op 1 |>.args.getD 0 0) = false) ∧
    ((∀ e ∈ (List.range 16).map (0 * 16 + ·), full.itemLive e = true) ∧ room.itemLive 15 = false ∧
      ∀ e ∈ (List.range 16).map (0 * 16 + ·), e < 15 → room.itemLive e = true) ∧
    ((v.atIssue (.vminq powX) 1).active {} ≠ 0 ∧ ((v.atIssue (.vminq powX) 1).rdS 2).toNat = 23 * 2 ^ 8 + 95 ∧
      bits (23 * 2 ^ 8 + 95) 0 8 = 95 ∧ bits (23 * 2 ^ 8 + 95) 8 5 = 23 ∧ 23 * 2 ^ 8 + 95 < 2 ^ 13) ∧
    (((d.atIssue (.capq powX) 1).rdS 2).toNat = 23 ∧ (d.atIssue (.rampq powX) 1).active {} ≠ 0) := by
  refine ⟨⟨allIssue_of rfl ?_, allIssue_of rfl ?_, allIssue_of rfl ?_, allIssue_of rfl ?_, allIssue_of rfl ?_⟩,
    ⟨?_, ?_, noWaiters_of ?_ ?_, noWaiters_of ?_ ?_⟩, ?_⟩
  any_goals unfold Claims.Calm
  all_goals and_intros
  all_goals decide +kernel

/-- The ground of a core with a block, ready to draw and to refill; the same before its time; a warp that waits. -/
theorem witness_PowerEvents :
    let s : State := { warpAt id with cycles := 32, time := 10000 }
    let w := s.setWarp 1 { s.warp 1 with tokenWait := some { price := 1, since := 0 } }
    let noon : State := { s with gov := { s.gov with interval := 0, due := true }, time := 2000 }
    let group : State := { noon with gov := { noon.gov with group := some 1 }, time := 1999 }
    let hot := s.setLarder 23 { s.larder 23 with hot := true, capLow := true, share := some 5 }
    let intent : Intent := { warp := 1, delta := 100, start := 10000 }
    let i : State := { s with intents := ⟨[(0, intent)]⟩ }
    (s.powered = true ∧ 32 * ((s.larder 0).ticks + 1) ≤ s.cycles ∧ ¬ 32 * ((s.larder 0).ticks + 1) ≤ 31) ∧
    ((∀ d ∈ List.range 16, d ≠ 0 → s.holdsBlock d = false) ∧ s.mapped 0 = true ∧ s.holdsBlock 0 = true ∧ s.coreReady 0 = true ∧
      (s.larder 0).hot = false ∧ (s.larder 0).capLow = false ∧ s.holdsBlock 15 = false) ∧
    (Table.wf {} w.warps = true ∧ (w.warp 1).tokenWait = some { price := 1, since := 0 } ∧ (w.block (w.warp 1).block).core = 0) ∧
    (256 * ((s.larder 23).refills + 1) ≤ s.time ∧ ¬ 256 * ((s.larder 23).refills + 1) ≤ 255 ∧ s.gov.dip = false ∧
      s.gov.flowStop = false ∧ (s.larder 23).share = none) ∧
    (i.intents.cells = [(0, intent)] ∧ 0 < intent.delta ∧ 9999 < intent.start ∧ (i.warp 1).live = true ∧
      (i.block (i.warp 1).block).standing = true ∧ (i.job (i.block (i.warp 1).block).job).cancelled = false) ∧
    (10000 * (s.gov.interval + 1) ≤ s.time ∧ ¬ 10000 * (s.gov.interval + 1) ≤ 9999 ∧ s.gov.group = none ∧
      group.gov.group.isSome = true) ∧
    (group.gov.due = true ∧ group.time < 10000 * group.gov.interval + 2000 ∧ group.gov.own.demand ≤ 0 ∧ group.gov.own.need ≤ 0 ∧
      166 ≤ group.gov.own.theta ∧ 100 ≤ group.gov.own.slew ∧ group.gov.group = some 1 ∧ group.groupSize 1 = none) ∧
    (noon.powered = true ∧ noon.gov.due = true ∧ 10000 * noon.gov.interval + 2000 ≤ noon.time ∧ noon.gov.aggregate = none) ∧
    ((hot.larder 23).hot = true ∧ (s.larder 23).hot = false ∧ (hot.larder 23).capLow = true ∧ (hot.larder 23).share = some 5 ∧
      s.withheld 23 = false) ∧
    ((s.hbms.get {} 23).refresh ≤ 2 ∧ s.regionOn 0 0 = true ∧ s.regionOn 23 67 = false) :=
  by decide +kernel

/-- The supply lost after a millisecond, or above 62 V; regions that are granted at once, after their soft start and after
others, or switched off; items of each end, in and out of their turn, past their deadline and not. -/
theorem witness_PowerEvents_items :
    let s : State := { warpAt id with time := 1000000 }
    let dip : State := { s with gov := { s.gov with dip := true } }
    let high : State := { s with gov := { s.gov with input := 124001 } }
    let off : State := { s with regions := {} }
    let soft := fun (g : Nat) => ({ s with regions := ⟨[(3, { grantAt := some g })]⟩ } : State)
    let last : State := { s with regions := ⟨[(0, { on := true }), (1, { on := true }), (2, { on := true })]⟩ }
    let idle : State := { State.reset with regions := ⟨[(23 * 96 + 87, { on := true })]⟩, time := 50000 }
    let two := fun (x : BallastItem) (l : List (Nat × BallastItem)) =>
      ({ mapped (warpAt id) with ballast := ⟨l ++ [(383, x)]⟩, time := 10000 } : State)
    let item := fun (x : BallastItem) => two x []
    let done := item { live := true, len := 256, done := 2, block := 1, aw := some 4080 }
    let late := item { live := true, stage := true, len := 256, late := true, block := 1, va := 0x2000, dst := 0x4000000000 }
    let t : State := { late with mem := late.mem.writeBytes 0x8020 (bytesOf 8 (2 ^ 50 + 15)) }
    let next := item { live := true, len := 256, registered := 5 }
    let wait := two { live := true, len := 256, registered := 5 } [(0, { live := true, len := 128, registered := 4 })]
    let rich := next.setLarder 7 { next.larder 7 with ballast := 1280 }
    let x := t.ballast.get {} 383
    let c : Ctx := { core := x.core, block := x.block, asid := x.asid }
    let r := (t.dieDraw 23 2560).engineCheck c { read := true } 0x2000 128
    let q := r.2.engineCheck c { write := true } 0x4000000000 128
    Claims.NoWaiters done ∧
    ((∃ s2, r = (.ok (.home 0x2000 false false), s2)) ∧ (∃ s3, q = (.ok (.home (2 ^ 50) false false), s3)) ∧
      ∃ f s2, (late.dieDraw 23 2560).engineCheck c { read := true } (2 ^ 40) 128 = (.error f, s2)) ∧
    (dip.powered = true ∧ dip.gov.dipSince + 1000000 ≤ dip.time ∧ 124000 < high.gov.input) ∧
    (∀ t ∈ [off, last, soft 1000000, soft 1000001], (t.regionOf 0 3).on = false ∧ t.regionWanted 0 3 = true ∧ t.powered = true) ∧
    ((soft 1000000).regionOf 0 3).grantAt = some 1000000 ∧ (off.regionOf 0 3).grantAt = none ∧
    ((idle.regionOf 23 87).on = true ∧ idle.regionWanted 23 87 = false ∧
      idle.lastBusy.get 0 (24 * 17 + 23 * 4 + (87 - 84)) + 50000 ≤ idle.time) ∧
    ((off.regionOf 0 0).on = false ∧ off.regionWanted 0 0 = true ∧ (∀ q, q < 3 → (last.regionOf 0 q).on = true) ∧
      ∀ q ∈ [4, 5, 6, 7], (last.regionOf 0 q).grantAt = none) ∧
    (done.itemLive 383 = true ∧ late.itemLive 383 = true ∧ done.itemLive 382 = false) ∧
    ((item { live := true, deadline := some 10000 }).ballast.get {} 383 |>.deadline) = some 10000 ∧
    ((done.ballast.get {} 383).len ≤ 128 * 2 ∧ done.itemWord (done.ballast.get {} 383) = some (1, 4080) ∧
      (done.block 1).standing = true ∧ (done.block 1).imaged = false ∧ (done.block 1).frozen = false) ∧
    (128 * x.done < x.len ∧ x.late = true ∧ x.stage = true ∧ 2 * (x.done + 1) ≤ 25 * (t.time - x.registered)) ∧
    (next.spendBallast 1280 = none ∧ rich.spendBallast 1280 ≠ none ∧ next.itemTurn 383 = true ∧ wait.itemTurn 383 = false) ∧
    (bits 0x2000 50 2 + bits (2 ^ 50) 50 2 = 1 ∧ q.2.homeHeld 0x2000 false = false ∧
      (q.2.noteRdc (x.core / 16) 0x2000 false false).homeHeld (2 ^ 50) false = false) := by
  refine ⟨noWaiters_of ?_ ?_, ⟨okIs_of ?_, okIs_of ?_, fault_of ?_⟩, ?_⟩
  all_goals and_intros
  all_goals decide +kernel

/-- A module that is ready, with an entry for the last ring of port 1, whose ASID's pages are mapped. -/
def ringAt (f : Ring → Ring) : State :=
  let s := { mapped (warpAt id) with ready := true }
  s.setRing 31 (f { s.ring 31 with size := 6, tail := 1 })

/-- A ring with its turn, and one without: a launch record, a malformed one, and a count of 0; a line that is pinned and
one that is not; jobs live, gone, of another ASID and being cancelled; a loop at its start, its end and between. -/
theorem witness_RingCommands :
    let s := ringAt id
    let rcd : State := { s with mem := s.mem.writeBytes 0x30000 launchBytes }
    let pin : State := { rcd with l1 := ⟨[(0x30000 / 128, { valid := true, pinned := true })]⟩ }
    let own : State := { rcd with mem := rcd.mem.writeBytes 0x8008 (bytesOf 8 (2 ^ 51 + 15)) }
    let tw := own.translate 25 0 (2 ^ 36)
    let read := fun (s : State) (va n : Nat) => s.cpRead 1 (s.ring 31).asid va n []
    let tr := s.translate 25 0 0x30000
    let zero := launchBytes.take 0x28 ++ [0, 0, 0, 0] ++ launchBytes.drop 0x2C
    let asid := ringAt (fun r => { r with asid := 7 })
    let can := ringAt (fun r => { r with cancelling := some 0 })
    let half := can.setJob 0 { can.job 0 with cancelled := true, passed := allDies - 1 }
    let all := can.setJob 0 { can.job 0 with cancelled := true, passed := allDies }
    Claims.Turn 31 s ∧ Claims.Turn 31 rcd ∧ Claims.Turn 31 pin ∧ Claims.Turn 31 asid ∧ Claims.Turn 31 can ∧ Claims.Turn 31 half ∧
    Claims.Turn 31 all ∧ ¬ Claims.Turn 0 s ∧ ¬ Claims.Turn 31 (ringAt (fun r => { r with error := BitVec.ofNat 64 (2 ^ 63) })) ∧
    (0x30000 % 8 = 0 ∧ isWindow 0x30000 = false ∧ 0x30000 < 2 ^ 57) ∧
    (match tr.1 with
      | some e => bit e.pte 1 && bits (e.pa 0x30000) 50 2 != 3 &&
        okFst (tr.2.placeOf e.pte (e.pa 0x30000) 8 { read := true }) (.home 0x30000 false false)
      | none => false) = true ∧
    (match tw.1 with
      | some e => bit e.pte 1 && bits (e.pa (2 ^ 36)) 50 2 != 3 &&
        okFst (tw.2.placeOf e.pte (e.pa (2 ^ 36)) 8 { read := true }) (.self 0)
      | none => false) = true ∧
    (tr.2.homeHeld 0x30000 false = false ∧ (pin.translate 25 0 0x30000).2.homeHeld 0x30000 false = true) ∧
    (∀ n ∈ [8, 128], (match (read rcd 0x30000 n).1 with
      | .bytes bs => bs == launchBytes.take n
      | _ => false) = true) ∧
    ((match (read pin 0x30000 8).1 with
      | .wait => true
      | _ => false) = true) ∧
    (recordBad launchBytes = false ∧ recordBad zero = true ∧ (s.loftUsed 25).length < 4096 ∧
      (s.jobs.cells.filter (fun c => c.2.live)).length < 65534) ∧
    ((match (read rcd 0x30028 4).1 with
      | .bytes bs => ofBytes bs == 1
      | _ => false) = true ∧ recordBad (launchBytes.take 0x28 ++ bytesOf 4 1 ++ launchBytes.drop 0x2C) = false) ∧
    (match (read rcd 0x30020 4).1 with
      | .bytes bs => ofBytes bs == 0
      | _ => false) = true ∧
    ((s.job 0).live = true ∧ (s.job 0).asid = (s.ring 31).asid ∧ (s.job 0).cancelled = false ∧ (s.job 1).live = false ∧
      (asid.job 0).asid ≠ (asid.ring 31).asid ∧ (s.ring 31).cancelling = none) ∧
    ((can.ring 31).cancelling = some 0 ∧ (half.job 0).live = true ∧ (half.job 0).cancelled = true ∧ (half.job 0).passed ≠ allDies ∧
      (all.job 0).passed = allDies) ∧
    ((s.ring 31).loop = 0 ∧ ((ringAt (fun r => { r with loop := 1 })).ring 31).loop = 1 ∧ 2 ^ 64 - 1 < 2 ^ 64) ∧
    (∀ n ∈ [0, 6, 16], n = 0 ∨ (6 ≤ n ∧ n ≤ 16)) ∧ (31 : Nat) < 32 ∧ ((8 : Nat) ≤ 255 ∧ (255 : Nat) < 256) := by
  unfold Claims.Turn
  and_intros
  all_goals decide +kernel

/-- A request for a command with its words from 0x108 on. -/
def mailAt (owner cmd : Nat) (args : List Nat) : State :=
  let bytes := bytesOf 8 cmd ++ (args.map (fun a => bytesOf 8 a)).flatten
  { warpAt id with mailbox := { owner := owner, status := 3, request := Memory.writeBytes {} 0x100 bytes } }

/-- A held and a free lock; each command in a request of its own, in recovery, with bits beyond it, and unlisted; the
operands of SETROOT, SETSLEW, SAVEPOOL and RETRAIN at their limits and beyond. -/
theorem witness_Mailbox :
    let s := mailAt 1 1 []
    let word := fun (l : List Nat) (n : Nat) => (mailAt 1 1 l).reqNat (0x108 + 8 * n) 8
    let root := fun (a p : Nat) => decide (a < 2 ^ 16 ∧ p < 2 ^ 50 ∧ p % 8192 = 0 ∧ isLocal p = true)
    let pool := fun (d n p v : Nat) => decide (d < 24 ∧ n % 65536 = 0 ∧ p % 65536 = 0 ∧ v % 65536 = 0 ∧ p < 2 ^ 50 ∧
      isLocal p = true ∧ isLocal (p + (n - 1)) = true ∧ bits p 36 6 = d ∧ bits (p + (n - 1)) 36 6 = d ∧ v < windowBase ∧
      v + n ≤ windowBase)
    (s.mailbox.owner ≠ 0 ∧ (mailAt 0 1 []).mailbox.owner = 0 ∧ s.mailbox.owner = 1) ∧
    (∀ c ∈ List.range 10, (mailAt 1 c []).mailbox.status = 3 ∧ (mailAt 1 c []).reqNat 0x100 8 = c) ∧
    (∀ c ∈ [1, 2, 3, 4, 5, 6, 7], Claims.Requests c (mailAt 1 c [])) ∧
    (({ s with recovery := true } : State).recovery = true ∧ 256 ≤ (mailAt 1 257 []).reqNat 0x100 8 ∧
      (mailAt 1 257 []).reqNat 0x100 8 % 256 = 1 ∧ 9 < (mailAt 1 10 []).reqNat 0x100 8 % 256) ∧
    (word [5, 6, 7, 8] 0 = 5 ∧ word [5, 6, 7, 8] 3 = 8) ∧
    (root 0xFFFF (23 * 2 ^ 36 + 8192) = true ∧ root 0x10000 0 = false ∧ root 0 4096 = false ∧ root 0 (24 * 2 ^ 36) = false ∧
      root 0 (2 ^ 50) = false) ∧
    (pool 23 65536 (23 * 2 ^ 36) (windowBase - 65536) = true ∧ pool 24 65536 (23 * 2 ^ 36) 0 = false ∧
      pool 23 4096 (23 * 2 ^ 36) 0 = false ∧ pool 22 65536 (23 * 2 ^ 36) 0 = false ∧
      pool 23 65536 (23 * 2 ^ 36) windowBase = false) ∧
    ((100 : Nat) ≤ 5000 ∧ (99 : Nat) < 100 ∧ (35 : Nat) < 36) ∧
    (s.measurements.length ≤ 16 ∧ 5 < 408) := by
  unfold Claims.Requests
  decide +kernel

/-- BINDGROUP and BINDPOWER of a job that lives unplaced, that is placed, that is gone, of an entry whose job is made and
of one whose is not; a tenant's descriptor that is legal and one that is not. -/
theorem witness_Mailbox_bindings :
    let w := 5 + 2 ^ 16 + 2 ^ 24
    let s := mailAt 1 3 [1, w]
    let live := s.setJob 1 { live := true }
    let placed := s.setJob 1 { live := true, placed := true }
    let held := mailAt 1 3 [2 ^ 63 + 2 ^ 20 + 15 * 2 ^ 16 + 7, w]
    let made : State := { held with ringJobs := ⟨[(31 * 65536 + 7, 1)]⟩ }
    let power : State := { (mailAt 1 4 [1, 5]).setJob 1 { live := true } with groups := ⟨[(1, { live := true, id := 5, n := 2 })]⟩ }
    let td0 := 2 ^ 63 + 2 ^ 32 + 64 * 2 ^ 19 + 64 * 2 ^ 6
    let none4 := 2 ^ 64 - 1 - 0xFFFF
    let reg := mailAt 1 2 [23 + 7 * 2 ^ 8, td0, none4, 0, 0, 0, 65536]
    let gone := mailAt 1 2 [23 + 7 * 2 ^ 8, 0, 0, 0, 0, 0, 0]
    let x := held.reqNat 0x108 8
    (Claims.Requests 3 s ∧ Claims.Requests 4 power ∧ Claims.Requests 3 held ∧ Claims.Requests 2 reg ∧ Claims.Requests 2 gone) ∧
    (w < 2 ^ 32 ∧ bits w 16 8 ≤ bits w 24 8 ∧ ¬ bits (2 ^ 17 + 2 ^ 24) 16 8 ≤ bits (2 ^ 17 + 2 ^ 24) 24 8) ∧
    (s.reqNat 0x108 8 = 1 ∧ s.reqNat 0x110 8 = w ∧ (s.job 1).live = false) ∧
    ((live.job 1).live = true ∧ (live.job 1).placed = false ∧ (placed.job 1).placed = true) ∧
    ((power.groupOf 1).live = true ∧ (power.groupOf 1).id = power.reqNat 0x110 8 ∧ (live.groupOf 1).live = false) ∧
    (2 ^ 63 ≤ x ∧ bits x 21 42 = 0 ∧ bits x 20 1 * 16 + bits x 16 4 = 31 ∧ bits x 0 16 = 7 ∧
      held.ringJobs.get 0 (31 * 65536 + 7) = 0 ∧ made.ringJobs.get 0 (31 * 65536 + 7) ≠ 0) ∧
    (reg.mailbox.owner ≠ 3 ∧ reg.reqNat 0x108 8 / 2 ^ 11 = 0 ∧ bits (reg.reqNat 0x108 8) 5 3 = 0 ∧ bits (reg.reqNat 0x108 8) 0 5 < 24) ∧
    (reg.reqNat 0x110 8 = td0 ∧ bit td0 63 = true ∧ tenantBad td0 none4 0 0 = false ∧ 65536 ≤ bits td0 19 7 * 1024 ∧
      tenantBad td0 (none4 + 1) 0 0 = true ∧ reg.reqNat 0x138 8 = 65536) ∧
    bit (gone.reqNat 0x110 8) 63 = false := by
  unfold Claims.Requests
  decide +kernel

/-- Register writes of each size, to a mailbox owned and not, to a ring, to the selector and to a copy log. -/
theorem witness_Mailbox_registers :
    let s : State := { mailAt 1 1 [] with ready := true, copyLogs := ⟨[(0, List.replicate 8 {})]⟩ }
    ((8 : Nat) = 4 ∨ (8 : Nat) = 8) ∧ (4 : Nat) % 8 ≠ 0 ∧ s.mailbox.owner = 0 + 1 ∧ s.mailbox.owner ≠ 1 + 1 ∧
    ({ s with mailbox := { s.mailbox with status := 0 } } : State).mailbox.status ≠ 3 ∧ (0x7FF8 % 8 = 0 ∧ 0x7FF8 < 0x8000) ∧
    s.ready = true ∧ (s.ring 31).base < 2 ^ 64 ∧ 2 ^ 64 - 1 < 2 ^ 64 ∧ 7 < (s.copyLogs.get [] 0).length ∧
    bits (s.selector 1) 0 5 * 16 + bits (s.selector 1) 6 4 = 0 ∧ (2 : Nat) < 3 := by decide +kernel

/-- Power-good of each kind; a view of a warp that runs, is halted, is to be relaunched, and of none; a bay with an
instance, halted and not, and one without; legal and illegal operands of an invalidation. -/
theorem witness_DebugAndBoot :
    let r := State.reset
    let lost : State := { r with gov := { r.gov with supplyLost := true } }
    let boot : BootImage := { verified := true, spares := [0, 16], failed := [3, 408 + 95], measurements := [], moduleId := 5 }
    let s : State := { warpAt id with ready := true }
    let halted := s.setWarp 1 { s.warp 1 with halted := true }
    let handler := s.setWarp 1 { s.warp 1 with halted := true, mode := .handler }
    let done := s.setWarp 1 { s.warp 1 with lanes := ⟨(List.range 32).map (fun l => (l, ({ st := .exited } : Lane)))⟩ }
    let rl := s.setBlock 1 { s.block 1 with rcd := { (s.block 1).rcd with rl := true } }
    let none_ : State := { s with selectors := ⟨[(1, 2 ^ 15)]⟩ }
    let m : State := { mccAt id with ready := true }
    let mh := m.setMcc 0 { m.mcc 0 with halted := true }
    let md := m.setMcc 0 { m.mcc 0 with halted := true, dead := true }
    let dead := s.setWarp 1 { s.warp 1 with halted := true, dead := true }
    let legal := fun (x : Nat) => decide (bits x 62 2 < 2 ∧ bits x 57 5 = 0 ∧ bits x 0 16 = 0)
    Claims.NoWaiters rl ∧
    (r.ready = false ∧ r.recovery = false ∧ r.gov.supplyLost = false ∧ lost.gov.supplyLost = true ∧ boot.verified = true ∧
      (3 : Nat) ∈ boot.failed ∧ 408 + 95 ∈ boot.failed ∧ (∀ p ∈ List.range 17, 22 * 17 + p ∉ boot.failed) ∧
      ({ r with recovery := true } : State).recovery = true) ∧
    (s.viewWarp 1 = some 1 ∧ halted.viewWarp 1 = some 1 ∧ handler.viewWarp 1 = some 1 ∧ done.viewWarp 1 = some 1 ∧
      rl.viewWarp 1 = some 1 ∧ none_.viewWarp 1 = none) ∧
    (dead.viewWarp 1 = some 1 ∧ (dead.warp 1).dead = true) ∧
    ((s.warp 1).halted = false ∧ (s.warp 1).allExited = false ∧ (done.warp 1).allExited = true) ∧
    ((halted.warp 1).halted = true ∧ (halted.warp 1).dead = false ∧ (halted.warp 1).reportDue = false ∧
      (halted.warp 1).replays = [] ∧ (halted.warp 1).abandoned = [] ∧ (halted.warp 1).mode = .normal ∧
      (handler.warp 1).mode ≠ .normal) ∧
    ((s.block 1).rcd.rl = false ∧ (rl.block 1).rcd.rl = true ∧ (rl.block 1).again = false ∧ (rl.block 1).gang = none ∧
      (rl.block 1).relaunches < 2) ∧
    (bits (m.selector 1) 0 5 * 4 + bits (m.selector 1) 25 2 = 0 ∧ (m.mcc 0).gang = some 1 ∧ (m.mcc 0).halted = false ∧
      (mh.mcc 0).halted = true ∧ (mh.mcc 0).dead = false ∧ (md.mcc 0).dead = true ∧ (md.mcc 0).gang = some 1 ∧ (s.mcc 0).gang = none ∧
      ∀ b ∈ (mh.gang 1).blocks, ∀ w ∈ (mh.block b).warps, (mh.warp w).dead = false) ∧
    (Table.wf [] s.tlbs = true ∧ legal 0 = true ∧ legal (2 ^ 62 + 2 ^ 57 - 2 ^ 16) = true ∧ legal (2 ^ 63) = false ∧
      legal (2 ^ 57) = false ∧ legal 1 = false) := by
  refine ⟨noWaiters_of ?_ ?_, ?_⟩
  all_goals and_intros
  all_goals decide +kernel

/-- Instructions of each side whose encoding the round trip covers, and of a handler. -/
theorem witness_EncodingRoundTrip :
    (∀ i ∈ [Instr.add true { d := 4, a := .reg 5, b := .imm (.long 0x123456789A), fmt := 6 }, .exit {}, .movi false { d := 9 }],
      i.wf .vector = true ∧ i.form.isSome = true) ∧
    (Instr.mstrm { d := 8, a := 9, b := 10 }).wf .mcc = true ∧ (Instr.mstrm { d := 8, a := 9, b := 10 }).form.isSome = true ∧
    (∀ i ∈ [Instr.slrd { rd := 5, rs1 := 12, f7 := 1 }, .handlerBaseInstruction (.base (.opImm .add 6 5 (-2048)))],
      i.fieldsOk = true ∧ (encodeSlice i).isSome = true) := by decide

/-- A canonical memory that lists bytes, and a step that answers a next state. -/
theorem witness_MemoryCanonicalKept :
    let s : State := { State.reset with mem := Memory.writeBytes {} 0x1000 [1, 0, 2] }
    s.mem.cells ≠ [] ∧ Memory.wf s.mem = true ∧ Memory.wf (s.withFetchWord 64 0x28700000).mem = true ∧
    (match step (s.withFetchWord 64 0x28700000) with
      | .next _ => true
      | _ => false) = true := by decide +kernel

end Sys2Proof.Tests
end

section
/-!
PROOFS of the statements of the family `00_scope.md`: the limits of R84, and that the element-wise instructions of
spec/04 and spec/05 complete, conversions apart. An element-wise instruction is settled by the equation that says which element function
`exec` runs for it, and `vecOp_completes`.
-/
namespace Sys2Proof

/-! ## Two's-complement patterns -/

theorem coe_pattern (len : Nat) (t : Int) : (pattern len t : Int) = t % (2 ^ len : Nat) :=
  Int.toNat_of_nonneg (Int.emod_nonneg t (Int.natCast_ne_zero.mpr (Nat.two_pow_pos len).ne'))

theorem pattern_lt (len : Nat) (t : Int) : pattern len t < 2 ^ len := by
  have h := Int.emod_lt_of_pos t (Int.natCast_pos.mpr (Nat.two_pow_pos len))
  rw [← coe_pattern] at h
  exact Int.ofNat_lt.mp h

/-- A value below `2 ^ len` that is not negative is its own pattern. -/
theorem coe_pattern_of_nonneg {len : Nat} {t : Int} (h0 : 0 ≤ t) (h1 : t < (2 ^ len : Nat)) :
    (pattern len t : Int) = t := by
  rw [coe_pattern, Int.emod_eq_of_lt h0 h1]

/-- A negative value has the pattern that is `2 ^ len` above it. -/
theorem coe_pattern_of_neg {len : Nat} {t : Int} (h0 : -(2 ^ len : Nat) ≤ t) (h1 : t < 0) :
    (pattern len t : Int) = t + (2 ^ len : Nat) := by
  rw [coe_pattern, ← Int.add_emod_right, Int.emod_eq_of_lt (by omega) (by omega)]

/-- A pattern read as two's complement is the value it was made of, where that has one more bit than it needs. -/
theorem sext_pattern (len : Nat) (t : Int) (h0 : -(2 ^ len : Nat) ≤ t) (h1 : t < (2 ^ len : Nat)) :
    sext (len + 1) (pattern (len + 1) t) = t := by
  have hpow : 2 ^ (len + 1) = 2 * 2 ^ len := Nat.pow_succ'
  unfold sext
  rw [Nat.mod_eq_of_lt (pattern_lt _ _), Nat.add_sub_cancel]
  rcases Int.lt_or_le t 0 with hneg | hpos
  · have hp := coe_pattern_of_neg (len := len + 1) (t := t) (by omega) hneg
    rw [if_neg (by omega), hp]
    omega
  · have hp := coe_pattern_of_nonneg (len := len + 1) hpos (by omega)
    rw [if_pos (by omega), hp]

namespace Machine

/-! ## Limits of an integer format (R84) -/

theorem intWidth_pos (fmt : Nat) : 0 < intWidth fmt := Nat.mul_pos (by decide) (Nat.two_pow_pos _)

theorem intMin_le_intMax (fmt : Nat) : intMin fmt ≤ intMax fmt := by
  have h1 := Nat.two_pow_pos (intWidth fmt)
  have h2 := Nat.two_pow_pos (intWidth fmt - 1)
  unfold intMin intMax
  cases intSigned fmt <;> simp only [Bool.false_eq_true, if_false, if_true] <;> omega

/-- Wrap keeps a value that the format has. -/
theorem valOf_wrapPat {fmt : Nat} {t : Int} (h0 : intMin fmt ≤ t) (h1 : t ≤ intMax fmt) :
    valOf fmt (wrapPat fmt t) = t := by
  unfold intMin at h0
  unfold intMax at h1
  unfold valOf wrapPat
  obtain ⟨n, hn⟩ : ∃ n, intWidth fmt = n + 1 := ⟨_, (Nat.sub_one_add_one (intWidth_pos fmt).ne').symm⟩
  rw [hn] at h0 h1 ⊢
  cases hs : intSigned fmt <;> simp only [hs, Bool.false_eq_true, if_false, if_true, Nat.add_sub_cancel] at h0 h1 ⊢
  case false => rw [Nat.mod_eq_of_lt (pattern_lt _ _), coe_pattern_of_nonneg h0 (by omega)]
  case true => exact sext_pattern n t h0 (by omega)

/-- Sat (R6): the pattern of the clamped value, and the saturated flag where clamping changed it. -/
theorem limitInt_sat (fmt : Nat) (t : Int) : limitInt fmt true t =
    (wrapPat fmt (clampInt (intMin fmt) (intMax fmt) t), { saturated := clampInt (intMin fmt) (intMax fmt) t != t }) := rfl

theorem limitInt_wrap (fmt : Nat) (t : Int) : limitInt fmt false t = (wrapPat fmt t, {}) := rfl

theorem clampInt_of_mem {lo hi t : Int} (h0 : lo ≤ t) (h1 : t ≤ hi) : clampInt lo hi t = t := by
  unfold clampInt
  rw [if_neg (by omega), if_neg (by omega)]

theorem clampInt_of_lt {lo hi t : Int} (h : t < lo) : clampInt lo hi t = lo := if_pos h

theorem clampInt_of_gt {lo hi t : Int} (hle : lo ≤ hi) (h : hi < t) : clampInt lo hi t = hi := by
  unfold clampInt
  rw [if_neg (by omega), if_pos h]

/-- Where clamping moves a value to `c` in the format, the answer has value `c` and is flagged. -/
theorem limitInt_sat_of_clamp {fmt : Nat} {t c : Int} (hc : clampInt (intMin fmt) (intMax fmt) t = c) (hne : c ≠ t)
    (h0 : intMin fmt ≤ c) (h1 : c ≤ intMax fmt) :
    (limitInt fmt true t).2 = { saturated := true } ∧ valOf fmt (limitInt fmt true t).1 = c := by
  rw [limitInt_sat, hc]
  exact ⟨by simp [hne], valOf_wrapPat h0 h1⟩

/-- Settles O5: the three cases of the clamp under sat, and the pattern modulo `2 ^ w` without it. -/
theorem saturationLimits : Obligations.SaturationLimits := by
  intro fmt t _
  have hle := intMin_le_intMax fmt
  refine ⟨fun h0 h1 => ⟨?_, valOf_wrapPat h0 h1⟩, fun h => ?_, fun h => ?_, rfl, ?_, pattern_lt _ _⟩
  · rw [limitInt_sat, clampInt_of_mem h0 h1, bne_self_eq_false]
  · exact limitInt_sat_of_clamp (clampInt_of_lt h) (by omega) le_rfl hle
  · exact limitInt_sat_of_clamp (clampInt_of_gt hle h) (by omega) hle le_rfl
  · rw [limitInt_wrap, wrapPat, coe_pattern]
    exact Int.emod_eq_emod_iff_emod_sub_eq_zero.mp (Int.emod_emod t _)

/-! ## Integer instructions of class 0x1 -/

/-- Each instruction of the table of R86 runs its own function, in all three forms. -/
theorem exec_intOp {e : Claims.IntOp} (he : e ∈ Claims.intOps) (v : Bool) (x : Alu) (s : State) :
    exec (e.instr v x) s = intExec (e.instr v x) v x e.elig e.full e.fn s := by
  unfold Claims.intOps at he
  fin_cases he <;> rfl

-- SEL, MOV, MADW and LEA in their vector forms (R88, R91, R93, R94).
theorem exec_selVec (x : Alu) (s : State) : exec (.sel true x) s = onWarp (.sel true x) (selVec x) s := rfl
theorem exec_movVec (x : Alu) (s : State) : exec (.mov true x) s = onWarp (.mov true x) (movVec x) s := rfl
theorem exec_madwVec (x : Alu) (s : State) : exec (.madw true x) s = onWarp (.madw true x) (madwVec x) s := rfl
theorem exec_leaVec (x : Alu) (s : State) : exec (.lea true x) s = onWarp (.lea true x) (leaVec x) s := rfl

/-- Settles O1: each instruction is one element function under `vecOp`, and LEA's 64 bits are one element. -/
theorem vectorIntegerResult : Obligations.VectorIntegerResult :=
  ⟨fun _ he x => vecOp_completes (exec_intOp he true x), fun x => vecOp_completes (exec_selVec x),
   fun x => vecOp_completes (exec_movVec x), fun x => vecOp_completes (exec_madwVec x),
   fun x => vecOp_completes (exec_leaVec x)⟩

/-! ## Element-wise instructions of classes 0x2 and 0x3 -/

/-- The instructions of one operand and one rounding (R112), each with its function. -/
def unaryFloatOps : List ((Alu → Instr) × (FVal → FRes)) :=
  [(.fsqrt, sqrtVal), (.frcp, rcpVal), (.frsq, rsqVal), (.fexp2, exp2Val), (.flog2, log2Val), (.fsin, sinVal),
   (.fcos, cosVal), (.ftanh, tanhVal)]

/-- The instructions that answer a pattern and round nothing (R108, R111), each with its function. -/
def patternFloatOps : List ((Alu → Instr) × (FFmt → Nat → Nat → Nat × Flags)) :=
  [(.fmin, fun f p q => minMaxPat f false p q), (.fmax, fun f p q => minMaxPat f true p q), (.fabs, absPat),
   (.fneg, negPat), (.fclass, classPat)]

theorem exec_unaryFloatOp {e : (Alu → Instr) × (FVal → FRes)} (he : e ∈ unaryFloatOps) (x : Alu) (s : State) :
    exec (e.1 x) s = onWarp (e.1 x) (floatVec x false (opUn e.2) 1) s := by
  unfold unaryFloatOps at he
  fin_cases he <;> rfl

theorem exec_patternFloatOp {e : (Alu → Instr) × (FFmt → Nat → Nat → Nat × Flags)} (he : e ∈ patternFloatOps) (x : Alu)
    (s : State) : exec (e.1 x) s = onWarp (e.1 x) (patVec x e.2) s := by
  unfold patternFloatOps at he
  fin_cases he <;> rfl

-- The instructions of two or three operands and one rounding (R108, R112).
theorem exec_fadd (x : Alu) (s : State) : exec (.fadd x) s = onWarp (.fadd x) (floatVec x true opAdd 2) s := rfl
theorem exec_fsub (x : Alu) (s : State) : exec (.fsub x) s = onWarp (.fsub x) (floatVec x true opSub 2) s := rfl
theorem exec_fmul (x : Alu) (s : State) : exec (.fmul x) s = onWarp (.fmul x) (floatVec x true opMul 2) s := rfl
theorem exec_ffma (x : Alu) (s : State) : exec (.ffma x) s = onWarp (.ffma x) (floatVec x true opFma 3) s := rfl
theorem exec_fdiv (x : Alu) (s : State) : exec (.fdiv x) s = onWarp (.fdiv x) (floatVec x false opDiv 2) s := rfl

-- Rounding to an integer, scaling and the dot products (R108, R109).
theorem exec_frnd (x : Alu) (s : State) : exec (.frnd x) s = onWarp (.frnd x) (frndVec x) s := rfl
theorem exec_fscale (x : Alu) (s : State) : exec (.fscale x) s = onWarp (.fscale x) (fscaleVec x) s := rfl
theorem exec_fdot2 (x : Alu) (s : State) : exec (.fdot2 x) s = onWarp (.fdot2 x) (fdot2Vec x) s := rfl
theorem exec_fdot4 (x : Alu) (s : State) : exec (.fdot4 x) s = onWarp (.fdot4 x) (fdot4Vec x) s := rfl

/-- Settles O7: each instruction is one element function under `vecOp`. -/
theorem vectorFloatResult : Obligations.VectorFloatResult :=
  ⟨fun x => vecOp_completes (exec_fadd x), fun x => vecOp_completes (exec_fsub x),
   fun x => vecOp_completes (exec_fmul x), fun x => vecOp_completes (exec_ffma x),
   fun x => vecOp_completes (exec_frnd x), fun x => vecOp_completes (exec_fscale x),
   fun x => vecOp_completes (exec_fdot2 x), fun x => vecOp_completes (exec_fdot4 x),
   fun x => vecOp_completes (exec_fdiv x), fun _ he x => vecOp_completes (exec_unaryFloatOp he x),
   fun _ he x => vecOp_completes (exec_patternFloatOp he x)⟩

end Machine
end Sys2Proof
end

section
/-!
PROOFS of the statements of the family `03_control.md`: the compares (R92, R110), the control instructions of a matrix
control core (R64, R283, R286), JOIN, YIELD and NOP (R58, R73, R75), and the moves and the logic of predicates and masks
(R66, R76, R78). Each instruction is settled by what its effect makes of the warp or the core at issue; a register that is
made bit by bit is read by `getLsbD_maskWhere`.
-/
namespace Sys2Proof

/-! ## Masks as registers -/

theorem bit_toNat {n : Nat} (x : BitVec n) (i : Nat) : bit x.toNat i = x.getLsbD i := bit_eq_testBit _ _

/-- Bit `i` of a register that is made bit by bit. -/
theorem getLsbD_maskWhere {n i : Nat} (f : Nat → Bool) (h : i < n) : (BitVec.ofNat n (maskWhere n f)).getLsbD i = f i := by
  rw [BitVec.getLsbD_ofNat, ← bit_eq_testBit, bit_maskWhere]
  simp [h]

namespace Machine

/-! ## Issue -/

/-- An instruction whose effect is to set its warp. -/
theorem exec_setsWarp {i : Instr} {f : Nat → State → Warp}
    (he : ∀ s, exec i s = onWarp i (fun w s => .ok (s.setWarp w (f w s))) s) {w : Nat} {s : State} (h : Issues w i s) :
    ∃ t, exec i s = .next t ∧ OnlyWarp w s t ∧ t.warp w = f w (s.issued i w) :=
  ⟨_, (he s).trans (onWarp_ok h rfl), onlyWarp_issued s i w _, State.warp_setWarp_same _ _ _⟩

/-- A matrix control core as an instruction's effect finds it (R283): at its sequential successor. -/
def Mcc.begun (m : Mcc) : Mcc := { m with pc := m.npc, xfer := none }

theorem onlyMcc_setMcc (s : State) (k : Nat) (m : Mcc) : OnlyMcc k s (s.setMcc k m) :=
  ⟨rfl, fun _ hj => State.mcc_setMcc_ne _ _ _ _ hj⟩

theorem onlyMcc_trans {k : Nat} {s t u : State} (h1 : OnlyMcc k s t) (h2 : OnlyMcc k t u) : OnlyMcc k s u := by
  obtain ⟨e1, o1⟩ := h1
  obtain ⟨e2, o2⟩ := h2
  exact ⟨by rw [e2, e1], fun j hj => (o2 j hj).trans (o1 j hj)⟩

/-- The state as an instruction of matrix control core `k` finds it. -/
def State.begunMcc (s : State) (k : Nat) : State := s.setMcc k (s.mcc k).begun

@[simp] theorem mcc_begunMcc (s : State) (k : Nat) : (s.begunMcc k).mcc k = (s.mcc k).begun := State.mcc_setMcc_same _ _ _

/-- A matrix control core's issue whose effect changes that core alone. -/
theorem onEither_doneMcc {i : Instr} {wbody body : Nat → State → Res} {k : Nat} {s t : State} (h : IssuesMcc k s)
    (hb : body k (s.begunMcc k) = .ok t) (ho : OnlyMcc k (s.begunMcc k) t) :
    ∃ u, onEither i wbody body s = .next u ∧ OnlyMcc k s u ∧ u.mcc k = t.mcc k :=
  ⟨t, (onEither_mcc h).trans (onMcc_ok h hb), onlyMcc_trans (onlyMcc_setMcc s k _) ho, rfl⟩

/-- An instruction whose effect is a function of the core. -/
theorem exec_setsMcc {i : Instr} {wbody : Nat → State → Res} (f : Mcc → Mcc)
    (he : ∀ s, exec i s = onEither i wbody (fun k s => .ok (s.setMcc k (f (s.mcc k)))) s) {k : Nat} {s : State}
    (h : IssuesMcc k s) : ∃ t, exec i s = .next t ∧ OnlyMcc k s t ∧ t.mcc k = f (s.mcc k).begun := by
  obtain ⟨t, ht, ho, hm⟩ := onEither_doneMcc (i := i) (wbody := wbody) h
    (body := fun k s => .ok (s.setMcc k (f (s.mcc k)))) rfl (onlyMcc_setMcc _ _ _)
  rw [State.mcc_setMcc_same, mcc_begunMcc] at hm
  exact ⟨t, (he s).trans ht, ho, hm⟩

/-! ## Control of a matrix control core (R64, R283, R286) -/

/-- A core at its sequential successor goes to an address: the place it comes from is noted where it leaves that (R41). -/
theorem jump_begun (m : Mcc) (t : Nat) :
    m.begun.jump t = { m with pc := t, xfer := if t = m.npc then none else some m.cur } := by
  unfold Mcc.jump Mcc.begun
  split
  next h => rw [h]
  next => rfl

/-- The same where the instruction has written a register first. -/
theorem jump_wrS_begun (m : Mcc) (n : Nat) (x : Word) (t : Nat) :
    (m.begun.wrS n x).jump t = { m.wrS n x with pc := t, xfer := if t = m.npc then none else some m.cur } := by
  unfold Mcc.wrS
  split
  next => exact jump_begun m t
  next => exact jump_begun { m with s := m.s.set 0 n x } t

-- BR, CALL, RET and EXIT of a matrix control core, each a function of the core (R70, R72, R286).
theorem exec_brMcc (x : Br) (s : State) : exec (.br x) s =
    onEither (.br x) (brWarp x) (fun k s => .ok (s.setMcc k ((s.mcc k).jump (fbTarget (s.mcc k).cur x)))) s := rfl
theorem exec_callMcc (x : Br) (s : State) : exec (.call x) s = onEither (.call x) (callWarp x) (fun k s =>
    .ok (s.setMcc k (((s.mcc k).wrS x.a (BitVec.ofNat 64 (s.mcc k).npc)).jump (fbTarget (s.mcc k).cur x)))) s := rfl
theorem exec_retMcc (x : Sys) (s : State) : exec (.ret x) s = onEither (.ret x) (indirect x.a x.g)
    (fun k s => .ok (s.setMcc k ((s.mcc k).jump ((s.mcc k).rdS x.a).toNat))) s := rfl
theorem exec_exitMcc (x : Sys) (s : State) : exec (.exit x) s = onEither (.exit x) (exitWarp x)
    (fun k s => .ok (s.setMcc k { s.mcc k with exited := true })) s := rfl

/-- BRU jumps where its condition holds, and otherwise stays at the sequential successor (R70). -/
theorem exec_bruMcc (x : Br) {k : Nat} {s : State} (h : IssuesMcc k s) :
    ∃ t, exec (.bru x) s = .next t ∧ OnlyMcc k s t ∧ t.mcc k = (s.mcc k).begun.jump
      (if ((s.mcc k).rdS x.a != 0) != x.cneg then fbTarget (s.mcc k).cur x else (s.mcc k).npc) := by
  have hm := mcc_begunMcc s k
  by_cases hc : (((s.mcc k).rdS x.a != 0) != x.cneg) = true
  · have hb : bruMcc x k (s.begunMcc k) =
        .ok ((s.begunMcc k).setMcc k ((s.mcc k).begun.jump (fbTarget (s.mcc k).cur x))) := by
      simp only [bruMcc, hm]
      exact if_pos hc
    obtain ⟨t, ht, ho, e⟩ := onEither_doneMcc (i := .bru x) (wbody := bruWarp x) h hb (onlyMcc_setMcc _ _ _)
    exact ⟨t, ht, ho, by rw [e, State.mcc_setMcc_same, if_pos hc]⟩
  · have hb : bruMcc x k (s.begunMcc k) = .ok (s.begunMcc k) := by
      simp only [bruMcc, hm]
      exact if_neg hc
    obtain ⟨t, ht, ho, e⟩ := onEither_doneMcc (i := .bru x) (wbody := bruWarp x) h hb ⟨rfl, fun _ _ => rfl⟩
    exact ⟨t, ht, ho, by rw [e, hm, if_neg hc]; exact (if_pos rfl).symm⟩

/-- Settles O18: each instruction jumps from where the core began, EXIT to the sequential successor. -/
theorem mccControlResult : Obligations.MccControlResult := by
  intro k s h m T goes done
  refine ⟨fun x => ?_, fun x => ?_, fun x => ?_, fun x => ?_, fun x => ?_⟩
  · obtain ⟨t, ht, ho, hm⟩ := exec_setsMcc (fun m => m.jump (fbTarget m.cur x)) (exec_brMcc x) h
    exact ⟨t, ht, ho, hm.trans (jump_begun m _)⟩
  · obtain ⟨t, ht, ho, hm⟩ := exec_bruMcc x h
    exact ⟨t, ht, ho, hm.trans (jump_begun m _)⟩
  · obtain ⟨t, ht, ho, hm⟩ := exec_setsMcc
      (fun m => (m.wrS x.a (BitVec.ofNat 64 m.npc)).jump (fbTarget m.cur x)) (exec_callMcc x) h
    exact ⟨t, ht, ho, hm.trans (jump_wrS_begun m _ _ _)⟩
  · obtain ⟨t, ht, ho, hm⟩ := exec_setsMcc (fun m => m.jump (m.rdS x.a).toNat) (exec_retMcc x) h
    exact ⟨t, ht, ho, hm.trans (jump_begun m _)⟩
  · obtain ⟨t, ht, ho, hm⟩ := exec_setsMcc (fun m => { m with exited := true }) (exec_exitMcc x) h
    exact ⟨t, ht, ho, by rw [hm]; simp only [goes, if_true]; rfl⟩

/-! ## JOIN, YIELD, NOP (R58, R73, R75) -/

/-- A warp whose threads of a mask have yielded (R73). -/
def Warp.yields (a : Warp) (act : Nat) : Warp :=
  { a.mapLanes act (fun _ la => { la with yielded := true }) with selDue := true }

theorem yields_eq (a : Warp) (act : Nat) : a.yields act = { a with lanes := (a.yields act).lanes, selDue := true } := by
  have h := mapLanes_eq a act (fun _ la => { la with yielded := true })
  unfold Warp.yields
  generalize a.mapLanes act _ = b at h ⊢
  rw [h]

theorem lane_selDue (a : Warp) (b : Bool) (l : Nat) : ({ a with selDue := b } : Warp).lane l = a.lane l := rfl

theorem lane_yields (a : Warp) (act : Nat) {l : Nat} (hl : l < 32) :
    (a.yields act).lane l = if bit act l then { a.lane l with yielded := true } else a.lane l := by
  unfold Warp.yields
  rw [lane_selDue, lane_mapLanes]
  simp only [hl, true_and]

theorem exec_join (x : Sys) (s : State) : exec (.join x) s = onWarp (.join x) (fun w s =>
    .ok (s.setWarp w ((s.warp w).blockOn (s.flying w (s.warp w).group storesOrAtomic)))) s := rfl
theorem exec_yield (x : Sys) (s : State) : exec (.yield x) s = onWarp (.yield x) (fun w s =>
    .ok (s.setWarp w ((s.warp w).yields ((s.warp w).active x.g)))) s := rfl
theorem exec_nop (x : Sys) (s : State) : exec (.nop x) s = onWarp (.nop x) (fun _ s => .ok s) s := rfl

/-- Which operations JOIN waits for: those in flight that some thread of the mask issued and that pass the test. -/
theorem mem_flying {s : State} {w mask : Nat} {p : Instr → Bool} {o : Nat} : o ∈ s.flying w mask p ↔
    ∃ op i, (o, op) ∈ s.ops.cells ∧ op.st = .flying ∧ op.warp = w ∧ op.orphan = false ∧ op.lanes &&& mask ≠ 0 ∧
      op.instr = some i ∧ p i = true := by
  unfold State.flying
  rw [List.mem_map]
  constructor
  · rintro ⟨⟨_, op⟩, hc, rfl⟩
    obtain ⟨hmem, hp⟩ := List.mem_filter.mp hc
    simp only [Bool.and_eq_true, beq_iff_eq, bne_iff_ne, Bool.not_eq_true'] at hp
    obtain ⟨⟨⟨⟨hst, hw⟩, horph⟩, hl⟩, hi⟩ := hp
    cases h : op.instr with
    | none => rw [h] at hi; cases hi
    | some i => rw [h] at hi; exact ⟨op, i, hmem, hst, hw, horph, hl, h, hi⟩
  · rintro ⟨op, i, hmem, hst, hw, horph, hl, hi, hp⟩
    exact ⟨(o, op), List.mem_filter.mpr ⟨hmem, by simp [hst, hw, horph, hl, hi, hp]⟩, rfl⟩

/-- A warp is free exactly where there is nothing to wait for. -/
theorem blockOn_free (a : Warp) (l : List Nat) : (a.blockOn l).blocking = .free ↔ l = [] := by
  cases l <;> simp [Warp.blockOn]

theorem blockOn_ops {a : Warp} {l m : List Nat} (h : (a.blockOn l).blocking = .ops m) : m = l := by
  cases l with
  | nil => cases h
  | cons o r => exact (Blocking.ops.inj h).symm

/-- Settles O19: JOIN blocks the warp on what `mem_flying` lists, YIELD changes the Active lanes. -/
theorem joinYieldNopResult : Obligations.JoinYieldNopResult := by
  refine fun w s x => ⟨fun h => ?_, fun h => ?_, fun h => (exec_nop x s).trans (onWarp_ok h rfl)⟩
  · obtain ⟨t, ht, ho, hw⟩ := exec_setsWarp (exec_join x) h
    simp only [issued_warp] at hw
    refine ⟨t, ht, ho, by rw [hw]; rfl, by rw [hw]; exact blockOn_free _ _, fun l hl o => ?_⟩
    rw [hw] at hl
    rw [blockOn_ops hl, mem_flying, issued_eq, State.setWarp_ops]
  · obtain ⟨t, ht, ho, hw⟩ := exec_setsWarp (exec_yield x) h
    simp only [issued_warp] at hw
    refine ⟨t, ht, ho, ?_, fun l hl => ?_⟩
    · rw [hw]; exact yields_eq _ _
    · rw [hw]; exact lane_yields _ _ hl

/-! ## PLOP and PMOV (R66, R76, R78) -/

/-- The warp after a PLOP (R76). -/
def Warp.plop (a : Warp) (d x y z tt : Nat) (g : Guard) : Warp :=
  a.wrP d (BitVec.ofNat 32 (maskWhere 32 (fun l => if bit (a.active g) l then
    bit tt (4 * b2n (bit (a.rdP x).toNat l) + 2 * b2n (bit (a.rdP y).toNat l) + b2n (bit (a.rdP z).toNat l))
    else bit (a.rdP d).toNat l)))

theorem exec_plop (d x y z tt : Nat) (g : Guard) (s : State) : exec (.plop d x y z tt g) s =
    onWarp (.plop d x y z tt g) (fun w s => .ok (s.setWarp w ((s.warp w).plop d x y z tt g))) s := rfl
theorem exec_pmov (x : R3) (s : State) : exec (.pmov x) s =
    onWarp (.pmov x) (fun w s => .ok (s.setWarp w ((s.warp w).pmov x ((s.warp w).active x.g)))) s := rfl

/-- R66, R76: the truth table in Active threads, the bit as it was in the others, and p0 as it is. -/
theorem getLsbD_plop (a : Warp) (d x y z tt : Nat) (g : Guard) {l : Nat} (hl : l < 32) :
    ((a.plop d x y z tt g).rdP d).getLsbD l = if bit (a.active g) l = true ∧ d ≠ 0 then
      tt.testBit (4 * b2n ((a.rdP x).getLsbD l) + 2 * b2n ((a.rdP y).getLsbD l) + b2n ((a.rdP z).getLsbD l))
      else (a.rdP d).getLsbD l := by
  unfold Warp.plop
  rw [rdP_wrP]
  by_cases hd : d = 0
  · rw [if_neg (fun e => e.2 hd), if_neg (fun e => e.2 hd)]
  · rw [if_pos ⟨rfl, hd⟩, getLsbD_maskWhere _ hl]
    simp only [bit_toNat, bit_eq_testBit tt, ne_eq, hd, not_false_eq_true, and_true]

/-- Settles O21: the destination by `getLsbD_plop`, and a write of one predicate register changes no other. -/
theorem predicateLogic : Obligations.PredicateLogic := by
  intro w s d x y z tt g h wp bitOf
  obtain ⟨t, ht, ho, hw⟩ := exec_setsWarp (exec_plop d x y z tt g) h
  refine ⟨t, ht, ho, by rw [hw]; exact wrP_eq _ _ _, fun n hn => ?_, fun l hl => ?_⟩
  · rw [hw, Warp.plop, rdP_wrP, if_neg (fun e => hn e.1)]
    rfl
  · rw [hw]
    exact getLsbD_plop wp d x y z tt g hl

/-! ### Frames of a write of one register -/

/-- Of a warp at most its scalar, predicate and mask registers have changed, and of these at most the one named. -/
def OneReg (r : RegRef) (a b : Warp) : Prop :=
  b = { a with s := b.s, p := b.p, m := b.m } ∧ KeepsRegs [r] a b

theorem oneReg_refl (r : RegRef) (a : Warp) : OneReg r a a :=
  ⟨rfl, fun _ _ _ _ => rfl, fun _ _ => rfl, fun _ _ => rfl, fun _ _ => rfl⟩

theorem oneReg_wrS (a : Warp) (n : Nat) (x : Word) : OneReg ⟨.s, n⟩ a (a.wrS n x) := by
  have h := rdS_wrS a n
  have e := wrS_eq a n x
  refine ⟨by rw [e], by rw [e]; exact fun _ _ _ _ => rfl, fun k hk => ?_, by rw [e]; exact fun _ _ => rfl,
    by rw [e]; exact fun _ _ => rfl⟩
  rw [h, if_neg]
  rintro ⟨rfl, -⟩
  exact hk (List.mem_singleton_self _)

theorem oneReg_wrP (a : Warp) (n : Nat) (x : BitVec 32) : OneReg ⟨.p, n⟩ a (a.wrP n x) := by
  have h := rdP_wrP a n
  have e := wrP_eq a n x
  refine ⟨by rw [e], by rw [e]; exact fun _ _ _ _ => rfl, by rw [e]; exact fun _ _ => rfl, fun k hk => ?_,
    by rw [e]; exact fun _ _ => rfl⟩
  rw [h, if_neg]
  rintro ⟨rfl, -⟩
  exact hk (List.mem_singleton_self _)

theorem oneReg_wrM (a : Warp) (n : Nat) (x : BitVec 256) : OneReg ⟨.m, n⟩ a (a.wrM n x) := by
  have h := rdM_wrM a n
  have e := wrM_eq a n x
  refine ⟨by rw [e], by rw [e]; exact fun _ _ _ _ => rfl, by rw [e]; exact fun _ _ => rfl,
    by rw [e]; exact fun _ _ => rfl, fun k hk => ?_⟩
  rw [h, if_neg]
  rintro ⟨rfl, -⟩
  exact hk (List.mem_singleton_self _)

theorem oneReg_ite {r : RegRef} {a b : Warp} (c : Prop) [Decidable c] (h : OneReg r a b) :
    OneReg r a (if c then a else b) := by
  split
  · exact oneReg_refl r a
  · exact h

/-- What a register other than the fixed one reads as once it is written. -/
theorem rdS_wrS_same (a : Warp) {n : Nat} (x : Word) (hn : n ≠ 0) : (a.wrS n x).rdS n = x := by
  rw [rdS_wrS, if_pos ⟨rfl, hn⟩]
theorem rdP_wrP_same (a : Warp) {n : Nat} (x : BitVec 32) (hn : n ≠ 0) : (a.wrP n x).rdP n = x := by
  rw [rdP_wrP, if_pos ⟨rfl, hn⟩]
theorem rdM_wrM_same (a : Warp) {n : Nat} (x : BitVec 256) (hn : n ≠ 0) : (a.wrM n x).rdM n = x := by
  rw [rdM_wrM, if_pos ⟨rfl, hn⟩]

/-! ### The kinds of PMOV (R78) -/

/-- Predicate register `d` with the bits of a mask's threads as given, and the others as they were. -/
def Warp.mergeP (a : Warp) (d act : Nat) (f : Nat → Bool) : Warp :=
  a.wrP d (BitVec.ofNat 32 (maskWhere 32 (fun l => if bit act l then f l else bit (a.rdP d).toNat l)))

theorem oneReg_mergeP (a : Warp) (d act : Nat) (f : Nat → Bool) : OneReg ⟨.p, d⟩ a (a.mergeP d act f) := oneReg_wrP _ _ _

theorem getLsbD_mergeP (a : Warp) {d act l : Nat} (f : Nat → Bool) (hd : d ≠ 0) (hl : l < 32) :
    ((a.mergeP d act f).rdP d).getLsbD l = if bit act l then f l else (a.rdP d).getLsbD l := by
  unfold Warp.mergeP
  rw [rdP_wrP_same _ _ hd, getLsbD_maskWhere _ hl, bit_toNat]

section
variable (a : Warp) {x : R3} (act : Nat)

theorem pmov_pp (h : x.b = 0) : a.pmov x act = a.mergeP x.d act (fun l => bit (a.rdP x.a).toNat l) := by
  simp only [Warp.pmov, h, Warp.mergeP]

theorem pmov_ps (h : x.b = 1) : a.pmov x act = if act = 0 then a else a.wrP x.d ((a.rdS x.a).setWidth 32) := by
  simp only [Warp.pmov, h, BitVec.ofNat_toNat]

theorem pmov_sp (h : x.b = 2) : a.pmov x act = if act = 0 then a else a.wrS x.d ((a.rdP x.a).setWidth 64) := by
  simp only [Warp.pmov, h, BitVec.ofNat_toNat]

theorem pmov_mp (h : x.b = 3) : a.pmov x act = a.wrM x.d (BitVec.ofNat 256 (maskWhere 256 (fun i =>
    if bit act (i / 8) then bit (a.rdP x.a).toNat (i / 8) else bit (a.rdM x.d).toNat i))) := by
  simp only [Warp.pmov, h]

theorem pmov_pm (h : x.b = 4) : a.pmov x act =
    a.mergeP x.d act (fun l => (List.range 8).any (fun k => bit (a.rdM x.a).toNat (8 * l + k))) := by
  simp only [Warp.pmov, h, Warp.mergeP]

/-- Each kind writes its destination alone. -/
theorem pmov_oneReg (h : x.b < 5) : OneReg (pmovRegs x).2 a (a.pmov x act) := by
  unfold pmovRegs
  obtain h | h | h | h | h : x.b = 0 ∨ x.b = 1 ∨ x.b = 2 ∨ x.b = 3 ∨ x.b = 4 := by omega
  · simpa only [pmov_pp a act h, h] using oneReg_mergeP a x.d act _
  · simpa only [pmov_ps a act h, h] using oneReg_ite _ (oneReg_wrP a x.d _)
  · simpa only [pmov_sp a act h, h] using oneReg_ite _ (oneReg_wrS a x.d _)
  · simpa only [pmov_mp a act h, h] using oneReg_wrM a x.d _
  · simpa only [pmov_pm a act h, h] using oneReg_mergeP a x.d act _

end

/-- Settles O22: PLOP by `getLsbD_plop`, and each kind of PMOV by the write that it makes. -/
theorem predicateMoves : Obligations.PredicateMoves := by
  refine ⟨fun w s d x y z tt g h => ?_, fun w s x h hb => ?_⟩
  · intro wp
    obtain ⟨t, ht, -, hw⟩ := exec_setsWarp (exec_plop d x y z tt g) h
    change t.warp w = wp.plop d x y z tt g at hw
    refine ⟨t, ht, ?_⟩
    rw [hw]
    refine ⟨(oneReg_wrP wp d _).2, rdP_zero _, fun l hl ha => ?_⟩
    rw [getLsbD_plop _ _ _ _ _ _ _ hl, if_neg]
    simp only [ha, Bool.false_eq_true, false_and, not_false_eq_true]
  · intro a act
    obtain ⟨t, ht, ho, hw⟩ := exec_setsWarp (exec_pmov x) h
    rw [issued_warp] at hw
    change t.warp w = a.pmov x (a.active x.g) at hw
    obtain ⟨hframe, hkeeps⟩ := pmov_oneReg a (a.active x.g) hb
    rw [← hw] at hframe hkeeps
    refine ⟨t, ht, ho, hframe, hkeeps, rdP_zero _, rdM_zero _, fun hd h0 l hl => ?_, fun hd h1 => ?_, fun hd h2 => ?_,
      fun hd h3 l k hl hk => ?_, fun hd h4 l hl => ?_⟩
    · rw [hw, pmov_pp _ _ h0, getLsbD_mergeP _ _ hd hl, bit_toNat]
      split <;> rfl
    · rw [hw, pmov_ps _ _ h1]
      split
      · rfl
      · exact rdP_wrP_same _ _ hd
    · rw [hw, pmov_sp _ _ h2]
      split
      · rfl
      · exact rdS_wrS_same _ _ hd
    · rw [hw, pmov_mp _ _ h3, rdM_wrM_same _ _ hd, getLsbD_maskWhere _ (by omega), show (8 * l + k) / 8 = l by omega,
        bit_toNat, bit_toNat]
    · rw [hw, pmov_pm _ _ h4, getLsbD_mergeP _ _ hd hl]
      by_cases ha : act l
      · rw [if_pos ha, if_pos ha]
        simp only [List.any_eq_true, List.mem_range, bit_toNat]
      · rw [if_neg ha, if_neg ha]

/-! ## Compares (R92, R110) -/

/-- The bit of thread `l` in predicate `r` once a compare has written it. -/
def Warp.condPred (a : Warp) (x : Alu) (n : Nat) (cond : Nat → Nat → Bool) (r l : Nat) : Bool :=
  if bit (a.active x.g) l then
    (if x.cmpAny true then decide (∃ k, k < n ∧ a.enabled x.g x.vx.m l k = true ∧ cond l k = true)
     else decide (∀ k, k < n → a.enabled x.g x.vx.m l k = true → cond l k = true))
  else (a.rdP r).getLsbD l

/-- The bit of element `k` of thread `l` in mask `r` once a compare has written it. -/
def Warp.condMask (a : Warp) (x : Alu) (n : Nat) (cond : Nat → Nat → Bool) (r l k : Nat) : Bool :=
  if bit (a.active x.g) l then
    (if n ≤ k then false else if a.enabled x.g x.vx.m l k then cond l k
     else if x.vx.z then false else (a.rdM r).getLsbD (8 * l + k))
  else (a.rdM r).getLsbD (8 * l + k)

section
variable (a : Warp) (x : Alu) (n : Nat) (cond : Nat → Nat → Bool)

theorem writeCond_pred (h : x.cmpKind true = false) : a.writeCond x n cond =
    a.wrP (x.cmpD true) (BitVec.ofNat 32 (maskWhere 32 (a.condPred x n cond (x.cmpD true)))) := by
  unfold Warp.writeCond
  rw [h]
  refine congrArg (fun f => a.wrP (x.cmpD true) (BitVec.ofNat 32 (maskWhere 32 f))) (funext fun l => ?_)
  unfold Warp.condPred
  cases bit (a.active x.g) l
  · exact bit_toNat _ _
  · cases x.cmpAny true
    · rw [Bool.eq_iff_iff]
      simp [imp_iff_not_or]
    · rw [Bool.eq_iff_iff]
      simp

theorem writeCond_mask (h : x.cmpKind true = true) : a.writeCond x n cond = a.wrM (x.cmpD true)
    (BitVec.ofNat 256 (maskWhere 256 (fun i => a.condMask x n cond (x.cmpD true) (i / 8) (i % 8)))) := by
  unfold Warp.writeCond
  rw [h]
  refine congrArg (fun f => a.wrM (x.cmpD true) (BitVec.ofNat 256 (maskWhere 256 f))) (funext fun i => ?_)
  unfold Warp.condMask
  rw [Nat.div_add_mod, ← bit_toNat]
  dsimp only
  cases bit (a.active x.g) (i / 8) <;> rfl

theorem writeCond_eq : a.writeCond x n cond =
    { a with p := (a.writeCond x n cond).p, m := (a.writeCond x n cond).m } := by
  cases h : x.cmpKind true
  · rw [writeCond_pred a x n cond h, wrP_eq]
  · rw [writeCond_mask a x n cond h, wrM_eq]

theorem writeCond_oneReg : OneReg (x.cmpDest true) a (a.writeCond x n cond) := by
  unfold Alu.cmpDest
  cases h : x.cmpKind true
  · rw [writeCond_pred a x n cond h]
    exact oneReg_wrP _ _ _
  · rw [writeCond_mask a x n cond h]
    exact oneReg_wrM _ _ _

end

/-- What a compare leaves in the predicates and masks: its destination from its conditions, every other one as before. -/
def CondDone (x : Alu) (n : Nat) (cond : Nat → Nat → Bool) (a b : Warp) : Prop :=
  (∀ r, ⟨.p, r⟩ ≠ x.cmpDest true → b.rdP r = a.rdP r) ∧
  (∀ r, ⟨.m, r⟩ ≠ x.cmpDest true → b.rdM r = a.rdM r) ∧
  (∀ r, x.cmpDest true = ⟨.p, r⟩ → r ≠ 0 → ∀ l, l < 32 → (b.rdP r).getLsbD l = a.condPred x n cond r l) ∧
  (∀ r, x.cmpDest true = ⟨.m, r⟩ → r ≠ 0 → ∀ l k, l < 32 → k < 8 →
    (b.rdM r).getLsbD (8 * l + k) = a.condMask x n cond r l k)

theorem cmpDest_pred {x : Alu} {r : Nat} (h : x.cmpDest true = ⟨.p, r⟩) : x.cmpKind true = false ∧ x.cmpD true = r := by
  unfold Alu.cmpDest at h
  cases hk : x.cmpKind true
  · simpa [hk] using h
  · simp [hk] at h

theorem cmpDest_mask {x : Alu} {r : Nat} (h : x.cmpDest true = ⟨.m, r⟩) : x.cmpKind true = true ∧ x.cmpD true = r := by
  unfold Alu.cmpDest at h
  cases hk : x.cmpKind true
  · simp [hk] at h
  · simpa [hk] using h

theorem writeCond_done (a : Warp) (x : Alu) (n : Nat) (cond : Nat → Nat → Bool) :
    CondDone x n cond a (a.writeCond x n cond) := by
  obtain ⟨-, -, -, hp, hm⟩ := writeCond_oneReg a x n cond
  refine ⟨fun r h => hp r (fun e => h (List.mem_singleton.mp e)), fun r h => hm r (fun e => h (List.mem_singleton.mp e)),
    fun r h hr l hl => ?_, fun r h hr l k hl hk => ?_⟩
  · obtain ⟨hkind, rfl⟩ := cmpDest_pred h
    rw [writeCond_pred a x n cond hkind, rdP_wrP_same _ _ hr, getLsbD_maskWhere _ hl]
  · obtain ⟨hkind, rfl⟩ := cmpDest_mask h
    rw [writeCond_mask a x n cond hkind, rdM_wrM_same _ _ hr, getLsbD_maskWhere _ (by omega),
      show (8 * l + k) / 8 = l by omega, show (8 * l + k) % 8 = k by omega]

/-- The condition of element `k` of lane `l` of a vector CMP (R92). -/
def Warp.cmpHolds (a : Warp) (x : Alu) (l k : Nat) : Bool :=
  condHolds (x.cmpCond true) (valOf x.fmt (subOf (a.opndV x.a l) (intWidth x.fmt) k)) (valOf x.fmt (a.intB x l k))

theorem exec_cmpVec (x : Alu) (s : State) : exec (.cmp true x) s = onWarp (.cmp true x) (fun w s =>
    .ok (s.setWarp w ((s.warp w).writeCond x (64 / intWidth x.fmt) ((s.warp w).cmpHolds x)))) s := rfl

/-- Settles O6: a compare is one `writeCond`. -/
theorem compareResult : Obligations.CompareResult := by
  intro x w s h a n cond
  obtain ⟨t, ht, ho, hw⟩ := exec_setsWarp (exec_cmpVec x) h
  change t.warp w = a.writeCond x n (a.cmpHolds x) at hw
  exact ⟨t, ht, ho, by rw [hw]; exact writeCond_eq a x n _, by rw [hw]; exact writeCond_done a x n (a.cmpHolds x)⟩

/-! ### Lanes of the same states: the same threads are Active, and a compare writes the same -/

section
variable {a : Warp} {ls : Table Lane} (h : ∀ l, (ls.get {} l).st = (a.lane l).st)
include h

theorem isHelper_lanes (l : Nat) : ({ a with lanes := ls } : Warp).isHelper l = a.isHelper l := congrArg (· == .helper) (h l)

theorem standing_lanes (l : Nat) : ({ a with lanes := ls } : Warp).standing l = a.standing l :=
  congrArg (fun st : TState => st == .live || st.isParked) (h l)

theorem host_lanes (l : Nat) : ({ a with lanes := ls } : Warp).host l = a.host l := by
  unfold Warp.host
  simp only [standing_lanes h]

theorem guardBit_lanes (g : Guard) (l : Nat) : ({ a with lanes := ls } : Warp).guardBit g l = a.guardBit g l := by
  unfold Warp.guardBit
  rw [isHelper_lanes h, host_lanes h]
  rfl

theorem active_lanes (g : Guard) : ({ a with lanes := ls } : Warp).active g = a.active g := by
  unfold Warp.active
  simp only [guardBit_lanes h]

theorem enabled_lanes (g : Guard) (m l k : Nat) :
    ({ a with lanes := ls } : Warp).enabled g m l k = a.enabled g m l k := by
  unfold Warp.enabled
  rw [active_lanes h]
  rfl

omit h in
theorem wrP_lanes (n : Nat) (x : BitVec 32) : ({ a with lanes := ls } : Warp).wrP n x = { a.wrP n x with lanes := ls } := by
  unfold Warp.wrP
  split <;> rfl

omit h in
theorem wrM_lanes (n : Nat) (x : BitVec 256) : ({ a with lanes := ls } : Warp).wrM n x = { a.wrM n x with lanes := ls } := by
  unfold Warp.wrM
  split <;> rfl

theorem condPred_lanes (x : Alu) (n : Nat) (cond : Nat → Nat → Bool) (r : Nat) :
    ({ a with lanes := ls } : Warp).condPred x n cond r = a.condPred x n cond r := by
  funext l
  unfold Warp.condPred
  simp only [active_lanes h, enabled_lanes h]
  rfl

theorem condMask_lanes (x : Alu) (n : Nat) (cond : Nat → Nat → Bool) (r l k : Nat) :
    ({ a with lanes := ls } : Warp).condMask x n cond r l k = a.condMask x n cond r l k := by
  unfold Warp.condMask
  simp only [active_lanes h, enabled_lanes h]
  rfl

theorem writeCond_lanes (x : Alu) (n : Nat) (cond : Nat → Nat → Bool) :
    ({ a with lanes := ls } : Warp).writeCond x n cond = { a.writeCond x n cond with lanes := ls } := by
  cases hk : x.cmpKind true
  · rw [writeCond_pred _ x n cond hk, writeCond_pred a x n cond hk, condPred_lanes h, wrP_lanes]
  · rw [writeCond_mask _ x n cond hk, writeCond_mask a x n cond hk, wrM_lanes]
    simp only [condMask_lanes h]

end

/-! ### FCMP (R105, R110) -/

theorem st_takeFlags (a : Warp) (outs : List LaneOut) (steps : Bool) (h : outs.length = 32) (k : Nat) :
    ((a.takeFlags outs steps).lane k).st = (a.lane k).st := by
  rw [lane_takeFlags a outs steps h]
  split <;> rfl

/-- The flags of a lane once an element-wise run has raised its own. -/
theorem fflags_takeFlags (a : Warp) (x : Alu) (wd : Nat) (at_ : Nat → Nat) (n : Nat) (f : ElemFn) {l : Nat} (hl : l < 32) :
    ((a.takeFlags (vecRun a x wd at_ n f) true).lane l).fflags =
      raiseFlags (a.lane l).fflags (elemsDone a x at_ f l n).1 := by
  rw [lane_takeFlags _ _ _ (vecRun_length _ _ _ _ _ _), if_pos hl, List.getD_eq_getElem?_getD,
    vecRun_get _ _ _ _ _ _ _ hl, Option.getD_some, laneRun_eq, laneAcc_done]
  rfl

/-- No fault is raised where no element raises one that could be (R89, R105). -/
theorem vecFault_vecRun {s : State} {w : Nat} {a : Warp} {x : Alu} {at_ : Nat → Nat} {n : Nat} {f : ElemFn} (wd : Nat)
    (h : NoArithFault s w a x at_ n f) : (if s.defers w then none else vecFault a (vecRun a x wd at_ n f)) = none := by
  rcases h with hd | hc
  · rw [if_pos hd]
  · rw [vecFault_none, ite_self]
    intro l hl hh o ho
    rw [vecRun_get _ _ _ _ _ _ _ hl, laneRun_eq] at ho
    obtain rfl := Option.some.inj ho
    exact laneAcc_flags Flags.calm ⟨rfl, rfl, rfl, rfl⟩ Flags.calm_or _ (fun j hj he rg => hc l j hl hj hh he rg)

/-- An element that can raise invalid and nothing else, and draws nothing. -/
def invalidElem (inv : Nat → Nat → Bool) : ElemFn := fun l k _ rg => { val := 0, fl := { invalid := inv l k }, rng := rg }

theorem elemsDone_invalid (a : Warp) (x : Alu) (at_ : Nat → Nat) (inv : Nat → Nat → Bool) (l n : Nat) :
    (elemsDone a x at_ (invalidElem inv) l n).1 =
      { invalid := (List.range n).any (fun k => a.enabled x.g x.vx.m l (at_ k) && inv l k) } := by
  induction n with
  | zero => rfl
  | succ n ih =>
    rw [elemsDone_succ, List.range_succ, List.any_append]
    cases he : a.enabled x.g x.vx.m l (at_ n)
    · simp [ih, he]
    · simp [ih, he, Flags.or, invalidElem]

theorem raiseFlags_invalid (r : BitVec 32) (b : Bool) :
    raiseFlags r { invalid := b } = r ||| (if b then 1#32 else 0#32) := by
  cases b <;> rfl

/-- The condition of element `k` of lane `l` of an FCMP, and whether it is invalid (R110). -/
def Warp.fcmpLane (a : Warp) (x : Alu) (l k : Nat) : Bool × Bool :=
  fcmpHolds (x.cmpCond true) ((fmtOf x.fmt).decode (subOf (a.opndV x.a l) (floatWidth x.fmt) k))
    ((fmtOf x.fmt).decode (a.floatB x l k))

/-- The warp with the flags that an FCMP raises. -/
def Warp.fcmpFlags (a : Warp) (x : Alu) : Warp :=
  a.takeFlags (vecRun a x (floatWidth x.fmt) id (64 / floatWidth x.fmt) (invalidElem (fun l k => (a.fcmpLane x l k).2))) true

theorem exec_fcmp (x : Alu) (s : State) : exec (.fcmp x) s = onWarp (.fcmp x) (fcmpVec x) s := rfl

/-- FCMP where nothing faults: the flags, then what its conditions write. -/
theorem fcmpVec_ok (x : Alu) (w : Nat) (s : State) (h : NoArithFault s w (s.warp w) x id (64 / floatWidth x.fmt)
    (invalidElem (fun l k => ((s.warp w).fcmpLane x l k).2))) :
    fcmpVec x w s = .ok (s.setWarp w (((s.warp w).fcmpFlags x).writeCond x (64 / floatWidth x.fmt)
      (fun l k => ((s.warp w).fcmpLane x l k).1))) := by
  have hf := vecFault_vecRun (floatWidth x.fmt) h
  unfold invalidElem Warp.fcmpLane at hf
  unfold fcmpVec
  simp only [hf]
  rfl

/-- The warp after an FCMP: the destination of a compare on its own lanes, and the lanes flagged. -/
theorem fcmpFlags_writeCond (a : Warp) (x : Alu) (n : Nat) (cond : Nat → Nat → Bool) :
    (a.fcmpFlags x).writeCond x n cond = { a.writeCond x n cond with lanes := (a.fcmpFlags x).lanes } := by
  have hst := st_takeFlags a (vecRun a x (floatWidth x.fmt) id (64 / floatWidth x.fmt)
    (invalidElem (fun l k => (a.fcmpLane x l k).2))) true (vecRun_length _ _ _ _ _ _)
  have he := takeFlags_eq a (vecRun a x (floatWidth x.fmt) id (64 / floatWidth x.fmt)
    (invalidElem (fun l k => (a.fcmpLane x l k).2))) true (vecRun_length _ _ _ _ _ _)
  change ∀ k, ((a.fcmpFlags x).lane k).st = (a.lane k).st at hst
  change a.fcmpFlags x = { a with lanes := (a.fcmpFlags x).lanes } at he
  generalize a.fcmpFlags x = b at hst he ⊢
  rw [he]
  exact writeCond_lanes hst x n cond

/-- Invalid is raised in the lanes of which some Enabled element is (R110). -/
theorem fflags_fcmpFlags (a : Warp) (x : Alu) {l : Nat} (hl : l < 32) :
    ((a.fcmpFlags x).lane l).fflags = (a.lane l).fflags |||
      (if (List.range (64 / floatWidth x.fmt)).any (fun k => a.enabled x.g x.vx.m l k && (a.fcmpLane x l k).2)
        then 1#32 else 0#32) := by
  unfold Warp.fcmpFlags
  rw [fflags_takeFlags _ _ _ _ _ _ hl, elemsDone_invalid, raiseFlags_invalid]
  rfl

/-- What an FCMP that raises no fault leaves. -/
theorem fcmp_done (a : Warp) (x : Alu) {b : Warp}
    (hb : b = (a.fcmpFlags x).writeCond x (64 / floatWidth x.fmt) (fun l k => (a.fcmpLane x l k).1)) :
    b = { a with p := b.p, m := b.m, lanes := b.lanes } ∧
    CondDone x (64 / floatWidth x.fmt) (fun l k => (a.fcmpLane x l k).1) a b ∧
    ∀ l, l < 32 → (b.lane l).fflags = (a.lane l).fflags |||
      (if (List.range (64 / floatWidth x.fmt)).any (fun k => a.enabled x.g x.vx.m l k && (a.fcmpLane x l k).2)
        then 1#32 else 0#32) := by
  rw [fcmpFlags_writeCond] at hb
  have hl := fun l (h : l < 32) => fflags_fcmpFlags a x h
  have hc := writeCond_eq a x (64 / floatWidth x.fmt) (fun l k => (a.fcmpLane x l k).1)
  have hd := writeCond_done a x (64 / floatWidth x.fmt) (fun l k => (a.fcmpLane x l k).1)
  generalize a.fcmpFlags x = flagged at hb hl
  generalize a.writeCond x (64 / floatWidth x.fmt) (fun l k => (a.fcmpLane x l k).1) = c at hb hc hd
  subst hb
  exact ⟨by rw [hc], hd, hl⟩

/-- Settles O10: a compare's `writeCond` on the warp whose lanes have been flagged. -/
theorem floatCompareResult : Obligations.FloatCompareResult := by
  intro x w s h a n f r hcalm
  have hno : NoArithFault (s.issued (.fcmp x) w) w a x id n (invalidElem (fun l k => (a.fcmpLane x l k).2)) := by
    unfold NoArithFault
    rw [defers_issued]
    exact hcalm.imp_right (fun hc l k hl hk hh he _ => ⟨rfl, hc l k hl hk hh he, rfl, rfl⟩)
  refine ⟨_, (exec_fcmp x s).trans (onWarp_ok h (fcmpVec_ok x w _ hno)), onlyWarp_issued s _ w _, ?_⟩
  obtain ⟨hframe, ⟨hp, hm, hdp, hdm⟩, hflags⟩ := fcmp_done a x rfl
  rw [State.warp_setWarp_same, issued_warp]
  exact ⟨hframe, hp, hm, hdp, hdm, hflags⟩

end Machine
end Sys2Proof
end

section
/-!
PROOFS of the statements of the family `04_integer.md`: the functions of R87 as operations on bit vectors, the fault that
halts an element-wise instruction (R89, R105), and scalar division (R89). An exact result of R87 is read modulo `2 ^ w` by
`BitVec.ofInt`, which commutes with the arithmetic; a fault is the first cause that `faultyLane` finds; a scalar division
ends as the int-div-zero flag of `scalarCompute` says.
-/
namespace Sys2Proof

/-! ## Patterns as bit vectors -/

theorem ofNat_pattern (w : Nat) (t : Int) : BitVec.ofNat w (pattern w t) = BitVec.ofInt w t := by
  apply BitVec.eq_of_toNat_eq
  rw [BitVec.toNat_ofNat, BitVec.toNat_ofInt, Nat.mod_eq_of_lt (pattern_lt w t), pattern]

theorem pattern_natCast {w n : Nat} (h : n < 2 ^ w) : pattern w n = n := by
  unfold pattern
  rw [← Int.natCast_emod, Int.toNat_natCast, Nat.mod_eq_of_lt h]

theorem sext_eq_toInt {w : Nat} (hw : 0 < w) (x : Nat) : sext w x = (BitVec.ofNat w x).toInt := by
  have hpow : 2 ^ w = 2 * 2 ^ (w - 1) := by rw [← Nat.pow_succ', Nat.succ_eq_add_one, Nat.sub_one_add_one hw.ne']
  rw [BitVec.toInt_eq_toNat_cond, BitVec.toNat_ofNat, sext]
  split <;> split <;> omega

/-- The high half of a double-width pattern is the value divided by `2 ^ w`, rounded down. -/
theorem extractLsb'_ofInt (w : Nat) (t : Int) :
    (BitVec.ofInt (2 * w) t).extractLsb' w w = BitVec.ofInt w (t / (2 ^ w : Nat)) := by
  apply BitVec.eq_of_toNat_eq
  rw [BitVec.extractLsb'_toNat, BitVec.toNat_ofInt, BitVec.toNat_ofInt, Nat.shiftRight_eq_div_pow, Nat.two_mul, Nat.pow_add]
  have hpos : (2 ^ w : Nat) ≠ (0 : Int) := Int.natCast_ne_zero.mpr (Nat.two_pow_pos w).ne'
  generalize 2 ^ w = m at hpos
  have hdiv : t % (m * m) / m % m = t / m % m := by
    rw [Int.emod_def t, Int.sub_eq_add_neg, Int.mul_assoc, ← Int.mul_neg, Int.add_mul_ediv_left _ _ hpos, ← Int.mul_neg,
      Int.add_mul_emod_self_left]
  apply Int.natCast_inj.mp
  rw [Int.toNat_of_nonneg (Int.emod_nonneg _ hpos), ← hdiv, Int.natCast_emod, Int.natCast_ediv, Int.natCast_mul,
    Int.toNat_of_nonneg (Int.emod_nonneg _ (Int.mul_ne_zero hpos hpos))]

theorem popcount_le (w x : Nat) : popcount w x ≤ w :=
  (List.length_filter_le _ _).trans List.length_range.le

/-- The two parts of a rotated pattern have no bit in common. -/
theorem rotate_add_eq_or {w s x : Nat} (hs : s < w) (hx : x < 2 ^ w) :
    x * 2 ^ s % 2 ^ w + x / 2 ^ (w - s) = x * 2 ^ s % 2 ^ w ||| x / 2 ^ (w - s) := by
  have hpow : 2 ^ w = 2 ^ (w - s) * 2 ^ s := by rw [← Nat.pow_add, Nat.sub_add_cancel hs.le]
  have hlow : x / 2 ^ (w - s) < 2 ^ s := Nat.div_lt_of_lt_mul (hpow ▸ hx)
  rw [hpow, Nat.mul_mod_mul_right, Nat.mul_comm, Nat.two_pow_add_eq_or_of_lt hlow]

namespace Machine

/-- Where the leading zeros of a pattern end. -/
theorem leadingZeros_spec {w x : Nat} (hx : x < 2 ^ w) : leadingZeros w x ≤ w ∧
    (∀ i, w - leadingZeros w x ≤ i → x.testBit i = false) ∧
    (leadingZeros w x < w → x.testBit (w - 1 - leadingZeros w x) = true) := by
  unfold leadingZeros
  rw [Nat.mod_eq_of_lt hx]
  split
  next h0 => simp [h0]
  next h0 =>
    have hlog : x.log2 < w := (Nat.log2_lt h0).mpr hx
    refine ⟨by omega, fun i hi => ?_, fun _ => ?_⟩
    · exact Nat.testBit_lt_two_pow ((Nat.log2_lt h0).mp (by omega))
    · rw [show w - 1 - (w - 1 - x.log2) = x.log2 by omega]
      exact Nat.testBit_log2 h0
/-! ## Functions of values (R84, R87) -/

section
variable (fmt x y z : Nat) (sat : Bool)

theorem bits_wrapFn (f : Nat → Nat → Nat → Nat → Int) :
    BitVec.ofNat (intWidth fmt) (wrapFn f fmt x y z sat).1 = BitVec.ofInt (intWidth fmt) (f fmt x y z) :=
  ofNat_pattern _ _

theorem bits_satFn (f : Nat → Nat → Nat → Nat → Int) :
    BitVec.ofNat (intWidth fmt) (satFn f fmt x y z false).1 = BitVec.ofInt (intWidth fmt) (f fmt x y z) :=
  ofNat_pattern _ _

variable {fmt}

theorem valOf_signed (h : intSigned fmt = true) : valOf fmt x = (BitVec.ofNat (intWidth fmt) x).toInt := by
  rw [valOf, if_pos h, sext_eq_toInt (intWidth_pos fmt)]

theorem valOf_unsigned (h : intSigned fmt = false) : valOf fmt x = (BitVec.ofNat (intWidth fmt) x).toNat := by
  rw [valOf, if_neg (by rw [h]; exact Bool.false_ne_true), BitVec.toNat_ofNat]

variable (fmt)

theorem ofInt_valOf : BitVec.ofInt (intWidth fmt) (valOf fmt x) = BitVec.ofNat (intWidth fmt) x := by
  cases h : intSigned fmt
  · rw [valOf_unsigned x h, BitVec.ofInt_natCast, BitVec.ofNat_toNat, BitVec.setWidth_eq]
  · rw [valOf_signed x h, BitVec.ofInt_toInt]

/-- A pattern widened as its format says has the same value. -/
theorem widen_eq_ofInt (v : Nat) : (if intSigned fmt then (BitVec.ofNat (intWidth fmt) x).signExtend v
    else (BitVec.ofNat (intWidth fmt) x).zeroExtend v) = BitVec.ofInt v (valOf fmt x) := by
  cases h : intSigned fmt
  · rw [valOf_unsigned x h, BitVec.ofInt_natCast, BitVec.ofNat_toNat]; rfl
  · rw [valOf_signed x h]; rfl

theorem valOf_lt_iff : valOf fmt x < valOf fmt y ↔
    (if intSigned fmt then (BitVec.ofNat (intWidth fmt) x).slt (BitVec.ofNat (intWidth fmt) y)
     else (BitVec.ofNat (intWidth fmt) x).ult (BitVec.ofNat (intWidth fmt) y)) = true := by
  cases h : intSigned fmt
  · rw [valOf_unsigned x h, valOf_unsigned y h, Int.ofNat_lt, ← BitVec.ult_iff_toNat_lt]; rfl
  · rw [valOf_signed x h, valOf_signed y h, ← BitVec.slt_iff_toInt_lt]; rfl

theorem valOf_le_iff : valOf fmt x ≤ valOf fmt y ↔
    (if intSigned fmt then (BitVec.ofNat (intWidth fmt) x).sle (BitVec.ofNat (intWidth fmt) y)
     else (BitVec.ofNat (intWidth fmt) x).ule (BitVec.ofNat (intWidth fmt) y)) = true := by
  cases h : intSigned fmt
  · rw [valOf_unsigned x h, valOf_unsigned y h, Int.ofNat_le, ← BitVec.ule_iff_toNat_le]; rfl
  · rw [valOf_signed x h, valOf_signed y h, ← BitVec.sle_iff_toInt_le]; rfl

theorem ofInt_exactAdd : BitVec.ofInt (intWidth fmt) (exactAdd fmt x y z) =
    BitVec.ofNat (intWidth fmt) x + BitVec.ofNat (intWidth fmt) y := by
  rw [exactAdd, BitVec.ofInt_add, ofInt_valOf, ofInt_valOf]

theorem ofInt_exactSub : BitVec.ofInt (intWidth fmt) (exactSub fmt x y z) =
    BitVec.ofNat (intWidth fmt) x - BitVec.ofNat (intWidth fmt) y := by
  rw [exactSub, Int.sub_eq_add_neg, BitVec.ofInt_add, BitVec.ofInt_neg, ofInt_valOf, ofInt_valOf, BitVec.sub_eq_add_neg]

theorem ofInt_exactMul : BitVec.ofInt (intWidth fmt) (exactMul fmt x y z) =
    BitVec.ofNat (intWidth fmt) x * BitVec.ofNat (intWidth fmt) y := by
  rw [exactMul, BitVec.ofInt_mul, ofInt_valOf, ofInt_valOf]

theorem ofInt_exactMad : BitVec.ofInt (intWidth fmt) (exactMad fmt x y z) =
    BitVec.ofNat (intWidth fmt) x * BitVec.ofNat (intWidth fmt) y + BitVec.ofNat (intWidth fmt) z := by
  rw [exactMad, BitVec.ofInt_add, BitVec.ofInt_mul, ofInt_valOf, ofInt_valOf, ofInt_valOf]

theorem ofInt_exactSad : BitVec.ofInt (intWidth fmt) (exactSad fmt x y z) = BitVec.ofNat (intWidth fmt) z +
    (if (if intSigned fmt then (BitVec.ofNat (intWidth fmt) y).sle (BitVec.ofNat (intWidth fmt) x)
         else (BitVec.ofNat (intWidth fmt) y).ule (BitVec.ofNat (intWidth fmt) x))
     then BitVec.ofNat (intWidth fmt) x - BitVec.ofNat (intWidth fmt) y
     else BitVec.ofNat (intWidth fmt) y - BitVec.ofNat (intWidth fmt) x) := by
  rw [exactSad, BitVec.ofInt_add, ofInt_valOf]
  congr 1
  by_cases h : valOf fmt y ≤ valOf fmt x
  · rw [if_pos ((valOf_le_iff fmt y x).mp h), Int.natAbs_of_nonneg (by omega)]
    exact ofInt_exactSub fmt x y z
  · rw [if_neg (mt (valOf_le_iff fmt y x).mpr h), ← Int.natAbs_neg, Int.neg_sub, Int.natAbs_of_nonneg (by omega)]
    exact ofInt_exactSub fmt y x z

theorem ofInt_exactMin : BitVec.ofInt (intWidth fmt) (exactMin fmt x y z) =
    if (if intSigned fmt then (BitVec.ofNat (intWidth fmt) y).slt (BitVec.ofNat (intWidth fmt) x)
        else (BitVec.ofNat (intWidth fmt) y).ult (BitVec.ofNat (intWidth fmt) x))
    then BitVec.ofNat (intWidth fmt) y else BitVec.ofNat (intWidth fmt) x := by
  simp only [exactMin, ← valOf_lt_iff, apply_ite (BitVec.ofInt _), ofInt_valOf]

theorem ofInt_exactMax : BitVec.ofInt (intWidth fmt) (exactMax fmt x y z) =
    if (if intSigned fmt then (BitVec.ofNat (intWidth fmt) x).slt (BitVec.ofNat (intWidth fmt) y)
        else (BitVec.ofNat (intWidth fmt) x).ult (BitVec.ofNat (intWidth fmt) y))
    then BitVec.ofNat (intWidth fmt) y else BitVec.ofNat (intWidth fmt) x := by
  simp only [exactMax, ← valOf_lt_iff, apply_ite (BitVec.ofInt _), ofInt_valOf]

theorem ofInt_exactAbs : BitVec.ofInt (intWidth fmt) (exactAbs fmt x y z) =
    if intSigned fmt then (BitVec.ofNat (intWidth fmt) x).abs else BitVec.ofNat (intWidth fmt) x := by
  have hx := ofInt_valOf fmt x
  unfold exactAbs
  cases h : intSigned fmt
  · rw [Int.natAbs_of_nonneg (by rw [valOf_unsigned x h]; exact Int.natCast_nonneg _), hx]; rfl
  · rw [if_pos rfl, BitVec.abs_eq, BitVec.msb_eq_toInt, ← valOf_signed x h]
    by_cases hneg : valOf fmt x < 0
    · rw [if_pos (decide_eq_true hneg), ← Int.natAbs_neg, Int.natAbs_of_nonneg (by omega), BitVec.ofInt_neg, hx]
    · rw [if_neg (by simpa using hneg), Int.natAbs_of_nonneg (by omega), hx]

theorem ofInt_exactMulh : BitVec.ofInt (intWidth fmt) (exactMulh fmt x y z) = if intSigned fmt then
    ((BitVec.ofNat (intWidth fmt) x).signExtend (2 * intWidth fmt) *
      (BitVec.ofNat (intWidth fmt) y).signExtend (2 * intWidth fmt)).extractLsb' (intWidth fmt) (intWidth fmt)
    else ((BitVec.ofNat (intWidth fmt) x).zeroExtend (2 * intWidth fmt) *
      (BitVec.ofNat (intWidth fmt) y).zeroExtend (2 * intWidth fmt)).extractLsb' (intWidth fmt) (intWidth fmt) := by
  have hx := widen_eq_ofInt fmt x (2 * intWidth fmt)
  have hy := widen_eq_ofInt fmt y (2 * intWidth fmt)
  rw [exactMulh, ← extractLsb'_ofInt, BitVec.ofInt_mul, ← hx, ← hy]
  cases intSigned fmt <;> rfl

/-! ## Functions of patterns (R87) -/

theorem ofInt_patAnd : BitVec.ofInt (intWidth fmt) (patAnd fmt x y z) =
    BitVec.ofNat (intWidth fmt) x &&& BitVec.ofNat (intWidth fmt) y := by
  rw [patAnd, BitVec.ofInt_natCast, BitVec.ofNat_and]

theorem ofInt_patOr : BitVec.ofInt (intWidth fmt) (patOr fmt x y z) =
    BitVec.ofNat (intWidth fmt) x ||| BitVec.ofNat (intWidth fmt) y := by
  rw [patOr, BitVec.ofInt_natCast, BitVec.ofNat_or]

theorem ofInt_patXor : BitVec.ofInt (intWidth fmt) (patXor fmt x y z) =
    BitVec.ofNat (intWidth fmt) x ^^^ BitVec.ofNat (intWidth fmt) y := by
  rw [patXor, BitVec.ofInt_natCast, BitVec.ofNat_xor]

theorem ofInt_patAndn : BitVec.ofInt (intWidth fmt) (patAndn fmt x y z) =
    BitVec.ofNat (intWidth fmt) x &&& ~~~BitVec.ofNat (intWidth fmt) y := by
  rw [patAndn, BitVec.ofInt_natCast, BitVec.ofNat_and]
  congr 1
  apply BitVec.eq_of_toNat_eq
  rw [BitVec.toNat_not, BitVec.toNat_ofNat, BitVec.toNat_ofNat, ones, Nat.mod_eq_of_lt]
  have := Nat.two_pow_pos (intWidth fmt)
  omega

/-- A count is its own pattern: it is at most the width. -/
theorem wrapFn_natCast {f : Nat → Nat → Nat → Nat → Int} {n : Nat} (hf : f fmt x y z = n) (hn : n ≤ intWidth fmt) :
    (wrapFn f fmt x y z sat).1 = n := by
  change wrapPat fmt (f fmt x y z) = n
  rw [hf]
  exact pattern_natCast (Nat.lt_of_le_of_lt hn Nat.lt_two_pow_self)

theorem getLsbD_patBrev {i : Nat} (hx : x < 2 ^ intWidth fmt) (hi : i < intWidth fmt) :
    (BitVec.ofInt (intWidth fmt) (patBrev fmt x y z)).getLsbD i =
      (BitVec.ofNat (intWidth fmt) x).getLsbD (intWidth fmt - 1 - i) := by
  rw [patBrev, BitVec.ofInt_natCast, getLsbD_maskWhere _ hi, ← bit_toNat, BitVec.toNat_ofNat, Nat.mod_eq_of_lt hx]

theorem wrapFn_patPopc (hx : x < 2 ^ intWidth fmt) : (wrapFn patPopc fmt x y z sat).1 =
    ((List.range (intWidth fmt)).filter (fun i => (BitVec.ofNat (intWidth fmt) x).getLsbD i)).length := by
  rw [wrapFn_natCast fmt x y z sat (n := popcount (intWidth fmt) x) rfl (popcount_le _ _), popcount]
  simp only [← bit_toNat, BitVec.toNat_ofNat, Nat.mod_eq_of_lt hx]

theorem wrapFn_patClz {n : Nat} (hx : x < 2 ^ intWidth fmt) (hn : (wrapFn patClz fmt x y z sat).1 = n) :
    n ≤ intWidth fmt ∧
    (∀ i, intWidth fmt - n ≤ i → i < intWidth fmt → (BitVec.ofNat (intWidth fmt) x).getLsbD i = false) ∧
    (n < intWidth fmt → (BitVec.ofNat (intWidth fmt) x).getLsbD (intWidth fmt - 1 - n) = true) := by
  obtain ⟨hle, hzero, hone⟩ := leadingZeros_spec hx
  rw [wrapFn_natCast fmt x y z sat (n := leadingZeros (intWidth fmt) x) rfl hle] at hn
  subst hn
  simp only [← bit_toNat, BitVec.toNat_ofNat, Nat.mod_eq_of_lt hx, bit_eq_testBit]
  exact ⟨hle, fun i hi _ => hzero i hi, hone⟩

variable {y}

theorem shiftOf_eq (hy : y < 2 ^ intWidth fmt) : shiftOf fmt y = y % intWidth fmt := by
  rw [shiftOf, Nat.mod_eq_of_lt hy]

theorem ofInt_exactShl (hy : y < 2 ^ intWidth fmt) : BitVec.ofInt (intWidth fmt) (exactShl fmt x y z) =
    BitVec.ofNat (intWidth fmt) x <<< (y % intWidth fmt) := by
  rw [exactShl, BitVec.ofInt_mul, ofInt_valOf, BitVec.ofInt_natCast, shiftOf_eq fmt hy, BitVec.shiftLeft_eq_mul_twoPow]
  congr 1
  apply BitVec.eq_of_toNat_eq
  rw [BitVec.toNat_ofNat, BitVec.toNat_twoPow]

theorem ofInt_patShr (hy : y < 2 ^ intWidth fmt) : BitVec.ofInt (intWidth fmt) (patShr fmt x y z) =
    BitVec.ofNat (intWidth fmt) x >>> (y % intWidth fmt) := by
  rw [patShr, BitVec.ofInt_natCast, shiftOf_eq fmt hy]
  apply BitVec.eq_of_toNat_eq
  rw [BitVec.toNat_ofNat, BitVec.toNat_ushiftRight, BitVec.toNat_ofNat, Nat.shiftRight_eq_div_pow,
    Nat.mod_eq_of_lt (Nat.lt_of_le_of_lt (Nat.div_le_self _ _) (Nat.mod_lt _ (Nat.two_pow_pos _)))]

theorem ofInt_patSar (hy : y < 2 ^ intWidth fmt) : BitVec.ofInt (intWidth fmt) (patSar fmt x y z) =
    (BitVec.ofNat (intWidth fmt) x).sshiftRight (y % intWidth fmt) := by
  rw [patSar, sext_eq_toInt (intWidth_pos fmt), shiftOf_eq fmt hy, BitVec.sshiftRight, Int.shiftRight_eq_div_pow]

theorem ofInt_patRot (hy : y < 2 ^ intWidth fmt) : BitVec.ofInt (intWidth fmt) (patRot fmt x y z) =
    (BitVec.ofNat (intWidth fmt) x).rotateLeft (y % intWidth fmt) := by
  have hs : y % intWidth fmt < intWidth fmt := Nat.mod_lt _ (intWidth_pos fmt)
  simp only [patRot, shiftOf_eq fmt hy]
  generalize y % intWidth fmt = s at hs
  generalize intWidth fmt = w at hs
  apply BitVec.eq_of_toNat_eq
  rw [BitVec.ofInt_natCast, BitVec.toNat_ofNat, BitVec.toNat_rotateLeft, BitVec.toNat_ofNat, Nat.mod_eq_of_lt hs,
    rotate_add_eq_or hs (Nat.mod_lt x (Nat.two_pow_pos w)), Nat.shiftLeft_eq, Nat.shiftRight_eq_div_pow, Nat.mod_eq_of_lt]
  exact Nat.or_lt_two_pow (Nat.mod_lt _ (Nat.two_pow_pos w))
    (Nat.lt_of_le_of_lt (Nat.div_le_self _ _) (Nat.mod_lt _ (Nat.two_pow_pos w)))

end

/-- Settles O4: each function's exact value modulo `2 ^ w` is the operation of `BitVec` that it is compared with. -/
theorem integerFunctions : Obligations.IntegerFunctions := by
  refine ⟨fun fmt x y z _ => ?_, fun fmt x y z _ hx hy => ?_⟩
  · intro w X Y Z sg out
    have hsat : ∀ f, out (satFn f) = BitVec.ofInt w (f fmt x y z) := bits_satFn fmt x y z
    have hwrap : ∀ f, out (wrapFn f) = BitVec.ofInt w (f fmt x y z) := bits_wrapFn fmt x y z false
    exact ⟨(hsat _).trans (ofInt_exactAdd fmt x y z), (hsat _).trans (ofInt_exactSub fmt x y z),
      (hsat _).trans (ofInt_exactMul fmt x y z), (hsat _).trans (ofInt_exactMad fmt x y z),
      (hsat _).trans (ofInt_exactSad fmt x y z), (hwrap _).trans (ofInt_exactMin fmt x y z),
      (hwrap _).trans (ofInt_exactMax fmt x y z), (hsat _).trans (ofInt_exactAbs fmt x y z),
      (hwrap _).trans (ofInt_exactMulh fmt x y z)⟩
  · intro w X Y s out
    have hsat : ∀ f, out (satFn f) = BitVec.ofInt w (f fmt x y z) := bits_satFn fmt x y z
    have hwrap : ∀ f, out (wrapFn f) = BitVec.ofInt w (f fmt x y z) := bits_wrapFn fmt x y z false
    refine ⟨(hwrap _).trans (ofInt_patAnd fmt x y z), (hwrap _).trans (ofInt_patOr fmt x y z),
      (hwrap _).trans (ofInt_patXor fmt x y z), (hwrap _).trans (ofInt_patAndn fmt x y z),
      (hsat _).trans (ofInt_exactShl fmt x z hy), (hwrap _).trans (ofInt_patShr fmt x z hy),
      (hwrap _).trans (ofInt_patSar fmt x z hy), (hwrap _).trans (ofInt_patRot fmt x z hy), fun i hi => ?_,
      wrapFn_patPopc fmt x y z false hx, fun n hn => wrapFn_patClz fmt x y z false hx hn⟩
    rw [hwrap]
    exact getLsbD_patBrev fmt x y z hx hi

/-! ## Arithmetic faults of element-wise instructions (R89, R105) -/

/-- No lane below `m`, of a thread that is no helper, has flags that pass a test. -/
def NoLaneBelow (a : Warp) (F : Nat → Flags) (p : Flags → Bool) (m : Nat) : Prop :=
  ∀ k, k < m → a.isHelper k = false → p (F k) = false

/-- Lane `l` is the lowest, of a thread that is no helper, whose flags pass a test. -/
def FirstLane (a : Warp) (F : Nat → Flags) (p : Flags → Bool) (l : Nat) : Prop :=
  a.isHelper l = false ∧ p (F l) = true ∧ NoLaneBelow a F p l

/-- Flags raise cause `c` at lane `l`: the first of the four causes that any lane has, at its lowest lane (R105). -/
def RaisesFault (a : Warp) (F : Nat → Flags) (c l : Nat) : Prop :=
  (c = 0x040 ∧ FirstLane a F (·.idz) l) ∨ (c = 0x041 ∧ NoLaneBelow a F (·.idz) 32 ∧ FirstLane a F (·.invalid) l) ∨
    (c = 0x042 ∧ NoLaneBelow a F (·.idz) 32 ∧ NoLaneBelow a F (·.invalid) 32 ∧ FirstLane a F (·.dz) l) ∨
    (c = 0x043 ∧ NoLaneBelow a F (·.idz) 32 ∧ NoLaneBelow a F (·.invalid) 32 ∧ NoLaneBelow a F (·.dz) 32 ∧
      FirstLane a F (·.overflow) l)

section
variable {a : Warp} {x : Alu} {wd : Nat} {at_ : Nat → Nat} {n : Nat} {f : ElemFn} {p : Flags → Bool}

theorem faultyLane_vecRun : faultyLane a (vecRun a x wd at_ n f) p =
    (List.range 32).find? (fun l => !a.isHelper l && p (elemsDone a x at_ f l n).1) := by
  refine List.find?_congr (fun l hl => ?_)
  rw [vecRun_get _ _ _ _ _ _ _ (List.mem_range.mp hl), laneRun_eq, laneAcc_done]
  rfl

theorem faultyLane_eq_none (h : NoLaneBelow a (fun k => (elemsDone a x at_ f k n).1) p 32) :
    faultyLane a (vecRun a x wd at_ n f) p = none := by
  rw [faultyLane_vecRun, List.find?_range_eq_none]
  intro k hk
  cases hh : a.isHelper k
  · simp [h k hk hh]
  · rfl

theorem faultyLane_eq_some {l : Nat} (hl : l < 32) (h : FirstLane a (fun k => (elemsDone a x at_ f k n).1) p l) :
    faultyLane a (vecRun a x wd at_ n f) p = some l := by
  obtain ⟨hhelp, hp, hbelow⟩ := h
  rw [faultyLane_vecRun, List.find?_range_eq_some]
  refine ⟨by simp [hhelp, hp], List.mem_range.mpr hl, fun k hk => ?_⟩
  cases hh : a.isHelper k
  · simp [hbelow k hk hh]
  · rfl

theorem vecFault_eq_some {c l : Nat} (hl : l < 32) (h : RaisesFault a (fun k => (elemsDone a x at_ f k n).1) c l) :
    vecFault a (vecRun a x wd at_ n f) = some (c, l) := by
  unfold vecFault
  obtain ⟨rfl, h⟩ | ⟨rfl, hi, h⟩ | ⟨rfl, hi, hv, h⟩ | ⟨rfl, hi, hv, hz, h⟩ := h
  · rw [faultyLane_eq_some hl h]
  · rw [faultyLane_eq_none hi, faultyLane_eq_some hl h]
  · rw [faultyLane_eq_none hi, faultyLane_eq_none hv, faultyLane_eq_some hl h]
  · rw [faultyLane_eq_none hi, faultyLane_eq_none hv, faultyLane_eq_none hz, faultyLane_eq_some hl h]

end

/-- The end of an element-wise instruction that faults under halt. -/
theorem finishVec_trap {s : State} {w : Nat} {outs : List LaneOut} {c l : Nat} (x : Alu) (elig : Bool)
    (hd : s.defers w = false) (hf : vecFault (s.warp w) outs = some (c, l)) : finishVec x elig outs w s =
      .trap { cause := c, lane := l } (s.setWarp w ((s.warp w).takeFlags outs false)) := by
  unfold finishVec
  simp only [hd, hf, Bool.false_eq_true, if_false]

/-- A lane as a run that faults leaves it: flagged, its generator where it was. -/
theorem lane_takeFlags_vecRun (a : Warp) (x : Alu) (wd : Nat) (at_ : Nat → Nat) (n : Nat) (f : ElemFn) {k : Nat}
    (hk : k < 32) :
    (a.takeFlags (vecRun a x wd at_ n f) false).lane k = { a.lane k with
      fflags := raiseFlags (a.lane k).fflags (elemsDone a x at_ f k n).1
      reported := ((a.takeFlags (vecRun a x wd at_ n f) false).lane k).reported } := by
  rw [lane_takeFlags _ _ _ (vecRun_length _ _ _ _ _ _), if_pos hk, List.getD_eq_getElem?_getD,
    vecRun_get _ _ _ _ _ _ _ hk, Option.getD_some, laneRun_eq, laneAcc_done]
  rfl

/-- An element-wise instruction under halt faults as its elements' flags say. -/
theorem vecOp_faults {i : Instr} {x : Alu} {elig : Bool} {wd : Nat} {f : Warp → ElemFn}
    (h : ∀ s, exec i s = onWarp i (vecOp x elig wd f) s) : Claims.VecFaults i x (64 / wd) f := by
  intro w s c l hi hd hl a F none_ first hcause
  have hf : vecFault a (vecRun a x wd id (64 / wd) (f a)) = some (c, l) := vecFault_eq_some hl hcause
  have htrap := finishVec_trap (s := s.issued i w) (w := w) x elig ((defers_issued s i w).trans hd) hf
  exact ⟨_, (h s).trans (onWarp_trap hi htrap), takeFlags_eq _ _ _ (vecRun_length _ _ _ _ _ _),
    fun k hk => lane_takeFlags_vecRun a x wd id (64 / wd) (f a) hk⟩

/-- The instructions of one rounding of R108 and R112, each with its exact operation and how many operands it reads. -/
def roundedOps : List ((Alu → Instr) × FloatOp × Nat) :=
  [(.fadd, opAdd, 2), (.fsub, opSub, 2), (.fmul, opMul, 2), (.ffma, opFma, 3), (.fdiv, opDiv, 2),
   (.fsqrt, opUn sqrtVal, 1), (.frcp, opUn rcpVal, 1), (.frsq, opUn rsqVal, 1), (.fexp2, opUn exp2Val, 1),
   (.flog2, opUn log2Val, 1), (.fsin, opUn sinVal, 1), (.fcos, opUn cosVal, 1), (.ftanh, opUn tanhVal, 1)]

/-- Class 0x2 is latch-eligible and class 0x3 is not, but the elements of either run alike. -/
theorem exec_roundedOp {e : (Alu → Instr) × FloatOp × Nat} (he : e ∈ roundedOps) (x : Alu) :
    ∃ elig, ∀ s, exec (e.1 x) s = onWarp (e.1 x) (floatVec x elig e.2.1 e.2.2) s := by
  unfold roundedOps at he
  fin_cases he
  · exact ⟨true, exec_fadd x⟩
  · exact ⟨true, exec_fsub x⟩
  · exact ⟨true, exec_fmul x⟩
  · exact ⟨true, exec_ffma x⟩
  · exact ⟨false, exec_fdiv x⟩
  all_goals exact ⟨false, fun _ => rfl⟩

theorem exec_divVec (x : Alu) (s : State) :
    exec (.div true x) s = onWarp (.div true x) (intVec x false false divFn) s := rfl
theorem exec_remVec (x : Alu) (s : State) :
    exec (.rem true x) s = onWarp (.rem true x) (intVec x false false remFn) s := rfl
theorem exec_fmin (x : Alu) (s : State) :
    exec (.fmin x) s = onWarp (.fmin x) (patVec x (fun f p q => minMaxPat f false p q)) s := rfl
theorem exec_fmax (x : Alu) (s : State) :
    exec (.fmax x) s = onWarp (.fmax x) (patVec x (fun f p q => minMaxPat f true p q)) s := rfl

/-- Settles O9: each instruction is one element function under `vecOp`. -/
theorem arithmeticFaults : Obligations.ArithmeticFaults :=
  ⟨fun x => vecOp_faults (exec_divVec x), fun x => vecOp_faults (exec_remVec x),
   fun _ he x => (exec_roundedOp he x).elim fun _ h => vecOp_faults h,
   fun x => vecOp_faults (exec_fmin x), fun x => vecOp_faults (exec_fmax x), fun x => vecOp_faults (exec_frnd x),
   fun x => vecOp_faults (exec_fscale x), fun x => vecOp_faults (exec_fdot4 x)⟩

/-! ## Scalar division (R82, R89, R283) -/

/-- A warp with int-div-zero set in the threads of a mask (R89, R103). -/
def Warp.flagIdz (a : Warp) (mask : Nat) : Warp := a.mapLanes mask (fun _ la => { la with fflags := la.fflags ||| 32#32 })

/-- A matrix control core's issue whose effect is a fault: it halts at the instruction that it issued. -/
theorem onMcc_trap {body : Nat → State → Res} {k : Nat} {s t : State} {f : Trap} (h : IssuesMcc k s)
    (hb : body k (s.begunMcc k) = .trap f t) : onMcc body s = .next (t.faultMcc k f.cause (s.mcc k).cur) := by
  unfold State.begunMcc Mcc.begun at hb
  unfold onMcc
  rw [h]
  simp only [runMcc, hb]

/-- A core that has halted (R287). -/
theorem mcc_faultMcc (s : State) (k cause pc : Nat) : (s.faultMcc k cause pc).mcc k =
    { s.mcc k with halted := true, cause := cause, pc := pc, inWait := none } := State.mcc_setMcc_same _ _ _

theorem Mcc.wrS_eq (m : Mcc) (n : Nat) (v : Word) : m.wrS n v = { m with s := (m.wrS n v).s } := by
  unfold Mcc.wrS
  split <;> rfl

section
variable {i : Instr} {x : Alu} {elig full : Bool} {f : IntFn} {w k : Nat} {s : State}

theorem intScalar_active (ha : (s.warp w).active x.g ≠ 0) : intScalar x elig full f w s =
    finishScalarOp x elig (scalarCompute (s.warp w).opndS x full f) w s := if_pos (bne_iff_ne.mpr ha)

theorem finishScalarOp_calm {r : Word × Flags} (hz : r.2.idz = false) :
    finishScalarOp x elig r w s = .ok (s.setWarp w ((s.warp w).finishScalar x elig r.1)) := by
  simp only [finishScalarOp, hz, Bool.false_eq_true, if_false]

theorem finishScalarOp_defer {r : Word × Flags} (hz : r.2.idz = true) (hd : s.defers w = true) :
    finishScalarOp x elig r w s =
      .ok (s.setWarp w (((s.warp w).flagIdz ((s.warp w).active x.g)).finishScalar x elig r.1)) := by
  simp only [finishScalarOp, hz, hd, if_true]
  rfl

theorem finishScalarOp_halt {r : Word × Flags} (hz : r.2.idz = true) (hd : s.defers w = false) :
    finishScalarOp x elig r w s =
      .trap { cause := 0x040 } (s.setWarp w ((s.warp w).flagIdz ((s.warp w).active x.g))) := by
  simp only [finishScalarOp, hz, hd, Bool.false_eq_true, if_true, if_false]
  rfl

theorem intMcc_calm (hz : (scalarCompute (s.mcc k).opnd x full f).2.idz = false) : intMcc x full f k s =
    .ok (s.setMcc k ((s.mcc k).wrS x.d (scalarCompute (s.mcc k).opnd x full f).1)) := by
  simp only [intMcc, hz, Bool.false_eq_true, if_false]

theorem intMcc_trap (hz : (scalarCompute (s.mcc k).opnd x full f).2.idz = true) :
    intMcc x full f k s = .trap { cause := 0x040 } s := if_pos hz

variable (he : ∀ s, exec i s = onEither i (intScalar x elig full f) (intMcc x full f) s)
include he

/-- A scalar instruction that divides by nothing zero, in a warp. -/
theorem scalarWarp_calm (hi : Issues w i s) (ha : (s.atIssue i w).active x.g ≠ 0)
    (hz : (scalarCompute (s.atIssue i w).opndS x full f).2.idz = false) :
    ∃ t, exec i s = .next t ∧ OnlyWarp w s t ∧
      ScalarDone x.d x.nowb elig (scalarCompute (s.atIssue i w).opndS x full f).1 (s.atIssue i w) (t.warp w) := by
  refine ⟨_, ((he s).trans (onEither_warp hi.1)).trans (onWarp_ok hi ((intScalar_active ha).trans
    (finishScalarOp_calm hz))), onlyWarp_issued s i w _, ?_⟩
  rw [State.warp_setWarp_same]
  exact finishScalar_done x elig _ _

/-- One that divides by zero under defer: the flag in every Active thread, and the result. -/
theorem scalarWarp_defer (hi : Issues w i s) (ha : (s.atIssue i w).active x.g ≠ 0)
    (hz : (scalarCompute (s.atIssue i w).opndS x full f).2.idz = true) (hd : s.defers w = true) :
    ∃ t, exec i s = .next t ∧ OnlyWarp w s t ∧ ScalarDone x.d x.nowb elig
      (scalarCompute (s.atIssue i w).opndS x full f).1 ((s.atIssue i w).flagIdz ((s.atIssue i w).active x.g)) (t.warp w) := by
  refine ⟨_, ((he s).trans (onEither_warp hi.1)).trans (onWarp_ok hi ((intScalar_active ha).trans
    (finishScalarOp_defer hz ((defers_issued s i w).trans hd)))), onlyWarp_issued s i w _, ?_⟩
  rw [State.warp_setWarp_same]
  exact finishScalar_done x elig _ _

/-- One that divides by zero under halt: the flag in every Active thread, and the fault. -/
theorem scalarWarp_halt (hi : Issues w i s) (ha : (s.atIssue i w).active x.g ≠ 0)
    (hz : (scalarCompute (s.atIssue i w).opndS x full f).2.idz = true) (hd : s.defers w = false) :
    exec i s = .next (((s.issued i w).setWarp w ((s.atIssue i w).flagIdz ((s.atIssue i w).active x.g))).faultWarp w
      { cause := 0x040 }) :=
  ((he s).trans (onEither_warp hi.1)).trans (onWarp_trap hi ((intScalar_active ha).trans
    (finishScalarOp_halt hz ((defers_issued s i w).trans hd))))

/-- One that divides by nothing zero, in a matrix control core. -/
theorem scalarMcc_calm (h : IssuesMcc k s) (hz : (scalarCompute (s.mcc k).opnd x full f).2.idz = false) :
    ∃ t, exec i s = .next t ∧ OnlyMcc k s t ∧
      t.mcc k = { s.mcc k with s := (t.mcc k).s, pc := (s.mcc k).npc, xfer := none } ∧
      ∀ n, (t.mcc k).rdS n =
        if n = x.d ∧ n ≠ 0 then (scalarCompute (s.mcc k).opnd x full f).1 else (s.mcc k).rdS n := by
  have hb := intMcc_calm (x := x) (full := full) (f := f) (k := k) (s := s.begunMcc k) (by rw [mcc_begunMcc]; exact hz)
  rw [mcc_begunMcc] at hb
  obtain ⟨t, ht, ho, hm⟩ := onEither_doneMcc h hb (onlyMcc_setMcc _ _ _)
  rw [State.mcc_setMcc_same] at hm
  refine ⟨t, (he s).trans ht, ho, ?_, fun n => ?_⟩
  · rw [hm, Mcc.wrS_eq]
    rfl
  · rw [hm, Mcc.rdS_wrS]
    by_cases hn : n = x.d
    · subst hn; rfl
    · rw [if_neg (fun e => hn e.1), if_neg (fun e => hn e.1)]; rfl

/-- One that divides by zero halts the core where the instruction stands (R287). -/
theorem scalarMcc_halt (h : IssuesMcc k s) (hz : (scalarCompute (s.mcc k).opnd x full f).2.idz = true) :
    ∃ t, exec i s = .next t ∧ t.mcc k = { s.mcc k with
      pc := (s.mcc k).cur, xfer := none, halted := true, cause := 0x040, inWait := none } := by
  have hb := intMcc_trap (x := x) (full := full) (f := f) (k := k) (s := s.begunMcc k) (by rw [mcc_begunMcc]; exact hz)
  refine ⟨_, ((he s).trans (onEither_mcc h)).trans (onMcc_trap h hb), ?_⟩
  rw [mcc_faultMcc, mcc_begunMcc]
  rfl

end

/-- What a scalar DIV or REM writes (R89), where it writes. -/
def divRemValue (rem : Bool) (x : Alu) (rd : Opnd → Word) : Word :=
  let p := valOf x.fmt (rd x.a).toNat
  let q := valOf x.fmt (scalarB rd x.b)
  if rem then (if q = 0 then extendTo64 x.fmt (rd x.a).toNat else extendTo64 x.fmt (wrapPat x.fmt (Int.tmod p q)))
  else if q = 0 then extendTo64 x.fmt (2 ^ intWidth x.fmt - 1) else extendTo64 x.fmt (wrapPat x.fmt (Int.tdiv p q))

theorem valOf_mod (fmt n : Nat) : valOf fmt (n % 2 ^ intWidth fmt) = valOf fmt n := by
  unfold valOf sext
  rw [Nat.mod_mod]

theorem scalarCompute_divRem (rem : Bool) (x : Alu) (rd : Opnd → Word) :
    scalarCompute rd x false (if rem then remFn else divFn) =
      (divRemValue rem x rd, { idz := decide (valOf x.fmt (scalarB rd x.b) = 0) }) := by
  have ha := valOf_mod x.fmt (rd x.a).toNat
  have hb := valOf_mod x.fmt (scalarB rd x.b)
  unfold scalarCompute divRemValue
  by_cases hz : valOf x.fmt (scalarB rd x.b) = 0 <;> cases rem
  · simp [divFn, hb, hz, ones]
  · simp [remFn, hb, hz, extendTo64, ha]
  · simp [divFn, hb, hz, ha, limitInt]
  · simp [remFn, hb, hz, ha, limitInt]

theorem exec_divRem (rem : Bool) (x : Alu) (s : State) :
    exec (if rem then .rem false x else .div false x) s = onEither (if rem then .rem false x else .div false x)
      (intScalar x false false (if rem then remFn else divFn)) (intMcc x false (if rem then remFn else divFn)) s := by
  cases rem <;> rfl

/-- Settles O3: DIV and REM raise int-div-zero exactly where the divisor is zero (`scalarCompute_divRem`), and that flag
decides which of the five ends of a scalar instruction there is. -/
theorem scalarDivision : Obligations.ScalarDivision := by
  intro rem x i val
  have he : ∀ s, exec i s = _ := exec_divRem rem x
  have hcalm : ∀ rd, valOf x.fmt (scalarB rd x.b) ≠ 0 →
      (scalarCompute rd x false (if rem then remFn else divFn)).2.idz = false := fun rd hq => by
    rw [scalarCompute_divRem]; exact decide_eq_false hq
  have hzero : ∀ rd, valOf x.fmt (scalarB rd x.b) = 0 →
      (scalarCompute rd x false (if rem then remFn else divFn)).2.idz = true := fun rd hq => by
    rw [scalarCompute_divRem]; exact decide_eq_true hq
  have hval : ∀ rd, (scalarCompute rd x false (if rem then remFn else divFn)).1 = val rd (scalarB rd) := fun rd =>
    congrArg Prod.fst (scalarCompute_divRem rem x rd)
  simp only [← hval]
  refine ⟨fun w s hi ha => ⟨fun hq => scalarWarp_calm he hi ha (hcalm _ hq), fun hq => ⟨?_, ?_⟩⟩,
    fun k s h => ⟨fun hq => scalarMcc_calm he h (hcalm _ hq), fun hq => scalarMcc_halt he h (hzero _ hq)⟩⟩
  · exact scalarWarp_defer he hi ha (hzero _ hq)
  · exact scalarWarp_halt he hi ha (hzero _ hq)

end Machine
end Sys2Proof
end

section
/-!
PROOFS of the statements of the family `05_float.md`: rounding (R98, R101), conversions and block formats (R114–R119),
SCAN and REDUCE (R187, R188), and the system registers (R102, R103, R419, R421, R435, R436). A rounding is settled by
the rational numbers that the patterns of a format stand for. An instruction over elements is settled by what its run
leaves in each lane, and SYS_TLBINV by following the translations through an operation that performs at once.
-/
namespace Sys2Proof

/-! ## Bytes of a register -/

theorem ofBytes_lt (bs : List Byte) : ofBytes bs < 2 ^ (8 * bs.length) := by
  induction bs with
  | nil => simp [ofBytes]
  | cons b bs ih =>
    have hb : b.toNat < 256 := b.isLt
    rw [List.length_cons, Nat.mul_succ, Nat.pow_add, ofBytes]
    omega

/-- A byte of the number that bytes make. -/
theorem bits_ofBytes (bs : List Byte) (k : Nat) : bits (ofBytes bs) (8 * k) 8 = (bs.getD k 0).toNat := by
  unfold bits
  induction bs generalizing k with
  | nil => simp [ofBytes]
  | cons b bs ih =>
    have hb : b.toNat < 256 := b.isLt
    cases k with
    | zero => simp only [ofBytes, List.getD_cons_zero]; omega
    | succ k =>
      rw [List.getD_cons_succ, ← ih k, ofBytes, Nat.mul_succ, Nat.add_comm (8 * k), Nat.pow_add,
        ← Nat.div_div_eq_div_mul, show (b.toNat + 256 * ofBytes bs) / 2 ^ 8 = ofBytes bs by omega]

/-- Pairs of a sequence, joined. -/
theorem flatten_pairs {α : Type} (f : Nat → α) (n : Nat) :
    ((List.range n).map (fun l => [f (2 * l), f (2 * l + 1)])).flatten = (List.range (2 * n)).map f := by
  induction n with
  | zero => rfl
  | succ n ih =>
    rw [List.range_succ, List.map_append, List.flatten_append, ih, Nat.mul_succ, List.range_succ, List.range_succ]
    simp

/-- An element of joined pairs. -/
theorem pairs_getD {β : Type} (f : Nat → Nat) (g : Nat → β) {n i : Nat} (hi : i < 2 * n) :
    ((((List.range n).map (fun l => ([f (2 * l), f (2 * l + 1)], g l))).map (·.1)).flatten).getD i 0 = f i := by
  rw [List.map_map]
  refine (congrArg (fun l : List Nat => l.getD i 0) (flatten_pairs f n)).trans ?_
  simp [hi]

namespace Machine

/-! ## Rounding (R98, R101) -/

theorem two_zpow_of_nonneg {q : Int} (h : 0 ≤ q) : (2 : ℚ) ^ q = ((2 ^ q.toNat : Nat) : ℚ) := by
  conv_lhs => rw [← Int.toNat_of_nonneg h]
  rw [zpow_natCast]
  push_cast
  rfl

theorem two_zpow_of_neg {q : Int} (h : q < 0) : (2 : ℚ) ^ q = 1 / ((2 ^ (-q).toNat : Nat) : ℚ) := by
  have hq : q = -((-q).toNat : Int) := by omega
  conv_lhs => rw [hq]
  rw [zpow_neg, zpow_natCast]
  push_cast
  rw [one_div]

section
variable {num den : Nat} (hn : 0 < num) (hd : 0 < den)
include hn hd

theorem floorLog2_spec : (2 : ℚ) ^ floorLog2 num den ≤ num / den ∧ (num / den : ℚ) < 2 ^ (floorLog2 num den + 1) := by
  have hd' : (0 : ℚ) < den := by exact_mod_cast hd
  have hnlo : (2 : ℚ) ^ (num.log2 : Int) ≤ num := by
    rw [zpow_natCast]; exact_mod_cast Nat.log2_self_le hn.ne'
  have hnhi : (num : ℚ) < 2 ^ ((num.log2 : Int) + 1) := by
    rw [← Nat.cast_succ, zpow_natCast]; exact_mod_cast Nat.lt_log2_self
  have hdlo : (2 : ℚ) ^ (den.log2 : Int) ≤ den := by
    rw [zpow_natCast]; exact_mod_cast Nat.log2_self_le hd.ne'
  have hdhi : (den : ℚ) < 2 ^ ((den.log2 : Int) + 1) := by
    rw [← Nat.cast_succ, zpow_natCast]; exact_mod_cast Nat.lt_log2_self
  have htwo : (2 : ℚ) ≠ 0 := two_ne_zero
  -- the quotient lies between 2 ^ (l - 1) and 2 ^ (l + 1), and `ge` says on which side of 2 ^ l
  have hhi : (num / den : ℚ) < 2 ^ ((num.log2 : Int) - den.log2 + 1) := by
    rw [div_lt_iff₀ hd']
    calc (num : ℚ) < 2 ^ ((num.log2 : Int) + 1) := hnhi
      _ = 2 ^ ((num.log2 : Int) - den.log2 + 1) * 2 ^ (den.log2 : Int) := by rw [← zpow_add₀ htwo]; congr 1; ring
      _ ≤ 2 ^ ((num.log2 : Int) - den.log2 + 1) * den := by gcongr
  have hlo : (2 : ℚ) ^ ((num.log2 : Int) - den.log2 - 1) ≤ num / den := by
    rw [le_div_iff₀ hd']
    calc (2 : ℚ) ^ ((num.log2 : Int) - den.log2 - 1) * den
        ≤ 2 ^ ((num.log2 : Int) - den.log2 - 1) * 2 ^ ((den.log2 : Int) + 1) := by gcongr
      _ = 2 ^ (num.log2 : Int) := by rw [← zpow_add₀ htwo]; congr 1; ring
      _ ≤ num := hnlo
  have hge : (if 0 ≤ (num.log2 : Int) - den.log2 then den * 2 ^ ((num.log2 : Int) - den.log2).toNat ≤ num
      else den ≤ num * 2 ^ (-((num.log2 : Int) - den.log2)).toNat) ↔
      (2 : ℚ) ^ ((num.log2 : Int) - den.log2) ≤ num / den := by
    generalize (num.log2 : Int) - den.log2 = l
    rw [le_div_iff₀ hd']
    split
    · rw [two_zpow_of_nonneg ‹_›, mul_comm]
      norm_cast
    · have hp : (0 : ℚ) < ((2 ^ (-l).toNat : Nat) : ℚ) := by positivity
      rw [two_zpow_of_neg (by omega), one_div, inv_mul_le_iff₀ hp, mul_comm num]
      norm_cast
  unfold floorLog2
  dsimp only
  by_cases h : (2 : ℚ) ^ ((num.log2 : Int) - den.log2) ≤ num / den
  · rw [if_pos (hge.mpr h)]
    exact ⟨h, hhi⟩
  · rw [if_neg (mt hge.mp h), sub_add_cancel]
    exact ⟨hlo, not_le.mp h⟩

/-- A magnitude in units of 2 ^ q is an exact count, in every mode, or lies strictly between two counts, of which the
mode takes one. -/
theorem roundUnits_cases (q : Int) : ∃ k : Nat,
    ((num / den : ℚ) = k * 2 ^ q ∧ ∀ mode neg draw, roundUnits mode neg num den draw q = (k, true)) ∨
    ((k : ℚ) * 2 ^ q < num / den ∧ (num / den : ℚ) < ((k + 1 : Nat) : ℚ) * 2 ^ q ∧ ∃ r d, ∀ mode neg draw,
      roundUnits mode neg num den draw q = (if roundsUp mode neg k r d draw then k + 1 else k, false)) := by
  obtain ⟨n, d, hd0, hnd, hr⟩ : ∃ n d : Nat, 0 < d ∧ (num / den : ℚ) = n / d * 2 ^ q ∧ ∀ mode neg draw,
      roundUnits mode neg num den draw q =
        if n % d = 0 then (n / d, true)
        else (if roundsUp mode neg (n / d) (n % d) d draw then n / d + 1 else n / d, false) := by
    have hd' : (den : ℚ) ≠ 0 := by exact_mod_cast hd.ne'
    have hp (a : Nat) : ((2 ^ a : Nat) : ℚ) ≠ 0 := by positivity
    by_cases hq : q < 0
    · refine ⟨num * 2 ^ (-q).toNat, den, hd, ?_, fun mode neg draw => by simp only [roundUnits, if_pos hq]⟩
      rw [two_zpow_of_neg hq, Nat.cast_mul]
      have := hp (-q).toNat
      field_simp
    · refine ⟨num, den * 2 ^ q.toNat, by positivity, ?_, fun mode neg draw => by simp only [roundUnits, if_neg hq]⟩
      rw [two_zpow_of_nonneg (by omega), Nat.cast_mul]
      have := hp q.toNat
      field_simp
  have hpos : (0 : ℚ) < 2 ^ q := by positivity
  have hdq : (0 : ℚ) < d := by exact_mod_cast hd0
  have hsum : (n : ℚ) = d * (n / d : Nat) + (n % d : Nat) := by exact_mod_cast (Nat.div_add_mod n d).symm
  refine ⟨n / d, ?_⟩
  by_cases h0 : n % d = 0
  · refine .inl ⟨?_, fun mode neg draw => by rw [hr, if_pos h0]⟩
    rw [hnd, hsum, h0]
    field_simp
    simp
  · have hr0 : (0 : ℚ) < (n % d : Nat) := by exact_mod_cast Nat.pos_of_ne_zero h0
    have hrd : ((n % d : Nat) : ℚ) < d := by exact_mod_cast Nat.mod_lt n hd0
    refine .inr ⟨?_, ?_, n % d, d, fun mode neg draw => by rw [hr, if_neg h0]⟩
    · rw [hnd, mul_lt_mul_iff_left₀ hpos, lt_div_iff₀ hdq]
      linarith
    · rw [hnd, mul_lt_mul_iff_left₀ hpos, div_lt_iff₀ hdq]
      push_cast
      linarith

end

/-! ### The unit of a rounding -/

/-- The exponent of the least subnormal of a format. -/
def FFmt.qMin (f : FFmt) : Int := 1 - (f.bias : Int) - f.m

/-- The exponent of the unit to which R101 rounds a magnitude. -/
def FFmt.quantum (f : FFmt) (num den : Nat) : Int :=
  if floorLog2 num den - f.m < f.qMin then f.qMin else floorLog2 num den - f.m

/-- 2 ^ q is the unit of a magnitude: the magnitude has at most m + 1 bits above it, and fewer only at the least
subnormal. -/
def FFmt.IsQuantum (f : FFmt) (y : ℚ) (q : Int) : Prop :=
  f.qMin ≤ q ∧ y < 2 ^ (q + f.m + 1) ∧ (q = f.qMin ∨ (2 : ℚ) ^ (q + f.m) ≤ y)

theorem FFmt.isQuantum_quantum (f : FFmt) {num den : Nat} (hn : 0 < num) (hd : 0 < den) :
    f.IsQuantum (num / den) (f.quantum num den) := by
  obtain ⟨hlo, hhi⟩ := floorLog2_spec hn hd
  unfold FFmt.quantum
  split
  · next h =>
    refine ⟨le_rfl, hhi.trans_le (zpow_le_zpow_right₀ one_le_two ?_), .inl rfl⟩
    omega
  · next h => exact ⟨by omega, by rwa [sub_add_cancel], .inr (by rwa [sub_add_cancel])⟩

theorem FFmt.IsQuantum.unique {f : FFmt} {y : ℚ} {a b : Int} (ha : f.IsQuantum y a) (hb : f.IsQuantum y b) : a = b := by
  have key {a b : Int} (ha : f.IsQuantum y a) (hb : f.IsQuantum y b) : a ≤ b := by
    obtain ⟨-, -, rfl | ha⟩ := ha
    · exact hb.1
    · have := (zpow_lt_zpow_iff_right₀ (one_lt_two (α := ℚ))).mp (ha.trans_lt hb.2.1)
      omega
  exact le_antisymm (key ha hb) (key hb ha)

/-- k units of scale c, in the shape in which patterns count them: a normal has its leading bit, and scale 0 also has
the subnormals. -/
structure FFmt.Canonical (f : FFmt) (c k : Nat) : Prop where
  lt : k < 2 ^ (f.m + 1)
  ge : c = 0 ∨ 2 ^ f.m ≤ k

theorem two_zpow_add_natCast (q : Int) (n : Nat) : (2 : ℚ) ^ (q + n) = 2 ^ n * 2 ^ q := by
  rw [zpow_add₀ two_ne_zero, zpow_natCast, mul_comm]

/-- The unit of a magnitude of at least k and less than k + 1 units of a scale is the scale's, if k is canonical. -/
theorem FFmt.Canonical.isQuantum {f : FFmt} {c k : Nat} (h : f.Canonical c k) {y : ℚ}
    (hlo : (k : ℚ) * 2 ^ (c + f.qMin) ≤ y) (hhi : y < ((k + 1 : Nat) : ℚ) * 2 ^ (c + f.qMin)) :
    f.IsQuantum y (c + f.qMin) := by
  refine ⟨by omega, hhi.trans_le ?_, ?_⟩
  · have hk : ((k + 1 : Nat) : ℚ) ≤ ((2 ^ (f.m + 1) : Nat) : ℚ) := by exact_mod_cast h.lt
    rw [add_assoc (_ + _), ← Nat.cast_succ, two_zpow_add_natCast]
    push_cast at hk ⊢
    gcongr
  · refine h.ge.imp (fun hc => by simp [hc]) fun hm => le_trans ?_ hlo
    have hk : ((2 ^ f.m : Nat) : ℚ) ≤ k := by exact_mod_cast hm
    rw [two_zpow_add_natCast]
    push_cast at hk
    gcongr

theorem FFmt.IsQuantum.canonical {f : FFmt} {y : ℚ} {c k : Nat} (h : f.IsQuantum y (c + f.qMin))
    (hlo : (k : ℚ) * 2 ^ (c + f.qMin) ≤ y) (hhi : y < ((k + 1 : Nat) : ℚ) * 2 ^ (c + f.qMin)) : f.Canonical c k := by
  obtain ⟨-, hlt, hge⟩ := h
  have hp : (0 : ℚ) < 2 ^ (c + f.qMin) := by positivity
  constructor
  · rw [add_assoc (_ + _), ← Nat.cast_succ, two_zpow_add_natCast] at hlt
    have := lt_of_mul_lt_mul_right (hlo.trans_lt hlt) hp.le
    exact_mod_cast this
  · refine hge.imp (fun hq => by omega) fun hge => ?_
    rw [two_zpow_add_natCast] at hge
    have := lt_of_mul_lt_mul_right (hge.trans_lt hhi) hp.le
    exact Nat.lt_succ_iff.mp (by exact_mod_cast this)

/-- Patterns order canonical counts as their values do. -/
theorem FFmt.Canonical.mul_pow_lt {f : FFmt} {c k c' k' : Nat} (h : f.Canonical c k) (h' : f.Canonical c' k')
    (hlt : c * 2 ^ f.m + k < c' * 2 ^ f.m + k') : k * 2 ^ c < k' * 2 ^ c' := by
  obtain ⟨hk, hc⟩ := h
  obtain ⟨hk', hc'⟩ := h'
  rcases lt_trichotomy c c' with hcc | rfl | hcc
  · have hm : 2 ^ f.m ≤ k' := hc'.resolve_left (by omega)
    calc k * 2 ^ c < 2 ^ (f.m + 1) * 2 ^ c := by gcongr
      _ = 2 ^ f.m * 2 ^ (c + 1) := by ring
      _ ≤ k' * 2 ^ c' := Nat.mul_le_mul hm (Nat.pow_le_pow_right two_pos hcc)
  · gcongr
    omega
  · have hm : 2 ^ f.m ≤ k := hc.resolve_left (by omega)
    have : (c' + 1) * 2 ^ f.m ≤ c * 2 ^ f.m := by gcongr; omega
    rw [pow_succ] at hk'
    linarith

theorem FFmt.Canonical.value_lt {f : FFmt} {c k c' k' : Nat} (h : f.Canonical c k) (h' : f.Canonical c' k')
    (hlt : c * 2 ^ f.m + k < c' * 2 ^ f.m + k') : (k : ℚ) * 2 ^ (c + f.qMin) < k' * 2 ^ (c' + f.qMin) := by
  have hnat : ((k * 2 ^ c : Nat) : ℚ) < ((k' * 2 ^ c' : Nat) : ℚ) := by exact_mod_cast h.mul_pow_lt h' hlt
  push_cast at hnat
  rw [add_comm (c : Int), add_comm (c' : Int), two_zpow_add_natCast, two_zpow_add_natCast, ← mul_assoc, ← mul_assoc]
  gcongr

/-- A rounding to a count whose pattern the format has. -/
theorem roundVal_fin_of_le {f : FFmt} {neg ex : Bool} {num den draw k : Nat} {mode : Rm}
    (h : roundUnits mode neg num den draw (f.quantum num den) = (k, ex))
    (hle : (f.quantum num den - f.qMin).toNat * 2 ^ f.m + k ≤ f.maxPat) :
    ∃ tiny, roundVal f (.fin neg num den) mode draw =
      ((if neg then f.signBit else 0) + ((f.quantum num den - f.qMin).toNat * 2 ^ f.m + k),
        { inexact := !ex, underflow := !ex && tiny }) := by
  have hE : f.quantum num den + f.m + (f.bias : Int) - 1 = f.quantum num den - f.qMin := by
    unfold FFmt.qMin
    ring
  have hq : (if floorLog2 num den - f.m < 1 - (f.bias : Int) - f.m then 1 - (f.bias : Int) - f.m
      else floorLog2 num den - f.m) = f.quantum num den := rfl
  refine ⟨belowNormal f (roundUnits mode neg num den draw (floorLog2 num den - f.m)).1 (floorLog2 num den - f.m), ?_⟩
  simp only [roundVal, hq, hE, h, if_neg (not_lt.mpr hle)]

/-! ### The value of a pattern -/

/-- A zero of the sign given where the count is 0, or the value of k units of 2 ^ q. -/
inductive FVal.IsUnits (neg : Bool) (q : Int) : Nat → FVal → Prop where
  | zero : IsUnits neg q 0 (.zero neg)
  | fin {k num den : Nat} (hk : 0 < k) (hn : 0 < num) (hd : 0 < den) (h : (num / den : ℚ) = k * 2 ^ q) :
    IsUnits neg q k (.fin neg num den)

section
variable {f : FFmt} {neg : Bool} {r : Nat}

/-- The sign's part of a pattern. -/
def FFmt.sign (f : FFmt) (neg : Bool) : Nat := if neg then f.signBit else 0

theorem FFmt.sign_eq (f : FFmt) (neg : Bool) : f.sign neg = 2 ^ (f.e + f.m) * neg.toNat := by
  cases neg <;> simp [FFmt.sign, FFmt.signBit]

theorem bit_sign_add (hr : r < 2 ^ (f.e + f.m)) : bit (f.sign neg + r) (f.e + f.m) = neg := by
  rw [bit, f.sign_eq, Nat.mul_add_div (Nat.two_pow_pos _), Nat.div_eq_of_lt hr]
  cases neg <;> rfl

theorem bits_exponent_sign_add (hr : r < 2 ^ (f.e + f.m)) : bits (f.sign neg + r) f.m f.e = r / 2 ^ f.m := by
  rw [bits, f.sign_eq, Nat.add_comm f.e, pow_add, mul_assoc, Nat.mul_add_div (Nat.two_pow_pos _), Nat.mul_add_mod]
  exact Nat.mod_eq_of_lt (Nat.div_lt_of_lt_mul (by rwa [← pow_add, Nat.add_comm]))

theorem bits_mantissa_sign_add : bits (f.sign neg + r) 0 f.m = r % 2 ^ f.m := by
  rw [bits, f.sign_eq, Nat.add_comm f.e, pow_add, mul_assoc, pow_zero, Nat.div_one, Nat.mul_add_mod]

theorem FFmt.maxPat_lt (f : FFmt) : f.maxPat < 2 ^ (f.e + f.m) := by
  unfold FFmt.maxPat
  have := Nat.two_pow_pos (f.e + f.m)
  split
  · rw [Nat.sub_mul, one_mul, ← pow_add]
    have := Nat.two_pow_pos f.m
    omega
  · omega
  · omega

theorem FFmt.maxPat_succ (he : 0 < f.e) (ht : f.top = .ieee) : f.maxPat + 1 = f.infPat := by
  have h2 : 2 ≤ 2 ^ f.e := Nat.le_self_pow he.ne' 2
  have : 0 < (2 ^ f.e - 1) * 2 ^ f.m := Nat.mul_pos (by omega) (Nat.two_pow_pos _)
  simp only [FFmt.maxPat, FFmt.infPat, ht]
  omega

/-- The fields of a pattern, as its value takes them. -/
theorem FFmt.decode_sign_add (hr : r < 2 ^ (f.e + f.m)) : f.decode (f.sign neg + r) =
    if f.top == .ieee && r / 2 ^ f.m == 2 ^ f.e - 1 then
      if r % 2 ^ f.m = 0 then .inf neg else .nan (!bit (r % 2 ^ f.m) (f.m - 1))
    else if f.top == .oneNan && r / 2 ^ f.m == 2 ^ f.e - 1 && r % 2 ^ f.m == 2 ^ f.m - 1 then .nan false
    else
      let k := if r / 2 ^ f.m = 0 then r % 2 ^ f.m else 2 ^ f.m + r % 2 ^ f.m
      let up := Nat.max (r / 2 ^ f.m) 1
      let dn := f.bias + f.m
      if k = 0 then .zero neg
      else if dn ≤ up then .fin neg (k * 2 ^ (up - dn)) 1
      else .fin neg k (2 ^ (dn - up)) := by
  unfold FFmt.decode
  rw [bit_sign_add hr, bits_exponent_sign_add hr, bits_mantissa_sign_add]

/-- A pattern above the largest finite one is an infinity or a NaN. -/
theorem FFmt.decode_of_maxPat_lt (he : 0 < f.e) (hr : r < 2 ^ (f.e + f.m)) (h : f.maxPat < r) :
    (f.decode (f.sign neg + r)).isNan = true ∨
      f.top = .ieee ∧ r = f.infPat ∧ f.decode (f.sign neg + r) = .inf neg := by
  have hm := Nat.two_pow_pos f.m
  rw [FFmt.decode_sign_add hr]
  cases ht : f.top with
  | ieee =>
    have hinf : (2 ^ f.e - 1) * 2 ^ f.m ≤ r := (FFmt.maxPat_succ he ht).symm.trans_le h
    have hex : r / 2 ^ f.m = 2 ^ f.e - 1 := by
      have := (Nat.le_div_iff_mul_le hm).mpr hinf
      have := Nat.div_lt_of_lt_mul (hr.trans_eq ((pow_add 2 f.e f.m).trans (Nat.mul_comm ..)))
      omega
    by_cases hmt : r % 2 ^ f.m = 0
    · have hr0 : r = f.infPat := by
        rw [FFmt.infPat, ← hex, Nat.div_mul_cancel (Nat.dvd_of_mod_eq_zero hmt)]
      exact .inr ⟨rfl, hr0, by simp [hex, hmt]⟩
    · exact .inl (by simp [hex, hmt, FVal.isNan])
  | oneNan =>
    have hlast : r = (2 ^ f.e - 1) * 2 ^ f.m + (2 ^ f.m - 1) := by
      have : 2 ^ (f.e + f.m) - 2 < r := by simpa [FFmt.maxPat, ht] using h
      have : 2 ^ f.e * 2 ^ f.m = (2 ^ f.e - 1) * 2 ^ f.m + 2 ^ f.m := by
        rw [← Nat.succ_mul, Nat.succ_eq_add_one, Nat.sub_add_cancel (Nat.two_pow_pos _)]
      rw [pow_add] at *
      omega
    have hex : r / 2 ^ f.m = 2 ^ f.e - 1 := by
      rw [hlast, Nat.mul_comm, Nat.mul_add_div hm, Nat.div_eq_of_lt (by omega), Nat.add_zero]
    have hmt : r % 2 ^ f.m = 2 ^ f.m - 1 := by
      rw [hlast, Nat.mul_comm, Nat.mul_add_mod, Nat.mod_eq_of_lt (by omega)]
    exact .inl (by simp [hex, hmt, FVal.isNan])
  | normal =>
    have : 2 ^ (f.e + f.m) - 1 < r := by simpa [FFmt.maxPat, ht] using h
    omega

theorem FFmt.decode_infPat (ht : f.top = .ieee) : f.decode (f.sign neg + f.infPat) = .inf neg := by
  have hm := Nat.two_pow_pos f.m
  have hr : f.infPat < 2 ^ (f.e + f.m) := by
    rw [pow_add]
    exact Nat.mul_lt_mul_of_pos_right (Nat.sub_lt (Nat.two_pow_pos _) one_pos) hm
  rw [FFmt.decode_sign_add hr]
  simp [FFmt.infPat, ht]

/-- Every pattern counts units canonically. -/
theorem FFmt.exists_canonical (f : FFmt) (r : Nat) : ∃ c k, f.Canonical c k ∧ r = c * 2 ^ f.m + k := by
  have hm := Nat.mod_lt r (Nat.two_pow_pos f.m)
  have hr := Nat.div_add_mod' r (2 ^ f.m)
  have h2 : 2 ^ (f.m + 1) = 2 ^ f.m + 2 ^ f.m := by ring
  cases hx : r / 2 ^ f.m with
  | zero => exact ⟨0, r % 2 ^ f.m, ⟨by omega, .inl rfl⟩, by rw [hx] at hr; exact hr.symm⟩
  | succ c =>
    refine ⟨c, 2 ^ f.m + r % 2 ^ f.m, ⟨by omega, .inr (by omega)⟩, ?_⟩
    rw [hx, Nat.succ_mul] at hr
    omega

/-- The exponent field and the significand of a pattern that counts k units of scale c. -/
theorem FFmt.Canonical.fields {c k : Nat} (h : f.Canonical c k) :
    Nat.max ((c * 2 ^ f.m + k) / 2 ^ f.m) 1 = c + 1 ∧
    (if (c * 2 ^ f.m + k) / 2 ^ f.m = 0 then (c * 2 ^ f.m + k) % 2 ^ f.m
      else 2 ^ f.m + (c * 2 ^ f.m + k) % 2 ^ f.m) = k := by
  obtain ⟨hlt, hge⟩ := h
  have hm := Nat.two_pow_pos f.m
  rw [pow_succ] at hlt
  rw [Nat.mul_comm c, Nat.mul_add_div hm, Nat.mul_add_mod]
  by_cases hk : k < 2 ^ f.m
  · have hc : c = 0 := hge.resolve_right (by omega)
    simp [hc, Nat.div_eq_of_lt hk, Nat.mod_eq_of_lt hk]
  · have hdiv : k / 2 ^ f.m = 1 := Nat.div_eq_of_lt_le (by omega) (by omega)
    have hmod : k % 2 ^ f.m = k - 2 ^ f.m := by
      have := Nat.div_add_mod' k (2 ^ f.m)
      rw [hdiv] at this
      omega
    rw [hdiv, hmod, if_neg (by omega)]
    exact ⟨max_eq_left (by omega), by omega⟩

/-- A pattern that is at most the largest finite one is the value of the units that it counts. -/
theorem FFmt.decode_of_le_maxPat (he : 0 < f.e) {c k : Nat} (h : f.Canonical c k) (hle : c * 2 ^ f.m + k ≤ f.maxPat) :
    FVal.IsUnits neg (c + f.qMin) k (f.decode (f.sign neg + (c * 2 ^ f.m + k))) := by
  obtain ⟨hup, hk⟩ := h.fields
  have hm := Nat.two_pow_pos f.m
  rw [FFmt.decode_sign_add (hle.trans_lt f.maxPat_lt)]
  generalize c * 2 ^ f.m + k = r at hle hup hk
  have hInf : ¬(f.top == .ieee && r / 2 ^ f.m == 2 ^ f.e - 1) = true := by
    intro hx
    obtain ⟨ht, hex⟩ : f.top = .ieee ∧ r / 2 ^ f.m = 2 ^ f.e - 1 := by simpa using hx
    have : f.infPat ≤ r := (Nat.le_div_iff_mul_le hm).mp hex.ge
    have := FFmt.maxPat_succ he ht
    omega
  have hNan : ¬(f.top == .oneNan && r / 2 ^ f.m == 2 ^ f.e - 1 && r % 2 ^ f.m == 2 ^ f.m - 1) = true := by
    intro hx
    obtain ⟨⟨ht, hex⟩, hmt⟩ : (f.top = .oneNan ∧ r / 2 ^ f.m = 2 ^ f.e - 1) ∧ r % 2 ^ f.m = 2 ^ f.m - 1 := by
      simpa using hx
    have hr := Nat.div_add_mod' r (2 ^ f.m)
    have h2 : 2 ≤ 2 ^ (f.e + f.m) := Nat.le_self_pow (by omega) 2
    rw [hex, hmt, Nat.sub_mul, ← pow_add] at hr
    simp only [FFmt.maxPat, ht] at hle
    omega
  rw [if_neg hInf, if_neg hNan]
  dsimp only
  rw [hk, hup]
  by_cases hk0 : k = 0
  · subst hk0
    rw [if_pos rfl]
    exact .zero
  rw [if_neg hk0]
  have hkpos := Nat.pos_of_ne_zero hk0
  split
  · next hdn =>
    refine .fin hkpos (Nat.mul_pos hkpos (Nat.two_pow_pos _)) one_pos ?_
    have hq : ((c : Int) + f.qMin).toNat = c + 1 - (f.bias + f.m) := by unfold FFmt.qMin; omega
    rw [two_zpow_of_nonneg (by unfold FFmt.qMin; omega), hq, Nat.cast_mul, Nat.cast_one, div_one]
  · next hdn =>
    refine .fin hkpos hkpos (Nat.two_pow_pos _) ?_
    have hq : (-((c : Int) + f.qMin)).toNat = f.bias + f.m - (c + 1) := by unfold FFmt.qMin; omega
    rw [two_zpow_of_neg (by unfold FFmt.qMin; omega), hq, mul_one_div]

/-- A value that a pattern counts rounds to that pattern in every mode, without a flag. -/
theorem roundVal_of_canonical {c k num den : Nat} (h : f.Canonical c k) (hn : 0 < num) (hd : 0 < den)
    (hx : (num / den : ℚ) = k * 2 ^ (c + f.qMin)) (hle : c * 2 ^ f.m + k ≤ f.maxPat) (mode : Rm) (draw : Nat) :
    roundVal f (.fin neg num den) mode draw = (f.sign neg + (c * 2 ^ f.m + k), {}) := by
  have hp : (0 : ℚ) < 2 ^ (c + f.qMin) := by positivity
  have hq : f.quantum num den = c + f.qMin :=
    (f.isQuantum_quantum hn hd).unique (h.isQuantum hx.ge (by rw [hx]; gcongr; omega))
  have hround : roundUnits mode neg num den draw (f.quantum num den) = (k, true) := by
    rw [hq]
    obtain ⟨k', ⟨hk', hall⟩ | ⟨hlo, hhi, -⟩⟩ := roundUnits_cases hn hd (c + f.qMin)
    · rw [hall, show k' = k by exact_mod_cast mul_right_cancel₀ hp.ne' (hk'.symm.trans hx)]
    · -- no count lies strictly between two neighbours
      rw [hx, mul_lt_mul_iff_left₀ hp, Nat.cast_lt] at hlo hhi
      omega
  have hc : (f.quantum num den - f.qMin).toNat = c := by omega
  obtain ⟨tiny, hval⟩ := roundVal_fin_of_le hround (by rwa [hc])
  rw [hval, hc]
  rfl

/-- Every pattern is a sign beside a magnitude. -/
theorem FFmt.exists_sign_add {p : Nat} (hp : p < 2 ^ (f.e + f.m + 1)) :
    ∃ neg r, r < 2 ^ (f.e + f.m) ∧ p = f.sign neg + r := by
  rw [pow_succ] at hp
  by_cases h : p < 2 ^ (f.e + f.m)
  · exact ⟨false, p, h, by simp [FFmt.sign]⟩
  · exact ⟨true, p - 2 ^ (f.e + f.m), by omega, by simp only [FFmt.sign, FFmt.signBit, if_true]; omega⟩

/-- R101: what a format represents rounds to itself. -/
theorem roundVal_decode (he : 0 < f.e) {p : Nat} (hp : p < 2 ^ (f.e + f.m + 1)) (hnan : (f.decode p).isNan = false)
    (mode : Rm) (draw : Nat) : roundVal f (f.decode p) mode draw = (p, {}) := by
  obtain ⟨neg, r, hr, rfl⟩ := FFmt.exists_sign_add hp
  by_cases hle : r ≤ f.maxPat
  · obtain ⟨c, k, hck, rfl⟩ := f.exists_canonical r
    have hdec := FFmt.decode_of_le_maxPat (neg := neg) he hck hle
    generalize f.decode _ = v at hdec
    cases hdec with
    | zero =>
      have hc : c = 0 := hck.ge.resolve_right (by have := Nat.two_pow_pos f.m; omega)
      simp [roundVal, FFmt.sign, hc]
    | fin hk hn hd hx => exact roundVal_of_canonical hck hn hd hx hle mode draw
  · obtain hbad | ⟨ht, rfl, hdec⟩ := FFmt.decode_of_maxPat_lt (neg := neg) he hr (by omega)
    · rw [hbad] at hnan
      contradiction
    · rw [hdec]
      simp [roundVal, FFmt.hasInf, ht, FFmt.sign]

end

/-! ### Neighbours -/

/-- A value that is a rational number. -/
def FVal.HasVal (v : FVal) (y : ℚ) : Prop :=
  v.isInf = false ∧ 0 < v.toFrac.2 ∧ (v.toFrac.1 / v.toFrac.2 : ℚ) = y

theorem FVal.HasVal.unique {v : FVal} {y z : ℚ} (hy : v.HasVal y) (hz : v.HasVal z) : y = z :=
  hy.2.2.symm.trans hz.2.2

theorem FVal.hasVal_fin {num den : Nat} (hd : 0 < den) : (FVal.fin false num den).HasVal (num / den) :=
  ⟨rfl, hd, by simp [FVal.toFrac]⟩

theorem FVal.IsUnits.hasVal {q : Int} {k : Nat} {v : FVal} (h : v.IsUnits false q k) : v.HasVal (k * 2 ^ q) := by
  cases h with
  | zero => exact ⟨rfl, one_pos, by simp [FVal.toFrac]⟩
  | fin hk hn hd h => exact h ▸ FVal.hasVal_fin hd

theorem lessVal_eq_decide {v w : FVal} {y z : ℚ} (hv : v.HasVal y) (hw : w.HasVal z) :
    lessVal v w = decide (y < z) := by
  obtain ⟨hvi, hvd, rfl⟩ := hv
  obtain ⟨hwi, hwd, rfl⟩ := hw
  have hless : lessVal v w = decide (v.toFrac.1 * w.toFrac.2 < w.toFrac.1 * v.toFrac.2) := by
    unfold lessVal
    split
    · contradiction
    · contradiction
    · contradiction
    · rfl
  rw [hless, decide_eq_decide, div_lt_div_iff₀ (by exact_mod_cast hvd) (by exact_mod_cast hwd)]
  norm_cast

theorem lessVal_inf {v : FVal} (h : v.isInf = false) : lessVal v (.inf false) = true := by
  cases v with
  | inf n => contradiction
  | nan sig => rfl
  | zero n => rfl
  | fin n a b => rfl

section
variable {f : FFmt} {num den draw : Nat}

/-- The value of a pattern, also where a carry out of the mantissa goes into the exponent. -/
theorem FFmt.hasVal_decode (he : 0 < f.e) {c k : Nat} (hge : c = 0 ∨ 2 ^ f.m ≤ k) (hk : k ≤ 2 ^ (f.m + 1))
    (hle : c * 2 ^ f.m + k ≤ f.maxPat) : (f.decode (c * 2 ^ f.m + k)).HasVal (k * 2 ^ (c + f.qMin)) := by
  have key {c k : Nat} (h : f.Canonical c k) (hle : c * 2 ^ f.m + k ≤ f.maxPat) :
      (f.decode (c * 2 ^ f.m + k)).HasVal (k * 2 ^ (c + f.qMin)) := by
    have := (FFmt.decode_of_le_maxPat (neg := false) he h hle).hasVal
    rwa [FFmt.sign, if_neg Bool.false_ne_true, Nat.zero_add] at this
  obtain hlt | rfl := hk.lt_or_eq
  · exact key ⟨hlt, hge⟩ hle
  · have hcarry : c * 2 ^ f.m + 2 ^ (f.m + 1) = (c + 1) * 2 ^ f.m + 2 ^ f.m := by ring
    rw [hcarry] at hle ⊢
    have := key ⟨Nat.pow_lt_pow_right one_lt_two (Nat.lt_succ_self _), .inr le_rfl⟩ hle
    convert this using 1
    push_cast
    rw [add_right_comm, zpow_add_one₀ two_ne_zero]
    ring

/-- A positive magnitude that is at most the largest finite value is the value of a pattern, or lies strictly between
the values of two consecutive patterns, of which the mode takes one. -/
theorem roundVal_neighbours (he : 0 < f.e) (hn : 0 < num) (hd : 0 < den)
    (hmax : lessVal (f.decode f.maxPat) (.fin false num den) = false) : ∃ c k : Nat,
    f.Canonical c k ∧ c * 2 ^ f.m + k ≤ f.maxPat ∧ (num / den : ℚ) < ((k + 1 : Nat) : ℚ) * 2 ^ (c + f.qMin) ∧
    ((num / den : ℚ) = k * 2 ^ (c + f.qMin) ∧
      (∀ mode draw, (roundVal f (.fin false num den) mode draw).1 = c * 2 ^ f.m + k) ∨
    (k : ℚ) * 2 ^ (c + f.qMin) < num / den ∧ c * 2 ^ f.m + k + 1 ≤ f.maxPat ∧ ∃ r d, ∀ mode draw,
      (roundVal f (.fin false num den) mode draw).1 =
        if roundsUp mode false k r d draw then c * 2 ^ f.m + k + 1 else c * 2 ^ f.m + k) := by
  have hQ := f.isQuantum_quantum hn hd
  obtain ⟨c, hc⟩ : ∃ c : Nat, f.quantum num den = c + f.qMin :=
    ⟨(f.quantum num den - f.qMin).toNat, by have := hQ.1; omega⟩
  have hcN : (f.quantum num den - f.qMin).toNat = c := by omega
  have hpow : (0 : ℚ) < 2 ^ (c + f.qMin) := by positivity
  -- the largest finite value bounds the pattern of every count that is at most the magnitude
  obtain ⟨cM, kM, hM, hMp⟩ := f.exists_canonical f.maxPat
  have hMv := hMp ▸ FFmt.hasVal_decode he hM.ge hM.lt.le hMp.ge
  rw [lessVal_eq_decide hMv (FVal.hasVal_fin hd), decide_eq_false_iff_not, not_lt] at hmax
  obtain ⟨k, hcases⟩ := roundUnits_cases hn hd (c + f.qMin)
  rw [hc] at hQ
  have hround {mode : Rm} {draw k' : Nat} {ex : Bool}
      (hr : roundUnits mode false num den draw (c + f.qMin) = (k', ex)) (hle : c * 2 ^ f.m + k' ≤ f.maxPat) :
      (roundVal f (.fin false num den) mode draw).1 = c * 2 ^ f.m + k' := by
    obtain ⟨tiny, hval⟩ := roundVal_fin_of_le (hc ▸ hr) (by rwa [hcN])
    simp [hval, hcN]
  refine ⟨c, k, ?_⟩
  obtain ⟨hx, hall⟩ | ⟨hlo, hhi, r, d, hall⟩ := hcases
  · have hhi : (num / den : ℚ) < ((k + 1 : Nat) : ℚ) * 2 ^ (c + f.qMin) := by rw [hx]; gcongr; omega
    have hck := hQ.canonical hx.ge hhi
    have hle : c * 2 ^ f.m + k ≤ f.maxPat := by
      by_contra hgt
      have := hM.value_lt hck (by omega)
      linarith
    exact ⟨hck, hle, hhi, .inl ⟨hx, fun mode draw => hround (hall mode false draw) hle⟩⟩
  · have hck := hQ.canonical hlo.le hhi
    have hlt : c * 2 ^ f.m + k + 1 ≤ f.maxPat := by
      by_contra hgt
      obtain hlt | heq := Nat.lt_or_eq_of_le (show f.maxPat ≤ c * 2 ^ f.m + k by omega)
      · have := hM.value_lt hck (by omega)
        linarith
      · have := hMv.unique (heq ▸ FFmt.hasVal_decode he hck.ge hck.lt.le heq.ge)
        linarith
    refine ⟨hck, by omega, hhi, .inr ⟨hlo, hlt, r, d, fun mode draw => ?_⟩⟩
    rw [hround (hall mode false draw) (by split <;> omega)]
    split <;> rfl
end

/-- The neighbours of a magnitude, as R101 gives them to the directed modes and to RNE. -/
def Neighbours (f : FFmt) (x : FVal) (draw lo hi : Nat) : Prop :=
  lo ≤ f.maxPat ∧ lessVal x (f.decode lo) = false ∧ lessVal x (f.decode (lo + 1)) = true ∧
    lessVal (f.decode hi) x = false ∧ (hi = lo ∨ hi = lo + 1) ∧
    ((roundVal f x .rne draw).1 = lo ∨ (roundVal f x .rne draw).1 = hi) ∧ (roundVal f x .rdn draw).1 = lo

theorem neighbours_rtz_rup {f : FFmt} {num den draw : Nat} (he : 0 < f.e) (ht : f.top = .ieee) (hn : 0 < num)
    (hd : 0 < den) (hmax : lessVal (f.decode f.maxPat) (.fin false num den) = false) :
    Neighbours f (.fin false num den) draw (roundVal f (.fin false num den) .rtz draw).1
      (roundVal f (.fin false num den) .rup draw).1 := by
  obtain ⟨c, k, hck, hle, hhi, hcases⟩ := roundVal_neighbours he hn hd hmax
  have hx : (FVal.fin false num den).HasVal (num / den) := FVal.hasVal_fin hd
  have hlo : (f.decode (c * 2 ^ f.m + k)).HasVal (k * 2 ^ (c + f.qMin)) :=
    FFmt.hasVal_decode he hck.ge hck.lt.le hle
  have hsucc (h : c * 2 ^ f.m + k + 1 ≤ f.maxPat) :
      (f.decode (c * 2 ^ f.m + k + 1)).HasVal (((k + 1 : Nat) : ℚ) * 2 ^ (c + f.qMin)) :=
    FFmt.hasVal_decode he (hck.ge.imp_right fun hm => hm.trans k.le_succ) hck.lt h
  have habove : lessVal (.fin false num den) (f.decode (c * 2 ^ f.m + k + 1)) = true := by
    obtain hlt | heq := Nat.lt_or_eq_of_le hle
    · rw [lessVal_eq_decide hx (hsucc hlt), decide_eq_true_iff]
      exact hhi
    · rw [heq, FFmt.maxPat_succ he ht, show f.infPat = f.sign false + f.infPat by simp [FFmt.sign],
        FFmt.decode_infPat ht]
      exact lessVal_inf rfl
  obtain ⟨hexact, hall⟩ | ⟨hbelow, hlt, r, d, hall⟩ := hcases
  · rw [hall, hall]
    refine ⟨hle, ?_, habove, ?_, .inl rfl, .inl (hall ..), hall ..⟩
    · rw [lessVal_eq_decide hx hlo, hexact, decide_eq_false (lt_irrefl _)]
    · rw [lessVal_eq_decide hlo hx, hexact, decide_eq_false (lt_irrefl _)]
  · have hrtz : (roundVal f (.fin false num den) .rtz draw).1 = c * 2 ^ f.m + k := hall ..
    have hrup : (roundVal f (.fin false num den) .rup draw).1 = c * 2 ^ f.m + k + 1 := hall ..
    rw [hrtz, hrup]
    refine ⟨hle, ?_, habove, ?_, .inr rfl, ?_, hall ..⟩
    · rw [lessVal_eq_decide hx hlo, decide_eq_false (not_lt.mpr hbelow.le)]
    · rw [lessVal_eq_decide (hsucc hlt) hx, decide_eq_false (not_lt.mpr hhi.le)]
    · rw [hall]
      split
      · exact .inr rfl
      · exact .inl rfl

/-- Settles O8: a magnitude is a count of units of the scale that R101 rounds to, or lies strictly between two counts,
and the patterns of a format are its counts in order. -/
theorem rounding : Obligations.Rounding := by
  refine ⟨fun f hf p mode draw hp hnan => ?_, fun sig mode draw => ?_, fun f hf num den draw hn hd hmax => ?_⟩
  · have he : ∀ f ∈ [f32, f64, f16, bf16, fp19, e5m2, e4m3, e3m2, e2m3, e2m1], 0 < f.e := by decide
    exact roundVal_decode (he f hf) hp hnan mode draw
  · have hnone : ∀ f ∈ [e3m2, e2m3, e2m1], f.nanPat = none := by decide
    exact ⟨rfl, rfl, rfl, rfl, rfl, rfl, fun f hf => by simp only [roundVal, hnone f hf]⟩
  · have hieee : ∀ f ∈ [f32, f16, bf16], 0 < f.e ∧ f.top = .ieee := by decide
    obtain ⟨he, ht⟩ := hieee f hf
    exact neighbours_rtz_rup he ht hn hd hmax

/-! ## CVT and CVTB.unpack (R114–R116, R119) -/

theorem exec_cvt (x : Alu) (s : State) : exec (.cvt x) s = onWarp (.cvt x) (fun w s =>
    finishVec x false (vecRun (s.warp w) x (Alu.cvtDst x) (Alu.cvtDstAt x) (Alu.cvtCount x) (cvtLane x (s.warp w))) w s)
      s := rfl

theorem exec_cvtbUnpack (x : Alu) (s : State) :
    exec (.cvtbUnpack x) s = onWarp (.cvtbUnpack x) (vecOp x false 32 (unpackLane x)) s := rfl

/-- The part of a CVT that narrows is one of the source's sub-elements that the destination's fit in (R115). -/
theorem cvt_part_lt {x : Alu} (h : (Instr.cvt x).fieldsOk = true) (hlt : x.cvtDst < x.cvtSrc) :
    x.fmt < x.cvtSrc / x.cvtDst := by
  simp only [Instr.fieldsOk, Alu.cvtOk, Bool.and_eq_true, decide_eq_true_eq] at h
  obtain ⟨-, ⟨-, hpart⟩, -⟩ := h
  rwa [show Nat.max (cvtWidth (bits x.cNum 5 5)) (cvtWidth (bits x.cNum 0 5)) = x.cvtSrc from Nat.max_eq_right hlt.le,
    show Nat.min (cvtWidth (bits x.cNum 5 5)) (cvtWidth (bits x.cNum 0 5)) = x.cvtDst from Nat.min_eq_left hlt.le]
    at hpart

/-- The sub-elements that a CVT writes lie in the lane (R115). -/
theorem cvtDstAt_fits {x : Alu} (h : (Instr.cvt x).fieldsOk = true) {j : Nat} (hj : j < x.cvtCount) :
    x.cvtDst * x.cvtDstAt j + x.cvtDst ≤ 64 := by
  obtain ⟨hsrc, hdst⟩ := Nat.lt_min.mp hj
  unfold Alu.cvtDstAt
  split
  case isFalse => exact fits_id _ _ hdst
  case isTrue hlt =>
    have hpart := cvt_part_lt h hlt
    calc x.cvtDst * (x.fmt * (64 / x.cvtSrc) + j) + x.cvtDst = x.cvtDst * (x.fmt * (64 / x.cvtSrc) + (j + 1)) := by ring
      _ ≤ x.cvtDst * (x.fmt * (64 / x.cvtSrc) + 64 / x.cvtSrc) := by gcongr; omega
      _ = x.cvtDst * (x.fmt + 1) * (64 / x.cvtSrc) := by ring
      _ ≤ x.cvtDst * (x.cvtSrc / x.cvtDst) * (64 / x.cvtSrc) := by gcongr; omega
      _ ≤ x.cvtSrc * (64 / x.cvtSrc) := by gcongr; exact Nat.mul_div_le _ _
      _ ≤ 64 := Nat.mul_div_le _ _

theorem cvtDstAt_injective (x : Alu) {i j : Nat} (h : x.cvtDstAt i = x.cvtDstAt j) : i = j := by
  unfold Alu.cvtDstAt at h
  split at h <;> omega

/-- Settles O11: both are one element function under `vecOp`, and the sub-elements that a CVT's part reaches are
distinct and lie in the lane. -/
theorem conversionResult : Obligations.ConversionResult :=
  ⟨fun x h => vec_completes (fun _ hj => cvtDstAt_fits h hj) (fun _ _ _ _ e => cvtDstAt_injective x e) (exec_cvt x),
   fun x => vecOp_completes (exec_cvtbUnpack x)⟩

/-! ## CVTB.pack (R117, R118) -/

/-- Eight bytes of a lane as a register holds them. -/
theorem subOf_ofBytes (f : Nat → Nat) {k : Nat} (hk : k < 8) :
    subOf (BitVec.ofNat 64 (ofBytes ((List.range 8).map (fun j => BitVec.ofNat 8 (f j))))) 8 k = f k % 256 := by
  have hlt := ofBytes_lt ((List.range 8).map (fun j => BitVec.ofNat 8 (f j)))
  rw [List.length_map, List.length_range] at hlt
  rw [subOf, BitVec.toNat_ofNat, Nat.mod_eq_of_lt hlt, bits_ofBytes]
  simp [hk]

theorem Flags.or_assoc (a b c : Flags) : (a.or b).or c = a.or (b.or c) := by
  simp [Flags.or, Bool.or_assoc]

@[simp] theorem Flags.empty_or (a : Flags) : Flags.or {} a = a := by cases a; rfl

@[simp] theorem Flags.or_empty (a : Flags) : a.or {} = a := by cases a; simp [Flags.or]

theorem exec_cvtbPack (x : Alu) (s : State) : exec (.cvtbPack x) s = onWarp (.cvtbPack x) (packVec x) s := rfl

/-- The scale of a block, as `packOuts` finds it. -/
def packedScale (x : Alu) (a : Warp) (blk : Nat) : Nat :=
  if ((List.range 32).map (fun i => 32 * blk + i)).any
    (fun i => (Claims.packX a x i).isNan || (Claims.packX a x i).isInf)
  then 0xFF
  else packScale (blockFmt (x.cNum % 16))
    (((List.range 32).map (fun i => 32 * blk + i)).foldl (fun m i => maxMag m (Claims.packX a x i)) (.zero false))

theorem any_special_iff (v : Nat → FVal) (blk : Nat) :
    (((List.range 32).map (fun i => 32 * blk + i)).any (fun i => (v i).isNan || (v i).isInf) = true) ↔
      ∃ i, i < 32 ∧ ((v (32 * blk + i)).isNan = true ∨ (v (32 * blk + i)).isInf = true) := by
  simp

theorem packedScale_eq (x : Alu) (a : Warp) (blk : Nat) : packedScale x a blk = Claims.packBlockScale a x blk := by
  rw [packedScale, Claims.packBlockScale]
  refine if_congr (any_special_iff (Claims.packX a x) blk) rfl ?_
  rw [List.foldl_map, List.foldl_map]

/-- One element of a lane of `packOuts`, with the two scales. -/
def packedElem (x : Alu) (a : Warp) (sc0 sc1 l : Nat) (c : List Nat × Flags × BitVec 32) (i : Nat) :
    List Nat × Flags × BitVec 32 :=
  if a.enabled x.g x.vx.m (i / 2) (i % 2) then
    let rg := stepIf (resolveRm x.vx.rm (a.lane l).fflags) c.2.2
    let v := Claims.packX a x i
    let r := packElem (blockFmt (x.cNum % 16)) (if i < 32 then sc0 else sc1) v (resolveRm x.vx.rm (a.lane l).fflags)
      (drawOf rg)
    (c.1 ++ [r.1], (c.2.1.or r.2).or { invalid := v.isNan || v.isInf }, rg)
  else (c.1 ++ [0], c.2.1, c.2.2)

def packedLane (x : Alu) (a : Warp) (sc0 sc1 l : Nat) : List Nat × Flags × BitVec 32 :=
  [2 * l, 2 * l + 1].foldl (packedElem x a sc0 sc1 l) ([], {}, (a.lane l).rng)

/-- A byte of the packed register, from the scales and the patterns. -/
def packedByte (x : Alu) (sc0 sc1 : Nat) (pat : Nat → Nat) (o : Nat) : Nat :=
  if o = 248 then sc0
  else if o = 249 then sc1
  else if (blockFmt (x.cNum % 16)).packed then (if o < 32 then pat (2 * o) + pat (2 * o + 1) * 16 else 0)
  else if o < 64 then pat o else 0

def packedOut (x : Alu) (sc0 sc1 : Nat) (res : List (List Nat × Flags × BitVec 32)) (rng0 : BitVec 32) (l : Nat) :
    LaneOut :=
  { val := BitVec.ofNat 64 (ofBytes ((List.range 8).map (fun k => BitVec.ofNat 8
      (packedByte x sc0 sc1 (fun i => ((res.map (·.1)).flatten).getD i 0) (8 * l + k)))))
    fl := (res.getD l ([], {}, 0)).2.1
    rng := (res.getD l ([], {}, rng0)).2.2 }

section
variable {x : Alu} {sc0 sc1 l : Nat} {res : List (List Nat × Flags × BitVec 32)} {rng0 rg : BitVec 32} {ps : List Nat}
  {fl : Flags}

theorem packedOut_fl (h : res[l]? = some (ps, fl, rg)) : (packedOut x sc0 sc1 res rng0 l).fl = fl := by
  rw [packedOut, List.getD_eq_getElem?_getD, h]
  rfl

theorem packedOut_rng (h : res[l]? = some (ps, fl, rg)) : (packedOut x sc0 sc1 res rng0 l).rng = rg := by
  rw [packedOut, List.getD_eq_getElem?_getD, List.getD_eq_getElem?_getD, h]
  rfl

end

theorem packOuts_eq (x : Alu) (a : Warp) : packOuts x a = (List.range 32).map (fun l =>
    packedOut x (packedScale x a 0) (packedScale x a 1)
      ((List.range 32).map (packedLane x a (packedScale x a 0) (packedScale x a 1))) (a.lane l).rng l) := rfl

section
variable {x : Alu} {a : Warp}

/-- An element of `packOuts` is one of R118: its pattern, its flags over the lane's, its generator. -/
theorem packedElem_eq (ps : List Nat) (fl : Flags) (rg : BitVec 32) {l i : Nat} (hl : i / 2 = l) (hi : i < 64) :
    packedElem x a (Claims.packBlockScale a x 0) (Claims.packBlockScale a x 1) l (ps, fl, rg) i =
      (ps ++ [(Claims.packOne a x i rg).1], fl.or (Claims.packOne a x i rg).2.1, (Claims.packOne a x i rg).2.2) := by
  have hscale : (if i < 32 then Claims.packBlockScale a x 0 else Claims.packBlockScale a x 1) =
      Claims.packBlockScale a x (i / 32) := by
    split
    · rw [Nat.div_eq_of_lt ‹_›]
    · rw [show i / 32 = 1 by omega]
  unfold packedElem Claims.packOne
  rw [hscale, hl]
  split
  · simp only [Flags.or_assoc]
  · simp only [Flags.or_empty]

theorem packElemOf_even (l : Nat) : Claims.packElemOf a x (2 * l) = Claims.packOne a x (2 * l) (a.lane l).rng := by
  rw [Claims.packElemOf, if_pos (Nat.mul_mod_right 2 l), Nat.mul_div_cancel_left l (by decide)]

theorem packElemOf_odd (l : Nat) : Claims.packElemOf a x (2 * l + 1) =
    Claims.packOne a x (2 * l + 1) (Claims.packElemOf a x (2 * l)).2.2 := by
  rw [packElemOf_even, Claims.packElemOf, if_neg (by omega), Nat.add_sub_cancel, show (2 * l + 1) / 2 = l by omega]

/-- The flags that the two elements of a lane raise. -/
def packFlags (x : Alu) (a : Warp) (l : Nat) : Flags :=
  (Claims.packElemOf a x (2 * l)).2.1.or (Claims.packElemOf a x (2 * l + 1)).2.1

theorem packedLane_eq {l : Nat} (hl : l < 32) :
    packedLane x a (Claims.packBlockScale a x 0) (Claims.packBlockScale a x 1) l =
      ([(Claims.packElemOf a x (2 * l)).1, (Claims.packElemOf a x (2 * l + 1)).1], packFlags x a l,
        (Claims.packElemOf a x (2 * l + 1)).2.2) := by
  have h0 := packedElem_eq (x := x) (a := a) [] {} (a.lane l).rng (i := 2 * l) (l := l) (by omega) (by omega)
  have h1 := fun ps fl rg => packedElem_eq (x := x) (a := a) ps fl rg (i := 2 * l + 1) (l := l) (by omega) (by omega)
  rw [← packElemOf_even] at h0
  rw [packedLane, List.foldl_cons, List.foldl_cons, List.foldl_nil, h0, h1, ← packElemOf_odd, packFlags]
  rw [Flags.empty_or]
  generalize Claims.packElemOf a x = e
  rfl

/-- The lanes of `packOuts`, from the elements of R118. -/
theorem packedLanes_eq :
    (List.range 32).map (packedLane x a (Claims.packBlockScale a x 0) (Claims.packBlockScale a x 1)) =
    (List.range 32).map (fun l => ([(Claims.packElemOf a x (2 * l)).1, (Claims.packElemOf a x (2 * l + 1)).1],
      packFlags x a l, (Claims.packElemOf a x (2 * l + 1)).2.2)) :=
  List.map_congr_left (fun _ hl => packedLane_eq (List.mem_range.mp hl))

/-- The patterns of `packOuts`, one after the other. -/
theorem packedPats_getD {i : Nat} (hi : i < 64) :
    ((((List.range 32).map (packedLane x a (Claims.packBlockScale a x 0) (Claims.packBlockScale a x 1))).map
      (·.1)).flatten).getD i 0 = (Claims.packElemOf a x i).1 := by
  rw [packedLanes_eq]
  exact pairs_getD (fun i => (Claims.packElemOf a x i).1)
    (fun l => (packFlags x a l, (Claims.packElemOf a x (2 * l + 1)).2.2)) hi

/-- A byte of the packed register (R118). -/
theorem packedByte_eq (o : Nat) {pat : Nat → Nat} (h : ∀ i, i < 64 → pat i = (Claims.packElemOf a x i).1) :
    packedByte x (Claims.packBlockScale a x 0) (Claims.packBlockScale a x 1) pat o = Claims.packByte a x o := by
  unfold packedByte Claims.packByte
  refine if_congr Iff.rfl rfl (if_congr Iff.rfl rfl (if_congr Iff.rfl ?_ ?_))
  · split
    · rw [h _ (by omega), h _ (by omega), Nat.mul_comm _ 16]
    · rfl
  · split
    · rw [h _ ‹_›]
    · rfl

theorem packOuts_length : (packOuts x a).length = 32 := by rw [packOuts_eq]; simp

/-- A lane's outcome of CVTB.pack. -/
theorem packOuts_getD {l : Nat} (hl : l < 32) :
    let o := (packOuts x a).getD l { val := 0, rng := 0 }
    o.fl = packFlags x a l ∧ o.rng = (Claims.packElemOf a x (2 * l + 1)).2.2 ∧
      ∀ k, k < 8 → subOf o.val 8 k = Claims.packByte a x (8 * l + k) % 256 := by
  have hget : (packOuts x a).getD l { val := 0, rng := 0 } =
      packedOut x (Claims.packBlockScale a x 0) (Claims.packBlockScale a x 1)
        ((List.range 32).map (packedLane x a (Claims.packBlockScale a x 0) (Claims.packBlockScale a x 1)))
        (a.lane l).rng l := by
    rw [packOuts_eq, packedScale_eq, packedScale_eq]
    simp [hl]
  have hlane : ((List.range 32).map (packedLane x a (Claims.packBlockScale a x 0) (Claims.packBlockScale a x 1)))[l]? =
      some (packedLane x a (Claims.packBlockScale a x 0) (Claims.packBlockScale a x 1) l) := by simp [hl]
  rw [packedLane_eq hl] at hlane
  intro o
  rw [show o = _ from hget]
  refine ⟨?_, ?_, fun k hk => ?_⟩
  · exact packedOut_fl hlane
  · exact packedOut_rng hlane
  · rw [packedOut, subOf_ofBytes _ hk, packedByte_eq _ (fun i hi => packedPats_getD hi)]

end

theorem roundVal_idz (f : FFmt) (v : FVal) (mode : Rm) (draw : Nat) : (roundVal f v mode draw).2.idz = false := by
  cases v with
  | nan sig => unfold roundVal; cases f.nanPat <;> rfl
  | inf neg => unfold roundVal; cases f.hasInf <;> rfl
  | zero neg => rfl
  | fin neg num den => unfold roundVal; simp only [apply_ite Prod.snd, apply_ite Flags.idz, ite_self]

theorem packElem_idz (b : BlockFmt) (scale : Nat) (v : FVal) (mode : Rm) (draw : Nat) :
    (packElem b scale v mode draw).2.idz = false := by
  unfold packElem
  cases b.scaleVal scale with
  | fin neg num den =>
    cases b.elem with
    | some f =>
      dsimp only
      split <;> exact roundVal_idz _ _ _ _
    | none => rfl
  | _ => rfl

theorem packOne_idz (a : Warp) (x : Alu) (i : Nat) (rg : BitVec 32) : (Claims.packOne a x i rg).2.1.idz = false := by
  unfold Claims.packOne
  split
  · simp [Flags.or, packElem_idz]
  · rfl

theorem packFlags_idz (x : Alu) (a : Warp) (l : Nat) : (packFlags x a l).idz = false := by
  simp [packFlags, Flags.or, Claims.packElemOf, packOne_idz]

/-- No fault where no lane of a thread that is no helper raises one that could be (R105). -/
theorem vecFault_packOuts {x : Alu} {a : Warp} (h : ∀ l, l < 32 → a.isHelper l = false →
    (packFlags x a l).invalid = false ∧ (packFlags x a l).dz = false ∧ (packFlags x a l).overflow = false) :
    vecFault a (packOuts x a) = none := by
  refine vecFault_none _ _ (fun l hl hh o ho => ?_)
  obtain ⟨hfl, -, -⟩ := packOuts_getD (x := x) (a := a) hl
  rw [List.getD_eq_getElem?_getD, ho, Option.getD_some] at hfl
  rw [hfl]
  exact ⟨packFlags_idz x a l, h l hl hh⟩

theorem pack_nowb {x : Alu} (h : (Instr.cvtbPack x).fieldsOk = true) : x.nowb = false := by
  simp only [Instr.fieldsOk, Alu.uses, Bool.and_eq_true, Bool.false_or] at h
  obtain ⟨⟨⟨-, ⟨⟨⟨-, hnowb⟩, -⟩, -⟩⟩, -⟩, -⟩ := h
  simpa using hnowb

/-- What CVTB.pack leaves of a warp where nothing faults (R118). -/
theorem cvtbPack_completes {x : Alu} {w : Nat} {s : State} (hi : Issues w (.cvtbPack x) s) (hnowb : x.nowb = false)
    (hact : (s.atIssue (.cvtbPack x) w).active x.g ≠ 0)
    (hf : s.defers w = true ∨ vecFault (s.atIssue (.cvtbPack x) w) (packOuts x (s.atIssue (.cvtbPack x) w)) = none) :
    ∃ b, exec (.cvtbPack x) s = .next ((s.issued (.cvtbPack x) w).setWarp w b) ∧
      b = { s.atIssue (.cvtbPack x) w with v := b.v, lanes := b.lanes } ∧
      (∀ n l, l < 32 → b.rdV n l =
        if n = x.d then ((packOuts x (s.atIssue (.cvtbPack x) w)).getD l { val := 0, rng := 0 }).val
        else (s.atIssue (.cvtbPack x) w).rdV n l) ∧
      ∀ l, l < 32 → b.lane l = flaggedLane ((packOuts x (s.atIssue (.cvtbPack x) w)).getD l { val := 0, rng := 0 }) true
        ((s.atIssue (.cvtbPack x) w).lane l) := by
  obtain ⟨b, hend, hframe, hv, hlane, hlatch⟩ := finishVec_ok x false (packOuts x (s.atIssue (.cvtbPack x) w)) w
    (s.issued (.cvtbPack x) w) packOuts_length (by rw [defers_issued]; exact hf)
  rw [issued_warp] at hframe hv hlane hlatch
  have hbody : packVec x w (s.issued (.cvtbPack x) w) = .ok ((s.issued (.cvtbPack x) w).setWarp w b) := by
    rw [packVec, issued_warp, Warp.anyActive, bne_iff_ne.mpr hact]
    exact hend
  rw [if_neg Bool.false_ne_true] at hlatch
  rw [hlatch] at hframe
  refine ⟨b, (exec_cvtbPack x s).trans (onWarp_ok hi hbody), hframe, fun n l hl => ?_, fun l hl => ?_⟩
  · rw [hv n l hl]
    simp only [hnowb, and_true]
  · rw [hlane l, if_pos hl]

/-- A lane with the flags and the generator that its two elements give. -/
theorem flaggedLane_packOuts {x : Alu} {a : Warp} {l : Nat} (hl : l < 32) (la : Lane) :
    flaggedLane ((packOuts x a).getD l { val := 0, rng := 0 }) true la = { la with
      fflags := raiseFlags la.fflags (packFlags x a l), rng := (Claims.packElemOf a x (2 * l + 1)).2.2
      reported := (flaggedLane ((packOuts x a).getD l { val := 0, rng := 0 }) true la).reported } := by
  obtain ⟨hfl, hrng, -⟩ := packOuts_getD (x := x) (a := a) hl
  generalize (packOuts x a).getD l { val := 0, rng := 0 } = o at hfl hrng ⊢
  rw [← hfl, ← hrng]
  rfl

/-- Settles O12: lane by lane, what `packOuts` computes is the two elements of R118, and a byte of the register is the
one that the block's layout puts there. -/
theorem packResult : Obligations.PackResult := by
  intro x w s hi hok a fl
  refine ⟨fun hidle => (exec_cvtbPack x s).trans (onWarp_ok hi ?_), fun hact hcalm => ?_⟩
  · rw [packVec, issued_warp, Warp.anyActive, show (s.atIssue (.cvtbPack x) w).active x.g = 0 from hidle]
    rfl
  · obtain ⟨b, hexec, hframe, hv, hlane⟩ :=
      cvtbPack_completes hi (pack_nowb hok) hact (hcalm.imp_right vecFault_packOuts)
    refine ⟨_, hexec, onlyWarp_issued s _ w b, ?_⟩
    rw [State.warp_setWarp_same]
    refine ⟨hframe, fun n l hl hn => by rw [hv n l hl, if_neg hn], fun o ho => ?_, fun l hl => ?_⟩
    · obtain ⟨-, -, hbyte⟩ := packOuts_getD (x := x) (a := s.atIssue (.cvtbPack x) w) (l := o / 8) (by omega)
      rw [hv x.d (o / 8) (by omega), if_pos rfl, hbyte (o % 8) (by omega), Nat.div_add_mod]
    · rw [hlane l hl]
      exact flaggedLane_packOuts hl _

/-! ## SCAN and REDUCE (R187, R188) -/

section
theorem exec_scan (x : Alu) (s : State) : exec (.scan x) s = onWarp (.scan x) (fun w s =>
    finishVec x false (scanRun (s.warp w) x).2 w s) s := rfl

theorem exec_reduce (x : Alu) (s : State) : exec (.reduce x) s = onWarp (.reduce x) (reduceBody x) s := rfl

/-- Elements of a lane (R187). -/
def scanCount (x : Alu) : Nat := 64 / scanWidth x

theorem scanCount_pos {x : Alu} (h : x.fmt < 8) : 0 < scanCount x := by
  have hall : ∀ fmt, fmt < 8 → 0 < 64 / floatWidth fmt ∧ 0 < 64 / intWidth fmt := by decide
  unfold scanCount scanWidth
  split
  · exact (hall x.fmt h).1
  · exact (hall x.fmt h).2

/-- acc before element `k` of lane `l`. -/
def scanAcc (a : Warp) (x : Alu) (l k : Nat) : Option Nat := (Claims.scanTo a x (scanCount x * l + k)).1

/-- The flags that a lane has raised before its element `k`, and its generator there. -/
def scanHere (a : Warp) (x : Alu) (l k : Nat) : Flags × BitVec 32 :=
  if k = 0 then ({}, (a.lane l).rng) else (Claims.scanTo a x (scanCount x * l + k)).2

/-- What SCAN puts into element `k` of lane `l`: acc before the element, or after it. -/
def scanPrefix (x : Alu) (a : Warp) (l k : Nat) : Nat :=
  (Claims.scanTo a x (scanCount x * l + k + if bit x.cNum 5 then 0 else 1)).1.getD (scanId x)

/-- The loop's step at an element (R188), from acc and from the flags and the generator of the lane so far. -/
def scanNext (a : Warp) (x : Alu) (l k : Nat) (acc : Option Nat) (here : Flags × BitVec 32) :
    Option Nat × Flags × BitVec 32 :=
  if a.enabled x.g x.vx.m l k && !a.isHelper l then
    let p := subOf (a.opndV x.a l) (scanWidth x) k
    let e := match acc with
      | none => scanFirst x p here.2
      | some v => scanStep x v p (a.lane l).fflags here.2
    (some e.val, here.1.or e.fl, e.rng)
  else (acc, here)

/-- An element of `scanLane`: the loop's step, and the scan's output through Merge. -/
def scanElem (a : Warp) (x : Alu) (l : Nat) (c : Option Nat × Nat × Flags × BitVec 32) (k : Nat) :
    Option Nat × Nat × Flags × BitVec 32 :=
  let n := scanNext a x l k c.1 c.2.2
  let out := if bit x.cNum 5 then c.1.getD (scanId x) else n.1.getD (scanId x)
  (n.1, if a.enabled x.g x.vx.m l k then putBits c.2.1 (scanWidth x * k) (scanWidth x) out
    else if x.vx.z then putBits c.2.1 (scanWidth x * k) (scanWidth x) 0 else c.2.1, n.2)

variable {a : Warp} {x : Alu}

theorem scanAcc_end : scanAcc a x 32 0 = (Claims.scanTo a x (32 * (64 / scanWidth x))).1 := by
  rw [scanAcc, scanCount, Nat.add_zero, Nat.mul_comm]

theorem scanPrefix_exclusive (l k : Nat) (h : bit x.cNum 5 = true) :
    scanPrefix x a l k = (scanAcc a x l k).getD (scanId x) := by
  rw [scanPrefix, scanAcc, if_pos h, Nat.add_zero]

theorem scanPrefix_inclusive (l k : Nat) (h : ¬ bit x.cNum 5 = true) :
    scanPrefix x a l k = (scanAcc a x l (k + 1)).getD (scanId x) := by
  rw [scanPrefix, scanAcc, if_neg h, Nat.add_assoc]

theorem scanLane_fold (acc : Option Nat) (l : Nat) : scanLane a x (scanWidth x) acc l =
    let r := (List.range (scanCount x)).foldl (scanElem a x l) (acc, (a.rdV x.d l).toNat, {}, (a.lane l).rng)
    (r.1, { val := BitVec.ofNat 64 r.2.1, fl := r.2.2.1, rng := r.2.2.2 }) := by
  unfold scanLane scanCount
  refine congrArg (fun r : Option Nat × Nat × Flags × BitVec 32 =>
    (r.1, ({ val := BitVec.ofNat 64 r.2.1, fl := r.2.2.1, rng := r.2.2.2 } : LaneOut))) ?_
  refine List.foldl_ext _ _ _ (fun c k _ => ?_)
  obtain ⟨acc, v, fl, rg⟩ := c
  unfold scanElem scanNext
  generalize a.enabled x.g x.vx.m l k = en
  generalize a.isHelper l = helper
  cases en <;> cases helper <;> rfl

theorem scanState_succ (l k : Nat) :
    (scanAcc a x l (k + 1), scanHere a x l (k + 1)) = Claims.scanTo a x (scanCount x * l + k + 1) := by
  rw [scanAcc, scanHere, if_neg k.succ_ne_zero, Prod.mk.eta, Nat.add_assoc]

theorem scanTo_succ {l k : Nat} (hk : k < scanCount x) :
    Claims.scanTo a x (scanCount x * l + k + 1) = scanNext a x l k (scanAcc a x l k) (scanHere a x l k) := by
  have hdiv : (scanCount x * l + k) / scanCount x = l := by
    rw [Nat.mul_add_div (Nat.zero_lt_of_lt hk), Nat.div_eq_of_lt hk, Nat.add_zero]
  have hmod : (scanCount x * l + k) % scanCount x = k := by rw [Nat.mul_add_mod, Nat.mod_eq_of_lt hk]
  unfold scanCount at hdiv hmod
  unfold scanAcc scanHere scanNext scanCount
  rw [Claims.scanTo]
  simp only [hdiv, hmod] <;> rfl

/-- A lane's elements are those of the loop, and its register is the prefixes through Merge. -/
theorem scanElem_fold {l m : Nat} (hm : m ≤ scanCount x) :
    (List.range m).foldl (scanElem a x l) (scanAcc a x l 0, (a.rdV x.d l).toNat, {}, (a.lane l).rng) =
      (scanAcc a x l m, (laneAcc a x.g x.vx (scanWidth x) id (pickElem (scanPrefix x) a) (a.rdV x.d l) l m).1,
        scanHere a x l m) := by
  induction m with
  | zero => rw [laneAcc_zero, scanHere, if_pos rfl, List.range_zero, List.foldl_nil]
  | succ m ih =>
    have hnext : scanNext a x l m (scanAcc a x l m) (scanHere a x l m) =
        (scanAcc a x l (m + 1), scanHere a x l (m + 1)) := by
      rw [← scanTo_succ hm, scanState_succ]
    rw [foldl_range_succ, ih (by omega), laneAcc_succ]
    have hout : (if bit x.cNum 5 then (scanAcc a x l m).getD (scanId x) else (scanAcc a x l (m + 1)).getD (scanId x)) =
        scanPrefix x a l m := by
      split
      · rw [scanPrefix_exclusive l m ‹_›]
      · rw [scanPrefix_inclusive l m ‹_›]
    generalize laneAcc a x.g x.vx (scanWidth x) id (pickElem (scanPrefix x) a) (a.rdV x.d l) l m = c
    unfold scanElem laneStep pickElem
    rw [hnext]
    simp only [hout, id]
    generalize a.enabled x.g x.vx.m l m = en
    cases en <;> cases x.vx.z <;> rfl

/-- A lane of SCAN or REDUCE once the loop has passed it. -/
def scanOut (a : Warp) (x : Alu) (l : Nat) : LaneOut :=
  { val := BitVec.ofNat 64
      (laneAcc a x.g x.vx (scanWidth x) id (pickElem (scanPrefix x) a) (a.rdV x.d l) l (scanCount x)).1
    fl := (Claims.scanTo a x (scanCount x * (l + 1))).2.1, rng := (Claims.scanTo a x (scanCount x * (l + 1))).2.2 }

theorem scanLane_eq (hf : x.fmt < 8) (l : Nat) :
    scanLane a x (scanWidth x) (scanAcc a x l 0) l = (scanAcc a x (l + 1) 0, scanOut a x l) := by
  have hhere : scanHere a x l (scanCount x) = (Claims.scanTo a x (scanCount x * (l + 1))).2 :=
    if_neg (scanCount_pos hf).ne'
  have hacc : scanAcc a x l (scanCount x) = scanAcc a x (l + 1) 0 := rfl
  rw [scanLane_fold, scanElem_fold le_rfl, hhere, hacc]
  rfl

/-- The loop over all lanes. -/
theorem scanRun_eq (hf : x.fmt < 8) : scanRun a x = (scanAcc a x 32 0, (List.range 32).map (scanOut a x)) := by
  have hfold : ∀ m, (List.range m).foldl (fun (c : Option Nat × List LaneOut) l =>
      ((scanLane a x (scanWidth x) c.1 l).1, c.2 ++ [(scanLane a x (scanWidth x) c.1 l).2])) (none, []) =
        (scanAcc a x m 0, (List.range m).map (scanOut a x)) := by
    intro m
    induction m with
    | zero => rfl
    | succ m ih => rw [foldl_range_succ, ih, scanLane_eq hf, List.range_succ, List.map_append]; rfl
  exact hfold 32

theorem scanRun_getD (hf : x.fmt < 8) {l : Nat} (hl : l < 32) :
    (scanRun a x).2.getD l { val := 0, rng := 0 } = scanOut a x l := by
  rw [scanRun_eq hf]
  simp [hl]

theorem scanRun_length (hf : x.fmt < 8) : (scanRun a x).2.length = 32 := by rw [scanRun_eq hf]; simp

/-- A loop that raises no fault (R89, R105). -/
theorem vecFault_scanRun {s : State} {w : Nat} (hf : x.fmt < 8) (h : Claims.ScanCalm s w a x) :
    s.defers w = true ∨ vecFault a (scanRun a x).2 = none := by
  refine h.imp_right (fun hc => vecFault_none _ _ (fun l hl hh o ho => ?_))
  have hget := scanRun_getD (a := a) hf hl
  rw [List.getD_eq_getElem?_getD, ho, Option.getD_some] at hget
  rw [hget]
  exact hc l hl hh

/-- The prefixes of a lane through Merge. -/
theorem subOf_scanOut (l : Nat) {k : Nat} (hk : k < scanCount x) :
    subOf (scanOut a x l).val (scanWidth x) k =
      if a.enabled x.g x.vx.m l k then scanPrefix x a l k % 2 ^ scanWidth x
      else if x.vx.z then 0 else subOf (a.rdV x.d l) (scanWidth x) k := by
  have hlt := laneAcc_lt (wp := a) (g := x.g) (vx := x.vx) (f := pickElem (scanPrefix x) a)
    (old := a.rdV x.d l) (l := l) (scanCount x) (fits_id (scanWidth x))
  unfold subOf scanOut
  rw [BitVec.toNat_ofNat, Nat.mod_eq_of_lt hlt]
  exact laneAcc_elem (scanCount x) k hk (fun _ _ _ _ e => e)

theorem scanCalm_issued {s : State} {w : Nat} {a : Warp} {x : Alu} (i : Instr) (h : Claims.ScanCalm s w a x) :
    Claims.ScanCalm (s.issued i w) w a x := by
  unfold Claims.ScanCalm
  rw [defers_issued]
  exact h

theorem scan_completes {w : Nat} {s : State} (hi : Issues w (.scan x) s) (hnowb : x.nowb = false) (hf : x.fmt < 8)
    (hcalm : Claims.ScanCalm s w (s.atIssue (.scan x) w) x) :
    ∃ b, exec (.scan x) s = .next ((s.issued (.scan x) w).setWarp w b) ∧
      b = { s.atIssue (.scan x) w with v := b.v, lanes := b.lanes } ∧
      (∀ r l, l < 32 → b.rdV r l =
        if r = x.d then (scanOut (s.atIssue (.scan x) w) x l).val else (s.atIssue (.scan x) w).rdV r l) ∧
      ∀ l, l < 32 → b.lane l =
        flaggedLane (scanOut (s.atIssue (.scan x) w) x l) true ((s.atIssue (.scan x) w).lane l) := by
  obtain ⟨b, hend, hframe, hv, hlane, hlatch⟩ := finishVec_ok x false (scanRun (s.atIssue (.scan x) w) x).2 w
    (s.issued (.scan x) w) (scanRun_length hf) (vecFault_scanRun hf (scanCalm_issued _ hcalm))
  rw [issued_warp] at hframe hv hlane hlatch
  refine ⟨b, (exec_scan x s).trans (onWarp_ok hi hend), ?_, fun r l hl => ?_, fun l hl => ?_⟩
  · rw [hframe]; simp [hlatch]
  · rw [hv r l hl, scanRun_getD hf hl]; simp [hnowb]
  · rw [hlane l, if_pos hl, scanRun_getD hf hl]

/-- A lane with the flags and the generator that the loop leaves it. -/
theorem scanLanes_of_flagged {b : Warp}
    (h : ∀ l, l < 32 → b.lane l = flaggedLane (scanOut a x l) true (a.lane l)) : Claims.ScanLanes a b x := by
  intro l hl
  rw [h l hl]
  unfold flaggedLane scanOut scanCount
  simp only [if_true]

/-- A warp once REDUCE has run its loop (R188). -/
def Warp.scanReduced (a : Warp) (x : Alu) : Warp :=
  (a.takeFlags (scanRun a x).2 true).wrS x.d (reduceWord x (scanRun a x).1)

theorem reduceBody_ok {s : State} {w : Nat} (hf : x.fmt < 8) (hact : (s.warp w).active x.g ≠ 0)
    (hcalm : Claims.ScanCalm s w (s.warp w) x) :
    reduceBody x w s = .ok (s.setWarp w ((s.warp w).scanReduced x)) := by
  have hnone : (if s.defers w then none else vecFault (s.warp w) (scanRun (s.warp w) x).2) = none := by
    rcases vecFault_scanRun hf hcalm with h | h <;> simp [h]
  unfold reduceBody uniform Warp.anyActive
  rw [if_pos (by simpa using hact)]
  simp only [hnone]
  rfl

theorem wrS_lanes (a : Warp) (ls : Table Lane) (n : Nat) (v : Word) :
    ({ a with lanes := ls } : Warp).wrS n v = { a.wrS n v with lanes := ls } := by
  unfold Warp.wrS
  split <;> rfl

theorem scanReduced_eq (a : Warp) (x : Alu) (hf : x.fmt < 8) : ∃ ls : Table Lane,
    (∀ l, l < 32 → ls.get {} l = flaggedLane (scanOut a x l) true (a.lane l)) ∧
    a.scanReduced x = { a.wrS x.d (reduceWord x (scanAcc a x 32 0)) with lanes := ls } := by
  refine ⟨(a.takeFlags (scanRun a x).2 true).lanes, fun l hl => ?_, ?_⟩
  · have h := lane_takeFlags a (scanRun a x).2 true (scanRun_length hf) l
    rw [if_pos hl, scanRun_getD hf hl] at h
    exact h
  · have hacc : (scanRun a x).1 = scanAcc a x 32 0 := by rw [scanRun_eq hf]
    rw [Warp.scanReduced, hacc, takeFlags_eq a (scanRun a x).2 true (scanRun_length hf), wrS_lanes]

/-- What REDUCE leaves: the lanes' flags and generators, and the final acc in s[d]. -/
theorem scanReduced_spec (a : Warp) (x : Alu) (hf : x.fmt < 8) :
    a.scanReduced x = { a with s := (a.scanReduced x).s, lanes := (a.scanReduced x).lanes } ∧
    Claims.ScanLanes a (a.scanReduced x) x ∧
    ∀ r, (a.scanReduced x).rdS r = if r = x.d ∧ r ≠ 0 then reduceWord x (scanAcc a x 32 0) else a.rdS r := by
  obtain ⟨ls, hlane, he⟩ := scanReduced_eq a x hf
  rw [he]
  refine ⟨by rw [wrS_eq], scanLanes_of_flagged hlane, fun r => ?_⟩
  refine (rdS_wrS a x.d r (reduceWord x (scanAcc a x 32 0))).trans ?_
  by_cases hr : r = x.d <;> simp [hr]

/-- Settles O14: the fold over the elements of a lane, lane after lane, is the ascending loop of R188, and each register
is the loop's prefixes through Merge. -/
theorem scanReduceResult : Obligations.ScanReduceResult := by
  refine ⟨?_, ?_⟩
  · intro x w s hi hnowb hf a n hcalm
    obtain ⟨b, hexec, hframe, hv, hlane⟩ := scan_completes hi hnowb hf hcalm
    refine ⟨_, hexec, onlyWarp_issued s _ w b, ?_⟩
    rw [State.warp_setWarp_same]
    refine ⟨hframe, scanLanes_of_flagged hlane, fun r l hl hr => by rw [hv r l hl, if_neg hr], fun l k hl hk => ?_⟩
    rw [hv x.d l hl, if_pos rfl]
    exact subOf_scanOut l hk
  · intro x w s hi hf a hact hcalm
    have hend := reduceBody_ok hf (s := s.issued (.reduce x) w) (w := w) hact (scanCalm_issued _ hcalm)
    refine ⟨_, (exec_reduce x s).trans (onWarp_ok hi hend), onlyWarp_issued s _ w _, ?_⟩
    rw [State.warp_setWarp_same, issued_warp]
    obtain ⟨hframe, hlane, hs⟩ := scanReduced_spec a x hf
    rw [scanAcc_end] at hs
    exact ⟨hframe, hlane, hs⟩

end

/-! ## System registers (R419, R421, R435, R436) -/

section
theorem exec_sysrd (x : Sys) (s : State) : exec (.sysrd x) s =
    onWarp (.sysrd x) (uniform x.g (fun w s => .ok (s.setWarp w ((s.warp w).wrS x.d (s.sysReg w x.sys))))) s := rfl
theorem exec_srd (x : Sys) (s : State) : exec (.srd x) s = onWarp (.srd x) (srdWarp x) s := rfl

/-- A lane whose flags SYS_FFLAGS writes (R103, R417). -/
def sysFflagsLane (x : Sys) (a : Warp) (l : Nat) (la : Lane) : Lane :=
  { la with
    fflags := writeFflags la.fflags ((a.rdV x.a l).setWidth 32), reported := reportBits ((a.rdV x.a l).setWidth 32) }

/-- A lane whose generator SYS_RNG writes (R102). -/
def sysRngLane (x : Sys) (a : Warp) (l : Nat) (la : Lane) : Lane :=
  { la with rng := if (a.rdV x.a l).setWidth 32 = (0 : BitVec 32) then 1 else (a.rdV x.a l).setWidth 32 }

theorem exec_syswrFflags (x : Sys) (s : State) : exec (.syswrFflags x) s = onWarp (.syswrFflags x) (fun w s =>
    .ok (s.setWarp w ((s.warp w).mapLanes ((s.warp w).activeReal x.g) (sysFflagsLane x (s.warp w))))) s := rfl

theorem exec_syswrRng (x : Sys) (s : State) : exec (.syswrRng x) s = onWarp (.syswrRng x) (fun w s =>
    .ok (s.setWarp w ((s.warp w).mapLanes ((s.warp w).activeReal x.g) (sysRngLane x (s.warp w))))) s := rfl

theorem exec_syswrResumepc (x : Sys) (s : State) : exec (.syswrResumepc x) s =
    onWarp (.syswrResumepc x) (uniformReal x.g (resumepcWarp x)) s := rfl
theorem exec_syswrTlbinv (x : Sys) (s : State) : exec (.syswrTlbinv x) s =
    onWarp (.syswrTlbinv x) (uniformReal x.g (tlbinvWarp x)) s := rfl

variable {s : State} {w : Nat}

/-- A warp-uniform effect on a scalar register, with some thread Active (R26). -/
theorem uniform_wrS {i : Instr} {body : Nat → State → Res} {g : Guard} {d : Nat} {v : Word}
    (he : exec i s = onWarp i body s)
    (hb : (s.atIssue i w).active g ≠ 0 →
      body w (s.issued i w) = .ok ((s.issued i w).setWarp w ((s.atIssue i w).wrS d v)))
    (h : Issues w i s) (ha : (s.atIssue i w).active g ≠ 0) :
    ∃ t, exec i s = .next t ∧ OnlyWarp w s t ∧ t.warp w = { s.atIssue i w with s := (t.warp w).s } ∧
        ∀ n, (t.warp w).rdS n = if n = d ∧ n ≠ 0 then v else (s.atIssue i w).rdS n := by
  refine ⟨_, he.trans (onWarp_ok h (hb ha)), onlyWarp_issued s i w _, ?_, fun n => ?_⟩
  · rw [State.warp_setWarp_same]; exact wrS_eq _ _ _
  · rw [State.warp_setWarp_same, rdS_wrS]
    by_cases hn : n = d <;> simp [hn]

theorem uniform_active {g : Guard} (body : Nat → State → Res) (h : (s.warp w).active g ≠ 0) :
    uniform g body w s = body w s := by
  unfold uniform Warp.anyActive
  rw [if_pos (bne_iff_ne.mpr h)]

theorem uniformReal_active {g : Guard} (body : Nat → State → Res) (h : (s.warp w).activeReal g ≠ 0) :
    uniformReal g body w s = body w s := by
  unfold uniformReal
  rw [if_pos (bne_iff_ne.mpr h)]

/-- What an issue leaves of a warp that system registers and special values read. -/
theorem atIssue_system (i : Instr) (w : Nat) :
    (s.atIssue i w).word0 = (s.warp w).word0 ∧ (s.atIssue i w).block = (s.warp w).block ∧
    (s.atIssue i w).index = (s.warp w).index ∧
    (s.atIssue i w).reportPc = (s.warp w).reportPc ∧ (s.atIssue i w).resumePc = (s.warp w).resumePc ∧
    (s.atIssue i w).mode = (s.warp w).mode ∧ (s.atIssue i w).deadline = (s.warp w).deadline := by
  rw [atIssue_eq]
  exact ⟨rfl, rfl, rfl, rfl, rfl, rfl, rfl⟩

theorem sysReg_issued (i : Instr) (w n : Nat) : (s.issued i w).sysReg w n = s.sysReg w n := by
  obtain ⟨h0, hb, hi, hr, hs, hm, hd⟩ := atIssue_system (s := s) i w
  unfold State.sysReg State.asidOf
  simp only [issued_warp, h0, hb, hi, hr, hs, hm, hd]
  rw [issued_eq]
  rfl

theorem sysReg_value (w n : Nat) : Claims.SysValue s w n (s.sysReg w n) := by
  refine ⟨?_, ?_, ?_, ?_, ?_, ?_, ?_⟩ <;> rintro rfl
  iterate 2 rfl
  · show BitVec.ofNat 64 ((s.block (s.warp w).block).saveVa + (0x1000 + 0x4000 * (s.warp w).index)) = _
    rw [Nat.add_assoc]
  iterate 4 rfl

theorem scalarValue_issued (i : Instr) (w n : Nat) : (s.issued i w).scalarValue w n = s.scalarValue w n := by
  obtain ⟨-, hb, hi, -, -, -, -⟩ := atIssue_system (s := s) i w
  unfold State.scalarValue
  simp only [issued_warp, hb, hi]
  rw [issued_eq]
  rfl

theorem scalarValue_value (w n : Nat) : Claims.WarpSpecial s w n (BitVec.ofNat 64 (s.scalarValue w n)) := by
  refine ⟨?_, ?_, fun hc => ⟨?_, ?_, ?_⟩, fun c hc => ⟨?_, ?_⟩, ?_, ?_, ?_, ?_⟩ <;> rintro rfl
  case refine_3 | refine_4 | refine_5 | refine_6 | refine_7 => simp [State.scalarValue, hc]
  all_goals rfl

theorem srdPerLane_iff (n : Nat) : srdPerLane n = true ↔ n ∈ [0, 1, 0x0B, 0x0C] := by
  simp [srdPerLane, or_assoc]

theorem laneValue_value {a : Warp} {n l : Nat} : Claims.LaneSpecial a n l (BitVec.ofNat 64 (a.laneValue n l)) := by
  refine ⟨?_, ?_, ?_, ?_⟩ <;> rintro rfl
  · rfl
  · rfl
  · exact BitVec.ofNat_toNat _ _
  · exact BitVec.ofNat_toNat _ _

/-- An instruction whose effect is to change the lanes of a mask. -/
theorem exec_mapLanes {i : Instr} {g : Guard} {f : Warp → Nat → Lane → Lane}
    (he : ∀ s, exec i s = onWarp i (fun w s =>
      .ok (s.setWarp w ((s.warp w).mapLanes ((s.warp w).activeReal g) (f (s.warp w))))) s)
    (h : Issues w i s) :
    ∃ t, exec i s = .next t ∧ OnlyWarp w s t ∧ t.warp w = { s.atIssue i w with lanes := (t.warp w).lanes } ∧
      ∀ l, l < 32 → (t.warp w).lane l =
        if bit ((s.atIssue i w).activeReal g) l then f (s.atIssue i w) l ((s.atIssue i w).lane l)
        else (s.atIssue i w).lane l := by
  obtain ⟨t, ht, ho, hw⟩ := exec_setsWarp he h
  rw [issued_warp] at hw
  refine ⟨t, ht, ho, ?_, fun l hl => ?_⟩
  · rw [hw]
    exact mapLanes_eq _ _ _
  · rw [hw, lane_mapLanes]
    simp [hl]

theorem pcOk_of_lt {v : Nat} (h4 : v % 4 = 0) (hv : v < 2 ^ 57) : pcOk v = true := by
  have hhigh : bits v 57 7 = 0 := by unfold bits; rw [Nat.div_eq_of_lt hv, Nat.zero_mod]
  simp [pcOk, h4, hhigh]

theorem pcOk_of_misaligned {v : Nat} (h4 : v % 4 ≠ 0) : pcOk v = false := by simp [pcOk, h4]

/-! ### SYS_TLBINV -/

/-- The translations that a value written to SYS_TLBINV names (R421). -/
def tlbNamed (asid v : Nat) (e : TlbEntry) : Prop :=
  (bits v 62 2 = 0 ∧ (e.asid = asid ∨ bit e.pte 7 = true) ∧ bits v 16 41 * 2 ^ 16 / 2 ^ e.size = e.va) ∨
    (bits v 62 2 = 1 ∧ e.asid = asid ∧ bit e.pte 7 = false)

/-- A translation that an invalidation of a legal value takes. -/
def tlbTakes (asid v : Nat) (e : TlbEntry) : Bool :=
  if bits v 62 2 = 0 then (e.asid == asid || bit e.pte 7) && bits v 16 41 * 2 ^ 16 / 2 ^ e.size == e.va
  else e.asid == asid && !bit e.pte 7

theorem tlbTakes_iff {asid v : Nat} (hv : bits v 62 2 < 2) (e : TlbEntry) :
    tlbTakes asid v e = true ↔ tlbNamed asid v e := by
  unfold tlbTakes tlbNamed
  split
  · simp [*]
  · have h1 : bits v 62 2 = 1 := by omega
    simp [h1]

theorem tlbinv_tlbs (asid v : Nat) : (s.tlbinv asid v).tlbs = ⟨(s.tlbs.cells.map (fun (c : Nat × List TlbEntry) =>
    (c.1, c.2.filter (fun e => !tlbTakes asid v e)))).filter (fun c => c.2 != [])⟩ := rfl

/-- An invalidation removes what it names and nothing else (R421). -/
theorem tlbinv_removes {asid v : Nat} (hv : bits v 62 2 < 2) {t : State} (ht : t.tlbs = (s.tlbinv asid v).tlbs) :
    (∀ c ∈ t.tlbs.cells, ∀ e ∈ c.2, ¬ tlbNamed asid v e) ∧
    ∀ c ∈ s.tlbs.cells, ∀ e ∈ c.2, ¬ tlbNamed asid v e → ∃ c' ∈ t.tlbs.cells, c'.1 = c.1 ∧ e ∈ c'.2 := by
  rw [ht, tlbinv_tlbs]
  simp only [← tlbTakes_iff hv]
  refine ⟨fun c hc e he => ?_, fun c hc e he hn => ⟨(c.1, c.2.filter (fun e => !tlbTakes asid v e)), ?_, rfl, ?_⟩⟩
  · obtain ⟨c0, -, rfl⟩ := List.mem_map.mp (List.mem_filter.mp hc).1
    simpa using (List.mem_filter.mp he).2
  · have hmem : e ∈ c.2.filter (fun e => !tlbTakes asid v e) := List.mem_filter.mpr ⟨he, by simpa using hn⟩
    refine List.mem_filter.mpr ⟨List.mem_map.mpr ⟨c, hc, rfl⟩, ?_⟩
    exact bne_iff_ne.mpr (List.ne_nil_of_mem hmem)
  · exact List.mem_filter.mpr ⟨he, by simpa using hn⟩

theorem foldl_tlbs {α : Type} {f : State → α → State} (hf : ∀ s x, (f s x).tlbs = s.tlbs) (l : List α) (s : State) :
    (l.foldl f s).tlbs = s.tlbs := by
  induction l generalizing s with
  | nil => rfl
  | cons x l ih => rw [List.foldl_cons, ih, hf]

@[simp] theorem releaseFor_tlbs (core w : Nat) (hset : Bool) (after lanes : Nat) :
    (s.releaseFor core w hset after lanes).tlbs = s.tlbs := by
  unfold State.releaseFor
  rw [State.releaseWhere_frame]

@[simp] theorem releaseFor_ops (core w : Nat) (hset : Bool) (after lanes : Nat) :
    (s.releaseFor core w hset after lanes).ops = s.ops := by
  unfold State.releaseFor
  rw [State.releaseWhere_frame]

@[simp] theorem remember_tlbs (x : Past) : (s.remember x).tlbs = s.tlbs := by rw [State.remember_frame]

@[simp] theorem forget_tlbs (w : Nat) (p : Place) (n : Nat) : (s.forget w p n).tlbs = s.tlbs := rfl

@[simp] theorem writeScratch_tlbs (b off : Nat) (bs : List Byte) : (s.writeScratch b off bs).tlbs = s.tlbs := by
  unfold State.writeScratch
  dsimp only
  split
  · rfl
  · split
    · rw [State.hardWrite_tlbs]
    · rw [State.setBlock_tlbs, remember_tlbs]

@[simp] theorem setTag_tlbs (b off : Nat) (v : Bool) : (s.setTag b off v).tlbs = s.tlbs := by
  unfold State.setTag
  dsimp only
  split
  · rfl
  · split
    · rw [State.hardWrite_tlbs]
    · rw [State.setBlock_tlbs]

@[simp] theorem report_tlbs (w mask pc : Nat) : (s.report w mask pc).tlbs = s.tlbs := by
  unfold State.report
  dsimp only
  split
  · rfl
  · split
    · rfl
    · rw [State.hardWrite_tlbs, State.setWarp_tlbs]

@[simp] theorem tagDo_tlbs (i : Instr) (b off data : Nat) : (s.tagDo i b off data).2.tlbs = s.tlbs := by
  unfold State.tagDo
  dsimp only
  split <;> simp

@[simp] theorem faultMcc_tlbs (k cause pc : Nat) : (s.faultMcc k cause pc).tlbs = s.tlbs := by
  unfold State.faultMcc
  simp

@[simp] theorem serveMccs_tlbs (b off n : Nat) : (s.serveMccs b off n).tlbs = s.tlbs := by
  refine foldl_tlbs (fun s c => ?_) _ s
  dsimp only
  split
  · split
    · rw [faultMcc_tlbs]
    · split <;> rfl
  · rfl

@[simp] theorem serveWords_tlbs (b off n : Nat) : (s.serveWords b off n).tlbs = s.tlbs := by
  refine (foldl_tlbs (fun s e => ?_) _ _).trans (serveMccs_tlbs b off n)
  dsimp only
  split
  · rfl
  · split
    · split
      · rw [State.setWarp_tlbs]
      · split
        · rw [report_tlbs, State.setWarp_tlbs]
        · rfl
    · rfl

@[simp] theorem serveTag_tlbs (fuel b off : Nat) (s : State) : (s.serveTag fuel b off).tlbs = s.tlbs := by
  induction fuel generalizing s with
  | zero => rfl
  | succ fuel ih =>
    unfold State.serveTag
    dsimp only
    split
    · rfl
    · rw [ih]
      simp

@[simp] theorem waitRelease_tlbs (w l : Nat) (x : Wait) : (s.waitRelease w l x).tlbs = s.tlbs := by
  unfold State.waitRelease
  dsimp only
  split
  · rw [releaseFor_tlbs]
  · rfl

@[simp] theorem joinWaits_tlbs (w : Nat) : (s.joinWaits w).tlbs = s.tlbs := by
  refine foldl_tlbs (fun s l => ?_) _ s
  dsimp only
  split
  · split
    · split <;> simp
    · simp
  · rfl

@[simp] theorem exitLanes_tlbs (w mask pc : Nat) : (s.exitLanes w mask pc).tlbs = s.tlbs := by
  unfold State.exitLanes
  exact (State.setWarp_tlbs _ _ _).trans (report_tlbs _ _ _)

@[simp] theorem drain_tlbs (w : Nat) : (s.drain w).tlbs = s.tlbs := by
  unfold State.drain
  dsimp only
  split
  · rfl
  · rw [exitLanes_tlbs]

@[simp] theorem reportHalt_tlbs (w : Nat) : (s.reportHalt w).tlbs = s.tlbs := by
  unfold State.reportHalt
  simp

@[simp] theorem settleHalt_tlbs (w : Nat) : (s.settleHalt w).tlbs = s.tlbs := by
  unfold State.settleHalt
  dsimp only
  split
  · rw [reportHalt_tlbs]
    split <;> simp
  · rfl

@[simp] theorem writeSlots_tlbs (w : Nat) : (s.writeSlots w).tlbs = s.tlbs := by
  unfold State.writeSlots
  dsimp only
  split <;> simp

@[simp] theorem echoRegs_tlbs (w : Nat) (regs : List RegRef) : (s.echoRegs w regs).tlbs = s.tlbs := by
  refine foldl_tlbs (fun s r => ?_) _ s
  dsimp only
  split
  · split <;> split <;> simp
  · split <;> simp
  · rfl

@[simp] theorem dropOp_tlbs (k : Nat) : (s.dropOp k).tlbs = s.tlbs := by
  unfold State.dropOp
  dsimp only
  split
  · rfl
  · rw [settleHalt_tlbs, joinWaits_tlbs, drain_tlbs]
    split <;> simp

@[simp] theorem finishOp_tlbs (k : Nat) : (s.finishOp k).tlbs = s.tlbs := by
  unfold State.finishOp
  dsimp only
  split
  · rfl
  · rw [dropOp_tlbs, echoRegs_tlbs, State.setWarp_tlbs]

@[simp] theorem countParts_tlbs (k : Nat) : (s.countParts k).tlbs = s.tlbs := by
  unfold State.countParts
  dsimp only
  split
  · rfl
  · rw [drain_tlbs, State.setWarp_tlbs, State.setOp_tlbs]

@[simp] theorem finishIfDone_tlbs (k : Nat) : (s.finishIfDone k).tlbs = s.tlbs := by
  unfold State.finishIfDone
  dsimp only
  split
  · split <;> simp
  · rfl

theorem tlbinv_tlbs_congr {s t : State} (asid v : Nat) (h : s.tlbs = t.tlbs) :
    (s.tlbinv asid v).tlbs = (t.tlbinv asid v).tlbs := by
  rw [tlbinv_tlbs, tlbinv_tlbs, h]

theorem launchOp_tlbs (o : Op) : (s.launchOp o).1.tlbs = s.tlbs := by
  unfold State.launchOp
  dsimp only
  unfold State.opRelease
  rw [releaseFor_tlbs]
  rfl

theorem launchOp_ops (o : Op) : (s.launchOp o).1.ops = s.ops.set {} s.nextOp o := by
  unfold State.launchOp
  dsimp only
  unfold State.opRelease
  rw [releaseFor_ops]
  rfl

/-- Nothing of a warp is in flight before an operation that it launches now. -/
theorem earlier_nil {t : State} {w k : Nat} {o : Op} (ht : t.ops = s.ops.set {} k o)
    (h : ∀ c ∈ s.ops.cells, c.2.st = .none ∨ c.2.warp ≠ w) : t.earlier w o.seq = [] := by
  unfold State.earlier
  rw [ht]
  refine List.filter_eq_nil_iff.mpr (fun a ha hp => ?_)
  obtain ⟨c, hc, rfl⟩ := List.mem_map.mp ha
  have hold : c = (k, o) ∨ c ∈ s.ops.cells := by
    unfold Table.set at hc
    split at hc
    · exact Or.inr (Table.mem_erase _ _ _ hc)
    · exact (Table.mem_insert _ _ _ _ hc).imp_right (Table.mem_erase _ _ _)
  rcases hold with rfl | hc
  · simp at hp
  · rcases h c hc with hst | hw
    · simp [hst] at hp
    · simp [hw] at hp

/-- An element that may perform does what its instruction says. -/
theorem performElem_tlbs {k j x : Nat} {e : Elem} (he : (s.op k).elems[j]? = some e) (hd : e.done = false)
    (hf : (s.op k).st = .flying)
    (hr : (s.elemRelease (s.op k)).elemReady (s.op k) ((s.op k).elems.take j) e = true) :
    (s.performElem k j x).tlbs = ((s.elemRelease (s.op k)).doElem (s.op k) e x).2.tlbs := by
  unfold State.performElem
  simp only [he, hd, hf, hr]
  rw [if_neg (by decide), if_pos trivial, State.setOp_tlbs]
  split
  · rfl
  · rw [forget_tlbs]

section
variable {o : Op} {y : Sys} (hi : o.instr = some (.syswrTlbinv y))
include hi

theorem elemRelease_tlbinv : s.elemRelease o =
    (s.releaseFor (s.opCore o) o.warp false 0xFF o.lanes).releaseFor (s.opCore o) o.warp true 0xFF o.lanes := by
  unfold State.elemRelease Op.i
  rw [hi]
  rfl

theorem doElem_tlbinv (e : Elem) (x : Nat) : s.doElem o e x = (0, s.tlbinv o.asid e.data) := by
  unfold State.doElem Op.i
  rw [hi]
  rfl

theorem elemReady_tlbinv {e : Elem} (hp : e.place = .none) (h : s.earlier o.warp o.seq = []) :
    s.elemReady o [] e = true := by
  unfold State.elemReady State.edgesMet State.sameMet State.placeFree Op.i
  rw [h, hi, hp]
  rfl

theorem performOp_tlbinv {k v : Nat} (hk : s.op k = o) (hst : o.st = .flying) (he : o.elems = [{ data := v }])
    (h : s.earlier o.warp o.seq = []) : (s.performOp k (ones 32) [] false).tlbs = (s.tlbinv o.asid v).tlbs := by
  have hr : (s.elemRelease o).tlbs = s.tlbs := by rw [elemRelease_tlbinv hi, releaseFor_tlbs, releaseFor_tlbs]
  have hops : (s.elemRelease o).ops = s.ops := by rw [elemRelease_tlbinv hi, releaseFor_ops, releaseFor_ops]
  have hready : (s.elemRelease o).elemReady o [] { data := v } = true := by
    refine elemReady_tlbinv hi rfl ?_
    unfold State.earlier at h ⊢
    rw [hops, h]
  have helem : (s.performElem k 0 0).tlbs = (s.tlbinv o.asid v).tlbs := by
    subst hk
    rw [performElem_tlbs (e := { data := v }) (by rw [he]; rfl) rfl hst (by rw [he]; exact hready), doElem_tlbinv hi]
    exact tlbinv_tlbs_congr _ _ hr
  have hwhole : o.i.wholeOp = false := by unfold Op.i; rw [hi]; rfl
  have hunit : o.i.asksUnit = false := by unfold Op.i; rw [hi]; rfl
  have hhere : s.performsAt { data := v } false = true := rfl
  unfold State.performOp
  simp only [hk, hst, hwhole, hunit, he]
  rw [if_neg (by decide), if_neg Bool.false_ne_true]
  split <;> simp [List.range_succ, hhere, bit, ones, helem]

end

theorem runOrBlock_tlbinv {o : Op} {y : Sys} {v : Nat} (hi : o.instr = some (.syswrTlbinv y)) (hst : o.st = .flying)
    (he : o.elems = [{ data := v }]) (h : ∀ c ∈ s.ops.cells, c.2.st = .none ∨ c.2.warp ≠ o.warp) :
    (s.runOrBlock o w).tlbs = (s.tlbinv o.asid v).tlbs := by
  have hop : (s.launchOp o).1.op s.nextOp = o := by
    unfold State.op
    rw [launchOp_ops, Table.get_set_same]
  have hperf := performOp_tlbinv hi hop hst he (earlier_nil (launchOp_ops o) h)
  rw [tlbinv_tlbs_congr _ _ (launchOp_tlbs o)] at hperf
  rw [← hperf]
  unfold State.runOrBlock
  dsimp only
  split
  · rfl
  · rw [State.setWarp_tlbs]; rfl

theorem srdWarp_lane {x : Sys} (h : x.sys ∈ [0, 1, 0x0B, 0x0C]) : srdWarp x w s = .ok (s.setWarp w
    ((s.warp w).wrVs x.d ((s.warp w).active x.g) (fun l => BitVec.ofNat 64 ((s.warp w).laneValue x.sys l)))) := by
  unfold srdWarp
  exact if_pos ((srdPerLane_iff _).mpr h)

theorem srdWarp_scalar {x : Sys} (h : x.sys ∉ [0, 1, 0x0B, 0x0C]) (ha : (s.warp w).active x.g ≠ 0) :
    srdWarp x w s = .ok (s.setWarp w ((s.warp w).wrS x.d (BitVec.ofNat 64 (s.scalarValue w x.sys)))) := by
  unfold srdWarp
  rw [if_neg (fun hp => h ((srdPerLane_iff _).mp hp)), Warp.anyActive, if_pos (bne_iff_ne.mpr ha)]

theorem tlbinvOk_iff (v : Nat) : tlbinvOk v = true ↔ bits v 62 2 < 2 ∧ bits v 57 5 = 0 ∧ bits v 0 16 = 0 := by
  simp [tlbinvOk, and_assoc]

theorem tlbinvWarp_legal {x : Sys} (h : tlbinvOk ((s.warp w).rdS x.a).toNat = true) : tlbinvWarp x w s =
    .ok (s.runOrBlock (s.newOp w (.syswrTlbinv x) { scope := .dev } ((s.warp w).activeReal x.g) 0 0
      [{ data := ((s.warp w).rdS x.a).toNat }] []) w) := by
  unfold tlbinvWarp
  simp only [h]
  rfl

theorem tlbinvWarp_illegal {x : Sys} (h : tlbinvOk ((s.warp w).rdS x.a).toNat = false) :
    tlbinvWarp x w s = .trap { cause := 0x022 } s := by
  unfold tlbinvWarp
  simp only [h]
  rfl

theorem resumepcWarp_normal {x : Sys} (h : (s.warp w).mode = .normal) :
    resumepcWarp x w s = .trap { cause := 0x00A } s := by
  unfold resumepcWarp
  rw [if_pos h]

theorem resumepcWarp_misaligned {x : Sys} (h : (s.warp w).mode ≠ .normal) (h4 : ((s.warp w).rdS x.a).toNat % 4 ≠ 0) :
    resumepcWarp x w s = .trap { cause := 0x022 } s := by
  unfold resumepcWarp
  rw [if_neg h, pcOk_of_misaligned h4]
  rfl

theorem resumepcWarp_legal {x : Sys} (h : (s.warp w).mode ≠ .normal) (h4 : ((s.warp w).rdS x.a).toNat % 4 = 0)
    (hlt : ((s.warp w).rdS x.a).toNat < 2 ^ 57) :
    resumepcWarp x w s = .ok (s.setWarp w { s.warp w with resumePc := ((s.warp w).rdS x.a).toNat }) := by
  unfold resumepcWarp
  rw [if_neg h, pcOk_of_lt h4 hlt]
  rfl

/-- SYS_TLBINV of a legal value, with nothing of the warp in flight (R421). -/
theorem tlbinv_completes {x : Sys} (h : Issues w (.syswrTlbinv x) s)
    (hact : (s.atIssue (.syswrTlbinv x) w).activeReal x.g ≠ 0)
    (hok : tlbinvOk ((s.atIssue (.syswrTlbinv x) w).rdS x.a).toNat = true)
    (hidle : ∀ c ∈ s.ops.cells, c.2.st = .none ∨ c.2.warp ≠ w) :
    ∃ t, exec (.syswrTlbinv x) s = .next t ∧ t.tlbs =
      (s.tlbinv (s.job (s.block (s.atIssue (.syswrTlbinv x) w).block).job).asid
        ((s.atIssue (.syswrTlbinv x) w).rdS x.a).toNat).tlbs := by
  refine ⟨_, (exec_syswrTlbinv x s).trans (onWarp_ok h ((uniformReal_active _ hact).trans (tlbinvWarp_legal hok))), ?_⟩
  rw [runOrBlock_tlbinv rfl rfl rfl hidle]
  have e := issued_eq s (.syswrTlbinv x) w
  refine (tlbinv_tlbs_congr _ _ (t := s) (by rw [e]; rfl)).trans ?_
  unfold State.newOp
  dsimp only
  rw [issued_warp]
  rw [e]
  rfl

/-- Settles O27: registers and special values read what an issue keeps, the lanes' writes go through `mapLanes`, and
SYS_TLBINV with nothing earlier in flight performs at once (`runOrBlock_tlbinv`). -/
theorem systemRegisters : Obligations.SystemRegisters := by
  intro w s x
  refine ⟨fun h ha => ?_, fun h hx => ?_, fun h hx ha => ?_, fun h => exec_mapLanes (exec_syswrFflags x) h,
    fun h => exec_mapLanes (exec_syswrRng x) h, ?_, ?_⟩
  · obtain ⟨t, ht⟩ := uniform_wrS (exec_sysrd x s) (fun ha => uniform_active _ ha) h ha
    rw [sysReg_issued] at ht
    obtain ⟨hexec, hrest⟩ := ht
    exact ⟨t, _, hexec, sysReg_value w x.sys, hrest⟩
  · intro a
    refine ⟨_, (exec_srd x s).trans (onWarp_ok h (srdWarp_lane hx)), onlyWarp_issued s _ w _, ?_⟩
    rw [State.warp_setWarp_same, issued_warp]
    have hv := fun n l hl => rdV_wrVs a x.d (a.active x.g) n l (fun l => BitVec.ofNat 64 (a.laneValue x.sys l)) hl
    refine ⟨wrVs_eq _ _ _ _, fun n l hl hn => ?_, fun l hl => ⟨fun hb => ?_, fun hb => ?_⟩⟩
    · rw [hv n l hl, if_neg (fun h => hn h.1)]
    · rw [hv x.d l hl, if_pos ⟨rfl, hb⟩]
      exact laneValue_value
    · rw [hv x.d l hl, if_neg (fun h => Bool.false_ne_true (hb.symm.trans h.2))]
  · obtain ⟨t, ht⟩ := uniform_wrS (exec_srd x s) (fun ha => srdWarp_scalar hx ha) h ha
    rw [scalarValue_issued] at ht
    obtain ⟨hexec, hrest⟩ := ht
    exact ⟨t, _, hexec, scalarValue_value w x.sys, hrest⟩
  · intro h a v hact
    have hexec := fun t hb => (exec_syswrResumepc x s).trans
      (onWarp_trap (t := s.issued (.syswrResumepc x) w) (f := t) h ((uniformReal_active _ hact).trans hb))
    refine ⟨fun hm => hexec _ (resumepcWarp_normal hm), fun hm h4 hlt => ⟨_, (exec_syswrResumepc x s).trans (onWarp_ok h
      ((uniformReal_active _ hact).trans (resumepcWarp_legal hm h4 hlt))), onlyWarp_issued s _ w _, ?_⟩,
      fun hm h4 => hexec _ (resumepcWarp_misaligned hm h4)⟩
    rw [State.warp_setWarp_same]
    rfl
  · intro h a v asid named hact
    refine ⟨fun hk hz hl hidle => ?_, fun hbad => ?_⟩
    · obtain ⟨t, hexec, ht⟩ := tlbinv_completes h hact ((tlbinvOk_iff v).mpr ⟨hk, hz, hl⟩) hidle
      exact ⟨t, hexec, tlbinv_removes hk ht⟩
    · have hno : tlbinvOk v = false := by
        rw [Bool.eq_false_iff, ne_eq, tlbinvOk_iff]
        omega
      exact (exec_syswrTlbinv x s).trans (onWarp_trap h ((uniformReal_active _ hact).trans (tlbinvWarp_illegal hno)))

end

end Machine
end Sys2Proof
end

section
/-!
PROOF that every step keeps the canonical form of memory (`Obligations.MemoryCanonicalKept`). Memory is written by
`writeHome`, `hardWrite` and the commit of a handler alone, and set anew where the supply is lost. So there is one lemma
for each function that yields a state, `canon_<function>`, in the order of the model: its result has a canonical
memory where its argument has one. It cites the lemmas of the functions it calls, and a function that sets other
fields alone keeps the form by definition.
-/
namespace Sys2Proof
namespace Machine

/-! ## The canonical form, of a state and of what yields one -/

/-- The memory of a state is in its canonical form. -/
def State.Canon (s : State) : Prop := Memory.wf s.mem = true

/-- The canonical form of the state that a result holds, where it holds one. -/
def Res.Canon : Res → Prop
  | .ok t => t.Canon
  | .trap _ t => t.Canon

@[inherit_doc Res.Canon]
def PieceRes.Canon : PieceRes → Prop
  | .done t => t.Canon
  | _ => True

@[inherit_doc Res.Canon]
def Charged.Canon : Charged → Prop
  | .paid t => t.Canon
  | _ => True

@[inherit_doc Res.Canon]
def SlRes.Canon : SlRes → Prop
  | .ok _ t => t.Canon
  | .stall t => t.Canon
  | .bad _ => True

@[inherit_doc Res.Canon]
def LineRes.Canon : LineRes → Prop
  | .wait => True
  | .bad _ _ t => t.Canon
  | .done t => t.Canon

/-- The state after an answer is canonical, where there is one. -/
def CanonAfter (a : Answer) : Prop := ∀ t, a = .next t → t.Canon

/-- The state that an option holds is canonical, where it holds one. -/
def CanonIf (o : Option State) : Prop := ∀ t, o = some t → t.Canon

/-- What an instruction does keeps the canonical form. -/
def KeepsCanon (body : Nat → State → Res) : Prop := ∀ {k s}, s.Canon → (body k s).Canon

variable {s : State}

theorem canon_foldl {α : Type} {g : State → α → State} {l : List α} (hg : ∀ s x, s.Canon → (g s x).Canon)
    (h : s.Canon) : (l.foldl g s).Canon :=
  List.foldlRecOn _ _ h (fun a ha x _ => hg a x ha)

theorem canon_ite {c : Prop} {d : Decidable c} {a b : State} (ha : a.Canon) (hb : b.Canon) :
    (if c then a else b).Canon := by
  split
  · exact ha
  · exact hb

theorem canon_ite_snd {α : Type} {c : Prop} {d : Decidable c} {a b : α × State} (ha : a.2.Canon) (hb : b.2.Canon) :
    (if c then a else b).2.Canon := by
  split
  · exact ha
  · exact hb

theorem canon_ite_if {c : Prop} {d : Decidable c} {a b : Option State} (ha : CanonIf a) (hb : CanonIf b) :
    CanonIf (if c then a else b) := by
  split
  · exact ha
  · exact hb

theorem canonAfter_ite {c : Prop} {d : Decidable c} {a b : Answer} (ha : CanonAfter a) (hb : CanonAfter b) :
    CanonAfter (if c then a else b) := by
  split
  · exact ha
  · exact hb

theorem Res.canon_ite {c : Prop} {d : Decidable c} {a b : Res} (ha : a.Canon) (hb : b.Canon) :
    (if c then a else b).Canon := by
  split
  · exact ha
  · exact hb

theorem SlRes.canon_ite {c : Prop} {d : Decidable c} {a b : SlRes} (ha : a.Canon) (hb : b.Canon) :
    (if c then a else b).Canon := by
  split
  · exact ha
  · exact hb

theorem canon_some (h : s.Canon) : CanonIf (some s) := by rintro _ ⟨⟩; exact h

theorem canon_none : CanonIf none := by rintro _ ⟨⟩

theorem canon_next (h : s.Canon) : CanonAfter (.next s) := by rintro _ ⟨⟩; exact h

theorem canon_fault {f : Fault} : CanonAfter (.fault f) := by rintro _ ⟨⟩

theorem canon_refused {r : Refusal} : CanonAfter (.refused r) := by rintro _ ⟨⟩

theorem canon_getD {o : Option State} (ho : CanonIf o) (h : s.Canon) : (o.getD s).Canon := by
  cases o with
  | none => exact h
  | some t => exact ho t rfl

theorem canon_snd {α : Type} {p : α × State} {x : α} {t : State} (e : p = (x, t)) (h : p.2.Canon) : t.Canon := by
  subst e; exact h

theorem canon_fst {α : Type} {p : State × α} {x : α} {t : State} (e : p = (t, x)) (h : p.1.Canon) : t.Canon := by
  subst e; exact h

theorem Charged.canon_of {c : Charged} {t : State} (e : c = .paid t) (h : c.Canon) : t.Canon := by subst e; exact h

theorem PieceRes.canon_of {c : PieceRes} {t : State} (e : c = .done t) (h : c.Canon) : t.Canon := by subst e; exact h

theorem LineRes.canon_of {c : LineRes} {t : State} (e : c = .done t) (h : c.Canon) : t.Canon := by subst e; exact h

theorem LineRes.canon_of_bad {c : LineRes} {x y : Nat} {t : State} (e : c = .bad x y t) (h : c.Canon) : t.Canon := by
  subst e; exact h

theorem Res.canon_of {c : Res} {t : State} (e : c = .ok t) (h : c.Canon) : t.Canon := by subst e; exact h

theorem Res.canon_of_trap {c : Res} {f : Trap} {t : State} (e : c = .trap f t) (h : c.Canon) : t.Canon := by
  subst e; exact h

theorem SlRes.canon_of {c : SlRes} {n : Nat} {t : State} (e : c = .ok n t) (h : c.Canon) : t.Canon := by
  subst e; exact h

theorem SlRes.canon_of_stall {c : SlRes} {t : State} (e : c = .stall t) (h : c.Canon) : t.Canon := by subst e; exact h

/-! ## Other fields set: the memory stays -/

theorem canon_free {x0} (h : s.Canon) : State.Canon { s with free := x0 } := h

theorem canon_nextSeq {x0} (h : s.Canon) : State.Canon { s with nextSeq := x0 } := h

theorem canon_xfers {x0} (h : s.Canon) : State.Canon { s with xfers := x0 } := h

theorem canon_entries {x0} (h : s.Canon) : State.Canon { s with entries := x0 } := h

theorem canon_past {x0} (h : s.Canon) : State.Canon { s with past := x0 } := h

theorem canon_gangs_lastBusy {x0 x1} (h : s.Canon) : State.Canon { s with gangs := x0, lastBusy := x1 } := h

theorem canon_gov {x0} (h : s.Canon) : State.Canon { s with gov := x0 } := h

theorem canon_capBanks {x0} (h : s.Canon) : State.Canon { s with capBanks := x0 } := h

theorem canon_ballast {x0} (h : s.Canon) : State.Canon { s with ballast := x0 } := h

theorem canon_nextGang {x0} (h : s.Canon) : State.Canon { s with nextGang := x0 } := h

theorem canon_lastBusy {x0} (h : s.Canon) : State.Canon { s with lastBusy := x0 } := h

theorem canon_l1 {x0} (h : s.Canon) : State.Canon { s with l1 := x0 } := h

theorem canon_nextSeq_nextGrid {x0 x1} (h : s.Canon) : State.Canon { s with nextSeq := x0, nextGrid := x1 } := h

theorem canon_nextSeq_nextBlock_nextWarp_placeCounts {x0 x1 x2 x3} (h : s.Canon) :
    State.Canon { s with nextSeq := x0, nextBlock := x1, nextWarp := x2, placeCounts := x3 } := h

theorem canon_clusters {x0} (h : s.Canon) : State.Canon { s with clusters := x0 } := h

theorem canon_ports {x0} (h : s.Canon) : State.Canon { s with ports := x0 } := h

theorem canon_ops {x0} (h : s.Canon) : State.Canon { s with ops := x0 } := h

theorem canon_intents {x0} (h : s.Canon) : State.Canon { s with intents := x0 } := h

theorem canon_entries_bins {x0 x1} (h : s.Canon) : State.Canon { s with entries := x0, bins := x1 } := h

theorem canon_intents_gov {x0 x1} (h : s.Canon) : State.Canon { s with intents := x0, gov := x1 } := h

theorem canon_selectors {x0} (h : s.Canon) : State.Canon { s with selectors := x0 } := h

theorem canon_roots_oldRoots {x0 x1} (h : s.Canon) : State.Canon { s with roots := x0, oldRoots := x1 } := h

theorem canon_savePools {x0} (h : s.Canon) : State.Canon { s with savePools := x0 } := h

theorem canon_issuer {x0} (h : s.Canon) : State.Canon { s with issuer := x0 } := h

theorem canon_shadow {x0} (h : s.Canon) : State.Canon { s with shadow := x0 } := h

theorem canon_powered_free_gov {x0 x1 x2} (h : s.Canon) :
    State.Canon { s with powered := x0, free := x1, gov := x2 } := h

theorem canon_turn_issuer_free_time_cycles {x0 x1 x2 x3 x4} (h : s.Canon) :
    State.Canon { s with turn := x0, issuer := x1, free := x2, time := x3, cycles := x4 } := h

/-! ## What writes memory -/

theorem canon_writeHome {pa bs} (h : s.Canon) : (s.writeHome pa bs).Canon := by
  rw [State.Canon, State.writeHome_mem]
  exact Memory.wf_writeBytes _ _ _ h

theorem canon_hardWrite {c pa bs} (h : s.Canon) : (s.hardWrite c pa bs).Canon := Memory.wf_writeBytes _ _ _ h

theorem canon_reset : State.reset.Canon := Memory.wf_empty


/-! ## Operations on the state -/

theorem canon_setWarp {w x} (h : s.Canon) : (s.setWarp w x).Canon := h

theorem canon_setBlock {b x} (h : s.Canon) : (s.setBlock b x).Canon := h

theorem canon_setJob {j x} (h : s.Canon) : (s.setJob j x).Canon := h

theorem canon_setOp {o x} (h : s.Canon) : (s.setOp o x).Canon := h

theorem canon_setMcc {k x} (h : s.Canon) : (s.setMcc k x).Canon := h

theorem canon_setArr {k x} (h : s.Canon) : (s.setArr k x).Canon := h

theorem canon_setSlice {k x} (h : s.Canon) : (s.setSlice k x).Canon := h

theorem canon_setGang {g x} (h : s.Canon) : (s.setGang g x).Canon := h

theorem canon_setPantry {c x} (h : s.Canon) : (s.setPantry c x).Canon := h

theorem canon_setLarder {d x} (h : s.Canon) : (s.setLarder d x).Canon := h

theorem canon_draw (h : s.Canon) : (s.draw).Canon := h

theorem canon_writeSlots {w} (h : s.Canon) : (s.writeSlots w).Canon := by
  fun_cases State.writeSlots
  · exact canon_hardWrite h
  · exact h

theorem canon_writeFrame {w f} (h : s.Canon) : (s.writeFrame w f).Canon := by
  fun_cases State.writeFrame <;> exact canon_hardWrite (canon_setWarp h)

theorem canon_post {port kind die job aux w1 w2 w3} (h : s.Canon) :
    (s.post port kind die job aux w1 w2 w3).Canon := by
  fun_cases State.post
  exact h

theorem canon_reportHalt {w} (h : s.Canon) : (s.reportHalt w).Canon := by
  fun_cases State.reportHalt
  exact canon_post h

theorem canon_haltAt {w t move reportPc head late} (h : s.Canon) : (s.haltAt w t move reportPc head late).Canon := by
  fun_cases State.haltAt
  · exact canon_setWarp (canon_writeFrame (canon_setWarp h))
  · exact canon_reportHalt (canon_setWarp (canon_writeFrame (canon_setWarp h)))

theorem canon_faultWarp {w t} (h : s.Canon) : (s.faultWarp w t).Canon := by
  fun_cases State.faultWarp
  exact canon_haltAt h

theorem canon_faultTarget {w cause pc src} (h : s.Canon) : (s.faultTarget w cause pc src).Canon := canon_haltAt h

theorem canon_takeHalt {w h0} (h : s.Canon) : (s.takeHalt w h0).Canon := by
  fun_cases State.takeHalt
  exact canon_haltAt h

theorem canon_enterHandler {w cause} (h : s.Canon) : (s.enterHandler w cause).Canon := by
  fun_cases State.enterHandler
  exact canon_setWarp (canon_writeFrame (canon_setWarp h))

theorem canon_reissue {w} (h : s.Canon) : (s.reissue w).Canon := by
  fun_cases State.reissue
  · exact h
  · exact canon_foldl (fun _ _ h => canon_setOp h) (canon_foldl (fun _ _ h => canon_setOp h) (canon_setWarp h))

theorem canon_restoreWarp {w} (h : s.Canon) : (s.restoreWarp w).Canon := canon_reissue (canon_setWarp h)

theorem canon_finishVec {x elig outs w} (h : s.Canon) : (finishVec x elig outs w s).Canon := by
  fun_cases finishVec <;> exact canon_setWarp h

theorem canon_vecOp {x elig wd f w} (h : s.Canon) : (vecOp x elig wd f w s).Canon := by
  fun_cases vecOp
  exact canon_finishVec h


/-! ## Halts and the issue of warps -/

theorem canon_issued {i w} (h : s.Canon) : (s.issued i w).Canon := by
  fun_cases State.issued
  exact canon_setWarp h

theorem canon_runIssue {i body w} (hbody : KeepsCanon body) (h : s.Canon) : (runIssue i body w s).Canon := by
  fun_cases runIssue
  · exact canon_faultWarp (canon_issued h)
  · exact Res.canon_of ‹_› (hbody (canon_issued h))
  · exact canon_faultWarp (Res.canon_of_trap ‹_› (hbody (canon_issued h)))

theorem canon_faultMcc {k cause pc} (h : s.Canon) : (s.faultMcc k cause pc).Canon := by
  fun_cases State.faultMcc
  exact canon_post (canon_setMcc h)

theorem canon_runMcc {body k} (hbody : KeepsCanon body) (h : s.Canon) : (runMcc body k s).Canon := by
  fun_cases runMcc
  · exact Res.canon_of ‹_› (hbody (canon_setMcc h))
  · exact canon_faultMcc (Res.canon_of_trap ‹_› (hbody (canon_setMcc h)))

theorem canon_onWarp {i body} (hbody : KeepsCanon body) (h : s.Canon) : CanonAfter (onWarp i body s) := by
  fun_cases onWarp
  · exact canon_next (canon_runIssue hbody h)
  · exact canon_fault

theorem canon_onMcc {body} (hbody : KeepsCanon body) (h : s.Canon) : CanonAfter (onMcc body s) := by
  fun_cases onMcc
  · exact canon_next (canon_runMcc hbody h)
  · exact canon_fault

theorem canon_onEither {i warpBody mccBody} (hwarpBody : KeepsCanon warpBody) (hmccBody : KeepsCanon mccBody) (h :
    s.Canon) : CanonAfter (onEither i warpBody mccBody s) := by
  fun_cases onEither
  · exact canon_next (canon_runIssue hwarpBody h)
  · exact canon_next (canon_runMcc hmccBody h)
  · exact canon_fault

theorem canon_onSlice {body} (hbody : ∀ {k s}, s.Canon → (body k s).Canon) (h : s.Canon) :
    CanonAfter (onSlice body s) := by
  fun_cases onSlice
  · exact canon_next (hbody h)
  · exact canon_fault

theorem canon_uniform {g body w} (hbody : KeepsCanon body) (h : s.Canon) : (uniform g body w s).Canon := by
  fun_cases uniform
  · exact hbody h
  · exact h

theorem canon_uniformReal {g body w} (hbody : KeepsCanon body) (h : s.Canon) : (uniformReal g body w s).Canon := by
  fun_cases uniformReal
  · exact hbody h
  · exact h


/-! ## Integer and logic instructions -/

theorem canon_intVec {x elig yFull f w} (h : s.Canon) : (intVec x elig yFull f w s).Canon := canon_vecOp h

theorem canon_finishScalarOp {x elig r w} (h : s.Canon) : (finishScalarOp x elig r w s).Canon := by
  fun_cases finishScalarOp <;> exact canon_setWarp h

theorem canon_intScalar {x elig yFull f x1} (h : s.Canon) : (intScalar x elig yFull f x1 s).Canon :=
  canon_uniform (fun h => canon_finishScalarOp h) h

theorem canon_intMcc {x yFull f k} (h : s.Canon) : (intMcc x yFull f k s).Canon := by
  fun_cases intMcc
  · exact h
  · exact canon_setMcc h

theorem canon_intExec {i v x elig yFull f} (h : s.Canon) : CanonAfter (intExec i v x elig yFull f s) := by
  fun_cases intExec
  · exact canon_onWarp canon_intVec h
  · exact canon_onEither canon_intScalar canon_intMcc h

theorem canon_selVec {x w} (h : s.Canon) : (selVec x w s).Canon := canon_vecOp h

theorem canon_cmpVec {x w} (h : s.Canon) : (cmpVec x w s).Canon := by
  fun_cases cmpVec
  exact canon_setWarp h

theorem canon_movVec {x w} (h : s.Canon) : (movVec x w s).Canon := canon_vecOp h

theorem canon_madwVec {x w} (h : s.Canon) : (madwVec x w s).Canon := canon_vecOp h

theorem canon_leaVec {x w} (h : s.Canon) : (leaVec x w s).Canon := canon_vecOp h


/-! ## Control transfer -/

theorem canon_report {w mask pc} (h : s.Canon) : (s.report w mask pc).Canon := by
  fun_cases State.report
  · exact h
  · exact h
  · exact canon_hardWrite (canon_setWarp h)

theorem canon_exitLanes {w mask pc} (h : s.Canon) : (s.exitLanes w mask pc).Canon := by
  fun_cases State.exitLanes
  exact canon_setWarp (canon_report h)

theorem canon_drain {w} (h : s.Canon) : (s.drain w).Canon := by
  fun_cases State.drain
  · exact h
  · exact canon_exitLanes h

theorem canon_exitWarp {x w} (h : s.Canon) : (exitWarp x w s).Canon := by
  fun_cases exitWarp
  · exact h
  · exact canon_drain (canon_setWarp h)

theorem canon_brWarp {x w} (h : s.Canon) : (brWarp x w s).Canon := by
  fun_cases brWarp
  exact canon_setWarp h

theorem canon_bruWarp {x w} (h : s.Canon) :
    (bruWarp x w s).Canon := canon_uniform (fun h => Res.canon_ite (canon_setWarp h) h) h

theorem canon_bruMcc {x k} (h : s.Canon) : (bruMcc x k s).Canon := by
  fun_cases bruMcc
  · exact canon_setMcc h
  · exact h

theorem canon_brpWarp {x w} (h : s.Canon) : (brpWarp x w s).Canon := by
  fun_cases brpWarp
  exact canon_setWarp h

theorem canon_indirect {a g w} (h : s.Canon) : (indirect a g w s).Canon := by
  fun_cases indirect
  exact canon_setWarp h

theorem canon_callWarp {x w} (h : s.Canon) : (callWarp x w s).Canon := by
  fun_cases callWarp
  exact canon_setWarp h

theorem canon_callMcc {x k} (h : s.Canon) : (callMcc x k s).Canon := by
  fun_cases callMcc
  exact canon_setMcc h


/-! ## Home memory and the caches -/

theorem canon_answerSmsg {op r} (h : s.Canon) : (s.answerSmsg op r).Canon := by
  fun_cases State.answerSmsg
  · exact h
  · exact canon_setOp h
  · exact h

theorem canon_queueEvent {k t e} (h : s.Canon) : (s.queueEvent k t e).Canon := by
  fun_cases State.queueEvent
  · exact canon_answerSmsg (canon_setSlice h)
  · exact canon_setSlice h

theorem canon_setLine {pa x} (h : s.Canon) : (s.setLine pa x).Canon := h

theorem canon_lineEvent {k kind pa asid dirty handle} (h : s.Canon) :
    (s.lineEvent k kind pa asid dirty handle).Canon := by
  fun_cases State.lineEvent
  · exact h
  · exact canon_queueEvent h
  · exact h

theorem canon_dropLine {pa} (h : s.Canon) : (s.dropLine pa).Canon := by
  fun_cases State.dropLine
  exact canon_lineEvent (canon_setLine h)

theorem canon_makeLine {pa} (h : s.Canon) : (s.makeLine pa).Canon := by
  fun_cases State.makeLine
  · exact h
  · exact h
  · exact canon_dropLine (canon_draw h)
  · exact h

theorem canon_fillLine {pa asid} (h : s.Canon) : (s.fillLine pa asid).Canon := by
  fun_cases State.fillLine
  exact canon_lineEvent (canon_setLine (canon_makeLine h))

theorem canon_atSlice {pa asid handle} (h : s.Canon) : (s.atSlice pa asid handle).Canon := by
  fun_cases State.atSlice
  · exact h
  · exact canon_fillLine h
  · exact canon_fillLine (canon_lineEvent h)
  · exact canon_fillLine h

theorem canon_byOp {o pa reads} (h : s.Canon) : (s.byOp o pa reads).Canon := by
  fun_cases State.byOp
  exact canon_atSlice h


/-! ## Address checks and the two kinds of places -/

theorem canon_translate {die asid va} (h : s.Canon) : (s.translate die asid va).2.Canon := by
  unfold State.translate
  dsimp only
  repeat' split
  all_goals exact h

theorem canon_checkElem {c need va n align} (h : s.Canon) : (s.checkElem c need va n align).2.Canon := by
  fun_cases State.checkElem
  · exact h
  · exact h
  · exact h
  · exact canon_snd ‹_› (canon_translate h)
  · exact canon_snd ‹_› (canon_translate h)
  · exact canon_snd ‹_› (canon_translate h)

theorem canon_checkAll {c need align helper l} (h : s.Canon) : (s.checkAll c need align helper l).2.Canon := by
  fun_induction State.checkAll with
  | case1 => exact h
  | case2 _ _ _ _ _ e _ _ _ e' ih => exact canon_snd e' (ih (canon_snd e (canon_checkElem h)))
  | case3 _ _ _ _ _ e _ _ ih => exact ih (canon_snd e (canon_checkElem h))
  | case4 _ _ _ _ _ e => exact canon_snd e (canon_checkElem h)
  | case5 _ _ _ _ _ e _ _ e' ih => exact canon_snd e' (ih (canon_snd e (canon_checkElem h)))
  | case6 _ _ _ _ _ e _ ih => exact ih (canon_snd e (canon_checkElem h))

theorem canon_remember {x} (h : s.Canon) : (s.remember x).Canon := by
  fun_cases State.remember
  exact canon_foldl (fun _ _ h => h) h

theorem canon_forget {w p n} (h : s.Canon) : (s.forget w p n).Canon := h

theorem canon_loadPast {w p now bare} (h : s.Canon) : (s.loadPast w p now bare).2.Canon := by
  fun_cases State.loadPast
  · exact h
  · exact canon_forget h
  · exact canon_past (canon_draw h)

theorem canon_setL1 {core line x} (h : s.Canon) : (s.setL1 core line x).Canon := h

theorem canon_unshare {ls} (h : s.Canon) : (s.unshare ls).Canon := by
  fun_cases State.unshare
  exact h

theorem canon_msWrite {pa bs} (h : s.Canon) : (s.msWrite pa bs).Canon := by
  fun_cases State.msWrite
  · exact canon_writeHome h
  · exact h

theorem canon_release {core line} (h : s.Canon) : (s.release core line).Canon := by
  fun_cases State.release
  · exact h
  · exact canon_setL1 (canon_writeHome (canon_atSlice h))

theorem canon_releaseWhere {core f} (h : s.Canon) : (s.releaseWhere core f).Canon := by
  fun_cases State.releaseWhere
  exact canon_foldl (fun _ _ h => canon_release h) h

theorem canon_makePinRoom {core line} (h : s.Canon) : (s.makePinRoom core line).Canon := by
  fun_cases State.makePinRoom
  · exact h
  · exact h
  · exact canon_release h

theorem canon_makeWay {core line} (h : s.Canon) : (s.makeWay core line).Canon := by
  fun_cases State.makeWay
  · exact h
  · exact canon_l1 (canon_draw h)
  · exact h

theorem canon_fillL1 {core line} (h : s.Canon) : (s.fillL1 core line).Canon := canon_setL1 (canon_makeWay h)

theorem canon_writePinned {core pa bs owner} (h : s.Canon) : (s.writePinned core pa bs owner).Canon := by
  fun_cases State.writePinned
  exact canon_setL1 (canon_nextSeq (canon_ite h (canon_ite (canon_makePinRoom h)
      (canon_makeWay (canon_makePinRoom h)))))

theorem canon_patchClean {core line a bs} (h : s.Canon) : (s.patchClean core line a bs).Canon := by
  fun_cases State.patchClean
  · exact canon_setL1 h
  · exact h

theorem canon_writeThrough {core pa bs} (h : s.Canon) : (s.writeThrough core pa bs).Canon :=
  canon_patchClean (canon_writeHome (canon_release h))

theorem canon_engineSeen {core pa bs} (h : s.Canon) : (s.engineSeen core pa bs).Canon := by
  fun_cases State.engineSeen
  exact canon_foldl (fun _ _ h => canon_patchClean h) h

theorem canon_dropClean {core line} (h : s.Canon) : (s.dropClean core line).Canon := h

theorem canon_fillRdc {die pa} (h : s.Canon) : (s.fillRdc die pa).Canon := by
  unfold State.fillRdc
  dsimp only
  split
  · exact h
  · split
    · exact h
    · split <;> exact h

theorem canon_noteRdc {die pa nc ms} (h : s.Canon) : (s.noteRdc die pa nc ms).Canon := by
  fun_cases State.noteRdc
  · exact h
  · exact canon_fillRdc (canon_draw h)
  · exact canon_draw h

theorem canon_readCached {o core pa n narrow stream} (h : s.Canon) :
    (s.readCached o core pa n narrow stream).2.Canon := by
  fun_cases State.readCached
  · exact canon_draw h
  · exact canon_draw h
  · exact canon_setL1 (canon_draw h)
  · exact canon_draw h
  · exact canon_patchClean (canon_ite (canon_noteRdc (canon_byOp (canon_draw h))) (canon_draw h))
  · exact canon_ite (canon_noteRdc (canon_byOp (canon_draw h))) (canon_draw h)
  · exact canon_fillL1 (canon_ite (canon_noteRdc (canon_byOp (canon_draw h))) (canon_draw h))

theorem canon_writeScratch {b off bs} (h : s.Canon) : (s.writeScratch b off bs).Canon := by
  fun_cases State.writeScratch
  · exact h
  · exact canon_hardWrite h
  · exact canon_setBlock (canon_remember h)

theorem canon_setTag {b off v} (h : s.Canon) : (s.setTag b off v).Canon := by
  fun_cases State.setTag
  · exact h
  · exact canon_hardWrite h
  · exact canon_setBlock h


/-! ## Fetch -/

theorem canon_putFill {fe b} (h : s.Canon) : (s.putFill fe b).Canon := by
  fun_cases State.putFill
  exact h

theorem canon_dropFill {fe asid va} (h : s.Canon) : (s.dropFill fe asid va).Canon := by
  fun_cases State.dropFill
  exact h

theorem canon_fillWith {fe asid va keep new} (h : s.Canon) : (s.fillWith fe asid va keep new).Canon := by
  fun_cases State.fillWith
  exact canon_putFill h

theorem canon_fill {fe asid va keep e} (h : s.Canon) : (s.fill fe asid va keep e).Canon := by
  unfold State.fill
  have h1 := canon_translate (die := frontDie fe) (asid := asid) (va := va / 64 * 64) h
  dsimp only
  split
  · exact canon_putFill h
  · split
    · exact canon_putFill h1
    · split
      · exact canon_putFill h1
      · split
        · exact canon_ite h1 (canon_ite (canon_putFill h1) (canon_ite (canon_fillWith h1) (canon_fillWith
            (canon_atSlice h1))))
        · exact canon_ite h1 (canon_ite (canon_putFill h1) (canon_ite (canon_putFill h1) (canon_fillWith h1)))
        · exact canon_ite (canon_putFill h1) (canon_ite (canon_putFill h1) (canon_fillWith (canon_free h1)))
        · exact canon_putFill h1


/-! ## Floating point -/

theorem canon_floatVec {x elig op n w} (h : s.Canon) : (floatVec x elig op n w s).Canon := canon_vecOp h

theorem canon_patVec {x op w} (h : s.Canon) : (patVec x op w s).Canon := canon_vecOp h

theorem canon_frndVec {x w} (h : s.Canon) : (frndVec x w s).Canon := canon_vecOp h

theorem canon_fscaleVec {x w} (h : s.Canon) : (fscaleVec x w s).Canon := canon_vecOp h

theorem canon_fdot2Vec {x w} (h : s.Canon) : (fdot2Vec x w s).Canon := canon_vecOp h

theorem canon_fdot4Vec {x w} (h : s.Canon) : (fdot4Vec x w s).Canon := canon_vecOp h

theorem canon_fcmpVec {x w} (h : s.Canon) : (fcmpVec x w s).Canon := by
  fun_cases fcmpVec <;> exact canon_setWarp h

theorem canon_engineCheck {c need va n} (h : s.Canon) : (s.engineCheck c need va n).2.Canon := by
  fun_cases State.engineCheck
  · exact h
  · exact canon_snd ‹_› (canon_checkElem h)
  · exact canon_snd ‹_› (canon_checkElem h)
  · exact canon_snd ‹_› (canon_checkElem h)
  · exact canon_snd ‹_› (canon_checkElem h)


/-! ## Operations in flight -/

theorem canon_releaseFor {core w hset after lanes} (h : s.Canon) : (s.releaseFor core w hset after lanes).Canon := by
  fun_cases State.releaseFor
  exact canon_releaseWhere h

theorem canon_opRelease {o} (h : s.Canon) : (s.opRelease o).Canon := canon_releaseFor h

theorem canon_tagDo {i b off data} (h : s.Canon) : (s.tagDo i b off data).2.Canon := by
  fun_cases State.tagDo
  · exact canon_setTag h
  · exact canon_setTag (canon_writeScratch h)
  · exact canon_setTag (canon_writeScratch h)
  · exact h

theorem canon_serveMccs {b off n} (h : s.Canon) : (s.serveMccs b off n).Canon := by
  fun_cases State.serveMccs
  refine canon_foldl (fun _ _ h => ?_) h
  split
  · exact canon_ite (canon_faultMcc h) (canon_ite (canon_setMcc h) h)
  · exact h

theorem canon_serveWords {b off n} (h : s.Canon) : (s.serveWords b off n).Canon := by
  fun_cases State.serveWords
  refine canon_foldl (fun _ _ h => ?_) (canon_serveMccs h)
  split
  · refine canon_ite h ?_
    split
    · exact canon_ite (canon_setWarp h) (canon_ite (canon_report (canon_setWarp h)) h)
    · exact h

theorem canon_serveTag {fuel b off} (h : s.Canon) : (s.serveTag fuel b off).Canon := by
  induction fuel generalizing s with
  | zero => exact h
  | succ fuel ih =>
    unfold State.serveTag
    dsimp only
    split
    · exact h
    · exact ih (canon_serveWords (canon_forget (canon_setWarp (canon_tagDo h))))

theorem canon_pokeScratch {b off bs} (h : s.Canon) : (s.pokeScratch b off bs).Canon :=
  canon_serveWords (canon_writeScratch h)

theorem canon_changeTag {b off v} (h : s.Canon) : (s.changeTag b off v).Canon := canon_serveTag (canon_setTag h)

theorem canon_setWord {b off a} (h : s.Canon) : (s.setWord b off a).Canon := canon_pokeScratch h

theorem canon_testTriggers {b off} (h : s.Canon) : (s.testTriggers b off).Canon := by
  fun_cases State.testTriggers
  exact h

theorem canon_arriveAt {b off n} (h : s.Canon) : (s.arriveAt b off n).Canon := canon_testTriggers (canon_setWord h)

theorem canon_spoilWord {b off} (h : s.Canon) : (s.spoilWord b off).Canon := canon_setWord h

theorem canon_serveGone {b} (h : s.Canon) : (s.serveGone b).Canon := by
  fun_cases State.serveGone
  exact canon_serveWords (canon_foldl (fun _ _ h => canon_serveTag h) h)

theorem canon_waitRelease {w l x} (h : s.Canon) : (s.waitRelease w l x).Canon := by
  fun_cases State.waitRelease
  · exact canon_releaseFor h
  · exact h

theorem canon_joinWaits {w} (h : s.Canon) : (s.joinWaits w).Canon := by
  fun_cases State.joinWaits
  refine canon_foldl (fun _ _ h => canon_ite ?_ h) h
  split
  · exact canon_ite (canon_serveTag (canon_setWarp (canon_nextSeq (canon_waitRelease h)))) (canon_serveWords
      (canon_setWarp (canon_nextSeq (canon_waitRelease h))))
  · exact canon_setWarp (canon_nextSeq (canon_waitRelease h))

theorem canon_stall {w i strm mask room} (h : s.Canon) : (s.stall w i strm mask room).Canon :=
  canon_nextSeq (canon_setWarp h)

theorem canon_echoRegs {w regs} (h : s.Canon) : (s.echoRegs w regs).Canon := by
  fun_cases State.echoRegs
  refine canon_foldl (fun _ _ h => ?_) h
  split
  · exact canon_ite (canon_hardWrite (canon_ite (canon_hardWrite h) h)) (canon_ite (canon_hardWrite h) h)
  · exact canon_ite (canon_hardWrite h) h
  · exact h

theorem canon_settleHalt {w} (h : s.Canon) : (s.settleHalt w).Canon := by
  fun_cases State.settleHalt
  · exact canon_reportHalt (canon_ite (canon_setWarp h) (canon_hardWrite (canon_setWarp h)))
  · exact h

theorem canon_slotChanged {w} (h : s.Canon) : (s.slotChanged w).Canon := canon_settleHalt (canon_writeSlots h)

theorem canon_dropOp {k} (h : s.Canon) : (s.dropOp k).Canon := by
  fun_cases State.dropOp
  · exact canon_setOp h
  · exact canon_settleHalt (canon_joinWaits (canon_drain (canon_ite (canon_writeSlots (canon_setWarp (canon_setOp
      h))) (canon_setOp h))))

theorem canon_countParts {k} (h : s.Canon) : (s.countParts k).Canon := by
  fun_cases State.countParts
  · exact h
  · exact canon_drain (canon_setWarp (canon_setOp h))

theorem canon_finishOp {k} (h : s.Canon) : (s.finishOp k).Canon := by
  fun_cases State.finishOp
  · exact canon_setOp h
  · exact canon_dropOp (canon_echoRegs (canon_setWarp h))

theorem canon_poke {o e bs} (h : s.Canon) : (s.poke o e bs).Canon := by
  fun_cases State.poke
  · exact canon_pokeScratch h
  · exact canon_writePinned h
  · exact canon_writeHome (canon_dropClean (canon_byOp h))
  · exact canon_writeThrough (canon_byOp h)
  · exact canon_msWrite (canon_dropClean (canon_release h))
  · exact canon_writeHome (canon_byOp (canon_dropClean (canon_release h)))
  · exact canon_writeHome (canon_dropClean h)
  · exact h

theorem canon_loadNow {o e x} (h : s.Canon) : (s.loadNow o e x).2.Canon := by
  fun_cases State.loadNow
  · exact h
  · exact h
  · exact canon_readCached h
  · exact canon_release h
  · exact canon_byOp (canon_release h)
  · exact h
  · exact h
  · exact h

theorem canon_loadElem {o e x} (h : s.Canon) : (s.loadElem o e x).2.Canon := by
  fun_cases State.loadElem
  exact canon_snd ‹_› (canon_loadPast (canon_snd ‹_› (canon_loadNow h)))


/-! ## Work lists and the placement of blocks -/

theorem canon_setEntry {k x} (h : s.Canon) : (s.setEntry k x).Canon := h

theorem canon_takeEntry {die x} (h : s.Canon) : (s.takeEntry die x).Canon := by
  fun_cases State.takeEntry
  exact canon_setEntry (canon_nextSeq_nextGrid (canon_draw h))

theorem canon_endJob {j} (h : s.Canon) : (s.endJob j).Canon := by
  unfold State.endJob
  dsimp only
  split
  · exact h
  · exact h

theorem canon_freeEntry {k} (h : s.Canon) : (s.freeEntry k).Canon := canon_setEntry h

theorem canon_dropTrigger {k} (h : s.Canon) : (s.dropTrigger k).Canon := by
  fun_cases State.dropTrigger
  exact canon_endJob (canon_freeEntry (canon_setJob h))

theorem canon_coreLeft {core} (h : s.Canon) : (s.coreLeft core).Canon := h

theorem canon_endTest {core} (h : s.Canon) : (s.endTest core).Canon := by
  fun_cases State.endTest
  · exact canon_setPantry (canon_setLarder (canon_draw h))
  · exact h

theorem canon_putBlock {core base die off b} (h : s.Canon) : (s.putBlock core base die off b).Canon := by
  fun_cases State.putBlock
  exact canon_foldl (fun _ _ h => canon_setWarp h) (canon_endTest (canon_hardWrite
      (canon_setJob (canon_setBlock (canon_nextSeq_nextBlock_nextWarp_placeCounts (canon_draw h))))))

theorem canon_setBin {k x} (h : s.Canon) : (s.setBin k x).Canon := h

theorem canon_answerOp {o x aux code} (h : s.Canon) : (s.answerOp o x aux code).Canon := by
  fun_cases State.answerOp
  · exact h
  · exact canon_setWarp h

theorem canon_acceptLaunch {o x trigger params bs} (h : s.Canon) : (s.acceptLaunch o x trigger params bs).Canon := by
  fun_cases State.acceptLaunch
  · exact canon_answerOp h
  · exact canon_answerOp h
  · exact canon_answerOp h
  · exact canon_answerOp (canon_takeEntry h)

theorem canon_acceptSpawn {o x bs} (h : s.Canon) : CanonIf (s.acceptSpawn o x bs) := by
  fun_cases State.acceptSpawn
  · exact canon_some (canon_answerOp h)
  · exact canon_none
  · exact canon_some (canon_answerOp h)
  · exact canon_some (canon_answerOp h)
  · exact canon_some (canon_answerOp (canon_setBin h))
  · exact canon_some (canon_answerOp (canon_setBin h))


/-! ## One element performs -/

theorem canon_atomElem {o e x} (h : s.Canon) : (s.atomElem o e x).2.Canon := by
  unfold State.atomElem
  dsimp only
  have h1 : State.Canon (match e.place with
      | .home pa _ ms =>
        if ms || (inL1 o.scope e.place && (s.l1Line (s.opCore o) (pa / 128)).valid)
        then (if inL1 o.scope e.place then s else s.release (s.opCore o) (pa / 128))
        else (if inL1 o.scope e.place then s else s.release (s.opCore o) (pa / 128)).byOp o pa true
      | _ => s) := by
    split
    · exact canon_ite (canon_ite h (canon_release h)) (canon_byOp (canon_ite h (canon_release h)))
    · exact h
  split
  · exact canon_poke h1
  · refine canon_ite (canon_poke h1) ?_
    split
    · exact canon_unshare h1
    · exact canon_unshare h1
    · exact h1

theorem canon_icinv {o x a} (h : s.Canon) : (s.icinv o x a).Canon := by
  fun_cases State.icinv
  exact h

theorem canon_tlbinv {asid x} (h : s.Canon) : (s.tlbinv asid x).Canon := by
  fun_cases State.tlbinv
  exact h

theorem canon_elemRelease {o} (h : s.Canon) : (s.elemRelease o).Canon := by
  fun_cases State.elemRelease
  · exact canon_releaseFor (canon_releaseFor h)
  · exact canon_opRelease h

theorem canon_doElem {o e x} (h : s.Canon) : (s.doElem o e x).2.Canon := by
  fun_cases State.doElem
  · exact canon_loadElem h
  · exact canon_loadElem h
  · exact canon_loadElem h
  · exact canon_poke h
  · exact canon_poke h
  · exact canon_poke h
  · exact canon_atomElem h
  · exact canon_atomElem h
  · exact canon_atomElem h
  · exact canon_atomElem h
  · exact canon_atomElem h
  · exact canon_atomElem h
  · exact canon_icinv h
  · exact canon_arriveAt (canon_ite (canon_releaseFor h) h)
  · exact h
  · exact canon_testTriggers (canon_setWord h)
  · exact h
  · exact canon_foldl (fun _ _ h => canon_changeTag h) h
  · exact h
  · exact canon_tlbinv h
  · exact canon_acceptLaunch (canon_snd ‹_› (canon_loadElem h))
  · exact canon_acceptLaunch (canon_snd ‹_› (canon_loadElem h))
  · exact canon_acceptSpawn (canon_snd ‹_› (canon_loadElem h)) _ ‹_›
  · exact canon_ite (canon_snd ‹_› (canon_loadElem h)) (canon_faultWarp (canon_snd ‹_› (canon_loadElem h)))
  · exact canon_ite (canon_snd ‹_› (canon_loadElem h)) (canon_setWarp (canon_snd ‹_› (canon_loadElem h)))
  · exact h

theorem canon_performElem {k j x} (h : s.Canon) : (s.performElem k j x).Canon := by
  fun_cases State.performElem
  · exact h
  · exact h
  · exact canon_setOp (canon_ite (canon_snd ‹_› (canon_doElem (canon_elemRelease h))) (canon_forget (canon_snd ‹_›
      (canon_doElem (canon_elemRelease h)))))
  · exact h

theorem canon_finishIfDone {k} (h : s.Canon) : (s.finishIfDone k).Canon := by
  fun_cases State.finishIfDone
  · exact canon_finishOp h
  · exact canon_countParts h
  · exact h

theorem canon_performOp {k lanes ext remote} (h : s.Canon) : (s.performOp k lanes ext remote).Canon := by
  fun_cases State.performOp
  · exact h
  · exact canon_endJob (canon_ite (canon_finishIfDone (canon_foldl (fun _ _ h => canon_performElem h) h))
      (canon_joinWaits (canon_finishIfDone (canon_foldl (fun _ _ h => canon_performElem h) h))))
  · exact canon_ite (canon_finishIfDone (canon_foldl (fun _ _ h => canon_performElem h) h)) (canon_joinWaits
      (canon_finishIfDone (canon_foldl (fun _ _ h => canon_performElem h) h)))

theorem canon_launchOp {o} (h : s.Canon) : (s.launchOp o).1.Canon := by
  fun_cases State.launchOp
  exact canon_opRelease (canon_setOp (canon_setWarp h))

theorem canon_atomIssue {o} (h : s.Canon) : (s.atomIssue o).Canon := by
  fun_cases State.atomIssue
  · exact h
  · refine canon_foldl (fun _ _ h => ?_) h
    split
    · exact canon_ite h (canon_ite (canon_release h) (canon_dropClean h))
    · exact canon_ite h (canon_ite (canon_release h) (canon_dropClean h))
    · exact h

theorem canon_issueOp {w i x real enabled elems args} (h : s.Canon) :
    (s.issueOp w i x real enabled elems args).Canon := by
  refine canon_ite ?_ (canon_finishIfDone (canon_launchOp (canon_atomIssue (canon_ite h (canon_stall h)))))
  split
  · exact canon_setWarp (canon_ite h (canon_stall h))
  · exact canon_ite h (canon_stall h)

/-- `generalize`, `delta` and `subst` put the body in the place of the function: a comparison of the two would make the
kernel evaluate the list of lanes that the match looks at. So in each lemma below that begins in this way. -/
theorem canon_laneAccess {i x need helpers n mk w} (h : s.Canon) : (laneAccess i x need helpers n mk w s).Canon := by
  generalize hf : laneAccess = f
  delta laneAccess at hf
  rw [← hf]
  dsimp only
  generalize hr : s.checkAll _ _ _ _ _ = r
  obtain ⟨_ | l, s1⟩ := r
  · exact canon_snd hr (canon_checkAll h)
  · exact canon_issueOp (canon_snd hr (canon_checkAll h))

theorem canon_wholeAccess {i x need align elems enabled args w} (h : s.Canon) :
    (wholeAccess i x need align elems enabled args w s).Canon := by
  generalize hf : wholeAccess = f
  delta wholeAccess at hf
  rw [← hf]
  dsimp only
  generalize hr : s.checkAll _ _ _ _ _ = r
  obtain ⟨_ | l, s1⟩ := r
  · exact canon_snd hr (canon_checkAll h)
  · exact canon_issueOp (canon_snd hr (canon_checkAll h))

theorem canon_voidOps {w} (h : s.Canon) : (s.voidOps w).Canon := by
  refine List.foldlRecOn (motive := fun a : State × List Void => a.1.Canon) _ _ h (fun a ha c _ => ?_)
  dsimp only
  repeat' split
  all_goals exact ha

theorem canon_takeSlot {k cause lane} (h : s.Canon) : (s.takeSlot k cause lane).Canon := by
  fun_cases State.takeSlot
  exact canon_setWarp (canon_setOp h)

theorem canon_lateFault {k lanes cause} (h : s.Canon) : (s.lateFault k lanes cause).Canon := by
  fun_cases State.lateFault
  · exact h
  · exact canon_finishIfDone (canon_setOp h)
  · exact canon_voidOps (canon_setOp (canon_finishIfDone (canon_setOp h)))
  · exact canon_slotChanged (canon_setWarp (canon_takeSlot (canon_finishIfDone (canon_setOp h))))
  · exact canon_settleHalt (canon_ite (canon_hardWrite (canon_setWarp (canon_setOp (canon_finishIfDone (canon_setOp
      h))))) (canon_setWarp (canon_setOp (canon_finishIfDone (canon_setOp h)))))

theorem canon_waitEnd {w lanes} (h : s.Canon) : (s.waitEnd w lanes).Canon := by
  fun_cases State.waitEnd
  · exact h
  · exact canon_setWarp h

theorem canon_watchdogWarp {w} (h : s.Canon) : (s.watchdogWarp w).Canon := by
  fun_cases State.watchdogWarp
  · exact h
  · exact h
  · exact canon_setWarp h


/-! ## Atomics -/

theorem canon_atomicAccess {i x w} (h : s.Canon) : (atomicAccess i x w s).Canon := by
  fun_cases atomicAccess
  exact canon_laneAccess h

theorem canon_redvAccess {o x w} (h : s.Canon) : (redvAccess o x w s).Canon := by
  generalize hf : redvAccess = f
  delta redvAccess at hf
  subst hf
  beta_reduce
  extract_lets +onlyGivenNames wp real en elems byLane
  clear_value wp real en elems byLane
  generalize hr : s.checkAll _ _ _ _ _ = r
  obtain ⟨_ | l, s1⟩ := r
  · exact canon_snd hr (canon_checkAll h)
  · exact canon_issueOp (canon_snd hr (canon_checkAll h))


/-! ## Conversions -/

theorem canon_cvtVec {x w} (h : s.Canon) : (cvtVec x w s).Canon := by
  fun_cases cvtVec
  exact canon_finishVec h

theorem canon_packVec {x w} (h : s.Canon) : (packVec x w s).Canon := by
  fun_cases packVec
  · exact h
  · exact canon_finishVec h

theorem canon_unpackVec {x w} (h : s.Canon) : (unpackVec x w s).Canon := canon_vecOp h


/-! ## Scratchpad words, tags, arrival words, clusters -/

theorem canon_tagIssue {w i x l sa p} (h : s.Canon) : (s.tagIssue w i x l sa p).Canon := by
  fun_cases State.tagIssue
  · exact canon_serveTag (canon_serveWords (canon_forget (canon_setWarp (canon_snd ‹_› (canon_tagDo (canon_nextSeq
      h))))))
  · exact canon_setWarp (canon_nextSeq h)
  · exact canon_nextSeq h

theorem canon_tagWarp {i x w} (h : s.Canon) : (tagWarp i x w s).Canon := by
  generalize hf : tagWarp = f
  delta tagWarp at hf
  subst hf
  beta_reduce
  extract_lets +onlyGivenNames wp real
  clear_value wp real
  generalize s.placeLanes _ _ _ = r
  obtain _ | l := r
  · exact h
  · exact canon_foldl (fun _ _ h => canon_ite h (canon_tagIssue h))
      (canon_ite (canon_releaseFor (canon_ite h (canon_stall h))) (canon_ite h (canon_stall h)))

theorem canon_runOrBlock {o w} (h : s.Canon) : (s.runOrBlock o w).Canon := by
  fun_cases State.runOrBlock
  · exact canon_performOp (canon_fst ‹_› (canon_launchOp h))
  · exact canon_setWarp (canon_performOp (canon_fst ‹_› (canon_launchOp h)))

theorem canon_fesetWarp {x w} (h : s.Canon) : (fesetWarp x w s).Canon := by
  fun_cases fesetWarp
  · exact h
  · exact h
  · exact h
  · exact h
  · exact canon_runOrBlock h

theorem canon_feqWarp {x w} (h : s.Canon) : (feqWarp x w s).Canon := by
  fun_cases feqWarp
  · exact h
  · exact canon_setWarp h
  · exact h

theorem canon_wordOp {i x data w} (h : s.Canon) : (wordOp i x data w s).Canon := by
  fun_cases wordOp
  · exact h
  · exact canon_issueOp h

theorem canon_awarmWarp {x w} (h : s.Canon) : (awarmWarp x w s).Canon := by
  fun_cases awarmWarp
  · exact h
  · exact canon_wordOp h

theorem canon_arriveWarp {x w} (h : s.Canon) : (arriveWarp x w s).Canon := by
  fun_cases arriveWarp
  exact canon_wordOp h

theorem canon_waitgWarp {x w} (h : s.Canon) : (waitgWarp x w s).Canon := by
  fun_cases waitgWarp
  · exact h
  · exact canon_stall h
  · exact h
  · exact canon_report (canon_setWarp (canon_nextSeq (canon_ite (canon_releaseFor h) h)))
  · exact canon_setWarp (canon_ite (canon_nextSeq (canon_ite (canon_releaseFor h) h)) (canon_past (canon_nextSeq
      (canon_ite (canon_releaseFor h) h))))

theorem canon_findCluster {die grid key} (h : s.Canon) : (s.findCluster die grid key).2.Canon := by
  fun_cases State.findCluster
  · exact h
  · exact canon_clusters (canon_draw h)

theorem canon_addMember {c b i} (h : s.Canon) : (s.addMember c b i).Canon := by
  fun_cases State.addMember
  exact canon_setBlock h

theorem canon_cjoin {b key} (h : s.Canon) : (s.cjoin b key).2.2.2.Canon := by
  fun_cases State.cjoin
  · exact h
  · exact canon_snd ‹_› (canon_findCluster h)
  · exact canon_addMember (canon_snd ‹_› (canon_findCluster h))

theorem canon_cjoinWarp {x w} (h : s.Canon) : (cjoinWarp x w s).Canon := canon_setWarp (canon_cjoin h)

theorem canon_revoke {b} (h : s.Canon) : (s.revoke b).Canon := by
  fun_cases State.revoke
  refine canon_foldl (fun _ _ h => ?_) (canon_setBlock h)
  split
  exact canon_ite h (canon_setWarp h)

theorem canon_leaveCluster {b} (h : s.Canon) : (s.leaveCluster b).Canon := by
  fun_cases State.leaveCluster
  · exact h
  · exact canon_setBlock h

theorem canon_cleaveWarp {x w} (h : s.Canon) : (cleaveWarp x w s).Canon := by
  fun_cases cleaveWarp
  · exact h
  · exact canon_leaveCluster (canon_revoke h)
  · exact canon_setWarp (canon_fst ‹_› (canon_launchOp (canon_revoke h)))


/-! ## The copy engine -/

theorem canon_issueCopy {w i x args members elems} (h : s.Canon) : (s.issueCopy w i x args members elems).Canon := by
  fun_cases State.issueCopy
  · exact canon_stall h
  · exact canon_launchOp h

theorem canon_boxCopy {i x w} (h : s.Canon) : (boxCopy i x w s).Canon := by
  fun_cases boxCopy
  · exact h
  · exact canon_issueCopy h

theorem canon_lineCopy {x w} (h : s.Canon) : (lineCopy x w s).Canon :=
  Res.canon_ite h (Res.canon_ite h (Res.canon_ite h (Res.canon_ite (canon_finishOp (canon_issueCopy h))
      (canon_issueCopy h))))

theorem canon_engineRead {die p n ext} (h : s.Canon) : (s.engineRead die p n ext).2.Canon := by
  fun_cases State.engineRead
  · exact h
  · exact h
  · exact canon_noteRdc h
  · exact h
  · exact h
  · exact h

theorem canon_engineWrite {p bs} (h : s.Canon) : CanonIf (s.engineWrite p bs) := by
  fun_cases State.engineWrite
  · exact canon_none
  · exact canon_some (canon_msWrite h)
  · exact canon_some (canon_writeHome h)
  · exact canon_none
  · exact canon_some (canon_writeHome h)
  · exact canon_none
  · exact canon_some h
  · exact canon_none

theorem canon_copyAt {o p reads} (h : s.Canon) : (s.copyAt o p reads).Canon := by
  fun_cases State.copyAt
  · exact canon_byOp h
  · exact h

theorem canon_copyWrite {o p bs} (h : s.Canon) : CanonIf (s.copyWrite o p bs) := by
  fun_cases State.copyWrite
  · exact canon_none
  · refine canon_some ?_
    split
    · exact canon_engineSeen (canon_forget (canon_engineWrite (canon_copyAt h) _ ‹_›))
    · exact canon_forget (canon_engineWrite (canon_copyAt h) _ ‹_›)

theorem canon_copyStart {o ext} (h : s.Canon) : (s.copyStart o ext).2.Canon := by
  fun_cases State.copyStart
  · exact h
  · exact canon_snd ‹_› (canon_engineCheck h)
  · exact canon_snd ‹_› (canon_engineCheck h)
  · exact canon_snd ‹_› (canon_engineRead (canon_copyAt (canon_snd ‹_› (canon_engineCheck h))))
  · exact canon_snd ‹_› (canon_engineRead (canon_copyAt (canon_snd ‹_› (canon_engineCheck h))))
  · exact canon_snd ‹_› (canon_engineRead (canon_copyAt (canon_snd ‹_› (canon_engineCheck h))))
  · exact canon_snd ‹_› (canon_engineRead (canon_copyAt (canon_snd ‹_› (canon_engineCheck h))))
  · exact canon_snd ‹_› (canon_engineRead (canon_copyAt (canon_snd ‹_› (canon_engineCheck h))))

theorem canon_movePiece {o before e ext} (h : s.Canon) : (s.movePiece o before e ext).Canon := by
  have hput : ∀ a bs, State.Canon a → State.Canon ((copyTargets o e).foldl (fun (a : State) p => match p with
    | .scratch b off => (a.forget o.warp p bs.length).pokeScratch b off bs
    | _ => a) a) := by
    intro a bs ha
    refine canon_foldl (fun a p ha => ?_) ha
    split
    · exact canon_pokeScratch (canon_forget ha)
    · exact ha
  unfold State.movePiece
  extract_lets c die frozen put free
  split
  · split
    · exact h
    · split
      · trivial
      · next e _ =>
        have h1 := canon_snd e (canon_engineCheck h)
        split
        · trivial
        · split
          · trivial
          · exact canon_copyWrite h1 _ ‹_›
      · trivial
  · split
    · trivial
    · next e =>
      have h1 := canon_snd e (canon_engineCheck h)
      split
      · trivial
      · next e =>
        have h2 := canon_snd e (canon_engineCheck h1)
        split
        · trivial
        · split
          · trivial
          · split
            · trivial
            · next e =>
              have h3 := canon_snd e (canon_engineRead (canon_copyAt h2))
              split
              · trivial
              · exact canon_copyWrite h3 _ ‹_›
  · split
    · split
      · exact hput _ _ h
      · trivial
    · split
      · trivial
      · next e =>
        have h1 := canon_snd e (canon_engineCheck h)
        split
        · trivial
        · split
          · trivial
          · exact hput _ _ (canon_snd ‹_› (canon_engineRead (canon_copyAt h1)))

theorem canon_startCopy {k ext} (h : s.Canon) : (s.startCopy k ext).Canon := by
  fun_cases State.startCopy
  · exact h
  · exact canon_setOp h
  · exact h
  · exact canon_setOp (canon_snd ‹_› (canon_copyStart h))
  · exact canon_snd ‹_› (canon_copyStart h)

theorem canon_moveCopy {k lanes ext} (h : s.Canon) : (s.moveCopy k lanes ext).Canon := by
  have h1 : (State.startCopy (if s.copyEdges (s.op k) then s.opRelease (s.op k) else s) k ext).Canon :=
    canon_startCopy (canon_ite (canon_opRelease h) h)
  refine canon_ite h1 (canon_foldl (fun a j ha => ?_) h1)
  dsimp only
  split
  · refine canon_ite ha ?_
    split
    · exact canon_setOp (PieceRes.canon_of ‹_› (canon_movePiece ha))
    · exact ha
  · exact ha

theorem canon_endCopy {k} (h : s.Canon) : (s.endCopy k).Canon := by
  fun_cases State.endCopy
  · exact canon_finishOp (canon_foldl (fun _ _ h => canon_arriveAt h) h)
  · exact h

theorem canon_opPerformed {k lanes ext} (h : s.Canon) : (s.opPerformed k lanes ext).Canon := by
  fun_cases State.opPerformed
  · exact canon_dropOp (canon_leaveCluster h)
  · exact h
  · exact canon_moveCopy h
  · exact h
  · exact canon_performOp h

theorem canon_logCopy {core e} (h : s.Canon) : (s.logCopy core e).Canon := by
  fun_cases State.logCopy <;> exact h

theorem canon_abandon {k cause addr lane} (h : s.Canon) : (s.abandon k cause addr lane).Canon := by
  fun_cases State.abandon
  · exact canon_voidOps (canon_setOp h)
  · exact canon_settleHalt (canon_setWarp (canon_setOp h))

theorem canon_copyFault {k cause addr member written ext} (h : s.Canon) :
    (s.copyFault k cause addr member written ext).Canon := by
  fun_cases State.copyFault
  · exact h
  · exact canon_moveCopy h
  · exact canon_abandon (canon_logCopy (canon_foldl (fun _ _ h => canon_spoilWord h) (canon_moveCopy h)))


/-! ## The fabric -/

theorem canon_xferWarp {i x get w} (h : s.Canon) : (xferWarp i x get w s).Canon := by
  fun_cases xferWarp
  · exact h
  · exact canon_issueCopy h

theorem canon_collWarp {x w} (h : s.Canon) : (collWarp x w s).Canon := by
  fun_cases collWarp
  exact canon_issueCopy h

theorem canon_flinkqWarp {x w} (h : s.Canon) : (flinkqWarp x w s).Canon := by
  fun_cases flinkqWarp
  · exact h
  · exact canon_setWarp h

theorem canon_fabricPlace {c window need va n} (h : s.Canon) : (s.fabricPlace c window need va n).2.Canon := by
  have ht := canon_translate (die := c.core / 16) (asid := c.asid) (va := va) h
  unfold State.fabricPlace
  dsimp only
  split
  · split <;> exact h
  · split
    · exact h
    · split
      · exact ht
      · split <;> exact ht

theorem canon_fabricPlaces {c window need l} (h : s.Canon) : (s.fabricPlaces c window need l).2.Canon := by
  fun_induction State.fabricPlaces with
  | case1 => exact h
  | case2 _ _ _ _ _ _ e => exact canon_snd e (canon_fabricPlace h)
  | case3 _ _ _ _ _ _ e _ _ e' ih => exact canon_snd e' (ih (canon_snd e (canon_fabricPlace h)))
  | case4 _ _ _ _ _ _ e _ ih => exact ih (canon_snd e (canon_fabricPlace h))

theorem canon_fabricRange {c window need va n} (h : s.Canon) : (s.fabricRange c window need va n).2.Canon :=
  canon_fabricPlaces h

theorem canon_fabricWrite {asid l bs} (h : s.Canon) : (s.fabricWrite asid l bs).Canon := by
  induction l generalizing s bs with
  | nil => exact h
  | cons x l ih =>
    refine ih ?_
    split
    · exact canon_ite (canon_msWrite h) (canon_writeHome (canon_atSlice h))
    · exact canon_pokeScratch h
    · exact h

theorem canon_fabricPut {o l bs} (h : s.Canon) : (s.fabricPut o l bs).Canon := by
  refine List.foldlRecOn (motive := fun a : State × List Byte => a.1.Canon) _ _ (canon_fabricWrite h) (fun a ha p _
      => ?_)
  dsimp only
  split
  · exact canon_engineSeen (canon_forget ha)
  · exact canon_forget ha

theorem canon_abandonXfer {k cause addr rcd lane word} (h : s.Canon) :
    (s.abandonXfer k cause addr rcd lane word).Canon := by
  refine canon_ite h (canon_abandon (canon_logCopy ?_))
  split
  · exact canon_ite (canon_spoilWord h) h
  · exact h

theorem canon_abandonTransfer {k cause addr} (h : s.Canon) : (s.abandonTransfer k cause addr).Canon := by
  fun_cases State.abandonTransfer
  exact canon_abandonXfer h

theorem canon_refuseWord {word} (h : s.Canon) : (s.refuseWord word).Canon := by
  fun_cases State.refuseWord
  · exact canon_spoilWord h
  · exact h
  · exact h

theorem canon_peerPlaces {job toScratch addr blk n need first} (h : s.Canon) :
    (s.peerPlaces job toScratch addr blk n need first).2.Canon := by
  fun_cases State.peerPlaces
  · exact h
  · exact h
  · exact canon_snd ‹_› (canon_fabricRange h)
  · exact canon_snd ‹_› (canon_fabricRange h)

theorem canon_inbound {job toScratch addr blk aw last bytes xfer} (h : s.Canon) :
    (s.inbound job toScratch addr blk aw last bytes xfer).Canon := by
  fun_cases State.inbound
  · exact h
  · exact canon_xfers (canon_refuseWord (canon_snd ‹_› (canon_peerPlaces h)))
  · exact canon_snd ‹_› (canon_peerPlaces h)
  · exact canon_xfers (canon_refuseWord (canon_snd ‹_› (canon_peerPlaces h)))
  · next w _ _ _ _ _ s2 s3 e =>
    have h2 : s2.Canon := canon_fabricWrite (canon_snd e (canon_peerPlaces h))
    have h3 : s3.Canon := by
      clear_value w
      unfold s3
      split
      · exact canon_arriveAt h2
      · exact h2
    exact canon_xfers h3

theorem canon_ownPlaces {o need} (h : s.Canon) : (s.ownPlaces o need).2.Canon := by
  fun_cases State.ownPlaces
  exact canon_peerPlaces h

theorem canon_failXfer {k cause} (h : s.Canon) : (s.failXfer k cause).Canon := by
  fun_cases State.failXfer
  · exact h
  · exact canon_abandonTransfer (canon_refuseWord h)
  · exact canon_abandonTransfer h

theorem canon_xferAck {k} (h : s.Canon) : (s.xferAck k).Canon := by
  fun_cases State.xferAck
  · exact h
  · exact canon_abandonTransfer (canon_snd ‹_› (canon_fabricRange (canon_opRelease h)))
  · exact canon_snd ‹_› (canon_fabricRange (canon_opRelease h))
  · exact canon_finishOp (canon_snd ‹_› (canon_fabricRange (canon_opRelease h)))
  · exact canon_failXfer (canon_snd ‹_› (canon_ownPlaces (canon_snd ‹_› (canon_fabricRange (canon_opRelease h)))))
  · exact canon_snd ‹_› (canon_ownPlaces (canon_snd ‹_› (canon_fabricRange (canon_opRelease h))))
  · exact canon_failXfer (canon_snd ‹_› (canon_ownPlaces (canon_snd ‹_› (canon_fabricRange (canon_opRelease h)))))
  · exact canon_finishOp (canon_arriveAt (canon_fabricPut (canon_snd ‹_› (canon_ownPlaces (canon_snd ‹_›
      (canon_fabricRange (canon_opRelease h)))))))
  · exact canon_finishOp (canon_fabricPut (canon_snd ‹_› (canon_ownPlaces (canon_snd ‹_› (canon_fabricRange
      (canon_opRelease h))))))

theorem canon_xferData {k bytes} (h : s.Canon) : (s.xferData k bytes).Canon := by
  refine canon_ite h ?_
  split
  · exact canon_abandonTransfer (canon_snd ‹_› (canon_fabricRange (canon_opRelease h)))
  · next s1 e =>
    have h1 := canon_snd e (canon_fabricRange (canon_opRelease h))
    dsimp only
    generalize hq : (if s1.ownRank (s.op k) then s1.ownPlaces (s.op k) { read := true } else (some [], s1)) = q
    have h2 : q.2.Canon := hq ▸ canon_ite_snd (canon_ownPlaces h1) h1
    split
    · exact canon_failXfer h2
    · refine canon_ite h2 (canon_ite (canon_finishOp (canon_fabricPut h2)) ?_)
      split
      · exact canon_abandonXfer h2
      · exact canon_ite h2 (canon_finishOp (canon_arriveAt (canon_fabricPut h2)))

theorem canon_xferRefused {k} (h : s.Canon) : (s.xferRefused k).Canon := by
  fun_cases State.xferRefused
  · exact h
  · exact canon_failXfer h

theorem canon_landing {x1} (h : s.Canon) : (s.landing x1).Canon := by
  fun_cases State.landing
  · exact canon_inbound h
  · exact canon_xferAck h
  · exact canon_xferData h
  · exact canon_xferRefused h

theorem canon_abortArrives {a} (h : s.Canon) : (s.abortArrives a).Canon := by
  fun_cases State.abortArrives
  · exact h
  · exact h
  · exact h
  · next w s1 _ _ _ =>
    have h1 : s1.Canon := by
      clear_value w
      unfold s1
      split
      · exact canon_spoilWord h
      · exact h
    exact canon_xfers h1

theorem canon_peerRequest {x1} (h : s.Canon) : (s.peerRequest x1).Canon := by
  fun_cases State.peerRequest
  · exact h
  · exact canon_writeHome (canon_atSlice h)
  · exact h
  · exact canon_setLine (canon_atSlice h)
  · exact h
  · exact canon_setLine (canon_atSlice h)
  · exact h

theorem canon_abandonColl {k cause addr word} (h : s.Canon) : (s.abandonColl k cause addr word).Canon := by
  fun_cases State.abandonColl
  exact canon_abandonXfer h

theorem canon_collEnd {k r} (h : s.Canon) : (s.collEnd k r).Canon := by
  fun_cases State.collEnd
  · exact h
  · exact canon_abandonColl h
  · exact canon_abandonColl (canon_snd ‹_› (canon_fabricPlace (canon_opRelease h)))
  · exact canon_snd ‹_› (canon_fabricPlace (canon_opRelease h))
  · exact canon_abandonColl (canon_snd ‹_› (canon_fabricPlace (canon_opRelease h)))
  · exact canon_abandonColl (canon_snd ‹_› (canon_fabricPlace (canon_opRelease h)))
  · exact canon_abandonColl (canon_snd ‹_› (canon_fabricPlace (canon_opRelease h)))
  · exact canon_abandonColl (canon_snd ‹_› (canon_fabricRange (canon_snd ‹_› (canon_fabricPlace (canon_opRelease
      h)))))
  · exact canon_abandonColl (canon_snd ‹_› (canon_fabricRange (canon_snd ‹_› (canon_fabricRange (canon_snd ‹_›
      (canon_fabricPlace (canon_opRelease h)))))))
  · exact canon_abandonColl (canon_snd ‹_› (canon_fabricRange (canon_snd ‹_› (canon_fabricRange (canon_snd ‹_›
      (canon_fabricPlace (canon_opRelease h)))))))
  · exact canon_abandonColl (canon_snd ‹_› (canon_fabricRange (canon_snd ‹_› (canon_fabricRange (canon_snd ‹_›
      (canon_fabricPlace (canon_opRelease h)))))))
  · exact canon_abandonColl (canon_snd ‹_› (canon_fabricRange (canon_snd ‹_› (canon_fabricRange (canon_snd ‹_›
      (canon_fabricPlace (canon_opRelease h)))))))
  · exact canon_snd ‹_› (canon_fabricRange (canon_snd ‹_› (canon_fabricRange (canon_snd ‹_› (canon_fabricPlace
      (canon_opRelease h))))))
  · exact canon_finishOp (canon_arriveAt (canon_fabricPut (canon_snd ‹_› (canon_fabricRange (canon_snd ‹_›
      (canon_fabricRange (canon_snd ‹_› (canon_fabricPlace (canon_opRelease h)))))))))

theorem canon_laneFails {port lane} (h : s.Canon) : (s.laneFails port lane).Canon := by
  fun_cases State.laneFails <;> exact h

theorem canon_retrained {port} (h : s.Canon) : (s.retrained port).Canon := by
  fun_cases State.retrained
  · exact h
  · exact canon_ports (canon_draw h)


/-! ## Tasks -/

theorem canon_unitLoad {w i g e args} (h : s.Canon) : (s.unitLoad w i g e args).Canon := canon_runOrBlock h

theorem canon_launchWarp {i x trig w} (h : s.Canon) : (launchWarp i x trig w s).Canon := by
  fun_cases launchWarp
  · exact canon_snd ‹_› (canon_checkElem h)
  · exact canon_unitLoad (canon_snd ‹_› (canon_checkElem h))
  · exact canon_snd ‹_› (canon_checkElem h)
  · exact canon_snd ‹_› (canon_checkElem h)
  · exact canon_unitLoad (canon_snd ‹_› (canon_checkElem h))

theorem canon_spawnWarp {x w} (h : s.Canon) : (spawnWarp x w s).Canon := by
  fun_cases spawnWarp
  · exact h
  · exact canon_setWarp h
  · next now _ _ _ =>
    unfold now
    split
    · exact canon_acceptSpawn h _ ‹_›
    · exact h
  · next now _ _ _ _ _ e =>
    have h1 := canon_snd e (canon_checkElem h)
    unfold now
    split
    · exact canon_acceptSpawn h1 _ ‹_›
    · exact h1
  · exact canon_unitLoad (canon_snd ‹_› (canon_checkElem h))

theorem canon_nodeqWarp {x w} (h : s.Canon) : (nodeqWarp x w s).Canon := by
  fun_cases nodeqWarp
  · exact canon_setWarp h
  · exact canon_setWarp h
  · exact canon_setWarp (canon_draw (canon_snd ‹_› (canon_checkElem h)))
  · exact canon_unitLoad (canon_snd ‹_› (canon_checkElem h))

theorem canon_beginCancel {j} (h : s.Canon) : (s.beginCancel j).Canon := by
  unfold State.beginCancel
  exact canon_entries (canon_setJob h)

theorem canon_cancelWarp {x w} (h : s.Canon) : (cancelWarp x w s).Canon := by
  fun_cases cancelWarp
  · exact h
  · exact canon_setWarp h
  · exact canon_setWarp h
  · exact canon_setWarp (canon_fst ‹_› (canon_launchOp (canon_beginCancel h)))

theorem canon_clearArray {core} (h : s.Canon) : (s.clearArray core).Canon := canon_setArr h

theorem canon_served {k} (h : s.Canon) : (s.served k).Canon := by
  fun_cases State.served
  · exact canon_setEntry h
  · exact canon_freeEntry h

theorem canon_placeVector {die k cores} (h : s.Canon) : CanonIf (s.placeVector die k cores) := by
  fun_cases State.placeVector
  · exact canon_some (canon_served (canon_putBlock h))
  · exact canon_none

theorem canon_putGangBlock {die bay g e first i} (h : s.Canon) : CanonIf (s.putGangBlock die bay g e first i) := by
  fun_cases State.putGangBlock
  · exact canon_some (canon_clearArray (canon_putBlock h))
  · exact canon_none

theorem canon_putGang {die bay g e first n acc t} (h : s.Canon) (ht : State.putGang s die bay g e first n acc = some
    t) :
    t.1.Canon := by
  induction n generalizing s acc with
  | zero => cases ht; exact h
  | succ n ih =>
    unfold State.putGang at ht
    split at ht
    · exact ih (canon_putGangBlock h _ ‹_›) ht
    · cases ht

theorem canon_putInstance {die bay index e} (h : s.Canon) : CanonIf (s.putInstance die bay index e) := by
  fun_cases State.putInstance
  · exact canon_none
  · exact canon_some (canon_setMcc (canon_setGang (canon_foldl (fun _ _ h => canon_addMember h)
      (canon_snd ‹_› (canon_findCluster (canon_putGang (t := (_, _)) (canon_nextGang h) ‹_›))))))

theorem canon_placeGang {die k cores} (h : s.Canon) : CanonIf (s.placeGang die k cores) := by
  fun_cases State.placeGang
  · next e =>
    obtain ⟨_, _, e⟩ := List.exists_of_findSome?_eq_some e
    exact canon_some (canon_served (canon_putInstance h _ e))
  · exact canon_none

theorem canon_serveBind {die x} (h : s.Canon) : CanonIf (s.serveBind die x) := by
  fun_cases State.serveBind
  · exact canon_none
  · exact canon_placeGang h
  · exact canon_placeVector h

theorem canon_formBlock {k} (h : s.Canon) : (s.formBlock k).Canon := by
  fun_cases State.formBlock
  · exact h
  · exact canon_takeEntry (canon_setBin h)


/-! ## Preemption and relaunch -/

theorem canon_orphan {w} (h : s.Canon) : (s.orphan w).Canon := by
  fun_cases State.orphan
  exact canon_ops (canon_voidOps h)

theorem canon_killWarp {w} (h : s.Canon) : (s.killWarp w).Canon := by
  fun_cases State.killWarp
  · exact h
  · exact canon_past (canon_setWarp (canon_orphan h))

theorem canon_killBlock {b} (h : s.Canon) : (s.killBlock b).Canon := by
  fun_cases State.killBlock
  exact canon_intents (canon_foldl (fun _ _ h => canon_killWarp h) h)

theorem canon_releaseBlock {b} (h : s.Canon) : (s.releaseBlock b).Canon := by
  fun_cases State.releaseBlock
  exact canon_releaseWhere h

theorem canon_dropTriggersOn {b} (h : s.Canon) : (s.dropTriggersOn b).Canon := by
  fun_cases State.dropTriggersOn
  exact canon_foldl (fun _ _ h => canon_ite (canon_setEntry h) (canon_dropTrigger
      h)) h

theorem canon_reportBlock {b} (h : s.Canon) : (s.reportBlock b).Canon := by
  fun_cases State.reportBlock
  · exact h
  · exact canon_setJob (canon_post h)

theorem canon_freeBlock {b} (h : s.Canon) : (s.freeBlock b).Canon := by
  fun_cases State.freeBlock
  exact canon_serveGone (canon_setBlock (canon_ite (canon_coreLeft (canon_foldl (fun _
      _ h => canon_past (canon_setWarp (canon_orphan h))) (canon_leaveCluster (canon_dropTriggersOn
      (canon_releaseBlock h))))) (canon_foldl (fun _ _ h => canon_past (canon_setWarp (canon_orphan h)))
      (canon_leaveCluster (canon_dropTriggersOn (canon_releaseBlock h))))))

theorem canon_dropMccWait {k} (h : s.Canon) : (s.dropMccWait k).Canon := by
  fun_cases State.dropMccWait
  exact canon_setPantry h

theorem canon_freeBay {g} (h : s.Canon) : (s.freeBay g).Canon := by
  fun_cases State.freeBay
  exact canon_gangs_lastBusy (canon_setMcc (canon_dropMccWait h))

theorem canon_retireBlock {b} (h : s.Canon) : (s.retireBlock b).Canon := by
  fun_cases State.retireBlock
  exact canon_endJob (canon_setJob (canon_freeBlock (canon_reportBlock h)))

theorem canon_tryRetire {b} (h : s.Canon) : (s.tryRetire b).Canon := by
  fun_cases State.tryRetire
  · exact h
  · exact canon_freeBay (canon_foldl (fun _ _ h => canon_retireBlock h) h)
  · exact h
  · exact canon_retireBlock h
  · exact canon_revoke h
  · exact canon_retireBlock h
  · exact h

theorem canon_haltAll {b cause addr dead} (h : s.Canon) : (s.haltAll b cause addr dead).Canon := by
  fun_cases State.haltAll
  · exact canon_setMcc (canon_ite (canon_foldl (fun _ _ h => canon_foldl (fun _ _ h => canon_ite h (canon_setWarp
      (canon_ite h (canon_haltAt h)))) h) h) (canon_faultMcc (canon_foldl (fun _ _ h => canon_foldl (fun _ _ h =>
      canon_ite h (canon_setWarp (canon_ite h (canon_haltAt h)))) h) h)))
  · exact canon_foldl (fun _ _ h => canon_foldl (fun _ _ h => canon_ite h (canon_setWarp (canon_ite h (canon_haltAt
      h)))) h) h

theorem canon_askRelaunch {b} (h : s.Canon) : (s.askRelaunch b).Canon := by
  fun_cases State.askRelaunch
  · exact canon_haltAll h
  · exact canon_setMcc (canon_dropMccWait (canon_foldl (fun _ _ h => canon_serveGone (canon_setBlock (canon_killBlock
      h))) h))
  · exact canon_foldl (fun _ _ h => canon_serveGone (canon_setBlock (canon_killBlock h))) h

theorem canon_putAnew {x cores} (h : s.Canon) : CanonIf (s.putAnew x cores) := by
  intro t ht
  obtain ⟨c, _, e⟩ := List.exists_of_findSome?_eq_some ht
  split at e
  · cases e
    exact canon_putBlock h
  · cases e

theorem canon_removeBlock {b} (h : s.Canon) : (s.removeBlock b).Canon := canon_retireBlock h

theorem canon_removeAll {b} (h : s.Canon) : (s.removeAll b).Canon := by
  fun_cases State.removeAll
  · exact canon_freeBay (canon_foldl (fun _ _ h => canon_removeBlock h) h)
  · exact canon_foldl (fun _ _ h => canon_removeBlock h) h

theorem canon_relaunch {b} (h : s.Canon) : (s.relaunch b).Canon := by
  fun_cases State.relaunch
  · exact h
  · exact canon_removeAll h
  · exact canon_getD (canon_putAnew (canon_draw (canon_freeBlock h))) h
  · refine canon_getD (fun t ht => ?_) h
    obtain ⟨_, _, e⟩ := List.exists_of_findSome?_eq_some ht
    exact canon_putInstance (canon_draw (canon_freeBay (canon_foldl (fun _ _ h => canon_freeBlock h) h))) _ e

theorem canon_lateFaultOf {k lanes cause} (h : s.Canon) : (s.lateFaultOf k lanes cause).Canon := by
  fun_cases State.lateFaultOf
  · exact canon_askRelaunch (canon_lateFault h)
  · exact canon_lateFault h

theorem canon_deliverWarp {w c} (h : s.Canon) : (s.deliverWarp w c).Canon := by
  fun_cases State.deliverWarp
  · exact h
  · exact canon_killWarp h
  · exact canon_setWarp h

theorem canon_stopMcc {b} (h : s.Canon) : (s.stopMcc b).Canon := by
  fun_cases State.stopMcc
  · exact canon_setMcc (canon_dropMccWait h)
  · exact h

theorem canon_deliverOne {b c} (h : s.Canon) : (s.deliverOne b c).Canon := by
  fun_cases State.deliverOne
  · exact h
  · exact canon_setBlock h
  · exact h
  · exact canon_setBlock h
  · exact canon_foldl (fun _ _ h => canon_deliverWarp h) (canon_stopMcc (canon_setBlock h))

theorem canon_deliver {b c} (h : s.Canon) : (s.deliver b c).Canon := by
  fun_cases State.deliver
  · exact canon_deliverOne h
  · exact canon_foldl (fun _ _ h => canon_deliverOne h) h

theorem canon_cancelsEnd {j} (h : s.Canon) : (s.cancelsEnd j).Canon := by
  fun_cases State.cancelsEnd
  refine canon_foldl (fun _ _ h => ?_) h
  split
  · exact canon_ite (canon_setOp h) (canon_dropOp (canon_setWarp h))
  · exact h

theorem canon_cancelPoint {die j} (h : s.Canon) : (s.cancelPoint die j).Canon := by
  fun_cases State.cancelPoint
  · exact h
  · exact canon_endJob (canon_ite (canon_cancelsEnd (canon_foldl (fun _ _ h => canon_ite (canon_deliverOne h)
      (canon_ite (canon_removeAll h) h)) (canon_entries_bins (canon_setJob h)))) (canon_foldl (fun _ _ h => canon_ite
      (canon_deliverOne h) (canon_ite (canon_removeAll h) h)) (canon_entries_bins (canon_setJob h))))

theorem canon_tryEnter {w} (h : s.Canon) : (s.tryEnter w).Canon := by
  fun_cases State.tryEnter
  · exact canon_enterHandler h
  · exact h
  · exact h

theorem canon_handlerRelease {w} (h : s.Canon) : (s.handlerRelease w).Canon := by
  fun_cases State.handlerRelease
  exact canon_releaseWhere (canon_releaseFor h)

theorem canon_forceSave {w c} (h : s.Canon) : (s.forceSave w c).Canon := by
  fun_cases State.forceSave
  exact canon_setWarp (canon_hardWrite (canon_hardWrite (canon_ite
      (canon_handlerRelease h) (canon_ite (canon_writeFrame (canon_setWarp (canon_handlerRelease h)))
      (canon_hardWrite (canon_setWarp (canon_handlerRelease h)))))))

theorem canon_trySave {w} (h : s.Canon) : (s.trySave w).Canon := by
  fun_cases State.trySave
  · exact canon_forceSave h
  · exact h
  · exact h

theorem canon_writeImage {b} (h : s.Canon) : (s.writeImage b).Canon := by
  fun_cases State.writeImage
  exact canon_hardWrite (canon_hardWrite h)

theorem canon_toImage {b} (h : s.Canon) : (s.toImage b).Canon := by
  fun_cases State.toImage
  exact canon_setBlock (canon_coreLeft (canon_writeImage (canon_releaseBlock h)))

theorem canon_leave {b} (h : s.Canon) : (s.leave b).Canon := by
  fun_cases State.leave
  case case6 =>
    rename_i all _ _ _ _ _ _ s1 _ _ _ _
    have h1 : s1.Canon := by
      clear_value all
      unfold s1
      split
      · exact canon_hardWrite h
      · exact h
    exact canon_lastBusy (canon_setGang (canon_setMcc (canon_foldl (fun _ _ h => canon_toImage h) h1)))
  case case3 => exact canon_removeAll h
  case case7 => exact canon_toImage h
  case case8 => exact canon_setBlock (canon_releaseBlock h)
  all_goals exact h

theorem canon_emptyL1 {core} (h : s.Canon) : (s.emptyL1 core).Canon := h

theorem canon_migrate {core p} (h : s.Canon) : (s.migrate core p).Canon := by
  fun_cases State.migrate
  · exact h
  · exact canon_foldl (fun _ _ h => canon_setBlock h) (canon_setLarder (canon_emptyL1 h))

theorem canon_failBay {k} (h : s.Canon) : (s.failBay k).Canon := by
  fun_cases State.failBay
  · exact h
  · exact canon_setMcc h

theorem canon_failCore {p} (h : s.Canon) : (s.failCore p).Canon := by
  fun_cases State.failCore <;> exact h

theorem canon_afterResume {b} (h : s.Canon) : (s.afterResume b).Canon := by
  unfold State.afterResume
  extract_lets back x s1 s2
  have h1 : s1.Canon := canon_setBlock h
  have h2 : s2.Canon := by
    unfold s2
    split
    · exact canon_ite (canon_setMcc h1) h1
    · exact h1
  refine canon_ite h (canon_ite (canon_deliverOne h2) ?_)
  split
  · exact canon_deliver h2
  · exact h2

theorem canon_resumeWarp {w} (h : s.Canon) : (s.resumeWarp w).Canon := by
  fun_cases State.resumeWarp
  · exact canon_setWarp (canon_setWarp h)
  · exact canon_setWarp (canon_setWarp h)
  · exact canon_restoreWarp (canon_setWarp (canon_setWarp h))
  · exact canon_restoreWarp (canon_setWarp (canon_setWarp h))
  · exact canon_hardWrite (canon_setWarp (canon_setWarp h))

theorem canon_resumeBlock {b} (h : s.Canon) : (s.resumeBlock b).Canon := by
  fun_cases State.resumeBlock
  exact canon_afterResume (canon_foldl (fun _ _ h => canon_resumeWarp h)
      (canon_setBlock h))

theorem canon_fromImage {b core base slot} (h : s.Canon) : (s.fromImage b core base slot).Canon := by
  fun_cases State.fromImage
  exact canon_foldl (fun _ _ h => canon_setWarp h) (canon_emptyL1 (canon_setBlock h))

theorem canon_loadMcc {g k rcd n} (h : s.Canon) : (s.loadMcc g k rcd n).Canon := by
  fun_cases State.loadMcc
  exact canon_foldl (fun _ _ h => canon_setArr h) (canon_setMcc h)

theorem canon_replaceGang {g} (h : s.Canon) : CanonIf (s.replaceGang g) := by
  fun_cases State.replaceGang
  · exact canon_none
  · exact canon_none
  · exact canon_some (canon_foldl (fun _ _ h => canon_resumeBlock h) (canon_loadMcc (canon_foldl (fun _ _ h =>
      canon_clearArray (canon_fromImage h)) (canon_setGang (canon_draw h)))))

theorem canon_replace {b} (h : s.Canon) : (s.replace b).Canon := by
  fun_cases State.replace
  · exact canon_resumeBlock h
  · exact h
  · exact canon_getD (canon_replaceGang h) h
  · exact canon_resumeBlock (canon_fromImage (canon_draw h))
  · exact h

theorem canon_machineCheck {w part} (h : s.Canon) : (s.machineCheck w part).Canon := by
  generalize hf : State.machineCheck = f
  delta State.machineCheck at hf
  subst hf
  beta_reduce
  extract_lets +onlyGivenNames wp b
  clear_value wp b
  split
  · exact h
  · exact canon_ite h (canon_post (canon_haltAt h))


/-! ## System registers -/

theorem canon_fflagsWarp {x w} (h : s.Canon) : (fflagsWarp x w s).Canon := by
  fun_cases fflagsWarp
  exact canon_setWarp h

theorem canon_rngWarp {x w} (h : s.Canon) : (rngWarp x w s).Canon := by
  fun_cases rngWarp
  exact canon_setWarp h

theorem canon_tlbinvWarp {x w} (h : s.Canon) : (tlbinvWarp x w s).Canon := by
  fun_cases tlbinvWarp
  · exact h
  · exact canon_runOrBlock h

theorem canon_resumepcWarp {x w} (h : s.Canon) : (resumepcWarp x w s).Canon := by
  fun_cases resumepcWarp
  · exact h
  · exact h
  · exact canon_setWarp h

theorem canon_srdWarp {x w} (h : s.Canon) : (srdWarp x w s).Canon := by
  fun_cases srdWarp
  · exact canon_setWarp h
  · exact canon_setWarp h
  · exact h

theorem canon_rettWarp {w} (h : s.Canon) : (rettWarp w s).Canon := by
  fun_cases rettWarp
  · exact canon_afterResume (canon_restoreWarp (canon_handlerRelease h))
  · exact h

theorem canon_onceReady {i k} (h : s.Canon) (hk : CanonAfter k) : CanonAfter (onceReady i s k) := by
  fun_cases onceReady
  · exact canon_next h
  · exact hk
  · exact hk

theorem canon_yieldpWarp {w} (h : s.Canon) : (yieldpWarp w s).Canon := by
  fun_cases yieldpWarp
  · exact h
  · exact canon_hardWrite (canon_setWarp (canon_handlerRelease h))

theorem canon_trapWarp {x w} (h : s.Canon) : (trapWarp x w s).Canon := by
  fun_cases trapWarp
  exact canon_haltAt h


/-! ## Prices -/

theorem canon_charge {core n me prio rank} (h : s.Canon) : (s.charge core n me prio rank).Canon := by
  fun_cases State.charge
  · exact trivial
  · exact canon_setPantry h
  · exact trivial

theorem canon_chargeWarp {w n} (h : s.Canon) : (s.chargeWarp w n).1.Canon := by
  fun_cases State.chargeWarp
  · exact canon_setWarp (Charged.canon_of ‹_› (canon_charge h))
  · exact h
  · exact canon_setWarp h

theorem canon_chargeMcc {k n} (h : s.Canon) : (s.chargeMcc k n).1.Canon := by
  fun_cases State.chargeMcc
  · exact canon_setPantry (Charged.canon_of ‹_› (canon_charge h))
  · exact h
  · exact canon_setPantry h

theorem canon_chargeArray {core n} (h : s.Canon) : (s.chargeArray core n).1.Canon := by
  fun_cases State.chargeArray
  · exact canon_setPantry (Charged.canon_of ‹_› (canon_charge h))
  · exact h
  · exact canon_setPantry h


/-! ## The matrix unit -/

theorem canon_enqueue {k i e load comp} (h : s.Canon) : (s.enqueue k i e load comp).Canon := by
  fun_cases State.enqueue
  exact canon_setArr (canon_setMcc h)

theorem canon_onRoom {i body} (hbody : KeepsCanon body) (h : s.Canon) : CanonAfter (onRoom i body s) := by
  fun_cases onRoom
  · exact canon_next (canon_ite (canon_runMcc hbody h) h)
  · exact canon_fault

theorem canon_onArray {i body k} (hbody : KeepsCanon body) (h : s.Canon) : (onArray i body k s).Canon := by
  fun_cases onArray
  · exact hbody h
  · exact h

theorem canon_msclBody {x k} (h : s.Canon) : (msclBody x k s).Canon := by
  fun_cases msclBody
  · exact h
  · exact h
  · exact canon_enqueue h

theorem canon_mldsBody {x k} (h : s.Canon) : (mldsBody x k s).Canon := by
  fun_cases mldsBody
  · exact h
  · exact h
  · exact h
  · exact h
  · exact h
  · exact canon_enqueue h

theorem canon_mstrmBody {x k} (h : s.Canon) : (mstrmBody x k s).Canon := by
  fun_cases mstrmBody
  · exact h
  · exact h
  · exact h
  · exact h
  · exact h
  · exact canon_enqueue h

theorem canon_mclrBody {x k} (h : s.Canon) : (mclrBody x k s).Canon := by
  fun_cases mclrBody
  · exact h
  · exact canon_enqueue h

theorem canon_mwaitgBody {x k} (h : s.Canon) : (mwaitgBody x k s).Canon := by
  fun_cases mwaitgBody
  · exact h
  · exact h
  · exact h
  · exact canon_setMcc h

theorem canon_marriveBody {x k} (h : s.Canon) : (marriveBody x k s).Canon := by
  fun_cases marriveBody
  · exact h
  · exact h
  · exact canon_setMcc h

theorem canon_mstatBody {x k} (h : s.Canon) : (mstatBody x k s).Canon := by
  fun_cases mstatBody
  exact canon_ite (canon_setArr (canon_setMcc h)) (canon_setMcc h)

theorem canon_startWork {core n begun} (h : s.Canon) : (s.startWork core n begun).1.Canon := by
  fun_cases State.startWork
  · exact h
  · exact canon_chargeArray h

/-- A record's die is brought to the slice of the line it is fetched from. -/
theorem canon_homeSlice {p : Place} {asid : Option Nat} (h : s.Canon) : State.Canon (match p with
    | .home pa _ false => s.atSlice pa asid none
    | _ => s) := by
  split
  · exact canon_atSlice h
  · exact h
theorem canon_feed {c ext l} (h : s.Canon) : (s.feed c ext l).2.Canon := by
  induction l generalizing s ext with
  | nil => exact h
  | cons va l ih =>
    unfold State.feed
    split
    · next e => exact canon_snd e (canon_ite_snd h (canon_checkElem h))
    · next p s1 e =>
      have h1 := canon_homeSlice (p := p) (asid := some c.asid) (canon_snd e (canon_ite_snd h (canon_checkElem h)))
      dsimp only
      split
      · next e2 => exact canon_snd e2 (canon_engineRead h1)
      · next e2 =>
        have h2 := canon_snd e2 (canon_engineRead h1)
        split
        · next e3 => exact canon_snd e3 (ih h2)
        · exact ih h2

theorem canon_planeBytes {core a p rb g ext} (h : s.Canon) : (s.planeBytes core a p rb g ext).2.Canon := by
  fun_cases State.planeBytes
  · exact canon_feed h
  · exact h

theorem canon_runMlds {core ext} (h : s.Canon) : (s.runMlds core ext).Canon := by
  fun_cases State.runMlds
  · exact canon_fst ‹_› (canon_startWork h)
  · exact canon_setArr (canon_snd ‹_› (canon_planeBytes (canon_setArr (canon_fst ‹_› (canon_startWork h)))))
  · exact canon_snd ‹_› (canon_planeBytes (canon_setArr (canon_fst ‹_› (canon_startWork h))))
  · exact h

theorem canon_runMswap {core} (h : s.Canon) : (s.runMswap core).Canon := by
  fun_cases State.runMswap
  · exact canon_setArr (canon_fst ‹_› (canon_chargeArray h))
  · exact canon_fst ‹_› (canon_chargeArray h)
  · exact h

theorem canon_writeAcc {core row f} (h : s.Canon) : (s.writeAcc core row f).Canon := by
  fun_cases State.writeAcc
  exact h

theorem canon_enterRow {core} (h : s.Canon) : (s.enterRow core).Canon := by
  fun_cases State.enterRow
  · exact canon_setArr (canon_fst ‹_› (canon_chargeArray h))
  · exact canon_fst ‹_› (canon_chargeArray h)
  · exact h

theorem canon_rowElems {core els} (h : s.Canon) : (s.rowElems core els).Canon := by
  fun_cases State.rowElems
  · exact canon_setArr (canon_writeAcc h)
  · exact h

theorem canon_runRow {core} (h : s.Canon) : (s.runRow core).Canon := by
  fun_cases State.runRow
  · exact canon_enterRow h
  · exact canon_setArr (canon_rowElems (canon_enterRow h))

theorem canon_enterClr {core} (h : s.Canon) : (s.enterClr core).Canon := by
  fun_cases State.enterClr
  · exact canon_setArr (canon_fst ‹_› (canon_chargeArray h))
  · exact canon_fst ‹_› (canon_chargeArray h)
  · exact h

theorem canon_clrElems {core els} (h : s.Canon) : (s.clrElems core els).Canon := by
  fun_cases State.clrElems
  · exact canon_setArr h
  · exact h

theorem canon_runMclr {core} (h : s.Canon) : (s.runMclr core).Canon := by
  fun_cases State.runMclr
  · exact canon_setArr (canon_clrElems (canon_enterClr h))
  · exact canon_enterClr h

theorem canon_earlyRow {core els} (h : s.Canon) : (s.earlyRow core els).Canon :=
  canon_clrElems (canon_enterClr (canon_rowElems (canon_enterRow h)))

theorem canon_makeArrival {k} (h : s.Canon) : (s.makeArrival k).Canon := by
  fun_cases State.makeArrival
  · exact h
  · exact h
  · exact canon_arriveAt (canon_setMcc h)

theorem canon_scrub {k} (h : s.Canon) : (s.scrub k).Canon := by
  fun_cases State.scrub
  exact canon_setMcc (canon_foldl (fun _ _ h => canon_setPantry (canon_setArr
      (canon_clearArray h))) h)

theorem canon_operandFault {core cause addr} (h : s.Canon) : (s.operandFault core cause addr).Canon := by
  fun_cases State.operandFault
  · exact h
  · exact canon_askRelaunch (canon_scrub h)
  · exact canon_haltAll (canon_scrub h)

theorem canon_watchdogMcc {k} (h : s.Canon) : (s.watchdogMcc k).Canon := by
  fun_cases State.watchdogMcc
  · exact canon_faultMcc h
  · exact h
  · exact h

theorem canon_onAcc {i g body} (hbody : KeepsCanon body) (h : s.Canon) : CanonAfter (onAcc i g body s) := by
  fun_cases onAcc
  · exact canon_next h
  · exact canon_next (canon_runIssue hbody h)
  · exact canon_fault

theorem canon_accrdWarp {x w} (h : s.Canon) : (accrdWarp x w s).Canon := by
  fun_cases accrdWarp
  · exact h
  · exact canon_setWarp h

theorem canon_accwrWarp {x w} (h : s.Canon) : (accwrWarp x w s).Canon := by
  fun_cases accwrWarp
  · exact h
  · exact canon_setWarp (canon_foldl (fun _ _ h => canon_writeAcc h) h)

theorem canon_accrdcWarp {x w} (h : s.Canon) : (accrdcWarp x w s).Canon := by
  fun_cases accrdcWarp
  · exact h
  · exact canon_setWarp h
  · exact canon_setWarp h

theorem canon_partMove {w els i x} (h : s.Canon) : (s.partMove w els i x).Canon := by
  fun_cases State.partMove
  · exact canon_foldl (fun _ _ h => canon_setWarp h) h
  · exact canon_foldl (fun _ _ h => canon_setWarp h) h
  · exact h


/-! ## Loads and stores -/

theorem canon_uniformAccess {i x need w} (h : s.Canon) : (uniformAccess i x need w s).Canon := by
  fun_cases uniformAccess
  exact canon_wholeAccess h

theorem canon_blockAccess {i x need helpers w} (h : s.Canon) : (blockAccess i x need helpers w s).Canon := by
  fun_cases blockAccess
  · exact h
  · exact canon_issueOp h
  · exact canon_wholeAccess h

theorem canon_prefetch {c target va} (h : s.Canon) : (s.prefetch c target va).Canon := by
  fun_cases State.prefetch
  · exact h
  · exact canon_snd ‹_› (canon_checkElem h)
  · exact canon_fillL1 (canon_ite (canon_fillRdc (canon_snd ‹_› (canon_checkElem h))) (canon_atSlice (canon_snd ‹_›
      (canon_checkElem h))))
  · exact canon_ite (canon_fillRdc (canon_snd ‹_› (canon_checkElem h))) (canon_atSlice (canon_snd ‹_›
      (canon_checkElem h)))
  · exact canon_snd ‹_› (canon_checkElem h)

theorem canon_pfWarp {x w} (h : s.Canon) : (pfWarp x w s).Canon := by
  fun_cases pfWarp
  exact canon_foldl (fun _ _ h => canon_prefetch h) h

theorem canon_icinvWarp {x w} (h : s.Canon) : (icinvWarp x w s).Canon :=
  Res.canon_ite (canon_issueOp h) (canon_setWarp (canon_issueOp h))

theorem canon_strqWarp {x w} (h : s.Canon) : (strqWarp x w s).Canon := by
  fun_cases strqWarp
  exact canon_setWarp h


/-! ## P-words -/

theorem canon_pairBody {a b w} (h : s.Canon) : (pairBody a b w s).Canon := by
  fun_cases pairBody <;> exact canon_setWarp h


/-! ## Power -/

theorem canon_dieDraw {die n} (h : s.Canon) : (s.dieDraw die n).Canon := by
  fun_cases State.dieDraw
  exact canon_gov (canon_setLarder h)

theorem canon_someDraws {die} (h : s.Canon) : (s.someDraws die).Canon := canon_dieDraw (canon_draw h)

theorem canon_emergency {die cond val} (h : s.Canon) : (s.emergency die cond val).Canon := by
  fun_cases State.emergency
  exact canon_post (canon_gov (canon_draw h))

theorem canon_shareReturns {dies} (h : s.Canon) : (s.shareReturns dies).Canon := by
  fun_cases State.shareReturns
  exact canon_foldl (fun _ _ h => canon_ite h (canon_setLarder h)) h

theorem canon_setRegion {die r x} (h : s.Canon) : (s.setRegion die r x).Canon := h

theorem canon_switchOn {die r} (h : s.Canon) : (s.switchOn die r).Canon := by
  fun_cases State.switchOn
  exact canon_foldl (fun _ _ h => canon_setPantry h) (canon_setRegion h)

theorem canon_softStart {die r} (h : s.Canon) : (s.softStart die r).Canon := by
  fun_cases State.softStart
  exact canon_foldl (fun _ _ h => canon_setPantry h) (canon_setRegion h)

theorem canon_tokqWarp {x w} (h : s.Canon) : (tokqWarp x w s).Canon := by
  fun_cases tokqWarp
  exact canon_setWarp (canon_ite (canon_someDraws h) h)

theorem canon_postIntent {w die delta eta dur} (h : s.Canon) : (s.postIntent w die delta eta dur).2.Canon := by
  fun_cases State.postIntent <;> exact h

theorem canon_intentWarp {x w} (h : s.Canon) : (intentWarp x w s).Canon := by
  fun_cases intentWarp
  · exact h
  · exact canon_setWarp (canon_snd ‹_› (canon_postIntent h))

theorem canon_ballastWarp {i stage x w} (h : s.Canon) : (ballastWarp i stage x w s).Canon := by
  fun_cases ballastWarp
  · exact h
  · exact canon_issueCopy h

theorem canon_ballastCancelWarp {x w} (h : s.Canon) : (ballastCancelWarp x w s).Canon := by
  fun_cases ballastCancelWarp
  · exact h
  · exact canon_issueCopy h

theorem canon_dropItem {k} (h : s.Canon) : (s.dropItem k).Canon := h

theorem canon_ballastAnswer {o} (h : s.Canon) : (s.ballastAnswer o).2.Canon := by
  fun_cases State.ballastAnswer
  · exact h
  · exact canon_dropItem h
  · exact h
  · exact h
  · exact h

theorem canon_ballastPerformed {k} (h : s.Canon) : (s.ballastPerformed k).Canon := by
  fun_cases State.ballastPerformed
  · exact h
  · exact canon_setOp (canon_ballastAnswer h)
  · exact canon_finishOp (canon_setWarp (canon_snd ‹_› (canon_ballastAnswer h)))

theorem canon_itemLine {x j} (h : s.Canon) : (s.itemLine x j).Canon := by
  unfold State.itemLine
  extract_lets c va
  split
  · exact canon_prefetch h
  · split
    · next e => exact canon_snd e (canon_engineCheck h)
    · next e =>
      have h1 := canon_snd e (canon_engineCheck h)
      split
      · next e => exact canon_snd e (canon_engineCheck h1)
      · next e =>
        have h2 := canon_snd e (canon_engineCheck h1)
        split
        · exact h2
        · split
          · trivial
          · next e =>
            have h3 := canon_snd e (canon_engineRead h2)
            split
            · trivial
            · exact canon_engineWrite h3 _ ‹_›

theorem canon_spendBallast {n} (h : s.Canon) : CanonIf (s.spendBallast n) := by
  intro t ht
  unfold State.spendBallast at ht
  have h1 : ∀ l : List Nat, (l.foldl (fun (a : State × Nat) d =>
      (a.1.setLarder d { a.1.larder d with ballast := (a.1.larder d).ballast - Nat.min a.2 (a.1.larder d).ballast },
        a.2 - Nat.min a.2 (a.1.larder d).ballast)) (s, n)).1.Canon := fun l =>
    List.foldlRecOn (motive := fun a : State × Nat => a.1.Canon) _ _ h (fun a ha d _ => canon_setLarder ha)
  dsimp only at ht
  split at ht
  · cases ht
    exact h1 _
  · cases ht

theorem canon_endItem {k f} (hf : ∀ {t b off}, State.Canon t → (f t b off).Canon) (h : s.Canon) :
    (s.endItem k f).Canon := by
  fun_cases State.endItem
  · exact hf (canon_dropItem h)
  · exact canon_dropItem h

theorem canon_failItem {k cause addr} (h : s.Canon) : (s.failItem k cause addr).Canon :=
  canon_logCopy (canon_endItem canon_spoilWord h)

theorem canon_runItem {fault k fuel} (h : s.Canon) : (State.runItem fault k fuel s).Canon := by
  have paid : ∀ {s : State} {x : BallastItem}, s.Canon → CanonIf (if x.isLate s.time then some (s.dieDraw (k / 16)
      x.lineCost)
      else if s.itemTurn k then s.spendBallast x.lineCost else none) := fun h =>
    canon_ite_if (canon_some (canon_dieDraw h)) (canon_ite_if (canon_spendBallast h) canon_none)
  fun_induction State.runItem with
  | case3 => exact canon_endItem (fun h => canon_arriveAt h) h
  | case8 _ _ _ _ _ _ _ _ e _ _ _ e2 => exact canon_failItem (LineRes.canon_of_bad e2 (canon_itemLine (paid h _ e)))
  | case9 _ _ _ _ _ _ _ _ e => exact canon_failItem (paid h _ e)
  | case10 _ _ _ _ _ _ _ _ e _ e2 _ ih => exact ih (canon_ballast (LineRes.canon_of e2 (canon_itemLine (paid h _ e))))
  | _ => exact h

theorem canon_vminqWarp {x w} (h : s.Canon) : (vminqWarp x w s).Canon := by
  fun_cases vminqWarp
  · exact h
  · exact canon_setRegion (canon_setWarp h)

theorem canon_capqWarp {x w} (h : s.Canon) : (capqWarp x w s).Canon :=
  Res.canon_ite h (canon_ite (canon_capBanks (canon_setWarp h)) (canon_setWarp h))

theorem canon_bankSample {die charge vbank} (h : s.Canon) : (s.bankSample die charge vbank).Canon := by
  fun_cases State.bankSample
  exact h

theorem canon_reserve {core} (h : s.Canon) : (s.reserve core).Canon := by
  fun_cases State.reserve
  exact canon_setPantry (canon_foldl (fun _ _ h => canon_setWarp h) h)

theorem canon_grant {core} (h : s.Canon) : (s.grant core).Canon := by
  fun_cases State.grant
  exact canon_gov (canon_reserve (canon_setPantry (canon_setLarder h)))

theorem canon_tick {die} (h : s.Canon) : (s.tick die).Canon := by
  fun_cases State.tick
  · exact h
  · exact canon_foldl (fun _ _ h => canon_ite (canon_grant h) h) (canon_someDraws (canon_setLarder h))

theorem canon_spendClasses {die} (h : s.Canon) : (s.spendClasses die).Canon := by
  fun_cases State.spendClasses
  exact canon_setLarder h

theorem canon_refill {die} (h : s.Canon) : (s.refill die).Canon := by
  fun_cases State.refill
  · exact h
  · exact canon_foldl (fun _ _ h => canon_setPantry h) (canon_setLarder (canon_spendClasses (canon_someDraws h)))

theorem canon_updateRate (h : s.Canon) : s.updateRate.Canon := by
  refine canon_ite h (canon_foldl (fun a d ha => ?_) (canon_gov h))
  dsimp only
  split
  · exact canon_setLarder ha
  · exact ha

theorem canon_beginInterval (h : s.Canon) : (s.beginInterval).Canon := by
  fun_cases State.beginInterval
  exact canon_intents_gov (canon_foldl (fun _ _ h => canon_setLarder h)
      (canon_updateRate h))

theorem canon_sampleTj {die tj} (h : s.Canon) : (s.sampleTj die tj).Canon := by
  fun_cases State.sampleTj
  · exact h
  · exact canon_emergency (canon_setLarder h)
  · exact canon_shareReturns (canon_setLarder h)
  · exact canon_setLarder h

theorem canon_askMigration {die core} (h : s.Canon) : (s.askMigration die core).Canon := by
  fun_cases State.askMigration
  · exact h
  · exact canon_setLarder h

theorem canon_sampleCase {die q} (h : s.Canon) : (s.sampleCase die q).Canon := by
  fun_cases State.sampleCase
  · exact h
  · exact canon_emergency h
  · exact h
  · exact h

theorem canon_sampleInput {v} (h : s.Canon) : (s.sampleInput v).Canon := by
  fun_cases State.sampleInput
  · exact canon_shareReturns (canon_ite (canon_emergency (canon_ite (canon_emergency (canon_ite (canon_emergency h)
      h)) (canon_ite (canon_emergency h) h))) (canon_ite (canon_emergency (canon_ite (canon_emergency h) h))
      (canon_ite (canon_emergency h) h)))
  · exact canon_ite (canon_emergency (canon_ite (canon_emergency (canon_ite (canon_emergency h) h)) (canon_ite
      (canon_emergency h) h))) (canon_ite (canon_emergency (canon_ite (canon_emergency h) h)) (canon_ite
      (canon_emergency h) h))

theorem canon_sampleFlow {f} (h : s.Canon) : (s.sampleFlow f).Canon := by
  fun_cases State.sampleFlow
  · exact canon_shareReturns (canon_ite (canon_emergency h) h)
  · exact canon_ite (canon_emergency h) h


/-! ## Slice cores -/

theorem canon_message {k pa asid e} (h : s.Canon) : (s.message k pa asid e).Canon := by
  fun_cases State.message
  · exact canon_queueEvent h
  · exact canon_answerSmsg h

theorem canon_lineMiss {k pa asid handle} (h : s.Canon) : (s.lineMiss k pa asid handle).Canon := by
  fun_cases State.lineMiss
  · exact h
  · exact canon_lineEvent (canon_setLine h)

theorem canon_lineFill {k pa} (h : s.Canon) : (s.lineFill k pa).Canon := by
  fun_cases State.lineFill
  · exact h
  · exact canon_fillLine h

theorem canon_lineEvict {k pa} (h : s.Canon) : (s.lineEvict k pa).Canon := by
  fun_cases State.lineEvict
  · exact h
  · exact canon_dropLine h

theorem canon_smsgArrives {k o} (h : s.Canon) : (s.smsgArrives k o).Canon := by
  fun_cases State.smsgArrives
  · exact h
  · exact canon_message (canon_setOp (canon_releaseFor h))

theorem canon_slmsgArrives {k src} (h : s.Canon) : (s.slmsgArrives k src).Canon := by
  fun_cases State.slmsgArrives
  · exact h
  · exact canon_message (canon_setSlice h)

theorem canon_startHandler {k} (h : s.Canon) : (s.startHandler k).Canon := by
  fun_cases State.startHandler
  · exact canon_answerSmsg (canon_setSlice h)
  · exact canon_setSlice h
  · exact h

theorem canon_abortHandler {k cause used} (h : s.Canon) : (s.abortHandler k cause used).Canon := by
  fun_cases State.abortHandler
  · exact h
  · exact canon_answerSmsg (canon_setSlice h)

theorem canon_countCycles {k n} (h : s.Canon) : (s.countCycles k n).Canon := by
  fun_cases State.countCycles
  exact canon_setSlice h

theorem canon_runHandler {body k} (hbody : ∀ {k s}, State.Canon s → (body k s).Canon) (h : s.Canon) :
    (runHandler body k s).Canon := by
  fun_cases runHandler
  · exact h
  · exact canon_countCycles (SlRes.canon_of ‹_› (hbody h))
  · exact canon_countCycles (SlRes.canon_of_stall ‹_› (hbody h))
  · exact canon_countCycles h
  · exact canon_abortHandler h

theorem canon_overrun {k} (h : s.Canon) : (s.overrun k).Canon := by
  fun_cases State.overrun
  · exact canon_abortHandler h
  · exact h

theorem canon_onPair {x body k} (hbody : ∀ {k s}, State.Canon s → (body k s).Canon) (h : s.Canon) :
    (onPair x body k s).Canon := by
  fun_cases onPair
  · exact trivial
  · exact hbody h

theorem canon_slrdBody {x k} (h : s.Canon) : (slrdBody x k s).Canon := by
  generalize hf : slrdBody = f
  delta slrdBody at hf
  subst hf
  beta_reduce
  extract_lets +onlyGivenNames c put
  have hput : ∀ v, (put v).Canon := fun _ => canon_setSlice h
  clear_value put
  generalize linePa _ _ _ _ = r
  obtain _ | pa := r
  · trivial
  · refine SlRes.canon_ite (hput _) (SlRes.canon_ite h (SlRes.canon_ite (hput _) ?_))
    exact canon_setSlice (canon_fillLine h)

theorem canon_slwrBody {x k} (h : s.Canon) : (slwrBody x k s).Canon := by
  fun_cases slwrBody
  · exact trivial
  · exact trivial
  · exact trivial
  · exact canon_setSlice h

theorem canon_sliceVa {die asid va} (h : s.Canon) : (s.sliceVa die asid va).2.Canon := by
  fun_cases State.sliceVa
  · exact h
  · exact canon_snd ‹_› (canon_translate h)
  · exact canon_snd ‹_› (canon_translate h)
  · exact canon_snd ‹_› (canon_translate h)
  · exact canon_snd ‹_› (canon_translate h)

theorem canon_sliceFetch {die asid va} (h : s.Canon) : (s.sliceFetch die asid va).Canon := by
  fun_cases State.sliceFetch
  · exact canon_snd ‹_› (canon_sliceVa h)
  · exact canon_snd ‹_› (canon_sliceVa h)
  · exact canon_setLine (canon_snd ‹_› (canon_sliceVa h))

theorem canon_slpfBody {x k} (h : s.Canon) : (slpfBody x k s).Canon := by
  fun_cases slpfBody
  · exact trivial
  · exact canon_setSlice (canon_foldl (fun _ _ h => canon_ite (canon_sliceFetch h) h) h)

theorem canon_slmsgBody {x k} (h : s.Canon) : (slmsgBody x k s).Canon := by
  fun_cases slmsgBody
  · exact trivial
  · exact trivial
  · exact canon_setSlice (canon_snd ‹_› (canon_sliceVa h))
  · exact canon_setSlice (canon_snd ‹_› (canon_sliceVa h))

theorem canon_slarrBody {x k} (h : s.Canon) : (slarrBody x k s).Canon := by
  fun_cases slarrBody
  · exact trivial
  · exact trivial
  · exact canon_setSlice h

theorem canon_sldoneBody {x k} (h : s.Canon) : (sldoneBody x k s).Canon := by
  fun_cases sldoneBody
  exact canon_setSlice h

theorem canon_slqryBody {x k} (h : s.Canon) : (slqryBody x k s).Canon := by
  generalize hf : slqryBody = f
  delta slqryBody at hf
  subst hf
  beta_reduce
  extract_lets +onlyGivenNames c
  generalize linePa _ _ _ _ = r
  obtain _ | pa := r
  · trivial
  · exact canon_setSlice h

theorem canon_slbudBody {x k} (h : s.Canon) : (slbudBody x k s).Canon := by
  fun_cases slbudBody
  exact canon_setSlice h

theorem canon_baseBody {r k} (h : s.Canon) : (baseBody r k s).Canon := by
  unfold baseBody
  extract_lets c go
  have hgo : ∀ i n, (go i n).Canon := by
    intro i n
    unfold go
    split
    · exact canon_setSlice h
    · trivial
  split
  · exact hgo _ _
  · exact hgo _ _
  · trivial

theorem canon_makeSlarr {k t a} (h : s.Canon) : (s.makeSlarr k t a).Canon := by
  fun_cases State.makeSlarr
  · exact canon_setSlice h
  · exact canon_setSlice h
  · exact canon_arriveAt h

theorem canon_gatherLine {l} (h : s.Canon) : (s.gatherLine l).Canon := by
  fun_cases State.gatherLine
  exact canon_setLine (canon_unshare (canon_ite (canon_shadow (canon_atSlice h))
      (canon_atSlice h)))

theorem canon_commitHandler {k} (h : s.Canon) : (s.commitHandler k).Canon := by
  fun_cases State.commitHandler
  · exact h
  · refine canon_answerSmsg (canon_setSlice (canon_foldl (fun _ _ h => canon_makeSlarr h)
      (canon_foldl (fun a b ha => ?_) (canon_foldl (fun _ _ h => canon_gatherLine h) h))))
    split
    · exact Memory.wf_write _ _ _ (canon_remember ha)
    · exact ha
  · exact h

theorem canon_dropTenant {k t} (h : s.Canon) : (s.dropTenant k t).Canon := by
  fun_cases State.dropTenant
  · exact canon_abortHandler (canon_foldl (fun _ _ h => canon_answerSmsg h) (canon_setSlice h))
  · exact canon_foldl (fun _ _ h => canon_answerSmsg h) (canon_setSlice h)
  · exact canon_foldl (fun _ _ h => canon_answerSmsg h) (canon_setSlice h)

theorem canon_smsgTarget {w va} (h : s.Canon) : (s.smsgTarget w va).2.Canon := by
  fun_cases State.smsgTarget
  · exact h
  · exact h
  · exact canon_snd ‹_› (canon_checkElem h)
  · exact canon_snd ‹_› (canon_checkElem h)
  · exact canon_snd ‹_› (canon_checkElem h)

theorem canon_smsgWarp {x w} (h : s.Canon) : (smsgWarp x w s).Canon := by
  fun_cases smsgWarp
  · exact canon_snd ‹_› (canon_smsgTarget h)
  · exact canon_snd ‹_› (canon_smsgTarget h)
  · exact canon_snd ‹_› (canon_smsgTarget h)
  · exact canon_issueCopy (canon_snd ‹_› (canon_smsgTarget h))
  · exact canon_snd ‹_› (canon_smsgTarget h)
  · exact canon_issueCopy (canon_snd ‹_› (canon_smsgTarget h))
  · exact canon_snd ‹_› (canon_smsgTarget h)

theorem canon_smsgEnds {k} (h : s.Canon) : (s.smsgEnds k).Canon := by
  fun_cases State.smsgEnds
  · exact h
  · exact canon_finishOp (canon_ite (canon_pokeScratch h) h)
  · exact h


/-! ## Platform -/

theorem canon_setRing {k x} (h : s.Canon) : (s.setRing k x).Canon := h

theorem canon_passTurn {k} (h : s.Canon) : (s.passTurn k).Canon := h

theorem canon_toEntry {k target} (h : s.Canon) : (s.toEntry k target).Canon := by
  fun_cases State.toEntry
  exact canon_passTurn (canon_setRing h)

theorem canon_nextEntry {k} (h : s.Canon) : (s.nextEntry k).Canon := canon_toEntry h

theorem canon_ringError {k opcode reason} (h : s.Canon) : (s.ringError k opcode reason).Canon := by
  fun_cases State.ringError
  exact canon_post (canon_passTurn (canon_setRing h))

theorem canon_onRing {k f} (hf : ∀ {s}, State.Canon s → (f s).Canon) (h : s.Canon) : CanonAfter (onRing k f s) := by
  fun_cases onRing
  exact canon_next (canon_ite (hf h) h)

theorem canon_cpRead {port asid va n ext} (h : s.Canon) : (s.cpRead port asid va n ext).2.Canon := by
  fun_cases State.cpRead
  · exact h
  · exact canon_snd ‹_› (canon_translate h)
  · exact canon_snd ‹_› (canon_translate h)
  · exact canon_snd ‹_› (canon_translate h)
  · exact canon_snd ‹_› (canon_translate h)
  · exact canon_snd ‹_› (canon_translate h)
  · exact canon_snd ‹_› (canon_translate h)
  · exact canon_snd ‹_› (canon_translate h)

theorem canon_attach {k entry j} (h : s.Canon) : (s.attach k entry j).Canon := by
  fun_cases State.attach <;> exact h

theorem canon_unbind {k entry} (h : s.Canon) : (s.unbind k entry).Canon := by
  fun_cases State.unbind
  exact h

theorem canon_hostLaunch {k opcode rcd} (h : s.Canon) : (s.hostLaunch k opcode rcd).Canon := by
  fun_cases State.hostLaunch
  · exact canon_nextEntry (canon_unbind (canon_draw h))
  · exact canon_ringError (canon_draw h)
  · exact canon_passTurn h
  · exact canon_nextEntry (canon_takeEntry (canon_attach (canon_setJob (canon_draw h))))

theorem canon_cmdLaunch {k va ext} (h : s.Canon) : (s.cmdLaunch k va ext).Canon := by
  fun_cases State.cmdLaunch
  · exact canon_passTurn (canon_snd ‹_› (canon_cpRead h))
  · exact canon_hostLaunch (canon_snd ‹_› (canon_cpRead h))
  · exact canon_hostLaunch (canon_snd ‹_› (canon_cpRead h))

theorem canon_cmdLaunchi {k va size ext} (h : s.Canon) : (s.cmdLaunchi k va size ext).Canon := by
  fun_cases State.cmdLaunchi
  · exact canon_passTurn (canon_snd ‹_› (canon_cpRead h))
  · exact canon_hostLaunch (canon_snd ‹_› (canon_cpRead h))
  · exact canon_passTurn (canon_snd ‹_› (canon_cpRead (canon_snd ‹_› (canon_cpRead h))))
  · exact canon_hostLaunch (canon_snd ‹_› (canon_cpRead (canon_snd ‹_› (canon_cpRead h))))
  · exact canon_nextEntry (canon_unbind (canon_snd ‹_› (canon_cpRead (canon_snd ‹_› (canon_cpRead h)))))
  · exact canon_hostLaunch (canon_snd ‹_› (canon_cpRead (canon_snd ‹_› (canon_cpRead h))))

theorem canon_cmdWord {k va ext f} (hf : ∀ {x s}, State.Canon s → (f x s).Canon) (h : s.Canon) :
    (s.cmdWord k va ext f).Canon := by
  fun_cases State.cmdWord
  · exact hf (canon_snd ‹_› (canon_cpRead h))
  · exact canon_passTurn (canon_snd ‹_› (canon_cpRead h))

theorem canon_cmdLoop {k target count} (h : s.Canon) : (s.cmdLoop k target count).Canon := by
  fun_cases State.cmdLoop
  · exact canon_ringError h
  · exact canon_nextEntry (canon_setRing h)
  · exact canon_toEntry (canon_setRing h)

theorem canon_cmdCancel {k j} (h : s.Canon) : (s.cmdCancel k j).Canon := by
  fun_cases State.cmdCancel
  · exact canon_passTurn h
  · exact canon_nextEntry (canon_setRing h)
  · exact canon_nextEntry h
  · exact canon_passTurn (canon_setRing h)
  · exact canon_nextEntry h
  · exact canon_passTurn (canon_setRing (canon_beginCancel h))

theorem canon_writeRingSize {k size} (h : s.Canon) : (s.writeRingSize k size).Canon := by
  fun_cases State.writeRingSize
  · exact h
  · exact canon_setRing h

theorem canon_releaseLock {writer} (h : s.Canon) : (s.releaseLock writer).Canon := by
  fun_cases State.releaseLock <;> exact h

theorem canon_mailEnd {status resp} (h : s.Canon) : (s.mailEnd status resp).Canon := by
  fun_cases State.mailEnd
  exact h

theorem canon_onMail {cmd f} (hf : ∀ {s}, State.Canon s → (f s).Canon) (h : s.Canon) :
    CanonAfter (onMail cmd f s) := by
  fun_cases onMail
  exact canon_next (canon_ite h (canon_ite (canon_mailEnd h) (hf h)))

theorem canon_setRoot (h : s.Canon) : s.setRoot.Canon :=
  canon_ite (canon_mailEnd h) (canon_mailEnd (canon_roots_oldRoots h))

theorem canon_regHandler {image} (h : s.Canon) : (s.regHandler image).Canon := by
  fun_cases State.regHandler
  · exact canon_mailEnd h
  · exact canon_mailEnd (canon_foldl (fun _ _ h => canon_setSlice h) (canon_foldl (fun _ _ h => canon_dropTenant h)
      h))
  · exact canon_mailEnd h
  · exact canon_mailEnd (canon_foldl (fun _ _ h => canon_setSlice h) h)

theorem canon_bindGroup (h : s.Canon) : (s.bindGroup).Canon := by
  fun_cases State.bindGroup <;> exact canon_mailEnd h

theorem canon_bindPower (h : s.Canon) : (s.bindPower).Canon := by
  fun_cases State.bindPower <;> exact canon_mailEnd h

theorem canon_setSlew (h : s.Canon) : s.setSlew.Canon := by
  unfold State.setSlew
  refine canon_ite (canon_mailEnd h) (canon_mailEnd ?_)
  exact canon_gov h

theorem canon_savePool (h : s.Canon) : s.savePool.Canon := by
  unfold State.savePool
  refine canon_ite (canon_mailEnd h) (canon_mailEnd ?_)
  exact canon_savePools h

theorem canon_hostRetrain (h : s.Canon) : (s.hostRetrain).Canon := by
  fun_cases State.hostRetrain <;> exact canon_mailEnd h

theorem canon_attest (h : s.Canon) : (s.attest).Canon := by
  fun_cases State.attest
  exact canon_mailEnd h

theorem canon_certs (h : s.Canon) : (s.certs).Canon := by
  fun_cases State.certs
  exact canon_mailEnd h

theorem canon_boot {b} (h : s.Canon) : (s.boot b).Canon := by
  fun_cases State.boot
  · exact canon_emergency (canon_gov (canon_ite h h))
  · exact canon_ite h h

theorem canon_warpResult {port r} (h : s.Canon) : (s.warpResult port r).Canon := h

theorem canon_mccResult {port r} (h : s.Canon) : (s.mccResult port r).Canon := h

theorem canon_onView {port f} (hf : ∀ {w t r}, f w = some (t, r) → State.Canon t) (h : s.Canon) :
    (s.onView port f).Canon := by
  fun_cases State.onView
  · exact canon_warpResult h
  · exact canon_warpResult h
  · exact canon_warpResult (hf ‹_›)

theorem canon_viewHalt {port} (h : s.Canon) : (s.viewHalt port).Canon := by
  refine canon_onView (fun {w t r} e => ?_) h
  dsimp only at e
  split at e
  · cases e
  · cases e
    exact canon_setWarp h

theorem canon_viewResume {port} (h : s.Canon) : (s.viewResume port).Canon := by
  refine canon_onView (fun {w t r} e => ?_) h
  dsimp only at e
  split at e
  · cases e
  · split at e
    · cases e
      exact canon_setWarp (canon_restoreWarp h)
    · cases e
      exact canon_reissue (canon_setWarp h)

theorem canon_viewKill {port} (h : s.Canon) : (s.viewKill port).Canon := by
  refine canon_onView (fun {w t r} e => ?_) h
  cases e
  exact canon_killWarp h

theorem canon_viewRelaunch {port} (h : s.Canon) : (s.viewRelaunch port).Canon := by
  refine canon_onView (fun {w t r} e => ?_) h
  dsimp only at e
  split at e
  · cases e
    exact canon_askRelaunch h
  · cases e

theorem canon_onMccView {port f} (hf : ∀ {k g}, CanonIf (f k g)) (h : s.Canon) : (s.onMccView port f).Canon := by
  fun_cases State.onMccView
  · exact canon_mccResult h
  · exact canon_mccResult h
  · exact canon_mccResult (hf _ ‹_›)

theorem canon_viewMccResume {port} (h : s.Canon) : (s.viewMccResume port).Canon :=
  canon_onMccView (canon_ite_if canon_none (canon_some (canon_setMcc h))) h

theorem canon_viewMccKill {port} (h : s.Canon) : (s.viewMccKill port).Canon :=
  canon_onMccView (canon_some (canon_setMcc (canon_dropMccWait (canon_foldl (fun _ _ h => canon_killBlock h) h)))) h

theorem canon_viewTlbinv {port command} (h : s.Canon) : (s.viewTlbinv port command).Canon := by
  fun_cases State.viewTlbinv
  · exact canon_tlbinv h
  · exact h

theorem canon_takeDone {w} (h : s.Canon) : (s.takeDone w).Canon := by
  fun_cases State.takeDone
  refine canon_foldl (fun _ _ h => ?_) h
  split
  · exact h
  · exact canon_ite h (canon_setOp h)

theorem canon_writeView {w off size data} (h : s.Canon) : (s.writeView w off size data).Canon := by
  fun_cases State.writeView
  · exact h
  · exact canon_takeDone (canon_foldl (fun _ _ h => canon_ite h (canon_hardWrite h)) h)
  · exact canon_setWarp h
  · exact h
  · exact canon_setWarp h
  · exact h
  · exact h

theorem canon_writeMccView {k off size data} (h : s.Canon) : (s.writeMccView k off size data).Canon := by
  fun_cases State.writeMccView
  · exact h
  · exact canon_setMcc h
  · exact canon_setMcc h
  · exact h

theorem canon_clearLog {core i w1c} (h : s.Canon) : (s.clearLog core i w1c).Canon := by
  fun_cases State.clearLog
  exact h

theorem canon_writeDebug {port off size data} (h : s.Canon) : (s.writeDebug port off size data).Canon := by
  refine canon_ite (canon_selectors h) (canon_ite (canon_viewTlbinv h) (canon_ite (canon_clearLog h)
    (canon_ite ?_ (canon_ite ?_ (canon_ite ?_ (canon_ite (canon_writeMccView h) h))))))
  · split
    · exact canon_viewHalt h
    · exact canon_viewResume h
    · exact canon_viewKill h
    · exact canon_viewRelaunch h
    · exact canon_warpResult h
  · split
    · exact canon_writeView h
    · exact h
  · split
    · exact canon_viewMccResume h
    · exact canon_viewMccKill h
    · exact canon_mccResult h

theorem canon_writeRing {k off size data} (h : s.Canon) : (s.writeRing k off size data).Canon := by
  fun_cases State.writeRing
  · exact canon_setRing h
  · exact canon_writeRingSize h
  · exact canon_setRing h
  · exact canon_setRing h
  · exact h

theorem canon_writeMail {writer off size data} (h : s.Canon) : (s.writeMail writer off size data).Canon := by
  fun_cases State.writeMail
  · exact h
  · exact canon_releaseLock h
  · exact h
  · exact h
  · exact h
  · exact h
  · exact h

theorem canon_writeBar {port off size data0} (h : s.Canon) : (s.writeBar port off size data0).Canon := by
  fun_cases State.writeBar
  · exact h
  · exact canon_writeMail h
  · exact h
  · exact canon_writeRing h
  · exact canon_writeDebug h
  · exact h


/-! ## Rearrangement -/

theorem canon_pickVec {x elig wd f w} (h : s.Canon) : (pickVec x elig wd f w s).Canon := canon_vecOp h

theorem canon_pickLin {x f w} (h : s.Canon) : (pickLin x f w s).Canon := canon_pickVec h

theorem canon_xputVec {x w} (h : s.Canon) : (xputVec x w s).Canon := by
  fun_cases xputVec
  exact canon_finishVec h

theorem canon_reduceBody {x w} (h : s.Canon) : (reduceBody x w s).Canon := by
  refine canon_uniform (fun {w s} h => ?_) h
  dsimp only
  split <;> exact canon_setWarp h

theorem canon_toScalar {x f x1} (h : s.Canon) : (toScalar x f x1 s).Canon :=
  canon_uniform (fun h => canon_setWarp h) h


/-! ## Every instruction and event -/

theorem canon_execSel {v x} (h : s.Canon) : CanonAfter (execSel v x s) :=
  canonAfter_ite (canon_onWarp canon_selVec h) (canon_onEither (canon_uniform (fun h => canon_finishScalarOp h)) (fun
      h => canon_setMcc h) h)

theorem canon_execCmp {v x} (h : s.Canon) : CanonAfter (execCmp v x s) :=
  canonAfter_ite (canon_onWarp canon_cmpVec h) (canon_onEither (canon_uniform (fun h => canon_finishScalarOp h)) (fun
      h => canon_setMcc h) h)

theorem canon_execMadw {v x} (h : s.Canon) : CanonAfter (execMadw v x s) :=
  canonAfter_ite (canon_onWarp canon_madwVec h) (canon_onEither (canon_uniform (fun h => canon_finishScalarOp h))
      (fun h => canon_setMcc h) h)

theorem canon_execLea {v x} (h : s.Canon) : CanonAfter (execLea v x s) :=
  canonAfter_ite (canon_onWarp canon_leaVec h) (canon_onEither (canon_uniform (fun h => canon_finishScalarOp h)) (fun
      h => canon_setMcc h) h)

theorem canon_execDispatch {die} (h : s.Canon) : CanonAfter (execDispatch die s) := by
  refine canon_next ?_
  split
  · next e =>
    obtain ⟨x, _, e⟩ := List.exists_of_findSome?_eq_some e
    exact canon_serveBind h _ e
  · exact h

theorem canon_execCoalesceTimer {bin} (h : s.Canon) : CanonAfter (execCoalesceTimer bin s) := by
  refine canon_next ?_
  split
  · exact canon_ite (canon_setBin h) h
  · exact h

theorem canon_execTriggerFire {entry} (h : s.Canon) : CanonAfter (execTriggerFire entry s) := by
  refine canon_next (canon_ite h ?_)
  split
  · exact canon_setEntry h
  · exact canon_dropTrigger h
  · exact h

theorem canon_execScanTest {phys} (h : s.Canon) : CanonAfter (execScanTest phys s) := by
  refine canon_next ?_
  split <;> exact h

theorem canon_execRegionPowerOn {region} (h : s.Canon) : CanonAfter (execRegionPowerOn region s) := by
  refine canon_next (canon_ite ?_ h)
  split
  · exact canon_ite (canon_switchOn h) h
  · exact canon_ite h (canon_ite (canon_softStart (canon_draw h)) (canon_switchOn (canon_draw h)))

theorem canon_execMemoryOpPerformed {op lanes ext} (h : s.Canon) :
    CanonAfter (execMemoryOpPerformed op lanes ext s) := by
  refine canon_next ?_
  split
  · exact canon_ballastPerformed h
  · exact canon_ballastPerformed h
  · exact canon_ballastPerformed h
  · exact canon_opPerformed h

theorem canon_execBallastDeadline {item} (h : s.Canon) : CanonAfter (execBallastDeadline item s) := by
  refine canon_next ?_
  split
  · exact canon_ite h h
  · exact h

theorem canon_execCapBankLow {die charge vbank} (h : s.Canon) : CanonAfter (execCapBankLow die charge vbank s) :=
  canon_next (canon_ite (canon_ite (canon_bankSample h) (canon_emergency (canon_setLarder (canon_bankSample h)))) h)

theorem canon_execCapacitorBankRecovery {die charge vbank} (h : s.Canon) :
    CanonAfter (execCapacitorBankRecovery die charge vbank s) :=
  canon_next (canon_ite (canon_ite (canon_setLarder (canon_bankSample h)) (canon_bankSample h)) h)

theorem canon_execTjSample {die tj hot} (h : s.Canon) : CanonAfter (execTjSample die tj hot s) := by
  refine canon_next ?_
  split
  · exact canon_askMigration (canon_sampleTj h)
  · exact canon_sampleTj h

theorem canon_execSliceEvent {slice e} (h : s.Canon) : CanonAfter (execSliceEvent slice e s) := by
  refine canon_next ?_
  split
  · exact canon_lineMiss h
  · exact canon_lineFill h
  · exact canon_lineEvict h
  · exact canon_smsgArrives h
  · exact canon_slmsgArrives h

theorem canon_execHandlerCommit {slice err} (h : s.Canon) : CanonAfter (execHandlerCommit slice err s) := by
  refine canon_next (canon_ite (canon_commitHandler h) (canon_ite (canon_abortHandler h) ?_))
  split
  · exact canon_ite (canon_abortHandler h) h
  · exact h

theorem canon_execCmdWaitv {ring va mask value ext} (h : s.Canon) :
    CanonAfter (execCmdWaitv ring va mask value ext s) :=
  canon_onRing (fun h => canon_cmdWord (fun h => canon_ite (canon_nextEntry h) (canon_passTurn h)) h) h

theorem canon_execCmdJumpv {ring va target ext} (h : s.Canon) : CanonAfter (execCmdJumpv ring va target ext s) :=
  canon_onRing (fun h => canon_cmdWord (fun h => canon_ite (canon_nextEntry h) (canon_toEntry h)) h) h

theorem canon_exec {i} (h : s.Canon) : CanonAfter (exec i s) := by
  cases i with
  | add => exact canon_intExec h
  | sub => exact canon_intExec h
  | mul => exact canon_intExec h
  | mulh => exact canon_intExec h
  | mad => exact canon_intExec h
  | madw => exact canon_execMadw h
  | div => exact canon_intExec h
  | rem => exact canon_intExec h
  | min => exact canon_intExec h
  | max => exact canon_intExec h
  | abs => exact canon_intExec h
  | and => exact canon_intExec h
  | or => exact canon_intExec h
  | xor => exact canon_intExec h
  | andn => exact canon_intExec h
  | shl => exact canon_intExec h
  | shr => exact canon_intExec h
  | sar => exact canon_intExec h
  | rot => exact canon_intExec h
  | clz => exact canon_intExec h
  | popc => exact canon_intExec h
  | brev => exact canon_intExec h
  | bfx => exact canon_intExec h
  | bfi => exact canon_intExec h
  | sel => exact canon_execSel h
  | cmp => exact canon_execCmp h
  | mov => exact canonAfter_ite (canon_onWarp canon_movVec h) (canon_onEither canon_intScalar canon_intMcc h)
  | movi => exact canon_intExec h
  | lea => exact canon_execLea h
  | sad => exact canon_intExec h
  | fadd => exact canon_onWarp canon_floatVec h
  | fsub => exact canon_onWarp canon_floatVec h
  | fmul => exact canon_onWarp canon_floatVec h
  | ffma => exact canon_onWarp canon_floatVec h
  | fmin => exact canon_onWarp canon_patVec h
  | fmax => exact canon_onWarp canon_patVec h
  | fabs => exact canon_onWarp canon_patVec h
  | fneg => exact canon_onWarp canon_patVec h
  | fcmp => exact canon_onWarp canon_fcmpVec h
  | fclass => exact canon_onWarp canon_patVec h
  | frnd => exact canon_onWarp canon_frndVec h
  | fdot2 => exact canon_onWarp canon_fdot2Vec h
  | fdot4 => exact canon_onWarp canon_fdot4Vec h
  | fscale => exact canon_onWarp canon_fscaleVec h
  | fdiv => exact canon_onWarp canon_floatVec h
  | fsqrt => exact canon_onWarp canon_floatVec h
  | frcp => exact canon_onWarp canon_floatVec h
  | frsq => exact canon_onWarp canon_floatVec h
  | fexp2 => exact canon_onWarp canon_floatVec h
  | flog2 => exact canon_onWarp canon_floatVec h
  | fsin => exact canon_onWarp canon_floatVec h
  | fcos => exact canon_onWarp canon_floatVec h
  | ftanh => exact canon_onWarp canon_floatVec h
  | cvt => exact canon_onWarp canon_cvtVec h
  | cvtbPack => exact canon_onWarp canon_packVec h
  | cvtbUnpack => exact canon_onWarp canon_unpackVec h
  | xget => exact canon_onWarp canon_pickVec h
  | xput => exact canon_onWarp canon_xputVec h
  | xbcast => exact canon_onWarp canon_pickVec h
  | xrot => exact canon_onWarp canon_pickLin h
  | xshift => exact canon_onWarp canon_pickLin h
  | xalign => exact canon_onWarp canon_pickLin h
  | xrev => exact canon_onWarp canon_pickLin h
  | xzip => exact canon_onWarp canon_pickLin h
  | xunzip => exact canon_onWarp canon_pickLin h
  | qswap => exact canon_onWarp canon_pickVec h
  | qbcast => exact canon_onWarp canon_pickVec h
  | permt => exact canon_onWarp canon_pickVec h
  | permb => exact canon_onWarp canon_pickVec h
  | scan => exact canon_onWarp (fun h => canon_finishVec h) h
  | reduce => exact canon_onWarp canon_reduceBody h
  | ballot => exact canon_onWarp canon_toScalar h
  | vote => exact canon_onWarp (fun h => canon_setWarp h) h
  | first => exact canon_onWarp canon_toScalar h
  | popcp => exact canon_onWarp canon_toScalar h
  | br => exact canon_onEither canon_brWarp (fun h => canon_setMcc h) h
  | bru => exact canon_onEither canon_bruWarp canon_bruMcc h
  | brp => exact canon_onWarp canon_brpWarp h
  | brx => exact canon_onWarp canon_indirect h
  | call => exact canon_onEither canon_callWarp canon_callMcc h
  | ret => exact canon_onEither canon_indirect (fun h => canon_setMcc h) h
  | join => exact canon_onWarp (fun h => canon_setWarp h) h
  | exit => exact canon_onEither canon_exitWarp (fun h => canon_setMcc h) h
  | yield => exact canon_onWarp (fun h => canon_setWarp h) h
  | nop => exact canon_onWarp (fun h => h) h
  | plop => exact canon_onWarp (fun h => canon_setWarp h) h
  | pmov => exact canon_onWarp (fun h => canon_setWarp h) h
  | pWord => exact canon_onWarp canon_pairBody h
  | ld => exact canon_onWarp canon_laneAccess h
  | st => exact canon_onWarp canon_laneAccess h
  | ldu => exact canon_onWarp (canon_uniform canon_uniformAccess) h
  | stu => exact canon_onWarp (canon_uniformReal canon_uniformAccess) h
  | ldb => exact canon_onWarp (canon_uniform canon_blockAccess) h
  | stb => exact canon_onWarp (canon_uniformReal canon_blockAccess) h
  | pf => exact canon_onWarp canon_pfWarp h
  | icinv => exact canon_onWarp (canon_uniformReal canon_icinvWarp) h
  | strq => exact canon_onWarp canon_strqWarp h
  | smsg => exact canon_onWarp (canon_uniformReal canon_smsgWarp) h
  | ldf => exact canon_onWarp canon_tagWarp h
  | ldfe => exact canon_onWarp canon_tagWarp h
  | ste => exact canon_onWarp canon_tagWarp h
  | stf => exact canon_onWarp canon_tagWarp h
  | feset => exact canon_onWarp (canon_uniformReal canon_fesetWarp) h
  | feq => exact canon_onWarp (canon_uniformReal canon_feqWarp) h
  | awarm => exact canon_onWarp (canon_uniformReal canon_awarmWarp) h
  | arrive => exact canon_onWarp (canon_uniformReal canon_arriveWarp) h
  | waitg => exact canon_onWarp (canon_uniformReal canon_waitgWarp) h
  | cjoin => exact canon_onWarp (canon_uniformReal canon_cjoinWarp) h
  | cleave => exact canon_onWarp (canon_uniformReal canon_cleaveWarp) h
  | atom => exact canon_onWarp canon_atomicAccess h
  | atomnr => exact canon_onWarp canon_atomicAccess h
  | atomcas => exact canon_onWarp canon_atomicAccess h
  | fatom => exact canon_onWarp canon_atomicAccess h
  | fatomnr => exact canon_onWarp canon_atomicAccess h
  | redv => exact canon_onWarp canon_redvAccess h
  | cpy => exact canon_onWarp (canon_uniformReal canon_boxCopy) h
  | cpys => exact canon_onWarp (canon_uniformReal canon_boxCopy) h
  | cpyg => exact canon_onWarp (canon_uniformReal canon_boxCopy) h
  | cpym => exact canon_onWarp (canon_uniformReal canon_boxCopy) h
  | cpyc => exact canon_onWarp (canon_uniformReal canon_lineCopy) h
  | mcfg => exact canon_onRoom (canon_onArray (fun h => canon_enqueue h)) h
  | mlds => exact canon_onRoom (canon_onArray canon_mldsBody) h
  | mswap => exact canon_onRoom (canon_onArray (fun h => canon_enqueue h)) h
  | mstrm => exact canon_onRoom (canon_onArray canon_mstrmBody) h
  | mclr => exact canon_onRoom (canon_onArray canon_mclrBody) h
  | mscl => exact canon_onRoom (canon_onArray canon_msclBody) h
  | mwaitg => exact canon_onMcc canon_mwaitgBody h
  | marrive => exact canon_onRoom canon_marriveBody h
  | mstat => exact canon_onMcc (canon_onArray canon_mstatBody) h
  | accrd => exact canon_onAcc canon_accrdWarp h
  | accwr => exact canon_onAcc canon_accwrWarp h
  | accrdc => exact canon_onAcc canon_accrdcWarp h
  | launch => exact canon_onWarp (canon_uniformReal canon_launchWarp) h
  | launcht => exact canon_onWarp (canon_uniformReal canon_launchWarp) h
  | spawn => exact canon_onWarp (canon_uniformReal canon_spawnWarp) h
  | nodeq => exact canon_onWarp (canon_uniform canon_nodeqWarp) h
  | cancel => exact canon_onWarp (canon_uniformReal canon_cancelWarp) h
  | fxfer => exact canon_onWarp (canon_uniformReal canon_xferWarp) h
  | fget => exact canon_onWarp (canon_uniformReal canon_xferWarp) h
  | coll => exact canon_onWarp (canon_uniformReal canon_collWarp) h
  | flinkq => exact canon_onWarp (canon_uniform canon_flinkqWarp) h
  | tokq => exact canon_onWarp (canon_uniform canon_tokqWarp) h
  | tokpr => exact canon_onWarp (canon_uniform (fun h => canon_setWarp h)) h
  | intent => exact canon_onWarp (canon_uniformReal canon_intentWarp) h
  | ballastPf => exact canon_onWarp (canon_uniformReal canon_ballastWarp) h
  | ballastStage => exact canon_onWarp (canon_uniformReal canon_ballastWarp) h
  | ballastCancel => exact canon_onWarp (canon_uniformReal canon_ballastCancelWarp) h
  | vminq => exact canon_onWarp (canon_uniform canon_vminqWarp) h
  | capq => exact canon_onWarp (canon_uniform canon_capqWarp) h
  | rampq => exact canon_onWarp (canon_uniform (fun h => canon_setWarp h)) h
  | sysrd => exact canon_onWarp (canon_uniform (fun h => canon_setWarp h)) h
  | syswrFflags => exact canon_onWarp canon_fflagsWarp h
  | syswrRng => exact canon_onWarp canon_rngWarp h
  | syswrTlbinv => exact canon_onWarp (canon_uniformReal canon_tlbinvWarp) h
  | syswrResumepc => exact canon_onWarp (canon_uniformReal canon_resumepcWarp) h
  | srd => exact canon_onWarp canon_srdWarp h
  | rett => exact canon_onceReady h (canon_onWarp canon_rettWarp h)
  | yieldp => exact canon_onceReady h (canon_onWarp canon_yieldpWarp h)
  | trap => exact canon_onWarp (canon_uniformReal canon_trapWarp) h
  | slrd => exact canon_onSlice (canon_runHandler (canon_onPair canon_slrdBody)) h
  | slwr => exact canon_onSlice (canon_runHandler (canon_onPair canon_slwrBody)) h
  | slpf => exact canon_onSlice (canon_runHandler (canon_onPair canon_slpfBody)) h
  | slmsg => exact canon_onSlice (canon_runHandler (canon_onPair canon_slmsgBody)) h
  | slarr => exact canon_onSlice (canon_runHandler (canon_onPair canon_slarrBody)) h
  | sldone => exact canon_onSlice (canon_runHandler canon_sldoneBody) h
  | slqry => exact canon_onSlice (canon_runHandler (canon_onPair canon_slqryBody)) h
  | slbud => exact canon_onSlice (canon_runHandler canon_slbudBody) h
  | handlerBaseInstruction => exact canon_onSlice (canon_runHandler canon_baseBody) h
  | fillBlock => exact canon_next (canon_fill h)
  | memoryOpPerformed => exact canon_execMemoryOpPerformed h
  | lateFault => exact canon_next (canon_lateFaultOf h)
  | pinTimeout => exact canon_next (canon_ite (canon_release h) h)
  | waitEnd => exact canon_next (canon_waitEnd h)
  | watchdogExpiry => exact canon_next (canon_ite (canon_watchdogMcc h) (canon_watchdogWarp h))
  | copyComplete => exact canon_next (canon_ite (canon_endCopy (canon_moveCopy h)) h)
  | copyFault => exact canon_next (canon_copyFault h)
  | mldsDone => exact canon_next (canon_runMlds h)
  | mswapDone => exact canon_next (canon_runMswap h)
  | mstrmRow => exact canon_next (canon_runRow h)
  | mclrDone => exact canon_next (canon_runMclr h)
  | marriveMade => exact canon_next (canon_makeArrival h)
  | operandFault => exact canon_next (canon_operandFault h)
  | dispatch => exact canon_execDispatch h
  | gangStart => exact canon_next (canon_ite (canon_setGang h) h)
  | nodeBlockFormation => exact canon_next (canon_formBlock h)
  | coalesceTimer => exact canon_execCoalesceTimer h
  | triggerFire => exact canon_execTriggerFire h
  | cancelPoint => exact canon_next (canon_cancelPoint h)
  | blockRetire => exact canon_next (canon_tryRetire h)
  | relaunch => exact canon_next (canon_relaunch h)
  | preemptionDelivery => exact canon_next (canon_ite h (canon_deliver h))
  | handlerEntry => exact canon_next (canon_tryEnter h)
  | forcedSave => exact canon_next (canon_trySave h)
  | blockLeave => exact canon_next (canon_leave h)
  | blockReplace => exact canon_next (canon_replace h)
  | resumeTimeout => exact canon_next (canon_ite (canon_setWarp h) h)
  | migration => exact canon_next (canon_migrate h)
  | machineCheck => exact canon_next (canon_machineCheck h)
  | scanTest => exact canon_execScanTest h
  | coreFailure => exact canon_next (canon_ite (canon_failCore h) (canon_failBay h))
  | sliceEvent => exact canon_execSliceEvent h
  | handlerStart => exact canon_next (canon_startHandler h)
  | handlerBudgetOverrun => exact canon_next (canon_overrun h)
  | handlerCommit => exact canon_execHandlerCommit h
  | smsgReply => exact canon_next (canon_smsgEnds h)
  | remoteAccess => exact canon_next (canon_performOp h)
  | fabricLanding => exact canon_next (canon_landing h)
  | fabricTimeout => exact canon_next (canon_ite (canon_failXfer h) h)
  | collComplete => exact canon_next (canon_collEnd h)
  | laneFailure => exact canon_next (canon_laneFails h)
  | retrainComplete => exact canon_next (canon_retrained h)
  | pantryRefill => exact canon_next (canon_tick h)
  | larderRefill => exact canon_next (canon_refill h)
  | ballastDeadline => exact canon_execBallastDeadline h
  | governorInterval => exact canon_next (canon_ite (canon_beginInterval h) h)
  | powerAggregate => exact canon_next (canon_ite h h)
  | rateUpdate => exact canon_next (canon_updateRate h)
  | tjSample => exact canon_execTjSample h
  | capBankLow => exact canon_execCapBankLow h
  | hbmCaseSample => exact canon_next (canon_sampleCase h)
  | ivrSample => exact canon_next (canon_ite (canon_setRegion h) h)
  | inputVoltageSample => exact canon_next (canon_sampleInput h)
  | supplyLost => exact canon_next (canon_ite (canon_powered_free_gov canon_reset) h)
  | flowSample => exact canon_next (canon_sampleFlow h)
  | regionPowerOn => exact canon_execRegionPowerOn h
  | regionPowerOff => exact canon_next (canon_ite (canon_setRegion h) h)
  | powerGood => exact canon_next (canon_ite h (canon_boot h))
  | cmdNop => exact canon_onRing (fun h => canon_nextEntry h) h
  | cmdLaunch => exact canon_onRing (fun h => canon_cmdLaunch h) h
  | cmdLaunchi => exact canon_onRing (fun h => canon_cmdLaunchi h) h
  | cmdWaitj => exact canon_onRing (fun h => canon_ite (canon_passTurn h) (canon_nextEntry h)) h
  | cmdWaitv => exact canon_execCmdWaitv h
  | cmdLoop => exact canon_onRing (fun h => canon_cmdLoop h) h
  | cmdJumpv => exact canon_execCmdJumpv h
  | cmdCancel => exact canon_onRing (fun h => canon_cmdCancel h) h
  | commandError => exact canon_onRing (fun h => canon_ite h (canon_ringError h)) h
  | setroot => exact canon_onMail canon_setRoot h
  | reghandler => exact canon_onMail (fun h => canon_regHandler h) h
  | bindgroup => exact canon_onMail canon_bindGroup h
  | bindpower => exact canon_onMail canon_bindPower h
  | setslew => exact canon_onMail canon_setSlew h
  | savepool => exact canon_onMail canon_savePool h
  | retrain => exact canon_onMail canon_hostRetrain h
  | attest => exact canon_onMail canon_attest h
  | certs => exact canon_onMail canon_certs h
  | mailboxLockRead => exact canon_next (canon_ite h h)
  | mailboxLockRelease => exact canon_next (canon_releaseLock h)
  | debugHalt => exact canon_next (canon_ite (canon_viewHalt h) h)
  | debugResume => exact canon_next (canon_ite (canon_viewResume h) h)
  | debugKill => exact canon_next (canon_ite (canon_viewKill h) h)
  | debugRelaunch => exact canon_next (canon_ite (canon_viewRelaunch h) h)
  | mccResume => exact canon_next (canon_ite (canon_viewMccResume h) h)
  | mccKill => exact canon_next (canon_ite (canon_viewMccKill h) h)
  | debugTlbInvalidation => exact canon_next (canon_ite (canon_viewTlbinv h) h)
  | mctpControlMessage => exact canon_next h
  | mctpSensorRead => exact canon_next h
  | registerWrite => exact canon_next (canon_writeBar h)
  | peerRequest => exact canon_next (canon_peerRequest h)
  | transferAbortArrival => exact canon_next (canon_abortArrives h)
  | ringSizeWrite => exact canon_next (canon_ite (canon_writeRingSize h) h)
  | unlistedMailboxCommand => exact canon_next (canon_ite (canon_mailEnd h) h)
  | capacitorBankRecovery => exact canon_execCapacitorBankRecovery h
  | bindRecordWrite => exact canon_next (canon_ite h h)
  | ballastItemComplete => exact canon_next (canon_runItem h)


/-! ## Turns -/

theorem canon_openBlock {b} (h : s.Canon) : (s.openBlock b).Canon := by
  fun_cases State.openBlock
  · exact h
  · exact canon_setBlock (canon_foldl (fun _ _ h => canon_releaseFor (canon_releaseFor h)) h)

theorem canon_attend {w} (h : s.Canon) : (s.attend w).Canon := by
  fun_cases State.attend
  · exact canon_settleHalt (canon_takeHalt h)
  · exact canon_settleHalt (canon_haltAt h)
  · exact h
  · exact canon_trySave h
  · exact canon_tryEnter h

theorem canon_poise {w} (h : s.Canon) : (s.poise w).Canon := by
  fun_cases State.poise
  · exact h
  · exact canon_setWarp (canon_setWarp h)
  · exact canon_setWarp h
  · exact canon_setWarp h

theorem canon_fetchFor {w} (h : s.Canon) : (s.fetchFor w).Canon := by
  generalize hf : State.fetchFor = f
  delta State.fetchFor at hf
  subst hf
  beta_reduce
  extract_lets +onlyGivenNames wp fe
  clear_value wp fe
  generalize s.ahead w = a
  split
  · exact canon_fill h
  · refine canon_ite h ?_
    generalize State.nextStart _ _ _ _ = n
    obtain _ | p := n
    · exact canon_fill h
    · exact canon_setWarp h
  · exact h

theorem canon_issueWarp {w} (h : s.Canon) : CanonAfter (s.issueWarp w) := by
  generalize hf : State.issueWarp = f
  delta State.issueWarp at hf
  subst hf
  beta_reduce
  generalize s.ahead w = a
  obtain _ | ⟨pc, r⟩ := a
  · exact canon_next h
  cases r with
  | missing a => exact canon_next h
  | fault c => exact canon_next (canon_dropFill (canon_faultTarget (canon_setWarp h)))
  | notStart => exact canon_next (canon_ite (canon_faultTarget (canon_setWarp h)) h)
  | instr i next =>
    cases i with
    | error e => exact canon_next (canon_faultWarp (canon_setWarp h))
    | ok i =>
      refine canonAfter_ite (canon_next (canon_setWarp h)) (canonAfter_ite (canon_exec ?_) (canon_next
          (canon_chargeWarp h)))
      exact canon_issuer (canon_setWarp (canon_chargeWarp h))

theorem canon_choose {ws} (h : s.Canon) : CanonAfter (s.choose ws) := by
  fun_cases State.choose
  · exact canon_next h
  · exact canon_next h
  · exact canon_issueWarp (canon_foldl (fun _ _ h => canon_ite h (canon_setWarp h)) h)

theorem canon_prepareSlot {k} (h : s.Canon) : (s.prepareSlot k).Canon := by
  fun_cases State.prepareSlot
  exact canon_foldl (fun _ _ h => canon_poise h) (canon_foldl (fun _ _ h =>
      canon_fetchFor h) (canon_foldl (fun _ _ h => canon_poise h) (canon_foldl (fun _ _ h => canon_attend h)
      (canon_foldl (fun _ _ h => canon_fetchFor h) (canon_foldl (fun _ _ h => canon_openBlock h) h)))))

theorem canon_ticked {die} (h : s.Canon) : (s.ticked die).Canon := by
  fun_cases State.ticked
  · exact canon_tick h
  · exact h

theorem canon_slotTurn {k} (h : s.Canon) : CanonAfter (s.slotTurn k) := by
  unfold State.slotTurn
  extract_lets t
  have ht : t.Canon := canon_prepareSlot (canon_ticked h)
  clear_value t
  split
  · exact canonAfter_ite (canon_issueWarp ht) (canon_next ht)
  · exact canon_choose ht

theorem canon_earlyMove {w els} (h : s.Canon) : (s.earlyMove w els).Canon := by
  generalize hf : State.earlyMove = f
  delta State.earlyMove at hf
  subst hf
  beta_reduce
  extract_lets +onlyGivenNames wp k
  clear_value wp k
  generalize s.ahead w = a
  split
  · refine canon_ite h ?_
    split
    · exact canon_partMove h
    · exact canon_partMove h
    · exact canon_partMove h
    · exact h
  · exact h

theorem canon_issueMcc {k} (h : s.Canon) : CanonAfter (s.issueMcc k) := by
  fun_cases State.issueMcc
  · exact canon_next (canon_fill h)
  · exact canon_next (canon_dropFill (canon_faultMcc h))
  · refine canon_next (canon_ite (canon_faultMcc h) ?_)
    split
    · exact canon_setMcc h
    · exact canon_fill h
  · exact canon_next (canon_faultMcc h)
  · exact canon_next h
  · exact canon_exec (canon_issuer (canon_setMcc (canon_chargeMcc h)))
  · exact canon_next (canon_chargeMcc h)

theorem canon_mccTurn {k} (h : s.Canon) : CanonAfter (s.mccTurn k) := by
  fun_cases State.mccTurn
  · exact canon_issueMcc (canon_foldl (fun _ _ h => canon_openBlock h) (canon_ticked h))
  · exact canon_next h

theorem canon_sliceTurn {k} (h : s.Canon) : CanonAfter (s.sliceTurn k) := by
  refine canonAfter_ite (canon_next h) (canonAfter_ite (canon_next (canon_overrun h)) ?_)
  split
  · exact canon_next (canon_runHandler (fun _ => trivial) h)
  · refine canon_exec ?_
    exact canon_issuer h

theorem canon_act (h : s.Canon) : CanonAfter s.act := by
  unfold State.act
  split
  · refine canonAfter_ite (canon_exec ?_) (canon_next h)
    exact canon_issuer h
  · exact canonAfter_ite (canon_slotTurn h) (canon_next h)
  · exact canonAfter_ite (canon_mccTurn h) (canon_next h)
  · exact canonAfter_ite (canon_sliceTurn h) (canon_next h)
  · exact canon_next (canon_ite (canon_earlyMove h) h)
  · exact canon_next (canon_ite (canon_earlyRow h) h)

theorem canon_advance (h : s.Canon) : (s.advance).Canon := by
  fun_cases State.advance
  exact canon_turn_issuer_free_time_cycles (canon_foldl (fun _ _ h => canon_setPantry h)
      h)

theorem canon_stepOnce (h : s.Canon) : CanonAfter s.stepOnce := by
  unfold State.stepOnce
  split
  · next e => exact canon_next (canon_advance (canon_act h _ e))
  · exact canon_fault
  · exact canon_refused

theorem canon_step (h : s.Canon) : CanonAfter (step s) := canon_stepOnce h

end Machine

open Machine in
/-- Settles O60: the form is kept by every function that yields a state, the step among them. -/
theorem memoryCanonicalKept : Obligations.MemoryCanonicalKept := by
  unfold Obligations.MemoryCanonicalKept
  intro s t h e
  exact canon_step h t e

end Sys2Proof
end

section
/-!
PROOFS of the statements of the family `06_memory.md` on one element's checks: which check decides, in the order of R130,
and where window and scratchpad addresses lead.
-/
namespace Sys2Proof
namespace Machine

/-! ## One element's checks -/

section
variable {s : State} {c : Ctx} {need : Need} {va n align : Nat}

theorem State.checkElem_misaligned (h : va % align ≠ 0) : s.checkElem c need va n align = (.error 0x062, s) :=
  if_pos (bne_iff_ne.mpr h)

theorem State.checkElem_window (h : va % align = 0) (hw : isWindow va = true) :
    s.checkElem c need va n align = (s.resolveWindow c.block va n, s) := by
  simp only [State.checkElem, h, hw, bne_self_eq_false, Bool.false_eq_true, if_false, if_true]

theorem State.checkElem_high (h : va % align = 0) (hw : isWindow va = false) (hv : 2 ^ 57 ≤ va) :
    s.checkElem c need va n align = (.error 0x060, s) := by
  simp only [State.checkElem, h, hw, hv, bne_self_eq_false, Bool.false_eq_true, if_false, if_true]

/-- The permissions that an entry withholds (R130). -/
def Need.forbidden (need : Need) (pte : Nat) : Prop :=
  need.read = true ∧ bit pte 1 = false ∨ need.write = true ∧ bit pte 2 = false

theorem Need.forbidden_iff (need : Need) (pte : Nat) :
    ((need.read && !bit pte 1) || (need.write && !bit pte 2)) = true ↔ need.forbidden pte := by
  simp [Need.forbidden]

section
variable (h : va % align = 0) (hw : isWindow va = false) (hv : va < 2 ^ 57)
include h hw hv

theorem State.checkElem_unmapped (ht : (s.translate (c.core / 16) c.asid va).1 = none) :
    (s.checkElem c need va n align).1 = .error 0x060 := by
  simp only [State.checkElem, h, hw, Nat.not_le.mpr hv, bne_self_eq_false, Bool.false_eq_true, if_false, ht]

theorem State.checkElem_forbidden {e : TlbEntry} (ht : (s.translate (c.core / 16) c.asid va).1 = some e)
    (hp : need.forbidden e.pte) : (s.checkElem c need va n align).1 = .error 0x061 := by
  simp only [State.checkElem, h, hw, Nat.not_le.mpr hv, bne_self_eq_false, Bool.false_eq_true, if_false, ht,
    (Need.forbidden_iff need e.pte).mpr hp, if_true]

theorem State.checkElem_permitted {e : TlbEntry} (ht : (s.translate (c.core / 16) c.asid va).1 = some e)
    (hp : ¬ need.forbidden e.pte) : (s.checkElem c need va n align).1 =
      s.placeOf e.pte (e.pa va) n need := by
  simp only [State.checkElem, h, hw, Nat.not_le.mpr hv, bne_self_eq_false, Bool.false_eq_true, if_false, ht,
    mt (Need.forbidden_iff need e.pte).mp hp]

end

/-! ## The place of a physical address -/

section
variable {pte pa : Nat}

theorem State.placeOf_local (h : pa / 2 ^ 50 % 4 < 2) : s.placeOf pte pa n need =
    if isLocal pa then .ok (.home pa (bit pte 6) (bit pte 5)) else .error 0x063 := by
  have : bits pa 50 2 = 0 ∨ bits pa 50 2 = 1 := by simp only [bits]; omega
  unfold State.placeOf
  obtain h | h := this
  · rw [h]
    rfl
  · rw [h]
    rfl

theorem State.placeOf_fabric (h : pa / 2 ^ 50 % 4 = 2) : s.placeOf pte pa n need =
    .ok (if pa / 2 ^ 42 % 2 ^ 8 = s.moduleId ∧ isLocal (pa % 2 ^ 42) = true then .self (pa % 2 ^ 42) else .peer pa) := by
  have h2 : bits pa 50 2 = 2 := h
  have h0 : bits pa 0 42 = pa % 2 ^ 42 := by simp only [bits, pow_zero, Nat.div_one]
  unfold State.placeOf
  rw [h2]
  dsimp only
  rw [h0]
  rw [apply_ite Except.ok]
  simp only [Bool.and_eq_true, decide_eq_true_eq]
  rfl

theorem State.placeOf_io (h : pa / 2 ^ 50 % 4 = 3) (hn : need.mmio = false ∨ (n ≠ 4 ∧ n ≠ 8)) :
    s.placeOf pte pa n need = .error 0x063 := by
  have h3 : bits pa 50 2 = 3 := h
  unfold State.placeOf
  rw [h3]
  obtain hn | ⟨h4, h8⟩ := hn
  · simp [hn]
  · simp [h4, h8]

end
end

/-! ## Scratchpad and window addresses -/

section
variable {s : State} {b n off m : Nat}

theorem State.inScratch_eq : s.inScratch b off n =
    if off + n ≤ (s.block b).alloc then .ok (.scratch b off) else .error 0x064 := by
  unfold State.inScratch
  by_cases h : off + n ≤ (s.block b).alloc
  · rw [if_pos h, if_neg (Nat.not_lt.mpr h)]
  · rw [if_neg h, if_pos (Nat.not_le.mp h)]

theorem State.resolveSa_own (h : off < 2 ^ 20) : s.resolveSa b off n = s.inScratch b off n := if_pos h

theorem State.resolveWindow_own (h : off < 2 ^ 20) :
    s.resolveWindow b (0x01FFFF0000000000 + off) n = s.inScratch b off n := by
  have hle : ownWindow ≤ 0x01FFFF0000000000 + off := Nat.le_add_right _ _
  have hsub : 0x01FFFF0000000000 + off - ownWindow = off := Nat.add_sub_cancel_left ..
  rw [State.resolveWindow, if_pos hle, hsub, if_pos h]

theorem State.memberBlock_alone (h : (s.block b).cluster = none) : s.memberBlock b m = .error 0x064 := by
  rw [State.memberBlock, h]

theorem State.resolveSa_alone (hm : m < 16) (h : off < 2 ^ 20) (hc : (s.block b).cluster = none) :
    s.resolveSa b (2 ^ 24 + m * 2 ^ 20 + off) n = .error 0x064 := by
  rw [State.resolveSa, if_neg (by omega), if_pos (by omega), memberBlock_alone hc]

theorem State.resolveWindow_alone (hm : m < 16) (h : off < 2 ^ 20) (hc : (s.block b).cluster = none) :
    s.resolveWindow b (0x01FFFE0000000000 + m * 2 ^ 20 + off) n = .error 0x064 := by
  rw [State.resolveWindow, if_neg (by rw [ownWindow]; omega), if_pos (by rw [windowBase]; omega), memberBlock_alone hc]

/-- A cluster spans the indexes in use. -/
theorem Cluster.lt_span {cl : Cluster} {k : Nat} (hm : m < 16) (h : cl.members.get none m = some k) : m < cl.span := by
  have hmem : m ∈ cl.indexes := List.mem_filter.mpr ⟨List.mem_range.mpr hm, by rw [h]; rfl⟩
  have hsorted : cl.indexes.Pairwise (· < ·) := List.pairwise_lt_range.filter _
  unfold Cluster.span
  cases hl : cl.indexes.getLast? with
  | none =>
    rw [List.getLast?_eq_none_iff.mp hl] at hmem
    cases hmem
  | some j =>
    obtain ⟨l, hl⟩ := List.getLast?_eq_some_iff.mp hl
    rw [hl] at hmem hsorted
    obtain hm | hm := List.mem_append.mp hmem
    · exact Nat.lt_succ_of_lt ((List.pairwise_append.mp hsorted).2.2 m hm j List.mem_cons_self)
    · exact (List.mem_singleton.mp hm) ▸ Nat.lt_succ_self m

theorem State.memberBlock_member {c k : Nat} (hm : m < 16) (hc : (s.block b).cluster = some c)
    (hk : (s.cluster c).members.get none m = some k) (hl : (s.block k).leaving = false ∨ k = b) :
    s.memberBlock b m = .ok k := by
  have hspan := Cluster.lt_span hm hk
  rw [State.memberBlock, hc]
  dsimp only
  rw [if_neg (Nat.not_le.mpr hspan), hk]
  obtain hl | rfl := hl
  · simp [hl]
  · simp

theorem State.resolveSa_member {c k : Nat} (hm : m < 16) (h : off < 2 ^ 20) (hc : (s.block b).cluster = some c)
    (hk : (s.cluster c).members.get none m = some k) (hl : (s.block k).leaving = false ∨ k = b) :
    s.resolveSa b (2 ^ 24 + m * 2 ^ 20 + off) n = s.inScratch k off n := by
  have hbits : bits (2 ^ 24 + m * 2 ^ 20 + off) 20 4 = m := by simp only [bits]; omega
  have hmod : (2 ^ 24 + m * 2 ^ 20 + off) % 2 ^ 20 = off := by omega
  rw [State.resolveSa, if_neg (by omega), if_pos (by omega), hbits, memberBlock_member hm hc hk hl, hmod]

end

/-- Settles O31: the order of R130 clause by clause, and where each range of window and scratchpad addresses leads. -/
theorem addressFaultOrder : Obligations.AddressFaultOrder := by
  unfold Obligations.AddressFaultOrder
  refine ⟨fun s c need va n align => ?_, fun s b n => ?_⟩
  · refine ⟨fun h => congrArg Prod.fst (State.checkElem_misaligned h), fun h hw => congrArg Prod.fst (State.checkElem_window h hw),
      fun h hw hv => congrArg Prod.fst (State.checkElem_high h hw hv), fun h hw hv => ⟨_, _, rfl, fun ht =>
      State.checkElem_unmapped h hw hv ht, fun e ht => ⟨fun hp => State.checkElem_forbidden h hw hv ht hp, fun hp => ?_⟩⟩⟩
    rw [State.checkElem_permitted h hw hv ht hp]
    refine ⟨fun hr hl => ?_, fun hr hl => ?_, fun hr => ?_, State.placeOf_io⟩
    · rw [State.placeOf_local hr, if_neg (Bool.eq_false_iff.mp hl)]
    · rw [State.placeOf_local hr, if_pos hl]
    · rw [State.placeOf_fabric hr]
  · refine ⟨fun off h => ?_, fun off h => ?_, fun m off hm h hc => ⟨State.resolveWindow_alone hm h hc,
      State.resolveSa_alone hm h hc⟩, fun m off c k hm h hc hk hl => ?_⟩
    · rw [State.resolveWindow_own h, State.inScratch_eq]
    · rw [State.resolveSa_own h, State.inScratch_eq]
    · rw [State.resolveSa_member hm h hc hk hl, State.inScratch_eq]

end Machine
end Sys2Proof
end

section
/-!
PROOFS. The statement on late faults fails at replay overflow: a relaunchable block is then relaunched (R234, R280).
-/
namespace Sys2Proof
namespace Machine

/-- The element of a load, at the home. -/
def overflowElem : Elem := { addr := 0x20000, place := .home 0x20000 false false, size := 8 }

/-- A warp of a relaunchable block, all of its replay slots in use, with one more load in flight. -/
def overflowState : State :=
  let s := State.reset.placeWarp []
  ((s.setBlock 1 { s.block 1 with rcd := { (s.block 1).rcd with rl := true } }).setWarp 1
    { s.warp 1 with replays := [2, 3, 4, 5] }).setOp 1
    { st := .flying, instr := some (.ld {}), warp := 1, block := 1, lanes := 1, enabled := 1, elems := [overflowElem] }

/-- The load's late fault asks for the relaunch: the block's record changes. -/
theorem again_of_overflow {t : State} (h : exec (.lateFault 1 1 0x065) overflowState = .next t) :
    (t.block 1).again = true := by
  have : ∀ a, exec (.lateFault 1 1 0x065) overflowState = a →
      (match a with | .next t => (t.block 1).again | _ => false) = true := by
    rintro a rfl
    decide +kernel
  exact this _ h

end Machine
end Sys2Proof

open Sys2Proof Sys2Proof.Machine

/-- Refutes O35: at replay overflow a block whose launch allows a relaunch is relaunched (R234, R280), so not the warp,
the operation and memory alone change, as the clause on late faults says: the block's record asks for the relaunch. -/
theorem not_lateFaultsAndWaits : ¬ Obligations.LateFaultsAndWaits := by
  rintro ⟨-, -, h, -⟩
  obtain ⟨t, ht, hframe, -⟩ := h overflowState 1 1 0x065 0 overflowElem (by decide +kernel) (by decide +kernel)
    (by decide +kernel) (by decide +kernel) rfl (by decide) (by decide +kernel) (by decide +kernel) (by decide)
    (by decide +kernel)
    (fun n x hn hx => by
      have hlen : n < (overflowState.op 1).elems.length := List.getElem?_eq_some_iff.mp hx |>.1
      have : (overflowState.op 1).elems.length = 1 := by decide +kernel
      omega)
    (by decide +kernel) (by decide +kernel) (by decide +kernel) (by decide +kernel)
  have hblock : (t.block 1).again = (overflowState.block 1).again := by rw [hframe]; rfl
  rw [again_of_overflow ht] at hblock
  exact absurd hblock (by decide +kernel)
end

section
/-!
PROOFS. The statement on elements that perform fails for an operation on a stream that a thread does not have: streams are
numbered 0 to 7 (R140), and the statement does not say so of the operation in flight.
-/
namespace Sys2Proof
namespace Machine

/-- The element of a store, in the block's scratchpad. -/
def strayElem : Elem := { place := .scratch 1 0, size := 8 }

/-- A warp with a store of thread 0 in flight on stream 8. -/
def strayState : State :=
  (State.reset.placeWarp []).setOp 1
    { st := .flying, instr := some (.st {}), warp := 1, block := 1, lanes := 1, enabled := 1, strm := 8
      elems := [strayElem] }

/-- The store's completion is counted where thread 1 counts its stream 0. -/
theorem doneOf_of_stray {t : State} (h : exec (.memoryOpPerformed 1 1 []) strayState = .next t) :
    ((t.warp 1).streams false).doneOf 1 0 = 1 := by
  have : ∀ a, exec (.memoryOpPerformed 1 1 []) strayState = a →
      (match a with | .next t => ((t.warp 1).streams false).doneOf 1 0 == 1 | _ => false) = true := by
    rintro a rfl
    decide +kernel
  exact eq_of_beq (this _ h)

end Machine
end Sys2Proof

open Sys2Proof Sys2Proof.Machine

/-- Refutes O34: the statement takes every operation in flight, whatever its stream; one on stream 8 of thread 0 is counted
by the completion as stream 0 of thread 1, a thread that it does not concern. -/
theorem not_elementPerforms : ¬ Obligations.ElementPerforms := by
  intro h
  have single : ∀ n x, n ≠ 0 → (strayState.op 1).elems[n]? = some x → x.done = true := by
    intro n x hn hx
    have hlen : n < (strayState.op 1).elems.length := (List.getElem?_eq_some_iff.mp hx).1
    have : (strayState.op 1).elems.length = 1 := by decide +kernel
    omega
  obtain ⟨t, v, ht, -, -, hlast⟩ := h strayState 1 1 [] false 0 strayElem (by decide +kernel) (by decide +kernel)
    (by decide +kernel) (by unfold Claims.Calm; decide +kernel) (by decide +kernel) rfl (by decide) rfl nofun
    (fun n x hn hx _ _ => single n x hn hx) (by decide +kernel)
  obtain ⟨-, -, hdone, -⟩ := hlast single
  have hcount := (hdone false 1 0 (by decide) (by decide)).2
  have hold : ((strayState.warp 1).streams false).doneOf 1 0 = 0 := by decide +kernel
  have hlanes : ((strayState.op 1).markDone 0 v).lanes = 1 := by
    show (strayState.op 1).lanes = 1
    decide +kernel
  have hw : (strayState.op 1).warp = 1 := by decide +kernel
  rw [hw, doneOf_of_stray ht, hold, hlanes, if_neg (fun g => absurd g.2.1 (by decide))] at hcount
  exact absurd hcount (by decide)
end

section
/-!
PROOFS. The statements on the issue of the atomics fail in a state whose L1 table lists a line twice, the second time pinned:
they take every state, also one whose tables are not in the canonical form of `Table.wf`. The first element of an atomic
drops the clean copy that the table shows (R222), what it hid comes to light, and the second element writes it back.
-/
namespace Sys2Proof
namespace Machine

/-- Threads 0 and 1 address two words of one line, at the home on a mapped page. -/
def hiddenPin : State :=
  let s := State.reset.placeWarp []
  { s.setWarp 1 { ((s.warp 1).wrS 2 0x20000).wrV 6 1 4 with group := 3 } with
    issuer := .warp 1
    roots := s.roots.set 0 0 0x4000
    mem := (s.mem.writeBytes 0x4000 (bytesOf 8 0x8001)).writeBytes 0x8000 (bytesOf 8 0xF)
    l1 := ⟨[(l1Key 0 1024, { valid := true }), (l1Key 0 1024, { valid := true, pinned := true, dirty := 1, data := [1] })]⟩ }

/-- The operands: words of 32 bits at s[2] + v[6], of scope cluster. -/
def hiddenPinOperands : Mem := { d := 4, a := 2, off := .reg 6 none, sz := 2, scope := .cluster }

/-- What the refutations below evaluate of an atomic: it issues, its elements pass their checks, and the hidden byte is at
the home afterwards. -/
structure BringsToLight (i : Instr) (elems : Warp → List Elem) : Prop where
  issues : (issueFault i ((hiddenPin.warp 1).beginIssue i)).isNone = true
  active : (hiddenPin.atIssue i 1).activeReal {} ≠ 0
  room : (hiddenPin.atIssue i 1).mustStall i.uniformOp 0 ((hiddenPin.atIssue i 1).activeReal {}) = 0
  some : elems (hiddenPin.atIssue i 1) ≠ []
  pass : ((hiddenPin.issued i 1).checkAll ((hiddenPin.issued i 1).ctx 1) { read := true, write := true } 4
    (hiddenPin.atIssue i 1).isHelper (elems (hiddenPin.atIssue i 1))).1.isOk = true
  live : ((List.range 32).all fun l => ((hiddenPin.atIssue i 1).lane l).st != .draining) = true
  core : (hiddenPin.block (hiddenPin.atIssue i 1).block).core = 0
  after : (match exec i hiddenPin with
    | .next t => t.mem.read 0x20000
    | _ => 0) = 1

theorem not_accessIssues_of_bringsToLight {i : Instr} {elems : Warp → List Elem} {enabled : Warp → Nat}
    {args : Warp → List Nat} {send : List Elem → List Elem} (h : BringsToLight i elems) :
    ¬ Claims.AccessIssues i hiddenPinOperands { read := true, write := true } 4 (fun _ => True) elems enabled args send := by
  intro hc
  have hi : Issues 1 i hiddenPin := ⟨rfl, Option.isNone_iff_eq_none.mp h.issues⟩
  have hd : Claims.Drained (hiddenPin.atIssue i 1) := fun l hl hst => by
    have := List.all_eq_true.mp h.live l (List.mem_range.mpr hl)
    simp [hst] at this
  obtain ⟨hload, -⟩ := hc 1 hiddenPin hi (by decide) trivial h.active h.room
  have hpass := h.pass
  rcases hr : (hiddenPin.issued i 1).checkAll ((hiddenPin.issued i 1).ctx 1) { read := true, write := true } 4
    (hiddenPin.atIssue i 1).isHelper (elems (hiddenPin.atIssue i 1)) with ⟨_ | l, s1⟩
  · rw [hr] at hpass
    cases hpass
  · obtain ⟨t, ht, -, -, -, -, -, -, -, -, hk, -⟩ := hload l s1 h.some hr hd
    have hafter := h.after
    rw [ht] at hafter
    rw [h.core] at hk
    obtain hsame | ⟨hpin, -⟩ := hk 0x20000
    · exact absurd (hsame.symm.trans hafter) (by decide +kernel)
    · exact absurd hpin (by decide +kernel)

theorem bringsToLight_atom : BringsToLight (.atom .add hiddenPinOperands)
    (Claims.laneElems hiddenPinOperands false 4 (Claims.atomCap hiddenPinOperands)) :=
  ⟨by decide +kernel, by decide +kernel, by decide +kernel, by decide +kernel, by decide +kernel, by decide +kernel,
    by decide +kernel, by decide +kernel⟩

theorem bringsToLight_redv : BringsToLight (.redv (.int .add) hiddenPinOperands)
    (Claims.laneElems hiddenPinOperands false 4 (fun a l => ((a.rdV 4 l).toNat % 2 ^ 32, 0))) :=
  ⟨by decide +kernel, by decide +kernel, by decide +kernel, by decide +kernel, by decide +kernel, by decide +kernel,
    by decide +kernel, by decide +kernel⟩

end Machine
end Sys2Proof

open Sys2Proof Sys2Proof.Machine

/-- Refutes O28: an ATOM of two words in a line that the L1 table lists twice changes a byte at the home that the state
did not show as pinned. -/
theorem not_laneAccessIssue : ¬ Obligations.LaneAccessIssue := by
  rintro ⟨h, -⟩
  obtain ⟨hissues, -⟩ := h ⟨.atom .add, { read := true, write := true }, false, fun x => atomWidth x.sz / 8, Claims.atomCap⟩
    (by simp [Claims.laneOps]) hiddenPinOperands
  exact not_accessIssues_of_bringsToLight bringsToLight_atom hissues

/-- Refutes O30: a REDV of two words in a line that the L1 table lists twice does so too. -/
theorem not_atomicFunctions : ¬ Obligations.AtomicFunctions := by
  rintro ⟨h, -⟩
  obtain ⟨hissues, -⟩ := h (.int .add) hiddenPinOperands
  exact not_accessIssues_of_bringsToLight bringsToLight_redv hissues
end

section
/-!
PROOFS. What visits to the homes of lines leave of the slice cores: their queues and their counts alone change.
-/
namespace Sys2Proof

namespace Claims
open Machine

theorem OnlyQueues.refl (s : State) : OnlyQueues s s := fun _ => rfl

theorem OnlyQueues.of_eq {s t : State} (h : t.slices = s.slices) : OnlyQueues s t := fun k => by
  unfold State.slice
  rw [h]

theorem OnlyQueues.trans {s t u : State} (h : OnlyQueues s t) (g : OnlyQueues t u) : OnlyQueues s u := fun k => by
  rw [g k, h k]

theorem homed_trans {s t u : State} (h : t = homed s t) (g : u = homed t u) : u = homed s u := by
  rw [h] at g
  exact g

theorem homed_refl (s : State) : s = homed s s := rfl

end Claims

namespace Machine
open Claims (OnlyQueues)

theorem State.queueEvent_onlyQueues (s : State) (k t : Nat) {e : SliceEvent} (h : e.op = none) :
    OnlyQueues s (s.queueEvent k t e) := by
  intro n
  unfold queueEvent
  dsimp only
  rw [h]
  by_cases hn : n = k
  · subst hn
    split <;> simp [answerSmsg, Slice.setTenant]
  · split <;> simp [answerSmsg, State.slice_setSlice_ne _ _ _ _ hn]

theorem State.lineEvent_onlyQueues (s : State) (k kind pa : Nat) (asid : Option Nat) (dirty : Bool) (handle : Nat) :
    OnlyQueues s (s.lineEvent k kind pa asid dirty handle) := by
  unfold lineEvent
  cases asid with
  | none => exact .refl s
  | some a =>
    dsimp only
    split
    · exact s.queueEvent_onlyQueues _ _ rfl
    · exact .refl s

theorem State.dropLine_onlyQueues (s : State) (pa : Nat) : OnlyQueues s (s.dropLine pa) :=
  (OnlyQueues.of_eq rfl).trans (State.lineEvent_onlyQueues _ _ _ _ _ _ _)

theorem State.makeLine_onlyQueues (s : State) (pa : Nat) : OnlyQueues s (s.makeLine pa) := by
  unfold makeLine
  dsimp only
  repeat' split
  · exact .refl s
  · exact .refl s
  · exact (OnlyQueues.of_eq rfl).trans (State.dropLine_onlyQueues _ _)
  · exact .refl s

theorem State.fillLine_onlyQueues (s : State) (pa : Nat) (asid : Option Nat) : OnlyQueues s (s.fillLine pa asid) :=
  (s.makeLine_onlyQueues pa).trans ((OnlyQueues.of_eq rfl).trans (State.lineEvent_onlyQueues _ _ _ _ _ _ _))

theorem State.atSlice_onlyQueues (s : State) (pa : Nat) (asid handle : Option Nat) :
    OnlyQueues s (s.atSlice pa asid handle) := by
  unfold atSlice
  dsimp only
  repeat' split
  · exact .refl s
  · exact s.fillLine_onlyQueues _ _
  · exact (s.lineEvent_onlyQueues _ _ _ _ _ _).trans (State.fillLine_onlyQueues _ _ _)
  · exact s.fillLine_onlyQueues _ _

theorem State.writeHome_onlyQueues (s : State) (pa : Nat) (bs : List Byte) : OnlyQueues s (s.writeHome pa bs) :=
  .of_eq (by rw [writeHome_frame])

/-! ## A pinned line written back -/

theorem State.release_unpinned {s : State} {core line : Nat} (h : (s.l1Line core line).pinned = false) :
    s.release core line = s := by
  simp [release, h]

theorem State.release_onlyQueues (s : State) (core line : Nat) : OnlyQueues s (s.release core line) := by
  unfold release
  dsimp only
  split
  · exact .refl s
  · exact ((s.atSlice_onlyQueues _ _ _).trans (State.writeHome_onlyQueues _ _ _)).trans (.of_eq rfl)

theorem State.release_homed (s : State) (core line : Nat) : s.release core line = Claims.homed s (s.release core line) := by
  rw [Claims.homed]
  exact s.release_frame core line

theorem length_mergeLine (old data : List Byte) (mask : Nat) : (mergeLine old data mask).length = 128 := by
  simp [mergeLine]

theorem getElem_mergeLine (old data : List Byte) (mask i : Nat) (h : i < (mergeLine old data mask).length) :
    (mergeLine old data mask)[i] = if bit mask i then data.getD i 0 else old.getD i 0 := by
  simp [mergeLine]

theorem State.release_pinned {s : State} {core line : Nat} (h : (s.l1Line core line).pinned = true) :
    s.release core line =
      ((s.atSlice (line * 128) ((s.l1Line core line).owners.head?.map
        (fun o => (s.job (s.block (s.warp o.1).block).job).asid)) none).writeHome (line * 128)
        (mergeLine (s.homeLine line) (s.l1Line core line).data (s.l1Line core line).dirty)).setL1 core line {
          valid := true
          data := mergeLine (s.homeLine line) (s.l1Line core line).data (s.l1Line core line).dirty } := by
  simp only [release, h, Bool.not_true, Bool.false_eq_true, if_false]

theorem State.homeLine_getD (s : State) (line : Nat) {i : Nat} (h : i < 128) :
    (s.homeLine line).getD i 0 = s.mem.read (line * 128 + i) := by
  rw [homeLine, List.getD_eq_getElem?_getD, Memory.readBytes_getElem _ _ _ _ h]
  rfl

/-- A byte of memory after a release: that of the line where the line holds it dirty. -/
theorem State.release_read {s : State} {core line : Nat} (h : (s.l1Line core line).pinned = true) (a : Nat) :
    (s.release core line).mem.read a =
      if a / 128 = line ∧ bit (s.l1Line core line).dirty (a % 128) = true then (s.l1Line core line).data.getD (a % 128) 0
      else s.mem.read a := by
  rw [release_pinned h]
  simp only [setL1, writeHome_mem, atSlice_mem, Memory.read_writeBytes, length_mergeLine]
  by_cases hl : a / 128 = line
  · have hi : a - line * 128 = a % 128 := by omega
    have ha : line * 128 ≤ a ∧ a < line * 128 + 128 := by omega
    have hb : line * 128 + a % 128 = a := by omega
    rw [if_pos ha, hi, List.getD_eq_getElem _ _ (by rw [length_mergeLine]; omega), getElem_mergeLine,
      homeLine_getD s line (Nat.mod_lt _ (by decide)), hb]
    simp only [hl, true_and]
  · rw [if_neg (by omega), if_neg (fun g => hl g.1)]

theorem State.release_l1Line_same {s : State} {core line : Nat} (h : (s.l1Line core line).pinned = true) :
    (s.release core line).l1Line core line = {
      valid := true
      data := mergeLine (s.homeLine line) (s.l1Line core line).data (s.l1Line core line).dirty } := by
  rw [release_pinned h]
  exact Table.get_set_same _ _ _ _

/-! ## Lines of one core that have been written back -/

/-- Every line of core `c` stands in `t` as in `s`, or is pinned no more; bytes at the home have changed by what those
lines held alone. -/
structure Releases (c : Nat) (s t : State) : Prop where
  line : ∀ n, t.l1Line c n = s.l1Line c n ∨ (t.l1Line c n).pinned = false
  home : Claims.KeepsHome c s t

theorem Releases.refl (c : Nat) (s : State) : Releases c s s := ⟨fun _ => .inl rfl, fun _ => .inl rfl⟩

theorem Releases.release {c : Nat} {s t : State} (h : Releases c s t) (line : Nat) : Releases c s (t.release c line) := by
  by_cases hp : (t.l1Line c line).pinned = true
  · have hs : t.l1Line c line = s.l1Line c line := (h.line line).resolve_right (by rw [hp]; decide)
    refine ⟨fun n => ?_, fun pa => ?_⟩
    · by_cases hk : l1Key c n = l1Key c line
      · right
        unfold State.l1Line
        rw [hk]
        exact congrArg L1Line.pinned (State.release_l1Line_same hp)
      · have : (t.release c line).l1Line c n = t.l1Line c n := by
          rw [State.release_pinned hp]
          unfold State.l1Line State.setL1
          rw [Table.get_set_ne _ _ _ _ _ hk, State.writeHome_l1, State.atSlice_frame]
        rw [this]
        exact h.line n
    · rw [State.release_read hp]
      split
      · next hd =>
        right
        rw [hs] at hp hd ⊢
        rw [hd.1]
        exact ⟨hp, hd.2, rfl⟩
      · exact h.home pa
  · rw [State.release_unpinned (Bool.eq_false_iff.mpr hp)]
    exact h

theorem State.releaseWhere_releases (c : Nat) (f : Nat → L1Line → Bool) (s : State) : Releases c s (s.releaseWhere c f) :=
  List.foldlRecOn _ _ (Releases.refl c s) (fun _ h _ _ => h.release _)

theorem State.releaseWhere_onlyQueues (s : State) (c : Nat) (f : Nat → L1Line → Bool) :
    OnlyQueues s (s.releaseWhere c f) :=
  List.foldlRecOn (motive := OnlyQueues s) _ _ (OnlyQueues.refl s) (fun t h _ _ => h.trans (t.release_onlyQueues _ _))

theorem State.releaseWhere_homed (s : State) (c : Nat) (f : Nat → L1Line → Bool) :
    s.releaseWhere c f = Claims.homed s (s.releaseWhere c f) := s.releaseWhere_frame c f

/-- Where the test names no line, nothing is written back. -/
theorem State.releaseWhere_false {s : State} {c : Nat} {f : Nat → L1Line → Bool} (h : ∀ n x, f n x = false) :
    s.releaseWhere c f = s := by
  have : s.l1.cells.filter (fun e => e.1 / 2 ^ 45 == c && e.2.pinned && f (e.1 % 2 ^ 45) e.2) = [] :=
    List.filter_eq_nil_iff.mpr (fun e _ => by simp [h])
  unfold releaseWhere
  rw [this]
  rfl

end Machine
end Sys2Proof
end

section
/-!
PROOFS. The counts of streams after an issue and after a completion (R144).
-/
namespace Sys2Proof
namespace Machine

/-- A fold that raises the count of stream `st` of thread after thread. -/
theorem foldl_raise (ls : List Nat) (st : Nat) (x : Table (BitVec 16)) (hn : ls.Nodup) {l n : Nat} (hs : st < 8)
    (hm : n < 8) :
    (ls.foldl (fun (a : Table (BitVec 16)) l => a.set 0 (l * 8 + st) (a.get 0 (l * 8 + st) + 1)) x).get 0 (l * 8 + n) =
      x.get 0 (l * 8 + n) + if l ∈ ls ∧ n = st then 1 else 0 := by
  induction ls generalizing x with
  | nil => simp
  | cons k r ih =>
    obtain ⟨hk, hr⟩ := List.nodup_cons.mp hn
    rw [List.foldl_cons, ih _ hr]
    by_cases he : l * 8 + n = k * 8 + st
    · have hlk : l = k := by omega
      have hns : n = st := by omega
      subst hlk hns
      simp [Table.get_set_same, hk]
    · have hne : ¬ (l = k ∧ n = st) := fun h => he (by rw [h.1, h.2])
      rw [Table.get_set_ne _ _ _ _ _ he]
      congr 1
      by_cases hns : n = st
      · simp [hns, show l ≠ k from fun h => hne ⟨h, hns⟩]
      · simp [hns]

namespace Streams
variable (x : Streams) (mask st : Nat)

theorem issue_eq : x.issue mask st = { x with
    issued := (maskList mask 32).foldl (fun a l => a.set 0 (l * 8 + st) (a.get 0 (l * 8 + st) + 1)) x.issued } := by
  unfold issue
  induction maskList mask 32 generalizing x with
  | nil => rfl
  | cons k r ih => exact ih _

theorem complete_eq : x.complete mask st = { x with
    done := (maskList mask 32).foldl (fun a l => a.set 0 (l * 8 + st) (a.get 0 (l * 8 + st) + 1)) x.done } := by
  unfold complete
  induction maskList mask 32 generalizing x with
  | nil => rfl
  | cons k r ih => exact ih _

variable {st} {l n : Nat}

@[simp] theorem doneOf_issue : (x.issue mask st).doneOf l n = x.doneOf l n := by
  rw [issue_eq]
  rfl

@[simp] theorem issuedOf_complete : (x.complete mask st).issuedOf l n = x.issuedOf l n := by
  rw [complete_eq]
  rfl

theorem issuedOf_issue (hs : st < 8) (hl : l < 32) (hn : n < 8) :
    (x.issue mask st).issuedOf l n = x.issuedOf l n + if bit mask l = true ∧ n = st then 1 else 0 := by
  rw [issue_eq]
  refine (foldl_raise _ st _ (nodup_maskList mask 32) hs hn).trans ?_
  simp only [mem_maskList, hl, true_and]
  rfl

theorem doneOf_complete (hs : st < 8) (hl : l < 32) (hn : n < 8) :
    (x.complete mask st).doneOf l n = x.doneOf l n + if bit mask l = true ∧ n = st then 1 else 0 := by
  rw [complete_eq]
  refine (foldl_raise _ st _ (nodup_maskList mask 32) hs hn).trans ?_
  simp only [mem_maskList, hl, true_and]
  rfl

end Streams

theorem Warp.streams_setStreams (a : Warp) (h g : Bool) (x : Streams) :
    (a.setStreams g x).streams h = if h = g then x else a.streams h := by
  cases h <;> cases g <;> rfl

theorem Warp.setStreams_eq (a : Warp) (g : Bool) (x : Streams) :
    a.setStreams g x = { a with own := (a.setStreams g x).own, hnd := (a.setStreams g x).hnd } := by
  cases g <;> rfl

end Machine
end Sys2Proof
end

section
/-!
PROOFS. A module in which nothing waits for a word or a tag: what serves waiters does nothing. What the end of an operation
leaves of a warp and of the blocks.
-/
namespace Sys2Proof

/-! ## Nothing waits -/

section
open Machine
variable {s t : State}

theorem Table.mem_set {α : Type} [DecidableEq α] {d : α} {m : Table α} {k : Nat} {v : α} {c : Nat × α}
    (h : c ∈ (m.set d k v).cells) : c = (k, v) ∨ c ∈ m.cells := by
  unfold Table.set at h
  split at h
  · exact .inr (Table.mem_erase _ _ _ h)
  · exact (Table.mem_insert _ _ _ _ h).imp_right (Table.mem_erase _ _ _)

theorem Table.mem_of_find {α : Type} {l : List (Nat × α)} {k : Nat} {v : α} (h : Table.find l k = some v) : (k, v) ∈ l := by
  induction l with
  | nil => cases h
  | cons c r ih =>
    obtain ⟨j, x⟩ := c
    by_cases hj : j = k
    · simp only [Table.find, hj, if_true, Option.some.injEq] at h
      simp [hj, h]
    · simp only [Table.find, hj, if_false] at h
      exact List.mem_cons_of_mem _ (ih h)

theorem Claims.NoWaiters.of_eq (h : Claims.NoWaiters s) (hw : t.warps = s.warps) (hm : t.mccs = s.mccs) : Claims.NoWaiters t := by
  unfold Claims.NoWaiters
  rw [hw, hm]
  exact h

theorem Claims.NoWaiters.setWarp (h : Claims.NoWaiters s) {w : Nat} {x : Warp} (hx : ∀ l, l < 32 → (x.lane l).st ≠ .parked) :
    Claims.NoWaiters (s.setWarp w x) := by
  refine ⟨fun c hc l hl => ?_, h.2⟩
  obtain rfl | hc := Table.mem_set hc
  · exact hx l hl
  · exact h.1 c hc l hl

theorem Claims.NoWaiters.warp (h : Claims.NoWaiters s) (w : Nat) {l : Nat} (hl : l < 32) : ((s.warp w).lane l).st ≠ .parked := by
  unfold State.warp Table.get
  split
  · next x hx => exact h.1 _ (Table.mem_of_find hx) l hl
  · exact (show (({} : Lane).st) ≠ .parked by decide)

theorem Claims.NoWaiters.atIssue (h : Claims.NoWaiters s) (i : Instr) (w : Nat) {l : Nat} (hl : l < 32) :
    ((s.atIssue i w).lane l).st ≠ .parked := by
  rw [lane_atIssue]
  split
  · exact h.warp w hl
  · exact h.warp w hl

theorem Claims.NoWaiters.issued (h : Claims.NoWaiters s) (i : Instr) (w : Nat) : Claims.NoWaiters (s.issued i w) := by
  rw [issued_eq]
  exact h.setWarp (fun l hl => h.atIssue i w hl)

end

namespace Machine
section
variable {s : State}

theorem State.waiters_nil (h : Claims.NoWaiters s) (f : Wait → Bool) : s.waiters f = [] := by
  refine List.flatten_eq_nil_iff.mpr (fun l hl => ?_)
  obtain ⟨c, hc, rfl⟩ := List.mem_map.mp hl
  refine List.filterMap_eq_nil_iff.mpr (fun k hk => ?_)
  have := h.1 c hc k ((mem_maskList _ _ _).mp hk).1
  simp [this]

theorem State.serveMccs_quiet (h : Claims.NoWaiters s) (b off n : Nat) : s.serveMccs b off n = s := by
  have : s.mccs.cells.filter (fun c => match c.2.inWait with
      | some x => overlaps (.scratch x.block x.off) 16 (.scratch b off) n
      | none => false) = [] :=
    List.filter_eq_nil_iff.mpr (fun c hc => by simp [h.2 c hc])
  unfold State.serveMccs
  exact congrArg (fun l => List.foldl _ s l) this

theorem State.serveWords_quiet (h : Claims.NoWaiters s) (b off n : Nat) : s.serveWords b off n = s := by
  unfold State.serveWords
  rw [waiters_nil h, serveMccs_quiet h]
  rfl

theorem State.serveTag_quiet (h : Claims.NoWaiters s) (fuel b off : Nat) : s.serveTag fuel b off = s := by
  cases fuel with
  | zero => rfl
  | succ n =>
    unfold State.serveTag
    simp only [waiters_nil h, firstJoined]

end

/-! ## The ends of waits and of threads -/

section
variable {s : State} {w : Nat}

theorem State.joinWaits_quiet (h : ∀ l, l < 32 → ((s.warp w).lane l).st ≠ .parked) : s.joinWaits w = s := by
  unfold State.joinWaits
  refine List.foldlRecOn (motive := fun t => t = s) _ _ rfl (fun t ht l hl => ?_)
  subst ht
  have := h l ((mem_maskList _ _ _).mp hl).1
  simp [this]

theorem State.drain_quiet (h : ∀ l, l < 32 → ((s.warp w).lane l).st = .draining → (s.warp w).idle l = false) :
    s.drain w = s := by
  have : lanes32.filter (fun l => ((s.warp w).lane l).st == .draining && (s.warp w).idle l) = [] := by
    refine List.filter_eq_nil_iff.mpr (fun l hl => ?_)
    have hl := List.mem_range.mp hl
    intro hd
    simp only [Bool.and_eq_true, beq_iff_eq] at hd
    rw [h l hl hd.1] at hd
    exact absurd hd.2 (by decide)
  simp [drain, this]

end

end Machine
end Sys2Proof
end

section
/-!
PROOFS. The tag instructions (R199, R200, R205, R206) where nothing waits.
-/
namespace Sys2Proof
namespace Machine

/-! ## A word of a scratchpad and its tag -/

/-- All but the bytes and tags of block `b`'s scratchpad, and what is kept of older bytes, is as before. -/
structure ScratchOnly (b : Nat) (s t : State) : Prop where
  frame : t = { s with past := t.past, blocks := t.blocks }
  others : ∀ c, c ≠ b → t.block c = s.block c
  block : t.block b = { s.block b with scratch := (t.block b).scratch, tags := (t.block b).tags }

theorem ScratchOnly.refl (b : Nat) (s : State) : ScratchOnly b s s := ⟨rfl, fun _ _ => rfl, rfl⟩

theorem ScratchOnly.trans {b : Nat} {s t u : State} (h : ScratchOnly b s t) (g : ScratchOnly b t u) : ScratchOnly b s u :=
  ⟨by rw [g.frame, h.frame], fun c hc => (g.others c hc).trans (h.others c hc), by rw [g.block, h.block]⟩

theorem ScratchOnly.standing {b : Nat} {s t : State} (h : ScratchOnly b s t) : (t.block b).standing = (s.block b).standing := by
  rw [h.block]
  rfl

theorem ScratchOnly.imaged {b : Nat} {s t : State} (h : ScratchOnly b s t) : (t.block b).imaged = (s.block b).imaged := by
  rw [h.block]
  rfl

theorem ScratchOnly.quiet {b : Nat} {s t : State} (h : ScratchOnly b s t) (hq : Claims.NoWaiters s) : Claims.NoWaiters t :=
  hq.of_eq (by rw [h.frame]) (by rw [h.frame])

section
variable {s : State} {b : Nat} (off : Nat) (hst : (s.block b).standing = true) (him : (s.block b).imaged = false)
include him

theorem State.tagAt_present : s.tagAt b off = (s.block b).tags.get false (off / 8) := by
  simp [tagAt, him]

include hst

theorem State.setTag_present (v : Bool) :
    s.setTag b off v = s.setBlock b { s.block b with tags := (s.block b).tags.set false (off / 8) v } := by
  simp [setTag, him, hst]

theorem State.writeScratch_present (bs : List Byte) : s.writeScratch b off bs =
    (s.remember { place := .scratch b off, data := (s.block b).scratch.readBytes bs.length off }).setBlock b
      { s.block b with scratch := (s.block b).scratch.writeBytes off bs } := by
  simp [writeScratch, him, hst]

theorem State.readScratch_present (n : Nat) : s.readScratch b off n = (s.block b).scratch.readBytes n off := by
  simp [readScratch, him, hst]

theorem State.setTag_scratchOnly (v : Bool) : ScratchOnly b s (s.setTag b off v) := by
  rw [setTag_present off hst him]
  refine ⟨rfl, fun c hc => block_setBlock_ne _ _ _ _ hc, ?_⟩
  rw [block_setBlock_same]

theorem State.writeScratch_scratchOnly (bs : List Byte) : ScratchOnly b s (s.writeScratch b off bs) := by
  rw [writeScratch_present off hst him, remember_frame]
  refine ⟨rfl, fun c hc => block_setBlock_ne _ _ _ _ hc, ?_⟩
  rw [block_setBlock_same]

theorem State.scratch_setTag (v : Bool) : ((s.setTag b off v).block b).scratch = (s.block b).scratch := by
  rw [setTag_present off hst him, block_setBlock_same]

theorem State.scratch_writeScratch (bs : List Byte) :
    ((s.writeScratch b off bs).block b).scratch = (s.block b).scratch.writeBytes off bs := by
  rw [writeScratch_present off hst him, block_setBlock_same]

theorem State.tagAt_setTag (v : Bool) (o : Nat) :
    (s.setTag b off v).tagAt b o = if o / 8 = off / 8 then v else s.tagAt b o := by
  rw [tagAt_present o (by rw [(setTag_scratchOnly off hst him v).imaged, him]), setTag_present off hst him,
    block_setBlock_same, tagAt_present o him]
  exact Table.get_set _ _ _ _ _

theorem State.tagAt_writeScratch (bs : List Byte) (o : Nat) : (s.writeScratch b off bs).tagAt b o = s.tagAt b o := by
  rw [tagAt_present o (by rw [(writeScratch_scratchOnly off hst him bs).imaged, him]), writeScratch_present off hst him,
    block_setBlock_same, tagAt_present o him]

end

/-! ## What a tag instruction does to its word -/

/-- The tag that a tag instruction leaves. -/
def tagLeft (full : Bool) : Instr → Bool
  | .ldf _ => full
  | .ldfe _ => false
  | _ => true

/-- The bytes that a tag instruction leaves. -/
def wordLeft (m : Memory) (off data : Nat) : Instr → Memory
  | .ste _ | .stf _ => m.writeBytes off (bytesOf 8 data)
  | _ => m

section
variable {s : State} {b : Nat} {i : Instr} {x : Mem} (hi : i ∈ [Instr.ldf x, .ldfe x, .ste x, .stf x]) (off data : Nat)
  (hst : (s.block b).standing = true) (him : (s.block b).imaged = false)
include hi hst him

theorem State.tagDo_leaves : ScratchOnly b s (s.tagDo i b off data).2 ∧
    (∀ o, (s.tagDo i b off data).2.tagAt b o = if o / 8 = off / 8 then tagLeft (s.tagAt b off) i else s.tagAt b o) ∧
    ((s.tagDo i b off data).2.block b).scratch = wordLeft (s.block b).scratch off data i := by
  have hw := writeScratch_scratchOnly off hst him (bytesOf 8 data)
  have hst' := hw.standing.trans hst
  have him' := hw.imaged.trans him
  simp only [List.mem_cons, List.not_mem_nil, or_false] at hi
  obtain rfl | rfl | rfl | rfl := hi
  case inl =>
    refine ⟨.refl b s, fun o => ?_, rfl⟩
    split
    · next h =>
      show s.tagAt b o = s.tagAt b off
      rw [tagAt_present o him, tagAt_present off him, h]
    · rfl
  case inr.inl => exact ⟨setTag_scratchOnly off hst him _, fun o => tagAt_setTag off hst him _ o, scratch_setTag off hst him _⟩
  all_goals
    refine ⟨hw.trans (setTag_scratchOnly off hst' him' true), fun o => ?_, ?_⟩
    · refine (tagAt_setTag off hst' him' true o).trans ?_
      rw [tagAt_writeScratch off hst him]
      rfl
    · exact (scratch_setTag off hst' him' true).trans (scratch_writeScratch off hst him _)

end

/-! ## A tag instruction as it issues in one thread -/

/-- A warp in which a tag instruction has performed in thread `l`: its destination, and both counts of its stream. -/
def Warp.tagged (a : Warp) (i : Instr) (strm l v : Nat) : Warp :=
  let w := a.setStreams a.usesHandlerStreams
    (((a.streams a.usesHandlerStreams).issue (2 ^ l) strm).complete (2 ^ l) strm)
  match tagDest i with
  | some d => w.wrV d l (BitVec.ofNat 64 v)
  | none => w

section
variable {s : State} {w b off l sa : Nat} {i : Instr} {x : Mem}

theorem State.mayJoin_idle {y : Wait} (hp : y.place = .scratch b off) (hf : (s.block b).frozen = false)
    (he : s.earlier w y.seq = []) : s.mayJoin w l y = true := by
  unfold mayJoin edgesMet sameMet
  simp [he, hp, hf]

theorem Warp.lane_tagged (a : Warp) (i : Instr) (strm l v k : Nat) : (a.tagged i strm l v).lane k = a.lane k := by
  unfold Warp.tagged
  rw [Warp.setStreams_eq]
  split <;> rfl

theorem State.tagIssue_performs (hi : i ∈ [Instr.ldf x, .ldfe x, .ste x, .stf x]) (hq : Claims.NoWaiters s)
    (hst : (s.block b).standing = true) (him : (s.block b).imaged = false) (hf : (s.block b).frozen = false)
    (he : ∀ q, s.earlier w q = []) (ht : tagOk i (s.tagAt b off) = true) :
    ∃ t, ScratchOnly b { s with nextSeq := s.nextSeq + 1 } t ∧
      (∀ o, t.tagAt b o = if o / 8 = off / 8 then tagLeft (s.tagAt b off) i else s.tagAt b o) ∧
      (t.block b).scratch = wordLeft (s.block b).scratch off ((s.warp w).rdV x.d l).toNat i ∧
      s.tagIssue w i x l sa (.scratch b off) =
        (t.setWarp w ((s.warp w).tagged i x.strm l (s.tagDo i b off ((s.warp w).rdV x.d l).toNat).1)).forget w
          (.scratch b off) 8 := by
  obtain ⟨hframe, htag, hscr⟩ :=
    tagDo_leaves (s := { s with nextSeq := s.nextSeq + 1 }) hi off ((s.warp w).rdV x.d l).toNat hst him
  have hval : (State.tagDo { s with nextSeq := s.nextSeq + 1 } i b off ((s.warp w).rdV x.d l).toNat).1 =
      (s.tagDo i b off ((s.warp w).rdV x.d l).toNat).1 := by
    unfold tagDo
    cases i <;> rfl
  have hserves : s.tagServes i b off = true := by simp [tagServes, ht]
  have hmay : ∀ y : Wait, y.place = .scratch b off → s.mayJoin w l y = true := fun y hy => mayJoin_idle hy hf (he _)
  unfold tagIssue
  extract_lets wp data wait s0 met
  have hmet : met = true := hmay wait rfl
  clear_value met
  subst hmet
  simp only [hserves, Bool.and_self, if_true]
  generalize hr : s0.tagDo i b off data = r at *
  obtain ⟨v, s1⟩ := r
  replace hframe : ScratchOnly b s0 s1 := hframe
  replace hval : v = (s.tagDo i b off data).1 := hval
  have hwarp : s1.warp w = s.warp w := by
    unfold State.warp
    rw [hframe.frame]
  have hquiet : Claims.NoWaiters (s1.setWarp w ((s.warp w).tagged i x.strm l v)) :=
    (hframe.quiet (hq.of_eq rfl rfl)).setWarp (fun k hk => by rw [Warp.lane_tagged]; exact hq.warp w hk)
  refine ⟨s1, hframe, htag, hscr, ?_⟩
  rw [← hval]
  have hforget : Claims.NoWaiters ((s1.setWarp w ((s.warp w).tagged i x.strm l v)).forget w (.scratch b off) 8) :=
    hquiet.of_eq rfl rfl
  simp only [hwarp]
  refine (serveTag_quiet ?_ _ _ _).trans ?_
  · exact (serveWords_quiet hforget b off 8).symm ▸ hforget
  · exact serveWords_quiet hforget b off 8

end

/-! ## One thread Active -/

theorem maskList_two_pow {l : Nat} (hl : l < 32) : maskList (2 ^ l) 32 = [l] := by
  refine List.perm_singleton.mp
    ((List.perm_ext_iff_of_nodup (nodup_maskList _ _) (List.nodup_singleton l)).mpr fun k => ?_)
  rw [mem_maskList, List.mem_singleton, bit_eq_testBit, Nat.testBit_two_pow, decide_eq_true_eq]
  omega

/-- What a tag instruction of a wide scope writes back before it performs in thread `l` (R136). -/
def State.tagReleased (s : State) (w : Nat) (x : Mem) (l : Nat) : State :=
  if Scope.wide x.scope then
    s.releaseFor (s.block (s.warp w).block).core w (s.warp w).usesHandlerStreams x.after (2 ^ l)
  else s

section
variable {s : State} {w l : Nat} {i : Instr} {x : Mem} (hl : l < 32) (ha : (s.warp w).activeReal x.g = 2 ^ l)
include hl ha

theorem maskList_active : maskList ((s.warp w).activeReal x.g) 32 = [l] := by rw [ha, maskList_two_pow hl]

theorem placeLanes_misaligned (h8 : (s.warp w).memAddr x true l % 8 ≠ 0) :
    s.placeLanes w (fun l => (s.warp w).memAddr x true l) (maskList ((s.warp w).activeReal x.g) 32) =
      .error { cause := 0x062, lane := l, addr := (s.warp w).memAddr x true l } := by
  rw [maskList_active hl ha]
  simp [State.placeLanes, State.placeSa, h8]

theorem placeLanes_single {p : Place} (h8 : (s.warp w).memAddr x true l % 8 = 0)
    (hp : s.resolveSa (s.warp w).block ((s.warp w).memAddr x true l) 8 = .ok p) :
    s.placeLanes w (fun l => (s.warp w).memAddr x true l) (maskList ((s.warp w).activeReal x.g) 32) =
      .ok [(l, (s.warp w).memAddr x true l, p)] := by
  rw [maskList_active hl ha]
  simp [State.placeLanes, State.placeSa, h8, hp]

-- `tagWarp` is opened by name, and its first two values alone are taken out: to compare its `match` with itself after
-- `unfold` makes the elaborator evaluate the list of lanes
theorem tagWarp_misaligned (h8 : (s.warp w).memAddr x true l % 8 ≠ 0) :
    tagWarp i x w s = .trap { cause := 0x062, lane := l, addr := (s.warp w).memAddr x true l } s := by
  have hp := placeLanes_misaligned hl ha h8
  generalize hf : tagWarp = f
  delta tagWarp at hf
  subst hf
  beta_reduce
  extract_lets +onlyGivenNames wp real
  have hwp : wp = s.warp w := rfl
  have hreal : real = wp.activeReal x.g := rfl
  clear_value real
  clear_value wp
  subst hwp
  subst hreal
  rw [hp]

theorem tagWarp_single {p : Place} (hs : (s.warp w).mustStall false x.strm (2 ^ l) = 0)
    (h8 : (s.warp w).memAddr x true l % 8 = 0)
    (hp : s.resolveSa (s.warp w).block ((s.warp w).memAddr x true l) 8 = .ok p) :
    tagWarp i x w s = .ok ((s.tagReleased w x l).tagIssue w i x l ((s.warp w).memAddr x true l) p) := by
  have hp := placeLanes_single hl ha h8 hp
  generalize hf : tagWarp = f
  delta tagWarp at hf
  subst hf
  beta_reduce
  extract_lets +onlyGivenNames wp real
  have hwp : wp = s.warp w := rfl
  have hreal : real = wp.activeReal x.g := rfl
  clear_value real
  clear_value wp
  subst hwp
  subst hreal
  rw [hp]
  simp only [ha, hs, if_true, bit_zero, List.foldl_cons, List.foldl_nil, Bool.false_eq_true, if_false]
  rfl

end

end Machine
end Sys2Proof
end

section
/-!
PROOFS. The statement on the tag instructions: LDF, LDFE, STE and STF.
-/
namespace Sys2Proof
namespace Machine

/-! ## The warp after a tag instruction -/

section
variable (a : Warp) (i : Instr) (strm l v : Nat)

theorem Warp.streams_tagged (h : Bool) : (a.tagged i strm l v).streams h =
    if h = a.usesHandlerStreams then ((a.streams h).issue (2 ^ l) strm).complete (2 ^ l) strm else a.streams h := by
  have : (a.tagged i strm l v).streams h = (a.setStreams a.usesHandlerStreams
      (((a.streams a.usesHandlerStreams).issue (2 ^ l) strm).complete (2 ^ l) strm)).streams h := by
    unfold Warp.tagged
    split <;> rfl
  rw [this, Warp.streams_setStreams]
  split
  · next he => rw [he]
  · rfl

theorem Warp.tagged_eq : a.tagged i strm l v =
    { a with v := (a.tagged i strm l v).v, own := (a.tagged i strm l v).own, hnd := (a.tagged i strm l v).hnd } := by
  unfold Warp.tagged
  rw [Warp.setStreams_eq]
  split <;> rfl

theorem Warp.countedBoth_tagged (hs : strm < 8) : Claims.CountedBoth a (a.tagged i strm l v) (2 ^ l) strm := by
  intro h k n hk hn
  rw [Warp.streams_tagged]
  by_cases hh : h = a.usesHandlerStreams
  · subst hh
    simp [Streams.issuedOf_issue _ _ hs hk hn, Streams.doneOf_complete _ _ hs hk hn, Warp.usesHandlerStreams]
  · have hm : ¬ h = (a.mode != .normal) := hh
    simp [hh, hm]

theorem Warp.rdV_tagged (hl : l < 32) {n k : Nat} (hk : k < 32) : (a.tagged i strm l v).rdV n k =
    if tagDest i = some n ∧ k = l then BitVec.ofNat 64 v else a.rdV n k := by
  unfold Warp.tagged
  rw [Warp.setStreams_eq]
  split
  · next d hd =>
    rw [rdV_wrV _ _ _ _ _ _ hl hk]
    simp only [hd, Option.some.injEq, eq_comm (a := n)]
    rfl
  · next hd => simp [hd]; rfl

theorem Warp.keepsRegs_tagged (hl : l < 32) (hd : tagDest i = none) : KeepsRegs [] a (a.tagged i strm l v) := by
  refine ⟨fun n k hk _ => ?_, fun n _ => ?_, fun n _ => ?_, fun n _ => ?_⟩
  · rw [Warp.rdV_tagged a i strm l v hl hk, hd]
    simp
  all_goals
    rw [Warp.tagged_eq]
    rfl

end

/-! ## The bytes of a word -/

theorem bytesOf_length (n x : Nat) : (bytesOf n x).length = n := by
  induction n generalizing x with
  | zero => rfl
  | succ n ih => simp [bytesOf, ih]

theorem bytesOf_getD (n x k : Nat) (hk : k < n) : (bytesOf n x).getD k 0 = BitVec.ofNat 8 (x / 2 ^ (8 * k)) := by
  induction n generalizing x k with
  | zero => omega
  | succ n ih =>
    cases k with
    | zero => exact BitVec.eq_of_toNat_eq (by simp [bytesOf])
    | succ k =>
      show (bytesOf n (x / 256)).getD k 0 = _
      rw [ih _ _ (by omega), Nat.div_div_eq_div_mul, Nat.mul_succ, Nat.add_comm, Nat.pow_add]

theorem read_wordStored (m : Memory) (off n : Nat) (x : Word) : (m.writeBytes off (bytesOf 8 x.toNat)).read n =
    if off ≤ n ∧ n < off + 8 then x.extractLsb' (8 * (n - off)) 8 else m.read n := by
  rw [Memory.read_writeBytes, bytesOf_length]
  split
  · next h =>
    rw [bytesOf_getD _ _ _ (by omega)]
    apply BitVec.eq_of_toNat_eq
    simp [Nat.shiftRight_eq_div_pow]
  · rfl

/-! ## What is written back first -/

section
variable (s : State) (w : Nat) (x : Mem) (l : Nat)

theorem State.tagReleased_frame : s.tagReleased w x l = { s with
    mem := (s.tagReleased w x l).mem, l1 := (s.tagReleased w x l).l1, l2 := (s.tagReleased w x l).l2
    rdc := (s.tagReleased w x l).rdc, shadow := (s.tagReleased w x l).shadow, past := (s.tagReleased w x l).past
    slices := (s.tagReleased w x l).slices, free := (s.tagReleased w x l).free } := by
  unfold tagReleased
  split
  · exact releaseWhere_frame _ _ _
  · rfl

theorem State.tagReleased_keepsHome :
    Claims.KeepsHome (s.block (s.warp w).block).core s (s.tagReleased w x l) := by
  unfold tagReleased
  split
  · exact (releaseWhere_releases _ _ _).home
  · exact (Releases.refl _ s).home

end

/-! ## LDF, LDFE, STE and STF -/

section
variable {s : State} {w l b off : Nat} {i : Instr} {x : Mem}

theorem tagOk_iff (hi : i ∈ [Instr.ldf x, .ldfe x, .ste x, .stf x]) (full : Bool) :
    tagOk i full = true ↔ (i = .stf x ∨ (full = true ↔ ¬ (i = .ste x ∨ i = .stf x))) := by
  simp only [List.mem_cons, List.not_mem_nil, or_false] at hi
  obtain rfl | rfl | rfl | rfl := hi <;> cases full <;> simp [tagOk]

theorem exec_tag (hi : i ∈ [Instr.ldf x, .ldfe x, .ste x, .stf x]) (s : State) :
    exec i s = onWarp i (tagWarp i x) s := by
  simp only [List.mem_cons, List.not_mem_nil, or_false] at hi
  obtain rfl | rfl | rfl | rfl := hi
  iterate 4 rfl

theorem State.earlier_idle (h : ∀ c ∈ s.ops.cells, c.2.st = .none ∨ c.2.warp ≠ w) (q : Nat) : s.earlier w q = [] := by
  refine List.filter_eq_nil_iff.mpr (fun o ho hp => ?_)
  obtain ⟨c, hc, rfl⟩ := List.mem_map.mp ho
  obtain hst | hw := h c hc
  · simp [hst] at hp
  · simp [hw] at hp

/-- What the state that a tag instruction performs in shares with the state that it issues in. -/
theorem State.tagReleased_issued (s : State) (i : Instr) (w : Nat) (x : Mem) (l : Nat) :
    let r := (s.issued i w).tagReleased w x l
    r.ops = s.ops ∧ r.blocks = s.blocks ∧ r.warps = (s.issued i w).warps ∧ r.mccs = s.mccs := by
  intro r
  have hr : r = _ := State.tagReleased_frame (s.issued i w) w x l
  rw [hr]
  exact ⟨rfl, rfl, rfl, rfl⟩

/-- The value that a tag instruction binds: LDF and LDFE the word. -/
theorem State.tagDo_value (hi : i ∈ [Instr.ldf x, .ldfe x, .ste x, .stf x]) (hst : (s.block b).standing = true)
    (him : (s.block b).imaged = false) (data : Nat) : (s.tagDo i b off data).1 =
      if i = .ste x ∨ i = .stf x then 0 else ofBytes ((s.block b).scratch.readBytes 8 off) := by
  simp only [List.mem_cons, List.not_mem_nil, or_false] at hi
  obtain rfl | rfl | rfl | rfl := hi <;> simp [State.tagDo, State.readScratch_present off hst him]

/-- A tag instruction whose word's tag lets it performs as it issues (R199). -/
theorem tag_performs (hi : i ∈ [Instr.ldf x, .ldfe x, .ste x, .stf x]) (h : Claims.Alone w i s b) (hl : l < 32)
    (ha : (s.atIssue i w).activeReal x.g = 2 ^ l) (hs : (s.atIssue i w).mustStall false x.strm (2 ^ l) = 0)
    (h8 : (s.atIssue i w).memAddr x true l % 8 = 0)
    (hp : s.resolveSa (s.atIssue i w).block ((s.atIssue i w).memAddr x true l) 8 = .ok (.scratch b off))
    (ht : tagOk i (s.tagAt b off) = true) :
    ∃ t, exec i s = .next t ∧ Claims.KeepsHome (s.block (s.atIssue i w).block).core s t ∧
      (∀ c, c ≠ b → t.block c = s.block c) ∧
      (∀ o, t.tagAt b o = if o / 8 = off / 8 then tagLeft (s.tagAt b off) i else s.tagAt b o) ∧
      (∀ u, u ≠ w → t.warp u = s.warp u) ∧
      (t.block b).scratch = wordLeft (s.block b).scratch off ((s.atIssue i w).rdV x.d l).toNat i ∧
      t.warp w = (s.atIssue i w).tagged i x.strm l (s.tagDo i b off ((s.atIssue i w).rdV x.d l).toNat).1 := by
  obtain ⟨hissue, hq, hidle, hst, him, hf⟩ := h
  have hexec := (exec_tag hi s).trans (onWarp_ok hissue (tagWarp_single (s := s.issued i w) hl ha hs h8 hp))
  obtain ⟨hops, hblocks, hwarps, hmccs⟩ := State.tagReleased_issued s i w x l
  have hkeeps := (s.issued i w).tagReleased_keepsHome w x l
  generalize (s.issued i w).tagReleased w x l = r at *
  have hblock : ∀ c, r.block c = s.block c := fun c => by unfold State.block; rw [hblocks]
  have hwarp : ∀ u, r.warp u = (s.issued i w).warp u := fun u => by unfold State.warp; rw [hwarps]
  have htag : ∀ o, r.tagAt b o = s.tagAt b o := fun o => by
    rw [State.tagAt_present o (by rw [hblock, him]), State.tagAt_present o him, hblock]
  obtain ⟨t, hframe, htags, hscratch, hissued⟩ := State.tagIssue_performs (s := r) (sa := (s.atIssue i w).memAddr x true l)
    (l := l) hi ((hq.issued i w).of_eq hwarps hmccs) (by rw [hblock, hst]) (by rw [hblock, him]) (by rw [hblock, hf])
    (State.earlier_idle (by rw [hops]; exact hidle)) (by rw [htag]; exact ht)
  have hvalue := (State.tagDo_value (s := r) (off := off) hi (by rw [hblock, hst]) (by rw [hblock, him])
    ((r.warp w).rdV x.d l).toNat).trans ((by rw [hblock] : _ = _).trans
    (State.tagDo_value (s := s) (off := off) hi hst him ((s.atIssue i w).rdV x.d l).toNat).symm)
  have hw : r.warp w = s.atIssue i w := hwarp w
  rw [hvalue, hw] at hissued
  rw [hw] at hscratch
  refine ⟨_, hexec.trans (congrArg Host.Outcome.next hissued), fun pa => ?_, fun c hc => ?_, fun o => ?_, fun u hu => ?_, ?_, ?_⟩
  · show t.mem.read pa = _ ∨ _ ∧ _ ∧ t.mem.read pa = _
    rw [hframe.frame]
    exact hkeeps pa
  · exact (hframe.others c hc).trans (hblock c)
  · refine (htags o).trans ?_
    rw [htag, htag]
  · refine (State.warp_setWarp_ne _ _ _ _ hu).trans ?_
    have : t.warp u = r.warp u := by rw [hframe.frame]; rfl
    rw [this, hwarp, issued_eq, State.warp_setWarp_ne _ _ _ _ hu]
  · rw [hblock] at hscratch
    exact hscratch
  · exact State.warp_setWarp_same _ _ _

/-! ## The wrong tag -/

theorem Warp.park_eq (a : Warp) (mask : Nat) (f : Nat → Wait) :
    a.park mask f = { a with lanes := (a.park mask f).lanes, selDue := true, group := (a.park mask f).group } := by
  have h := mapLanes_eq a mask (fun l la => { la with
    pc := a.pc
    st := if la.st == .helper then .helper else .parked
    wait := if la.st == .helper then {} else { f l with pc := a.pc, next := a.npc } })
  unfold Warp.park
  rw [h]

theorem Warp.keepsRegs_park (a : Warp) (mask : Nat) (f : Nat → Wait) : KeepsRegs [] a (a.park mask f) := by
  rw [Warp.park_eq]
  exact ⟨fun _ _ _ _ => rfl, fun _ _ => rfl, fun _ _ => rfl, fun _ _ => rfl⟩

theorem Warp.lane_regroup (a : Warp) (d : Bool) (g l : Nat) : ({ a with selDue := d, group := g } : Warp).lane l = a.lane l :=
  rfl

theorem Warp.lane_park (a : Warp) {mask l : Nat} (f : Nat → Wait) (hl : l < 32) (hm : bit mask l = true)
    (hh : a.isHelper l = false) : (a.park mask f).lane l = { a.lane l with
      pc := a.pc, st := .parked, wait := { f l with pc := a.pc, next := a.npc } } := by
  have hst : ((a.lane l).st == .helper) = false := hh
  rw [Warp.park, Warp.lane_regroup, lane_mapLanes, if_pos ⟨hl, hm⟩]
  simp [hst]

theorem Warp.bit_group_park (a : Warp) {mask l : Nat} (f : Nat → Wait) (hm : bit mask l = true) :
    bit (a.park mask f).group l = false := by
  show bit (maskWhere 32 (fun l => bit a.group l && !bit mask l)) l = false
  simp [hm]

theorem Warp.bit_withHelpers (a : Warp) {mask l : Nat} (hl : l < 32) (hm : bit mask l = true) :
    bit (a.withHelpers mask) l = true := by
  simp [Warp.withHelpers, hl, hm]

theorem bit_two_pow_self (l : Nat) : bit (2 ^ l) l = true := by simp [bit_eq_testBit]

theorem Warp.activeReal_helper {a : Warp} {g : Guard} {k : Nat} (h : bit (a.activeReal g) k = true) :
    a.isHelper k = false := by
  unfold Warp.activeReal at h
  rw [bit_maskWhere] at h
  simp only [Bool.and_eq_true, Bool.not_eq_true'] at h
  exact h.2.2

theorem State.tagIssue_parks {s : State} {sa : Nat} (hst : (s.block b).standing = true)
    (ht : tagOk i (s.tagAt b off) = false) : ∃ y : Wait, y.kind = .tag ∧ y.place = .scratch b off ∧
      s.tagIssue w i x l sa (.scratch b off) =
        { s with nextSeq := s.nextSeq + 1 }.setWarp w ((s.warp w).park ((s.warp w).withHelpers (2 ^ l)) (fun _ => y)) := by
  have hserves : s.tagServes i b off = false := by simp [tagServes, hst, ht]
  unfold tagIssue
  extract_lets wp data wait s0 met
  simp only [hserves, Bool.and_false, Bool.false_eq_true, if_false]
  exact ⟨{ wait with joined := if met then s.nextSeq else 0 }, rfl, rfl, rfl⟩

/-- A tag instruction whose word's tag is the wrong one parks its thread (R200). -/
theorem tag_parks (hi : i ∈ [Instr.ldf x, .ldfe x, .ste x, .stf x]) (h : Claims.Alone w i s b) (hl : l < 32)
    (ha : (s.atIssue i w).activeReal x.g = 2 ^ l) (hs : (s.atIssue i w).mustStall false x.strm (2 ^ l) = 0)
    (h8 : (s.atIssue i w).memAddr x true l % 8 = 0)
    (hp : s.resolveSa (s.atIssue i w).block ((s.atIssue i w).memAddr x true l) 8 = .ok (.scratch b off))
    (ht : tagOk i (s.tagAt b off) = false) :
    ∃ t y, exec i s = .next t ∧ y.kind = WaitKind.tag ∧ y.place = .scratch b off ∧ (∀ c, t.block c = s.block c) ∧
      (∀ u, u ≠ w → t.warp u = s.warp u) ∧
      t.warp w = (s.atIssue i w).park ((s.atIssue i w).withHelpers (2 ^ l)) (fun _ => y) := by
  obtain ⟨hissue, -, -, hst, him, -⟩ := h
  have hexec := (exec_tag hi s).trans (onWarp_ok hissue (tagWarp_single (s := s.issued i w) hl ha hs h8 hp))
  obtain ⟨-, hblocks, hwarps, -⟩ := State.tagReleased_issued s i w x l
  generalize (s.issued i w).tagReleased w x l = r at *
  have hblock : ∀ c, r.block c = s.block c := fun c => by unfold State.block; rw [hblocks]
  have hwarp : ∀ u, r.warp u = (s.issued i w).warp u := fun u => by unfold State.warp; rw [hwarps]
  have htag : r.tagAt b off = s.tagAt b off := by
    rw [State.tagAt_present off (by rw [hblock, him]), State.tagAt_present off him, hblock]
  obtain ⟨y, hk, hy, hissued⟩ := State.tagIssue_parks (s := r) (x := x) (w := w) (l := l)
    (sa := (s.atIssue i w).memAddr x true l) (by rw [hblock, hst]) (by rw [htag]; exact ht)
  have hw : r.warp w = s.atIssue i w := hwarp w
  rw [hw] at hissued
  refine ⟨_, y, hexec.trans (congrArg Host.Outcome.next hissued), hk, hy, hblock, fun u hu => ?_, ?_⟩
  · refine (State.warp_setWarp_ne _ _ _ _ hu).trans ((hwarp u).trans ?_)
    rw [issued_eq, State.warp_setWarp_ne _ _ _ _ hu]
  · exact State.warp_setWarp_same _ _ _

/-- A misaligned address is the fault of its thread (R199). -/
theorem tag_misaligned (hi : i ∈ [Instr.ldf x, .ldfe x, .ste x, .stf x]) (h : Issues w i s) (hl : l < 32)
    (ha : (s.atIssue i w).activeReal x.g = 2 ^ l) (h8 : (s.atIssue i w).memAddr x true l % 8 ≠ 0) :
    exec i s = .next ((s.issued i w).faultWarp w
      { cause := 0x062, lane := l, addr := (s.atIssue i w).memAddr x true l }) :=
  (exec_tag hi s).trans (onWarp_trap h (tagWarp_misaligned (s := s.issued i w) hl ha h8))

end

end Machine
end Sys2Proof
end

section
/-!
PROOFS. What the end of an operation leaves alone; FESET and FEQ, and the statement on the tag instructions.
-/
namespace Sys2Proof
namespace Machine

/-! ## The end of an operation -/

theorem KeepsRegs.refl (l : List RegRef) (a : Warp) : KeepsRegs l a a :=
  ⟨fun _ _ _ _ => rfl, fun _ _ => rfl, fun _ _ => rfl, fun _ _ => rfl⟩

theorem KeepsRegs.trans {l : List RegRef} {a b c : Warp} (h : KeepsRegs l a b) (g : KeepsRegs l b c) : KeepsRegs l a c := by
  obtain ⟨hv, hs, hp, hm⟩ := h
  obtain ⟨gv, gs, gp, gm⟩ := g
  exact ⟨fun n k hk hn => (gv n k hk hn).trans (hv n k hk hn), fun n hn => (gs n hn).trans (hs n hn),
    fun n hn => (gp n hn).trans (hp n hn), fun n hn => (gm n hn).trans (hm n hn)⟩

/-- Blocks and the registers of warp `w` are as before, and no more of its threads are parked. -/
structure EndsOp (w : Nat) (s t : State) : Prop where
  blocks : t.blocks = s.blocks
  regs : KeepsRegs [] (s.warp w) (t.warp w)
  parked : ∀ l, ((t.warp w).lane l).st = .parked → ((s.warp w).lane l).st = .parked

namespace EndsOp
variable {w : Nat} {s t u : State}

theorem refl (w : Nat) (s : State) : EndsOp w s s := ⟨rfl, KeepsRegs.refl _ _, fun _ h => h⟩

theorem trans (h : EndsOp w s t) (g : EndsOp w t u) : EndsOp w s u :=
  ⟨g.blocks.trans h.blocks, h.regs.trans g.regs, fun l hl => h.parked l (g.parked l hl)⟩

theorem of_eq (hb : t.blocks = s.blocks) (hw : t.warps = s.warps) : EndsOp w s t := by
  have : t.warp w = s.warp w := by unfold State.warp; rw [hw]
  exact ⟨hb, this ▸ KeepsRegs.refl _ _, fun l hl => this ▸ hl⟩

/-- A warp whose vector, scalar, predicate and mask registers are as they were. -/
theorem setWarp {b : Warp} (hr : b = { b with v := (s.warp w).v, s := (s.warp w).s, p := (s.warp w).p, m := (s.warp w).m })
    (hp : ∀ l, (b.lane l).st = .parked → ((s.warp w).lane l).st = .parked) : EndsOp w s (s.setWarp w b) := by
  refine ⟨rfl, ?_, fun l => ?_⟩
  · rw [State.warp_setWarp_same, hr]
    exact ⟨fun _ _ _ _ => rfl, fun _ _ => rfl, fun _ _ => rfl, fun _ _ => rfl⟩
  · rw [State.warp_setWarp_same]
    exact hp l

theorem setWarp_lanes {mask : Nat} {f : Nat → Lane → Lane}
    (hp : ∀ l x, (f l x).st = .parked → x.st = .parked) :
    EndsOp w s (s.setWarp w ((s.warp w).mapLanes mask f)) := by
  refine setWarp (by rw [mapLanes_eq]) (fun l => ?_)
  rw [lane_mapLanes]
  split
  · exact hp l _
  · exact id

end EndsOp

section
variable (s : State) (w : Nat)

theorem State.hardWrite_endsOp (c a : Nat) (bs : List Byte) : EndsOp w s (s.hardWrite c a bs) := .of_eq rfl rfl

theorem State.report_endsOp (mask pc : Nat) : EndsOp w s (s.report w mask pc) := by
  unfold report
  dsimp only
  split
  · exact .refl w s
  · split
    · exact .refl w s
    · refine EndsOp.trans ?_ (State.hardWrite_endsOp _ w _ _ _)
      exact EndsOp.setWarp_lanes (fun _ _ h => h)

theorem State.exitLanes_endsOp (mask pc : Nat) : EndsOp w s (s.exitLanes w mask pc) := by
  unfold exitLanes
  extract_lets wp w1 gone
  clear_value gone
  refine (s.report_endsOp w gone pc).trans ?_
  exact EndsOp.setWarp_lanes (fun _ _ h => nomatch h)

theorem State.drain_endsOp : EndsOp w s (s.drain w) := by
  unfold drain
  dsimp only
  split
  · exact .refl w s
  · exact s.exitLanes_endsOp w _ _

theorem State.writeSlots_endsOp : EndsOp w s (s.writeSlots w) := by
  unfold writeSlots
  extract_lets wp b
  split
  · exact s.hardWrite_endsOp w _ _ _
  · exact .refl w s

theorem State.settleHalt_endsOp : EndsOp w s (s.settleHalt w) := by
  unfold settleHalt
  extract_lets wp flying b s1 s2
  have h1 : EndsOp w s s1 := EndsOp.setWarp rfl (fun _ h => h)
  have h2 : EndsOp w s1 s2 := by
    simp only [s2]
    split
    · exact .refl w s1
    · exact s1.hardWrite_endsOp w _ _ _
  split
  · exact (h1.trans h2).trans (.of_eq rfl rfl)
  · exact .refl w s

theorem State.echoRegs_frame (regs : List RegRef) : s.echoRegs w regs =
    { s with mem := (s.echoRegs w regs).mem, l1 := (s.echoRegs w regs).l1, rdc := (s.echoRegs w regs).rdc } := by
  unfold echoRegs
  extract_lets wp b area framed saved
  refine foldl_frame (fun (a b : State) => { a with mem := b.mem, l1 := b.l1, rdc := b.rdc }) _ (fun _ => rfl)
    (fun _ _ _ h g => by rw [g, h]) (fun t r => ?_) regs s
  split
  · extract_lets t1
    have h1 : t1 = { t with mem := t1.mem, l1 := t1.l1, rdc := t1.rdc } := by
      simp only [t1]
      split <;> rfl
    clear_value t1
    split
    · rw [h1]; rfl
    · exact h1
  · split <;> rfl
  · rfl

theorem State.echoRegs_endsOp (regs : List RegRef) : EndsOp w s (s.echoRegs w regs) :=
  .of_eq (by rw [echoRegs_frame]) (by rw [echoRegs_frame])

theorem State.op_echoRegs (regs : List RegRef) (k : Nat) : (s.echoRegs w regs).op k = s.op k := by
  rw [echoRegs_frame]
  rfl

end

section
variable {s : State} {w k : Nat} (hw : (s.op k).warp = w) (hp : ∀ l, l < 32 → ((s.warp w).lane l).st ≠ .parked)
include hw hp

theorem State.dropOp_endsOp : EndsOp w s (s.dropOp k) := by
  subst hw
  unfold dropOp
  extract_lets w s1 held w1 s2
  have h2 : EndsOp w s s2 := by
    refine EndsOp.trans (t := s1) (.of_eq rfl rfl) ?_
    simp only [s2]
    split
    · refine EndsOp.trans ?_ (State.writeSlots_endsOp _ w)
      exact EndsOp.setWarp rfl (fun _ h => h)
    · exact .refl w s1
  have h3 : EndsOp w s (s2.drain w) := h2.trans (s2.drain_endsOp w)
  have h4 : (s2.drain w).joinWaits w = s2.drain w := joinWaits_quiet (fun l hl hpark => hp l hl (h3.parked l hpark))
  split
  · exact .of_eq rfl rfl
  · rw [h4]
    exact h3.trans (State.settleHalt_endsOp _ w)

/-- An operation that has no destination leaves the registers as they are. -/
theorem State.finishOp_endsOp (hb : ∀ a : Warp, a.bindOp (s.op k) = a) : EndsOp w s (s.finishOp k) := by
  unfold finishOp
  extract_lets o wp w1 w2
  have how : o.warp = w := hw
  have h1 : EndsOp w s (s.setWarp w w2) := by
    have hw1 : w1 = s.warp w := (hb _).trans (by simp only [wp, how])
    simp only [w2]
    split
    · rw [hw1]
      exact EndsOp.setWarp rfl (fun _ h => h)
    · rw [Warp.setStreams_eq, hw1]
      exact EndsOp.setWarp rfl (fun _ h => h)
  clear_value w2
  rw [how]
  have h2 := h1.trans (State.echoRegs_endsOp (s.setWarp w w2) w (if o.hset then [] else o.i.writes .vector))
  have hop : ∀ r, ((s.setWarp w w2).echoRegs w r).op k = o := fun r => State.op_echoRegs _ w r k
  split
  · exact .of_eq rfl rfl
  · exact h2.trans (State.dropOp_endsOp (by rw [hop, how]) (fun l hl hpark => hp l hl (h2.parked l hpark)))

end

/-! ## FESET -/

section
variable {s : State} {b off : Nat} (hq : Claims.NoWaiters s) (hst : (s.block b).standing = true)
  (him : (s.block b).imaged = false)
include hq hst him

/-- Tags of consecutive words set one after another, where nothing waits for a tag. -/
theorem foldl_changeTag (v : Bool) (n : Nat) :
    let t := (List.range n).foldl (fun (a : State) i => a.changeTag b (off + 8 * i) v) s
    ScratchOnly b s t ∧ (t.block b).scratch = (s.block b).scratch ∧
      ∀ o, t.tagAt b o = if off / 8 ≤ o / 8 ∧ o / 8 < off / 8 + n then v else s.tagAt b o := by
  induction n with
  | zero => exact ⟨.refl b s, rfl, fun o => by rw [if_neg (by omega)]; rfl⟩
  | succ n ih =>
    intro t
    obtain ⟨hframe, hscratch, htags⟩ := ih
    have ht : t = State.changeTag ((List.range n).foldl (fun (a : State) i => a.changeTag b (off + 8 * i) v) s) b
        (off + 8 * n) v := by simp [t, List.range_succ]
    generalize (List.range n).foldl (fun (a : State) i => a.changeTag b (off + 8 * i) v) s = r at *
    have hst' := hframe.standing.trans hst
    have him' := hframe.imaged.trans him
    have hset := State.setTag_scratchOnly (off + 8 * n) hst' him' v
    rw [ht, State.changeTag, State.serveTag_quiet (hset.quiet (hframe.quiet hq))]
    refine ⟨hframe.trans hset, (State.scratch_setTag _ hst' him' v).trans hscratch, fun o => ?_⟩
    rw [State.tagAt_setTag _ hst' him', htags]
    have hdiv : (off + 8 * n) / 8 = off / 8 + n := by omega
    rw [hdiv]
    split
    · next h => rw [if_pos (by omega)]
    · next h =>
      split
      · rw [if_pos (by omega)]
      · rw [if_neg (by omega)]

end

/-- The one element of an FESET. -/
def fesetElem (sa n b off : Nat) : Elem := { addr := sa, place := .scratch b off, size := 8 * n }

section
variable {s : State} {w b off sa n k : Nat} {x : R3} {o : Op} (hi : o.instr = some (.feset x)) (hw : o.warp = w)
  (hst : o.st = .flying) (ho : o.orphan = false) (he : o.elems = [fesetElem sa n b off])
include hi

theorem fesetOp_i : o.i = .feset x := by
  unfold Op.i
  rw [hi]
  rfl

theorem elemRelease_feset : s.elemRelease o = s.opRelease o := by
  unfold State.elemRelease
  rw [fesetOp_i hi]

theorem elemReady_feset (hf : (s.block b).frozen = false) (h : s.earlier o.warp o.seq = []) :
    s.elemReady o [] (fesetElem sa n b off) = true := by
  unfold State.elemReady State.edgesMet State.sameMet State.placeFree
  rw [fesetOp_i hi, h]
  simp [fesetElem, hf]

theorem doElem_feset : s.doElem o (fesetElem sa n b off) 0 =
    (0, (List.range n).foldl (fun (a : State) i => a.changeTag b (off + 8 * i) (bit x.c 0)) s) := by
  unfold State.doElem
  rw [fesetOp_i hi]
  show (0, (List.range (8 * n / 8)).foldl _ s) = _
  rw [Nat.mul_div_cancel_left n (by decide)]

theorem bindOp_feset (a : Warp) : a.bindOp o = a := by
  unfold Warp.bindOp
  rw [fesetOp_i hi]

/-- The state with the tags that an FESET sets. -/
def State.fesetTags (s : State) (b off n : Nat) (v : Bool) : State :=
  (List.range n).foldl (fun (a : State) i => a.changeTag b (off + 8 * i) v) s

include hst he

theorem performElem_feset (hk : s.op k = o) (hready : (s.opRelease o).elemReady o [] (fesetElem sa n b off) = true)
    (hop : ((s.opRelease o).fesetTags b off n (bit x.c 0)).op k = o) : s.performElem k 0 0 =
      (((s.opRelease o).fesetTags b off n (bit x.c 0)).forget o.warp (.scratch b off) (8 * n)).setOp k (o.markDone 0 0) := by
  have hnone : o.i.isLoad = false := by rw [fesetOp_i hi]; rfl
  have h0 : o.elems[0]? = some (fesetElem sa n b off) := by rw [he]; rfl
  refine Eq.trans ?_ (congrArg (fun q : Op => (((s.opRelease o).fesetTags b off n (bit x.c 0)).forget o.warp (.scratch b off)
    (8 * n)).setOp k (q.markDone 0 0)) hop)
  subst hk
  unfold State.performElem
  simp only [h0, hst, elemRelease_feset hi, List.take_zero, hready, doElem_feset hi, hnone]
  rfl

include ho

theorem performOp_feset_eq (hk : s.op k = o) : s.performOp k (ones 32) [] false =
    ((s.performElem k 0 0).finishIfDone k).joinWaits o.warp := by
  have hwhole : o.i.wholeOp = false := by rw [fesetOp_i hi]; rfl
  have hunit : o.i.asksUnit = false := by rw [fesetOp_i hi]; rfl
  have hhere : s.performsAt (fesetElem sa n b off) false = true := rfl
  have hbit : bit (ones 32) (fesetElem sa n b off).lane = true := by
    show bit (ones 32) 0 = true
    decide
  unfold State.performOp
  simp only [hk, hst, hwhole, hunit, he, ho]
  rw [if_neg (by decide)]
  simp [List.range_succ, hhere, hbit]

end

theorem State.opRelease_frame (s : State) (o : Op) : s.opRelease o = { s with
    mem := (s.opRelease o).mem, l1 := (s.opRelease o).l1, l2 := (s.opRelease o).l2, rdc := (s.opRelease o).rdc
    shadow := (s.opRelease o).shadow, past := (s.opRelease o).past, slices := (s.opRelease o).slices
    free := (s.opRelease o).free } := by
  unfold opRelease releaseFor
  exact releaseWhere_frame _ _ _

section
variable {s : State} {w b off sa n k : Nat} {x : R3} {o : Op} (hi : o.instr = some (.feset x)) (hw : o.warp = w)
  (hst : o.st = .flying) (ho : o.orphan = false) (he : o.elems = [fesetElem sa n b off]) (hk : s.op k = o)
  (hq : Claims.NoWaiters s) (hb : (s.block b).standing = true) (him : (s.block b).imaged = false)
  (hf : (s.block b).frozen = false) (hidle : s.earlier w o.seq = [])
include hi hw hst ho he hk hq hb him hf hidle

/-- An FESET that nothing holds up sets its tags, and nothing else of blocks or registers changes. -/
theorem performOp_feset : let t := s.performOp k (ones 32) [] false
    KeepsRegs [] (s.warp w) (t.warp w) ∧ (∀ c, c ≠ b → t.block c = s.block c) ∧
      (t.block b).scratch = (s.block b).scratch ∧
      ∀ a, t.tagAt b a = if off / 8 ≤ a / 8 ∧ a / 8 < off / 8 + n then bit x.c 0 else s.tagAt b a := by
  intro t
  have hframe := s.opRelease_frame o
  have ht : t = ((s.performElem k 0 0).finishIfDone k).joinWaits o.warp := performOp_feset_eq hi hst ho he hk
  have helem := performElem_feset hi hst he hk
  generalize s.opRelease o = r at *
  have hblock : ∀ c, r.block c = s.block c := fun c => by rw [hframe]; rfl
  have hquiet : Claims.NoWaiters r := hq.of_eq (by rw [hframe]) (by rw [hframe])
  have hb' : (r.block b).standing = true := by rw [hblock, hb]
  have him' : (r.block b).imaged = false := by rw [hblock, him]
  obtain ⟨hso, hscratch, htags⟩ := foldl_changeTag (off := off) hquiet hb' him' (bit x.c 0) n
  have hready : r.elemReady o [] (fesetElem sa n b off) = true :=
    elemReady_feset hi (by rw [hblock, hf]) (by rw [hw, hframe]; exact hidle)
  have hops : (r.fesetTags b off n (bit x.c 0)).op k = o := by
    unfold State.fesetTags
    rw [hso.frame, hframe, ← hk]
    rfl
  replace helem := helem hready hops
  unfold State.fesetTags at helem
  generalize (List.range n).foldl (fun (a : State) i => a.changeTag b (off + 8 * i) (bit x.c 0)) r = q at *
  rw [hw] at helem
  have hqwarp : q.warp w = s.warp w := by rw [hso.frame, hframe]; rfl
  generalize hp : s.performElem k 0 0 = p at *
  have hop : p.op k = o.markDone 0 0 := by rw [helem, State.op_setOp_same]
  have hpwarp : p.warp w = s.warp w := by rw [helem]; exact hqwarp
  have hpblocks : p.blocks = q.blocks := by rw [helem]; rfl
  have hpark : ∀ l, l < 32 → ((p.warp w).lane l).st ≠ .parked := fun l hl => by rw [hpwarp]; exact hq.warp w hl
  have hfinish : p.finishIfDone k = p.finishOp k := by
    have hwhole : o.i.wholeOp = false := by rw [fesetOp_i hi]; rfl
    have hi' : (o.markDone 0 0).i = o.i := rfl
    have hst' : (o.markDone 0 0).st = .flying := hst
    have hall : (o.markDone 0 0).elems.all (·.done) = true := by simp [Op.markDone, he]
    unfold State.finishIfDone
    simp only [hop, hi', hwhole, hst', hall]
    rfl
  have hends : EndsOp w p (p.finishOp k) :=
    State.finishOp_endsOp (by rw [hop]; exact hw) hpark (fun a => by rw [hop]; exact bindOp_feset (o := o.markDone 0 0) hi a)
  rw [hfinish, hw, State.joinWaits_quiet (fun l hl hl' => hpark l hl (hends.parked l hl'))] at ht
  have hblocks : ∀ c, t.block c = q.block c := fun c => by
    unfold State.block
    rw [ht, hends.blocks, hpblocks]
  refine ⟨?_, fun c hc => ?_, ?_, fun a => ?_⟩
  · rw [ht, ← hpwarp]
    exact hends.regs
  · rw [hblocks, hso.others c hc, hblock]
  · rw [hblocks, hscratch, hblock]
  · have hq' := hso.imaged.trans him'
    rw [State.tagAt_present a (by rw [hblocks]; exact hq'), hblocks, ← State.tagAt_present a hq', htags,
      State.tagAt_present a him', hblock, ← State.tagAt_present a him]

end

section
variable {s : State} {w b off : Nat} {x : R3}

theorem exec_feset (x : R3) (s : State) : exec (.feset x) s = onWarp (.feset x) (uniformReal x.g (fesetWarp x)) s := rfl

theorem exec_feq (x : R3) (s : State) : exec (.feq x) s = onWarp (.feq x) (uniformReal x.g (feqWarp x)) s := rfl

/-- The operation of an FESET. -/
def State.fesetOp (s : State) (w : Nat) (x : R3) (sa n b off : Nat) : Op :=
  s.newOp w (.feset x) {} (ones 32) 0 0 [fesetElem sa n b off] []

theorem fesetWarp_ok (hn : 0 < ((s.warp w).rdS x.b).toNat) (hmax : ((s.warp w).rdS x.b).toNat ≤ 131072)
    (h8 : ((s.warp w).rdS x.a).toNat % 8 = 0)
    (hp : s.resolveSa (s.warp w).block ((s.warp w).rdS x.a).toNat (8 * ((s.warp w).rdS x.b).toNat) = .ok (.scratch b off)) :
    fesetWarp x w s = .ok (s.runOrBlock
      (s.fesetOp w x ((s.warp w).rdS x.a).toNat ((s.warp w).rdS x.b).toNat b off) w) := by
  have hplace : s.placeSa w ((s.warp w).rdS x.a).toNat (8 * ((s.warp w).rdS x.b).toNat) 8 = .ok (.scratch b off) := by
    simp [State.placeSa, h8, hp]
  unfold fesetWarp
  extract_lets wp sa n
  have hn' : ¬ n = 0 := Nat.ne_of_gt hn
  have hmax' : n ≤ 131072 := hmax
  rw [if_neg (by simp only [Bool.and_eq_true, decide_eq_true_eq]; omega)]
  simp only [sa, n, wp, hplace] at hn' ⊢
  rw [if_neg hn']
  rfl

/-- The state that an operation enters flight in. -/
theorem State.launchOp_fst (o : Op) : (s.launchOp o).1 =
    (({ s with nextOp := s.nextOp + 1, nextSeq := s.nextSeq + 1 }.setWarp o.warp (if o.i.uncounted then s.warp o.warp
      else (s.warp o.warp).setStreams o.hset (((s.warp o.warp).streams o.hset).issue o.lanes o.strm))).setOp
        s.nextOp o).opRelease o := rfl

theorem runOrBlock_feset {sa n : Nat} (hq : Claims.NoWaiters s) (hst : (s.block b).standing = true)
    (him : (s.block b).imaged = false) (hf : (s.block b).frozen = false)
    (hidle : ∀ c ∈ s.ops.cells, c.2.st = .none ∨ c.2.warp ≠ w) :
    let t := s.runOrBlock (s.fesetOp w x sa n b off) w
    KeepsRegs [] (s.warp w) (t.warp w) ∧ (∀ c, c ≠ b → t.block c = s.block c) ∧
      (t.block b).scratch = (s.block b).scratch ∧
      ∀ a, t.tagAt b a = if off / 8 ≤ a / 8 ∧ a / 8 < off / 8 + n then bit x.c 0 else s.tagAt b a := by
  intro t
  have hops := launchOp_ops (s := s) (s.fesetOp w x sa n b off)
  have hearlier := earlier_nil (s := s) (w := w) (k := s.nextOp) hops hidle
  have hlaunch := State.launchOp_fst (s := s) (s.fesetOp w x sa n b off)
  rw [State.opRelease_frame] at hlaunch
  have ht : t = if (((s.launchOp (s.fesetOp w x sa n b off)).1.performOp s.nextOp (ones 32) [] false).op
      s.nextOp).st == .none then (s.launchOp (s.fesetOp w x sa n b off)).1.performOp s.nextOp (ones 32) [] false
      else ((s.launchOp (s.fesetOp w x sa n b off)).1.performOp s.nextOp (ones 32) [] false).setWarp w
        ((((s.launchOp (s.fesetOp w x sa n b off)).1.performOp s.nextOp (ones 32) [] false).warp w).blockOn [s.nextOp]) := rfl
  generalize hl : (s.launchOp (s.fesetOp w x sa n b off)).1 = l at *
  have hblock : ∀ c, l.block c = s.block c := fun c => by rw [hlaunch]; rfl
  have hwarp : l.warp w = s.warp w := by rw [hlaunch]; exact Table.get_set_same _ _ _ _
  have hquiet : Claims.NoWaiters l :=
    (hq.setWarp (w := w) (fun k hk => hq.warp w hk)).of_eq (by rw [hlaunch]; rfl) (by rw [hlaunch]; rfl)
  have htag : ∀ a, l.tagAt b a = s.tagAt b a := fun a => by
    rw [State.tagAt_present a (by rw [hblock, him]), hblock, State.tagAt_present a him]
  have hperf := performOp_feset (s := l) (k := s.nextOp) (o := s.fesetOp w x sa n b off) rfl rfl rfl rfl rfl
    (by unfold State.op; rw [hops, Table.get_set_same]) hquiet (by rw [hblock, hst]) (by rw [hblock, him])
    (by rw [hblock, hf]) hearlier
  generalize l.performOp s.nextOp (ones 32) [] false = p at *
  obtain ⟨hregs, hother, hscratch, htags⟩ := hperf
  have hp : EndsOp w p t := by
    rw [ht]
    split
    · exact .refl w p
    · exact EndsOp.setWarp rfl (fun _ h => h)
  have hb : ∀ c, t.block c = p.block c := fun c => by unfold State.block; rw [hp.blocks]
  refine ⟨?_, fun c hc => ?_, ?_, fun a => ?_⟩
  · rw [← hwarp]
    exact hregs.trans hp.regs
  · rw [hb, hother c hc, hblock]
  · rw [hb, hscratch, hblock]
  · have hpt : t.tagAt b a = p.tagAt b a := by
      rw [ht]
      split <;> rfl
    rw [hpt, htags, htag]

/-- The tags that FEQ gathers. -/
def State.feqTags (s : State) (b off : Nat) (i : Nat) : Bool :=
  off + 8 * i < (s.block b).alloc && s.tagAt b (off + 8 * i)

theorem feqWarp_ok (h8 : ((s.warp w).rdS x.a).toNat % 8 = 0)
    (hp : s.resolveSa (s.warp w).block ((s.warp w).rdS x.a).toNat 1 = .ok (.scratch b off)) :
    feqWarp x w s = .ok (s.setWarp w ((s.warp w).wrS x.d (BitVec.ofNat 64 (maskWhere 64 (s.feqTags b off))))) := by
  have hplace : s.placeSa w ((s.warp w).rdS x.a).toNat 1 8 = .ok (.scratch b off) := by
    simp [State.placeSa, h8, hp]
  unfold feqWarp
  dsimp only
  rw [hplace]
  rfl

end

end Machine
end Sys2Proof

open Sys2Proof Sys2Proof.Machine

/-- Settles O37: a tag instruction performs as it issues where its tag allows it (`tag_performs`), parks its thread where
not (`tag_parks`); FESET changes the tags of its range one after another (`foldl_changeTag`). -/
theorem tagInstructions : Obligations.TagInstructions := by
  refine ⟨?_, fun w s x l i hi h hl ha h8 => tag_misaligned hi h hl ha h8, ?_, ?_⟩
  · intro w s x l b off i hi halone hl hs a sa word store ha hstall h8 hp
    obtain ⟨-, -, -, hst, him, -⟩ := id halone
    have hcases := tagOk_iff hi (s.tagAt b off)
    refine ⟨fun hok => ?_, fun hno => ?_⟩
    · obtain ⟨t, hexec, hkeeps, hothers, htags, hwarps, hscratch, hwarp⟩ :=
        tag_performs hi halone hl ha hstall h8 hp (hcases.mpr hok)
      have hleft : t.tagAt b off = tagLeft (s.tagAt b off) i := by rw [htags, if_pos rfl]
      refine ⟨t, hexec, hkeeps, hothers, fun o ho => by rw [htags, if_neg ho], ?_, hwarps, ?_, fun hstore => ?_, fun hload => ?_⟩
      · rw [hwarp]
        exact Warp.countedBoth_tagged _ _ _ _ _ hs
      · rw [hwarp]
        exact Warp.tagged_eq _ _ _ _ _
      · rw [hwarp, hleft, hscratch]
        obtain rfl | rfl := hstore <;>
          exact ⟨rfl, Warp.keepsRegs_tagged _ _ _ _ _ hl rfl, fun n => read_wordStored _ _ _ _⟩
      · have hv := State.tagDo_value (off := off) hi hst him (a.rdV x.d l).toNat
        rw [if_neg hload] at hv
        rw [hleft, hscratch]
        have hbound : ∀ n j, j < 32 → tagDest i = some x.d → (t.warp w).rdV n j =
            if n = x.d ∧ j = l then BitVec.ofNat 64 (ofBytes word) else a.rdV n j := fun n j hj hd => by
          rw [hwarp, Warp.rdV_tagged _ _ _ _ _ hl hj, hv, hd]
          simp only [Option.some.injEq, eq_comm (a := x.d)]
          rfl
        simp only [List.mem_cons, List.not_mem_nil, or_false] at hi
        obtain rfl | rfl | rfl | rfl := hi
        · have hfull : s.tagAt b off = true := (hok.resolve_left nofun).mpr hload
          exact ⟨by simp [tagLeft, hfull], rfl, fun n j hj => hbound n j hj rfl⟩
        · exact ⟨by simp [tagLeft], rfl, fun n j hj => hbound n j hj rfl⟩
        · exact absurd (.inl rfl) hload
        · exact absurd (.inr rfl) hload
    · obtain ⟨t, y, hexec, hkind, hplace, hblocks, hwarps, hwarp⟩ := tag_parks hi halone hl ha hstall h8 hp
        (Bool.eq_false_iff.mpr (fun h => hno (hcases.mp h)))
      have hm := Warp.bit_withHelpers (s.atIssue i w) hl (bit_two_pow_self l)
      have hhelper : (s.atIssue i w).isHelper l = false :=
        Warp.activeReal_helper (g := x.g) (by rw [ha]; exact bit_two_pow_self l)
      refine ⟨t, hexec, hblocks, hwarps, ?_⟩
      rw [hwarp, Warp.lane_park _ _ hl hm hhelper]
      refine ⟨Warp.keepsRegs_park _ _ _, ?_, ?_, rfl, rfl, hkind, hplace, Warp.bit_group_park _ _ hm⟩
      all_goals rw [Warp.park_eq]
  · intro w s x b off halone a sa n hact hn hmax h8 hp
    obtain ⟨hissue, hq, hidle, hst, him, hf⟩ := halone
    have hexec := (exec_feset x s).trans (onWarp_ok hissue
      ((uniformReal_active (s := s.issued (.feset x) w) _ hact).trans (fesetWarp_ok hn hmax h8 hp)))
    obtain ⟨hregs, hothers, hscratch, htags⟩ := runOrBlock_feset (s := s.issued (.feset x) w) (w := w) (b := b) (off := off)
      (x := x) (sa := sa) (n := n) (hq.issued _ w) hst him hf hidle
    exact ⟨_, hexec, hregs, hothers, hscratch, htags⟩
  · intro w s x b off h a sa hact h8 hp
    refine ⟨_, (exec_feq x s).trans (onWarp_ok h
      ((uniformReal_active (s := s.issued (.feq x) w) _ hact).trans (feqWarp_ok h8 hp))), onlyWarp_issued s _ w _, ?_⟩
    rw [State.warp_setWarp_same]
    refine ⟨wrS_eq _ _ _, ⟨fun n k _ _ => ?_, fun n hn => ?_, fun n _ => ?_, fun n _ => ?_⟩, fun hd i hi => ?_⟩
    · rw [wrS_eq]; rfl
    · rw [rdS_wrS, if_neg (fun h => hn (by simp [h.1]))]
      rfl
    · rw [wrS_eq]; rfl
    · rw [wrS_eq]; rfl
    · rw [rdS_wrS, if_pos ⟨rfl, hd⟩, getLsbD_maskWhere _ hi]
      rfl
end

section
/-!
PROOFS. An access that issues (R130, R144): what its checks leave alone, and the state that it enters flight in.
-/
namespace Sys2Proof
namespace Machine

/-! ## The checks -/

/-- All but TLBs and the free values drawn is as before. -/
def Translates (s t : State) : Prop := t = { s with tlbs := t.tlbs, free := t.free }

theorem Translates.refl (s : State) : Translates s s := rfl

theorem Translates.trans {s t u : State} (h : Translates s t) (g : Translates t u) : Translates s u := by
  unfold Translates at *
  rw [g, h]

section
variable (s : State)

theorem State.translate_translates (die asid va : Nat) : Translates s (s.translate die asid va).2 := by
  unfold translate Translates
  dsimp only
  repeat' split
  all_goals rfl

theorem Translates.of_snd {α : Type} {s t : State} {p : α × State} {x : α} (he : p = (x, t)) (h : Translates s p.2) :
    Translates s t := by
  rw [he] at h
  exact h

theorem State.checkElem_translates (c : Ctx) (need : Need) (va n align : Nat) :
    Translates s (s.checkElem c need va n align).2 := by
  fun_cases State.checkElem s c need va n align
  · exact .refl s
  · exact .refl s
  · exact .refl s
  · exact .of_snd ‹_› (s.translate_translates _ _ _)
  · exact .of_snd ‹_› (s.translate_translates _ _ _)
  · exact .of_snd ‹_› (s.translate_translates _ _ _)

theorem State.checkAll_translates (c : Ctx) (need : Need) (align : Nat) (helper : Nat → Bool) (l : List Elem) :
    Translates s (s.checkAll c need align helper l).2 := by
  fun_induction State.checkAll s c need align helper l with
  | case1 => exact .refl _
  | case2 _ _ _ _ _ e _ _ _ e' ih =>
    exact (Translates.of_snd e (State.checkElem_translates _ _ _ _ _ _)).trans (.of_snd e' ih)
  | case3 _ _ _ _ _ e _ _ ih => exact (Translates.of_snd e (State.checkElem_translates _ _ _ _ _ _)).trans ih
  | case4 _ _ _ _ _ e => exact .of_snd e (State.checkElem_translates _ _ _ _ _ _)
  | case5 _ _ _ _ _ e _ _ e' ih =>
    exact (Translates.of_snd e (State.checkElem_translates _ _ _ _ _ _)).trans (.of_snd e' ih)
  | case6 _ _ _ _ _ e _ ih => exact (Translates.of_snd e (State.checkElem_translates _ _ _ _ _ _)).trans ih

/-- An element without its place. -/
def Elem.unplaced (e : Elem) : Elem := { e with place := .none }

/-- The checks find the elements' places, and change nothing else of them. -/
theorem State.checkAll_unplaced (c : Ctx) (need : Need) (align : Nat) (helper : Nat → Bool) (l : List Elem) {q : List Elem}
    {t : State} (h : s.checkAll c need align helper l = (.ok q, t)) : q.map Elem.unplaced = l.map Elem.unplaced := by
  induction l generalizing s q t with
  | nil =>
    simp only [checkAll, Prod.mk.injEq, Except.ok.injEq] at h
    rw [← h.1]
  | cons e r ih =>
    rw [checkAll] at h
    split at h
    · split at h
      · split at h
        · next hr =>
          simp only [Prod.mk.injEq, Except.ok.injEq] at h
          rw [← h.1, List.map_cons, List.map_cons, ih _ hr]
          rfl
        · exact absurd h (by simp_all)
      · simp at h
    · split at h
      · next hr =>
        simp only [Prod.mk.injEq, Except.ok.injEq] at h
        rw [← h.1, List.map_cons, List.map_cons, ih _ hr]
        rfl
      · exact absurd h (by simp_all)

end

/-! ## The threads whose part is performed -/

theorem and_two_pow_ne_zero (m l : Nat) : (m &&& 2 ^ l != 0) = bit m l := by
  rw [bit_eq_testBit, Bool.eq_iff_iff, bne_iff_ne, Ne, Nat.and_two_pow, ← Nat.mul_zero (2 ^ l)]
  cases m.testBit l <;> simp

theorem bit_complement (c : Nat) {l : Nat} (h : l < 32) : bit (ones 32 - c % 2 ^ 32) l = !bit c l := by
  have hc : c % 2 ^ 32 < 2 ^ 32 := Nat.mod_lt _ (by decide)
  rw [bit_eq_testBit, bit_eq_testBit, ones, show 2 ^ 32 - 1 - c % 2 ^ 32 = 2 ^ 32 - (c % 2 ^ 32 + 1) by omega,
    Nat.testBit_two_pow_sub_succ hc, Nat.testBit_mod_two_pow]
  simp [h]

theorem Op.pending_lane {o : Op} (h : o.i.wholeOp = false) {l : Nat} (hl : l < 32) :
    o.pending (2 ^ l) = (bit o.lanes l && !bit o.counted l && !o.elems.all (fun e =>
      e.done || !(bit (o.elemLanes e) l || (o.i.isAtomic && bit o.enabled l)))) := by
  have hm : (o.lanes &&& 2 ^ l &&& (ones 32 - o.counted % 2 ^ 32) != 0) = (bit o.lanes l && !bit o.counted l) := by
    rw [Nat.and_right_comm, and_two_pow_ne_zero, bit_eq_testBit, Nat.testBit_and, ← bit_eq_testBit, ← bit_eq_testBit,
      bit_complement _ hl]
  rw [Op.pending, hm]
  simp only [and_two_pow_ne_zero, h, Bool.false_or]
  congr 1
  rw [List.not_all_eq_any_not]
  cases o.i.isAtomic && bit o.enabled l
  · simp
  · simpa using fun x hx hd _ => ⟨x, hx, hd⟩

theorem Op.finished_eq {o : Op} (h : o.i.wholeOp = false) : o.finished = maskWhere 32 (Claims.partDone o) := by
  refine Nat.eq_of_testBit_eq fun l => ?_
  rw [← bit_eq_testBit, ← bit_eq_testBit, Op.finished, bit_maskWhere, bit_maskWhere]
  by_cases hl : l < 32
  · rw [pending_lane h hl, Claims.partDone]
    cases bit o.lanes l <;> cases bit o.counted l <;> simp
  · simp [hl]

theorem maskWhere_eq_zero {n : Nat} {f : Nat → Bool} (h : ∀ i, i < n → f i = false) : maskWhere n f = 0 := by
  refine Nat.eq_of_testBit_eq fun i => ?_
  rw [← bit_eq_testBit, bit_maskWhere]
  by_cases hi : i < n
  · simp [h i hi]
  · simp [hi]

/-! ## An operation that is not complete -/

theorem State.finishIfDone_counts {s : State} {k : Nat} (h : ∃ e ∈ (s.op k).elems, e.done = false) :
    s.finishIfDone k = if (s.op k).st == .flying && !(s.op k).i.wholeOp then s.countParts k else s := by
  obtain ⟨e, he, hd⟩ := h
  have : (s.op k).elems.all (·.done) = false := by
    rw [List.all_eq_false]
    exact ⟨e, he, by simp [hd]⟩
  simp [finishIfDone, this]

/-- Where no thread's part is newly performed, nothing is counted. -/
theorem State.finishIfDone_none {s : State} {k : Nat} (h : ∃ e ∈ (s.op k).elems, e.done = false)
    (hp : ∀ l, l < 32 → Claims.partDone (s.op k) l = false) : s.finishIfDone k = s := by
  rw [finishIfDone_counts h]
  split
  · next hc =>
    have hw : (s.op k).i.wholeOp = false := by
      simpa using (Bool.and_eq_true_iff.mp hc).2
    simp [countParts, Op.finished_eq hw, maskWhere_eq_zero hp]
  · rfl

/-! ## Entering flight -/

theorem maskWhere_bit {m : Nat} (h : m < 2 ^ 32) : maskWhere 32 (bit m) = m := by
  refine Nat.eq_of_testBit_eq fun i => ?_
  rw [← bit_eq_testBit, bit_maskWhere, bit_eq_testBit]
  by_cases hi : i < 32
  · simp [hi]
  · simp [hi, Nat.testBit_lt_two_pow (Nat.lt_of_lt_of_le h (Nat.pow_le_pow_right (by decide) (Nat.not_lt.mp hi)))]

theorem Warp.withHelpers_zero (a : Warp) : a.withHelpers 0 = 0 := maskWhere_eq_zero (fun l _ => by simp)

section
variable {s s1 : State} {w align real enabled : Nat} {i : Instr} {x : Mem} {need : Need} {elems l : List Elem}
  {args : List Nat} {f : Trap}

theorem wholeAccess_error
    (h : s.checkAll (s.ctx w) need align (s.warp w).isHelper elems = (.error f, s1)) :
    wholeAccess i x need align elems enabled args w s = .trap f s1 := by
  unfold wholeAccess
  simp only [h]

theorem wholeAccess_ok (h : s.checkAll (s.ctx w) need align (s.warp w).isHelper elems = (.ok l, s1)) :
    wholeAccess i x need align elems enabled args w s =
      .ok (s1.issueOp w i x ((s.warp w).activeReal x.g) enabled l args) := by
  unfold wholeAccess
  simp only [h]

/-- An operation whose threads all have room enters flight. -/
theorem State.issueOp_enters (hstop : (s.warp w).mustStall i.uniformOp x.strm real = 0) (hr : real < 2 ^ 32)
    (h0 : real ≠ 0) (he : enabled < 2 ^ 32) (ha : i.isAtomic = false) : s.issueOp w i x real enabled elems args =
      (s.launchOp (s.newOp w i x real enabled (maskWhere 32 (bit (s.warp w).group)) elems args)).1.finishIfDone
        s.nextOp := by
  generalize hf : State.issueOp = f
  delta State.issueOp at hf
  subst hf
  beta_reduce
  extract_lets +onlyGivenNames wp stop s2 out lanes keep o
  have hs : stop = 0 := hstop
  have hs2 : s2 = s := if_pos hs
  have hout : out = 0 := by
    simp only [out, hs]
    exact Warp.withHelpers_zero _
  have hlanes : lanes = real := by
    simp only [lanes, hout, bit_zero, Bool.not_false, Bool.and_true]
    exact maskWhere_bit hr
  have hkeep : keep = elems := by
    simp [keep, hout]
  have ho : o = s.newOp w i x real enabled (maskWhere 32 (bit (s.warp w).group)) elems args := by
    simp only [o, hs2, hlanes, hkeep, hout, bit_zero, Bool.not_false, Bool.and_true]
    rw [show (fun l => bit enabled l) = bit enabled from rfl, maskWhere_bit he]
  have hatom : s.atomIssue o = s := by
    have : o.i = i := by rw [ho]; rfl
    unfold State.atomIssue
    rw [this, ha]
    rfl
  clear_value stop s2 out lanes keep o
  subst hlanes hs2
  rw [if_neg h0, hatom, ho]
  rfl

end

end Machine
end Sys2Proof
end

section
/-!
PROOFS. A warp-uniform access in flight: it has entered as `Claims.OpEnters` says.
-/
namespace Sys2Proof
namespace Machine

/-! ## What is written back as an operation enters flight -/

section
variable {s : State} {o : Op}

theorem State.opRelease_releases (s : State) (o : Op) : Releases (s.opCore o) s (s.opRelease o) := by
  unfold opRelease releaseFor
  exact releaseWhere_releases _ _ _

theorem State.opRelease_onlyQueues (s : State) (o : Op) : Claims.OnlyQueues s (s.opRelease o) := by
  unfold opRelease releaseFor
  exact releaseWhere_onlyQueues _ _ _

theorem Op.wideLanes_narrow (hn : Scope.narrow o.scope = true) (he : ∀ e ∈ o.elems, e.place.outer = false) :
    o.wideLanes = 0 := by
  have hw : Scope.wide o.scope = false := by simp [Scope.wide, hn]
  unfold Op.wideLanes
  rw [if_neg (by simp [hw])]
  refine List.foldlRecOn (motive := fun m => m = 0) _ _ rfl (fun m hm e hmem => ?_)
  rw [he e hmem]
  exact hm

theorem State.opRelease_narrow (hn : Scope.narrow o.scope = true) (he : ∀ e ∈ o.elems, e.place.outer = false) :
    s.opRelease o = s := by
  unfold opRelease releaseFor
  rw [Op.wideLanes_narrow hn he]
  exact releaseWhere_false (fun _ x => by simp)

theorem State.opCore_eq (h : o.core = (s.block o.block).core) : s.opCore o = o.core := by
  unfold opCore
  split
  · exact h.symm
  · rfl

end

/-! ## The parts of a warp-uniform operation -/

section
variable {o : Op} (hu : o.i.uniformOp = true) (he : ∃ e ∈ o.elems, e.done = false)
include hu he

theorem Op.partDone_uniform (l : Nat) : Claims.partDone o l = false := by
  obtain ⟨e, hmem, hd⟩ := he
  unfold Claims.partDone
  cases hl : bit o.lanes l
  · rfl
  · have : o.elems.all (fun e => e.done || !(bit (o.elemLanes e) l || (o.i.isAtomic && bit o.enabled l))) = false := by
      refine List.all_eq_false.mpr ⟨e, hmem, ?_⟩
      simp [hd, Op.elemLanes, hu, hl]
    rw [this, Bool.and_false]

theorem Op.bare_uniform : Claims.bare o = 0 := by
  obtain ⟨e, hmem, -⟩ := he
  refine maskWhere_eq_zero (fun l _ => ?_)
  cases hl : bit o.lanes l
  · rfl
  · have : o.elems.all (fun e => !bit (o.elemLanes e) l) = false := by
      refine List.all_eq_false.mpr ⟨e, hmem, ?_⟩
      simp [Op.elemLanes, hu, hl]
    rw [this, Bool.and_false]

end

/-! ## In flight -/

section
variable {s s1 : State} {w : Nat} {i : Instr} {o : Op}

/-- A counted operation that a warp launches after its checks, before its pinned lines are written back. -/
def State.preLaunch (s : State) (o : Op) : State :=
  ({ s with nextOp := s.nextOp + 1, nextSeq := s.nextSeq + 1 }.setWarp o.warp
    ((s.warp o.warp).setStreams o.hset (((s.warp o.warp).streams o.hset).issue o.lanes o.strm))).setOp s.nextOp o

theorem State.launchOp_counted (s : State) (h : o.i.uncounted = false) :
    (s.launchOp o).1 = (s.preLaunch o).opRelease o := by
  rw [launchOp_fst, h]
  rfl

section
variable (hs : s1 = { s.issued i w with tlbs := s1.tlbs, free := s1.free }) (how : o.warp = w)
  (hun : o.i.uncounted = false)
include hs how hun

/-- What an operation that enters flight changes: its warp's streams, its own place, and what its release touches. -/
theorem State.launchOp_fields :
    let t := (s1.launchOp o).1
    t.op s.nextOp = o ∧ t.nextOp = s.nextOp + 1 ∧ (∀ k, k ≠ s.nextOp → t.op k = s.op k) ∧
    (∀ u, u ≠ w → t.warp u = s.warp u) ∧
    t.warp w = (s.atIssue i w).setStreams o.hset (((s.atIssue i w).streams o.hset).issue o.lanes o.strm) ∧
    t = { Claims.homed s t with
      warps := t.warps, ops := t.ops, nextOp := t.nextOp, nextSeq := t.nextSeq, tlbs := t.tlbs } := by
  intro t
  have ht : t = (s1.preLaunch o).opRelease o := s1.launchOp_counted hun
  rw [State.opRelease_frame] at ht
  have hw : s1.warp w = s.atIssue i w := by rw [hs]; rfl
  have hwarps : t.warps = (s1.warps.set {} w ((s.atIssue i w).setStreams o.hset
      (((s.atIssue i w).streams o.hset).issue o.lanes o.strm))) := by
    rw [ht, ← hw, ← how]
    rfl
  have hops : t.ops = s.ops.set {} s.nextOp o := by
    rw [ht, hs]
    rfl
  refine ⟨?_, by rw [ht, hs]; rfl, fun k hk => ?_, fun u hu => ?_, ?_, ?_⟩
  · unfold State.op
    rw [hops, Table.get_set_same]
  · unfold State.op
    rw [hops, Table.get_set_ne _ _ _ _ _ hk]
  · have hold : s1.warp u = s.warp u := by
      rw [hs]
      exact (congrArg (fun r : State => r.warp u) (issued_eq s i w)).trans (State.warp_setWarp_ne _ _ _ _ hu)
    rw [← hold]
    unfold State.warp
    rw [hwarps, Table.get_set_ne _ _ _ _ _ hu]
  · unfold State.warp
    rw [hwarps, Table.get_set_same]
  · rw [ht, hs]
    rfl

omit how in
theorem State.launchOp_onlyQueues : Claims.OnlyQueues s (s1.launchOp o).1 := by
  rw [s1.launchOp_counted hun]
  refine Claims.OnlyQueues.trans (.of_eq ?_) (State.opRelease_onlyQueues _ o)
  rw [hs]
  rfl

omit how in
theorem State.launchOp_keepsHome (hcore : o.core = (s.block o.block).core) :
    Claims.KeepsHome o.core s (s1.launchOp o).1 := by
  have hblocks : ∀ b, (s1.preLaunch o).block b = s.block b := fun b => by rw [hs]; rfl
  have h := ((s1.preLaunch o).opRelease_releases o).home
  rw [State.opCore_eq (by rw [hblocks]; exact hcore), ← s1.launchOp_counted hun] at h
  intro pa
  have hp := h pa
  rw [hs] at hp ⊢
  exact hp

omit how in
theorem State.launchOp_narrow (hn : Scope.narrow o.scope = true) (he : ∀ e ∈ o.elems, e.place.outer = false) :
    (s1.launchOp o).1.mem = s.mem := by
  rw [s1.launchOp_counted hun, State.opRelease_narrow hn he, hs]
  rfl

/-- A warp-uniform operation with an element not done is in flight once its warp has launched it (R144). -/
theorem State.launchOp_opEnters (hu : o.i.uniformOp = true) (he : ∃ e ∈ o.elems, e.done = false) (hc : o.counted = 0)
    (hb : o.block = (s.atIssue i w).block) (hcore : o.core = (s.block o.block).core) (hm : o.strm < 8) :
    Claims.OpEnters w o (s.atIssue i w) s ((s1.launchOp o).1.finishIfDone s1.nextOp) := by
  obtain ⟨hop, hnext, hops, hwarps, hwarp, hframe⟩ := State.launchOp_fields hs how hun
  have hqueues := State.launchOp_onlyQueues hs hun
  have hhome := State.launchOp_keepsHome hs hun hcore
  have hnarrow := State.launchOp_narrow hs hun
  have hk : s1.nextOp = s.nextOp := by rw [hs]; rfl
  have hbare := Op.bare_uniform hu he
  rw [hk]
  generalize (s1.launchOp o).1 = t at *
  rw [State.finishIfDone_none (by rw [hop]; exact he) (fun l _ => by rw [hop]; exact Op.partDone_uniform hu he l)]
  refine ⟨?_, hnext, hops, hwarps, ?_, fun h l st hl hst => ?_, hframe, hqueues, ?_, fun hn ho _ => hnarrow hn ho⟩
  · rw [hop, hbare, ← hc]
  · rw [hwarp]
    exact Warp.setStreams_eq _ _ _
  · rw [hwarp, hbare, Warp.streams_setStreams]
    by_cases hh : h = o.hset
    · subst hh
      simp [Streams.issuedOf_issue _ _ hm hl hst]
    · simp [hh]
  · rw [← hb, ← hcore]
    exact hhome

end

end

end Machine
end Sys2Proof
end

section
/-!
PROOFS. An access without an element, of a calm warp: it is performed as it issues.
-/
namespace Sys2Proof

section
open Machine

theorem Claims.Calm.not_parked {a : Warp} (h : Claims.Calm a) {l : Nat} (hl : l < 32) : (a.lane l).st ≠ .parked := by
  intro hp
  have := h.2.2.2 l hl
  rw [hp] at this
  exact absurd this (by decide)

theorem Claims.Calm.not_draining {a : Warp} (h : Claims.Calm a) {l : Nat} (hl : l < 32) : (a.lane l).st ≠ .draining := by
  intro hp
  have := h.2.2.2 l hl
  rw [hp] at this
  exact absurd this (by decide)

/-- Warps that the end of an operation treats alike. -/
theorem Claims.Calm.of_eq {a b : Warp} (h : Claims.Calm a) (hm : b.mode = a.mode) (hh : b.halted = a.halted)
    (hy : b.yielded = a.yielded) (hl : b.lanes = a.lanes) : Claims.Calm b := by
  obtain ⟨h1, h2, h3, h4⟩ := h
  refine ⟨hm.trans h1, hh.trans h2, hy.trans h3, fun l hl' => ?_⟩
  unfold Warp.lane
  rw [hl]
  exact h4 l hl'

end

namespace Machine

/-! ## The end of an operation of a calm warp -/

section
variable {s : State} {w k : Nat}

theorem State.echoRegs_calm (h : Claims.Calm (s.warp w)) (regs : List RegRef) : s.echoRegs w regs = s := by
  obtain ⟨hm, hh, hy, -⟩ := h
  unfold echoRegs
  simp only [hm, hh, hy]
  refine List.foldlRecOn (motive := fun t => t = s) _ _ rfl (fun t ht r _ => ?_)
  subst ht
  split
  · rfl
  · rfl
  · rfl

theorem State.settled_calm (h : Claims.Calm (s.warp w)) : ((s.drain w).joinWaits w).settleHalt w = s := by
  have hd : s.drain w = s := drain_quiet (fun l hl hst => absurd hst (h.not_draining hl))
  rw [hd, joinWaits_quiet (fun l hl => h.not_parked hl)]
  unfold settleHalt
  simp [h.2.1]

/-- The warp that an operation leaves holds no replay slot for it. -/
def Warp.freeSlot (a : Warp) (k : Nat) : Warp :=
  if a.replays.contains k then { a with replays := a.replays.filter (fun o => o != k) } else a

theorem State.writeSlots_calm (h : Claims.Calm (s.warp w)) : s.writeSlots w = s := by
  obtain ⟨hm, hh, hy, -⟩ := h
  unfold writeSlots
  extract_lets wp b
  rw [if_neg (by simp [wp, hm, hh, hy])]

theorem State.dropOp_calm (hw : (s.op k).warp = w) (ho : (s.op k).orphan = false) (h : Claims.Calm (s.warp w)) :
    let t := s.dropOp k
    t.ops = (s.setOp k {}).ops ∧ (∀ u, u ≠ w → t.warp u = s.warp u) ∧ t.warp w = (s.warp w).freeSlot k ∧ t.mem = s.mem := by
  intro t
  subst hw
  by_cases hheld : (s.warp (s.op k).warp).replays.contains k = true
  · have hfree : (s.warp (s.op k).warp).freeSlot k = { s.warp (s.op k).warp with
        replays := (s.warp (s.op k).warp).replays.filter (fun o => o != k) } := if_pos hheld
    have hcalm : Claims.Calm (((s.setOp k {}).setWarp (s.op k).warp ((s.warp (s.op k).warp).freeSlot k)).warp
        (s.op k).warp) := by
      rw [State.warp_setWarp_same, hfree]
      exact h.of_eq rfl rfl rfl rfl
    have ht : t = (s.setOp k {}).setWarp (s.op k).warp ((s.warp (s.op k).warp).freeSlot k) := by
      have h2 := (congrArg (fun r : State => ((r.drain (s.op k).warp).joinWaits (s.op k).warp).settleHalt (s.op k).warp)
        (writeSlots_calm hcalm)).trans (settled_calm hcalm)
      rw [hfree] at h2 ⊢
      simp only [t, dropOp, ho, Bool.false_eq_true, if_false, warp_setOp, hheld, if_true]
      exact h2
    rw [ht]
    exact ⟨rfl, fun u hu => State.warp_setWarp_ne _ _ _ _ hu, State.warp_setWarp_same _ _ _, rfl⟩
  · have hfree : (s.warp (s.op k).warp).freeSlot k = s.warp (s.op k).warp := if_neg hheld
    have ht : t = s.setOp k {} := by
      simp only [t, dropOp, ho, Bool.false_eq_true, if_false, warp_setOp, hheld]
      exact settled_calm (s := s.setOp k {}) h
    rw [ht, hfree]
    exact ⟨rfl, fun _ _ => rfl, rfl, rfl⟩

/-- The warp after an operation of it has completed: its destination, and the completion counts not yet raised. -/
def Warp.completes (a : Warp) (o : Op) : Warp :=
  (a.bindOp o).setStreams o.hset (((a.bindOp o).streams o.hset).complete
    (maskWhere 32 (fun l => bit o.lanes l && !bit o.counted l)) o.strm)

theorem Warp.completes_calm {a : Warp} {o : Op} (hb : a.bindOp o = { a with v := (a.bindOp o).v }) (h : Claims.Calm a) :
    Claims.Calm (a.completes o) := by
  unfold Warp.completes
  rw [Warp.setStreams_eq, hb]
  exact h.of_eq rfl rfl rfl rfl

theorem State.finishOp_calm (hw : (s.op k).warp = w) (ho : (s.op k).orphan = false) (hun : (s.op k).i.uncounted = false)
    (hb : (s.warp w).bindOp (s.op k) = { s.warp w with v := ((s.warp w).bindOp (s.op k)).v }) (h : Claims.Calm (s.warp w)) :
    let t := s.finishOp k
    t.ops = (s.setOp k {}).ops ∧ (∀ u, u ≠ w → t.warp u = s.warp u) ∧
      t.warp w = ((s.warp w).completes (s.op k)).freeSlot k ∧ t.mem = s.mem := by
  intro t
  have hcalm : Claims.Calm ((s.setWarp w ((s.warp w).completes (s.op k))).warp w) := by
    rw [State.warp_setWarp_same]
    exact Warp.completes_calm hb h
  have ht : t = (s.setWarp w ((s.warp w).completes (s.op k))).dropOp k := by
    subst hw
    simp only [t, finishOp, ho, hun, Bool.false_eq_true, if_false]
    exact congrArg (fun r : State => r.dropOp k) (echoRegs_calm hcalm _)
  obtain ⟨hops, hwarps, hwarp, hmem⟩ := State.dropOp_calm (s := s.setWarp w ((s.warp w).completes (s.op k))) (k := k)
    hw ho hcalm
  rw [ht]
  refine ⟨hops, fun u hu => (hwarps u hu).trans (State.warp_setWarp_ne _ _ _ _ hu), ?_, hmem⟩
  rw [hwarp, State.warp_setWarp_same]

end

/-! ## A block transfer without a piece -/

section
variable (a : Warp) {o : Op} {x : Mem}

/-- Zeros in some vector registers, in the lanes of a mask. -/
def Warp.zeroVs (a : Warp) (d n mask : Nat) : Warp :=
  (List.range n).foldl (fun a r => a.wrVs (d + r) mask (fun _ => 0)) a

theorem Warp.zeroVs_eq (d n mask : Nat) : a.zeroVs d n mask = { a with v := (a.zeroVs d n mask).v } := by
  unfold Warp.zeroVs
  induction n with
  | zero => rfl
  | succ n ih =>
    rw [List.range_succ, List.foldl_concat]
    rw [wrVs_eq]
    generalize (List.range n).foldl (fun (a : Warp) r => a.wrVs (d + r) mask (fun _ => 0)) a = b at *
    rw [ih]

theorem Warp.rdV_zeroVs (d n mask k l : Nat) (hl : l < 32) :
    (a.zeroVs d n mask).rdV k l = if (∃ r, r < n ∧ k = d + r) ∧ bit mask l = true then 0 else a.rdV k l := by
  unfold Warp.zeroVs
  induction n with
  | zero => simp
  | succ n ih =>
    rw [List.range_succ, List.foldl_concat, rdV_wrVs _ _ _ _ _ _ hl, ih]
    by_cases hk : k = d + n
    · by_cases hm : bit mask l = true
      · rw [if_pos ⟨hk, hm⟩, if_pos ⟨⟨n, Nat.lt_succ_self n, hk⟩, hm⟩]
      · rw [if_neg (fun h => hm h.2), if_neg (fun h => hm h.2), if_neg (fun h => hm h.2)]
    · have hiff : (∃ r, r < n + 1 ∧ k = d + r) ↔ ∃ r, r < n ∧ k = d + r := by
        refine ⟨fun ⟨r, hr, he⟩ => ⟨r, ?_, he⟩, fun ⟨r, hr, he⟩ => ⟨r, by omega, he⟩⟩
        have : r ≠ n := fun h => hk (h ▸ he)
        omega
      rw [if_neg (fun h => hk h.1)]
      simp only [hiff]

/-- An LDB without a piece writes zeros where `z` says so. -/
theorem Warp.bindOp_ldb (hi : o.i = .ldb x) (he : o.elems = []) (hen : o.enabled = 0) : a.bindOp o =
    if o.zero then a.zeroVs x.d (2 ^ (x.sz % 4)) o.group else a := by
  unfold Warp.bindOp
  rw [hi]
  simp only [he, hen, bit_zero, Bool.false_eq_true, if_false]
  cases hz : o.zero
  · simp
  · rfl

theorem Warp.bindOp_stb (hi : o.i = .stb x) : a.bindOp o = a := by
  unfold Warp.bindOp
  rw [hi]

/-- A block transfer without a piece writes vector registers alone: those of its destination, with zeros. -/
theorem Warp.bindOp_block (hi : o.i = .ldb x ∨ o.i = .stb x) (he : o.elems = []) (hen : o.enabled = 0) :
    a.bindOp o = { a with v := (a.bindOp o).v } ∧ ∀ n l, l < 32 → (a.bindOp o).rdV n l =
      if n ∈ Claims.destOf o.i ∧ bit o.group l = true ∧ o.zero = true then 0 else a.rdV n l := by
  obtain hi | hi := hi
  · rw [Warp.bindOp_ldb a hi he hen]
    have hmem : ∀ n, n ∈ Claims.destOf o.i ↔ ∃ r, r < 2 ^ (x.sz % 4) ∧ n = x.d + r := fun n => by
      simp only [hi, Claims.destOf, List.mem_map, List.mem_range, eq_comm]
    cases hz : o.zero
    · exact ⟨rfl, fun n l _ => by simp⟩
    · refine ⟨a.zeroVs_eq _ _ _, fun n l hl => ?_⟩
      rw [if_pos rfl, a.rdV_zeroVs _ _ _ _ _ hl]
      simp only [hmem, and_true]
  · rw [Warp.bindOp_stb a hi]
    exact ⟨rfl, fun n l _ => by simp [hi, Claims.destOf]⟩

end

section
variable (a : Warp) (k : Nat)

theorem Warp.rdV_freeSlot (n l : Nat) : (a.freeSlot k).rdV n l = a.rdV n l := by
  unfold Warp.freeSlot
  split <;> rfl

theorem Warp.streams_freeSlot (h : Bool) : (a.freeSlot k).streams h = a.streams h := by
  unfold Warp.freeSlot
  split <;> rfl

theorem Warp.freeSlot_eq : a.freeSlot k = { a with replays := (a.freeSlot k).replays } := by
  unfold Warp.freeSlot
  split <;> rfl

end

/-- A warp `a` after a block transfer `o`, in flight as number `k`, has been launched and has completed at once. -/
def Warp.transferred (a : Warp) (o : Op) (k : Nat) : Warp :=
  ((a.setStreams o.hset ((a.streams o.hset).issue o.lanes o.strm)).completes o).freeSlot k

section
variable (a : Warp) {o : Op} {x : Mem} (k : Nat) (hi : o.i = .ldb x ∨ o.i = .stb x) (he : o.elems = [])
  (hen : o.enabled = 0)
include hi he hen

theorem Warp.rdV_transferred (n : Nat) {l : Nat} (hl : l < 32) : (a.transferred o k).rdV n l =
    if n ∈ Claims.destOf o.i ∧ bit o.group l = true ∧ o.zero = true then 0 else a.rdV n l := by
  unfold Warp.transferred
  rw [Warp.rdV_freeSlot]
  have h1 : ∀ b : Warp, (b.completes o).rdV n l = (b.bindOp o).rdV n l := fun b => by
    rw [Warp.completes, Warp.setStreams_eq]
    rfl
  have h2 : ∀ q, (a.setStreams o.hset q).rdV n l = a.rdV n l := fun q => by
    rw [Warp.setStreams_eq]
    rfl
  rw [h1, (Warp.bindOp_block _ hi he hen).2 n l hl, h2]

theorem Warp.completes_eq : a.completes o =
    { a with v := (a.completes o).v, own := (a.completes o).own, hnd := (a.completes o).hnd } := by
  rw [Warp.completes, Warp.setStreams_eq, (Warp.bindOp_block a hi he hen).1]

theorem Warp.transferred_eq : a.transferred o k = { a with
    v := (a.transferred o k).v, own := (a.transferred o k).own, hnd := (a.transferred o k).hnd
    replays := (a.transferred o k).replays } := by
  rw [Warp.transferred, Warp.freeSlot_eq, Warp.completes_eq _ hi he hen, Warp.setStreams_eq]

theorem Warp.keepsRegs_transferred :
    KeepsRegs ((Claims.destOf o.i).map (fun n => ⟨.v, n⟩)) a (a.transferred o k) := by
  refine ⟨fun n l hl hn => ?_, fun n _ => ?_, fun n _ => ?_, fun n _ => ?_⟩
  · rw [Warp.rdV_transferred a k hi he hen n hl, if_neg (fun h => hn (List.mem_map.mpr ⟨n, h.1, rfl⟩))]
  all_goals
    rw [Warp.transferred_eq a k hi he hen]
    rfl

/-- Its counts have both risen. -/
theorem Warp.streams_transferred (hc : o.counted = 0) (hm : o.strm < 8) (h : Bool) {l st : Nat} (hl : l < 32)
    (hst : st < 8) :
    let one : BitVec 16 := if h = o.hset ∧ bit o.lanes l = true ∧ st = o.strm then 1 else 0
    ((a.transferred o k).streams h).issuedOf l st = (a.streams h).issuedOf l st + one ∧
      ((a.transferred o k).streams h).doneOf l st = (a.streams h).doneOf l st + one := by
  have hb : ∀ (b : Warp) g, (b.bindOp o).streams g = b.streams g := fun b g => by
    rw [(Warp.bindOp_block b hi he hen).1]
    rfl
  intro one
  have hstreams : (a.transferred o k).streams h = if h = o.hset then
      ((a.streams h).issue o.lanes o.strm).complete (maskWhere 32 (fun l => bit o.lanes l && !bit o.counted l)) o.strm
      else a.streams h := by
    unfold Warp.transferred
    rw [Warp.streams_freeSlot, Warp.completes, Warp.streams_setStreams, hb, hb, Warp.streams_setStreams,
      Warp.streams_setStreams, if_pos rfl]
    by_cases hh : h = o.hset
    · rw [if_pos hh, if_pos hh, hh]
    · rw [if_neg hh, if_neg hh, if_neg hh]
  rw [hstreams]
  by_cases hh : h = o.hset
  · simp [one, hh, Streams.issuedOf_issue _ _ hm hl hst, Streams.doneOf_complete _ _ hm hl hst, hl, hc]
  · simp [one, hh]

end

section
variable {s s1 : State} {w : Nat} {i : Instr} {o : Op} {x : Mem}

/-- A block transfer without a piece is performed as it issues: its counts have both risen, and its destination is zero
where `z` says so. -/
theorem State.launchOp_empty (hs : s1 = { s.issued i w with tlbs := s1.tlbs, free := s1.free }) (how : o.warp = w)
    (hi : o.i = .ldb x ∨ o.i = .stb x) (hst : o.st = .flying) (ho : o.orphan = false) (hc : o.counted = 0)
    (he : o.elems = []) (hen : o.enabled = 0) (hcore : o.core = (s.block o.block).core) (hm : o.strm < 8)
    (hcalm : Claims.Calm (s.atIssue i w)) :
    let t := (s1.launchOp o).1.finishIfDone s1.nextOp
    (∀ k, t.op k = if k = s.nextOp then {} else s.op k) ∧ (∀ u, u ≠ w → t.warp u = s.warp u) ∧
      KeepsRegs ((Claims.destOf o.i).map (fun n => ⟨.v, n⟩)) (s.atIssue i w) (t.warp w) ∧
      (∀ n ∈ Claims.destOf o.i, ∀ l, l < 32 → (t.warp w).rdV n l =
        if bit o.group l = true ∧ o.zero = true then 0 else (s.atIssue i w).rdV n l) ∧
      (∀ h l st, l < 32 → st < 8 →
        let one : BitVec 16 := if h = o.hset ∧ bit o.lanes l = true ∧ st = o.strm then 1 else 0
        ((t.warp w).streams h).issuedOf l st = ((s.atIssue i w).streams h).issuedOf l st + one ∧
        ((t.warp w).streams h).doneOf l st = ((s.atIssue i w).streams h).doneOf l st + one) ∧
      Claims.KeepsHome o.core s t := by
  have hun : o.i.uncounted = false := by obtain hi | hi := hi <;> rw [hi] <;> rfl
  have hwhole : o.i.wholeOp = false := by obtain hi | hi := hi <;> rw [hi] <;> rfl
  intro t
  obtain ⟨hop, hnext, hops, hwarps, hwarp, -⟩ := State.launchOp_fields hs how hun
  have hhome := State.launchOp_keepsHome hs hun hcore
  have hk : s1.nextOp = s.nextOp := by rw [hs]; rfl
  simp only [t, hk]
  generalize (s1.launchOp o).1 = r at *
  have hfinish : r.finishIfDone s.nextOp = r.finishOp s.nextOp := by
    simp [State.finishIfDone, hop, hst, hwhole, he]
  have hcalm' : Claims.Calm (r.warp w) := by
    rw [hwarp, Warp.setStreams_eq]
    exact hcalm.of_eq rfl rfl rfl rfl
  obtain ⟨hbind, hread⟩ := Warp.bindOp_block (r.warp w) hi he hen
  obtain ⟨tops, twarps, twarp, tmem⟩ := State.finishOp_calm (s := r) (w := w) (k := s.nextOp) (by rw [hop, how])
    (by rw [hop, ho]) (by rw [hop, hun]) (by rw [hop]; exact hbind) hcalm'
  rw [hfinish]
  generalize r.finishOp s.nextOp = q at *
  have hq : q.warp w = (s.atIssue i w).transferred o s.nextOp := by
    rw [twarp, hop, hwarp]
    rfl
  rw [hq]
  refine ⟨fun k => ?_, fun u hu => (twarps u hu).trans (hwarps u hu), Warp.keepsRegs_transferred _ _ hi he hen,
    fun n hn l hl => ?_, fun h l st hl hst' => Warp.streams_transferred _ _ hi he hen hc hm h hl hst', ?_⟩
  · unfold State.op
    rw [tops]
    refine (Table.get_set _ _ _ _ _).trans ?_
    by_cases hkn : k = s.nextOp
    · rw [if_pos hkn, if_pos hkn]
    · rw [if_neg hkn, if_neg hkn]
      exact hops k hkn
  · rw [Warp.rdV_transferred _ _ hi he hen n hl]
    simp only [hn, true_and]
  · intro pa
    have := hhome pa
    rw [← tmem] at this
    exact this

end

end Machine
end Sys2Proof
end

section
/-!
PROOFS. The statement on LDU, STU, LDB and STB.
-/
namespace Sys2Proof
namespace Machine

/-! ## A full stream -/

section
variable {s : State} {w real enabled : Nat} {i : Instr} {x : Mem} {elems : List Elem} {args : List Nat}

/-- The threads that a warp-uniform operation parks: all of the group that are no helpers. -/
def Warp.wholeGroup (a : Warp) : Nat := maskWhere 32 (fun l => bit a.group l && !a.isHelper l)

theorem Warp.mustStall_uniform {a : Warp} {strm real : Nat} (h : a.mustStall true strm real ≠ 0) :
    a.mustStall true strm real = a.wholeGroup := by
  unfold Warp.mustStall at h ⊢
  by_cases hf : a.full strm real = 0
  · exact absurd (if_pos hf) h
  · exact if_neg hf

/-- A warp-uniform operation for which a stream has no room parks the whole group (R145). -/
theorem State.issueOp_stalls (hu : i.uniformOp = true) (hstop : (s.warp w).mustStall true x.strm real ≠ 0)
    (hr : ∀ l, bit real l = true → bit (s.warp w).group l = true ∧ (s.warp w).isHelper l = false) :
    s.issueOp w i x real enabled elems args = s.stall w i x.strm (s.warp w).wholeGroup (fun _ => real) := by
  have hstall := Warp.mustStall_uniform hstop
  generalize hf : State.issueOp = f
  delta State.issueOp at hf
  subst hf
  beta_reduce
  extract_lets +onlyGivenNames wp stop s2 out lanes keep o
  have hs : stop = (s.warp w).wholeGroup := by
    simp only [stop, hu]
    exact hstall
  have hs0 : stop ≠ 0 := by
    rw [hs, ← hstall]
    exact hstop
  have hs2 : s2 = s.stall w i x.strm (s.warp w).wholeGroup (fun _ => real) := by
    simp only [s2, hu, if_true]
    rw [if_neg hs0, hs]
  have hlanes : lanes = 0 := by
    refine maskWhere_eq_zero (fun l hl => ?_)
    cases hb : bit real l
    · rfl
    · obtain ⟨hg, hh⟩ := hr l hb
      have hm : bit stop l = true := by
        rw [hs, Warp.wholeGroup, bit_maskWhere]
        simp [hl, hg, hh]
      have : bit out l = true := Warp.bit_withHelpers (s.warp w) hl hm
      simp [this]
  clear_value stop s2 out lanes keep o
  refine (if_pos hlanes).trans ?_
  rw [← hs2]
  split
  · cases hu
  · rfl

end

/-! ## The bodies of the four instructions -/

section
variable {e : Claims.UniOp} {x : Mem} {s : State} {w : Nat}

/-- The alignment of a warp-uniform access's elements. -/
def uniAlign (e : Claims.UniOp) (x : Mem) : Nat := if e.block then 8 else 2 ^ (x.sz % 4)

/-- The lanes that a warp-uniform access has enabled. -/
def uniEnabled (e : Claims.UniOp) (x : Mem) (a : Warp) : Nat := if e.block then e.part x a else 1

/-- The arguments that a warp-uniform access captures. -/
def uniArgs (e : Claims.UniOp) (x : Mem) (a : Warp) : List Nat := if e.block then [a.memAddr x false 0] else []

/-- What a warp-uniform access does with some thread Active. -/
def uniAccess (e : Claims.UniOp) (x : Mem) (w : Nat) (s : State) : Res :=
  if e.block then blockAccess (e.instr x) x e.need e.helpers w s else uniformAccess (e.instr x) x e.need w s

/-- What a warp-uniform access does. -/
def uniBody (e : Claims.UniOp) (x : Mem) : Nat → State → Res :=
  if e.helpers then uniform x.g (uniAccess e x) else uniformReal x.g (uniAccess e x)

theorem uniAccess_block (h : e.block = true) : uniAccess e x = blockAccess (e.instr x) x e.need e.helpers :=
  funext₂ fun _ _ => if_pos h

theorem uniAccess_one (h : e.block = false) : uniAccess e x = uniformAccess (e.instr x) x e.need :=
  funext₂ fun _ _ => if_neg (by simp [h])

theorem uniBody_helpers (h : e.helpers = true) : uniBody e x = uniform x.g (uniAccess e x) := if_pos h

theorem uniBody_real (h : e.helpers = false) : uniBody e x = uniformReal x.g (uniAccess e x) := if_neg (by simp [h])

theorem exec_uni (he : e ∈ Claims.uniOps) (s : State) : exec (e.instr x) s = onWarp (e.instr x) (uniBody e x) s := by
  simp only [Claims.uniOps, List.mem_cons, List.not_mem_nil, or_false] at he
  obtain rfl | rfl | rfl | rfl := he
  · rw [uniBody_helpers rfl, uniAccess_one rfl]
    rfl
  · rw [uniBody_real rfl, uniAccess_one rfl]
    rfl
  · rw [uniBody_helpers rfl, uniAccess_block rfl]
    rfl
  · rw [uniBody_real rfl, uniAccess_block rfl]
    rfl

theorem uniBody_active (h : e.act x (s.warp w) ≠ 0) : uniBody e x w s = uniAccess e x w s := by
  unfold Claims.UniOp.act at h
  unfold uniBody
  split
  · next hh =>
    rw [if_pos hh] at h
    exact uniform_active _ h
  · next hh =>
    rw [if_neg hh] at h
    exact uniformReal_active _ h

theorem uniBody_idle (h : e.act x (s.warp w) = 0) : uniBody e x w s = .ok s := by
  unfold Claims.UniOp.act at h
  unfold uniBody
  split
  · next hh =>
    rw [if_pos hh] at h
    exact if_neg (by simp [Warp.anyActive, h])
  · next hh =>
    rw [if_neg hh] at h
    exact if_neg (by simp [h])

theorem uniformAccess_eq (i : Instr) (x : Mem) (need : Need) (w : Nat) (s : State) : uniformAccess i x need w s =
    wholeAccess i x need (2 ^ (x.sz % 4)) (Claims.oneElem x (s.warp w)) 1 [] w s := by
  generalize hf : wholeAccess = f
  unfold uniformAccess
  rw [hf]
  rfl

theorem blockAccess_aligned {i : Instr} {need : Need} {helpers : Bool}
    (h : (s.warp w).memAddr x false 0 % 256 = 0) : blockAccess i x need helpers w s =
      let en := (s.warp w).enabledLanes x.vx.m (if helpers then (s.warp w).active x.g else (s.warp w).activeReal x.g)
      wholeAccess i x need 8 (Claims.blockElems x en (s.warp w)) en [(s.warp w).memAddr x false 0] w s := by
  generalize hf : wholeAccess = f
  generalize hg : blockAccess = g
  delta blockAccess at hg
  subst hg
  beta_reduce
  extract_lets +onlyGivenNames wp base act en elems
  refine (if_neg (by simp [base, wp, h])).trans ?_
  rw [hf]
  have he : elems = Claims.blockElems x en (s.warp w) := by
    simp only [elems, Claims.blockElems, List.flatMap_def, base, wp]
  rw [he]

/-- A misaligned base is the fault of the lowest lane that takes part and is no helper's. -/
theorem blockAccess_misaligned {i : Instr} {need : Need} {helpers : Bool} {l : Nat}
    (h : (s.warp w).memAddr x false 0 % 256 ≠ 0)
    (hl : (maskList ((s.warp w).enabledLanes x.vx.m
      (if helpers then (s.warp w).active x.g else (s.warp w).activeReal x.g)) 32).find?
        (fun l => !(s.warp w).isHelper l) = some l) :
    blockAccess i x need helpers w s =
      .trap { cause := 0x062, lane := l, addr := (s.warp w).memAddr x false 0 } s := by
  generalize hg : blockAccess = g
  delta blockAccess at hg
  subst hg
  beta_reduce
  extract_lets +onlyGivenNames wp base act en elems
  refine (if_pos (by simp [base, wp, h])).trans ?_
  have he : (maskList en 32).find? (fun l => !wp.isHelper l) = some l := hl
  rw [he]

theorem uniAccess_goes (h : e.goes x (s.warp w)) : uniAccess e x w s =
    wholeAccess (e.instr x) x e.need (uniAlign e x) (e.elems x (s.warp w)) (uniEnabled e x (s.warp w))
      (uniArgs e x (s.warp w)) w s := by
  unfold uniAlign uniEnabled uniArgs Claims.UniOp.elems
  cases hb : e.block
  · rw [uniAccess_one hb, uniformAccess_eq, if_neg Bool.false_ne_true, if_neg Bool.false_ne_true,
      if_neg Bool.false_ne_true, if_neg Bool.false_ne_true]
  · rw [uniAccess_block hb, blockAccess_aligned (h.2 hb), if_pos rfl, if_pos rfl, if_pos rfl, if_pos rfl]
    rfl

theorem uniAccess_misaligned {l : Nat} (hb : e.block = true) (h : (s.warp w).memAddr x false 0 % 256 ≠ 0) (hl : l < 32)
    (hp : bit (e.part x (s.warp w)) l = true) (hh : (s.warp w).isHelper l = false)
    (hfirst : ∀ k, k < l → bit (e.part x (s.warp w)) k = true → (s.warp w).isHelper k = true) :
    uniAccess e x w s = .trap { cause := 0x062, lane := l, addr := (s.warp w).memAddr x false 0 } s := by
  rw [uniAccess_block hb]
  refine blockAccess_misaligned h ?_
  show (maskList (e.part x (s.warp w)) 32).find? _ = _
  rw [maskList, List.find?_filter, List.find?_range_eq_some]
  refine ⟨by simp [hp, hh], List.mem_range.mpr hl, fun k hk => ?_⟩
  cases hbit : bit (e.part x (s.warp w)) k
  · rfl
  · simp [hfirst k hk hbit]

end

/-! ## What the four instructions are -/

section
variable {e : Claims.UniOp} {x : Mem}

theorem uniOp_kind (he : e ∈ Claims.uniOps) :
    (e.instr x).uniformOp = true ∧ (e.instr x).isAtomic = false ∧ (e.instr x).uncounted = false := by
  simp only [Claims.uniOps, List.mem_cons, List.not_mem_nil, or_false] at he
  obtain rfl | rfl | rfl | rfl := he
  iterate 4 exact ⟨rfl, rfl, rfl⟩

theorem uniOp_block (he : e ∈ Claims.uniOps) (hb : e.block = true) : e.instr x = .ldb x ∨ e.instr x = .stb x := by
  simp only [Claims.uniOps, List.mem_cons, List.not_mem_nil, or_false] at he
  obtain rfl | rfl | rfl | rfl := he
  · exact absurd hb Bool.false_ne_true
  · exact absurd hb Bool.false_ne_true
  · exact .inl rfl
  · exact .inr rfl

theorem uniEnabled_lt (a : Warp) : uniEnabled e x a < 2 ^ 32 := by
  unfold uniEnabled
  split
  · exact maskWhere_lt _ _
  · decide

theorem uniElems_undone {a : Warp} {y : Elem} (h : y ∈ e.elems x a) : y.done = false := by
  unfold Claims.UniOp.elems at h
  split at h
  · simp only [Claims.blockElems, List.mem_flatMap, List.mem_map] at h
    obtain ⟨l, -, r, -, rfl⟩ := h
    rfl
  · rw [List.mem_singleton.mp h]

/-- Only a block transfer in which no lane takes part has no element. -/
theorem uniElems_nil {a : Warp} (h : e.elems x a = []) : e.block = true ∧ e.part x a = 0 := by
  unfold Claims.UniOp.elems at h
  split at h
  · next hb =>
    refine ⟨hb, ?_⟩
    refine maskWhere_eq_zero (fun l hl => Bool.eq_false_iff.mpr (fun hbit => ?_))
    have hm : l ∈ maskList (e.part x a) 32 := by
      refine (mem_maskList _ _ _).mpr ⟨hl, ?_⟩
      rw [Claims.UniOp.part, Warp.enabledLanes, bit_maskWhere, hbit]
      simp [hl]
    have hempty := List.flatMap_eq_nil_iff.mp h l hm
    rw [List.map_eq_nil_iff, List.range_eq_nil] at hempty
    exact absurd hempty (Nat.pos_iff_ne_zero.mp (Nat.two_pow_pos _))
  · exact absurd h (List.cons_ne_nil _ _)

end

/-! ## Issue -/

section
variable {e : Claims.UniOp} {x : Mem} {s s1 : State} {w : Nat} {l : List Elem}

/-- A warp-uniform access whose elements pass the checks issues. -/
theorem exec_uni_ok (he : e ∈ Claims.uniOps) (hissue : Issues w (e.instr x) s) (hgo : e.goes x (s.atIssue (e.instr x) w))
    (hc : (s.issued (e.instr x) w).checkAll ((s.issued (e.instr x) w).ctx w) e.need (uniAlign e x)
      (s.atIssue (e.instr x) w).isHelper (e.elems x (s.atIssue (e.instr x) w)) = (.ok l, s1)) :
    exec (e.instr x) s = .next (s1.issueOp w (e.instr x) x ((s.atIssue (e.instr x) w).activeReal x.g)
      (uniEnabled e x (s.atIssue (e.instr x) w)) l (uniArgs e x (s.atIssue (e.instr x) w))) :=
  (exec_uni he s).trans (onWarp_ok hissue ((uniBody_active hgo.1).trans ((uniAccess_goes hgo).trans (wholeAccess_ok hc))))

/-- The operation that the model makes of an access is the one that its captured values describe. -/
theorem State.newOp_translated {i : Instr} {real enabled : Nat} {args : List Nat} (hs : Translates (s.issued i w) s1) :
    s1.newOp w i x real enabled (maskWhere 32 (bit (s1.warp w).group)) l args =
      { st := .flying, instr := some i, warp := w, block := (s.atIssue i w).block
        core := (s.block (s.atIssue i w).block).core, job := (s.block (s.atIssue i w).block).job
        asid := (s.job (s.block (s.atIssue i w).block).job).asid, hset := (s.atIssue i w).mode != .normal
        strm := x.strm, after := x.after, scope := x.scope, lanes := real, enabled := enabled
        group := maskWhere 32 (bit (s.atIssue i w).group), zero := x.vx.z, pc := (s.atIssue i w).pc, seq := s.nextSeq
        elems := l, args := args, issuedAt := s.time } := by
  have hw : s1.warp w = s.atIssue i w := by rw [hs]; rfl
  have hblock : ∀ b, s1.block b = s.block b := fun b => by rw [hs]; rfl
  have hjob : ∀ j, s1.job j = s.job j := fun j => by rw [hs]; rfl
  have hseq : s1.nextSeq = s.nextSeq := by rw [hs]; rfl
  have htime : s1.time = s.time := by rw [hs]; rfl
  simp only [State.newOp, hw, hblock, hjob, hseq, htime, Warp.usesHandlerStreams]

theorem exists_undone {a : Warp} (hmap : l.map Elem.unplaced = (e.elems x a).map Elem.unplaced) (h : e.elems x a ≠ []) :
    ∃ y ∈ l, y.done = false := by
  obtain ⟨y, hy⟩ := List.exists_mem_of_ne_nil l (fun hl => h (List.map_eq_nil_iff.mp (by rw [← hmap, hl]; rfl)))
  have hmem : y.unplaced ∈ (e.elems x a).map Elem.unplaced := hmap ▸ List.mem_map_of_mem hy
  obtain ⟨z, hz, heq⟩ := List.mem_map.mp hmem
  have hsame : y.done = z.done := (congrArg Elem.done heq.symm : y.unplaced.done = z.unplaced.done)
  exact ⟨y, hy, hsame.trans (uniElems_undone hz)⟩

theorem uni_accessIssues (he : e ∈ Claims.uniOps) : Claims.AccessIssues (e.instr x) x e.need (uniAlign e x) (e.goes x)
    (e.elems x) (uniEnabled e x) (uniArgs e x) id := by
  intro w s hissue hstrm a sI hgo hreal hroom
  obtain ⟨hu, hatom, hun⟩ := uniOp_kind (x := x) he
  have hreal32 : a.activeReal x.g < 2 ^ 32 := maskWhere_lt _ _
  have henters : ∀ l s1, sI.checkAll (sI.ctx w) e.need (uniAlign e x) a.isHelper (e.elems x a) = (.ok l, s1) →
      Translates sI s1 ∧ exec (e.instr x) s = .next ((s1.launchOp (s1.newOp w (e.instr x) x (a.activeReal x.g)
        (uniEnabled e x a) (maskWhere 32 (bit (s1.warp w).group)) l (uniArgs e x a))).1.finishIfDone s1.nextOp) := by
    intro l s1 hc
    have hs : Translates sI s1 := .of_snd hc (sI.checkAll_translates _ _ _ _ _)
    have hw : s1.warp w = a := by rw [hs]; rfl
    exact ⟨hs, (exec_uni_ok he hissue hgo hc).trans (congrArg Host.Outcome.next
      (State.issueOp_enters (by rw [hw]; exact hroom) hreal32 hreal (uniEnabled_lt a) hatom))⟩
  refine ⟨fun l s1 hne hc _ => ?_, fun hnil hcalm => ?_⟩
  · obtain ⟨hs, hexec⟩ := henters l s1 hc
    rw [State.newOp_translated hs] at hexec
    refine ⟨_, hexec, State.launchOp_opEnters hs rfl hun hu ?_ rfl rfl rfl hstrm⟩
    exact exists_undone (sI.checkAll_unplaced _ _ _ _ _ hc) hne
  · obtain ⟨hb, hpart⟩ := uniElems_nil hnil
    obtain ⟨hs, hexec⟩ := henters [] sI (by rw [hnil, State.checkAll])
    have henabled : uniEnabled e x a = 0 := (if_pos hb).trans hpart
    obtain ⟨hops, hwarps, hkeep, hzero, hcounts, hhome⟩ := State.launchOp_empty
      (o := sI.newOp w (e.instr x) x (a.activeReal x.g) (uniEnabled e x a) (maskWhere 32 (bit (sI.warp w).group)) []
        (uniArgs e x a)) hs rfl (uniOp_block he hb) rfl rfl rfl rfl henabled rfl hstrm hcalm
    refine ⟨_, hexec, hops, hwarps, hkeep, fun n hn l hl => (hzero n hn l hl).trans ?_, hcounts, hhome⟩
    have hgroup : bit (maskWhere 32 (bit (sI.warp w).group)) l = bit a.group l := by
      rw [bit_maskWhere, decide_eq_true hl, Bool.true_and]
      rfl
    show (if bit (maskWhere 32 (bit (sI.warp w).group)) l = true ∧ x.vx.z = true then _ else _) = _
    rw [hgroup]

theorem uni_accessFaults (he : e ∈ Claims.uniOps) :
    Claims.AccessFaults (e.instr x) e.need (uniAlign e x) (e.goes x) (e.elems x) :=
  fun _ _ _ _ hissue hgo hc => (exec_uni he _).trans
    (onWarp_trap hissue ((uniBody_active hgo.1).trans ((uniAccess_goes hgo).trans (wholeAccess_error hc))))

/-- With a full stream the whole group parks, and nothing issues. -/
theorem uni_stalls (he : e ∈ Claims.uniOps) (hissue : Issues w (e.instr x) s) (hgo : e.goes x (s.atIssue (e.instr x) w))
    (hfull : (s.atIssue (e.instr x) w).mustStall true x.strm ((s.atIssue (e.instr x) w).activeReal x.g) ≠ 0)
    (hc : (s.issued (e.instr x) w).checkAll ((s.issued (e.instr x) w).ctx w) e.need (uniAlign e x)
      (s.atIssue (e.instr x) w).isHelper (e.elems x (s.atIssue (e.instr x) w)) = (.ok l, s1)) :
    exec (e.instr x) s = .next (s1.stall w (e.instr x) x.strm (s.atIssue (e.instr x) w).wholeGroup
      (fun _ => (s.atIssue (e.instr x) w).activeReal x.g)) := by
  have hs : Translates (s.issued (e.instr x) w) s1 := .of_snd hc (State.checkAll_translates _ _ _ _ _ _)
  have hw : s1.warp w = s.atIssue (e.instr x) w := by rw [hs]; rfl
  refine (exec_uni_ok he hissue hgo hc).trans (congrArg Host.Outcome.next ?_)
  rw [← hw] at hfull ⊢
  refine State.issueOp_stalls (uniOp_kind he).1 hfull (fun k hk => ⟨?_, Warp.activeReal_helper hk⟩)
  rw [Warp.activeReal, bit_maskWhere, Warp.active, bit_maskWhere] at hk
  simp only [Bool.and_eq_true] at hk
  obtain ⟨-, ⟨-, hg, -⟩, -⟩ := hk
  exact hg

/-- What a state is after one warp is set and an issue number drawn. -/
theorem State.setWarp_fields (s : State) (w n : Nat) (a : Warp) (t : State) (h : t = { s.setWarp w a with nextSeq := n }) :
    t.ops = s.ops ∧ t.mem = s.mem ∧ (∀ u, u ≠ w → t.warp u = s.warp u) ∧ t.warp w = a := by
  subst h
  exact ⟨rfl, rfl, fun u hu => State.warp_setWarp_ne s w u a hu, State.warp_setWarp_same s w a⟩

/-- The wait of threads that have no room in a stream. -/
def State.roomWait (s : State) (i : Instr) (strm : Nat) (room : Nat → Nat) (l : Nat) : Wait :=
  { kind := .exhaustion, instr := some i, data := strm, lanes := room l, since := s.time, seq := s.nextSeq }

theorem State.stall_eq (s : State) (w : Nat) (i : Instr) (strm mask : Nat) (room : Nat → Nat) :
    s.stall w i strm mask room = { s.setWarp w ((s.warp w).park ((s.warp w).withHelpers mask) (s.roomWait i strm room)) with
      nextSeq := s.nextSeq + 1 } := by
  generalize hp : Warp.park = p
  generalize hh : Warp.withHelpers = h
  unfold State.stall
  rw [hp, hh]
  rfl

theorem Warp.bit_wholeGroup {a : Warp} {k : Nat} (hk : k < 32) (hg : bit a.group k = true) (hh : a.isHelper k = false) :
    bit a.wholeGroup k = true := by
  rw [Warp.wholeGroup, bit_maskWhere]
  simp [hk, hg, hh]

/-- The state of a stall: the group's threads wait for room. -/
theorem State.stall_parks {i : Instr} {strm : Nat} {room : Nat → Nat} (hs : Translates (s.issued i w) s1) :
    let a := s.atIssue i w
    let t := s1.stall w i strm a.wholeGroup room
    (∀ k, t.op k = s.op k) ∧ (∀ u, u ≠ w → t.warp u = s.warp u) ∧ t.mem = s.mem ∧ KeepsRegs [] a (t.warp w) ∧
      ∀ k, k < 32 → bit a.group k = true → a.isHelper k = false →
        ((t.warp w).lane k).st = .parked ∧ ((t.warp w).lane k).pc = a.pc ∧
          ((t.warp w).lane k).wait.kind = .exhaustion := by
  intro a t
  have hw : s1.warp w = a := by rw [hs]; rfl
  have hothers : ∀ u, u ≠ w → s1.warp u = s.warp u := fun u hu => by
    rw [hs]
    exact (congrArg (fun r : State => r.warp u) (issued_eq s i w)).trans (State.warp_setWarp_ne _ _ _ _ hu)
  have hops : s1.ops = s.ops := by rw [hs]; rfl
  have hmem : s1.mem = s.mem := by rw [hs]; rfl
  obtain ⟨tops, tmem, twarps, hpark⟩ := s1.setWarp_fields w _ _ t (s1.stall_eq w i strm a.wholeGroup room)
  rw [hw] at hpark
  refine ⟨fun k => ?_, fun u hu => (twarps u hu).trans (hothers u hu), tmem.trans hmem, ?_, fun k hk hg hh => ?_⟩
  · show t.ops.get {} k = s.ops.get {} k
    rw [tops, hops]
  · exact hpark ▸ Warp.keepsRegs_park _ _ _
  · have hlane := Warp.lane_park a (s1.roomWait i strm room) hk (Warp.bit_withHelpers a hk (Warp.bit_wholeGroup hk hg hh)) hh
    rw [← hpark] at hlane
    rw [hlane]
    exact ⟨rfl, rfl, rfl⟩

end

/-- Settles O29: the four accesses share one body; where the checks pass it issues one operation, whose part nothing has
performed yet, or parks the group. -/
theorem uniformAccessIssue : Obligations.UniformAccessIssue := by
  unfold Obligations.UniformAccessIssue
  intro e he x
  refine ⟨uni_accessIssues he, uni_accessFaults he, ?_, ?_, ?_⟩
  · intro w s hissue hidle
    exact (exec_uni he s).trans (onWarp_ok hissue (uniBody_idle hidle))
  · intro w s l hissue hb a h256 hl hp hh hfirst
    have hact : e.act x a ≠ 0 := fun h0 => by
      rw [Claims.UniOp.part, Warp.enabledLanes, bit_maskWhere, h0] at hp
      simp at hp
    exact (exec_uni he s).trans (onWarp_trap hissue ((uniBody_active hact).trans
      (uniAccess_misaligned hb h256 hl hp hh hfirst)))
  · intro w s l s1 hissue a sI hgo hfull hc
    exact ⟨_, uni_stalls he hissue hgo hfull hc, State.stall_parks (.of_snd hc (sI.checkAll_translates _ _ _ _ _))⟩

end Machine
end Sys2Proof
end

section
/-!
PROOFS. The statement on the rearrangements (R180 to R186). Where every element is picked from the sources, the
instruction is one element function under `vecOp`. XPUT writes a lane sub-element by sub-element: which source wins an
element is the last that a descending search finds (`xputWinner`), and a sub-element so written reads as `bits_putFields`
says.
-/
namespace Sys2Proof
namespace Machine

/-! ## Elements picked from the sources (R180, R181, R183 to R186) -/

/-- The instructions that pick by linear index (R183, R184), each with its function. -/
def linearPicks : List ((Alu → Instr) × (Alu → Warp → Nat → Nat → Nat → Nat)) :=
  [(.xrot, xrotPick), (.xshift, xshiftPick), (.xalign, xalignPick), (.xrev, xrevPick), (.xzip, xzipPick),
   (.xunzip, xunzipPick)]

/-- Those that pick one element for all, or within a quad, each with its function. -/
def lanePicks : List ((Alu → Instr) × (Alu → Warp → Nat → Nat → Nat)) :=
  [(.xbcast, xbcastPick), (.qswap, qswapPick), (.qbcast, qbcastPick)]

theorem exec_linearPick {e : (Alu → Instr) × (Alu → Warp → Nat → Nat → Nat → Nat)} (he : e ∈ linearPicks) (x : Alu)
    (s : State) : exec (e.1 x) s = onWarp (e.1 x) (pickLin x (e.2 x)) s := by
  unfold linearPicks at he
  fin_cases he <;> rfl

theorem exec_lanePick {e : (Alu → Instr) × (Alu → Warp → Nat → Nat → Nat)} (he : e ∈ lanePicks) (x : Alu) (s : State) :
    exec (e.1 x) s = onWarp (e.1 x) (pickVec x true (intWidth x.fmt) (e.2 x)) s := by
  unfold lanePicks at he
  fin_cases he <;> rfl

theorem exec_xget (x : Alu) (s : State) :
    exec (.xget x) s = onWarp (.xget x) (pickVec x false (intWidth x.fmt) (xgetPick x)) s := rfl
theorem exec_permt (x : Alu) (s : State) : exec (.permt x) s = onWarp (.permt x) (pickVec x true 8 (permtPick x)) s := rfl
theorem exec_permb (x : Alu) (s : State) : exec (.permb x) s = onWarp (.permb x) (pickVec x true 8 (permbPick x)) s := rfl

/-! ## Fields put one after the other -/

/-- Field `k`, `wd` bits wide, put where there is a value for it. -/
def putField (wd : Nat) (g : Nat → Option Nat) (v k : Nat) : Nat := (g k).elim v (putBits v (wd * k) wd)

section
variable {wd : Nat} {g : Nat → Option Nat} {v : Nat}

theorem putField_lt {k n : Nat} (hv : v < 2 ^ n) (hk : wd * k + wd ≤ n) : putField wd g v k < 2 ^ n := by
  unfold putField
  cases g k with
  | none => exact hv
  | some e => exact putBits_lt _ _ _ _ _ hv hk

theorem bits_putField (j k : Nat) : bits (putField wd g v j) (wd * k) wd =
    if k = j then (g k).elim (bits v (wd * k) wd) (· % 2 ^ wd) else bits v (wd * k) wd := by
  unfold putField
  by_cases hkj : k = j
  · subst hkj
    cases g k <;> simp
  · rw [if_neg hkj]
    cases g j with
    | none => rfl
    | some e => exact bits_putBits_ne _ _ _ _ _ _ (fields_apart wd k j hkj)

theorem putFields_lt {n : Nat} (hv : v < 2 ^ 64) (hn : n ≤ 64 / wd) :
    (List.range n).foldl (putField wd g) v < 2 ^ 64 := by
  induction n with
  | zero => exact hv
  | succ n ih =>
    rw [foldl_range_succ]
    exact putField_lt (ih (by omega)) (fits_id wd n hn)

/-- A field reads as the value put there, or as before. -/
theorem bits_putFields (n k : Nat) : bits ((List.range n).foldl (putField wd g) v) (wd * k) wd =
    if k < n then (g k).elim (bits v (wd * k) wd) (· % 2 ^ wd) else bits v (wd * k) wd := by
  induction n with
  | zero => rfl
  | succ n ih =>
    rw [foldl_range_succ, bits_putField, ih]
    by_cases hk : k = n
    · subst hk; simp
    · simp only [hk, if_false, show k < n + 1 ↔ k < n by omega]

end

/-! ## The highest source of an element (R182) -/

/-- A descending search finds the greatest number that passes. -/
theorem find?_reverse_range {p : Nat → Bool} {n i : Nat} (hi : i < n) (hp : p i = true)
    (hmax : ∀ j, j < n → p j = true → j ≤ i) : (List.range n).reverse.find? p = some i := by
  induction n with
  | zero => omega
  | succ n ih =>
    rw [List.range_succ, List.reverse_append, List.reverse_singleton, List.singleton_append, List.find?_cons]
    by_cases hin : i = n
    · rw [← hin, hp]
    · have hpn : p n = false := by
        by_contra h
        have := hmax n (by omega) (by simpa using h)
        omega
      rw [hpn]
      exact ih (by omega) (fun j hj => hmax j (by omega))

section
variable (a : Warp) (x : Alu)

/-- The element address that source element `i` names. -/
def xputTarget (i : Nat) : Nat := a.srcB x.b (fun _ => 0) (intWidth x.fmt) (i / 8) (i % 8) % 256

/-- Source element `i` is one of the register's, and Enabled. -/
def xputSends (i : Nat) : Bool :=
  decide (i % 8 < 64 / intWidth x.fmt) && a.enabled x.g x.vx.m (i / 8) (i % 8)

def xputValue (i : Nat) : Nat := subOf (a.opndV x.a (i / 8)) (intWidth x.fmt) (i % 8)

/-- Source element `i` is Enabled and names the element with address `t`. -/
def XputHits (t i : Nat) : Prop :=
  i < 256 ∧ i % 8 < 64 / intWidth x.fmt ∧ a.enabled x.g x.vx.m (i / 8) (i % 8) = true ∧
    a.srcB x.b (fun _ => 0) (intWidth x.fmt) (i / 8) (i % 8) % 256 = t

/-- The source element that destination element `t` takes. -/
def xputWinner (t : Nat) : Option Nat :=
  (List.range 256).reverse.find? (fun i => xputSends a x i && xputTarget a x i == t)

/-- What XPUT puts into element `k` of lane `l`, if anything. -/
def xputField (l k : Nat) : Option Nat :=
  ((xputWinner a x (8 * l + k)).map (xputValue a x)).or (if x.vx.z then some 0 else none)

/-- A lane's outcome of XPUT. -/
def xputOut (l : Nat) : LaneOut :=
  { val := BitVec.ofNat 64 ((List.range (64 / intWidth x.fmt)).foldl (putField (intWidth x.fmt) (xputField a x l))
      (a.rdV x.d l).toNat)
    rng := (a.lane l).rng }

def xputOuts : List LaneOut := lanes32.map (xputOut a x)

end

section
variable {a : Warp} {x : Alu} {l k : Nat}

theorem xputHits_iff {t i : Nat} :
    XputHits a x t i ↔ i < 256 ∧ (xputSends a x i && xputTarget a x i == t) = true := by
  simp only [XputHits, xputSends, xputTarget, Bool.and_eq_true, decide_eq_true_eq, beq_iff_eq, and_assoc]

theorem xputWinner_eq_some {t i : Nat} (hi : XputHits a x t i) (hmax : ∀ j, XputHits a x t j → j ≤ i) :
    xputWinner a x t = some i := by
  obtain ⟨h256, hp⟩ := xputHits_iff.mp hi
  exact find?_reverse_range h256 hp (fun j hj hpj => hmax j (xputHits_iff.mpr ⟨hj, hpj⟩))

theorem xputWinner_eq_none {t : Nat} (h : ∀ i, ¬ XputHits a x t i) : xputWinner a x t = none := by
  refine List.find?_eq_none.mpr (fun i hi hp => h i (xputHits_iff.mpr ⟨?_, hp⟩))
  simpa using hi

/-! ## XPUT (R182) -/

/-- The model lists the pairs of target and value and searches that list from its end. -/
theorem find?_xputPairs (t : Nat) :
    ((((List.range 256).filter (fun i => i % 8 < 64 / intWidth x.fmt && a.enabled x.g x.vx.m (i / 8) (i % 8))).map (fun i =>
      (a.srcB x.b (fun _ => 0) (intWidth x.fmt) (i / 8) (i % 8) % 256,
        subOf (a.opndV x.a (i / 8)) (intWidth x.fmt) (i % 8)))).reverse.find? (fun e => e.1 == t)).map (·.2) =
      (xputWinner a x t).map (xputValue a x) := by
  rw [← List.map_reverse, ← List.filter_reverse, List.find?_map, List.find?_filter, Option.map_map]
  simp only [xputWinner, xputSends, Bool.decide_and, Bool.decide_eq_true]
  rfl

theorem exec_xput (x : Alu) (s : State) : exec (.xput x) s = onWarp (.xput x) (xputVec x) s := rfl

theorem xputVec_eq (w : Nat) (s : State) : xputVec x w s = finishVec x false (xputOuts (s.warp w) x) w s := by
  refine congrArg (fun outs => finishVec x false outs w s) (List.map_congr_left (fun l _ => ?_))
  refine congrArg (fun v => ({ val := BitVec.ofNat 64 v, rng := ((s.warp w).lane l).rng } : LaneOut)) ?_
  refine List.foldl_ext _ _ _ (fun v k _ => ?_)
  unfold putField xputField
  beta_reduce
  rw [find?_xputPairs]
  cases (xputWinner (s.warp w) x (8 * l + k)).map (xputValue (s.warp w) x) <;> cases x.vx.z <;> rfl

theorem xputOuts_length : (xputOuts a x).length = 32 := by simp [xputOuts, lanes32]

theorem xputOuts_get (hl : l < 32) : (xputOuts a x)[l]? = some (xputOut a x l) := by simp [xputOuts, lanes32, hl]

theorem xputOuts_getD (hl : l < 32) : (xputOuts a x).getD l { val := 0, rng := 0 } = xputOut a x l := by
  rw [List.getD_eq_getElem?_getD, xputOuts_get hl, Option.getD_some]

/-- XPUT raises no flag, so it never faults. -/
theorem vecFault_xputOuts : vecFault a (xputOuts a x) = none :=
  vecFault_none _ _ (fun l hl _ o ho => by
    rw [← Option.some.inj ((xputOuts_get hl).symm.trans ho)]
    exact ⟨rfl, rfl, rfl, rfl⟩)

/-- Where nothing is raised, and the generator stays, a lane stays as it was. -/
theorem flaggedLane_quiet (v latch : Word) (la : Lane) :
    flaggedLane { val := v, latch := latch, rng := la.rng } true la = la := by
  have hraise : raiseFlags la.fflags {} = la.fflags := BitVec.or_zero
  have hnone : la.reported ||| 0 = la.reported := BitVec.or_zero
  simp only [flaggedLane, hraise, BitVec.and_not_self, hnone, ite_self]

/-- An element of a lane: what is put there, or what was. -/
theorem subOf_xputOut (hk : k < 64 / intWidth x.fmt) : subOf (xputOut a x l).val (intWidth x.fmt) k =
    (xputField a x l k).elim (subOf (a.rdV x.d l) (intWidth x.fmt) k) (· % 2 ^ intWidth x.fmt) := by
  unfold subOf xputOut
  rw [BitVec.toNat_ofNat, Nat.mod_eq_of_lt (putFields_lt (a.rdV x.d l).isLt le_rfl), bits_putFields, if_pos hk]

theorem subOf_xputOut_of_hit {i : Nat} (hk : k < 64 / intWidth x.fmt) (hi : XputHits a x (8 * l + k) i)
    (hmax : ∀ j, XputHits a x (8 * l + k) j → j ≤ i) :
    subOf (xputOut a x l).val (intWidth x.fmt) k = subOf (a.opndV x.a (i / 8)) (intWidth x.fmt) (i % 8) := by
  rw [subOf_xputOut hk, xputField, xputWinner_eq_some hi hmax]
  exact Nat.mod_eq_of_lt (bits_lt _ _ _)

theorem subOf_xputOut_of_no_hit (hk : k < 64 / intWidth x.fmt) (h : ∀ i, ¬ XputHits a x (8 * l + k) i) :
    subOf (xputOut a x l).val (intWidth x.fmt) k =
      if x.vx.z then 0 else subOf (a.rdV x.d l) (intWidth x.fmt) k := by
  rw [subOf_xputOut hk, xputField, xputWinner_eq_none h]
  cases x.vx.z
  · rfl
  · exact Nat.zero_mod _

/-- What an XPUT leaves of its warp (R182): the lanes of its destination, and nothing else. -/
theorem xput_completes {w : Nat} {s : State} (hi : Issues w (.xput x) s) (hnowb : x.nowb = false) :
    ∃ b, exec (.xput x) s = .next ((s.issued (.xput x) w).setWarp w b) ∧
      b = { s.atIssue (.xput x) w with v := b.v, lanes := b.lanes } ∧
      (∀ l, b.lane l = (s.atIssue (.xput x) w).lane l) ∧
      ∀ n l, l < 32 → b.rdV n l =
        if n = x.d then (xputOut (s.atIssue (.xput x) w) x l).val else (s.atIssue (.xput x) w).rdV n l := by
  obtain ⟨b, hend, hframe, hv, hlane, hlatch⟩ := finishVec_ok x false (xputOuts (s.atIssue (.xput x) w) x) w
    (s.issued (.xput x) w) xputOuts_length (.inr vecFault_xputOuts)
  rw [issued_warp] at hframe hv hlane hlatch
  rw [if_neg Bool.false_ne_true] at hlatch
  rw [hlatch] at hframe
  refine ⟨b, (exec_xput x s).trans (onWarp_ok hi ((xputVec_eq w _).trans hend)), hframe, fun l => ?_, fun n l hl => ?_⟩
  · rw [hlane l]
    split
    · rw [xputOuts_getD ‹_›]
      exact flaggedLane_quiet _ _ _
    · rfl
  · rw [hv n l hl, xputOuts_getD hl]
    simp only [hnowb, and_true]

end

/-- Settles O13: a picked element is one element function under `vecOp`, and XPUT's lanes are read element by element
through the winner of each. -/
theorem rearrangementResult : Obligations.RearrangementResult := by
  refine ⟨fun _ he x => vecOp_completes (exec_linearPick he x), fun _ he x => vecOp_completes (exec_lanePick he x),
    fun x => vecOp_completes (exec_xget x), fun x => vecOp_completes (exec_permt x),
    fun x => vecOp_completes (exec_permb x), ?_⟩
  intro x w s hi hnowb a wd hits
  obtain ⟨b, hexec, hframe, hlane, hv⟩ := xput_completes hi hnowb
  refine ⟨_, hexec, onlyWarp_issued s _ w b, ?_⟩
  rw [State.warp_setWarp_same]
  refine ⟨hframe, hlane, fun n l hl hn => by rw [hv n l hl, if_neg hn], fun l k hl hk => ?_⟩
  rw [hv x.d l hl, if_pos rfl]
  exact ⟨fun i => subOf_xputOut_of_hit hk, subOf_xputOut_of_no_hit hk⟩

end Machine
end Sys2Proof
end

section
/-!
PROOFS. What the ends of operations and of waits leave alone in every state: the other operations in flight, and which
cluster each block is in.
-/
namespace Sys2Proof
namespace Machine

/-- Operations in flight, and the cluster that each block is in, are as before. -/
structure KeepsPlaces (s t : State) : Prop where
  ops : t.ops = s.ops
  cluster : ∀ b, (t.block b).cluster = (s.block b).cluster

namespace KeepsPlaces
variable {s t u : State}

theorem refl (s : State) : KeepsPlaces s s := ⟨rfl, fun _ => rfl⟩

theorem trans (h : KeepsPlaces s t) (g : KeepsPlaces t u) : KeepsPlaces s u :=
  ⟨g.ops.trans h.ops, fun b => (g.cluster b).trans (h.cluster b)⟩

theorem of_eq (ho : t.ops = s.ops) (hb : t.blocks = s.blocks) : KeepsPlaces s t :=
  ⟨ho, fun b => by unfold State.block; rw [hb]⟩

theorem setBlock {b : Nat} {x : BlockRec} (h : x.cluster = (s.block b).cluster) : KeepsPlaces s (s.setBlock b x) := by
  refine ⟨rfl, fun k => ?_⟩
  by_cases hk : k = b
  · rw [hk, State.block_setBlock_same, h]
  · rw [State.block_setBlock_ne _ _ _ _ hk]

theorem ite {p : Prop} [Decidable p] {s t u : State} (ht : KeepsPlaces s t) (hu : KeepsPlaces s u) :
    KeepsPlaces s (if p then t else u) := by
  split
  · exact ht
  · exact hu

theorem foldl {α : Type} {f : State → α → State} {l : List α} (hf : ∀ t x, KeepsPlaces t (f t x)) (s : State) :
    KeepsPlaces s (l.foldl f s) :=
  List.foldlRecOn (motive := KeepsPlaces s) _ _ (.refl s) (fun t ht x _ => ht.trans (hf t x))

end KeepsPlaces

section
variable (s : State)

theorem State.keepsPlaces_setWarp (w : Nat) (x : Warp) : KeepsPlaces s (s.setWarp w x) := .of_eq rfl rfl

theorem State.keepsPlaces_report (w mask pc : Nat) : KeepsPlaces s (s.report w mask pc) := by
  fun_cases State.report s w mask pc
  · exact .refl s
  · exact .refl s
  · exact .of_eq rfl rfl

theorem State.keepsPlaces_exitLanes (w mask pc : Nat) : KeepsPlaces s (s.exitLanes w mask pc) :=
  (s.keepsPlaces_report _ _ _).trans (State.keepsPlaces_setWarp _ _ _)

theorem State.keepsPlaces_drain (w : Nat) : KeepsPlaces s (s.drain w) := by
  fun_cases State.drain s w
  · exact .refl s
  · exact s.keepsPlaces_exitLanes _ _ _

theorem State.keepsPlaces_writeSlots (w : Nat) : KeepsPlaces s (s.writeSlots w) := by
  fun_cases State.writeSlots s w
  · exact .of_eq rfl rfl
  · exact .refl s

theorem State.keepsPlaces_settleHalt (w : Nat) : KeepsPlaces s (s.settleHalt w) := by
  unfold State.settleHalt
  extract_lets wp flying b s1 s2
  have h1 : KeepsPlaces s s1 := .of_eq rfl rfl
  have h2 : KeepsPlaces s s2 := h1.trans (.ite (.refl s1) (.of_eq rfl rfl))
  exact .ite (h2.trans (.of_eq rfl rfl)) (.refl s)

theorem State.keepsPlaces_releaseWhere (c : Nat) (f : Nat → L1Line → Bool) : KeepsPlaces s (s.releaseWhere c f) := by
  rw [State.releaseWhere_frame]
  exact .of_eq rfl rfl

theorem State.keepsPlaces_waitRelease (w l : Nat) (x : Wait) : KeepsPlaces s (s.waitRelease w l x) := by
  fun_cases State.waitRelease s w l x
  · exact s.keepsPlaces_releaseWhere _ _
  · exact .refl s

theorem State.keepsPlaces_remember (x : Past) : KeepsPlaces s (s.remember x) := by
  rw [State.remember_frame]
  exact .of_eq rfl rfl

theorem State.keepsPlaces_writeScratch (b off : Nat) (bs : List Byte) : KeepsPlaces s (s.writeScratch b off bs) := by
  unfold State.writeScratch
  extract_lets x
  have h := s.keepsPlaces_remember { place := .scratch b off, data := x.scratch.readBytes bs.length off }
  exact .ite (.refl s) (.ite (.of_eq rfl rfl) (h.trans (.setBlock (h.cluster b).symm)))

theorem State.keepsPlaces_setTag (b off : Nat) (v : Bool) : KeepsPlaces s (s.setTag b off v) := by
  fun_cases State.setTag s b off v
  · exact .refl s
  · exact .of_eq rfl rfl
  · exact .setBlock rfl

theorem State.keepsPlaces_tagDo (i : Instr) (b off data : Nat) : KeepsPlaces s (s.tagDo i b off data).2 := by
  fun_cases State.tagDo s i b off data
  · exact s.keepsPlaces_setTag _ _ _
  · exact (s.keepsPlaces_writeScratch _ _ _).trans (State.keepsPlaces_setTag _ _ _ _)
  · exact (s.keepsPlaces_writeScratch _ _ _).trans (State.keepsPlaces_setTag _ _ _ _)
  · exact .refl s

theorem State.keepsPlaces_serveMccs (b off n : Nat) : KeepsPlaces s (s.serveMccs b off n) := by
  fun_cases State.serveMccs s b off n
  refine .foldl (fun t c => ?_) s
  split
  · exact .ite (.of_eq rfl rfl) (.ite (.of_eq rfl rfl) (.refl t))
  · exact .refl t

theorem State.keepsPlaces_serveWords (b off n : Nat) : KeepsPlaces s (s.serveWords b off n) := by
  unfold State.serveWords
  refine (s.keepsPlaces_serveMccs b off n).trans (.foldl (fun t c => .ite (.refl t) ?_) _)
  split
  · refine .ite ?_ (.ite ?_ (.refl t))
    · exact t.keepsPlaces_setWarp _ _
    · exact (t.keepsPlaces_setWarp _ _).trans (State.keepsPlaces_report _ _ _ _)
  · exact .refl t

theorem State.keepsPlaces_serveTag (fuel b off : Nat) : KeepsPlaces s (s.serveTag fuel b off) := by
  induction fuel generalizing s with
  | zero => exact .refl s
  | succ fuel ih =>
    unfold State.serveTag
    dsimp only
    split
    · exact .refl s
    · refine KeepsPlaces.trans ?_ (ih _)
      refine KeepsPlaces.trans ?_ (State.keepsPlaces_serveWords _ _ _ _)
      exact (s.keepsPlaces_tagDo _ _ _ _).trans (.of_eq rfl rfl)

theorem State.keepsPlaces_joinWaits (w : Nat) : KeepsPlaces s (s.joinWaits w) := by
  fun_cases State.joinWaits s w
  refine .foldl (fun t l => .ite ?_ (.refl t)) s
  have h := (t.keepsPlaces_waitRelease w l ((t.warp w).lane l).wait)
  split
  · refine .ite (KeepsPlaces.trans ?_ (State.keepsPlaces_serveTag _ _ _ _))
      (KeepsPlaces.trans ?_ (State.keepsPlaces_serveWords _ _ _ _))
    · exact h.trans (.of_eq rfl rfl)
    · exact h.trans (.of_eq rfl rfl)
  · exact h.trans (.of_eq rfl rfl)

/-- An operation that leaves is gone, and nothing else of operations and memberships changes. -/
theorem State.keepsPlaces_dropOp (k : Nat) : KeepsPlaces (s.setOp k {}) (s.dropOp k) := by
  unfold State.dropOp
  extract_lets w s1 held w1 s2
  have h2 : KeepsPlaces s1 s2 := .ite ((s1.keepsPlaces_setWarp w _).trans (State.keepsPlaces_writeSlots _ w)) (.refl s1)
  have h3 := (h2.trans (s2.keepsPlaces_drain w)).trans (State.keepsPlaces_joinWaits _ w)
  exact .ite (.refl _) (h3.trans (State.keepsPlaces_settleHalt _ w))

end

theorem State.op_dropOp (s : State) (k : Nat) : (s.dropOp k).op k = {} := by
  unfold State.op
  rw [(s.keepsPlaces_dropOp k).ops]
  exact Table.get_set_same _ _ _ _

end Machine
end Sys2Proof
end

section
/-!
PROOFS. The statement on clusters (R215–R218): the number that a die gives a new cluster, what CJOIN finds and answers, and
what CLEAVE leaves.
-/
namespace Sys2Proof
namespace Machine

/-! ## Numbers of clusters that are free -/

theorem firstUnused_lt (used : List Nat) (fuel : Nat) {n : Nat} (h : n < 65535) : firstUnused used fuel n < 65535 := by
  induction fuel generalizing n with
  | zero => exact h
  | succ fuel ih =>
    unfold firstUnused
    split
    · exact ih (Nat.mod_lt _ (by decide))
    · exact h

/-- A search that ends at a used number has found every number on its way used. -/
theorem mem_of_firstUnused_mem {used : List Nat} {fuel n : Nat} (hn : n < 65535) (h : firstUnused used fuel n ∈ used)
    {j : Nat} (hj : j < fuel) : (n + j) % 65535 ∈ used := by
  induction fuel generalizing n j with
  | zero => omega
  | succ fuel ih =>
    unfold firstUnused at h
    split at h
    · next hmem =>
      cases j with
      | zero => rw [Nat.add_zero, Nat.mod_eq_of_lt hn]; exact List.contains_iff_mem.mp hmem
      | succ j =>
        have := ih (Nat.mod_lt _ (by decide)) h (j := j) (by omega)
        rwa [Nat.mod_add_mod, Nat.add_assoc, Nat.add_comm 1 j] at this
    · next hmem => exact absurd (List.contains_iff_mem.mpr h) hmem

/-- Where fewer than 65,535 numbers are used, one more try than there are of them finds a free one. -/
theorem firstUnused_notMem {used : List Nat} (hu : used.length < 65535) {n : Nat} (hn : n < 65535) :
    firstUnused used (used.length + 1) n ∉ used := by
  intro h
  have hnodup : ((List.range (used.length + 1)).map (fun j => (n + j) % 65535)).Nodup := by
    refine List.Nodup.map_on (fun i hi j hj he => ?_) List.nodup_range
    have hi := List.mem_range.mp hi
    have hj := List.mem_range.mp hj
    omega
  have hsub : (List.range (used.length + 1)).map (fun j => (n + j) % 65535) ⊆ used := fun k hk => by
    obtain ⟨j, hj, rfl⟩ := List.mem_map.mp hk
    exact mem_of_firstUnused_mem hn h (List.mem_range.mp hj)
  have := (List.subperm_of_subset hnodup hsub).length_le
  simp at this

/-! ## The cluster of a grid and key on a die (R215) -/

section
variable {s : State} {die grid key : Nat}

/-- A live cluster stands among the cells. -/
theorem State.mem_of_cluster_live {c : Nat} (h : (s.cluster c).live = true) : (c, s.cluster c) ∈ s.clusters.cells := by
  unfold State.cluster Table.get at h ⊢
  split at h
  · next hv => exact Table.mem_of_find hv
  · exact absurd h Bool.false_ne_true

/-- The numbers of a die's live clusters. -/
def State.usedNumbers (s : State) (die : Nat) : List Nat :=
  (s.clusters.cells.filter (fun c => c.2.live && c.1 / 65536 = die)).map (fun c => c.1 % 65536)

/-- The number that a die gives its next cluster. -/
def State.newNumber (s : State) (die : Nat) : Nat :=
  firstUnused (s.usedNumbers die) ((s.usedNumbers die).length + 1) (Config.freeValue s.free % 65535)

theorem State.newNumber_lt : s.newNumber die < 65535 := firstUnused_lt _ _ (Nat.mod_lt _ (by decide))

/-- A die with fewer than 65,535 clusters has no live one under its next number. -/
theorem State.newNumber_free
    (hroom : (s.clusters.cells.filter (fun c => c.2.live && c.1 / 65536 == die)).length < 65535) :
    (s.cluster (die * 65536 + s.newNumber die)).live = false := by
  have hlen : (s.usedNumbers die).length < 65535 := by
    rw [usedNumbers, List.length_map]
    exact hroom
  have hfree : s.newNumber die ∉ s.usedNumbers die := firstUnused_notMem hlen (Nat.mod_lt _ (by decide))
  have hlt : s.newNumber die < 65535 := newNumber_lt
  refine Bool.eq_false_iff.mpr (fun hlive => hfree (List.mem_map.mpr
    ⟨_, List.mem_filter.mpr ⟨mem_of_cluster_live hlive, ?_⟩, ?_⟩))
  · simp only [hlive, Bool.true_and, decide_eq_true_eq]
    omega
  · dsimp only
    omega

/-- Without a cluster of its grid and key, the die gets one, empty, under a number that no live cluster has. -/
theorem State.findCluster_absent
    (hnone : ∀ c ∈ s.clusters.cells, ¬ (c.2.live = true ∧ c.1 / 65536 = die ∧ c.2.grid = grid ∧ c.2.key = key))
    (hroom : (s.clusters.cells.filter (fun c => c.2.live && c.1 / 65536 == die)).length < 65535) :
    ∃ c t, s.findCluster die grid key = (c, t) ∧ c / 65536 = die ∧ c % 65536 < 65535 ∧ (s.cluster c).live = false ∧
      t.blocks = s.blocks ∧ t.cluster c = { live := true, grid := grid, key := key } := by
  have hfind : (s.clusters.cells.filter (fun c => c.2.live && c.1 / 65536 = die)).find?
      (fun c => c.2.grid = grid && c.2.key = key) = none := by
    refine List.find?_eq_none.mpr (fun c hc hp => ?_)
    rw [List.mem_filter, Bool.and_eq_true, decide_eq_true_eq] at hc
    simp only [Bool.and_eq_true, decide_eq_true_eq] at hp
    obtain ⟨hmem, hlive, hdie⟩ := hc
    exact hnone c hmem ⟨hlive, hdie, hp⟩
  have hnew : s.findCluster die grid key = (die * 65536 + s.newNumber die, { s.draw with
      clusters := s.clusters.set {} (die * 65536 + s.newNumber die) { live := true, grid := grid, key := key } }) := by
    unfold State.findCluster
    simp only [hfind]
    rfl
  have hlt : s.newNumber die < 65535 := newNumber_lt
  exact ⟨_, _, hnew, by omega, by omega, newNumber_free hroom, rfl, Table.get_set_same _ _ _ _⟩

/-- The one cluster of its die, grid and key is found. -/
theorem State.findCluster_present {c : Nat} (hlive : (s.cluster c).live = true) (hdie : c / 65536 = die)
    (hgrid : (s.cluster c).grid = grid) (hkey : (s.cluster c).key = key)
    (hone : ∀ d ∈ s.clusters.cells, d.2.live = true → d.1 / 65536 = die → d.2.grid = grid → d.2.key = key → d.1 = c) :
    s.findCluster die grid key = (c, s) := by
  unfold State.findCluster
  dsimp only
  split
  · next d hd =>
    have hp := List.find?_some hd
    have hmem := List.mem_of_find?_eq_some hd
    rw [List.mem_filter, Bool.and_eq_true, decide_eq_true_eq] at hmem
    simp only [Bool.and_eq_true, decide_eq_true_eq] at hp
    obtain ⟨hcell, hl, hdie'⟩ := hmem
    rw [hone d hcell hl hdie' hp.1 hp.2]
  · next hnone =>
    refine absurd ?_ (List.find?_eq_none.mp hnone (c, s.cluster c) (List.mem_filter.mpr ⟨mem_of_cluster_live hlive, ?_⟩))
    · simp [hgrid, hkey]
    · simp [hlive, hdie]

end

/-! ## CJOIN (R216) -/

section
variable {s : State} {b key : Nat}

/-- A block that has joined gets its place again. -/
theorem State.cjoin_member {c : Nat} (h : (s.block b).cluster = some c) :
    s.cjoin b key = (if (s.cluster c).key = key then 1 else 3, c, (s.block b).member, s) := by
  unfold State.cjoin
  simp only [h]

/-- A block of no cluster joins the one that is found at its lowest free index. -/
theorem State.cjoin_joins {c i : Nat} {s1 : State} (h : (s.block b).cluster = none)
    (hfind : s.findCluster ((s.block b).core / 16) (s.block b).grid key = (c, s1)) (hi : i < 16)
    (hfree : (s1.cluster c).members.get none i = none) (hlow : ∀ j, j < i → (s1.cluster c).members.get none j ≠ none) :
    s.cjoin b key = (0, c, i, s1.addMember c b i) := by
  have hidx : (List.range 16).find? (fun i => ((s1.cluster c).members.get none i).isNone) = some i := by
    refine List.find?_range_eq_some.mpr ⟨by simp [hfree], List.mem_range.mpr hi, fun j hj => ?_⟩
    simpa using Option.isSome_iff_ne_none.mpr (hlow j hj)
  unfold State.cjoin
  simp only [h, hfind, hidx]

theorem State.cluster_addMember (c i : Nat) : (s.addMember c b i).cluster c = { s.cluster c with
    members := (s.cluster c).members.set none i (some b), cgen := ((s.cluster c).cgen + 1) % 2 ^ 32 } :=
  Table.get_set_same _ _ _ _

theorem State.block_addMember (c i k : Nat) : (s.addMember c b i).block k =
    if k = b then { s.block b with cluster := some c, member := i } else s.block k := by
  split
  · next h =>
    rw [h]
    exact State.block_setBlock_same _ _ _
  · next h => exact State.block_setBlock_ne _ _ _ _ h

/-- What CJOIN may change of the module: blocks and clusters, and the free values drawn. -/
def State.Rejoins (s t : State) : Prop := t = { s with blocks := t.blocks, clusters := t.clusters, free := t.free }

theorem State.findCluster_rejoins (die grid : Nat) : s.Rejoins (s.findCluster die grid key).2 := by
  unfold State.findCluster State.Rejoins
  dsimp only
  split
  · rfl
  · rfl

theorem State.Rejoins.addMember {t : State} (h : s.Rejoins t) (c i : Nat) : s.Rejoins (t.addMember c b i) := by
  unfold State.Rejoins at h ⊢
  rw [h]
  rfl

theorem State.cjoin_rejoins : s.Rejoins (s.cjoin b key).2.2.2 := by
  unfold State.cjoin
  dsimp only
  split
  · exact rfl
  · have h := s.findCluster_rejoins (key := key) ((s.block b).core / 16) (s.block b).grid
    split
    · exact h
    · exact h.addMember _ _

theorem State.warp_issued_ne {i : Instr} {w u : Nat} (h : u ≠ w) : (s.issued i w).warp u = s.warp u := by
  rw [issued_eq, State.warp_setWarp_ne _ _ _ _ h]

theorem State.block_congr {t : State} (h : t.blocks = s.blocks) (k : Nat) : t.block k = s.block k := by
  unfold State.block
  rw [h]

theorem State.cluster_congr {t : State} (h : t.clusters = s.clusters) (c : Nat) : t.cluster c = s.cluster c := by
  unfold State.cluster
  rw [h]

/-- CJOIN's answer (R216): status, place and what the cluster is then. -/
def Cluster.answer (cl : Cluster) (st i : Nat) : Nat :=
  cl.cgen * 2 ^ 32 + st * 2 ^ 24 + cl.indexes.length * 2 ^ 16 + cl.span * 2 ^ 8 + i

theorem exec_cjoin (x : R3) (s : State) : exec (.cjoin x) s = onWarp (.cjoin x) (uniformReal x.g (cjoinWarp x)) s := rfl

theorem cjoinWarp_eq {x : R3} {w st c i : Nat} {s1 : State}
    (h : s.cjoin (s.warp w).block ((s.warp w).rdS x.a).toNat = (st, c, i, s1)) :
    cjoinWarp x w s = .ok (s1.setWarp w ((s1.warp w).wrS x.d (BitVec.ofNat 64 ((s1.cluster c).answer st i)))) := by
  unfold cjoinWarp
  simp only [h]
  rfl

/-- A CJOIN that has found its place answers it in its register; of the rest it changes blocks and clusters alone. -/
theorem cjoin_answers {x : R3} {w st c i : Nat} {s s1 : State} (hi : Issues w (.cjoin x) s)
    (ha : (s.atIssue (.cjoin x) w).activeReal x.g ≠ 0)
    (h : (s.issued (.cjoin x) w).cjoin (s.atIssue (.cjoin x) w).block ((s.atIssue (.cjoin x) w).rdS x.a).toNat =
      (st, c, i, s1)) :
    ∃ t, exec (.cjoin x) s = .next t ∧ t.blocks = s1.blocks ∧ t.clusters = s1.clusters ∧
      OnlyWarp w { s with blocks := t.blocks, clusters := t.clusters, free := t.free } t ∧
      t.warp w = { s.atIssue (.cjoin x) w with s := (t.warp w).s } ∧
      KeepsRegs [⟨.s, x.d⟩] (s.atIssue (.cjoin x) w) (t.warp w) ∧
      (x.d ≠ 0 → (t.warp w).rdS x.d = BitVec.ofNat 64 ((s1.cluster c).answer st i)) := by
  have hs : (s.issued (.cjoin x) w).Rejoins s1 := by
    have hr := State.cjoin_rejoins (s := s.issued (.cjoin x) w) (b := (s.atIssue (.cjoin x) w).block)
      (key := ((s.atIssue (.cjoin x) w).rdS x.a).toNat)
    rwa [h] at hr
  have hw : s1.warp w = s.atIssue (.cjoin x) w := by rw [hs]; rfl
  refine ⟨_, (exec_cjoin x s).trans (onWarp_ok hi ((uniformReal_active _ ha).trans (cjoinWarp_eq h))), rfl, rfl, ?_, ?_⟩
  · refine ⟨by rw [hs]; rfl, fun u hu => ?_⟩
    rw [State.warp_setWarp_ne _ _ _ _ hu, hs]
    exact State.warp_issued_ne hu
  · rw [State.warp_setWarp_same, hw]
    refine ⟨wrS_eq _ _ _, ⟨fun n k _ _ => ?_, fun n hn => ?_, fun n _ => ?_, fun n _ => ?_⟩, fun hd => ?_⟩
    · rw [wrS_eq]; rfl
    · rw [rdS_wrS, if_neg (fun h => hn (by simp [h.1]))]
    · rw [wrS_eq]; rfl
    · rw [wrS_eq]; rfl
    · rw [rdS_wrS, if_pos ⟨rfl, hd⟩]

end

/-! ## CLEAVE (R217) -/

theorem Cluster.mem_indexes {cl : Cluster} {i : Nat} : i ∈ cl.indexes ↔ i < 16 ∧ cl.members.get none i ≠ none := by
  simp [Cluster.indexes, Option.isSome_iff_ne_none]

/-- A cluster without the member at an index. -/
def Cluster.without (cl : Cluster) (i : Nat) : Cluster :=
  { cl with members := cl.members.set none i none, cgen := (cl.cgen + 1) % 2 ^ 32 }

theorem Cluster.mem_indexes_without {cl : Cluster} {i j : Nat} :
    j ∈ (cl.without i).indexes ↔ j < 16 ∧ j ≠ i ∧ cl.members.get none j ≠ none := by
  have : (cl.without i).members.get none j = if j = i then none else cl.members.get none j := Table.get_set _ _ _ _ _
  rw [mem_indexes, this]
  by_cases h : j = i <;> simp [h]

section
variable {s : State} {b : Nat}

/-- Where nothing waits, revoking a scratchpad only marks its block. -/
theorem State.revoke_quiet (h : Claims.NoWaiters s) : s.revoke b = s.setBlock b { s.block b with leaving := true } := by
  have hq : Claims.NoWaiters (s.setBlock b { s.block b with leaving := true }) := h.of_eq rfl rfl
  unfold State.revoke
  dsimp only
  rw [State.waiters_nil hq]
  rfl

theorem State.leaveCluster_none (h : (s.block b).cluster = none) : s.leaveCluster b = s := by
  unfold State.leaveCluster
  simp only [h]

theorem State.leaveCluster_member {c : Nat} (h : (s.block b).cluster = some c) : s.leaveCluster b =
    { s with clusters := s.clusters.set {} c (if ((s.cluster c).without (s.block b).member).indexes.isEmpty then {}
        else (s.cluster c).without (s.block b).member) }.setBlock b
      { s.block b with cluster := none, member := 0, leaving := false } := by
  unfold State.leaveCluster
  simp only [h]
  rfl

theorem State.block_leaveCluster (s : State) (b : Nat) : ((s.leaveCluster b).block b).cluster = none := by
  cases h : (s.block b).cluster with
  | none => rw [leaveCluster_none h, h]
  | some c => rw [leaveCluster_member h, block_setBlock_same]

/-- Where nothing is in flight, nothing crosses the border of a scratchpad. -/
theorem State.cleaveFree_idle (h : ∀ o ∈ s.ops.cells, o.2.st = .none) (seq : Nat) : s.cleaveFree b seq = true :=
  List.all_eq_true.mpr (fun c hc => by simp [h c hc])

theorem exec_cleave (x : R3) (s : State) : exec (.cleave x) s = onWarp (.cleave x) (uniformReal x.g (cleaveWarp x)) s := rfl

theorem cleaveWarp_alone {x : R3} {w : Nat} (h : (s.block (s.warp w).block).cluster = none) :
    cleaveWarp x w s = .ok s := by
  unfold cleaveWarp
  simp [h]

/-- Block `b` has left cluster `c` (R217 step 4): its index is free, and the cluster is gone if it was the last member. -/
structure Leaves (s t : State) (b c : Nat) : Prop where
  frame : t = { s with blocks := t.blocks, clusters := t.clusters }
  block : t.block b = { s.block b with cluster := none, member := 0, leaving := false }
  blocks : ∀ k, k ≠ b → t.block k = s.block k
  clusters : ∀ d, d ≠ c → t.cluster d = s.cluster d
  remains : (∃ i, i < 16 ∧ i ≠ (s.block b).member ∧ (s.cluster c).members.get none i ≠ none) →
    t.cluster c = (s.cluster c).without (s.block b).member
  ends : (∀ i, i < 16 → i ≠ (s.block b).member → (s.cluster c).members.get none i = none) → t.cluster c = {}

theorem State.leaves_revoked {c : Nat} (h : (s.block b).cluster = some c) (hq : Claims.NoWaiters s) :
    Leaves s ((s.revoke b).leaveCluster b) b c := by
  rw [revoke_quiet hq, leaveCluster_member (by rw [block_setBlock_same]; exact h), block_setBlock_same]
  refine ⟨rfl, block_setBlock_same _ _ _, fun k hk => ?_, fun d hd => Table.get_set_ne _ _ _ _ _ hd, fun hsome => ?_,
    fun hlast => ?_⟩
  · exact (block_setBlock_ne _ _ _ _ hk).trans (block_setBlock_ne _ _ _ _ hk)
  · obtain ⟨i, hi⟩ := hsome
    exact (Table.get_set_same _ _ _ _).trans (if_neg (fun hempty =>
      List.ne_nil_of_mem (Cluster.mem_indexes_without.mpr hi) (List.isEmpty_iff.mp hempty)))
  · refine (Table.get_set_same _ _ _ _).trans (if_pos (List.isEmpty_iff.mpr (List.eq_nil_iff_forall_not_mem.mpr ?_)))
    intro i hi
    obtain ⟨hi16, hne, hi⟩ := Cluster.mem_indexes_without.mp hi
    exact hi (hlast i hi16 hne)

/-- A block of a cluster leaves it as its CLEAVE issues, where nothing waits and nothing is in flight. -/
theorem cleaveWarp_leaves {x : R3} {w c : Nat} (hc : (s.block (s.warp w).block).cluster = some c)
    (hg : (s.block (s.warp w).block).gang = none) (hq : Claims.NoWaiters s) (hidle : ∀ o ∈ s.ops.cells, o.2.st = .none) :
    cleaveWarp x w s = .ok ((s.revoke (s.warp w).block).leaveCluster (s.warp w).block) := by
  unfold cleaveWarp
  extract_lets b s1 o
  have hs1 : s1 = s.setBlock b { s.block b with leaving := true } := State.revoke_quiet hq
  have hops : s1.ops = s.ops := by rw [hs1]; rfl
  rw [if_neg (by simp [b, hc, hg]), if_pos (State.cleaveFree_idle (by rw [hops]; exact hidle) _)]

/-- A CLEAVE of such a block, as it issues. -/
theorem exec_cleave_leaves {x : R3} {w c : Nat} (hi : Issues w (.cleave x) s)
    (ha : (s.atIssue (.cleave x) w).activeReal x.g ≠ 0)
    (hc : (s.block (s.atIssue (.cleave x) w).block).cluster = some c)
    (hg : (s.block (s.atIssue (.cleave x) w).block).gang = none) (hq : Claims.NoWaiters s)
    (hidle : ∀ o ∈ s.ops.cells, o.2.st = .none) :
    ∃ t, exec (.cleave x) s = .next t ∧ Leaves (s.issued (.cleave x) w) t (s.atIssue (.cleave x) w).block c :=
  ⟨_, (exec_cleave x s).trans (onWarp_ok hi ((uniformReal_active _ ha).trans
    (cleaveWarp_leaves (s := s.issued (.cleave x) w) hc hg (hq.issued _ w) hidle))),
    State.leaves_revoked (s := s.issued (.cleave x) w) hc (hq.issued _ w)⟩

end

/-- A CLEAVE that nothing holds any longer performs. -/
theorem exec_performed_cleave {s : State} {k lanes : Nat} {ext : List Nat} {x : R3} (hst : (s.op k).st = .flying)
    (hi : (s.op k).instr = some (.cleave x)) (hfree : s.cleaveFree (s.op k).block (s.op k).seq = true) :
    exec (.memoryOpPerformed k lanes ext) s = .next ((s.leaveCluster (s.op k).block).dropOp k) := by
  have hii : (s.op k).i = .cleave x := by rw [Op.i, hi]; rfl
  have hexec : exec (.memoryOpPerformed k lanes ext) s = execMemoryOpPerformed k lanes ext s := rfl
  rw [hexec, execMemoryOpPerformed]
  simp only [hii]
  rw [State.opPerformed]
  simp only [hii, hst, hfree]
  rfl

end Machine
end Sys2Proof

open Sys2Proof Sys2Proof.Machine

/-- Settles O39: what CJOIN finds (`State.findCluster_absent`, `State.findCluster_present`) and answers (`cjoin_answers`);
CLEAVE leaves at once where nothing waits (`State.leaves_revoked`), or as an operation, whose end keeps who is in which cluster
(`State.keepsPlaces_dropOp`). -/
theorem clusters : Obligations.Clusters := by
  refine ⟨?_, ?_, ?_⟩
  · intro w s x hi a b key answer ha
    refine ⟨fun c hc => ?_, fun hc hnone hroom => ?_, fun c i hc hlive hdie hgrid hkey hone hi16 hfree hlow => ?_⟩
    · obtain ⟨t, hexec, hblocks, hclusters, hanswer⟩ :=
        cjoin_answers hi ha (State.cjoin_member (s := s.issued (.cjoin x) w) hc)
      exact ⟨t, hexec, hblocks, hclusters, hanswer⟩
    · obtain ⟨c, r, hfind, hdie, hlt, hdead, hold, hnew⟩ :=
        State.findCluster_absent (s := s.issued (.cjoin x) w) (key := key) hnone hroom
      have hj := State.cjoin_joins (s := s.issued (.cjoin x) w) (i := 0) hc hfind (by decide) (by rw [hnew]; rfl) nofun
      obtain ⟨t, hexec, hblocks, hclusters, hanswer⟩ := cjoin_answers hi ha hj
      have hcluster := (State.cluster_congr hclusters c).trans (State.cluster_addMember c 0)
      have hblock := fun k => (State.block_congr hblocks k).trans (State.block_addMember c 0 k)
      rw [hnew] at hcluster
      rw [← State.cluster_congr hclusters] at hanswer
      simp only [State.block_congr hold] at hblock
      exact ⟨t, c, hexec, hdie, hlt, hdead, hcluster, (hblock _).trans (if_pos rfl), fun k hk => (hblock k).trans (if_neg hk),
        hanswer⟩
    · have hj := State.cjoin_joins (s := s.issued (.cjoin x) w) hc (State.findCluster_present hlive hdie hgrid hkey hone) hi16
        hfree hlow
      obtain ⟨t, hexec, hblocks, hclusters, hanswer⟩ := cjoin_answers hi ha hj
      have hcluster := (State.cluster_congr hclusters c).trans (State.cluster_addMember c i)
      have hblock := fun k => (State.block_congr hblocks k).trans (State.block_addMember c i k)
      rw [← State.cluster_congr hclusters] at hanswer
      refine ⟨t, hexec, (hblock _).trans (if_pos rfl), fun k hk => (hblock k).trans (if_neg hk), ?_, fun j hj => ?_, ?_, hanswer⟩
      · rw [hcluster]; exact Table.get_set_same _ _ _ _
      · rw [hcluster]; exact Table.get_set_ne _ _ _ _ _ hj
      · rw [hcluster]; rfl
  · intro w s x hi a b ha
    refine ⟨fun hc => ?_, fun c hc hg hq hidle => ?_⟩
    · exact (exec_cleave x s).trans (onWarp_ok hi ((uniformReal_active _ ha).trans
        (cleaveWarp_alone (s := s.issued (.cleave x) w) hc)))
    · obtain ⟨t, hexec, hframe, hblock, hblocks, hclusters, hremains, hends⟩ := exec_cleave_leaves hi ha hc hg hq hidle
      have hwarps : ∀ u, t.warp u = (s.issued (.cleave x) w).warp u := fun u => by rw [hframe]; rfl
      refine ⟨t, hexec, ⟨by rw [hframe]; rfl, fun u hu => (hwarps u).trans (State.warp_issued_ne hu)⟩, hwarps w, hblock,
        hblocks, hclusters, fun hsome => ?_, hends⟩
      rw [hremains hsome]
      exact ⟨Table.get_set_same _ _ _ _, fun i hi => Table.get_set_ne _ _ _ _ _ hi, rfl⟩
  · intro s k lanes ext x o hst hi hfree
    refine ⟨_, exec_performed_cleave hst hi hfree, State.op_dropOp _ k, ?_⟩
    exact ((State.keepsPlaces_dropOp _ k).cluster _).trans (s.block_leaveCluster _)
end

section
/-!
PROOFS. The statement on the issue of copies (R243–R245, R248, R250): what the packed operands are checked for, the operation
that enters the engine, and a CPYC without a line, which is performed as it issues.
-/
namespace Sys2Proof
namespace Machine

/-! ## The end of an operation of a warp in which nothing is parked -/

section
variable {s : State} {w k : Nat}

theorem State.settleHalt_warp (s : State) (w : Nat) : ∃ d, (s.settleHalt w).warp w = { s.warp w with reportDue := d } := by
  unfold settleHalt
  extract_lets wp flying b s1 s2
  have h1 : s1.warp w = { s.warp w with reportDue := false } := State.warp_setWarp_same _ _ _
  have h2 : s2.warp w = s1.warp w := by
    simp only [s2]
    split <;> rfl
  split
  · exact ⟨false, h2.trans h1⟩
  · exact ⟨_, rfl⟩

theorem State.warp_writeSlots (s : State) (w u : Nat) : (s.writeSlots w).warp u = s.warp u := by
  unfold writeSlots
  extract_lets wp b
  split <;> rfl

theorem State.dropOp_rested (hw : (s.op k).warp = w) (ho : (s.op k).orphan = false)
    (hp : ∀ l, l < 32 → ((s.warp w).lane l).st.isParked = false) :
    ∃ r d, (s.dropOp k).warp w = { s.warp w with replays := r, reportDue := d } := by
  subst hw
  unfold dropOp
  extract_lets w s1 held w1 s2
  rw [if_neg (by simp [ho])]
  obtain ⟨r, hr⟩ : ∃ r, s2.warp w = { s.warp w with replays := r } := by
    simp only [s2]
    split
    · exact ⟨_, (State.warp_writeSlots _ _ _).trans (State.warp_setWarp_same _ _ _)⟩
    · exact ⟨_, rfl⟩
  have hlane : ∀ l, l < 32 → ((s2.warp w).lane l).st.isParked = false := fun l hl => by
    rw [hr]
    exact hp l hl
  have hdrain : s2.drain w = s2 := drain_quiet (fun l hl hst => by
    have := hlane l hl
    rw [hst] at this
    exact absurd this (by decide))
  rw [hdrain, joinWaits_quiet (fun l hl hst => by
    have := hlane l hl
    rw [hst] at this
    exact absurd this (by decide))]
  obtain ⟨d, hd⟩ := s2.settleHalt_warp w
  exact ⟨r, d, by rw [hd, hr]⟩

theorem State.op_finishOp (s : State) (k : Nat) : (s.finishOp k).op k = {} := by
  unfold finishOp
  extract_lets o wp w1 w2
  split
  · exact State.op_setOp_same _ _ _
  · exact State.op_dropOp _ _

/-- An operation without a destination and without registers to echo leaves of its warp its completion counts. -/
theorem State.finishOp_rested (hw : (s.op k).warp = w) (ho : (s.op k).orphan = false)
    (hun : (s.op k).i.uncounted = false) (hb : (s.warp w).bindOp (s.op k) = s.warp w)
    (hp : ∀ l, l < 32 → ((s.warp w).lane l).st.isParked = false) :
    ∃ r d, (s.finishOp k).warp w = { (s.warp w).completes (s.op k) with replays := r, reportDue := d } := by
  have hfinish : s.finishOp k = ((s.setWarp w ((s.warp w).completes (s.op k))).echoRegs w
      (if (s.op k).hset then [] else (s.op k).i.writes .vector)).dropOp k := by
    subst hw
    simp only [finishOp, ho, hun, Bool.false_eq_true, if_false]
    rfl
  generalize (if (s.op k).hset then [] else (s.op k).i.writes .vector) = regs at hfinish
  have hop := State.op_echoRegs (s.setWarp w ((s.warp w).completes (s.op k))) w regs k
  have hwarp : ((s.setWarp w ((s.warp w).completes (s.op k))).echoRegs w regs).warp w = (s.warp w).completes (s.op k) := by
    rw [State.echoRegs_frame]
    exact State.warp_setWarp_same _ _ _
  have hlanes : ∀ l, ((s.warp w).completes (s.op k)).lane l = (s.warp w).lane l := fun l => by
    rw [Warp.completes, Warp.setStreams_eq, hb]
    rfl
  generalize (s.setWarp w ((s.warp w).completes (s.op k))).echoRegs w regs = e at *
  rw [State.op_setWarp] at hop
  obtain ⟨r, d, hdrop⟩ := State.dropOp_rested (s := e) (k := k) (w := w) (by rw [hop, hw]) (by rw [hop, ho])
    (fun l hl => by rw [hwarp, hlanes]; exact hp l hl)
  exact ⟨r, d, by rw [hfinish, hdrop, hwarp]⟩

end

/-- Streams of which one has been issued to and completed, in the threads of a mask. -/
theorem countedBoth_of_streams {a b : Warp} {mask strm : Nat} (hs : strm < 8)
    (h : ∀ hset, b.streams hset = if hset = a.usesHandlerStreams then ((a.streams hset).issue mask strm).complete mask strm
      else a.streams hset) : Claims.CountedBoth a b mask strm := by
  intro hset l st hl hst
  rw [h]
  by_cases hh : hset = a.usesHandlerStreams
  · subst hh
    simp [Streams.issuedOf_issue _ _ hs hl hst, Streams.doneOf_complete _ _ hs hl hst, Warp.usesHandlerStreams]
  · have hm : ¬ hset = (a.mode != .normal) := hh
    simp [hh, hm]

/-- A warp that has issued an operation which is performed at once. -/
theorem Warp.counted_at_once {a b c : Warp} {hset : Bool} {mask strm : Nat} {r : List Nat} {d : Bool} (hs : strm < 8)
    (hh : hset = a.usesHandlerStreams)
    (hc : c = a.setStreams hset ((a.streams hset).issue mask strm))
    (h : b = { c.setStreams hset ((c.streams hset).complete mask strm) with replays := r, reportDue := d }) :
    KeepsRegs [] a b ∧ Claims.CountedBoth a b mask strm := by
  subst hc
  refine ⟨?_, countedBoth_of_streams hs (fun g => ?_)⟩
  · rw [h]
    cases hset
    iterate 2 exact ⟨fun _ _ _ _ => rfl, fun _ _ => rfl, fun _ _ => rfl, fun _ _ => rfl⟩
  · rw [h, ← hh]
    cases hset <;> cases g
    iterate 4 rfl

/-! ## A copy in its engine -/

section
variable {s s1 : State} {w : Nat} {i : Instr} {x : Mem} {o : Op}

/-- An operation whose parts are not separate elements is in flight once its warp has launched it (R144). -/
theorem State.launchOp_wholeEnters (hs : s1 = { s.issued i w with tlbs := s1.tlbs, free := s1.free }) (how : o.warp = w)
    (hun : o.i.uncounted = false) (hwhole : o.i.wholeOp = true) (hc : o.counted = 0)
    (hb : o.block = (s.atIssue i w).block) (hcore : o.core = (s.block o.block).core) (hm : o.strm < 8) :
    Claims.OpEnters w o (s.atIssue i w) s (s1.launchOp o).1 := by
  obtain ⟨hop, hnext, hops, hwarps, hwarp, hframe⟩ := State.launchOp_fields hs how hun
  have hqueues := State.launchOp_onlyQueues hs hun
  have hhome := State.launchOp_keepsHome hs hun hcore
  have hnarrow := State.launchOp_narrow hs hun
  have hbare : Claims.bare o = 0 := maskWhere_eq_zero (fun l _ => by simp [hwhole])
  refine ⟨?_, hnext, hops, hwarps, ?_, fun h l st hl hst => ?_, hframe, hqueues, ?_, fun hn ho _ => hnarrow hn ho⟩
  · rw [hop, hbare, ← hc]
  · rw [hwarp]
    exact Warp.setStreams_eq _ _ _
  · rw [hwarp, hbare, Warp.streams_setStreams]
    by_cases hh : h = o.hset
    · subst hh
      simp [Streams.issuedOf_issue _ _ hm hl hst]
    · simp [hh]
  · rw [← hb, ← hcore]
    exact hhome

/-- The operation of a copy. -/
def State.copyOp (s : State) (w : Nat) (i : Instr) (x : Mem) (args members : List Nat) (elems : List Elem) : Op :=
  { s.newOp w i x ((s.warp w).activeReal x.g) ((s.warp w).activeReal x.g) (s.warp w).group elems args with members := members }

theorem State.issueCopy_enters {args members : List Nat} {elems : List Elem}
    (h : (s.warp w).mustStall true x.strm ((s.warp w).activeReal x.g) = 0) :
    s.issueCopy w i x args members elems = (s.launchOp (s.copyOp w i x args members elems)).1 := by
  unfold State.issueCopy
  extract_lets wp real stop
  exact if_neg (by simp [show stop = 0 from h])

end

/-! ## CPY, CPYS, CPYG and CPYM -/

/-- What the packed operands and CPYG's list of a copy must be (R244): `list` is the second register of its offset. -/
def packedLegal (i : Instr) (x : Mem) (d list : Nat) : Prop :=
  bits d 57 7 = 0 ∧ bits d 25 7 = 0 ∧ (i = .cpys x → bits d 32 25 = 0) ∧
  (i = .cpym x → bit (bits d 0 25) 24 = false ∧ bit (bits d 32 25) 24 = false) ∧ (i = .cpyg x → list < 2 ^ 25)

/-- A copy's list operand: only CPYG has one. -/
def copyList (i : Instr) (list : Nat) : Nat :=
  match i with
  | .cpyg _ => list
  | _ => 0

section
variable {i : Instr} {x : Mem} (hi : i ∈ [Instr.cpy x, .cpys x, .cpyg x, .cpym x])
include hi

theorem boxCopy_kind : i.uncounted = false ∧ i.wholeOp = true := by
  simp only [List.mem_cons, List.not_mem_nil, or_false] at hi
  obtain rfl | rfl | rfl | rfl := hi
  iterate 4 exact ⟨rfl, rfl⟩

theorem exec_boxCopy (s : State) : exec i s = onWarp i (uniformReal x.g (boxCopy i x)) s := by
  simp only [List.mem_cons, List.not_mem_nil, or_false] at hi
  obtain rfl | rfl | rfl | rfl := hi
  iterate 4 rfl

/-- Reserved bits, and targets that the copy cannot have, are an illegal operand (R244). -/
theorem packedFault_illegal {d list : Nat} (a : Nat) (h : ¬ packedLegal i x d list) :
    packedFault i d a (copyList i list) = some { cause := 0x022 } := by
  simp only [List.mem_cons, List.not_mem_nil, or_false] at hi
  obtain rfl | rfl | rfl | rfl := hi <;> refine if_pos ?_ <;> contrapose! h <;>
    simpa [packedLegal, copyList, and_assoc, Nat.div_eq_zero_iff] using h

/-- Legal operands must be aligned: the record's address, the target, the word, and CPYG's list. -/
theorem packedFault_legal {d list : Nat} (a : Nat) (h : packedLegal i x d list) : packedFault i d a (copyList i list) =
    if a % 64 != 0 then some { cause := 0x062, addr := a }
    else if bits d 0 25 % 16 != 0 then some { cause := 0x062, addr := bits d 0 25 }
    else if bits d 32 25 % 16 != 0 then some { cause := 0x062, addr := bits d 32 25 }
    else if copyList i list % 4 != 0 then some { cause := 0x062, addr := copyList i list } else none := by
  simp only [List.mem_cons, List.not_mem_nil, or_false] at hi
  obtain rfl | rfl | rfl | rfl := hi <;> refine (if_neg ?_).trans rfl <;>
    simpa [packedLegal, copyList, and_assoc, Nat.div_eq_zero_iff] using h

theorem packedFault_record {d list a : Nat} (h : packedLegal i x d list) (ha : a % 64 ≠ 0) :
    packedFault i d a (copyList i list) = some { cause := 0x062, addr := a } :=
  (packedFault_legal hi a h).trans (if_pos (bne_iff_ne.mpr ha))

theorem copyList_aligned {list : Nat} (h : i = .cpyg x → list % 4 = 0) : copyList i list % 4 = 0 := by
  simp only [List.mem_cons, List.not_mem_nil, or_false] at hi
  obtain rfl | rfl | rfl | rfl := hi
  case inr.inr.inl => exact h rfl
  all_goals rfl

theorem packedFault_none {d list a : Nat} (h : packedLegal i x d list) (ha : a % 64 = 0) (hsp : bits d 0 25 % 16 = 0)
    (haw : bits d 32 25 % 16 = 0) (hl : i = .cpyg x → list % 4 = 0) : packedFault i d a (copyList i list) = none := by
  rw [packedFault_legal hi a h, ha, hsp, haw, copyList_aligned hi hl]
  rfl

end

/-! ## What a copy captures -/

section
variable (s : State) (w : Nat) (i : Instr) (x : Mem)

/-- Register `k` of a copy's offset. -/
def Warp.copyReg (a : Warp) (x : Mem) (k : Nat) : Nat := (a.rdS (Mem.offReg x + k)).toNat

/-- The coordinates of a copy: five, or for CPYG one. -/
def Warp.copyCoords (a : Warp) (i : Instr) (x : Mem) : List Nat :=
  match i with
  | .cpyg _ => [a.copyReg x 0 % 2 ^ 32]
  | _ => (List.range 5).map (fun k => a.copyReg x k % 2 ^ 32)

/-- What a copy captures of its operands (R243, R244). -/
def State.boxArgs : CopyArgs :=
  let a := s.warp w
  let d := (a.rdS x.d).toNat
  let list := copyList i (a.copyReg x 1)
  let sp := s.saTarget a.block (bits d 0 25)
  let aw := s.saTarget a.block (bits d 32 25)
  let li := s.saTarget a.block list
  { rcd := (a.rdS x.a).toNat, sp := bits d 0 25, spBlock := sp.1, spCause := sp.2, aw := bits d 32 25, awBlock := aw.1
    awCause := match i with
      | .cpys _ => 0
      | _ => aw.2
    list := list, listBlock := li.1
    listCause := match i with
      | .cpyg _ => li.2
      | _ => 0
    lane := ((maskList (a.activeReal x.g) 32).head?).getD 0, coords := a.copyCoords i x }

/-- The blocks whose scratchpads a copy reaches: of a CPYM every member of the cluster (R248). -/
def State.boxMembers : List Nat :=
  let a := s.warp w
  match i with
  | .cpym _ => match (s.block a.block).cluster with
    | some c => (s.cluster c).indexes.filterMap (fun k => (s.cluster c).members.get none k)
    | none => [a.block]
  | .cpys _ => [(s.boxArgs w i x).spBlock]
  | _ => [(s.boxArgs w i x).spBlock, (s.boxArgs w i x).awBlock, (s.boxArgs w i x).listBlock]

/-- The operation of a copy of boxes. -/
def State.boxOp : Op := s.copyOp w i x (s.boxArgs w i x).nats (s.boxMembers w i x) []

end

section
variable {s : State} {w : Nat} {i : Instr} {x : Mem} (hi : i ∈ [Instr.cpy x, .cpys x, .cpyg x, .cpym x])
include hi

theorem boxCopy_trap {t : Trap} (h : packedFault i ((s.warp w).rdS x.d).toNat ((s.warp w).rdS x.a).toNat
    (copyList i ((s.warp w).copyReg x 1)) = some t) : boxCopy i x w s = .trap t s := by
  simp only [List.mem_cons, List.not_mem_nil, or_false] at hi
  unfold boxCopy
  obtain rfl | rfl | rfl | rfl := hi
  iterate 4
    simp only [copyList, Warp.copyReg] at h
    simp only [h, Bool.false_eq_true, if_false, if_true]

theorem boxCopy_ok (h : packedFault i ((s.warp w).rdS x.d).toNat ((s.warp w).rdS x.a).toNat
    (copyList i ((s.warp w).copyReg x 1)) = none) :
    boxCopy i x w s = .ok (s.issueCopy w i x (s.boxArgs w i x).nats (s.boxMembers w i x) []) := by
  simp only [List.mem_cons, List.not_mem_nil, or_false] at hi
  unfold boxCopy
  obtain rfl | rfl | rfl | rfl := hi
  iterate 4
    simp only [copyList, Warp.copyReg] at h
    simp only [h, Bool.false_eq_true, if_false, if_true]
    rfl

/-- A copy of boxes that passes its checks enters its engine, where every thread's stream has room. -/
theorem boxCopy_enters (hissue : Issues w i s) (hs : x.strm < 8)
    (h : packedFault i ((s.atIssue i w).rdS x.d).toNat ((s.atIssue i w).rdS x.a).toNat
      (copyList i ((s.atIssue i w).copyReg x 1)) = none)
    (ha : (s.atIssue i w).activeReal x.g ≠ 0)
    (hroom : (s.atIssue i w).mustStall true x.strm ((s.atIssue i w).activeReal x.g) = 0) :
    ∃ t, exec i s = .next t ∧ Claims.OpEnters w ((s.issued i w).boxOp w i x) (s.atIssue i w) s t := by
  obtain ⟨hun, hwhole⟩ := boxCopy_kind hi
  have hbody := (uniformReal_active (s := s.issued i w) (boxCopy i x) ha).trans ((boxCopy_ok (s := s.issued i w) hi h).trans
    (congrArg Res.ok (State.issueCopy_enters hroom)))
  exact ⟨_, (exec_boxCopy hi s).trans (onWarp_ok hissue hbody), State.launchOp_wholeEnters rfl rfl hun hwhole rfl rfl rfl hs⟩

end

section
variable (s : State) (w : Nat) (i : Instr) (x : Mem)

theorem State.saTarget_own {b sa : Nat} (h : sa < 2 ^ 20) : s.saTarget b sa = (b, 0) := if_pos h

variable {i x} (hi : i ∈ [Instr.cpy x, .cpys x, .cpyg x, .cpym x])
include hi

theorem Warp.copyCoords_box (a : Warp) (h : i ≠ .cpyg x) :
    a.copyCoords i x = (List.range 5).map (fun k => a.copyReg x k % 2 ^ 32) := by
  simp only [List.mem_cons, List.not_mem_nil, or_false] at hi
  obtain rfl | rfl | rfl | rfl := hi
  case inr.inr.inl => exact absurd rfl h
  all_goals rfl

end

theorem State.boxMembers_alone {s : State} {w : Nat} {x : Mem} (h : (s.block (s.warp w).block).cluster = none) :
    s.boxMembers w (.cpym x) x = [(s.warp w).block] := by
  unfold boxMembers
  simp only [h]

theorem State.mem_boxMembers {s : State} {w cl : Nat} {x : Mem} (h : (s.block (s.warp w).block).cluster = some cl) (m : Nat) :
    m ∈ s.boxMembers w (.cpym x) x ↔ ∃ n, n < 16 ∧ (s.cluster cl).members.get none n = some m := by
  unfold boxMembers
  simp only [h, List.mem_filterMap, Cluster.mem_indexes]
  exact exists_congr (fun n => ⟨fun hn => ⟨hn.1.1, hn.2⟩, fun hn => ⟨⟨hn.1, by simp [hn.2]⟩, hn.2⟩⟩)

/-! ## CPYC (R250) -/

section
variable {s : State} {w : Nat} {x : Mem}

/-- What a CPYC captures: source, length and destination. -/
def State.lineArgs (s : State) (w : Nat) (x : Mem) : CopyArgs :=
  let a := s.warp w
  { rcd := (a.rdS x.a).toNat, sp := (a.rdS x.d).toNat, spBlock := 0, spCause := 0, aw := a.copyReg x 0, awBlock := 0
    awCause := 0, list := 0, listBlock := 0, listCause := 0
    lane := ((maskList (a.activeReal x.g) 32).head?).getD 0, coords := [] }

/-- The operation of a CPYC. -/
def State.lineOp (s : State) (w : Nat) (x : Mem) : Op :=
  s.copyOp w (.cpyc x) x (s.lineArgs w x).nats []
    (linePieces ((s.warp w).rdS x.d).toNat ((s.warp w).rdS x.a).toNat ((s.warp w).copyReg x 0))

theorem exec_cpyc (x : Mem) (s : State) : exec (.cpyc x) s = onWarp (.cpyc x) (uniformReal x.g (lineCopy x)) s := rfl

theorem lineCopy_illegal (h : ((s.warp w).rdS x.d).toNat % 128 ≠ 0 ∨ 2 ^ 32 ≤ ((s.warp w).rdS x.d).toNat) :
    lineCopy x w s = .trap { cause := 0x022 } s := by
  unfold lineCopy
  exact if_pos (by simpa using h)

theorem lineCopy_source (hn : ((s.warp w).rdS x.d).toNat % 128 = 0) (hlt : ((s.warp w).rdS x.d).toNat < 2 ^ 32)
    (h : ((s.warp w).rdS x.a).toNat % 128 ≠ 0) :
    lineCopy x w s = .trap { cause := 0x062, addr := ((s.warp w).rdS x.a).toNat } s := by
  unfold lineCopy
  exact (if_neg (by simpa [hn] using hlt)).trans (if_pos (by simpa using h))

/-- A CPYC whose stream has room enters its engine; one without a line ends at once. -/
theorem lineCopy_legal (hn : ((s.warp w).rdS x.d).toNat % 128 = 0) (hlt : ((s.warp w).rdS x.d).toNat < 2 ^ 32)
    (hsrc : ((s.warp w).rdS x.a).toNat % 128 = 0) (hdst : (s.warp w).copyReg x 0 % 128 = 0)
    (hroom : (s.warp w).mustStall true x.strm ((s.warp w).activeReal x.g) = 0) :
    lineCopy x w s = .ok (if ((s.warp w).rdS x.d).toNat = 0 then (s.launchOp (s.lineOp w x)).1.finishOp s.nextOp
      else (s.launchOp (s.lineOp w x)).1) := by
  have hnext : (s.launchOp (s.lineOp w x)).1.nextOp = s.nextOp + 1 := by
    rw [State.launchOp_fst, State.opRelease_frame]
    rfl
  unfold lineCopy
  have hissue : s.issueCopy w (.cpyc x) x (s.lineArgs w x).nats [] (linePieces ((s.warp w).rdS x.d).toNat
      ((s.warp w).rdS x.a).toNat ((s.warp w).copyReg x 0)) = (s.launchOp (s.lineOp w x)).1 := State.issueCopy_enters hroom
  refine (if_neg (by simpa [hn] using hlt)).trans ((if_neg (by simpa using hsrc)).trans
    ((if_neg (by simpa [Warp.copyReg] using hdst)).trans ?_))
  change (if decide (((s.warp w).rdS x.d).toNat = 0) && (s.issueCopy w (.cpyc x) x (s.lineArgs w x).nats []
      (linePieces ((s.warp w).rdS x.d).toNat ((s.warp w).rdS x.a).toNat ((s.warp w).copyReg x 0))).nextOp != s.nextOp
    then Res.ok (State.finishOp _ s.nextOp) else .ok _) = _
  rw [hissue, hnext]
  by_cases h : ((s.warp w).rdS x.d).toNat = 0
  · rw [if_pos (by simp [h]), if_pos h]
    exact congrArg (fun t : State => Res.ok (t.finishOp s.nextOp)) hissue
  · rw [if_neg (by simp [h]), if_neg h]
    exact congrArg Res.ok hissue

theorem getElem?_linePieces {n src dst j : Nat} {e : Elem} (h : (linePieces n src dst)[j]? = some e) :
    e.addr = src + 128 * j ∧ e.data = dst + 128 * j ∧ e.size = 128 ∧ e.done = false := by
  unfold linePieces at h
  rw [List.getElem?_map] at h
  obtain ⟨k, hk, rfl⟩ := Option.map_eq_some_iff.mp h
  obtain ⟨_, rfl⟩ := List.getElem?_eq_some_iff.mp hk
  rw [List.getElem_range]
  exact ⟨rfl, rfl, rfl, rfl⟩

theorem length_linePieces (n src dst : Nat) : (linePieces n src dst).length = n / 128 := by simp [linePieces]

end

/-- A CPYC without a line is performed as it issues: its entry is free again, and it has counted in its stream. -/
theorem lineCopy_none {s : State} {w : Nat} {x : Mem} (hs : x.strm < 8)
    (hp : ∀ l, l < 32 → ((s.atIssue (.cpyc x) w).lane l).st.isParked = false) :
    let a := s.atIssue (.cpyc x) w
    let s0 := s.issued (.cpyc x) w
    let t := (s0.launchOp (s0.lineOp w x)).1.finishOp s0.nextOp
    t.op s.nextOp = {} ∧ KeepsRegs [] a (t.warp w) ∧ Claims.CountedBoth a (t.warp w) (a.activeReal x.g) x.strm := by
  intro a s0 t
  set o := s0.lineOp w x with ho
  set s1 := (s0.launchOp o).1
  obtain ⟨hop, -, -, -, hwarp, -⟩ := State.launchOp_fields (s := s) (s1 := s0) (w := w) (i := .cpyc x) (o := o) rfl rfl rfl
  obtain ⟨r, d, hend⟩ := State.finishOp_rested (s := s1) (w := w) (k := s.nextOp) (by rw [hop]; rfl) (by rw [hop]; rfl)
    (by rw [hop]; rfl) (by rw [hop]; rfl) (fun l hl => by
      rw [hwarp, Warp.setStreams_eq]
      exact hp l hl)
  have hmask : maskWhere 32 (fun l => bit o.lanes l && !bit o.counted l) = a.activeReal x.g := by
    have hbits : (fun l => bit o.lanes l && !bit o.counted l) = bit (a.activeReal x.g) := funext fun l => by
      have hcounted : bit o.counted l = false := bit_zero l
      simp [hcounted]
      rfl
    rw [hbits]
    exact maskWhere_bit (maskWhere_lt _ _)
  have hwarps : t.warp w = { (s1.warp w).completes o with replays := r, reportDue := d } := by
    rw [hop] at hend
    exact hend
  refine ⟨State.op_finishOp _ _, Warp.counted_at_once hs (hset := o.hset) (r := r) (d := d) rfl hwarp ?_⟩
  rw [hwarps, Warp.completes, hmask]
  rfl

end Machine
end Sys2Proof

open Sys2Proof Sys2Proof.Machine

/-- Settles O40: the checks of the packed operands pass exactly the legal and aligned ones; what a copy captures is its
operation's list of operands, which enters the engine as a whole; and a CPYC of no line counts as it issues. -/
theorem copyIssue : Obligations.CopyIssue := by
  constructor
  · intro w s x i hi hissue hs a d rcd r sp aw b legal ha
    have htrap : ∀ {t}, packedFault i d rcd (copyList i (r 1)) = some t → exec i s = .next ((s.issued i w).faultWarp w t) :=
      fun h => (exec_boxCopy hi s).trans (onWarp_trap hissue ((uniformReal_active (s := s.issued i w) _ ha).trans
        (boxCopy_trap hi h)))
    refine ⟨fun h => htrap (packedFault_illegal hi rcd h), fun h hr => htrap (packedFault_record hi h hr),
      fun h hr hsp haw hl hroom => ?_⟩
    obtain ⟨t, ht, henters⟩ := boxCopy_enters hi hissue hs (packedFault_none hi h hr hsp haw hl) ha hroom
    refine ⟨t, _, ht, henters, rfl, rfl, rfl, rfl, rfl, rfl, rfl, rfl, rfl, rfl, rfl, rfl, ?_, ?_, ?_⟩
    · exact ⟨rfl, rfl, rfl, fun h => Prod.mk.inj ((s.issued i w).saTarget_own h), fun h => by subst h; exact ⟨rfl, rfl⟩,
        Warp.copyCoords_box hi a⟩
    · rintro rfl hc
      exact State.boxMembers_alone (s := s.issued (.cpym x) w) (x := x) hc
    · rintro rfl cl hc m
      exact State.mem_boxMembers (s := s.issued (.cpym x) w) (x := x) hc m
  · intro w s x hissue hs a n src dst ha
    have htrap : ∀ {t}, lineCopy x w (s.issued (.cpyc x) w) = .trap t (s.issued (.cpyc x) w) →
        exec (.cpyc x) s = .next ((s.issued (.cpyc x) w).faultWarp w t) :=
      fun h => (exec_cpyc x s).trans (onWarp_trap hissue ((uniformReal_active (s := s.issued (.cpyc x) w) _ ha).trans h))
    refine ⟨fun h => htrap (lineCopy_illegal h), fun hn hlt hsrc => htrap (lineCopy_source hn hlt hsrc),
      fun hn hlt hsrc hdst hroom => ?_⟩
    have hbody := (exec_cpyc x s).trans (onWarp_ok hissue ((uniformReal_active (s := s.issued (.cpyc x) w) _ ha).trans
      (lineCopy_legal (s := s.issued (.cpyc x) w) hn hlt hsrc hdst hroom)))
    refine ⟨fun hpos => ?_, fun hzero hp => ?_⟩
    · exact ⟨_, (s.issued (.cpyc x) w).lineOp w x, hbody.trans (congrArg _ (if_neg (Nat.ne_of_gt hpos))),
        State.launchOp_wholeEnters rfl rfl rfl rfl rfl rfl rfl hs, rfl, rfl, rfl, rfl, rfl, rfl, length_linePieces _ _ _,
        fun j e => getElem?_linePieces⟩
    · exact ⟨_, hbody.trans (congrArg _ (if_pos hzero)), lineCopy_none hs hp⟩

end

section
/-!
PROOFS. The statement on arrival words (R207–R212): a word in its 16 bytes, what increments and armings make of it, their
operations in flight and performed, and WAITG.
-/
namespace Sys2Proof
namespace Machine

/-! ## A word in its bytes (R207) -/

theorem ofBytes_bytesOf (n x : Nat) : ofBytes (bytesOf n x) = x % 2 ^ (8 * n) := by
  induction n generalizing x with
  | zero => simp [bytesOf, ofBytes, Nat.mod_one]
  | succ n ih =>
    rw [bytesOf, ofBytes, ih, BitVec.toNat_ofNat, Nat.mul_succ, Nat.add_comm (8 * n), Nat.pow_add, Nat.mod_mul]
    norm_num

/-- The fields of a word lie within its 128 bits. -/
structure AWord.Fits (a : AWord) : Prop where
  target : a.target < 2 ^ 32
  count : a.count < 2 ^ 32
  gen : a.gen < 2 ^ 32
  scope : a.scope < 8
  high : a.high < 2 ^ 27

theorem AWord.of_fits (x : Nat) : (AWord.of x).Fits :=
  ⟨Nat.mod_lt _ (by decide), Nat.mod_lt _ (by decide), Nat.mod_lt _ (by decide), Nat.mod_lt _ (by decide),
    Nat.mod_lt _ (by decide)⟩

theorem b2n_lt (b : Bool) : b2n b < 2 := by cases b <;> decide

theorem beq_b2n (b : Bool) : (b2n b == 1) = b := by cases b <;> rfl

theorem AWord.nat_lt {a : AWord} (h : a.Fits) : a.nat < 2 ^ 128 := by
  obtain ⟨ht, hc, hg, hs, hh⟩ := h
  have := b2n_lt a.ar
  have := b2n_lt a.err
  unfold AWord.nat
  omega

theorem AWord.of_nat {a : AWord} (h : a.Fits) : AWord.of a.nat = a := by
  obtain ⟨ht, hc, hg, hs, hh⟩ := h
  have har := b2n_lt a.ar
  have herr := b2n_lt a.err
  have hbit : ∀ {n i} {b : Bool}, n / 2 ^ i % 2 = b2n b → bit n i = b := fun {n i b} hn => by
    unfold bit
    rw [hn, beq_b2n]
  have h1 : bits a.nat 0 32 = a.target := by unfold bits AWord.nat; omega
  have h2 : bits a.nat 32 32 = a.count := by unfold bits AWord.nat; omega
  have h3 : bits a.nat 64 32 = a.gen := by unfold bits AWord.nat; omega
  have h4 : bit a.nat 96 = a.ar := hbit (by unfold AWord.nat; omega)
  have h5 : bits a.nat 97 3 = a.scope := by unfold bits AWord.nat; omega
  have h6 : bit a.nat 100 = a.err := hbit (by unfold AWord.nat; omega)
  have h7 : bits a.nat 101 27 = a.high := by unfold bits AWord.nat; omega
  unfold AWord.of
  rw [h1, h2, h3, h4, h5, h6, h7]

theorem AWord.of_bytes {a : AWord} (h : a.Fits) : AWord.of (ofBytes (bytesOf 16 a.nat)) = a := by
  rw [ofBytes_bytesOf, Nat.mod_eq_of_lt (AWord.nat_lt h), AWord.of_nat h]

/-! ## Increments (R208) and armings (R210) -/

section
variable {a : AWord} {n : Nat}

theorem AWord.increment_err (h : a.count + n < 2 ^ 32) : (a.increment n).err = a.err := by
  have herr : (a.err || decide (2 ^ 32 ≤ a.count + n)) = a.err := by
    rw [decide_eq_false (by omega), Bool.or_false]
  unfold AWord.increment
  extract_lets sum c a1
  split
  · exact herr
  · split <;> exact herr

theorem AWord.increment_below (h : a.count + n < 2 ^ 32) (ht : a.target = 0 ∨ a.count + n < a.target) :
    a.increment n = { a with count := a.count + n } := by
  have hc : Nat.min (a.count + n) (2 ^ 32 - 1) = a.count + n := Nat.min_eq_left (by omega)
  unfold AWord.increment
  simp only [hc]
  rw [if_pos ht, decide_eq_false (by omega), Bool.or_false]

theorem AWord.increment_rearm (h : a.count + n < 2 ^ 32) (h0 : 0 < a.target) (har : a.ar = true) (hm : a.target ≤ a.count + n) :
    a.increment n = { a with
      count := (a.count + n) % a.target, gen := (a.gen + (a.count + n) / a.target) % 2 ^ 32 } := by
  have hc : Nat.min (a.count + n) (2 ^ 32 - 1) = a.count + n := Nat.min_eq_left (by omega)
  unfold AWord.increment
  simp only [hc]
  rw [if_neg (by omega), if_pos har, decide_eq_false (by omega), Bool.or_false]

theorem AWord.increment_once (h : a.count + n < 2 ^ 32) (h0 : 0 < a.target) (har : a.ar = false) (hm : a.target ≤ a.count + n) :
    a.increment n = { a with count := a.count + n - a.target, gen := (a.gen + 1) % 2 ^ 32, target := 0 } := by
  have hc : Nat.min (a.count + n) (2 ^ 32 - 1) = a.count + n := Nat.min_eq_left (by omega)
  unfold AWord.increment
  simp only [hc]
  rw [if_neg (by omega), if_neg (by simp [har]), decide_eq_false (by omega), Bool.or_false]

/-- An increment keeps the fields within the word, also where the count overflows. -/
theorem AWord.increment_fits (ht : a.target < 2 ^ 32) (hg : a.gen < 2 ^ 32) (hs : a.scope < 8) (hh : a.high < 2 ^ 27) :
    (a.increment n).Fits := by
  have hc : Nat.min (a.count + n) (2 ^ 32 - 1) < 2 ^ 32 := Nat.lt_of_le_of_lt (Nat.min_le_right _ _) (by decide)
  have hmod : ∀ m, m % 2 ^ 32 < 2 ^ 32 := fun m => Nat.mod_lt _ (by decide)
  unfold AWord.increment
  extract_lets sum c a1
  split
  · exact ⟨ht, hc, hg, hs, hh⟩
  · split
    · exact ⟨ht, Nat.lt_of_le_of_lt (Nat.mod_le _ _) hc, hmod _, hs, hh⟩
    · exact ⟨Nat.two_pow_pos 32, Nat.lt_of_le_of_lt (Nat.sub_le _ _) hc, hmod _, hs, hh⟩

theorem AWord.arm_fits {init : Bool} (h : a.Fits) : (a.arm n init).Fits :=
  AWord.increment_fits (Nat.mod_lt _ (by decide)) h.gen (Nat.mod_lt _ (by decide)) h.high

end

/-- R208, of a word whose count does not overflow. -/
theorem AWord.increment_counts {a : AWord} {n : Nat} (h : a.count + n < 2 ^ 32) :
    (a.increment n).err = a.err ∧
    (0 < a.target → a.ar = true → (a.increment n).count < a.target ∧
      a.target * ((a.count + n) / a.target) + (a.increment n).count = a.count + n ∧
      (a.gen < 2 ^ 32 → (a.increment n).gen = (a.gen + (a.count + n) / a.target) % 2 ^ 32)) ∧
    (a.target ≤ a.count + n → 0 < a.target → a.ar = false →
      (a.increment n).count = a.count + n - a.target ∧ (a.increment n).target = 0 ∧
      (a.increment n).gen = (a.gen + 1) % 2 ^ 32) ∧
    (a.count + n < a.target ∨ a.target = 0 → a.increment n = { a with count := a.count + n }) := by
  refine ⟨AWord.increment_err h, fun h0 har => ?_, fun hm h0 har => ?_, fun ht => AWord.increment_below h ht.symm⟩
  · by_cases hm : a.target ≤ a.count + n
    · rw [AWord.increment_rearm h h0 har hm]
      exact ⟨Nat.mod_lt _ h0, Nat.div_add_mod _ _, fun _ => rfl⟩
    · have hlt : a.count + n < a.target := Nat.not_le.mp hm
      rw [AWord.increment_below h (.inr hlt), Nat.div_eq_of_lt hlt]
      exact ⟨hlt, by simp, fun hg => (Nat.mod_eq_of_lt hg).symm⟩
  · rw [AWord.increment_once h h0 har hm]
    exact ⟨rfl, rfl, rfl⟩

/-! ## AWARM and ARRIVE in flight (R210, R211) -/

section
variable {s : State} {w data : Nat} {i : Instr} {x : Mem} {p : Place}

theorem exec_awarm (x : Mem) (s : State) : exec (.awarm x) s = onWarp (.awarm x) (uniformReal x.g (awarmWarp x)) s := rfl

theorem exec_arrive (x : Mem) (s : State) : exec (.arrive x) s = onWarp (.arrive x) (uniformReal x.g (arriveWarp x)) s := rfl

/-- Reserved bits in an arming value are an illegal operand (R210). -/
theorem awarmWarp_illegal (h : bits ((s.warp w).rdS x.d).toNat 36 28 ≠ 0 ∨ bits ((s.warp w).rdS x.d).toNat 33 3 = 7) :
    awarmWarp x w s = .trap { cause := 0x022 } s := by
  unfold awarmWarp
  exact if_pos (by simpa using h)

theorem awarmWarp_legal (h0 : bits ((s.warp w).rdS x.d).toNat 36 28 = 0) (h7 : bits ((s.warp w).rdS x.d).toNat 33 3 ≠ 7) :
    awarmWarp x w s = wordOp (.awarm x) x ((s.warp w).rdS x.d).toNat w s := by
  unfold awarmWarp
  exact if_neg (by simp [h0, h7])

theorem arriveWarp_eq : arriveWarp x w s = wordOp (.arrive x) x (((s.warp w).rdS x.d).toNat % 2 ^ 32 *
    (if bit x.sz 0 then popcount 32 ((s.warp w).activeReal x.g) else 1)) w s := by
  unfold arriveWarp
  split <;> simp

theorem State.placeSa_ok {sa n align : Nat} (ha : sa % align = 0) (hp : s.resolveSa (s.warp w).block sa n = .ok p) :
    s.placeSa w sa n align = .ok p := by
  simp [State.placeSa, ha, hp]

/-- The operation of an AWARM or an ARRIVE. -/
def State.wordEntry (s : State) (w : Nat) (i : Instr) (x : Mem) (p : Place) (data : Nat) : Op :=
  s.newOp w i x ((s.warp w).activeReal x.g) 1 (maskWhere 32 (bit (s.warp w).group))
    [{ addr := (s.warp w).memAddr x false 0, place := p, size := 16, data := data }] []

theorem wordOp_enters (hu : i.uniformOp = true) (ha : i.isAtomic = false) (h0 : (s.warp w).activeReal x.g ≠ 0)
    (hroom : (s.warp w).mustStall true x.strm ((s.warp w).activeReal x.g) = 0)
    (h16 : (s.warp w).memAddr x false 0 % 16 = 0)
    (hp : s.resolveSa (s.warp w).block ((s.warp w).memAddr x false 0) 16 = .ok p) :
    wordOp i x data w s = .ok ((s.launchOp (s.wordEntry w i x p data)).1.finishIfDone s.nextOp) := by
  have henter := State.issueOp_enters (s := s) (w := w) (i := i) (x := x) (enabled := 1) (args := [])
    (real := (s.warp w).activeReal x.g) (elems := [{ addr := (s.warp w).memAddr x false 0, place := p, size := 16, data := data }])
    (by rw [hu]; exact hroom) (maskWhere_lt _ _) h0 (by decide) ha
  unfold wordOp
  simp only [State.placeSa_ok h16 hp, henter]
  rfl

end

/-- A word instruction that passes its checks is in flight as one operation with one element. -/
theorem word_opEnters {s : State} {w data : Nat} {i : Instr} {x : Mem} {p : Place} {body : Nat → State → Res}
    (hexec : exec i s = onWarp i (uniformReal x.g body) s) (hu : i.uniformOp = true) (ha : i.isAtomic = false)
    (hun : i.uncounted = false) (hissue : Issues w i s) (hs : x.strm < 8)
    (hbody : body w (s.issued i w) = wordOp i x data w (s.issued i w)) (h0 : (s.atIssue i w).activeReal x.g ≠ 0)
    (hroom : (s.atIssue i w).mustStall true x.strm ((s.atIssue i w).activeReal x.g) = 0)
    (h16 : (s.atIssue i w).memAddr x false 0 % 16 = 0)
    (hp : s.resolveSa (s.atIssue i w).block ((s.atIssue i w).memAddr x false 0) 16 = .ok p) :
    ∃ t, exec i s = .next t ∧ Claims.OpEnters w ((s.issued i w).wordEntry w i x p data) (s.atIssue i w) s t := by
  have hword := wordOp_enters (s := s.issued i w) (data := data) hu ha h0 hroom h16 hp
  exact ⟨_, hexec.trans (onWarp_ok hissue ((uniformReal_active (s := s.issued i w) body h0).trans (hbody.trans hword))),
    State.launchOp_opEnters (s := s) (s1 := s.issued i w) rfl rfl hun hu ⟨_, List.mem_singleton.mpr rfl, rfl⟩ rfl rfl rfl hs⟩

/-! ## A word replaced where nothing waits (R208, R210) -/

theorem Memory.readBytes_writeBytes (m : Memory) (a : Nat) (bs : List Byte) :
    (m.writeBytes a bs).readBytes bs.length a = bs := by
  refine List.ext_getElem? fun i => ?_
  by_cases hi : i < bs.length
  · rw [Memory.readBytes_getElem _ _ _ _ hi, Memory.read_writeBytes, if_pos (by omega), Nat.add_sub_cancel_left]
    simp [List.getD, hi]
  · rw [List.getElem?_eq_none (by rw [Memory.readBytes_length]; omega), List.getElem?_eq_none (by omega)]

/-- A state in which the word at `off` of block `b` reads `a`, as an operation on words leaves it. -/
structure WordSet (b off : Nat) (a : AWord) (s t : State) : Prop where
  word : t.aword b off = a
  ops : t.ops = s.ops
  warps : t.warps = s.warps
  mccs : t.mccs = s.mccs
  standing : (t.block b).standing = true
  imaged : (t.block b).imaged = false

section
variable {s t : State} {b off n : Nat}

theorem State.aword_congr (hb : t.blocks = s.blocks) (hst : (s.block b).standing = true) (him : (s.block b).imaged = false) :
    t.aword b off = s.aword b off := by
  have hblock : t.block b = s.block b := by unfold State.block; rw [hb]
  unfold State.aword
  rw [readScratch_present off (by rw [hblock]; exact hst) (by rw [hblock]; exact him), readScratch_present off hst him, hblock]

variable (hq : Claims.NoWaiters s) (hst : (s.block b).standing = true) (him : (s.block b).imaged = false)
include hq hst him

theorem State.setWord_sets {a : AWord} (ha : a.Fits) : WordSet b off a s (s.setWord b off a) := by
  have hwrite := writeScratch_scratchOnly off hst him (bytesOf 16 a.nat)
  have hst' := hwrite.standing.trans hst
  have him' := hwrite.imaged.trans him
  have hset : s.setWord b off a = s.writeScratch b off (bytesOf 16 a.nat) := serveWords_quiet (hwrite.quiet hq) _ _ _
  rw [hset]
  refine ⟨?_, by rw [hwrite.frame], by rw [hwrite.frame], by rw [hwrite.frame], hst', him'⟩
  have hread := Memory.readBytes_writeBytes (s.block b).scratch off (bytesOf 16 a.nat)
  rw [bytesOf_length] at hread
  unfold State.aword
  rw [readScratch_present off hst' him', scratch_writeScratch off hst him, hread, AWord.of_bytes ha]

theorem State.setWord_testTriggers {a : AWord} (ha : a.Fits) :
    WordSet b off a s ((s.setWord b off a).testTriggers b off) := by
  obtain ⟨hword, hops, hwarps, hmccs, hst', him'⟩ := setWord_sets hq hst him ha
  exact ⟨hword, hops, hwarps, hmccs, hst', him'⟩

end

/-! ## An operation of one element performed -/

section
variable {s : State} {k lanes : Nat} {o : Op} {e : Elem} (hk : s.op k = o) (hst : o.st = .flying)
  (he : o.elems = [e])
include hk hst he

theorem performOp_single (hwhole : o.i.wholeOp = false) (hunit : o.i.asksUnit = false) (hl : bit lanes e.lane = true)
    (hhere : s.performsAt e false = true) : s.performOp k lanes [] false =
      (if o.orphan then (s.performElem k 0 0).finishIfDone k else ((s.performElem k 0 0).finishIfDone k).joinWaits o.warp) := by
  unfold State.performOp
  simp only [hk, hst, hwhole, hunit, he]
  rw [if_neg (by decide)]
  simp [List.range_succ, hhere, hl]

theorem performElem_single {v : Nat} {r : State} (hd : e.done = false) (hload : o.i.isLoad = false)
    (hready : (s.elemRelease o).elemReady o [] e = true) (hdo : (s.elemRelease o).doElem o e 0 = (v, r)) :
    s.performElem k 0 0 = (r.forget o.warp e.place e.size).setOp k ((r.op k).markDone 0 v) := by
  have h0 : o.elems[0]? = some e := by rw [he]; rfl
  subst hk
  unfold State.performElem
  simp only [h0, hst, hd, List.take_zero, hready, hdo, hload]
  rfl

end

/-! ## AWARM and ARRIVE performed -/

section
variable {s r : State} {k lanes b off v : Nat} {o : Op} {e : Elem} {a : AWord} (hk : s.op k = o) (hst : o.st = .flying)
  (he : o.elems = [e])
include hk hst he

/-- An operation on a word that nothing holds up leaves the word as its element does, and is over. -/
theorem performOp_word (hwhole : o.i.wholeOp = false) (hunit : o.i.asksUnit = false) (hload : o.i.isLoad = false)
    (hbind : ∀ w : Warp, w.bindOp (o.markDone 0 v) = w) (hl : bit lanes e.lane = true) (hd : e.done = false)
    (hhere : s.performsAt e false = true) (hq : Claims.NoWaiters s)
    (hready : (s.elemRelease o).elemReady o [] e = true) (hdo : (s.elemRelease o).doElem o e 0 = (v, r))
    (hset : WordSet b off a s r) : let t := s.performOp k lanes [] false
    t.op k = {} ∧ t.aword b off = a := by
  intro t
  obtain ⟨hword, hops, hwarps, -, hstand, himaged⟩ := hset
  have ht : t = _ := performOp_single hk hst he hwhole hunit hl hhere
  have hrop : r.op k = o := by unfold State.op; rw [hops]; exact hk
  rw [performElem_single hk hst he hd hload hready hdo, hrop] at ht
  generalize hu : (r.forget o.warp e.place e.size).setOp k (o.markDone 0 v) = u at ht
  have huop : u.op k = o.markDone 0 v := by rw [← hu]; exact State.op_setOp_same _ _ _
  have hublocks : u.blocks = r.blocks := by rw [← hu]; rfl
  have hpark : ∀ l, l < 32 → ((u.warp o.warp).lane l).st ≠ .parked := fun l hl => by
    have hwarp : u.warp o.warp = s.warp o.warp := by
      rw [← hu]
      exact congrArg (fun c : Table Warp => c.get {} o.warp) hwarps
    rw [hwarp]
    exact hq.warp _ hl
  have hfinish : u.finishIfDone k = u.finishOp k := by
    have hi' : (o.markDone 0 v).i = o.i := rfl
    have hst' : (o.markDone 0 v).st = .flying := hst
    have hall : (o.markDone 0 v).elems.all (·.done) = true := by simp [Op.markDone, he]
    unfold State.finishIfDone
    simp only [huop, hi', hwhole, hst', hall]
    rfl
  have hends : EndsOp o.warp u (u.finishOp k) :=
    State.finishOp_endsOp (by rw [huop]; rfl) hpark (fun a => by rw [huop]; exact hbind a)
  rw [hfinish, State.joinWaits_quiet (fun l hl hl' => hpark l hl (hends.parked l hl')), ite_self] at ht
  rw [ht]
  exact ⟨State.op_finishOp _ _, (State.aword_congr (hends.blocks.trans hublocks) hstand himaged).trans hword⟩

end

/-! ## What is written back before a word changes (R209) -/

/-- Blocks, operations, warps and matrix control cores are as before. -/
structure KeepsUnits (s t : State) : Prop where
  blocks : t.blocks = s.blocks
  ops : t.ops = s.ops
  warps : t.warps = s.warps
  mccs : t.mccs = s.mccs

theorem State.keepsUnits_releaseFor (s : State) (core w : Nat) (hset : Bool) (after lanes : Nat) :
    KeepsUnits s (s.releaseFor core w hset after lanes) := by
  unfold releaseFor
  have h := s.releaseWhere_frame core (fun _ x => x.owners.any (fun (o : Nat × Bool × Nat × Nat) =>
    o.1 == w && o.2.1 == hset && bit after o.2.2.1 && (o.2.2.2 &&& lanes) != 0))
  exact ⟨by rw [h], by rw [h], by rw [h], by rw [h]⟩

theorem KeepsUnits.refl (s : State) : KeepsUnits s s := ⟨rfl, rfl, rfl, rfl⟩

theorem KeepsUnits.trans {s t u : State} (h : KeepsUnits s t) (g : KeepsUnits t u) : KeepsUnits s u :=
  ⟨g.blocks.trans h.blocks, g.ops.trans h.ops, g.warps.trans h.warps, g.mccs.trans h.mccs⟩

theorem KeepsUnits.block {s t : State} (h : KeepsUnits s t) (b : Nat) : t.block b = s.block b := by
  unfold State.block
  rw [h.blocks]

theorem KeepsUnits.quiet {s t : State} (h : KeepsUnits s t) (hq : Claims.NoWaiters s) : Claims.NoWaiters t :=
  hq.of_eq h.warps h.mccs

section
variable {s s1 : State} {b off : Nat} (h : KeepsUnits s s1) (hq : Claims.NoWaiters s) (hst : (s.block b).standing = true)
  (him : (s.block b).imaged = false)
include h hq hst him

/-- A word replaced after a release, by what its value before makes of it. -/
theorem KeepsUnits.setWord_testTriggers {f : AWord → AWord} (hf : ∀ a : AWord, a.Fits → (f a).Fits) :
    WordSet b off (f (s.aword b off)) s ((s1.setWord b off (f (s1.aword b off))).testTriggers b off) := by
  have hword : s1.aword b off = s.aword b off := State.aword_congr h.blocks hst him
  obtain ⟨hset, hops, hwarps, hmccs, hst', him'⟩ := State.setWord_testTriggers (s := s1) (b := b) (off := off) (h.quiet hq)
    (by rw [h.block]; exact hst) (by rw [h.block]; exact him) (hf _ (AWord.of_fits _))
  exact ⟨hset.trans (congrArg f hword), hops.trans h.ops, hwarps.trans h.warps, hmccs.trans h.mccs, hst', him'⟩

end

theorem AWord.increment_word_fits {a : AWord} {n : Nat} (h : a.Fits) : (a.increment n).Fits :=
  AWord.increment_fits h.target h.gen h.scope h.high

section
variable {s : State} {k lanes b off : Nat} {o : Op} {e : Elem} {x : Mem} (hoi : o.i = .awarm x ∨ o.i = .arrive x)
include hoi

theorem wordOp_kind : o.i.wholeOp = false ∧ o.i.asksUnit = false ∧ o.i.isLoad = false ∧ ∀ a : Warp, a.bindOp o = a := by
  unfold Warp.bindOp
  obtain h | h := hoi
  iterate 2
    rw [h]
    exact ⟨rfl, rfl, rfl, fun _ => rfl⟩

theorem exec_performed_word (hk : s.op k = o) :
    exec (.memoryOpPerformed k lanes []) s = .next (s.performOp k lanes [] false) := by
  refine Eq.trans (b := execMemoryOpPerformed k lanes [] s) rfl ?_
  unfold execMemoryOpPerformed State.opPerformed
  obtain h | h := hoi
  iterate 2
    simp only [hk, h]
    rfl

theorem elemRelease_word : s.elemRelease o = s.opRelease o := by
  unfold State.elemRelease
  obtain h | h := hoi
  iterate 2 rw [h]

/-- An AWARM or an ARRIVE performed: its operation is over, and its word is what its element leaves. -/
theorem word_performed {r : State} {a : AWord} (hk : s.op k = o) (hst : o.st = .flying) (he : o.elems = [e])
    (hp : e.place = .scratch b off) (hl : bit lanes e.lane = true) (hd : e.done = false) (hq : Claims.NoWaiters s)
    (hready : (s.elemRelease o).elemReady o [] e = true) (hdo : (s.opRelease o).doElem o e 0 = (0, r))
    (hset : WordSet b off a s r) :
    ∃ t, exec (.memoryOpPerformed k lanes []) s = .next t ∧ t.op k = {} ∧ t.aword b off = a := by
  obtain ⟨hwhole, hunit, hload, -⟩ := wordOp_kind hoi
  obtain ⟨-, -, -, hbind⟩ := wordOp_kind (o := o.markDone 0 0) hoi
  have hhere : s.performsAt e false = true := by
    unfold State.performsAt
    rw [hp]
    rfl
  exact ⟨_, exec_performed_word hoi hk, performOp_word hk hst he hwhole hunit hload hbind hl hd hhere hq hready
    (by rw [elemRelease_word hoi]; exact hdo) hset⟩

end

section
variable {s : State} {b off : Nat} {o : Op} {e : Elem} {x : Mem} (hp : e.place = .scratch b off)
include hp

theorem doElem_awarm (hoi : o.i = .awarm x) : s.doElem o e 0 =
    (0, (s.setWord b off ((s.aword b off).arm e.data (bit x.sz 0))).testTriggers b off) := by
  unfold State.doElem
  simp only [hoi, hp]

theorem doElem_arrive (hoi : o.i = .arrive x) : ∃ s1, KeepsUnits s s1 ∧ s.doElem o e 0 =
    (0, (s1.setWord b off ((s1.aword b off).increment e.data)).testTriggers b off) := by
  refine ⟨if 3 ≤ (s.aword b off).scope then s.releaseFor (s.opCore o) o.warp o.hset o.after o.lanes else s, ?_, ?_⟩
  · split
    · exact s.keepsUnits_releaseFor _ _ _ _ _
    · exact .refl s
  · unfold State.doElem
    simp only [hoi, hp]
    rfl

end

/-! ## WAITG (R212) -/

section
variable {s : State} {w : Nat}

theorem State.warp_writeFrame (f : FrameInfo) : ((s.writeFrame w f).warp w).halted = (s.warp w).halted ∧
    ((s.writeFrame w f).warp w).cause = (s.warp w).cause := by
  unfold State.writeFrame
  extract_lets wp b h wp1 wp2
  have hwarp : ∀ (y : Warp) c a bs, ((s.setWarp w y).hardWrite c a bs).warp w = y := fun y _ _ _ =>
    State.warp_setWarp_same s w y
  split
  all_goals
    rw [hwarp]
    exact ⟨rfl, rfl⟩

/-- A halt keeps its cause with the warp (R414). -/
theorem State.haltAt_halts (t : Trap) (move : Option Nat) (reportPc head : Nat) :
    ((s.haltAt w t move reportPc head false).warp w).halted = true ∧
      ((s.haltAt w t move reportPc head false).warp w).cause = t.cause := by
  unfold State.haltAt
  extract_lets wp w1 queued w2 s1 s2
  have hframe : (s1.warp w).halted = w2.halted ∧ (s1.warp w).cause = w2.cause := by
    have h := State.warp_writeFrame (s := s.setWarp w w2) (w := w)
      { kind := 2, cause := t.cause, lane := t.lane, ps := t.ps, pc := reportPc, addr := t.addr, head := head }
    rw [State.warp_setWarp_same] at h
    exact h
  have hreport : ∀ r : State, (r.reportHalt w).warp w = r.warp w := fun _ => rfl
  have hend : s2.warp w = (s1.warp w).endRun := State.warp_setWarp_same s1 w _
  clear_value s1 s2
  rw [if_neg (by decide), hreport, hend]
  exact hframe

theorem State.faultWarp_halts (t : Trap) :
    ((s.faultWarp w t).warp w).halted = true ∧ ((s.faultWarp w t).warp w).cause = t.cause := by
  unfold State.faultWarp
  exact State.haltAt_halts t _ _ _

end

section
variable {s : State} {w b off : Nat} {x : Mem}

/-- The state in which a WAITG tests its word: what its mask's edges cover is written back (R136, R212). -/
def State.waitgReleased (s : State) (w : Nat) (x : Mem) : State :=
  if Scope.wide x.scope then
    s.releaseFor (s.block (s.warp w).block).core w (s.warp w).usesHandlerStreams x.after ((s.warp w).activeReal x.g)
  else s

/-- What a WAITG waits for. -/
def State.waitgWait (s : State) (w : Nat) (x : Mem) (p : Place) : Wait :=
  { kind := .arrival, instr := some (.waitg x), addr := (s.warp w).memAddr x false 0, place := p
    data := ((s.warp w).rdS x.d).toNat % 2 ^ 32, lanes := (s.warp w).activeReal x.g, since := s.time
    seq := (s.waitgReleased w x).nextSeq }

/-- A WAITG whose word has reached its generation has counted in its stream and goes on. -/
def State.waitgReached (s : State) (w : Nat) (x : Mem) : State :=
  let a := s.warp w
  let real := a.activeReal x.g
  let st := a.streams a.usesHandlerStreams
  ({ s.waitgReleased w x with nextSeq := (s.waitgReleased w x).nextSeq + 1 }.setWarp w
    (a.setStreams a.usesHandlerStreams ((st.issue real x.strm).complete real x.strm))).report w real a.pc

/-- A WAITG whose word has not reached its generation has parked its group, in the word's queue. -/
def State.waitgParked (s : State) (w : Nat) (x : Mem) (p : Place) : State :=
  let s1 := { s.waitgReleased w x with nextSeq := (s.waitgReleased w x).nextSeq + 1 }
  (if (s.warp w).watches then s1 else { s1 with past := s1.past.set [] w [] }).setWarp w
    ((s.warp w).park (s.warp w).group (fun _ => { s.waitgWait w x p with joined := (s.waitgReleased w x).nextSeq }))

theorem State.keepsUnits_waitgReleased (s : State) (w : Nat) (x : Mem) : KeepsUnits s (s.waitgReleased w x) := by
  unfold waitgReleased
  split
  · exact s.keepsUnits_releaseFor _ _ _ _ _
  · exact .refl s

theorem exec_waitg (x : Mem) (s : State) : exec (.waitg x) s = onWarp (.waitg x) (uniformReal x.g (waitgWarp x)) s := rfl

variable (h16 : (s.warp w).memAddr x false 0 % 16 = 0)
  (hp : s.resolveSa (s.warp w).block ((s.warp w).memAddr x false 0) 16 = .ok (.scratch b off))
  (hroom : (s.warp w).mustStall true x.strm ((s.warp w).activeReal x.g) = 0)
  (hmet : (s.waitgReleased w x).mayJoin w 0 (s.waitgWait w x (.scratch b off)) = true)
include h16 hp hroom hmet

/-- What a WAITG does that nothing holds up: by its word, as it then stands. -/
theorem waitgWarp_eq : waitgWarp x w s =
    if ((s.waitgReleased w x).aword b off).err then .trap { cause := 0x073, addr := (s.warp w).memAddr x false 0 } s
    else if ((s.waitgReleased w x).aword b off).reached (((s.warp w).rdS x.d).toNat % 2 ^ 32) then
      .ok (s.waitgReached w x)
    else .ok (s.waitgParked w x (.scratch b off)) := by
  unfold waitgWarp
  simp only [State.placeSa_ok h16 hp, hroom]
  rw [if_neg (by decide)]
  simp only [State.waitgReleased, State.waitgWait] at hmet
  simp only [hmet, Bool.true_and, if_true]
  rfl

end

section
variable (s : State) (w mask pc : Nat)

theorem State.warp_report_ne {u : Nat} (hu : u ≠ w) : (s.report w mask pc).warp u = s.warp u := by
  fun_cases State.report s w mask pc
  · rfl
  · rfl
  · exact State.warp_setWarp_ne _ _ _ _ hu

theorem State.warp_report : (s.report w mask pc).warp w = { s.warp w with lanes := ((s.report w mask pc).warp w).lanes } ∧
    ∀ l, (((s.report w mask pc).warp w).lane l).pc = ((s.warp w).lane l).pc ∧
      (((s.report w mask pc).warp w).lane l).st = ((s.warp w).lane l).st := by
  fun_cases State.report s w mask pc
  · exact ⟨rfl, fun _ => ⟨rfl, rfl⟩⟩
  · exact ⟨rfl, fun _ => ⟨rfl, rfl⟩⟩
  case case3 =>
    have h : ∀ (y : Warp) c p bs, ((s.setWarp w y).hardWrite c p bs).warp w = y := fun y _ _ _ => State.warp_setWarp_same s w y
    rw [h]
    refine ⟨mapLanes_eq _ _ _, fun l => ?_⟩
    rw [lane_mapLanes]
    split
    · exact ⟨rfl, rfl⟩
    · exact ⟨rfl, rfl⟩

end

/-- A warp that has counted both ends of an operation in its streams, and of whose threads reports alone have changed. -/
theorem Warp.counted_reported {a b : Warp} {mask strm : Nat} (hs : strm < 8)
    (hb : b = { a.setStreams a.usesHandlerStreams (((a.streams a.usesHandlerStreams).issue mask strm).complete mask strm) with
      lanes := b.lanes })
    (hl : ∀ l, (b.lane l).pc = ((a.setStreams a.usesHandlerStreams
        (((a.streams a.usesHandlerStreams).issue mask strm).complete mask strm)).lane l).pc ∧
      (b.lane l).st = ((a.setStreams a.usesHandlerStreams
        (((a.streams a.usesHandlerStreams).issue mask strm).complete mask strm)).lane l).st) :
    KeepsRegs [] a b ∧ Claims.CountedBoth a b mask strm ∧
      ∀ l, (b.lane l).pc = (a.lane l).pc ∧ (b.lane l).st = (a.lane l).st := by
  refine ⟨?_, countedBoth_of_streams hs (fun g => ?_), fun l => ?_⟩
  · rw [hb, Warp.setStreams_eq]
    exact ⟨fun _ _ _ _ => rfl, fun _ _ => rfl, fun _ _ => rfl, fun _ _ => rfl⟩
  · rw [hb]
    refine (Warp.streams_setStreams a g _ _).trans ?_
    split
    · next h => rw [h]
    · rfl
  · have h := hl l
    rw [Warp.setStreams_eq] at h
    exact h

section
variable {s : State} {w : Nat} {x : Mem}

theorem State.waitgReached_warps {u : Nat} (hu : u ≠ w) : (s.waitgReached w x).warp u = s.warp u := by
  have h := (s.keepsUnits_waitgReleased w x).warps
  refine (State.warp_report_ne _ w _ _ hu).trans ((State.warp_setWarp_ne _ _ _ _ hu).trans ?_)
  exact congrArg (fun c : Table Warp => c.get {} u) h

theorem State.waitgReached_warp (hs : x.strm < 8) :
    KeepsRegs [] (s.warp w) ((s.waitgReached w x).warp w) ∧
      Claims.CountedBoth (s.warp w) ((s.waitgReached w x).warp w) ((s.warp w).activeReal x.g) x.strm ∧
      ∀ l, (((s.waitgReached w x).warp w).lane l).pc = ((s.warp w).lane l).pc ∧
        (((s.waitgReached w x).warp w).lane l).st = ((s.warp w).lane l).st := by
  unfold State.waitgReached
  extract_lets a real st
  obtain ⟨hframe, hlanes⟩ := State.warp_report
    ({ s.waitgReleased w x with nextSeq := (s.waitgReleased w x).nextSeq + 1 }.setWarp w
      (a.setStreams a.usesHandlerStreams ((st.issue real x.strm).complete real x.strm))) w real a.pc
  rw [State.warp_setWarp_same] at hframe hlanes
  exact Warp.counted_reported hs hframe hlanes

theorem State.waitgParked_warps {u : Nat} {p : Place} (hu : u ≠ w) : (s.waitgParked w x p).warp u = s.warp u := by
  have h := (s.keepsUnits_waitgReleased w x).warps
  unfold waitgParked
  extract_lets s1
  refine (State.warp_setWarp_ne _ _ _ _ hu).trans ?_
  split <;> exact congrArg (fun c : Table Warp => c.get {} u) h

theorem State.waitgParked_warp (p : Place) : (s.waitgParked w x p).warp w =
    (s.warp w).park (s.warp w).group (fun _ => { s.waitgWait w x p with joined := (s.waitgReleased w x).nextSeq }) :=
  State.warp_setWarp_same _ _ _

theorem State.waitgParked_lane {l : Nat} (p : Place) (hl : l < 32) (hg : bit (s.warp w).group l = true)
    (hh : (s.warp w).isHelper l = false) : (((s.waitgParked w x p).warp w).lane l).st = .parked ∧
      (((s.waitgParked w x p).warp w).lane l).pc = (s.warp w).pc ∧
      (((s.waitgParked w x p).warp w).lane l).wait.kind = .arrival := by
  rw [waitgParked_warp, Warp.lane_park _ _ hl hg hh]
  exact ⟨rfl, rfl, rfl⟩

end

section
variable {s : State} {w b off : Nat} {x : Mem} (halone : Claims.Alone w (.waitg x) s b)
include halone

/-- What a WAITG finds where its warp has nothing in flight: its word as it was, and nothing that it must wait for. -/
theorem waitg_met (y : Wait) (hy : y.place = .scratch b off) :
    let s0 := (s.issued (.waitg x) w).waitgReleased w x
    s0.mayJoin w 0 y = true ∧ s0.aword b off = s.aword b off := by
  obtain ⟨-, -, hidle, hst, him, hf⟩ := halone
  intro s0
  have hkeeps : KeepsUnits (s.issued (.waitg x) w) s0 := State.keepsUnits_waitgReleased _ _ _
  have hissued : (s.issued (.waitg x) w).blocks = s.blocks := rfl
  refine ⟨State.mayJoin_idle hy ?_ (State.earlier_idle ?_ _), State.aword_congr (hkeeps.blocks.trans hissued) hst him⟩
  · rw [hkeeps.block]
    exact hf
  · rw [hkeeps.ops]
    exact hidle

/-- R212, where nothing holds the WAITG up. -/
theorem exec_waitg_alone (h0 : (s.atIssue (.waitg x) w).activeReal x.g ≠ 0)
    (hroom : (s.atIssue (.waitg x) w).mustStall true x.strm ((s.atIssue (.waitg x) w).activeReal x.g) = 0)
    (h16 : (s.atIssue (.waitg x) w).memAddr x false 0 % 16 = 0)
    (hp : s.resolveSa (s.atIssue (.waitg x) w).block ((s.atIssue (.waitg x) w).memAddr x false 0) 16 = .ok (.scratch b off)) :
    ((s.aword b off).err = true → ∃ t, exec (.waitg x) s = .next ((s.issued (.waitg x) w).faultWarp w t) ∧ t.cause = 0x073) ∧
    ((s.aword b off).err = false →
      (s.aword b off).reached (((s.atIssue (.waitg x) w).rdS x.d).toNat % 2 ^ 32) = true →
      exec (.waitg x) s = .next ((s.issued (.waitg x) w).waitgReached w x)) ∧
    ((s.aword b off).err = false →
      (s.aword b off).reached (((s.atIssue (.waitg x) w).rdS x.d).toNat % 2 ^ 32) = false →
      exec (.waitg x) s = .next ((s.issued (.waitg x) w).waitgParked w x (.scratch b off))) := by
  obtain ⟨hmet, hword⟩ := waitg_met (off := off) halone ((s.issued (.waitg x) w).waitgWait w x (.scratch b off)) rfl
  have hbody := (uniformReal_active (s := s.issued (.waitg x) w) (waitgWarp x) h0).trans
    (waitgWarp_eq (s := s.issued (.waitg x) w) h16 hp hroom hmet)
  rw [hword] at hbody
  refine ⟨fun he => ⟨_, (exec_waitg x s).trans (onWarp_trap halone.1 (hbody.trans (if_pos he))), rfl⟩, fun he hr => ?_,
    fun he hr => ?_⟩
  · exact (exec_waitg x s).trans (onWarp_ok halone.1 (hbody.trans ((if_neg (by simp [he])).trans (if_pos hr))))
  · exact (exec_waitg x s).trans (onWarp_ok halone.1 (hbody.trans ((if_neg (by simp [he])).trans
      (if_neg (Bool.eq_false_iff.mp hr)))))

end

theorem AWord.reached_iff (a : AWord) (d : Nat) :
    a.reached (d % 2 ^ 32) = true ↔ (a.gen + 2 ^ 32 - d % 2 ^ 32) % 2 ^ 32 < 2 ^ 31 := by
  unfold AWord.reached
  rw [Nat.mod_mod, decide_eq_true_iff]

end Machine
end Sys2Proof

open Sys2Proof Sys2Proof.Machine

/-- Settles O38: a word's bytes and fields determine each other, so that an operation performed leaves the word that
increment or arming makes; what issues is one operation with one element, and a WAITG of a warp with nothing in flight
goes by its word alone. -/
theorem arrivalWords : Obligations.ArrivalWords := by
  refine ⟨fun a n h => AWord.increment_counts h, ?_, ?_, ?_, ?_⟩
  · rintro w s x i data p hi hissue hs a sa h0 hroom h16 hp
    obtain ⟨rfl, rfl, hlow, hscope⟩ | ⟨rfl, rfl⟩ := hi
    · exact word_opEnters (exec_awarm x s) rfl rfl rfl hissue hs (awarmWarp_legal hlow hscope) h0 hroom h16 hp
    · exact word_opEnters (exec_arrive x s) rfl rfl rfl hissue hs arriveWarp_eq h0 hroom h16 hp
  · intro w s x hissue a v h0 hv
    exact (exec_awarm x s).trans (onWarp_trap hissue ((uniformReal_active (s := s.issued (.awarm x) w) _ h0).trans
      (awarmWarp_illegal hv)))
  · intro s k x lanes e b off o s0 hst he hp _ hl hd hb him hready hq
    have hrel := s.keepsUnits_releaseFor (s.opCore o) o.warp o.hset o.after o.wideLanes
    refine ⟨fun hi => ?_, fun hi => ?_⟩
    · have hoi : o.i = .arrive x := by unfold Op.i; rw [hi]; rfl
      obtain ⟨s1, hkeeps, hdo⟩ := doElem_arrive (s := s.opRelease o) hp hoi
      exact word_performed (.inr hoi) rfl hst he hp hl hd hq hready hdo
        ((hrel.trans hkeeps).setWord_testTriggers hq hb him (f := fun a => a.increment e.data)
          fun _ h => AWord.increment_word_fits h)
    · have hoi : o.i = .awarm x := by unfold Op.i; rw [hi]; rfl
      exact word_performed (.inl hoi) rfl hst he hp hl hd hq hready (doElem_awarm (s := s.opRelease o) hp hoi)
        (hrel.setWord_testTriggers hq hb him (f := fun a => a.arm e.data (bit x.sz 0)) fun _ h => AWord.arm_fits h)
  · intro w s x b off halone hs a sa word reached h0 hroom h16 hp
    obtain ⟨hfault, hgoes, hparks⟩ := exec_waitg_alone halone h0 hroom h16 hp
    have hother : ∀ u, u ≠ w → (s.issued (.waitg x) w).warp u = s.warp u := fun u hu => State.warp_issued_ne hu
    refine ⟨fun he => ?_, fun he hr => ?_, fun he hr => ?_⟩
    · obtain ⟨t, hexec, hcause⟩ := hfault he
      obtain ⟨hhalted, hkept⟩ := State.faultWarp_halts (s := s.issued (.waitg x) w) (w := w) t
      exact ⟨_, hexec, hhalted, hkept.trans hcause⟩
    · obtain ⟨hregs, hcounts, hlanes⟩ := State.waitgReached_warp (s := s.issued (.waitg x) w) (w := w) hs
      exact ⟨_, hgoes he ((AWord.reached_iff _ _).mpr hr), hregs, hcounts,
        fun u hu => (State.waitgReached_warps hu).trans (hother u hu), fun l _ => hlanes l⟩
    · have hwarp := State.waitgParked_warp (s := s.issued (.waitg x) w) (w := w) (x := x) (.scratch b off)
      refine ⟨_, hparks he (Bool.eq_false_iff.mpr (fun h => hr ((AWord.reached_iff _ _).mp h))), ?_,
        fun u hu => (State.waitgParked_warps hu).trans (hother u hu), ?_, ?_, fun l hl hg hh => ?_⟩
      · rw [hwarp]
        exact Warp.keepsRegs_park _ _ _
      · rw [hwarp, Warp.park_eq]
        rfl
      · rw [hwarp, Warp.park_eq]
        rfl
      · exact State.waitgParked_lane (s := s.issued (.waitg x) w) _ hl hg hh
end
